-- ==== Sys2Proof/Word.lean ====
section
/-! DEFINITION. The word types: 32-bit registers and hall words, 64-bit pairs, bytes (R4, R34, R55). -/

namespace Sys2Proof

/-- A 32-bit register or memory word (R34, R55). -/
abbrev Word := BitVec 32

/-- One byte of memory. -/
abbrev Byte := BitVec 8

/-- A virtual address, 56 bits (R1). -/
abbrev VAddr := BitVec 56

end Sys2Proof
end

