-- ==== Sys2Proof/Machine/SMap.lean ====
section
/-! DEFINITION. Sparse tables in one canonical form: keys strictly rising, no entry equal to the default that an
unlisted key reads as. Memory, tags, register files and accumulators are such tables. -/

namespace Sys2Proof.Machine

/-- A sparse table from numbers to α; what an unlisted key reads as is said by the operations' argument. -/
abbrev SMap (α : Type) := List (Nat × α)

namespace SMap

variable {α : Type}

/-- The value at key k; `d` where nothing is listed. -/
def get (d : α) (k : Nat) : SMap α → α
  | [] => d
  | (j, v) :: r => if j = k then v else get d k r

/-- Write v at key k, keeping the canonical form: writing the default removes the entry. -/
def set [DecidableEq α] (d : α) (k : Nat) (v : α) : SMap α → SMap α
  | [] => if v = d then [] else [(k, v)]
  | (j, u) :: r =>
    if k < j then (if v = d then (j, u) :: r else (k, v) :: (j, u) :: r)
    else if j = k then (if v = d then r else (k, v) :: r)
    else (j, u) :: set d k v r

/-- Keys from lo upward strictly rising, and no entry equal to the default. -/
def wfFrom [DecidableEq α] (d : α) (lo : Nat) : SMap α → Bool
  | [] => true
  | (j, v) :: r => decide (lo ≤ j) && decide (v ≠ d) && wfFrom d (j + 1) r

/-- The canonical form. -/
def wf [DecidableEq α] (d : α) (m : SMap α) : Bool := wfFrom d 0 m

/-- Write a list of values at consecutive keys. -/
def setList [DecidableEq α] (d : α) (k : Nat) : List α → SMap α → SMap α
  | [], m => m
  | v :: vs, m => setList d (k + 1) vs (set d k v m)

/-- Read n consecutive keys. -/
def getList (d : α) (k : Nat) : Nat → SMap α → List α
  | 0, _ => []
  | n + 1, m => get d k m :: getList d (k + 1) n m

end SMap

/-- A table of records by key: keys strictly rising, no default. -/
abbrev Tab (α : Type) := List (Nat × α)

namespace Tab

variable {α : Type}

def find? (k : Nat) : Tab α → Option α
  | [] => none
  | (j, v) :: r => if j = k then some v else find? k r

/-- The record at key k, or the one every unlisted key has. -/
def getD (d : α) (k : Nat) (m : Tab α) : α := (find? k m).getD d

def put (k : Nat) (v : α) : Tab α → Tab α
  | [] => [(k, v)]
  | (j, u) :: r => if k < j then (k, v) :: (j, u) :: r else if j = k then (k, v) :: r else (j, u) :: put k v r

def del (k : Nat) : Tab α → Tab α
  | [] => []
  | (j, u) :: r => if j = k then r else (j, u) :: del k r

/-- Change the record at key k, if there is one. -/
def mod (k : Nat) (f : α → α) : Tab α → Tab α
  | [] => []
  | (j, u) :: r => if j = k then (j, f u) :: r else (j, u) :: mod k f r

end Tab

/-- Bits hi:lo of a number. -/
def bitsOf (v hi lo : Nat) : Nat := v / 2 ^ lo % 2 ^ (hi + 1 - lo)

/-- The little-endian number of a list of bytes (R336). -/
def leNat : List Byte → Nat
  | [] => 0
  | b :: r => b.toNat + 256 * leNat r

/-- The n little-endian bytes of a number. -/
def leBytes : Nat → Nat → List Byte
  | 0, _ => []
  | n + 1, v => BitVec.ofNat 8 v :: leBytes n (v / 256)

/-- 4n bytes as n words, lowest address in the lowest bits. -/
def leWords : List Byte → List Word
  | a :: b :: c :: d :: r => BitVec.ofNat 32 (leNat [a, b, c, d]) :: leWords r
  | _ => []

end Sys2Proof.Machine
end

