-- ==== Sys2Proof/Machine/Val.lean ====
section
/-! DEFINITION. Exact values: what a pattern of any format of R55 stands for. -/

namespace Sys2Proof.Machine

/-- An exact value: NaN (and NaR), an infinity, or ± m × 2^e. Zero is m = 0 and keeps its sign. -/
inductive Val where
  | nan
  | inf (neg : Bool)
  | fin (neg : Bool) (m : Nat) (e : Int)
  deriving DecidableEq, Repr

end Sys2Proof.Machine
end

