-- ==== Sys2Proof/Syntax.lean ====
section
/-! DEFINITION. The abstract syntax: one constructor of `Instr` per row of spec/opcode_table.json.
The first part are the instructions (R232 to R237, R110, R137); the second part are the events, whose arguments
name the unit that acts and the values that the spec leaves to the outside (host, control kernel, sensors). -/

namespace Sys2Proof

/-- The A, D, IM and OPND operand codes 0 to 124 (R230). -/
inductive Reg where
  | g (n : Fin 120)
  | t (n : Fin 4)
  | z
  deriving DecidableEq, Repr

/-- The B operand: a register code, a scalar extension (code 125) or a literal extension (code 126) (R230). -/
inductive Src where
  | reg (r : Reg)
  | sreg (n : Fin 384)
  | lit (w : Word)
  deriving DecidableEq, Repr

/-- The second operand SA of format SS (R227). -/
inductive SSrc where
  | s (n : Fin 384)
  | lit (w : Word)
  | g (n : Fin 120)
  | z
  deriving DecidableEq, Repr

/-- The four places (R3), coded as PLACE's FN (R39). -/
inductive Place where
  | lane | core | cluster | pier
  deriving DecidableEq, Repr

/-- The clause classes in the order of their codes (R32). -/
inductive Class where
  | lane | core | matrix | cluster | pier | copy | control | scalar
  deriving DecidableEq, Repr

/-- ADD and SUB: wrap, .sat.i, .sat.n (R301). -/
inductive SatMode where
  | wrap | satI | satN
  deriving DecidableEq, Repr

/-- Wrapping or saturating (ABS, NEG, PADD, PSUB). -/
inductive Sat where
  | wrap | sat
  deriving DecidableEq, Repr

/-- .i (INT32) or .n (NAT32). -/
inductive Sign where
  | i | n
  deriving DecidableEq, Repr

/-- CMP's relations (R323). -/
inductive CmpRel where
  | eq | ne | ltI | leI | ltN | leN
  deriving DecidableEq, Repr

/-- FCMP's relations (R330). -/
inductive FRel where
  | eq | ne | lt | le | un
  deriving DecidableEq, Repr

/-- The FN of FADD, FSUB, FMUL and FFMA (R58). -/
inductive FMode where
  | rn | rz | ru | rd | t | x
  deriving DecidableEq, Repr

/-- Rounding modes (R81); FRND's FN (R58). -/
inductive Rnd where
  | rn | rz | ru | rd
  deriving DecidableEq, Repr

/-- FCVT's conversions (R68). -/
inductive Cvt where
  | iRz | iRn | fI | fN | bf2
  | fBf (hi : Bool)
  | t8 (k : Fin 4) | fT8 (k : Fin 4)
  | t6 (k : Fin 4) | fT6 (k : Fin 4)
  | iH (hi : Bool)
  deriving DecidableEq, Repr

/-- A shift amount: the immediate B field (0 to 31) or an operand (R232). -/
inductive Amt where
  | imm (n : Fin 32)
  | src (b : Src)
  deriving DecidableEq, Repr

/-- Load widths, FN 0 to 5 (R336). -/
inductive LdW where
  | bn | bi | hn | hi | w | d
  deriving DecidableEq, Repr

/-- Store widths, FN 0, 2, 4, 5 (R388). -/
inductive StW where
  | b | h | w | d
  deriving DecidableEq, Repr

/-- ATOM's operations, FN 0 to 9 (R303). -/
inductive AtomOp where
  | addI | minI | maxI | minN | maxN | and | or | xor | exch | fadd
  deriving DecidableEq, Repr

/-- SLIDE's four forms, FN 1 to 4 of OP 0x38 (R233). -/
inductive SlideOp where
  | upW | dnW | upH | dnH
  deriving DecidableEq, Repr

/-- VOTE's forms (R391). -/
inductive VoteOp where
  | any | all | bal
  deriving DecidableEq, Repr

/-- REDX's reductions (R366). -/
inductive RedOp where
  | addI | minI | maxI | fadd
  deriving DecidableEq, Repr

/-- SGBKT's representatives (R150). -/
inductive Rep where
  | first | mean | maxnorm
  deriving DecidableEq, Repr

/-- FENCE's orders (R135). -/
inductive Order where
  | acq | rel | acqRel | sc
  deriving DecidableEq, Repr

/-- FENCE's scopes (R135). -/
inductive Scope where
  | bench | form | core | cluster | die | device | system
  deriving DecidableEq, Repr

/-- The special registers WRSR may write (R392). -/
inductive WSr where
  | ns | prio
  deriving DecidableEq, Repr

/-- Guard kinds (R84, R124). -/
inductive GKind where
  | none | fe | barrier | chbar | ring | chunk | lock
  deriving DecidableEq, Repr

/-- A clause header (R43, R223). `set` is the SET code, 0 to 6. -/
structure Header where
  count : Nat
  cls : Class
  wait : BitVec 6
  set : Nat
  sw : Bool
  tf : Bool
  pf : Bool
  deriving DecidableEq, Repr

/-- Why the decoder refuses an encoding: the causes 0x02, 0x03 and 0x04 of R238. -/
inductive DecErr where
  | illegalClause
  | illegalOpcode
  | illegalOperand
  deriving DecidableEq, Repr

/-- Word formats (R225 to R229). -/
inductive Fmt where
  | a | im | ss | w2 | b
  deriving DecidableEq, Repr

/-- One instruction of a clause before its fields are decoded: its word index, its word 0, its word 1 and its
extension word, and whether the class's map lists its OP (R224). -/
structure Item where
  idx : Nat
  w0 : Word
  w1 : Word
  ext : Word
  listed : Bool
  deriving DecidableEq, Repr

/-- A throttle position (R189). -/
structure Pos where
  phi : Nat
  passes : Nat
  deriving DecidableEq, Repr

/-- A placement of one bench: device core index, slot row, first lane (R14). -/
structure Seat where
  core : Nat
  row : Nat
  lane : Nat
  deriving DecidableEq, Repr

/-- A causeway flit (R219): CLASS, LEN, DEST, SEQ, TAG, PAYLOAD, ACK and CRC. -/
structure Flit where
  cls : Nat
  len : Nat
  dest : Nat
  seq : Nat
  tag : Nat
  payload : List Word
  ack : Nat
  crc : BitVec 64
  deriving DecidableEq, Repr

/-- What a forced save needs to be told: the form, and whether the host asks for it (R184, R218). -/
structure SaveRequest where
  form : Nat
  host : Bool
  deriving DecidableEq, Repr

/-- A reply of a main-memory stack: its tag, and whether it corrected an error (R205, R214). -/
structure HbmAnswer where
  tag : Nat
  corrected : Bool
  deriving DecidableEq, Repr

/-- The unit that met an uncorrectable error, and what the host chooses for it in host-assisted mode (R214, R218). -/
structure HbmError where
  unit : Nat
  choice : Nat
  deriving DecidableEq, Repr

/-- A hall error: the storage address, and whether it was corrected (R92). -/
structure HallError where
  addr : Nat
  soft : Bool
  deriving DecidableEq, Repr

/-- A move to evaluate: the form that the kernel names in host-assisted mode, and the target cluster (R193, R218). -/
structure MoveChoice where
  form : Nat
  target : Nat
  deriving DecidableEq, Repr

/-- Where the host writes in a mailbox window, and how many bytes (R364). -/
structure HostPlace where
  off : Nat
  size : Nat
  deriving DecidableEq, Repr

/-- What the boot reads: the SPI image with its CRC-32, and the kernel that each root port gives; and the functions that the
kernel binds (R216, R217). -/
structure BootSource where
  image : List Byte
  crc : Word
  kernels : List (Option (List Byte))
  binding : List (Nat × List Nat × Nat)
  deriving DecidableEq, Repr

/-- A cluster's configured maximum step and its temperature threshold (R188, R193). -/
structure ClusterLimits where
  phi : Nat
  threshold : Nat
  deriving DecidableEq, Repr

/-- The instructions and events of spec/opcode_table.json. -/
inductive Instr where
  -- integer, bit and move instructions of the compute map (R232)
  | abs (m : Sat) (d : Reg) (b : Src)
  | add (m : SatMode) (d a : Reg) (b : Src)
  | addScalar (m : SatMode) (d : Fin 384) (a : SSrc)
  | and (d a : Reg) (b : Src)
  | andScalar (d : Fin 384) (a : SSrc)
  | bfi (d a : Reg) (b : Src)
  | bfiScalar (d : Fin 384) (a : SSrc)
  | bfx (m : Sign) (d a : Reg) (b : Src)
  | bfxScalar (m : Sign) (d : Fin 384) (a : SSrc)
  | clz (d : Reg) (b : Src)
  | clzScalar (d : Fin 384) (a : SSrc)
  | cmp (r : CmpRel) (d a : Reg) (b : Src)
  | cmpScalar (r : CmpRel) (d : Fin 384) (a : SSrc)
  | lea (n : Fin 5) (d a : Reg) (b : Src)
  | leaScalar (n : Fin 5) (d : Fin 384) (a : SSrc)
  | mad (d a : Reg) (b : Src)
  | max (m : Sign) (d a : Reg) (b : Src)
  | maxScalar (m : Sign) (d : Fin 384) (a : SSrc)
  | min (m : Sign) (d a : Reg) (b : Src)
  | minScalar (m : Sign) (d : Fin 384) (a : SSrc)
  | mov (d : Reg) (b : Src)
  | movScalar (d : Fin 384) (a : SSrc)
  | mul (d a : Reg) (b : Src)
  | mulScalar (d : Fin 384) (a : SSrc)
  | mulh (m : Sign) (d a : Reg) (b : Src)
  | mulhScalar (m : Sign) (d : Fin 384) (a : SSrc)
  | neg (m : Sat) (d : Reg) (b : Src)
  | or (d a : Reg) (b : Src)
  | orScalar (d : Fin 384) (a : SSrc)
  | popc (d : Reg) (b : Src)
  | popcScalar (d : Fin 384) (a : SSrc)
  | rot (d a : Reg) (n : Amt)
  | rotScalar (d : Fin 384) (a : SSrc)
  | sel (d a : Reg) (b : Src)
  | selScalar (d : Fin 384) (a : SSrc)
  | shl (d a : Reg) (n : Amt)
  | shlScalar (d : Fin 384) (a : SSrc)
  | shr (m : Sign) (d a : Reg) (n : Amt)
  | shrScalar (m : Sign) (d : Fin 384) (a : SSrc)
  | shrr (d a : Reg) (n : Amt)
  | sub (m : SatMode) (d a : Reg) (b : Src)
  | subScalar (m : SatMode) (d : Fin 384) (a : SSrc)
  | xor (d a : Reg) (b : Src)
  | xorScalar (d : Fin 384) (a : SSrc)
  -- packed (R357)
  | pack (x : Bool) (d a : Reg) (b : Src)
  | padd (m : Sat) (d a : Reg) (b : Src)
  | pdot2 (x : Bool) (d a : Reg) (b : Src)
  | psub (m : Sat) (d a : Reg) (b : Src)
  -- floating point (R329 to R334, R313)
  | fadd (m : FMode) (d a : Reg) (b : Src)
  | fsub (m : FMode) (d a : Reg) (b : Src)
  | fmul (m : FMode) (d a : Reg) (b : Src)
  | ffma (m : FMode) (d a : Reg) (b : Src)
  | fcmp (r : FRel) (d a : Reg) (b : Src)
  | fcvt (c : Cvt) (d a : Reg) (b : Src)
  | fmax (d a : Reg) (b : Src)
  | fmin (d a : Reg) (b : Src)
  | frnd (m : Rnd) (d : Reg) (b : Src)
  | bfma (x : Bool) (d a : Reg) (b : Src)
  -- SFU and activation table (R327, R299, R300)
  | cospi (d : Reg) (b : Src)
  | ex2 (d : Reg) (b : Src)
  | lg2 (d : Reg) (b : Src)
  | rcp (d : Reg) (b : Src)
  | rsq (d : Reg) (b : Src)
  | sinpi (d : Reg) (b : Src)
  | sqrt (d : Reg) (b : Src)
  | tanh (d : Reg) (b : Src)
  | act (n : Fin 4) (d : Reg) (b : Src)
  | actld (n : Fin 4) (a : Reg)
  -- memory (R336 to R338, R388, R303, R320)
  | ld (wd : LdW) (d a : Reg) (off : BitVec 9)
  | ldScalar (wd : LdW) (d : Fin 384) (a : SSrc)
  | st (wd : StW) (d a : Reg) (off : BitVec 9)
  | stScalar (wd : StW) (d : Fin 384) (a : SSrc)
  | ldfe (d a : Reg) (off : BitVec 9)
  | stfe (d a : Reg) (off : BitVec 9)
  | ldw (wd : LdW) (d a : Reg) (off : BitVec 9)
  | atom (op : AtomOp) (d a : Reg) (b : Src)
  | cas (d a : Reg) (b : Src)
  -- cross-lane (R233, R310)
  | bcast (d a : Reg) (b : Src) (m : Fin 384) (fill : Reg)
  | xmatch (d a : Reg) (m : Fin 384)
  | rank (d a : Reg) (m : Fin 384)
  | redx (op : RedOp) (d a : Reg) (m : Fin 384)
  | shfl (d a : Reg) (b : Src) (m : Fin 384) (fill : Reg)
  | slide (op : SlideOp) (d a : Reg) (b : Src) (m : Fin 384) (fill : Reg)
  | vote (op : VoteOp) (d a : Reg) (m : Fin 384)
  | xshfl (d a : Reg) (b : Src) (m : Fin 384) (fill : Reg)
  -- control (R236)
  | bra (off : BitVec 19)
  | brz (a : Reg) (off : BitVec 19)
  | brnz (a : Reg) (off : BitVec 19)
  | brx (b : Src)
  | call (gl : Fin 120) (off : BitVec 19)
  | ret (b : Fin 120)
  | join
  | exit
  | trap (b : Src)
  | rett (nxt : Bool)
  | yield
  | sleep (b : Src)
  | grow (d : Reg) (n : Src)
  | shrink (n : Src)
  | place (g : Fin 120) (p : Place)
  | rdsr (d : Reg) (r : Fin 26)
  | wrsr (r : WSr) (b : Src)
  | send (wide : Bool) (a : Reg) (b : Src)
  | recv (wide : Bool) (d a : Reg)
  | launch (d a : Reg) (b : Fin 120)
  | cwait (n : Fin 8) (a : Reg) (b : Src)
  | ctest (n : Fin 8) (d a : Reg) (b : Src)
  | fence (o : Order) (sc : Scope)
  | bind (a : Reg) (b : Src) (guard : Reg) (kind : GKind) (idx : BitVec 8)
  | barinit (a : Reg) (b : Src)
  | bararr (ch : Bool) (d a : Reg)
  | barwait (ch : Bool) (a : Reg) (b : Src)
  | barfree (a : Reg)
  | ringinit (a : Reg) (b : Src)
  | ringacq (d a : Reg)
  | ringpub (a : Reg) (b : Src)
  | ringtake (d a : Reg)
  | ringdone (a : Reg) (b : Src)
  | savep (p : Place) (a : Reg)
  | loadp (p : Place) (a : Reg)
  | nop
  -- COPY (R110)
  | cpy (ch : Fin 64) (a : Reg) (r : Fin 384)
  | cpyg (wide : Bool) (ch : Fin 64) (a : Reg) (b : Fin 120)
  | cpys (wide : Bool) (ch : Fin 64) (a : Reg) (b : Fin 120)
  | qfence (ch : Fin 64) (m : Fin 384)
  | cred (ch : Fin 64) (a : Reg) (r : Fin 384) (bit : Fin 256)
  | cgath (ch : Fin 64) (a : Reg) (r : Fin 384) (bit : Fin 256)
  -- MATRIX (R137)
  | mma (z ws x : Bool) (acc : Fin 4) (roll : Fin 16) (a : Reg) (b : Src)
  | mmconv (z ws x : Bool) (acc : Fin 4) (roll : Fin 16) (a : Reg) (b : Src) (r : Fin 384) (kb : BitVec 16)
  | mzero (acc : Fin 4) (roll : Fin 16)
  | mload (acc : Fin 4) (roll : Fin 16) (a : Reg)
  | mstore (acc : Fin 4) (roll : Fin 16) (a : Reg) (b : Src)
  | msave (a : Reg)
  | mrestore (a : Reg)
  | spk (a : Reg) (b : Src)
  | sghash (n : Fin 13) (d a : Reg) (b : Src)
  | sgbkt (m : Rep) (d : Reg) (roll : Fin 16) (a : Reg) (b : Src) (sS sL : Fin 384) (off : Fin 64)
  | sgsum (mean : Bool) (roll : Fin 16) (a : Reg) (sS : Fin 384) (gm : Reg)
  | rolldecl (roll : Fin 16) (a : Reg) (sK : Fin 384)
  -- events: threads and forms
  | sleepExpire (t : Nat)
  | clauseDispatch (t : Nat)
  | clauseCommit (t : Nat)
  | longLatencyResult (t : Nat) (k : Nat)
  | asyncTrapTaken (t : Nat)
  | watchdogExpire (f : Nat)
  | growDeadlock (core : Nat)
  | parkTimeout (t : Nat)
  | forcedSave (r : SaveRequest)
  | formYielded (f : Nat)
  -- events: timetable and scheduler
  | doorbell (fn slot : Nat) (va : VAddr) (img : List Word)
  | nodeComplete (n : Nat)
  | formAdmit (f : Nat) (seats : List Seat)
  | stagingComplete (f : Nat)
  | formRetire (f : Nat)
  | writeBackComplete (f : Nat)
  | copyNodeStart (n : Nat)
  | weightLoadStart (n : Nat)
  | collectiveNodeStart (n : Nat)
  | hostEventPost (n : Nat)
  -- events: engines
  | copyOpStart (cl q : Nat)
  | chunkBitSet (cl q chunk : Nat)
  | fineGrainDone (cl q : Nat)
  | collectivePerformed (cl k : Nat) (arrivals : List (List Word))
  | rollRoundIssue (f fc roll : Nat)
  | matrixOpComplete (f fc op : Nat)
  | slewGrant (cl core : Nat)
  | rampStepBoundary (cl : Nat)
  | fillerEnd (cl core : Nat)
  | actldComplete (core : Nat)
  | channelBarrierRelease (id cl : Nat)
  | counterCreate (id target : Nat) (devices : List Nat)
  -- events: translation
  | tlbMissWalk (cl ctx : Nat) (va : VAddr)
  | tlbWalkComplete (cl k : Nat)
  | installTranslation (cl ctx : Nat) (va : VAddr) (pte : BitVec 64)
  | tlbInvalidate (ctx : Nat) (lo hi : VAddr)
  -- events: control kernel and debug
  | kernelResumeThread (t : Nat) (nxt : Bool)
  | kernelEndLaunch (n err : Nat)
  | comparatorProgram (core idx : Nat) (en : Bool) (ctx : Nat) (va : VAddr)
  | stepModeSet (t : Nat) (on : Bool)
  -- events: main memory
  | hbmReply (stack pch : Nat) (r : HbmAnswer)
  | hbmUncorrectable (stack atom : Nat) (e : HbmError)
  | hbmFreqChange (stack st : Nat)
  | hbmRetrainGroupDone (stack : Nat)
  | hbmTempChange (stack temp : Nat)
  | remapInstall (stack : Nat) (e : BitVec 64)
  | remapRemove (stack slot : Nat)
  | nrctlWrite (stack : Nat) (w : Word)
  | nrseedWrite (stack : Nat) (w : Word)
  | wsRefreshOpen (die bank temp : Nat)
  | wsRefreshClose (die bank : Nat)
  | hallScrubError (f : Nat) (e : HallError)
  -- events: power and droop
  | sequencerStepDone (cl : Nat)
  | packagePowerSample (watts : Nat)
  | thermalSample (cl temp : Nat)
  | thermalDemandStep (cl : Nat)
  | migrationEval (cl : Nat) (c : MoveChoice) (seats : List Seat)
  | formMigrate (f : Nat)
  | epochBoundary
  | throttleReportReceive (group member epoch : Nat) (pos : Pos) (level : Option Nat)
  | telemetrySample (freq vbus : Nat)
  | sampleGap
  | sampvWrite (w : Word)
  | drpCommit (w : Word)
  | rampWrite (cl : Nat) (w : Word)
  | modectlWrite (w : Word)
  | recctlWrite (w : Word)
  | mgmtRegisterWrite (off : Nat) (w : Word)
  -- events: host and links
  | mailboxHostRead (fn off : Nat)
  | mailboxHostWriteWord (fn : Nat) (p : HostPlace) (w : Word)
  | mailboxHostWritePair (fn off : Nat) (lo hi : Word)
  | flitReceive (port : Nat) (fl : Flit)
  | portRetrainFail (port : Nat)
  | powerOnBoot (b : BootSource) (roots : List (Nat × Nat)) (remaps : List (Nat × BitVec 64))
  | effectivePriorityAging (f : Nat)
  | configuredMaximumWrite (cl : Nat) (l : ClusterLimits)
  | vfTableWrite (cl phi code : Nat)
  | pageRefetchComplete (unit : Nat)
  deriving DecidableEq, Repr

end Sys2Proof
end

