-- ==== Sys2Proof/Machine/Num.lean ====
section
/-! DEFINITION. Numbers to the bit: decoding, the one rounding function, tapered codes, block scales and conversions
(R55 to R68, R81). A BF16 pattern is the upper half of an FP32 pattern, so one rounding serves both. -/

namespace Sys2Proof.Machine

/-- The canonical NaN (R56). -/
def qNaN : Word := 0x7FC00000

/-- NV, OF, UF, NX and SAT as bits of NS (R60). -/
def fNV : BitVec 5 := 1
def fOF : BitVec 5 := 2
def fUF : BitVec 5 := 4
def fNX : BitVec 5 := 8
def fSAT : BitVec 5 := 16

/-! ## Exact values -/

/-- FP32 (R55, R56). -/
def valOfFP32 (w : Word) : Val :=
  let x := w.toNat
  let neg := decide (2 ^ 31 ≤ x)
  let e : Nat := x / 2 ^ 23 % 256
  let f : Nat := x % 2 ^ 23
  if e = 255 then (if f = 0 then .inf neg else .nan)
  else if e = 0 then .fin neg f (-149)
  else .fin neg (f + 2 ^ 23) ((e : Int) - 150)

/-- BF16 in the low 16 bits of h (R57). -/
def valOfBF16 (h : Nat) : Val := valOfFP32 (BitVec.ofNat 32 (h % 65536 * 65536))

def valOfInt (i : Int) : Val := .fin (decide (i < 0)) i.natAbs 0

def Val.neg : Val → Val
  | .nan => .nan
  | .inf s => .inf !s
  | .fin s m e => .fin (!s) m e

def Val.isZero : Val → Bool
  | .fin _ 0 _ => true
  | _ => false

/-- Times 2^k, exactly. -/
def Val.scale (k : Int) : Val → Val
  | .fin s m e => .fin s m (e + k)
  | v => v

/-- The exact product; NaN for 0 × ∞ (R56). -/
def Val.mul : Val → Val → Val
  | .nan, _ => .nan
  | _, .nan => .nan
  | .inf s, .inf t => .inf (s != t)
  | .inf s, .fin t m _ => if m = 0 then .nan else .inf (s != t)
  | .fin s m _, .inf t => if m = 0 then .nan else .inf (s != t)
  | .fin s m e, .fin t n f => .fin (s != t) (m * n) (e + f)

/-- The signed integer that a finite magnitude is at exponent e0, which is at most its own. -/
def signedAt (neg : Bool) (m : Nat) (e e0 : Int) : Int :=
  let x : Int := ((m * 2 ^ (e - e0).toNat : Nat) : Int)
  if neg then -x else x

/-- The exact sum; NaN for ∞ − ∞. `down` is the sign of an exact zero from addends that are not both −0 or both +0
(R329). -/
def Val.add (down : Bool) : Val → Val → Val
  | .nan, _ => .nan
  | _, .nan => .nan
  | .inf s, .inf t => if s = t then .inf s else .nan
  | .inf s, .fin _ _ _ => .inf s
  | .fin _ _ _, .inf t => .inf t
  | .fin s m e, .fin t n f =>
    let e0 := min e f
    let z := signedAt s m e e0 + signedAt t n f e0
    if z = 0 then .fin (if s = t then s else down) 0 e0
    else .fin (decide (z < 0)) z.natAbs e0

/-- Order of two values that are not NaN, −0 equal to +0. -/
def Val.lt : Val → Val → Bool
  | .nan, _ => false
  | _, .nan => false
  | .inf s, .inf t => s && !t
  | .inf s, .fin _ _ _ => s
  | .fin _ _ _, .inf t => !t
  | .fin s m e, .fin t n f =>
    let e0 := min e f
    decide (signedAt s m e e0 < signedAt t n f e0)

def Val.eq : Val → Val → Bool
  | .nan, _ => false
  | _, .nan => false
  | a, b => !a.lt b && !b.lt a

/-- The magnitude. -/
def Val.abs : Val → Val
  | .nan => .nan
  | .inf _ => .inf false
  | .fin _ m e => .fin false m e

/-! ## Rounding (R59, R81) -/

/-- Whether the quotient rounds away from zero: `r` the kept part, `rem` of `den` what is left. -/
def roundUp (mode : Rnd) (neg : Bool) (r rem den : Nat) : Bool :=
  match mode with
  | .rn => decide (den < 2 * rem) || (decide (2 * rem = den) && r % 2 == 1)
  | .rz => false
  | .ru => !neg && decide (rem ≠ 0)
  | .rd => neg && decide (rem ≠ 0)

/-- floor(log2 (num / den)) for positive num and den. -/
def log2Rat (num den : Nat) : Int :=
  let l : Int := (num.log2 : Int) - (den.log2 : Int)
  if l < 0 then (if den ≤ num * 2 ^ (-l).toNat then l else l - 1)
  else (if den * 2 ^ l.toNat ≤ num then l else l - 1)

/-- num / den × 2^k as a quotient of naturals. -/
def shiftRat (num den : Nat) (k : Int) : Nat × Nat :=
  if 0 ≤ k then (num * 2 ^ k.toNat, den) else (num, den * 2 ^ (-k).toNat)

/-- Round ± num/den × 2^e to p fraction bits with an 8-bit exponent. Answers the magnitude's code (biased exponent
above p fraction bits) and the flags OF, UF and NX of R59. -/
def roundCode (mode : Rnd) (p : Nat) (neg : Bool) (num den : Nat) (e : Int) : Nat × BitVec 5 :=
  if num = 0 then (0, 0)
  else
    let l := log2Rat num den + e
    let qe : Int := max (l - p) (-126 - p)
    let q := shiftRat num den (e - qe)
    let r := q.1 / q.2
    let rem := q.1 % q.2
    let r1 := if roundUp mode neg r rem q.2 then r + 1 else r
    let code := (qe + p + 126).toNat * 2 ^ p + r1
    let q' := shiftRat num den (e - (l - p))
    let r' := q'.1 / q'.2
    let r1' := if roundUp mode neg r' (q'.1 % q'.2) q'.2 then r' + 1 else r'
    let tiny := decide (l < -127) || (decide (l = -127) && decide (r1' < 2 ^ (p + 1)))
    if 255 * 2 ^ p ≤ code then
      (match mode with
       | .rn => 255 * 2 ^ p
       | .rz => 255 * 2 ^ p - 1
       | .ru => if neg then 255 * 2 ^ p - 1 else 255 * 2 ^ p
       | .rd => if neg then 255 * 2 ^ p else 255 * 2 ^ p - 1, fOF ||| fNX)
    else (code, if rem = 0 then 0 else if tiny then fUF ||| fNX else fNX)

/-- Round a value to FP32; an exact zero keeps its sign. -/
def roundFP32 (mode : Rnd) : Val → Word × BitVec 5
  | .nan => (qNaN, 0)
  | .inf s => (if s then 0xFF800000 else 0x7F800000, 0)
  | .fin s m e =>
    let c := roundCode mode 23 s m 1 e
    (BitVec.ofNat 32 ((if s then 2 ^ 31 else 0) + c.1), c.2)

/-- RoundRN(x, FP32). -/
def rnFP32 (v : Val) : Word := (roundFP32 .rn v).1

/-- RoundRN(x, BF16), as 16 bits (R57). -/
def rnBF16 : Val → Nat
  | .nan => 0x7FC0
  | .inf s => if s then 0xFF80 else 0x7F80
  | .fin s m e => (if s then 2 ^ 15 else 0) + (roundCode .rn 7 s m 1 e).1

/-- RoundRN(x / k, FP32) for a positive k (R150, R152). -/
def rnDiv (v : Val) (k : Nat) : Word :=
  match v with
  | .fin s m e => BitVec.ofNat 32 ((if s then 2 ^ 31 else 0) + (roundCode .rn 23 s m k e).1)
  | v => rnFP32 v

/-- The integer nearest to a finite value in the given mode, with its sign. -/
def roundToInt (mode : Rnd) (neg : Bool) (m : Nat) (e : Int) : Int :=
  let q := shiftRat m 1 e
  let r := q.1 / q.2
  let r1 := if roundUp mode neg r (q.1 % q.2) q.2 then r + 1 else r
  if neg then -(r1 : Int) else r1

/-- Clamp an integer. -/
def clampInt (lo hi x : Int) : Int := if x < lo then lo else if hi < x then hi else x

def sat32 (x : Int) : Int := clampInt (-2 ^ 31) (2 ^ 31 - 1) x
def satN32 (x : Int) : Int := clampInt 0 (2 ^ 32 - 1) x
def sat16 (x : Int) : Int := clampInt (-2 ^ 15) (2 ^ 15 - 1) x
def sat8 (x : Int) : Int := clampInt (-2 ^ 7) (2 ^ 7 - 1) x

/-- Sat of RoundInt to a format of n bits; infinities saturate, NaN gives 0 (R67, R68). -/
def satInt (mode : Rnd) (n : Nat) : Val → Int
  | .nan => 0
  | .inf s => if s then -2 ^ (n - 1) else 2 ^ (n - 1) - 1
  | .fin s m e => clampInt (-2 ^ (n - 1)) (2 ^ (n - 1) - 1) (roundToInt mode s m e)

/-! ## Tapered codes (R62, R63) -/

/-- Length of the run of bits equal to `b` from bit n − 1 of v downward. -/
def runLen (b : Nat) : Nat → Nat → Nat
  | 0, _ => 0
  | n + 1, v => if v / 2 ^ n % 2 = b then 1 + runLen b n v else 0

/-- The magnitude of a tapered body of n bits, not 0: significand and exponent (R62). -/
def taperMag (n body : Nat) : Nat × Int :=
  let b := body / 2 ^ (n - 1) % 2
  let k := runLen b n body
  let r : Int := if b = 1 then (k : Int) - 1 else -(k : Int)
  let left := n - k - 1
  let e := if left = 0 then 0 else body / 2 ^ (left - 1) % 2
  let m := left - 1
  (2 ^ m + body % 2 ^ m, 2 * r + (e : Int) - (m : Int))

/-- Decode a tapered code with an n-bit body (R62). -/
def valOfTaper (n bits : Nat) : Val :=
  let body := bits % 2 ^ n
  let s := bits / 2 ^ n % 2 = 1
  if body = 0 then (if s then .nan else .fin false 0 0)
  else let q := taperMag n body; .fin s q.1 q.2

def valOfT8 (bits : Nat) : Val := valOfTaper 7 bits
def valOfT6 (bits : Nat) : Val := valOfTaper 5 bits

/-- The largest body up to `top` whose magnitude is at most x; 0 if none. -/
def taperFloor (n : Nat) (x : Val) : Nat → Nat
  | 0 => 0
  | b + 1 =>
    let q := taperMag n (b + 1)
    if x.lt (.fin false q.1 q.2) then taperFloor n x b else b + 1

/-- EncodeT8 and EncodeT6 (R63). -/
def encodeTaper (n : Nat) : Val → Nat
  | .nan => 2 ^ n
  | .inf _ => 2 ^ n
  | .fin s m e =>
    if m = 0 then 0
    else
      let x : Val := .fin false m e
      let big := 2 ^ n - 1
      let lo := taperFloor n x big
      let body :=
        if lo = big then big
        else if lo = 0 then 1
        else
          let a := taperMag n lo
          let b := taperMag n (lo + 1)
          let down := x.add false (.fin true a.1 a.2)
          let up := (Val.fin false b.1 b.2).add false (.fin true m e)
          if down.lt up then lo else if up.lt down then lo + 1 else if lo % 2 = 0 then lo else lo + 1
      (if s then 2 ^ n else 0) + body

def encodeT8 (v : Val) : Nat := encodeTaper 7 v
def encodeT6 (v : Val) : Nat := encodeTaper 5 v

/-! ## Block scales and conversions (R65 to R67) -/

/-- ceil(log2 m × 2^e) for m > 0. -/
def ceilLog2 (m : Nat) (e : Int) : Int := (m.log2 : Int) + e + (if 2 ^ m.log2 = m then 0 else 1)

/-- The larger magnitude. -/
def maxAbs (a b : Val) : Val := if a.abs.lt b.abs then b.abs else a.abs

/-- ScaleFor (R66): emax is 12 for T8 and 8 for T6. -/
def scaleFor (emax : Int) (vs : List Val) : Nat :=
  if vs.any (fun v => match v with | .fin _ _ _ => false | _ => true) then 255
  else
    match vs.foldl maxAbs (.fin false 0 0) with
    | .fin _ m e => if m = 0 then 127 else (clampInt 0 254 (127 + ceilLog2 m e - emax)).toNat
    | _ => 255

/-- Apply an E8 scale (R65). -/
def scaled (e : Nat) (v : Val) : Val := if e = 255 then .nan else v.scale ((e : Int) - 127)

/-- Divide by an E8 scale; under the scale 255, NaN, so that every code of the block is NaR (R66, R71; log 82). -/
def unscaled (e : Nat) (v : Val) : Val := if e = 255 then .nan else v.scale (127 - (e : Int))

/-- Convert to an unscaled format (R67): the storage bits of one element. -/
def convertBits (fmt : Nat) (v : Val) : Nat :=
  match fmt with
  | 2 => rnBF16 v
  | 3 => encodeT8 v
  | 4 => encodeT6 v
  | 5 => (BitVec.ofInt 8 (satInt .rn 8 v)).toNat
  | 6 => (BitVec.ofInt 16 (satInt .rn 16 v)).toNat
  | _ => (rnFP32 v).toNat

/-! ## FP32 operations (R56, R329, R330, R333, R334) -/

/-- The mode and the treatment of exceptions of an FN (R58). -/
def fmodeRnd : FMode → Rnd
  | .rz => .rz | .ru => .ru | .rd => .rd | _ => .rn

def isNaN (w : Word) : Bool := valOfFP32 w == .nan

/-- The mould of R329: an exact result rounded once, with its flags. `nan` says an operand is NaN. -/
def fpResult (mode : Rnd) (nan : Bool) (e : Val) : Word × BitVec 5 :=
  if nan then (qNaN, 0)
  else match e with
    | .nan => (qNaN, fNV)
    | v => roundFP32 mode v

def fpAdd (mode : Rnd) (a b : Word) : Word × BitVec 5 :=
  fpResult mode (isNaN a || isNaN b) ((valOfFP32 a).add (mode == .rd) (valOfFP32 b))
def fpSub (mode : Rnd) (a b : Word) : Word × BitVec 5 :=
  fpResult mode (isNaN a || isNaN b) ((valOfFP32 a).add (mode == .rd) (valOfFP32 b).neg)
def fpMul (mode : Rnd) (a b : Word) : Word × BitVec 5 :=
  fpResult mode (isNaN a || isNaN b) ((valOfFP32 a).mul (valOfFP32 b))
/-- d + a × b, rounded once. -/
def fpFma (mode : Rnd) (d a b : Word) : Word × BitVec 5 :=
  fpResult mode (isNaN d || isNaN a || isNaN b)
    ((valOfFP32 d).add (mode == .rd) ((valOfFP32 a).mul (valOfFP32 b)))

/-- RoundRN of a sum of two FP32 patterns. -/
def rnAdd (a b : Word) : Word := (fpAdd .rn a b).1
/-- RoundRN of a fused s + a × b. -/
def rnFma (s a b : Word) : Word := (fpFma .rn s a b).1

/-- FCMP (R330). -/
def fpCmp (r : FRel) (a b : Word) : Bool :=
  let x := valOfFP32 a
  let y := valOfFP32 b
  let un := isNaN a || isNaN b
  match r with
  | .eq => x.eq y
  | .ne => un || !x.eq y
  | .lt => x.lt y
  | .le => !un && !y.lt x
  | .un => un

/-- −0 below +0, else by value: the order of FMIN and FMAX (R56, R333). -/
def fpBelow (a b : Word) : Bool :=
  let x := valOfFP32 a
  let y := valOfFP32 b
  x.lt y || (x.eq y && x.isZero && decide (2 ^ 31 ≤ a.toNat) && decide (b.toNat < 2 ^ 31))

def fpMax (a b : Word) : Word :=
  if isNaN a then (if isNaN b then qNaN else b) else if isNaN b then a else if fpBelow a b then b else a
def fpMin (a b : Word) : Word :=
  if isNaN a then (if isNaN b then qNaN else b) else if isNaN b then a else if fpBelow b a then b else a

/-- FRND (R334). -/
def fpRnd (mode : Rnd) (b : Word) : Word :=
  match valOfFP32 b with
  | .nan => qNaN
  | .inf _ => b
  | .fin s m e =>
    let i := roundToInt mode s m e
    if i = 0 then (if s then 0x80000000 else 0) else rnFP32 (valOfInt i)

end Sys2Proof.Machine
end

