-- ==== Sys2Proof/Config.lean ====
section
/-! DEFINITION. What the spec leaves to the part or leaves free. The opaque constants have no value that a proof can
see: a statement about them holds for every value. -/

namespace Sys2Proof.Config

/-- Which of the results inside its bound an SFU returns (R75): an index into the list of allowed results, as a
function of the operation and its operand (R327: the result depends only on its input). Free (log 8). -/
opaque sfuChoice : Nat → Word → Nat

/-- A free value for each draw: `draw n` is the n-th (log 15, log 25). -/
opaque draw : Nat → Nat

/-- The VF code fused at test for step phi, relative to a running maximum (R187); free per part (log 26). -/
opaque fusedStep : Nat → Nat

/-- The next state of the 32-bit LFSR of R212, whose polynomial the spec does not give (log 25). -/
opaque lfsrNext : Word → Word

/-- The CRC-32 of the boot image and of recorded regions, whose polynomial the spec does not give (R217, R220, log 68). -/
opaque crc32 : List Byte → Word

/-- The CRC-64 of a flit's bytes 0 to 247, whose polynomial the spec does not give (R219, log 36). -/
opaque crc64 : List Byte → BitVec 64

/-- This device's id, and the causeway port that leads to a device (R219, log 36). -/
opaque deviceId : Nat
opaque portTo : Nat → Nat

/-- The fused voltage code of step phi: nondecreasing in phi and at most 95 (R187). -/
def fusedVF : Nat → Nat
  | 0 => fusedStep 0 % 96
  | n + 1 => max (fusedVF n) (fusedStep (n + 1) % 96)

/-- The value an unlisted byte of memory reads as (DESIGN CHOICE, log 5). -/
def blankByte : Byte := 0

end Sys2Proof.Config
end

