-- ==== Sys2Proof/Machine/State.lean ====
section
/-! DEFINITION. The machine's state: everything the spec gives the J7, as plain data (INVENTORY.md, "State"). -/

namespace Sys2Proof.Machine

/-- Bytes by address, one canonical form (sorted, no entry equal to `Config.blankByte`). -/
abbrev Memory := List Host.Cell

/-- The canonical form of a memory. -/
def Memory.wf (m : Memory) : Bool := SMap.wf Config.blankByte m

/-- The faults of the model itself; the traps of the instruction set are next states (R53, R169). -/
inductive Fault where
  /-- A thread's instruction is executed while the current thread has no open clause, or names no thread. Raised by
  `runWord`. Safe: the hardware has no such state, since every word it executes stands in a dispatched clause (R51). -/
  | noClause
  deriving DecidableEq, Repr

/-- Why an instruction has no meaning. -/
inductive Refusal where
  /-- The instruction has no meaning in the model yet. Raised by `exec` only. Safe: the model stops. -/
  | notModelled (mnemonic : String)
  deriving DecidableEq, Repr

/-- The answer of a step. -/
abbrev Out (σ : Type) := Host.Outcome σ Fault Refusal

/-! ## Hall words -/

/-- The tag of a hall storage word (R88, R394). -/
inductive Tag where
  | empty | full | object | poisoned
  deriving DecidableEq, Repr

/-- The kinds of hall object (R91). -/
inductive ObjKind where
  | barrier | ring | bitmap
  deriving DecidableEq, Repr

/-- What a buffered write does to the tags of its words (R89, R91). -/
inductive TagFx where
  | keep | full | empty | object (k : ObjKind) | plain
  deriving DecidableEq, Repr

/-- A value that is converted into an element as its store is performed: the format and geometry of the element's segment,
where the segment's storage begins, the element's index, and the value (R71, R388). -/
structure ElemConv where
  fmt : Nat
  geom : Nat
  sb : Nat
  idx : Nat
  val : Word
  deriving DecidableEq, Repr

/-- One buffered write: storage bytes from `addr` on, and the tags of the words they lie in (R51, R89). `conv`: the bytes
are what a value converts to; those of `bytes` are what the storing clause itself reads back. -/
structure HallW where
  addr : Nat
  bytes : List Byte
  tag : TagFx
  conv : Option ElemConv := none
  deriving DecidableEq, Repr

/-- Who waits on a hall object or channel, in order of arrival (R90, R309, R365, R371). `seq` is the issue number of
the waiting clause, by which reservations are served (R297), and `phase` the phase that a BARWAIT names (R309); `done`:
that phase has completed, so that the BARWAIT returns whatever becomes of the object. -/
inductive WaitKind where
  | ldfe | stfe | barrier | ringAcq | ringTake | reserve | recv | send | channel
  deriving DecidableEq, Repr

structure Waiter where
  thread : Nat
  kind : WaitKind
  addrs : List Nat
  seq : Nat := 0
  phase : Nat := 0
  done : Bool := false
  deriving DecidableEq, Repr

/-- A run-time binding of a hall range to a guard (R123, R315). -/
structure Bind where
  lo : Nat
  hi : Nat
  kind : GKind
  guard : Word
  idx : BitVec 8
  deriving DecidableEq, Repr

/-! ## Matrix contexts -/

/-- A signature: the signer, its clause's SET field, its A value, its B value and its other operands (R139): for MMCONV
the record, for SGBKT the value and the code of D, for SGSUM gm; and the instruction itself. -/
structure Sig where
  thread : Nat
  set : Nat
  a : Word
  b : Word
  extra : List Word
  ins : Instr
  deriving DecidableEq, Repr

/-- A roll: its signer set and the signatures of the round under way, with the round's key (R138, R139). -/
structure Roll where
  base : Nat
  mask : BitVec 64
  key : Option (Instr × List Word)
  sigs : List Sig
  deriving DecidableEq, Repr

/-- An element of an A row of the array: a value; a padded position of MMCONV with the pad value; or a K-padded or
skipped position, an exact zero (R74, R146, R147). -/
inductive MElem where
  | val (v : Val)
  | pad (v : Val)
  | skip
  deriving DecidableEq, Repr

/-- An issued operation of the array or of the gather and signature unit. Its memory operands were read at issue
(R140). `ins` is the instruction as the lowest live rank gave it, `rows` are the live ranks with their signers, `a` and
`b` the operands of R74, `words` the FP32 rows of MLOAD, SGBKT and SGSUM by signer and `raw` the storage bytes of SGBKT's,
`set` the base and the size of the roll's set, `writes` the memory writes that are known at issue, `grp` is G and
`nextGroup` the number of groups already summed. `late`: an MSAVE or an MRESTORE whose clause has committed but which waits
for earlier operations of its own clause: the image's address, and the image to load (R153, R348). `base`: the hall at
issue, with the writes that earlier operations have performed since, where some were still held back (log 77). -/
structure MOp where
  id : Nat
  ins : Instr
  rows : List (Nat × Sig)
  a : List (List MElem)
  b : List (List Val)
  words : List (List Word)
  writes : List HallW
  grp : Nat
  nextGroup : Nat
  late : Option (Nat × List Word) := none
  raw : List (List Byte) := []
  set : Nat × Nat := (0, 0)
  base : Option Memory := none
  deriving DecidableEq, Repr

/-- A form's context on one of its cores (R136): accumulators keyed acc × 4096 + row × 64 + column. A frozen context
holds the operation that it stopped, if any (R153). -/
structure MCtx where
  acc : SMap Word
  rolls : Tab Roll
  ops : List MOp
  frozen : Option (Option MOp)
  deriving DecidableEq, Repr

/-! ## Threads -/

/-- The waits of R27, with the data that a wait keeps, and the waits that other rules give: for a fetch (R106), of an
instruction for outstanding results or operations (`drain`: R28, R39, R41, R153, R166, R180, R348), of a clause for its
turn (`held`: R51, R52), and for a frozen context (R153). Token and dispatch waits come before a clause dispatches. -/
inductive Wait where
  | none | token | fullEmpty | barrier | channelBarrier | ring | chunk | roll | cross | join | channel
  | grow (since : Nat) | sleep (till : Nat) | dispatch | reservation | engine | fence | fetch | frozen
  | drain | held
  deriving DecidableEq, Repr

/-- The last column of R27: whether a wait is on an object of the thread's own form; a frozen context counts as the roll
that the clause waits for (log 89). -/
def Wait.ownForm : Wait → Bool
  | .fullEmpty | .barrier | .ring | .chunk | .roll | .cross | .join | .reservation | .frozen => true
  | _ => false

/-- The waits whose last column in R27 is "No". -/
def Wait.outside : Wait → Bool
  | .token | .channelBarrier | .channel | .grow _ | .sleep _ | .dispatch | .engine | .fence => true
  | _ => false

/-- What has become of a thread (R28, R174, R179, R184, R201). -/
inductive Status where
  | live | exited | yielded | stopped | parked | kernel
  deriving DecidableEq, Repr

/-- Where a long-latency result goes (R46). -/
inductive LatDst where
  | none
  | g (n : Nat)
  | s (n : Nat)
  deriving DecidableEq, Repr

/-- Which unit completes an outstanding result (R46, R141, R300, R181). -/
inductive LatKind where
  | value | matrix (op : Nat) | actld (op : Nat) | restored
  deriving DecidableEq, Repr

/-- One outstanding long-latency result: one count of its token (R47). `seq` is the issue number of its clause (R36). -/
structure Lat where
  tok : Option (Fin 6)
  dst : LatDst
  val : Word
  kind : LatKind
  seq : Nat := 0
  deriving DecidableEq, Repr

/-- A layout record with the formats and geometries of its two sides (R111, R112). `known`: both sides had a translation
when the formats were taken (log 45). -/
structure Plan where
  src : Nat
  dst : Nat
  cols : Nat
  rows : Nat
  sstr : Nat
  dstr : Nat
  sf : Nat
  sg : Nat
  df : Nat
  dg : Nat
  known : Bool
  deriving DecidableEq, Repr

/-- A copy-engine operation (R111 to R118). `left` are the chunks not yet performed; `held` the destination bytes
computed before any write, unit by unit, when the extents overlap (R111); `moved` are the units performed so far of chunks
whose bits are not yet set (R114). -/
inductive CopyKind where
  | bulk (p : Plan) (bitmap : Nat) (left : List Nat) (held : Option (List (List Byte)))
  | gather (size hall va : Nat)
  | scatter (data : List Byte) (va : Nat)
  | qfence (queues : List Nat)
  deriving DecidableEq, Repr

/-- A cached translation: context, page number in units of 64 KiB, size code and leaf entry (R100, R103). -/
structure TlbEntry where
  ctx : Nat
  page : Nat
  size : Nat
  pte : BitVec 64
  deriving DecidableEq, Repr

/-- An operation in a queue. `tick` is when it reached the engine, `pos` the place of its thread by core, lane and slot row,
and `bundle` the address and the issue tick of its clause, of a fine-grain copy (R116, R118). `used` are the entries by which
units of chunks that are begun and not yet done have been translated (R105). -/
structure CopyOp where
  id : Nat
  thread : Nat
  form : Nat
  started : Bool
  kind : CopyKind
  moved : List Nat := []
  tick : Nat := 0
  pos : Nat := 0
  bundle : Option (Nat × Nat) := none
  used : List (Nat × TlbEntry) := []
  deriving DecidableEq, Repr

/-- A collective outstanding at a cluster (R119 to R121); `node` is its timetable node if a node started it. -/
structure Coll where
  id : Nat
  thread : Nat
  form : Nat
  node : Option Nat
  cap : BitVec 64
  gather : Bool
  rc : List Word
  bit : Option (Nat × Nat)
  before : List Nat
  deriving DecidableEq, Repr

/-- An act that a clause performs when it commits, in word order (R51, R52). `slot` and `d` say which buffered register
write holds a status that is known only then; an arrival that `holds` its counter has given its phase to a temporary
(R306). -/
inductive CommitAct where
  | place (n : Nat) (p : Place)
  | grow (n : Nat)
  | shrink (n : Nat)
  | wrNs (v : BitVec 5)
  | wrPrio (v : Nat)
  | clk (v : BitVec 64)
  | send (cap : Nat) (msg : List Word)
  | recv (peer : Bool) (src : Nat)
  | barrier
  | arrive (id slot : Nat) (d : Option Nat) (holds : Bool)
  | bind (b : Bind)
  | launch (img : List Word) (va : Nat) (pte : BitVec 64) (slot : Nat) (d : Option Nat)
  | loadp (p : Place) (area : List Word)
  | exit
  | yield
  | rett (nxt : Bool)
  | copy (queues : List Nat) (k : CopyKind)
  | scatter (queue offset size va : Nat)
  | coll (c : Coll)
  | rolldecl (roll base : Nat) (mask : BitVec 64)
  | msave (addr op : Nat)
  | mrestore (a : Word) (idx op : Nat)
  | ringdone (o slot : Nat)
  | matrix (op : MOp)
  | actld (bank : Nat) (image : List Word) (op : Nat)
  deriving DecidableEq, Repr

/-- An outstanding clause (R43, R51): its words as dispatched and those still to execute, its temporaries (R35), the
s registers of its cross-lane masks as read at dispatch (R310), those of its layout records as read at issue (R111, R119),
and its buffered effects. `seq` is its issue number (R36, R297), `tick` the clock as it issued, which its bundle shares
(R23); `wait` is the wait that it is in; `signed` are the words whose rounds have issued, with their operations (log 69). -/
structure Clause where
  va : VAddr
  hdr : Header
  todo : List (Nat × Instr)
  temps : SMap Word
  masks : List (Nat × Word)
  gw : List (Nat × Word)
  sw : List (Nat × Word)
  hw : List HallW
  nsOr : BitVec 5
  lats : List Lat
  acts : List CommitAct
  next : VAddr
  fenced : Bool
  seq : Nat := 0
  tick : Nat := 0
  words : List (Nat × Instr) := []
  recs : List (Nat × Word) := []
  wait : Wait := .none
  signed : List (Nat × Nat) := []
  deriving DecidableEq, Repr

/-- A trap that waits until the earlier clauses have committed and the results of R53 or R178 have arrived. -/
structure Pending where
  cause : Nat
  pc : VAddr
  word : Nat
  place : Nat
  data : Nat
  addr : Word
  async : Bool
  deriving DecidableEq, Repr

/-- A thread (R12, R13). `wait` is the wait that it is in before its next clause dispatches. -/
structure Thread where
  form : Nat
  tid : Nat
  bench : Nat
  blane : Nat
  core : Nat
  row : Nat
  lane : Nat
  pc : VAddr
  g : SMap Word
  place : SMap Place
  w : Nat
  ns : BitVec 5
  lats : List Lat
  clauses : List Clause
  trapState : Bool
  tcause : Word
  tpc : Word
  tpchi : Word
  tinfo : Word
  taddr : Word
  pending : Option Pending
  pend10 : Bool
  pend11 : Bool
  pend13 : Bool
  clk : BitVec 64
  met : SMap Nat
  status : Status
  wait : Wait
  sw : Bool
  age : Nat
  step : Bool
  noBreak : Option VAddr
  deriving DecidableEq, Repr

/-! ## Benches and forms -/

/-- One arrival at a meeting of a cross-lane or JOIN word (R310, R335): the ord-th execution of the word by the thread
at `blane`. `excl` are members that are not awaited and supply fill; once the meeting is complete for the thread (`done`)
`got` holds its participants' values, until the thread has taken them. -/
structure Arrival where
  word : Nat
  ord : Nat
  blane : Nat
  a : Word
  mask : BitVec 64
  excl : List Nat
  done : Bool
  taken : Bool
  got : List (Nat × Word)
  deriving DecidableEq, Repr

/-- A bench: where it stands and its scalar registers (R14); `last` is the issue number of each register's latest write
(R36). -/
structure Bench where
  seat : Seat
  s : SMap Word
  meets : List Arrival
  last : SMap Nat := []
  deriving DecidableEq, Repr

/-- The life of a form (R17, R29, R164, R177). -/
inductive Phase where
  | queued | staging | running | yielding | writeBack | done
  deriving DecidableEq, Repr

/-- How a form starts when it is admitted (R182, R183). -/
inductive Resume where
  | fresh | restore | direct
  deriving DecidableEq, Repr

/-- An activation-table bank (R77). -/
structure Bank where
  l : Word
  q : Word
  m : SMap Word
  c : SMap Word
  owner : Option Nat
  deriving DecidableEq, Repr

/-- A form (R16). `rcd` is its launch record, word by word (R162). `savedBanks` are the banks of a forced save, by the
form's core index and bank number (R183); `moved` is the tick of its admission or last move (R193); `move` is the cluster and the seats that a migration has reserved (R194); `asked`: a yield request has reached it while
its staging was under way (R177). -/
structure Form where
  node : Nat
  lin : Nat
  rcd : SMap Word
  fn : Nat
  ctx : Nat
  part : List Nat
  phase : Phase
  prio : Nat
  cluster : Nat
  cores : List Nat
  admitted : Nat
  moved : Nat
  benches : List Bench
  hall : Memory
  tags : SMap Tag
  objs : Tab ObjKind
  binds : List Bind
  resv : List (Nat × Nat)
  waiters : List Waiter
  owned : List (Nat × Nat × Nat)
  ctxs : List MCtx
  sent : SMap Nat
  shed : Bool
  shedPrio : Nat
  shedTick : Nat
  level : Nat
  watchdog : Nat
  yieldTick : Nat
  resume : Resume
  savedBanks : List (Nat × Nat × Bank)
  move : Option (Nat × List Seat)
  asked : Bool := false
  deriving DecidableEq, Repr

/-! ## Clusters, cores, stacks, dies -/

/-- A page walk or a unit paused on a translation (R104, R106). -/
structure Walk where
  ctx : Nat
  page : Nat
  deriving DecidableEq, Repr

/-- One matrix request or grant of the limiter (R191). -/
inductive CoreRun where
  | idle | stream | filler (since : Nat)
  deriving DecidableEq, Repr

/-- A step of the voltage and frequency sequencer under way (R188). -/
inductive SeqStep where
  | phiDown | voltUp | phiUp | voltDown
  deriving DecidableEq, Repr

/-- What a form holds on a cluster: its cores in form order, its seats (none once only its hall is left, R29), its hall
storage, and the words of each lane that its threads' allotments take (R164). -/
structure Hold where
  rcd : SMap Word
  cluster : Nat
  cores : List Nat
  seats : List Seat
  hall : Bool
  lanes : List (Nat × Nat × Nat)
  deriving DecidableEq, Repr

/-- A pre-emption on a cluster (R165): the form that it makes room for, the victims, and what they have freed for it. -/
structure Reserve where
  form : Nat
  victims : List Nat
  holds : List Hold
  deriving DecidableEq, Repr

/-- A line of a cluster's instruction cache: 64 bytes of code by the physical address of their place in a page, with the
page's format and geometry (R2, R239). -/
structure CodeLine where
  pa : Nat
  fmt : Nat
  geom : Nat
  words : List Word
  deriving DecidableEq, Repr

/-- A cluster (R2, R187 to R193, R116, R103). `reserved` are the pre-emptions under way on it (R165); `thermalTick` and
`migTick` are the ticks of the last thermal demand step and of the last migration evaluation (R190, R193). `icache` is its
instruction cache, most recently used first, and `launches` are the launches that it has fetched for (R239); `level` is
the shed level that its throttle groups have adopted (R195). `requests` are the waiting requests of the slew limiter: the
tick in which each began, its place among those of that tick, and its core; `reached` are the cores that barrier releases
have reached, in their order; a core that the limiter has granted since leaves an 8 in its place, so that the others keep
theirs (R168, R191). -/
structure Cluster where
  phi : Nat
  volt : Nat
  stepping : Option SeqStep
  vf : List Nat
  maxPhi : Nat
  thermal : Pos
  temp : Nat
  threshold : Nat
  thermalTick : Nat
  migTick : Nat
  reserved : List Reserve
  group : Pos
  ramp : Word
  rampNext : Option Word
  rampIdx : Nat
  run : Tab CoreRun
  requests : List (Nat × Nat × Nat)
  reached : List Nat
  waitedBefore : Bool
  boundary : Nat
  cyc : Nat
  l2 : List TlbEntry
  misses : List Walk
  walks : List Walk
  icache : List CodeLine := []
  launches : List Nat := []
  level : Option Nat := none
  queues : Tab (List CopyOp)
  colls : List Coll
  deriving DecidableEq, Repr

/-- An instruction-address comparator: an enable bit, a context, and VA bits 55:2 of one word (R185). -/
structure Comp where
  en : Bool
  ctx : Nat
  word : BitVec 54
  deriving DecidableEq, Repr

/-- An ACTLD in flight, with the issue number of its clause (R79, R300). -/
structure BankLoad where
  op : Nat
  bank : Nat
  image : List Word
  form : Nat
  seq : Nat := 0
  deriving DecidableEq, Repr

/-- A core (R2, R77, R103, R167, R185). -/
structure Core where
  banks : Tab Bank
  loads : List BankLoad
  l1 : List TlbEntry
  comps : Tab Comp
  growIdle : Nat
  deriving DecidableEq, Repr

/-- An HBM stack and its base die (R196, R204 to R213). `dropped`: it runs one frequency state lower for its heat (R196). -/
structure Stack where
  freq : Nat
  temp : Nat
  dropped : Bool
  refresh : Nat
  retrain : Option (Nat × Nat)
  wanted : List Nat
  tags : List (Nat × Nat × Nat)
  waiting : List (Nat × Nat)
  remap : Tab Nat
  sram : Memory
  nrctl : Word
  nrseed : Word
  lfsr : Word
  deriving DecidableEq, Repr

/-- A die's weight-store refresh state (R96): whether second windows are in force in the period `period` and after it, and
whether they were in the period before. -/
structure Die where
  double : Bool
  was : Bool
  period : Nat
  openBanks : List Nat
  deriving DecidableEq, Repr

/-! ## Device -/

/-- A grid barrier counter (R168, R305). `order` are the clusters that releases have still to reach, each with the phase that
was released. -/
structure Counter where
  target : Nat
  phase : Word
  arrived : Nat
  devices : List Nat
  clStart : Nat
  coreStart : SMap Nat
  order : List (Nat × Word)
  deriving DecidableEq, Repr

/-- An inserted timetable node (R157), by the physical address of its first word. Its words stand in memory, in the page
that the leaf entry `pte` maps at `va` (R395, log 17). `succ` are the addresses of its successors, in list order. For a launch, `rcd` is the record as read at insertion, its
forms have the keys `fbase` + linear index, those below `next` have been admitted, and `retired` of them have retired;
for a collective or a host event `retired` is 1 once it is performed. `aged` is the levels that its forms have gained by
waiting (R164). -/
structure Node where
  va : Nat
  fn : Nat
  ctx : Nat
  part : List Nat
  kind : Nat
  body : List Word
  seq : Nat
  readyTick : Nat
  prio : Nat
  succ : List Nat
  rcd : SMap Word
  forms : Nat
  fbase : Nat
  next : Nat
  retired : Nat
  aged : Nat
  pte : BitVec 64 := 0
  deriving DecidableEq, Repr

/-- A message in a channel: its words not yet delivered, and the form and capability that sent it, if one did (R364). -/
structure Msg where
  words : List Word
  sender : Option (Nat × Nat)
  deriving DecidableEq, Repr

/-- The droop registers and the droop follower (R197 to R200). `sampf` and `sampv` are the
last sample of the port, `written` and `writtenV` what the host last wrote to SAMPF and SAMPV; `hist` are the Lhys of the
consecutive samples so far, newest first and at most 2,000, and `fall` is the level that a full run of them has earned; `lnew` is the level that a sample has raised L to at the next boundary. -/
structure Droop where
  drp : List Word
  staged : List Word
  shedt0 : Word
  shedt1 : Word
  staged0 : Word
  staged1 : Word
  nom : Bool
  nomNext : Bool
  commit : Bool
  refused : Bool
  sampf : Word
  sampv : Word
  written : Word
  writtenV : Word
  level : Nat
  ceiling : Nat
  pct : Nat
  hist : List Nat
  fall : Option Nat
  lnew : Nat
  lastTick : Nat
  gap : Bool
  deriving DecidableEq, Repr

/-- The package demand (R190). -/
structure Package where
  pos : Pos
  low : Nat
  deriving DecidableEq, Repr

/-- A throttle-group report (R195). -/
structure Report where
  group : Nat
  member : Nat
  epoch : Nat
  pos : Pos
  level : Nat
  deriving DecidableEq, Repr

/-- A causeway port (R219). Receiving: `seqs` is, by class, one more than the last SEQ delivered, `next` the first SEQ not
received in order and `got` those received beyond it; `failed`: a flit has failed its CRC, and from then on `held` keeps the
flits that come out of order (log 36); `rx` are the flits delivered. Sending: `tx` are the flits not yet acknowledged, the
last SEQ used before `txSeq`. -/
structure Port where
  up : Bool
  seqs : SMap Nat
  next : Nat
  got : List Nat
  failed : Bool
  held : List Flit
  rx : List Flit
  tx : List Flit
  txSeq : Nat
  deriving DecidableEq, Repr

/-- An item of a recording (R220): an inserted node with its epoch and its launch record's words; the droop follower as
the recording begins, with the ticks since its last sample (log 68); the checksum of a region at staging or write-back; a
telemetry sample with its epoch, and whether a gap of 10 ms came before it (R200); a neighbour-refresh seed; the arrival order
of a collective at this member, by the launch or node, the form, the thread, the group and the record's fields; the order
of a barrier release in a cluster. Epochs count from the write of RECCTL. -/
inductive RecItem where
  | node (fn ctx va epoch : Nat) (host : Bool) (img rcd : List Word)
  | follower (d : Droop)
  | region (node lin idx : Nat) (out : Bool) (crc : Word)
  | sample (epoch freq vbus : Nat) (broken : Bool)
  | seed (stack : Nat) (w : Word)
  | arrivals (node lin tid group : Nat) (fields : List Word) (order : List Nat)
  | grants (id cl : Nat) (order : List Nat)
  deriving DecidableEq, Repr

/-- The control cluster (R217): its SRAM, which of its 8 cores run, and the root port that the kernel was loaded from. -/
structure Control where
  sram : Memory
  cores : List Bool
  rootPort : Option Nat
  deriving DecidableEq, Repr

/-- What the control kernel's log records (R92, R106, R174, R184, R192, R195 to R199, R211, R212, R214, R215, R219). -/
inductive LogItem where
  | hallError (form addr : Nat) | scrub | corrected (stack atom : Nat) | translation (ctx page : Nat) | region (form : Nat) | trap (thread : Nat) (regs : List Word)
  | parked (form : Nat) | ramp (cl : Nat) | curve | gap | groupError (group : Nat) | remap | nrctl | nrseed
  | hbm (stack atom : Nat) | weight (unit : Nat) | doorbell (fn slot : Nat) | mailbox (fn n : Nat) | port (n : Nat)
  | ended (node err : Nat) | collective (group : Nat) | recctl | vf | cause0F (form : Nat)
  deriving DecidableEq, Repr

/-- An act of the agenda (log 1): an event; whatever thread t does next; the issue of its next clause with the clause's
first word; the next word of its outstanding clause at position i; the write of unit u of the copy that heads a queue. -/
inductive Act where
  | event (e : Instr)
  | run (t : Nat)
  | issue (t : Nat)
  | word (t i : Nat)
  | unit (cl q u : Nat)
  deriving DecidableEq, Repr

/-- The machine (INVENTORY.md, "State"). `slots` are the insertion slots whose node is still being inserted, with the VA it
goes to (R215); `members` are the throttle-group members of other devices, by group and member (R195). `nvme` is the
recording, `play` what a replay has still to re-impose of it, and `recFrom` the epoch of the last write of RECCTL (R220,
R221). `hostRead` is what the host's last mailbox read returned (R364); `refetch` are the 32-byte units whose page the host has
chosen to fetch again (R218); `cur` is the
thread whose word executes next, of the clause at position `curAt`, or of its first clause with a word left. -/
structure State where
  clock : Nat
  booted : Bool
  mem : Memory
  bad : SMap Bool
  threads : Tab Thread
  forms : Tab Form
  nodes : Tab Node
  readySeq : Nat
  clusters : Tab Cluster
  cores : Tab Core
  dies : Tab Die
  hbm : Tab Stack
  counters : Tab Counter
  mailOut : Tab (List Msg)
  mailIn : Tab (List (List Word))
  fifos : Tab (List Msg)
  chanWait : List Waiter
  slots : Tab (Nat × List Word)
  roots : Tab Nat
  binding : Tab (List Nat × Nat)
  paused : List Walk
  log : List LogItem
  package : Package
  droop : Droop
  modectl : Word
  modectlNext : Option Word
  recctl : Word
  mgmt : SMap Word
  ports : Tab Port
  reports : List Report
  members : List (Nat × Nat)
  epoch : Nat
  nvme : List RecItem
  play : List RecItem
  recFrom : Nat
  ctl : Control
  agenda : List Act
  hostRead : Word
  refetch : List Nat
  cur : Nat
  curAt : Option Nat := none
  draws : Nat
  serial : Nat
  deriving DecidableEq, Repr

/-! ## Values at reset -/

def Bank.reset : Bank := { l := 0, q := 0, m := [], c := [], owner := none }
def Comp.reset : Comp := { en := false, ctx := 0, word := 0 }
def Core.reset : Core := { banks := [], loads := [], l1 := [], comps := [], growIdle := 0 }
def Roll.reset : Roll :=
  { base := 0, mask := 0, key := none, sigs := [] }
def MCtx.reset : MCtx := { acc := [], rolls := [], ops := [], frozen := none }
def Port.reset : Port :=
  { up := true, seqs := [], next := 0, got := [], failed := false, held := [], rx := [], tx := [], txSeq := 0 }
/-- The control cluster at power-on: core 0 runs from ROM (R217). -/
def Control.reset : Control :=
  { sram := [], cores := [true, false, false, false, false, false, false, false], rootPort := none }
def Die.reset : Die := { double := false, was := false, period := 0, openBanks := [] }
def Stack.reset : Stack :=
  { freq := 0, temp := 0, dropped := false, refresh := 1, retrain := none, wanted := [], tags := [], waiting := [], remap := [],
    sram := [], nrctl := 10, nrseed := 1, lfsr := 1 }

/-- A cluster after reset (R190, R191, R192; log 6, log 26). -/
def Cluster.reset : Cluster :=
  { phi := 16, volt := Config.fusedVF 16, stepping := none, vf := (List.range 25).map Config.fusedVF, maxPhi := 16,
    thermal := { phi := 24, passes := 1 }, temp := 0, threshold := 98, thermalTick := 0, migTick := 0,
    reserved := [], group := { phi := 24, passes := 1 }, ramp := 0x00086421, rampNext := none, rampIdx := 0, run := [], requests := [], reached := [],
    waitedBefore := false, boundary := 0, cyc := 0, l2 := [], misses := [], walks := [], queues := [], colls := [] }

/-- One point of a droop curve (R198): X in bits 31:16, P in bits 6:0. -/
def drpWord (x : Int) (p : Nat) : Word := BitVec.ofInt 32 (x * 65536) + BitVec.ofNat 32 p

/-- The default curve of R198. -/
def defaultCurve : List Word :=
  [drpWord (-2000) 30, drpWord (-1000) 40, drpWord (-500) 60, drpWord (-200) 75, drpWord (-100) 90, drpWord 0 100,
   drpWord 100 100, drpWord 200 100, drpWord 500 100, drpWord 1000 100, drpWord 1500 100, drpWord 2000 100,
   drpWord 4400 50, drpWord 4600 80, drpWord 4700 100, drpWord 5400 100]

def Droop.reset : Droop :=
  { drp := defaultCurve, staged := defaultCurve, shedt0 := 0x3C46505A, shedt1 := 0x001E2832, staged0 := 0x3C46505A,
    staged1 := 0x001E2832, nom := false, nomNext := false, commit := false, refused := false, sampf := 0, sampv := 0, written := 0, writtenV := 0,
    level := 0, ceiling := 3400, pct := 100, hist := [], fall := none, lnew := 0, lastTick := 0, gap := false }

/-- The machine right after reset: nothing inserted, the insertion windows closed until boot (R217). -/
def State.reset : State :=
  { clock := 0, booted := false, mem := [], bad := [], threads := [], forms := [], nodes := [], readySeq := 0,
    clusters := [], cores := [], dies := [], hbm := [], counters := [], mailOut := [], mailIn := [], fifos := [], chanWait := [],
    slots := [], roots := [], binding := [], paused := [], log := [],
    package := { pos := { phi := 24, passes := 1 }, low := 0 }, droop := Droop.reset, modectl := 0,
    modectlNext := none, recctl := 0, mgmt := [], ports := [], reports := [], members := [], epoch := 0, nvme := [], play := [], recFrom := 0,
    ctl := Control.reset, agenda := [], hostRead := 0, refetch := [], cur := 0,
    draws := 0, serial := 0 }

end Sys2Proof.Machine
end

