-- ==== Sys2Proof/Machine/Record.lean ====
section
/-! DEFINITION. The launch record (R162), its segments, regions, capabilities and trap table (R84, R93, R108, R170),
and the storage layouts of the formats (R69, R70, R85). -/

namespace Sys2Proof.Machine

/-- Word k of a launch record. -/
def rw (r : SMap Word) (k : Nat) : Nat := (SMap.get 0 k r).toNat

/-- A 64-bit field in words k and k + 1. -/
def rw2 (r : SMap Word) (k : Nat) : Nat := rw r k + 2 ^ 32 * rw r (k + 1)

namespace Rec

def context (r : SMap Word) : Nat := bitsOf (rw r 1) 15 0
def entry (r : SMap Word) : Nat := rw2 r 2 % 2 ^ 56
def gx (r : SMap Word) : Nat := bitsOf (rw r 4) 19 0 + 1
def gy (r : SMap Word) : Nat := bitsOf (rw r 5) 19 0 + 1
def gz (r : SMap Word) : Nat := bitsOf (rw r 6) 19 0 + 1
def forms (r : SMap Word) : Nat := gx r * gy r * gz r
def width (r : SMap Word) : Nat := 8 * 2 ^ bitsOf (rw r 7) 17 16
def cores (r : SMap Word) : Nat := bitsOf (rw r 7) 15 14 + 1
def threads (r : SMap Word) : Nat := bitsOf (rw r 7) 12 0
def benches (r : SMap Word) : Nat := (threads r + width r - 1) / width r
/-- Bench-plan entry e governs from its FIRST on; the last entry in use at or below b decides (R162). -/
def planFrom (r : SMap Word) (b : Nat) : Nat → Nat
  | 0 => 0
  | e + 1 =>
    let x := rw r (8 + (e + 1))
    if bitsOf x 31 31 = 1 ∧ bitsOf x 8 0 ≤ b then e + 1 else planFrom r b e
def plan (r : SMap Word) (b : Nat) : Nat := rw r (8 + planFrom r b 7)
def stage (r : SMap Word) (b : Nat) : Nat := bitsOf (plan r b) 14 12
def role (r : SMap Word) (b : Nat) : Nat := bitsOf (plan r b) 11 10
def allotLane (r : SMap Word) : Nat := bitsOf (rw r 16) 31 24
def allotCore (r : SMap Word) : Nat := bitsOf (rw r 16) 23 16
def allotCluster (r : SMap Word) : Nat := bitsOf (rw r 16) 15 8
def allotPier (r : SMap Word) : Nat := bitsOf (rw r 16) 7 0
def scalars (r : SMap Word) : Nat := bitsOf (rw r 17) 8 0
def budget (r : SMap Word) : Nat := if bitsOf (rw r 18) 31 16 = 0 then 200 else bitsOf (rw r 18) 31 16
def prio (r : SMap Word) : Nat := bitsOf (rw r 18) 6 0
def handler (r : SMap Word) : Nat := rw2 r 20 % 2 ^ 56
def restore (r : SMap Word) : Nat := rw2 r 22 % 2 ^ 56
def wformat (r : SMap Word) : Nat := bitsOf (rw r 24) 31 27
def wgeom (r : SMap Word) : Nat := bitsOf (rw r 24) 26 24
def wsize (r : SMap Word) : Nat := bitsOf (rw r 24) 13 0 * 65536
def wbase (r : SMap Word) : Nat := bitsOf (rw r 25) 12 0 * 65536
/-- The initial place code of g register n (R162). -/
def placeCode (r : SMap Word) (n : Nat) : Nat := bitsOf (rw r (26 + n / 16)) (2 * (n % 16) + 1) (2 * (n % 16))
def trapUser (r : SMap Word) (c : Nat) : Bool := bitsOf (rw r (385 + 2 * c)) 31 31 == 1
def trapVA (r : SMap Word) (c : Nat) : Nat := rw2 r (384 + 2 * c) % 2 ^ 56
/-- Capability entry n (R108). -/
def cap (r : SMap Word) (n : Nat) : BitVec 64 := BitVec.ofNat 64 (rw2 r (256 + 2 * n))

end Rec

/-- The place of a code of R39. -/
def placeOfCode : Nat → Place
  | 0 => .lane | 1 => .core | 2 => .cluster | _ => .pier

/-- The initial place map (R37), with the default lane not listed. -/
def initialPlaces (r : SMap Word) : SMap Place :=
  (List.range 120).foldr (fun n m => SMap.set .lane n (placeOfCode (Rec.placeCode r n)) m) []

/-- The allotment of a place other than lane (R37). -/
def allotOf (r : SMap Word) : Place → Nat
  | .lane => Rec.allotLane r | .core => Rec.allotCore r | .cluster => Rec.allotCluster r | .pier => Rec.allotPier r

/-! ## Capabilities (R108) -/

def capBits (c : BitVec 64) (hi lo : Nat) : Nat := bitsOf c.toNat hi lo
def capValid (c : BitVec 64) : Bool := capBits c 63 63 == 1
def capKind (c : BitVec 64) : Nat := capBits c 62 60
def capAllow (c : BitVec 64) : Nat := capBits c 59 52
def capSend (c : BitVec 64) : Bool := capBits c 51 51 == 1
def capRecv (c : BitVec 64) : Bool := capBits c 50 50 == 1
def capCrd (c : BitVec 64) : Bool := capBits c 49 49 == 1
def capCwr (c : BitVec 64) : Bool := capBits c 48 48 == 1
def capBar (c : BitVec 64) : Bool := capBits c 47 47 == 1
def capEnd (c : BitVec 64) : Nat := capBits c 31 0
/-- The group and the member index of a KIND 1 entry. -/
def capGroup (c : BitVec 64) : Nat := capBits c 31 16
def capMember (c : BitVec 64) : Nat := capBits c 15 0

/-! ## Formats (R69, R70) -/

/-- Elements of a block: 16, 32 or 64 with a scale, 64 for an SP24 unit, 1 otherwise. -/
def unitElems (fmt geom : Nat) : Nat :=
  if fmt = 7 ∨ fmt = 8 then 64 else match geom with | 1 => 16 | 2 => 32 | 3 => 64 | _ => 1

/-- Storage bytes of one unscaled element (R69). -/
def elemBytes : Nat → Nat
  | 2 => 2 | 6 => 2 | 3 => 1 | 4 => 1 | 5 => 1 | _ => 4

/-- Storage bytes of a block. -/
def unitBytes (fmt geom : Nat) : Nat :=
  if fmt = 7 then 40 else if fmt = 8 then 72
  else match geom with | 1 => 17 | 2 => 33 | 3 => 65 | _ => elemBytes fmt

/-- R69: a format code of the table, with a geometry only for T8 and T6. -/
def formatOk (fmt geom : Nat) : Bool := decide (fmt ≤ 8 ∧ geom ≤ 3) && (geom == 0 || fmt == 3 || fmt == 4)

/-- Whether the format is an expanded view of other storage (R71). -/
def expanded (fmt : Nat) : Bool := decide (2 ≤ fmt)

def isSP24 (fmt : Nat) : Bool := fmt == 7 || fmt == 8

/-- The elements that `size` storage bytes hold (R70). -/
def elemCount (fmt geom size : Nat) : Nat := size / unitBytes fmt geom * unitElems fmt geom

/-- The view extent of `size` storage bytes (R85). -/
def viewExtent (fmt geom size : Nat) : Nat := if expanded fmt then 4 * elemCount fmt geom size else size

/-- Storage offset of element i outside SP24 (R70). -/
def elemOff (fmt geom i : Nat) : Nat :=
  if geom = 0 then i * elemBytes fmt
  else let g := unitElems fmt geom; i / g * (g + 1) + 1 + i % g

/-! ## Segments (R84, R85) -/

/-- A segment descriptor. -/
structure Seg where
  valid : Bool
  base : Nat
  size : Nat
  fmt : Nat
  geom : Nat
  isAlias : Bool
  target : Nat
  gkind : Nat
  gidx : Nat
  gaddr : Nat
  deriving DecidableEq, Repr

/-- Segment i of a record. -/
def segOf (r : SMap Word) (i : Nat) : Seg :=
  let w0 := rw r (64 + 4 * i)
  let w1 := rw r (65 + 4 * i)
  let w2 := rw r (66 + 4 * i)
  let w3 := rw r (67 + 4 * i)
  { valid := bitsOf w0 31 31 == 1, base := bitsOf w0 22 0, size := bitsOf w1 22 0, fmt := bitsOf w2 31 27,
    geom := bitsOf w2 26 24, isAlias := bitsOf w2 23 23 == 1, target := bitsOf w2 19 16, gkind := bitsOf w2 22 20,
    gidx := bitsOf w2 15 8, gaddr := bitsOf w3 22 0 }

def Seg.extent (g : Seg) : Nat := viewExtent g.fmt g.geom g.size

/-- Whether a hall address lies in the view of a valid segment (R85). -/
def Seg.covers (g : Seg) (a : Nat) : Bool := g.valid && decide (g.base ≤ a ∧ a < g.base + g.extent)

/-- The segment whose view extent holds hall address a (R86). -/
def findSeg (r : SMap Word) (a : Nat) : Option Seg := ((List.range 16).map (segOf r)).find? (·.covers a)

/-- Where the storage of a segment begins in the model: at its BASE, and an alias at its target's BASE (R70, R85). -/
def storeBase (r : SMap Word) (g : Seg) : Nat := if g.isAlias then (segOf r g.target).base else g.base

/-! ## Regions (R93) -/

structure Region where
  srcva : Nat
  size : Nat
  valid : Bool
  dir : Nat
  fmt : Nat
  geom : Nat
  seg : Nat
  gkind : Nat
  gaddr : Nat
  gidx : Nat
  deriving DecidableEq, Repr

def regionOf (r : SMap Word) (i : Nat) : Region :=
  let k := 128 + 8 * i
  let w3 := rw r (k + 3)
  { srcva := rw2 r k % 2 ^ 56, size := rw r (k + 2), valid := bitsOf w3 31 31 == 1, dir := bitsOf w3 30 29,
    fmt := bitsOf w3 28 24, geom := bitsOf w3 23 21, seg := bitsOf w3 19 16, gkind := bitsOf (rw r (k + 4)) 31 29,
    gaddr := bitsOf (rw r (k + 4)) 22 0, gidx := bitsOf (rw r (k + 5)) 7 0 }

/-! ## Elements of storage (R65, R69 to R73) -/

/-- Byte o of a storage, read through its own accessor. -/
abbrev Bytes := Nat → Byte

def byteAt (rd : Bytes) (o : Nat) : Nat := (rd o).toNat
def halfAt (rd : Bytes) (o : Nat) : Nat := byteAt rd o + 256 * byteAt rd (o + 1)
def wordAt (rd : Bytes) (o : Nat) : Nat := halfAt rd o + 65536 * halfAt rd (o + 2)

/-- The 64-bit metadata of SP24 unit u (R69). -/
def spMeta (fmt : Nat) (rd : Bytes) (u : Nat) : Nat :=
  let o := u * unitBytes fmt 0 + unitBytes fmt 0 - 8
  wordAt rd o + 2 ^ 32 * wordAt rd (o + 4)

/-- Which kept value (0 or 1) stands at position p of group j, if any (R69). Metadata whose first position is not below
the second, which R69 excludes, is read in the same way: the first match counts (log 73). -/
def spKept (md j p : Nat) : Option Nat :=
  let n := md / 2 ^ (4 * j) % 16
  if n % 4 = p then some 0 else if n / 4 = p then some 1 else none

/-- The storage bits of element i: its code, or for SP24 the kept value's code, if it is kept. -/
def elemBits (fmt geom : Nat) (rd : Bytes) (i : Nat) : Option Nat :=
  match fmt with
  | 7 => (spKept (spMeta 7 rd (i / 64)) (i % 64 / 4) (i % 4)).map
      (fun k => byteAt rd (i / 64 * 40 + 2 * (i % 64 / 4) + k))
  | 8 => (spKept (spMeta 8 rd (i / 64)) (i % 64 / 4) (i % 4)).map
      (fun k => halfAt rd (i / 64 * 72 + 2 * (2 * (i % 64 / 4) + k)))
  | 2 | 6 => some (halfAt rd (elemOff fmt geom i))
  | 3 | 4 | 5 => some (byteAt rd (elemOff fmt geom i))
  | _ => some (wordAt rd (elemOff fmt geom i))

/-- The storage bytes that an access to element i reads: the element's own bytes, and for SP24 the metadata (R394). -/
def elemSpan (fmt geom : Nat) (rd : Bytes) (i : Nat) : List Nat :=
  match fmt with
  | 7 =>
    let o := i / 64 * 40
    (match spKept (spMeta 7 rd (i / 64)) (i % 64 / 4) (i % 4) with
      | some k => [o + 2 * (i % 64 / 4) + k] | none => []) ++ (List.range 8).map (· + (o + 32))
  | 8 =>
    let o := i / 64 * 72
    (match spKept (spMeta 8 rd (i / 64)) (i % 64 / 4) (i % 4) with
      | some k => (List.range 2).map (· + (o + 2 * (2 * (i % 64 / 4) + k))) | none => []) ++
      (List.range 8).map (· + (o + 64))
  | _ => (List.range (elemBytes fmt)).map (· + elemOff fmt geom i)

/-- The view offset that the storage byte at offset o stands behind, from a block or unit boundary: the first byte of
its element's slot; of a scale, of its block; of SP24, of its value's group of four, or for metadata of its unit. -/
def storageView (fmt geom o : Nat) : Nat :=
  let u := unitBytes fmt geom
  if !expanded fmt then o
  else if isSP24 fmt then
    o / u * 256 + (if o % u + 8 < u then 16 * (o % u / (if fmt = 7 then 2 else 4)) else 0)
  else if geom = 0 then 4 * (o / u)
  else 4 * (o / u * unitElems fmt geom + (o % u - 1))

/-- The scale byte of element i's block (R70). -/
def scaleOf (geom : Nat) (rd : Bytes) (i : Nat) : Nat :=
  if geom = 0 then 127 else let g := unitElems 3 geom; byteAt rd (i / g * (g + 1))

end Sys2Proof.Machine
end

