-- ==== Sys2Proof/Machine/Elem.lean ====
section
/-! DEFINITION. The values that storage elements stand for, in the expanded view (R71) and in the matrix array's
operand fetch (R73). -/

namespace Sys2Proof.Machine

/-- The exact value of an element's code, before its scale. -/
def codeVal (fmt bits : Nat) : Val :=
  match fmt with
  | 2 | 8 => valOfBF16 bits
  | 3 | 7 => valOfT8 bits
  | 4 => valOfT6 (bits % 64)
  | 5 => valOfInt (BitVec.ofNat 8 bits).toInt
  | 6 => valOfInt (BitVec.ofNat 16 bits).toInt
  | _ => valOfFP32 (BitVec.ofNat 32 bits)

/-- The exact value of element i with its scale applied; a skipped SP24 position is +0 (R65, R71). -/
def elemVal (fmt geom : Nat) (rd : Bytes) (i : Nat) : Val :=
  match elemBits fmt geom rd i with
  | none => .fin false 0 0
  | some b => if geom = 0 then codeVal fmt b else scaled (scaleOf geom rd i) (codeVal fmt b)

/-- The storage bytes that the value of element i comes from: those of its access and its block's scale (R70). -/
def elemReads (fmt geom : Nat) (rd : Bytes) (i : Nat) : List Nat :=
  elemSpan fmt geom rd i ++ (if geom = 0 then [] else let g := unitElems fmt geom; [i / g * (g + 1)])

/-- What LD.w and LDW.w read at element i (R71). -/
def elemLoad (fmt geom : Nat) (rd : Bytes) (i : Nat) : Word :=
  match fmt with
  | 0 | 1 => BitVec.ofNat 32 (wordAt rd (4 * i))
  | 5 => BitVec.ofInt 32 (BitVec.ofNat 8 ((elemBits 5 geom rd i).getD 0)).toInt
  | 6 => BitVec.ofInt 32 (BitVec.ofNat 16 ((elemBits 6 geom rd i).getD 0)).toInt
  | _ => rnFP32 (elemVal fmt geom rd i)

/-- What a BFMA operand reads at element i (R71): as LD.w, but an integer gives the FP32 of the integer. -/
def elemFP (fmt geom : Nat) (rd : Bytes) (i : Nat) : Word :=
  if fmt = 5 ∨ fmt = 6 then rnFP32 (elemVal fmt geom rd i) else elemLoad fmt geom rd i

/-- Whether a format is of the tapered class (R73): T8, T6, INT8, SP24-T8. -/
def taperedClass (fmt : Nat) : Bool := fmt == 3 || fmt == 4 || fmt == 5 || fmt == 7

/-- A BF16 pattern with subnormals flushed to a zero of the same sign (R57, R73). -/
def flushBF16 (bits : Nat) : Val :=
  if bits / 128 % 256 = 0 then .fin (decide (bits / 32768 % 2 = 1)) 0 0 else valOfBF16 bits

/-- The internal float of matrix operand fetch for element i (R73). -/
def elemMatrix (fmt geom : Nat) (rd : Bytes) (i : Nat) : Val :=
  if taperedClass fmt then elemVal fmt geom rd i
  else if fmt = 2 ∨ fmt = 8 then
    (match elemBits fmt geom rd i with | none => .fin false 0 0 | some b => flushBF16 b)
  else flushBF16 (rnBF16 (elemVal fmt geom rd i))

/-- The storage bytes that a store of word v to element i writes (R71, R72): offset and bytes. -/
def elemStore (fmt geom : Nat) (rd : Bytes) (i : Nat) (v : Word) : Nat × List Byte :=
  let bits :=
    match fmt with
    | 5 => (BitVec.ofInt 8 (sat8 v.toInt)).toNat
    | 6 => (BitVec.ofInt 16 (sat16 v.toInt)).toNat
    | 0 | 1 => v.toNat
    | _ => convertBits fmt (unscaled (scaleOf geom rd i) (valOfFP32 v))
  (elemOff fmt geom i, leBytes (elemBytes fmt) bits)

/-- The storage bytes of one block holding the given values (R66, R112): a scale by ScaleFor where there is one. -/
def blockBytes (fmt geom : Nat) (vs : List Val) : List Byte :=
  if geom = 0 then vs.flatMap (fun v => leBytes (elemBytes fmt) (convertBits fmt v))
  else
    let e := scaleFor (if fmt = 4 then 8 else 12) vs
    BitVec.ofNat 8 e :: vs.map (fun v => BitVec.ofNat 8 (convertBits fmt (unscaled e v)))

end Sys2Proof.Machine
end

