-- ==== Sys2Proof/WellFormed.lean ====
section
/-! DEFINITION. Well-formed instructions: the operand rules of R34, R226, R228, R230, R110 and R137 that the
types of the syntax do not already say (even registers, record bases, plane counts, ranges of events). -/

namespace Sys2Proof

/-- A register that may hold a 64-bit value: an even g register, t0, t2 or z (R34, R226). -/
def Reg.evenPair : Reg → Bool
  | .g n => n.val % 2 == 0
  | .t n => n.val % 2 == 0
  | .z => true

/-- An even g register (R34). -/
def Reg.evenG : Reg → Bool
  | .g n => n.val % 2 == 0
  | _ => false

/-- An even g register as a B operand. -/
def Src.evenG : Src → Bool
  | .reg r => r.evenG
  | _ => false

/-- An even s register, so at most 382 (R228). -/
def evenS (n : Fin 384) : Bool := n.val % 2 == 0

/-- A record base of COPY: even and at most 376 (R110); MMCONV's may be odd (R137). -/
def recBase (n : Fin 384) : Bool := n.val % 2 == 0 && decide (n.val ≤ 376)

/-- The pair rule of an 8-byte load or store. -/
def LdW.pairOk (k : LdW) (r : Reg) : Bool :=
  match k with
  | .d => r.evenPair
  | _ => true

def StW.pairOk (k : StW) (r : Reg) : Bool :=
  match k with
  | .d => r.evenPair
  | _ => true

/-- The checks on an instruction's operands; for an event, the ranges of the units it names. -/
def Instr.wf : Instr → Bool
  | .ld k d _ _ => k.pairOk d
  | .ldw k d _ _ => k.pairOk d
  | .st k d _ _ => k.pairOk d
  | .ldScalar k d _ => match k with | .d => evenS d | _ => true
  | .stScalar k d _ => match k with | .d => evenS d | _ => true
  | .fcvt c _ a _ => match c with | .bf2 => true | _ => decide (a = .z)
  | .bcast _ _ _ m _ => evenS m
  | .xmatch _ _ m => evenS m
  | .rank _ _ m => evenS m
  | .redx _ _ _ m => evenS m
  | .shfl _ _ _ m _ => evenS m
  | .slide _ _ _ _ m _ => evenS m
  | .xshfl _ _ _ m _ => evenS m
  | .vote op d _ m => evenS m && (match op with | .bal => d.evenPair | _ => true)
  | .call gl _ => gl.val % 2 == 0
  | .ret b => b.val % 2 == 0
  | .launch _ _ b => b.val % 2 == 0
  | .send wide _ b => !wide || b.evenG
  | .recv wide d _ => !wide || d.evenG
  | .cpy _ _ r => recBase r
  | .cpyg _ _ _ b => b.val % 2 == 0
  | .cpys _ _ _ b => b.val % 2 == 0
  | .qfence _ m => evenS m
  | .cred _ _ r _ => recBase r
  | .cgath _ _ r _ => recBase r
  | .mmconv _ _ _ _ _ _ _ r _ => decide (r.val ≤ 376)
  | .sghash n _ _ _ => decide (4 ≤ n.val)
  | .sgbkt _ _ _ _ _ _ sL _ => evenS sL
  | .rolldecl _ _ sK => evenS sK
  | .comparatorProgram _ idx _ _ va => decide (idx < 8) && va.toNat % 4 == 0
  | .hbmFreqChange k f => decide (k < 12 ∧ f < 4)
  | .configuredMaximumWrite cl l => decide (cl < 64 ∧ l.phi < 25 ∧ 80 ≤ l.threshold ∧ l.threshold ≤ 104)
  | .vfTableWrite cl phi code => decide (cl < 64 ∧ phi < 25 ∧ code < 96)
  | .counterCreate id target _ => decide (id < 1024 ∧ 1 ≤ target ∧ target ≤ 2 ^ 24)
  | .wsRefreshOpen d b _ => decide (d < 4 ∧ b < 32)
  | .wsRefreshClose d b => decide (d < 4 ∧ b < 32)
  | _ => true

end Sys2Proof
end

