-- ==== Sys2Proof/Decode.lean ====
section
/-! DEFINITION. The decoder and the encoder, from the formats and maps of R223 to R238, R110 and R137.
Instruction words are stored little-endian (log 4). -/

namespace Sys2Proof

/-- Bits hi:lo of a word, as a number. -/
def field (w : Word) (hi lo : Nat) : Nat := w.toNat / 2 ^ lo % 2 ^ (hi + 1 - lo)

/-- The decoder's answer. -/
abbrev Dec (α : Type) := Except DecErr α

/-- A condition of an encoding whose failure is cause 0x04. -/
def operandIf (b : Bool) : Dec Unit := if b then .ok () else .error .illegalOperand

/-- A condition on FN or OP whose failure is cause 0x03. -/
def opcodeIf (b : Bool) : Dec Unit := if b then .ok () else .error .illegalOpcode

/-! ## Classes, headers and operand codes -/

/-- CLASS codes (R32). -/
def Class.code : Class → Nat
  | .lane => 0 | .core => 1 | .matrix => 2 | .cluster => 3 | .pier => 4 | .copy => 5 | .control => 6 | .scalar => 7

def classOf : Nat → Class
  | 0 => .lane | 1 => .core | 2 => .matrix | 3 => .cluster | 4 => .pier | 5 => .copy | 6 => .control | _ => .scalar

/-- The header of R223; none where COUNT is 0, SET is 7, a reserved bit is set or MARK is wrong (R44). -/
def decodeHeader (w : Word) : Option Header :=
  if field w 31 28 == 0 || field w 18 16 == 7 || field w 12 8 != 0 || field w 7 0 != 0x9E then none
  else some
    { count := field w 31 28, cls := classOf (field w 27 25), wait := BitVec.ofNat 6 (field w 24 19),
      set := field w 18 16, sw := field w 15 15 == 1, tf := field w 14 14 == 1, pf := field w 13 13 == 1 }

/-- The header word of R223. -/
def encodeHeader (h : Header) : Word :=
  BitVec.ofNat 32 (h.count * 2 ^ 28 + h.cls.code * 2 ^ 25 + h.wait.toNat * 2 ^ 19 + h.set * 2 ^ 16 +
    h.sw.toNat * 2 ^ 15 + h.tf.toNat * 2 ^ 14 + h.pf.toNat * 2 ^ 13 + 0x9E)

/-- Operand codes 0 to 124 (R230). -/
def Reg.code : Reg → Nat
  | .g n => n.val
  | .t n => 120 + n.val
  | .z => 124

def regOf (n : Nat) : Dec Reg :=
  if h : n < 120 then .ok (.g ⟨n, h⟩)
  else if h : n < 124 then .ok (.t ⟨n - 120, by omega⟩)
  else if n = 124 then .ok .z
  else .error .illegalOperand

/-- A number below k, or cause 0x04. -/
def finOf (k n : Nat) : Dec (Fin k) := if h : n < k then .ok ⟨n, h⟩ else .error .illegalOperand

/-- A number below k, or cause 0x03. -/
def fnOf (k n : Nat) : Dec (Fin k) := if h : n < k then .ok ⟨n, h⟩ else .error .illegalOpcode

/-- The scalar extension word: bits 8:0 at most 383, bits 31:9 zero (R230). -/
def sregExt (ext : Word) : Dec (Fin 384) := finOf 384 ext.toNat

/-- The B operand with its extension word (R230). -/
def srcOf (n : Nat) (ext : Word) : Dec Src :=
  if n = 125 then (sregExt ext).map .sreg
  else if n = 126 then .ok (.lit ext)
  else (regOf n).map .reg

def Src.code : Src → Nat
  | .reg r => r.code
  | .sreg _ => 125
  | .lit _ => 126

/-- The extension words that a B operand needs. -/
def Src.ext : Src → List Word
  | .reg _ => []
  | .sreg n => [BitVec.ofNat 32 n.val]
  | .lit w => [w]

/-- SA of format SS (R227). -/
def ssrcOf (n : Nat) (ext : Word) : Dec SSrc :=
  if h : n < 384 then .ok (.s ⟨n, h⟩)
  else if n = 510 then .ok (.lit ext)
  else if n = 511 then
    (if h : ext.toNat < 120 then .ok (.g ⟨ext.toNat, h⟩) else if ext.toNat = 124 then .ok .z else .error .illegalOperand)
  else .error .illegalOperand

def SSrc.code : SSrc → Nat
  | .s n => n.val
  | .lit _ => 510
  | .g _ => 511
  | .z => 511

def SSrc.ext : SSrc → List Word
  | .s _ => []
  | .lit w => [w]
  | .g n => [BitVec.ofNat 32 n.val]
  | .z => [124]

/-! ## FN codes -/

def SatMode.fn : SatMode → Nat
  | .wrap => 0 | .satI => 1 | .satN => 2
def satModeOf : Nat → Dec SatMode
  | 0 => .ok .wrap | 1 => .ok .satI | 2 => .ok .satN | _ => .error .illegalOpcode
def Sat.fn : Sat → Nat
  | .wrap => 0 | .sat => 1
def satOf : Nat → Dec Sat
  | 0 => .ok .wrap | 1 => .ok .sat | _ => .error .illegalOpcode
def Sign.fn : Sign → Nat
  | .i => 0 | .n => 1
def signOf : Nat → Dec Sign
  | 0 => .ok .i | 1 => .ok .n | _ => .error .illegalOpcode
def flagOf : Nat → Dec Bool
  | 0 => .ok false | 1 => .ok true | _ => .error .illegalOpcode
def CmpRel.fn : CmpRel → Nat
  | .eq => 0 | .ne => 1 | .ltI => 2 | .leI => 3 | .ltN => 4 | .leN => 5
def cmpRelOf : Nat → Dec CmpRel
  | 0 => .ok .eq | 1 => .ok .ne | 2 => .ok .ltI | 3 => .ok .leI | 4 => .ok .ltN | 5 => .ok .leN
  | _ => .error .illegalOpcode
def FRel.fn : FRel → Nat
  | .eq => 0 | .ne => 1 | .lt => 2 | .le => 3 | .un => 4
def fRelOf : Nat → Dec FRel
  | 0 => .ok .eq | 1 => .ok .ne | 2 => .ok .lt | 3 => .ok .le | 4 => .ok .un | _ => .error .illegalOpcode
def FMode.fn : FMode → Nat
  | .rn => 0 | .rz => 1 | .ru => 2 | .rd => 3 | .t => 4 | .x => 5
def fModeOf : Nat → Dec FMode
  | 0 => .ok .rn | 1 => .ok .rz | 2 => .ok .ru | 3 => .ok .rd | 4 => .ok .t | 5 => .ok .x
  | _ => .error .illegalOpcode
def Rnd.fn : Rnd → Nat
  | .rn => 0 | .rz => 1 | .ru => 2 | .rd => 3
def rndOf : Nat → Dec Rnd
  | 0 => .ok .rn | 1 => .ok .rz | 2 => .ok .ru | 3 => .ok .rd | _ => .error .illegalOpcode
/-- FCVT's codes (R68). -/
def Cvt.fn : Cvt → Nat
  | .iRz => 0 | .iRn => 1 | .fI => 2 | .fN => 3 | .bf2 => 4 | .fBf hi => 5 + hi.toNat
  | .t8 k => 7 + k.val | .fT8 k => 11 + k.val | .t6 k => 15 + k.val | .fT6 k => 19 + k.val | .iH hi => 23 + hi.toNat
def cvtOf (n : Nat) : Dec Cvt :=
  match n with
  | 0 => .ok .iRz | 1 => .ok .iRn | 2 => .ok .fI | 3 => .ok .fN | 4 => .ok .bf2
  | 5 => .ok (.fBf false) | 6 => .ok (.fBf true)
  | 7 => .ok (.t8 0) | 8 => .ok (.t8 1) | 9 => .ok (.t8 2) | 10 => .ok (.t8 3)
  | 11 => .ok (.fT8 0) | 12 => .ok (.fT8 1) | 13 => .ok (.fT8 2) | 14 => .ok (.fT8 3)
  | 15 => .ok (.t6 0) | 16 => .ok (.t6 1) | 17 => .ok (.t6 2) | 18 => .ok (.t6 3)
  | 19 => .ok (.fT6 0) | 20 => .ok (.fT6 1) | 21 => .ok (.fT6 2) | 22 => .ok (.fT6 3)
  | 23 => .ok (.iH false) | 24 => .ok (.iH true)
  | _ => .error .illegalOpcode
def LdW.fn : LdW → Nat
  | .bn => 0 | .bi => 1 | .hn => 2 | .hi => 3 | .w => 4 | .d => 5
def ldwOf : Nat → Dec LdW
  | 0 => .ok .bn | 1 => .ok .bi | 2 => .ok .hn | 3 => .ok .hi | 4 => .ok .w | 5 => .ok .d | _ => .error .illegalOpcode
def StW.fn : StW → Nat
  | .b => 0 | .h => 2 | .w => 4 | .d => 5
def stwOf : Nat → Dec StW
  | 0 => .ok .b | 2 => .ok .h | 4 => .ok .w | 5 => .ok .d | _ => .error .illegalOpcode
def AtomOp.fn : AtomOp → Nat
  | .addI => 0 | .minI => 1 | .maxI => 2 | .minN => 3 | .maxN => 4 | .and => 5 | .or => 6 | .xor => 7
  | .exch => 8 | .fadd => 9
def atomOf : Nat → Dec AtomOp
  | 0 => .ok .addI | 1 => .ok .minI | 2 => .ok .maxI | 3 => .ok .minN | 4 => .ok .maxN | 5 => .ok .and
  | 6 => .ok .or | 7 => .ok .xor | 8 => .ok .exch | 9 => .ok .fadd | _ => .error .illegalOpcode
def Rep.fn : Rep → Nat
  | .first => 0 | .mean => 1 | .maxnorm => 2
def repOf : Nat → Dec Rep
  | 0 => .ok .first | 1 => .ok .mean | 2 => .ok .maxnorm | _ => .error .illegalOpcode
def Order.code : Order → Nat
  | .acq => 0 | .rel => 1 | .acqRel => 2 | .sc => 3
def orderOf : Nat → Order
  | 0 => .acq | 1 => .rel | 2 => .acqRel | _ => .sc
def Scope.code : Scope → Nat
  | .bench => 0 | .form => 1 | .core => 2 | .cluster => 3 | .die => 4 | .device => 5 | .system => 6
def scopeOf : Nat → Dec Scope
  | 0 => .ok .bench | 1 => .ok .form | 2 => .ok .core | 3 => .ok .cluster | 4 => .ok .die | 5 => .ok .device
  | 6 => .ok .system | _ => .error .illegalOpcode
def Place.code : Place → Nat
  | .lane => 0 | .core => 1 | .cluster => 2 | .pier => 3
def placeOf : Nat → Dec Place
  | 0 => .ok .lane | 1 => .ok .core | 2 => .ok .cluster | 3 => .ok .pier | _ => .error .illegalOpcode
def GKind.code : GKind → Nat
  | .none => 0 | .fe => 1 | .barrier => 2 | .chbar => 3 | .ring => 4 | .chunk => 5 | .lock => 6
def gkindOf : Nat → Dec GKind
  | 0 => .ok .none | 1 => .ok .fe | 2 => .ok .barrier | 3 => .ok .chbar | 4 => .ok .ring | 5 => .ok .chunk
  | 6 => .ok .lock | _ => .error .illegalOperand
/-- WRSR's register: only NS and PRIO are writable; the other listed FN are cause 0x04 (R236, R392). -/
def wsrOf (n : Nat) : Dec WSr :=
  if n = 16 then .ok .ns else if n = 23 then .ok .prio
  else if n ≤ 25 then .error .illegalOperand else .error .illegalOpcode
def WSr.fn : WSr → Nat
  | .ns => 16 | .prio => 23

/-! ## Maps: which OPs a class lists, their formats, and the layout of a clause's words (R224) -/

/-- The class letters of the compute map (R232). -/
def computeLists (op : Nat) : List Class :=
  match op with
  | 0x01 | 0x02 | 0x06 | 0x07 | 0x08 | 0x18 => [.lane, .core, .cluster, .pier, .scalar]
  | 0x03 | 0x09 | 0x0A | 0x0B | 0x11 | 0x12 | 0x15 | 0x16 => [.lane, .core, .cluster, .scalar]
  | 0x04 | 0x0D | 0x0E | 0x0F | 0x10 | 0x17 => [.lane, .core, .scalar]
  | 0x05 | 0x0C | 0x13 | 0x14 | 0x19 | 0x1A | 0x1B | 0x1C | 0x24 | 0x25 | 0x32 | 0x33 => [.lane, .core]
  | 0x1D | 0x1E | 0x1F | 0x20 | 0x21 | 0x22 => [.lane, .core, .cluster, .pier]
  | 0x23 => [.lane, .core, .cluster]
  | 0x26 | 0x27 | 0x28 | 0x29 | 0x2A | 0x2B | 0x2C | 0x2D | 0x2E | 0x2F => [.core]
  | 0x30 | 0x31 => [.lane, .core, .pier, .scalar]
  | 0x34 | 0x35 | 0x36 => [.lane, .core, .pier]
  | 0x37 => [.pier]
  | 0x38 => [.lane]
  | _ => []

/-- The format of a word 0, or none where the class's map does not list its OP (R224, R232, R235, R236). -/
def fmtOf (c : Class) (op : Nat) : Option Fmt :=
  match c with
  | .matrix =>
    if op = 0x02 ∨ op = 0x0A ∨ op = 0x0B then some .w2 else if 1 ≤ op ∧ op ≤ 0x0C then some .a else none
  | .copy =>
    if op = 1 ∨ op = 5 ∨ op = 6 then some .w2 else if 2 ≤ op ∧ op ≤ 4 then some .a else none
  | .control =>
    if op = 1 ∨ op = 2 ∨ op = 3 ∨ op = 5 then some .b
    else if op = 0x19 then some .w2
    else if op = 0 ∨ op = 9 ∨ 0x26 ≤ op then none else some .a
  | .scalar => if (computeLists op).contains .scalar then some .ss else none
  | c =>
    if (computeLists op).contains c then
      (if 0x30 ≤ op ∧ op ≤ 0x34 then some .im else if op = 0x38 then some .w2 else some .a)
    else none

/-- Words whose B field holds an immediate shift amount (R232). -/
def immShift (c : Class) (w : Word) : Bool :=
  let op := field w 31 26
  let fn := field w 25 21
  (match c with | .lane | .core | .cluster => true | _ => false) &&
    (((op == 0x09 || op == 0x0B || op == 0x0C) && fn == 2) || (op == 0x0A && (fn == 2 || fn == 3)))

/-- Whether the word calls for an extension word (R224; an immediate shift amount is no operand code, log 10). -/
def wantsExt (c : Class) (f : Fmt) (w : Word) : Bool :=
  match f with
  | .a | .w2 => !immShift c w && (field w 6 0 == 125 || field w 6 0 == 126)
  | .ss => field w 11 3 == 510 || field w 11 3 == 511
  | _ => false

/-- The branch words of R237. -/
def isBranchWord (c : Class) (w : Word) : Bool :=
  match c with
  | .control => [0x01, 0x02, 0x03, 0x04, 0x05, 0x06, 0x08, 0x0B].contains (field w 31 26)
  | _ => false

/-- The trapping opcodes: FN 4 of FADD, FSUB, FMUL, FFMA, and TRAP (R44, R175, R232). -/
def isTrapWord (c : Class) (w : Word) : Bool :=
  match c with
  | .control => field w 31 26 == 0x0A
  | .lane | .core | .cluster | .pier => decide (0x1D ≤ field w 31 26 ∧ field w 31 26 ≤ 0x20) && field w 25 21 == 4
  | _ => false

/-- The words of a clause cut into instructions, or none where a word 1 or an extension word would lie beyond COUNT
(R224, R44). A word whose OP is not listed ends the list. `fuel` bounds the recursion by the number of words. -/
def cutWords (c : Class) (fuel idx : Nat) (ws : List Word) : Option (List Item) :=
  match fuel, ws with
  | _, [] => some []
  | 0, _ => some []
  | n + 1, w :: rest =>
    match fmtOf c (field w 31 26) with
    | none => some [{ idx := idx, w0 := w, w1 := 0, ext := 0, listed := false }]
    | some f =>
      match f, wantsExt c f w, rest with
      | .w2, true, w1 :: e :: rest' =>
        (cutWords c n (idx + 3) rest').map ({ idx := idx, w0 := w, w1 := w1, ext := e, listed := true } :: ·)
      | .w2, true, _ => none
      | .w2, false, w1 :: rest' =>
        (cutWords c n (idx + 2) rest').map ({ idx := idx, w0 := w, w1 := w1, ext := 0, listed := true } :: ·)
      | .w2, false, [] => none
      | _, true, e :: rest' =>
        (cutWords c n (idx + 2) rest').map ({ idx := idx, w0 := w, w1 := 0, ext := e, listed := true } :: ·)
      | _, true, [] => none
      | _, false, rest' =>
        (cutWords c n (idx + 1) rest').map ({ idx := idx, w0 := w, w1 := 0, ext := 0, listed := true } :: ·)

/-- No branch word before the last instruction, and a .t word only under TF (R44). -/
def clauseRules (h : Header) : List Item → Bool
  | [] => true
  | [i] => h.tf || !isTrapWord h.cls i.w0
  | i :: rest => !isBranchWord h.cls i.w0 && (h.tf || !isTrapWord h.cls i.w0) && clauseRules h rest

/-- The instructions of a clause, or none where the clause is illegal (cause 0x02). -/
def cutClause (h : Header) (ws : List Word) : Option (List Item) :=
  match cutWords h.cls 15 1 ws with
  | none => none
  | some items => if clauseRules h items then some items else none

/-! ## Decoding one instruction -/

/-- A shift amount (R232). -/
def amtOf (imm : Bool) (n : Nat) (ext : Word) : Dec Amt :=
  if imm then (finOf 32 n).map .imm else (srcOf n ext).map .src

/-- OP 0x38 (R233). -/
def decodeCross (i : Item) : Dec Instr := do
  let fn := field i.w0 25 21
  opcodeIf (decide (fn ≤ 15))
  let d ← regOf (field i.w0 20 14)
  let a ← regOf (field i.w0 13 7)
  let m ← finOf 384 (field i.w1 31 23)
  operandIf (m.val % 2 == 0)
  let fill ← regOf (field i.w1 22 16)
  operandIf (field i.w1 15 0 == 0)
  if fn ≤ 6 then do
    let b ← srcOf (field i.w0 6 0) i.ext
    match fn with
    | 0 => pure (.shfl d a b m fill)
    | 1 => pure (.slide .upW d a b m fill)
    | 2 => pure (.slide .dnW d a b m fill)
    | 3 => pure (.slide .upH d a b m fill)
    | 4 => pure (.slide .dnH d a b m fill)
    | 5 => pure (.xshfl d a b m fill)
    | _ => pure (.bcast d a b m fill)
  else do
    operandIf (field i.w0 6 0 == 124)
    operandIf (decide (fill = .z))
    match fn with
    | 7 => pure (.vote .any d a m)
    | 8 => pure (.vote .all d a m)
    | 9 => do operandIf d.evenPair; pure (.vote .bal d a m)
    | 10 => pure (.xmatch d a m)
    | 11 => pure (.rank d a m)
    | 12 => pure (.redx .addI d a m)
    | 13 => pure (.redx .minI d a m)
    | 14 => pure (.redx .maxI d a m)
    | _ => pure (.redx .fadd d a m)

/-- Format A and IM words of the compute map (R225, R226, R231, R232). -/
def decodeCompute (i : Item) : Dec Instr := do
  let w := i.w0
  let op := field w 31 26
  let fn := field w 25 21
  let rd := regOf (field w 20 14)
  let ra := regOf (field w 13 7)
  let rb := srcOf (field w 6 0) i.ext
  let unary := operandIf (field w 13 7 == 124)
  match op with
  | 0x01 => do let m ← satModeOf fn; let d ← rd; let a ← ra; let b ← rb; pure (.add m d a b)
  | 0x02 => do let m ← satModeOf fn; let d ← rd; let a ← ra; let b ← rb; pure (.sub m d a b)
  | 0x03 => do opcodeIf (fn == 0); let d ← rd; let a ← ra; let b ← rb; pure (.mul d a b)
  | 0x04 => do let m ← signOf fn; let d ← rd; let a ← ra; let b ← rb; pure (.mulh m d a b)
  | 0x05 => do opcodeIf (fn == 0); let d ← rd; let a ← ra; let b ← rb; pure (.mad d a b)
  | 0x06 => do opcodeIf (fn == 0); let d ← rd; let a ← ra; let b ← rb; pure (.and d a b)
  | 0x07 => do opcodeIf (fn == 0); let d ← rd; let a ← ra; let b ← rb; pure (.or d a b)
  | 0x08 => do opcodeIf (fn == 0); let d ← rd; let a ← ra; let b ← rb; pure (.xor d a b)
  | 0x09 => do
    opcodeIf (fn == 0 || fn == 2); let d ← rd; let a ← ra; let n ← amtOf (fn == 2) (field w 6 0) i.ext; pure (.shl d a n)
  | 0x0A => do
    opcodeIf (decide (fn ≤ 3)); let m ← signOf (fn % 2); let d ← rd; let a ← ra
    let n ← amtOf (decide (2 ≤ fn)) (field w 6 0) i.ext; pure (.shr m d a n)
  | 0x0B => do
    opcodeIf (fn == 0 || fn == 2); let d ← rd; let a ← ra; let n ← amtOf (fn == 2) (field w 6 0) i.ext; pure (.rot d a n)
  | 0x0C => do
    opcodeIf (fn == 0 || fn == 2); let d ← rd; let a ← ra; let n ← amtOf (fn == 2) (field w 6 0) i.ext; pure (.shrr d a n)
  | 0x0D => do opcodeIf (fn == 0); unary; let d ← rd; let b ← rb; pure (.clz d b)
  | 0x0E => do opcodeIf (fn == 0); unary; let d ← rd; let b ← rb; pure (.popc d b)
  | 0x0F => do let m ← signOf fn; let d ← rd; let a ← ra; let b ← rb; pure (.bfx m d a b)
  | 0x10 => do opcodeIf (fn == 0); let d ← rd; let a ← ra; let b ← rb; pure (.bfi d a b)
  | 0x11 => do let m ← signOf fn; let d ← rd; let a ← ra; let b ← rb; pure (.min m d a b)
  | 0x12 => do let m ← signOf fn; let d ← rd; let a ← ra; let b ← rb; pure (.max m d a b)
  | 0x13 => do let m ← satOf fn; unary; let d ← rd; let b ← rb; pure (.abs m d b)
  | 0x14 => do let m ← satOf fn; unary; let d ← rd; let b ← rb; pure (.neg m d b)
  | 0x15 => do let r ← cmpRelOf fn; let d ← rd; let a ← ra; let b ← rb; pure (.cmp r d a b)
  | 0x16 => do opcodeIf (fn == 0); let d ← rd; let a ← ra; let b ← rb; pure (.sel d a b)
  | 0x17 => do let n ← fnOf 5 fn; let d ← rd; let a ← ra; let b ← rb; pure (.lea n d a b)
  | 0x18 => do opcodeIf (fn == 0); unary; let d ← rd; let b ← rb; pure (.mov d b)
  | 0x19 => do let m ← satOf fn; let d ← rd; let a ← ra; let b ← rb; pure (.padd m d a b)
  | 0x1A => do let m ← satOf fn; let d ← rd; let a ← ra; let b ← rb; pure (.psub m d a b)
  | 0x1B => do let x ← flagOf fn; let d ← rd; let a ← ra; let b ← rb; pure (.pdot2 x d a b)
  | 0x1C => do let x ← flagOf fn; let d ← rd; let a ← ra; let b ← rb; pure (.pack x d a b)
  | 0x1D => do let m ← fModeOf fn; let d ← rd; let a ← ra; let b ← rb; pure (.fadd m d a b)
  | 0x1E => do let m ← fModeOf fn; let d ← rd; let a ← ra; let b ← rb; pure (.fsub m d a b)
  | 0x1F => do let m ← fModeOf fn; let d ← rd; let a ← ra; let b ← rb; pure (.fmul m d a b)
  | 0x20 => do let m ← fModeOf fn; let d ← rd; let a ← ra; let b ← rb; pure (.ffma m d a b)
  | 0x21 => do opcodeIf (fn == 0); let d ← rd; let a ← ra; let b ← rb; pure (.fmin d a b)
  | 0x22 => do opcodeIf (fn == 0); let d ← rd; let a ← ra; let b ← rb; pure (.fmax d a b)
  | 0x23 => do let r ← fRelOf fn; let d ← rd; let a ← ra; let b ← rb; pure (.fcmp r d a b)
  | 0x24 => do
    let c ← cvtOf fn; let d ← rd; let a ← ra; operandIf (decide (c = .bf2) || decide (a = .z)); let b ← rb
    pure (.fcvt c d a b)
  | 0x25 => do let m ← rndOf fn; unary; let d ← rd; let b ← rb; pure (.frnd m d b)
  | 0x26 => do opcodeIf (fn == 0); unary; let d ← rd; let b ← rb; pure (.rcp d b)
  | 0x27 => do opcodeIf (fn == 0); unary; let d ← rd; let b ← rb; pure (.rsq d b)
  | 0x28 => do opcodeIf (fn == 0); unary; let d ← rd; let b ← rb; pure (.sqrt d b)
  | 0x29 => do opcodeIf (fn == 0); unary; let d ← rd; let b ← rb; pure (.ex2 d b)
  | 0x2A => do opcodeIf (fn == 0); unary; let d ← rd; let b ← rb; pure (.lg2 d b)
  | 0x2B => do opcodeIf (fn == 0); unary; let d ← rd; let b ← rb; pure (.sinpi d b)
  | 0x2C => do opcodeIf (fn == 0); unary; let d ← rd; let b ← rb; pure (.cospi d b)
  | 0x2D => do opcodeIf (fn == 0); unary; let d ← rd; let b ← rb; pure (.tanh d b)
  | 0x2E => do let n ← fnOf 4 fn; unary; let d ← rd; let b ← rb; pure (.act n d b)
  | 0x2F => do
    let n ← fnOf 4 fn; operandIf (field w 20 14 == 124); operandIf (field w 6 0 == 124); let a ← ra; pure (.actld n a)
  | 0x35 => do let o ← atomOf fn; let d ← rd; let a ← ra; let b ← rb; pure (.atom o d a b)
  | 0x36 => do opcodeIf (fn == 0); let d ← rd; let a ← ra; let b ← rb; pure (.cas d a b)
  | 0x37 => do let x ← flagOf fn; let d ← rd; let a ← ra; let b ← rb; pure (.bfma x d a b)
  | 0x38 => decodeCross i
  | _ => do
    let f3 := field w 25 23
    let md := regOf (field w 22 16)
    let ma := regOf (field w 15 9)
    let off := BitVec.ofNat 9 (field w 8 0)
    match op with
    | 0x30 => do let k ← ldwOf f3; let d ← md; let a ← ma; operandIf (k.pairOk d); pure (.ld k d a off)
    | 0x31 => do let k ← stwOf f3; let d ← md; let a ← ma; operandIf (k.pairOk d); pure (.st k d a off)
    | 0x32 => do opcodeIf (f3 == 4); let d ← md; let a ← ma; pure (.ldfe d a off)
    | 0x33 => do opcodeIf (f3 == 4); let d ← md; let a ← ma; pure (.stfe d a off)
    | 0x34 => do let k ← ldwOf f3; let d ← md; let a ← ma; operandIf (k.pairOk d); pure (.ldw k d a off)
    | _ => .error .illegalOpcode

/-- Format SS (R227, R234). -/
def decodeScalar (i : Item) : Dec Instr := do
  let w := i.w0
  let fn := field w 25 21
  let low := operandIf (field w 2 0 == 0)
  let sd := finOf 384 (field w 20 12)
  let sa := ssrcOf (field w 11 3) i.ext
  match field w 31 26 with
  | 0x01 => do let m ← satModeOf fn; low; let d ← sd; let a ← sa; pure (.addScalar m d a)
  | 0x02 => do let m ← satModeOf fn; low; let d ← sd; let a ← sa; pure (.subScalar m d a)
  | 0x03 => do opcodeIf (fn == 0); low; let d ← sd; let a ← sa; pure (.mulScalar d a)
  | 0x04 => do let m ← signOf fn; low; let d ← sd; let a ← sa; pure (.mulhScalar m d a)
  | 0x06 => do opcodeIf (fn == 0); low; let d ← sd; let a ← sa; pure (.andScalar d a)
  | 0x07 => do opcodeIf (fn == 0); low; let d ← sd; let a ← sa; pure (.orScalar d a)
  | 0x08 => do opcodeIf (fn == 0); low; let d ← sd; let a ← sa; pure (.xorScalar d a)
  | 0x09 => do opcodeIf (fn == 0); low; let d ← sd; let a ← sa; pure (.shlScalar d a)
  | 0x0A => do let m ← signOf fn; low; let d ← sd; let a ← sa; pure (.shrScalar m d a)
  | 0x0B => do opcodeIf (fn == 0); low; let d ← sd; let a ← sa; pure (.rotScalar d a)
  | 0x0D => do opcodeIf (fn == 0); low; let d ← sd; let a ← sa; pure (.clzScalar d a)
  | 0x0E => do opcodeIf (fn == 0); low; let d ← sd; let a ← sa; pure (.popcScalar d a)
  | 0x0F => do let m ← signOf fn; low; let d ← sd; let a ← sa; pure (.bfxScalar m d a)
  | 0x10 => do opcodeIf (fn == 0); low; let d ← sd; let a ← sa; pure (.bfiScalar d a)
  | 0x11 => do let m ← signOf fn; low; let d ← sd; let a ← sa; pure (.minScalar m d a)
  | 0x12 => do let m ← signOf fn; low; let d ← sd; let a ← sa; pure (.maxScalar m d a)
  | 0x15 => do let r ← cmpRelOf fn; low; let d ← sd; let a ← sa; pure (.cmpScalar r d a)
  | 0x16 => do opcodeIf (fn == 0); low; let d ← sd; let a ← sa; pure (.selScalar d a)
  | 0x17 => do let n ← fnOf 5 fn; low; let d ← sd; let a ← sa; pure (.leaScalar n d a)
  | 0x18 => do opcodeIf (fn == 0); low; let d ← sd; let a ← sa; pure (.movScalar d a)
  | 0x30 => do
    let k ← ldwOf fn; low; let d ← sd; operandIf (match k with | .d => evenS d | _ => true); let a ← sa; pure (.ldScalar k d a)
  | 0x31 => do
    let k ← stwOf fn; low; let d ← sd; operandIf (match k with | .d => evenS d | _ => true); let a ← sa; pure (.stScalar k d a)
  | _ => .error .illegalOpcode

/-- The COPY map (R110). -/
def decodeCopy (i : Item) : Dec Instr := do
  let w := i.w0
  let fn := field w 25 21
  let ch := finOf 64 (field w 20 14)
  let ra := regOf (field w 13 7)
  let recOf : Dec (Fin 384) := do
    let r ← finOf 384 (field i.w1 31 23)
    operandIf (recBase r)
    operandIf (field i.w1 22 16 == 124)
    pure r
  match field w 31 26 with
  | 0x01 => do
    opcodeIf (fn == 0); let c ← ch; let a ← ra; operandIf (field w 6 0 == 124); let r ← recOf
    operandIf (field i.w1 15 0 == 0); pure (.cpy c a r)
  | 0x02 => do
    let x ← flagOf fn; let c ← ch; let a ← ra; let b ← finOf 120 (field w 6 0); operandIf (b.val % 2 == 0); pure (.cpyg x c a b)
  | 0x03 => do
    let x ← flagOf fn; let c ← ch; let a ← ra; let b ← finOf 120 (field w 6 0); operandIf (b.val % 2 == 0); pure (.cpys x c a b)
  | 0x04 => do
    opcodeIf (fn == 0); let c ← ch; operandIf (field w 13 7 == 124); operandIf (field w 6 0 == 125)
    let m ← sregExt i.ext; operandIf (evenS m); pure (.qfence c m)
  | 0x05 => do
    opcodeIf (fn == 0); let c ← ch; let a ← ra; operandIf (field w 6 0 == 124); let r ← recOf
    let k ← finOf 256 (field i.w1 15 0); pure (.cred c a r k)
  | 0x06 => do
    opcodeIf (fn == 0); let c ← ch; let a ← ra; operandIf (field w 6 0 == 124); let r ← recOf
    let k ← finOf 256 (field i.w1 15 0); pure (.cgath c a r k)
  | _ => .error .illegalOpcode

/-- The MATRIX map (R137). -/
def decodeMatrix (i : Item) : Dec Instr := do
  let w := i.w0
  let fn := field w 25 21
  let accOf : Dec (Fin 4) := finOf 4 (field w 20 19)
  let acc0 := operandIf (field w 20 19 == 0)
  let rollOf : Dec (Fin 16) := finOf 16 (field w 18 15)
  let roll0 := operandIf (field w 18 15 == 0)
  let bit14 := operandIf (field w 14 14 == 0)
  let ra := regOf (field w 13 7)
  let a124 := operandIf (field w 13 7 == 124)
  let rb := srcOf (field w 6 0) i.ext
  let b124 := operandIf (field w 6 0 == 124)
  match field w 31 26 with
  | 0x01 => do
    opcodeIf (decide (fn < 8)); bit14; let c ← accOf; let r ← rollOf; let a ← ra; let b ← rb
    pure (.mma (fn % 2 == 1) (fn / 2 % 2 == 1) (fn / 4 == 1) c r a b)
  | 0x02 => do
    opcodeIf (decide (fn < 8)); bit14; let c ← accOf; let r ← rollOf; let a ← ra; let b ← rb
    let s ← finOf 384 (field i.w1 31 23); operandIf (decide (s.val ≤ 376)); operandIf (field i.w1 22 16 == 124)
    pure (.mmconv (fn % 2 == 1) (fn / 2 % 2 == 1) (fn / 4 == 1) c r a b s (BitVec.ofNat 16 (field i.w1 15 0)))
  | 0x03 => do opcodeIf (fn == 0); bit14; let c ← accOf; let r ← rollOf; a124; b124; pure (.mzero c r)
  | 0x04 => do opcodeIf (fn == 0); bit14; let c ← accOf; let r ← rollOf; let a ← ra; b124; pure (.mload c r a)
  | 0x05 => do opcodeIf (fn == 0); bit14; let c ← accOf; let r ← rollOf; let a ← ra; let b ← rb; pure (.mstore c r a b)
  | 0x06 => do opcodeIf (fn == 0); bit14; acc0; roll0; let a ← ra; b124; pure (.msave a)
  | 0x07 => do opcodeIf (fn == 0); bit14; acc0; roll0; let a ← ra; b124; pure (.mrestore a)
  | 0x08 => do opcodeIf (fn == 0); bit14; acc0; roll0; let a ← ra; let b ← rb; pure (.spk a b)
  | 0x09 => do
    let n ← fnOf 13 fn; opcodeIf (decide (4 ≤ n.val)); let d ← regOf (field w 20 14); let a ← ra; let b ← rb
    pure (.sghash n d a b)
  | 0x0A => do
    let m ← repOf fn; bit14; acc0; let r ← rollOf; let a ← ra; let b ← rb
    let sS ← finOf 384 (field i.w1 31 23); let d ← regOf (field i.w1 22 16)
    let off ← finOf 64 (field i.w1 15 10); operandIf (field i.w1 9 9 == 0)
    let sL ← finOf 384 (field i.w1 8 0); operandIf (evenS sL)
    pure (.sgbkt m d r a b sS sL off)
  | 0x0B => do
    let m ← flagOf fn; bit14; acc0; let r ← rollOf; let a ← ra; b124
    let sS ← finOf 384 (field i.w1 31 23); let gm ← regOf (field i.w1 22 16); operandIf (field i.w1 15 0 == 0)
    pure (.sgsum m r a sS gm)
  | 0x0C => do
    opcodeIf (fn == 0); bit14; acc0; let r ← rollOf; let a ← ra; operandIf (field w 6 0 == 125)
    let sK ← sregExt i.ext; operandIf (evenS sK); pure (.rolldecl r a sK)
  | _ => .error .illegalOpcode

/-- The control map (R236). -/
def decodeControl (i : Item) : Dec Instr := do
  let w := i.w0
  let fn := field w 25 21
  let fn0 := opcodeIf (fn == 0)
  let rd := regOf (field w 20 14)
  let ra := regOf (field w 13 7)
  let rb := srcOf (field w 6 0) i.ext
  let d124 := operandIf (field w 20 14 == 124)
  let a124 := operandIf (field w 13 7 == 124)
  let b124 := operandIf (field w 6 0 == 124)
  let off := BitVec.ofNat 19 (field w 18 0)
  match field w 31 26 with
  | 0x01 => do operandIf (field w 25 19 == 124); pure (.bra off)
  | 0x02 => do let a ← regOf (field w 25 19); pure (.brz a off)
  | 0x03 => do let a ← regOf (field w 25 19); pure (.brnz a off)
  | 0x04 => do fn0; d124; a124; let b ← rb; pure (.brx b)
  | 0x05 => do let g ← finOf 120 (field w 25 19); operandIf (g.val % 2 == 0); pure (.call g off)
  | 0x06 => do fn0; d124; a124; let g ← finOf 120 (field w 6 0); operandIf (g.val % 2 == 0); pure (.ret g)
  | 0x07 => do fn0; d124; a124; b124; pure .join
  | 0x08 => do fn0; d124; a124; b124; pure .exit
  | 0x0A => do fn0; d124; a124; let b ← rb; pure (.trap b)
  | 0x0B => do let x ← flagOf fn; d124; a124; b124; pure (.rett x)
  | 0x0C => do fn0; d124; a124; b124; pure .yield
  | 0x0D => do fn0; d124; a124; let b ← rb; pure (.sleep b)
  | 0x0E => do fn0; a124; let d ← rd; let b ← rb; pure (.grow d b)
  | 0x0F => do fn0; d124; a124; let b ← rb; pure (.shrink b)
  | 0x10 => do let p ← placeOf fn; a124; b124; let g ← finOf 120 (field w 20 14); pure (.place g p)
  | 0x11 => do let r ← fnOf 26 fn; a124; b124; let d ← rd; pure (.rdsr d r)
  | 0x12 => do let r ← wsrOf fn; d124; a124; let b ← rb; pure (.wrsr r b)
  | 0x13 => do
    let x ← flagOf fn; d124; let a ← ra; let b ← rb; operandIf (!x || b.evenG); pure (.send x a b)
  | 0x14 => do
    let x ← flagOf fn; b124; let d ← rd; let a ← ra; operandIf (!x || d.evenG); pure (.recv x d a)
  | 0x15 => do
    fn0; let d ← rd; let a ← ra; let b ← finOf 120 (field w 6 0); operandIf (b.val % 2 == 0); pure (.launch d a b)
  | 0x16 => do let n ← fnOf 8 fn; d124; let a ← ra; let b ← rb; pure (.cwait n a b)
  | 0x17 => do let n ← fnOf 8 fn; let d ← rd; let a ← ra; let b ← rb; pure (.ctest n d a b)
  | 0x18 => do let s ← scopeOf (fn / 4); d124; a124; b124; pure (.fence (orderOf (fn % 4)) s)
  | 0x19 => do
    fn0; d124; let a ← ra; let b ← rb
    operandIf (field i.w1 31 23 == 0); let g ← regOf (field i.w1 22 16)
    let k ← gkindOf (field i.w1 15 13); operandIf (field i.w1 12 8 == 0)
    pure (.bind a b g k (BitVec.ofNat 8 (field i.w1 7 0)))
  | 0x1A => do fn0; d124; let a ← ra; let b ← rb; pure (.barinit a b)
  | 0x1B => do let x ← flagOf fn; b124; let d ← rd; let a ← ra; pure (.bararr x d a)
  | 0x1C => do let x ← flagOf fn; d124; let a ← ra; let b ← rb; pure (.barwait x a b)
  | 0x1D => do fn0; d124; b124; let a ← ra; pure (.barfree a)
  | 0x1E => do fn0; d124; let a ← ra; let b ← rb; pure (.ringinit a b)
  | 0x1F => do fn0; b124; let d ← rd; let a ← ra; pure (.ringacq d a)
  | 0x20 => do fn0; d124; let a ← ra; let b ← rb; pure (.ringpub a b)
  | 0x21 => do fn0; b124; let d ← rd; let a ← ra; pure (.ringtake d a)
  | 0x22 => do fn0; d124; let a ← ra; let b ← rb; pure (.ringdone a b)
  | 0x23 => do let p ← placeOf fn; d124; b124; let a ← ra; pure (.savep p a)
  | 0x24 => do let p ← placeOf fn; d124; b124; let a ← ra; pure (.loadp p a)
  | 0x25 => do fn0; d124; a124; b124; pure .nop
  | _ => .error .illegalOpcode

/-- One instruction of a clause of class c (R224, R235, R236). -/
def decodeItem (c : Class) (i : Item) : Dec Instr :=
  if i.listed then
    match c with
    | .lane | .core | .cluster | .pier => decodeCompute i
    | .scalar => decodeScalar i
    | .copy => decodeCopy i
    | .matrix => decodeMatrix i
    | .control => decodeControl i
  else .error .illegalOpcode

/-- How many words the instruction that starts with w occupies (R224). -/
def wordLen (c : Class) (w : Word) : Nat :=
  match fmtOf c (field w 31 26) with
  | none => 1
  | some f => 1 + (if f = .w2 then 1 else 0) + (if wantsExt c f w then 1 else 0)

/-- The first instruction of a list of words, and the words after it. A missing word 1 or extension word is an illegal
clause (R44). -/
def decodeWords (c : Class) (ws : List Word) : Dec (Instr × List Word) :=
  match ws with
  | [] => .error .illegalClause
  | w :: _ =>
    match cutWords c 1 0 (ws.take (wordLen c w)) with
    | some (i :: _) => (decodeItem c i).map (fun x => (x, ws.drop (wordLen c w)))
    | _ => .error .illegalClause

/-- A word from four bytes, lowest address in the lowest bits (R336, log 4). -/
def wordOfBytes (b0 b1 b2 b3 : Byte) : Word :=
  BitVec.ofNat 32 (b0.toNat + 256 * b1.toNat + 65536 * b2.toNat + 16777216 * b3.toNat)

/-- Byte k of a word, byte 0 the lowest. -/
def byteOfWord (w : Word) (k : Nat) : Byte := BitVec.ofNat 8 (w.toNat / 256 ^ k)

/-- The four bytes of a word in memory order. -/
def bytesOfWord (w : Word) : List Byte := [byteOfWord w 0, byteOfWord w 1, byteOfWord w 2, byteOfWord w 3]

/-- The whole words of a list of bytes. -/
def wordsOfBytes : List Byte → List Word
  | b0 :: b1 :: b2 :: b3 :: rest => wordOfBytes b0 b1 b2 b3 :: wordsOfBytes rest
  | _ => []

/-- Decode the instruction at the head of a byte string in a clause of class c; total, refusing by name. -/
def decode (c : Class) (bs : List Byte) : Dec (Instr × List Byte) :=
  match decodeWords c (wordsOfBytes bs) with
  | .ok (i, rest) => .ok (i, bs.drop (4 * ((wordsOfBytes bs).length - rest.length)))
  | .error e => .error e

/-! ## Encoding -/

/-- Format A (R225). -/
def encA (op fn d a b : Nat) : Word := BitVec.ofNat 32 (op * 2 ^ 26 + fn * 2 ^ 21 + d * 2 ^ 14 + a * 2 ^ 7 + b)
/-- Format IM (R226). -/
def encIM (op fn d a off : Nat) : Word := BitVec.ofNat 32 (op * 2 ^ 26 + fn * 2 ^ 23 + d * 2 ^ 16 + a * 2 ^ 9 + off)
/-- Format SS (R227). -/
def encSS (op fn d a : Nat) : Word := BitVec.ofNat 32 (op * 2 ^ 26 + fn * 2 ^ 21 + d * 2 ^ 12 + a * 2 ^ 3)
/-- Format B (R229). -/
def encB (op a off : Nat) : Word := BitVec.ofNat 32 (op * 2 ^ 26 + a * 2 ^ 19 + off)
/-- Word 1 of format W2 (R228). -/
def encW1 (s opnd imm : Nat) : Word := BitVec.ofNat 32 (s * 2 ^ 23 + opnd * 2 ^ 16 + imm)
/-- Word 0 of a MATRIX instruction (R137). -/
def encM (op fn acc roll a b : Nat) : Word :=
  BitVec.ofNat 32 (op * 2 ^ 26 + fn * 2 ^ 21 + acc * 2 ^ 19 + roll * 2 ^ 15 + a * 2 ^ 7 + b)

def binW (op fn : Nat) (d a : Reg) (b : Src) : List Word := encA op fn d.code a.code b.code :: b.ext
def unW (op fn : Nat) (d : Reg) (b : Src) : List Word := encA op fn d.code 124 b.code :: b.ext
def ssW (op fn : Nat) (d : Fin 384) (a : SSrc) : List Word := encSS op fn d.val a.code :: a.ext
def shW (op fn : Nat) (d a : Reg) : Amt → List Word
  | .imm n => [encA op (fn + 2) d.code a.code n.val]
  | .src b => binW op fn d a b
def crossW (fn : Nat) (d a : Reg) (b : Src) (m : Fin 384) (fill : Reg) : List Word :=
  encA 0x38 fn d.code a.code b.code :: encW1 m.val fill.code 0 :: b.ext
def cross0 (fn : Nat) (d a : Reg) (m : Fin 384) : List Word :=
  [encA 0x38 fn d.code a.code 124, encW1 m.val 124 0]
def mmFn (z ws x : Bool) : Nat := z.toNat + 2 * ws.toNat + 4 * x.toNat

/-- The words of an instruction, from the encoding tables of R110, R137, R225 to R236; an event has none. -/
def encode : Instr → List Word
  | .abs m d b => unW 0x13 m.fn d b
  | .add m d a b => binW 0x01 m.fn d a b
  | .addScalar m d a => ssW 0x01 m.fn d a
  | .and d a b => binW 0x06 0 d a b
  | .andScalar d a => ssW 0x06 0 d a
  | .bfi d a b => binW 0x10 0 d a b
  | .bfiScalar d a => ssW 0x10 0 d a
  | .bfx m d a b => binW 0x0F m.fn d a b
  | .bfxScalar m d a => ssW 0x0F m.fn d a
  | .clz d b => unW 0x0D 0 d b
  | .clzScalar d a => ssW 0x0D 0 d a
  | .cmp r d a b => binW 0x15 r.fn d a b
  | .cmpScalar r d a => ssW 0x15 r.fn d a
  | .lea n d a b => binW 0x17 n.val d a b
  | .leaScalar n d a => ssW 0x17 n.val d a
  | .mad d a b => binW 0x05 0 d a b
  | .max m d a b => binW 0x12 m.fn d a b
  | .maxScalar m d a => ssW 0x12 m.fn d a
  | .min m d a b => binW 0x11 m.fn d a b
  | .minScalar m d a => ssW 0x11 m.fn d a
  | .mov d b => unW 0x18 0 d b
  | .movScalar d a => ssW 0x18 0 d a
  | .mul d a b => binW 0x03 0 d a b
  | .mulScalar d a => ssW 0x03 0 d a
  | .mulh m d a b => binW 0x04 m.fn d a b
  | .mulhScalar m d a => ssW 0x04 m.fn d a
  | .neg m d b => unW 0x14 m.fn d b
  | .or d a b => binW 0x07 0 d a b
  | .orScalar d a => ssW 0x07 0 d a
  | .popc d b => unW 0x0E 0 d b
  | .popcScalar d a => ssW 0x0E 0 d a
  | .rot d a n => shW 0x0B 0 d a n
  | .rotScalar d a => ssW 0x0B 0 d a
  | .sel d a b => binW 0x16 0 d a b
  | .selScalar d a => ssW 0x16 0 d a
  | .shl d a n => shW 0x09 0 d a n
  | .shlScalar d a => ssW 0x09 0 d a
  | .shr m d a n => shW 0x0A m.fn d a n
  | .shrScalar m d a => ssW 0x0A m.fn d a
  | .shrr d a n => shW 0x0C 0 d a n
  | .sub m d a b => binW 0x02 m.fn d a b
  | .subScalar m d a => ssW 0x02 m.fn d a
  | .xor d a b => binW 0x08 0 d a b
  | .xorScalar d a => ssW 0x08 0 d a
  | .pack x d a b => binW 0x1C x.toNat d a b
  | .padd m d a b => binW 0x19 m.fn d a b
  | .pdot2 x d a b => binW 0x1B x.toNat d a b
  | .psub m d a b => binW 0x1A m.fn d a b
  | .fadd m d a b => binW 0x1D m.fn d a b
  | .fsub m d a b => binW 0x1E m.fn d a b
  | .fmul m d a b => binW 0x1F m.fn d a b
  | .ffma m d a b => binW 0x20 m.fn d a b
  | .fcmp r d a b => binW 0x23 r.fn d a b
  | .fcvt c d a b => binW 0x24 c.fn d a b
  | .fmax d a b => binW 0x22 0 d a b
  | .fmin d a b => binW 0x21 0 d a b
  | .frnd m d b => unW 0x25 m.fn d b
  | .bfma x d a b => binW 0x37 x.toNat d a b
  | .cospi d b => unW 0x2C 0 d b
  | .ex2 d b => unW 0x29 0 d b
  | .lg2 d b => unW 0x2A 0 d b
  | .rcp d b => unW 0x26 0 d b
  | .rsq d b => unW 0x27 0 d b
  | .sinpi d b => unW 0x2B 0 d b
  | .sqrt d b => unW 0x28 0 d b
  | .tanh d b => unW 0x2D 0 d b
  | .act n d b => unW 0x2E n.val d b
  | .actld n a => [encA 0x2F n.val 124 a.code 124]
  | .ld k d a off => [encIM 0x30 k.fn d.code a.code off.toNat]
  | .ldScalar k d a => ssW 0x30 k.fn d a
  | .st k d a off => [encIM 0x31 k.fn d.code a.code off.toNat]
  | .stScalar k d a => ssW 0x31 k.fn d a
  | .ldfe d a off => [encIM 0x32 4 d.code a.code off.toNat]
  | .stfe d a off => [encIM 0x33 4 d.code a.code off.toNat]
  | .ldw k d a off => [encIM 0x34 k.fn d.code a.code off.toNat]
  | .atom op d a b => binW 0x35 op.fn d a b
  | .cas d a b => binW 0x36 0 d a b
  | .bcast d a b m fill => crossW 6 d a b m fill
  | .xmatch d a m => cross0 10 d a m
  | .rank d a m => cross0 11 d a m
  | .redx op d a m => cross0 (match op with | .addI => 12 | .minI => 13 | .maxI => 14 | .fadd => 15) d a m
  | .shfl d a b m fill => crossW 0 d a b m fill
  | .slide op d a b m fill => crossW (match op with | .upW => 1 | .dnW => 2 | .upH => 3 | .dnH => 4) d a b m fill
  | .vote op d a m => cross0 (match op with | .any => 7 | .all => 8 | .bal => 9) d a m
  | .xshfl d a b m fill => crossW 5 d a b m fill
  | .bra off => [encB 0x01 124 off.toNat]
  | .brz a off => [encB 0x02 a.code off.toNat]
  | .brnz a off => [encB 0x03 a.code off.toNat]
  | .brx b => encA 0x04 0 124 124 b.code :: b.ext
  | .call gl off => [encB 0x05 gl.val off.toNat]
  | .ret b => [encA 0x06 0 124 124 b.val]
  | .join => [encA 0x07 0 124 124 124]
  | .exit => [encA 0x08 0 124 124 124]
  | .trap b => encA 0x0A 0 124 124 b.code :: b.ext
  | .rett nxt => [encA 0x0B nxt.toNat 124 124 124]
  | .yield => [encA 0x0C 0 124 124 124]
  | .sleep b => encA 0x0D 0 124 124 b.code :: b.ext
  | .grow d n => encA 0x0E 0 d.code 124 n.code :: n.ext
  | .shrink n => encA 0x0F 0 124 124 n.code :: n.ext
  | .place g p => [encA 0x10 p.code g.val 124 124]
  | .rdsr d r => [encA 0x11 r.val d.code 124 124]
  | .wrsr r b => encA 0x12 r.fn 124 124 b.code :: b.ext
  | .send wide a b => encA 0x13 wide.toNat 124 a.code b.code :: b.ext
  | .recv wide d a => [encA 0x14 wide.toNat d.code a.code 124]
  | .launch d a b => [encA 0x15 0 d.code a.code b.val]
  | .cwait n a b => encA 0x16 n.val 124 a.code b.code :: b.ext
  | .ctest n d a b => encA 0x17 n.val d.code a.code b.code :: b.ext
  | .fence o s => [encA 0x18 (o.code + 4 * s.code) 124 124 124]
  | .bind a b guard kind idx =>
    encA 0x19 0 124 a.code b.code :: encW1 0 guard.code (kind.code * 2 ^ 13 + idx.toNat) :: b.ext
  | .barinit a b => encA 0x1A 0 124 a.code b.code :: b.ext
  | .bararr ch d a => [encA 0x1B ch.toNat d.code a.code 124]
  | .barwait ch a b => encA 0x1C ch.toNat 124 a.code b.code :: b.ext
  | .barfree a => [encA 0x1D 0 124 a.code 124]
  | .ringinit a b => encA 0x1E 0 124 a.code b.code :: b.ext
  | .ringacq d a => [encA 0x1F 0 d.code a.code 124]
  | .ringpub a b => encA 0x20 0 124 a.code b.code :: b.ext
  | .ringtake d a => [encA 0x21 0 d.code a.code 124]
  | .ringdone a b => encA 0x22 0 124 a.code b.code :: b.ext
  | .savep p a => [encA 0x23 p.code 124 a.code 124]
  | .loadp p a => [encA 0x24 p.code 124 a.code 124]
  | .nop => [encA 0x25 0 124 124 124]
  | .cpy ch a r => [encA 0x01 0 ch.val a.code 124, encW1 r.val 124 0]
  | .cpyg wide ch a b => [encA 0x02 wide.toNat ch.val a.code b.val]
  | .cpys wide ch a b => [encA 0x03 wide.toNat ch.val a.code b.val]
  | .qfence ch m => [encA 0x04 0 ch.val 124 125, BitVec.ofNat 32 m.val]
  | .cred ch a r bit => [encA 0x05 0 ch.val a.code 124, encW1 r.val 124 bit.val]
  | .cgath ch a r bit => [encA 0x06 0 ch.val a.code 124, encW1 r.val 124 bit.val]
  | .mma z ws x acc roll a b => encM 0x01 (mmFn z ws x) acc.val roll.val a.code b.code :: b.ext
  | .mmconv z ws x acc roll a b r kb =>
    encM 0x02 (mmFn z ws x) acc.val roll.val a.code b.code :: encW1 r.val 124 kb.toNat :: b.ext
  | .mzero acc roll => [encM 0x03 0 acc.val roll.val 124 124]
  | .mload acc roll a => [encM 0x04 0 acc.val roll.val a.code 124]
  | .mstore acc roll a b => encM 0x05 0 acc.val roll.val a.code b.code :: b.ext
  | .msave a => [encM 0x06 0 0 0 a.code 124]
  | .mrestore a => [encM 0x07 0 0 0 a.code 124]
  | .spk a b => encM 0x08 0 0 0 a.code b.code :: b.ext
  | .sghash n d a b => encA 0x09 n.val d.code a.code b.code :: b.ext
  | .sgbkt m d roll a b sS sL off =>
    encM 0x0A m.fn 0 roll.val a.code b.code :: encW1 sS.val d.code (off.val * 2 ^ 10 + sL.val) :: b.ext
  | .sgsum mean roll a sS gm => [encM 0x0B mean.toNat 0 roll.val a.code 124, encW1 sS.val gm.code 0]
  | .rolldecl roll a sK => [encM 0x0C 0 0 roll.val a.code 125, BitVec.ofNat 32 sK.val]
  | _ => []

/-- The classes of the clauses that may hold an instruction, from the Classes line of its reference entry (R298 to R393); an
event stands in none. -/
def classesOf : Instr → List Class
  | .add _ _ _ _ | .sub _ _ _ _ | .and _ _ _ | .or _ _ _ | .xor _ _ _ | .mov _ _ => [.lane, .core, .cluster, .pier]
  | .fadd _ _ _ _ | .fsub _ _ _ _ | .fmul _ _ _ _ | .ffma _ _ _ _ | .fmax _ _ _ | .fmin _ _ _ =>
    [.lane, .core, .cluster, .pier]
  | .cmp _ _ _ _ | .max _ _ _ _ | .min _ _ _ _ | .mul _ _ _ | .rot _ _ _ | .sel _ _ _ | .shl _ _ _ | .shr _ _ _ _ |
    .fcmp _ _ _ _ => [.lane, .core, .cluster]
  | .abs _ _ _ | .neg _ _ _ | .bfi _ _ _ | .bfx _ _ _ _ | .clz _ _ | .lea _ _ _ _ | .mad _ _ _ | .mulh _ _ _ _ |
    .popc _ _ | .shrr _ _ _ => [.lane, .core]
  | .pack _ _ _ _ | .padd _ _ _ _ | .pdot2 _ _ _ _ | .psub _ _ _ _ | .fcvt _ _ _ _ | .frnd _ _ _ | .ldfe _ _ _ |
    .stfe _ _ _ => [.lane, .core]
  | .ld _ _ _ _ | .st _ _ _ _ | .ldw _ _ _ _ | .atom _ _ _ _ | .cas _ _ _ => [.lane, .core, .pier]
  | .bfma _ _ _ _ => [.pier]
  | .cospi _ _ | .ex2 _ _ | .lg2 _ _ | .rcp _ _ | .rsq _ _ | .sinpi _ _ | .sqrt _ _ | .tanh _ _ | .act _ _ _ |
    .actld _ _ => [.core]
  | .bcast _ _ _ _ _ | .xmatch _ _ _ | .rank _ _ _ | .redx _ _ _ _ | .shfl _ _ _ _ _ | .slide _ _ _ _ _ _ |
    .vote _ _ _ _ | .xshfl _ _ _ _ _ => [.lane]
  | .addScalar _ _ _ | .andScalar _ _ | .bfiScalar _ _ | .bfxScalar _ _ _ | .clzScalar _ _ | .cmpScalar _ _ _ |
    .leaScalar _ _ _ | .maxScalar _ _ _ | .minScalar _ _ _ | .movScalar _ _ | .mulScalar _ _ | .mulhScalar _ _ _ |
    .orScalar _ _ | .popcScalar _ _ | .rotScalar _ _ | .selScalar _ _ | .shlScalar _ _ | .shrScalar _ _ _ |
    .subScalar _ _ _ | .xorScalar _ _ | .ldScalar _ _ _ | .stScalar _ _ _ => [.scalar]
  | .bra _ | .brz _ _ | .brnz _ _ | .brx _ | .call _ _ | .ret _ | .join | .exit | .trap _ | .rett _ | .yield | .sleep _ |
    .grow _ _ | .shrink _ | .place _ _ | .rdsr _ _ | .wrsr _ _ | .send _ _ _ | .recv _ _ _ | .launch _ _ _ |
    .cwait _ _ _ | .ctest _ _ _ _ | .fence _ _ | .bind _ _ _ _ _ | .barinit _ _ | .bararr _ _ _ | .barwait _ _ _ |
    .barfree _ | .ringinit _ _ | .ringacq _ _ | .ringpub _ _ | .ringtake _ _ | .ringdone _ _ | .savep _ _ | .loadp _ _ |
    .nop => [.control]
  | .cpy _ _ _ | .cpyg _ _ _ _ | .cpys _ _ _ _ | .qfence _ _ | .cred _ _ _ _ | .cgath _ _ _ _ => [.copy]
  | .mma _ _ _ _ _ _ _ | .mmconv _ _ _ _ _ _ _ _ _ | .mzero _ _ | .mload _ _ _ | .mstore _ _ _ _ | .msave _ |
    .mrestore _ | .spk _ _ | .sghash _ _ _ _ | .sgbkt _ _ _ _ _ _ _ _ | .sgsum _ _ _ _ _ | .rolldecl _ _ _ => [.matrix]
  | _ => []

/-! ## The opcode table's words -/

/-- Instructions whose words fix more than OP and FN, tried before the compute map (log 13). -/
def specificWord : Instr → Bool
  | .brz _ _ | .brnz _ _ | .call _ _ | .launch _ _ _ | .ctest _ _ _ _ => false
  | .mma _ _ _ _ _ _ _ | .mstore _ _ _ _ | .spk _ _ | .sghash _ _ _ _ => false
  | .cpyg _ _ _ _ | .cpys _ _ _ _ | .sgbkt _ _ _ _ _ _ _ _ => false
  | _ => true

/-- The class and the instruction that a list of words stands for when no header names the class: the classes are
tried in a fixed order, words with more fixed bits first (log 13). -/
def classify (ws : List Word) : Option (Class × Instr) :=
  let get := fun c => match decodeWords c ws with | .ok (i, _) => some (c, i) | .error _ => none
  let specific := fun c => match get c with | some (c, i) => if specificWord i then some (c, i) else none | none => none
  specific .control <|> specific .matrix <|> specific .copy <|>
    get .lane <|> get .core <|> get .pier <|> get .cluster <|> get .control <|> get .copy <|> get .matrix <|> get .scalar

/-- The three words that hold an instruction whose bits are w, the bits above nbits being zero. -/
def tableWords (nbits w : Nat) : List Word :=
  let v := w % 2 ^ nbits
  [BitVec.ofNat 32 v, BitVec.ofNat 32 (v / 2 ^ 32), BitVec.ofNat 32 (v / 2 ^ 64)]

/-- The instruction that the decoder reads from a word of spec/opcode_table.json. -/
def decodeTableWord (nbits w : Nat) : Option Instr := (classify (tableWords nbits w)).map (·.2)

end Sys2Proof
end

