-- ==== Sys2Proof/Machine/Page.lean ====
section
/-! DEFINITION. Page-table entries and what a page maps (R99 to R102, R395), over any physical memory. -/

namespace Sys2Proof.Machine

/-! ## Page-table entries (R100 to R102) -/

def pteBits (e : BitVec 64) (hi lo : Nat) : Nat := bitsOf e.toNat hi lo
def pteSize (e : BitVec 64) : Nat := pteBits e 61 60
def pteType (e : BitVec 64) : Nat := pteBits e 59 58
def pteDirty (e : BitVec 64) : Bool := pteBits e 54 54 == 1
def pteWr (e : BitVec 64) : Bool := pteBits e 53 53 == 1
def pteRd (e : BitVec 64) : Bool := pteBits e 52 52 == 1
def pteFrame (e : BitVec 64) : Nat := pteBits e 51 16 * 65536
def pteFmt (e : BitVec 64) : Nat := pteBits e 15 11
def pteGeom (e : BitVec 64) : Nat := pteBits e 10 8
/-- An entry with D set. -/
def pteSetD (e : BitVec 64) : BitVec 64 := e ||| (1#64 <<< 54)

/-- Bytes of a page of a size code (R100). -/
def pageBytes : Nat → Nat
  | 0 => 2 ^ 16 | 1 => 2 ^ 21 | 2 => 2 ^ 25 | _ => 2 ^ 30

/-- Whether a frame of n bytes lies in the memory of its TYPE (R99). -/
def frameOk (ty frame n : Nat) : Bool :=
  match ty with
  | 0 => decide (frame + n ≤ 0x9000000000)
  | 1 => decide (2 ^ 51 ≤ frame ∧ frame + n ≤ 2 ^ 51 + 4 * 0x20000000)
  | 2 => decide (0xC000000000000 ≤ frame ∧ frame + n ≤ 2 ^ 52)
  | _ => false

/-- A valid leaf entry at a level, but for RD (R102). -/
def leafOk (lvl : Nat) (e : BitVec 64) : Bool :=
  pteBits e 63 62 == 3 && pteBits e 7 0 == 0 && (if pteSize e = 3 then lvl == 2 else lvl == 3)
  && frameOk (pteType e) (pteFrame e) (pageBytes (pteSize e)) && pteFrame e % pageBytes (pteSize e) == 0
  && formatOk (pteFmt e) (pteGeom e)

/-- A valid pointer entry: V = 1, L = 0 and only bits 51:13 besides (R100). -/
def pointerOk (e : BitVec 64) : Bool := pteBits e 63 62 == 2 && pteBits e 61 52 == 0 && pteBits e 12 0 == 0

/-! ## What a page maps (R395) -/

/-- The offset of an address in its page. -/
def pageOff (pte : BitVec 64) (va : Nat) : Nat := va % pageBytes (pteSize pte)

/-- The physical address of an address in a byte-for-byte page. -/
def paOf (pte : BitVec 64) (va : Nat) : Nat := pteFrame pte + pageOff pte va

/-- The storage bytes of a page, by offset, in a physical memory. -/
def pageRdOf (m : Nat → Byte) (pte : BitVec 64) : Bytes := fun o => m (pteFrame pte + o)

/-- The word at a word-aligned address of a page. -/
def pageLoad (m : Nat → Byte) (pte : BitVec 64) (va : Nat) : Word :=
  if expanded (pteFmt pte) then elemLoad (pteFmt pte) (pteGeom pte) (pageRdOf m pte) (pageOff pte va / 4)
  else BitVec.ofNat 32 (leNat ((List.range 4).map (fun i => m (paOf pte va + i))))

/-- The physical bytes behind that word. -/
def pageSpan (m : Nat → Byte) (pte : BitVec 64) (va : Nat) : List Nat :=
  if expanded (pteFmt pte) then
    (elemReads (pteFmt pte) (pteGeom pte) (pageRdOf m pte) (pageOff pte va / 4)).map (· + pteFrame pte)
  else (List.range 4).map (· + paOf pte va)

/-- What a store of a word there writes: its first physical byte and the bytes. A page of SP24 takes no store (R71). -/
def pageStore (m : Nat → Byte) (pte : BitVec 64) (va : Nat) (w : Word) : Nat × List Byte :=
  if expanded (pteFmt pte) then
    let y := elemStore (pteFmt pte) (pteGeom pte) (pageRdOf m pte) (pageOff pte va / 4) w
    (pteFrame pte + y.1, y.2)
  else (paOf pte va, leBytes 4 w.toNat)

/-- Whether words may be stored through an entry (R71, R102). -/
def writable (pte : BitVec 64) : Bool := pteWr pte && !isSP24 (pteFmt pte)

/-- The bytes of storage that an entry maps: of a formatted page, those of as many elements as its view has slots. -/
def pageStored (pte : BitVec 64) : Nat :=
  if expanded (pteFmt pte) then
    pageBytes (pteSize pte) / 4 / unitElems (pteFmt pte) (pteGeom pte) * unitBytes (pteFmt pte) (pteGeom pte)
  else pageBytes (pteSize pte)

/-- The physical address of the storage byte at an address; none past the storage that the entry maps (log 87). -/
def storedAt (pte : BitVec 64) (va : Nat) : Option Nat :=
  if pageOff pte va < pageStored pte then some (paOf pte va) else none

/-- The physical address under which a node is known: that of the first storage byte of its word 0 (log 17). -/
def nodeKey (pte : BitVec 64) (va : Nat) : Nat :=
  if expanded (pteFmt pte) then pteFrame pte + elemOff (pteFmt pte) (pteGeom pte) (pageOff pte va / 4) else paOf pte va

end Sys2Proof.Machine
end

