-- ==== Sys2Proof/Machine/Ops.lean ====
section
/-! DEFINITION. The named operations over the state: records, hall words, buffers, reservations, registers, executing
one word of a clause, and taking a trap (R45, R51 to R53, R88 to R90, R169 to R174). -/

namespace Sys2Proof.Machine

/-! ## Records -/

def State.modThread (s : State) (k : Nat) (f : Thread → Thread) : State := { s with threads := Tab.mod k f s.threads }
def State.modForm (s : State) (k : Nat) (f : Form → Form) : State := { s with forms := Tab.mod k f s.forms }
def State.cluster (s : State) (c : Nat) : Cluster := Tab.getD Cluster.reset c s.clusters
def State.modCluster (s : State) (c : Nat) (f : Cluster → Cluster) : State :=
  { s with clusters := Tab.put c (f (s.cluster c)) s.clusters }
def State.core (s : State) (c : Nat) : Core := Tab.getD Core.reset c s.cores
def State.modCore (s : State) (c : Nat) (f : Core → Core) : State := { s with cores := Tab.put c (f (s.core c)) s.cores }
def State.stack (s : State) (k : Nat) : Stack := Tab.getD Stack.reset k s.hbm
def State.modStack (s : State) (k : Nat) (f : Stack → Stack) : State :=
  { s with hbm := Tab.put k (f (s.stack k)) s.hbm }
def State.die (s : State) (d : Nat) : Die := Tab.getD Die.reset d s.dies
def State.modDie (s : State) (d : Nat) (f : Die → Die) : State := { s with dies := Tab.put d (f (s.die d)) s.dies }
/-- The pass count of a cluster: the highest p of its demands (R25, R190). -/
def State.passes (s : State) (c : Nat) : Nat :=
  max (max (s.cluster c).thermal.passes (s.cluster c).group.passes) s.package.pos.passes
def State.note (s : State) (i : LogItem) : State := { s with log := s.log ++ [i] }

/-! ## Recording (R220, R221) -/

def State.recording (s : State) : Bool := decide (s.recctl.toNat % 4 = 1)
def State.replaying (s : State) : Bool := decide (s.recctl.toNat % 4 = 2)
/-- Log an item in recording mode. -/
def State.keep (s : State) (x : RecItem) : State := if s.recording then { s with nvme := s.nvme ++ [x] } else s
/-- An item has been re-imposed. -/
def State.played (s : State) (x : RecItem) : State := { s with play := s.play.erase x }

/-- A new number for an operation or a form. -/
def State.fresh (s : State) : State := { s with serial := s.serial + 1 }

/-- The key of thread `tid` of form `f`. -/
def threadKey (f tid : Nat) : Nat := f * 4096 + tid

/-- The keyed threads of a form. -/
def State.threadsOf (s : State) (f : Nat) : List (Nat × Thread) := s.threads.filter (fun p => p.2.form == f)

/-- Change every thread of a form. -/
def State.modThreadsOf (s : State) (f : Nat) (g : Thread → Thread) : State :=
  { s with threads := s.threads.map (fun p => (p.1, if p.2.form = f then g p.2 else p.2)) }

def Bench.blank : Bench := { seat := { core := 0, row := 0, lane := 0 }, s := [], meets := [] }
def Form.bench (f : Form) (b : Nat) : Bench := f.benches.getD b Bench.blank
def Form.modBench (f : Form) (b : Nat) (g : Bench → Bench) : Form := { f with benches := f.benches.modify b g }
/-- The index within the form of device core c (R83). -/
def Form.fcOf (f : Form) (c : Nat) : Nat := f.cores.findIdx (· == c)
def Form.mctx (f : Form) (fc : Nat) : MCtx := f.ctxs.getD fc MCtx.reset
def Form.modCtx (f : Form) (fc : Nat) (g : MCtx → MCtx) : Form := { f with ctxs := f.ctxs.modify fc g }
def MCtx.roll (c : MCtx) (r : Nat) : Roll := Tab.getD Roll.reset r c.rolls
def MCtx.setRoll (c : MCtx) (r : Nat) (x : Roll) : MCtx := { c with rolls := Tab.put r x c.rolls }

/-! ## Hall storage, tags and reservations (R88 to R91, R297, R337) -/

def Form.byte (f : Form) (a : Nat) : Byte := SMap.get 0 a f.hall
/-- The tag of the storage word that holds byte address a (R394). -/
def Form.tag (f : Form) (a : Nat) : Tag := SMap.get .empty (a / 4) f.tags
def Form.word (f : Form) (a : Nat) : Word := BitVec.ofNat 32 (leNat (SMap.getList 0 a 4 f.hall))

/-- Whether another thread holds the storage word at byte address a reserved (R297). -/
def Form.heldByOther (f : Form) (k a : Nat) : Bool := f.resv.any (fun r => r.1 == a / 4 && r.2 != k)
def Form.held (f : Form) (a : Nat) : Bool := f.resv.any (fun r => r.1 == a / 4)

/-- The storage words that n bytes from a touch. -/
def wordsOfSpan (a n : Nat) : List Nat := (List.range ((a + (n - 1)) / 4 + 1 - a / 4)).map (· + a / 4)

/-- A word whose tag has changed, or that is reserved no longer, serves the oldest LDFE or STFE that it can (R90): it
is reserved for that thread. -/
def Form.serve (f : Form) (w : Nat) : Form :=
  if f.resv.any (fun r => r.1 == w) then f
  else
    let kind := match SMap.get Tag.empty w f.tags with
      | .full => some WaitKind.ldfe | .empty => some .stfe | _ => none
    match kind with
    | none => f
    | some k =>
      match f.waiters.find? (fun x => decide (x.kind = k) && x.addrs.contains w) with
      | some x => { f with resv := f.resv ++ [(w, x.thread)] }
      | none => f

/-- Set the tag of one storage word as a write does. -/
def Form.retag (f : Form) (fx : TagFx) (w : Nat) : Form :=
  match fx with
  | .keep => f
  | .full => { f with tags := SMap.set .empty w .full f.tags }
  | .empty => { f with tags := SMap.set .empty w .empty f.tags }
  | .object _ => { f with tags := SMap.set .empty w .object f.tags }
  | .plain => { f with tags := SMap.set .empty w .empty f.tags }

/-- The bytes that a write performs: where a value is to be converted, what it converts to in the storage as it is then
(R71, R388). -/
def HallW.data (x : HallW) (f : Form) : List Byte :=
  match x.conv with
  | none => x.bytes
  | some c =>
    let new := (elemStore c.fmt c.geom (fun o => f.byte (c.sb + o)) c.idx c.val).2
    x.bytes.zipIdx.map (fun p => new.getD p.2 p.1)

/-- Perform one write: its bytes, its words' tags, and the object that it makes or ends. The tags that a store meets were
judged when its word executed (log 94). -/
def Form.write (f : Form) (x : HallW) : Form :=
  let f := { f with hall := SMap.setList 0 x.addr (x.data f) f.hall }
  let f := (wordsOfSpan x.addr x.bytes.length).foldl (fun f w => f.retag x.tag w) f
  match x.tag with
  | .object k => { f with objs := Tab.put (x.addr / 4) k f.objs }
  | .plain => { f with objs := Tab.del (x.addr / 4) f.objs }
  | _ => f

/-- Perform a list of writes in order (R51). -/
def Form.writes (f : Form) : List HallW → Form
  | [] => f
  | x :: r => (f.write x).writes r

/-- Release thread k's reservations and waits; the words it held serve the next waiter (R337). -/
def Form.release (f : Form) (k : Nat) : Form :=
  let ws := (f.resv.filter (·.2 == k)).map (·.1)
  let f := { f with resv := f.resv.filter (·.2 != k), waiters := f.waiters.filter (·.thread != k) }
  ws.foldl Form.serve f

/-- The PHASE of a barrier object's word 0 (R304). -/
def phaseOf (w : Word) : Nat := w.toNat / 65536

/-- A phase b is complete when PHASE is 1 to 2^(n−1) − 1 ahead of it, mod 2^n (R309). -/
def phaseDone (n phase b : Nat) : Bool :=
  let k := (phase + 2 ^ n - b % 2 ^ n) % 2 ^ n
  decide (1 ≤ k ∧ k < 2 ^ (n - 1))

/-- The BARWAITs on a barrier object whose word 0 was written, and whose phase is complete now, wait no longer (R309). -/
def Form.phased (f : Form) (w : Nat) : Form :=
  if Tab.find? w f.objs = some .barrier then
    { f with waiters := f.waiters.map (fun x =>
        if x.kind = .barrier ∧ x.addrs.contains w ∧ phaseDone 16 (phaseOf (f.word (4 * w))) x.phase
        then { x with done := true } else x) }
  else f

/-- Serve every word that a list of writes touched. -/
def Form.serveAll (f : Form) (xs : List HallW) : Form :=
  (xs.flatMap (fun x => wordsOfSpan x.addr x.bytes.length)).foldl (fun f w => (f.serve w).phased w) f

/-- Take a place in a queue of waiters, once. -/
def Form.enqueue (f : Form) (k : Nat) (kind : WaitKind) (addrs : List Nat) (seq : Nat := 0) (phase : Nat := 0) : Form :=
  if f.waiters.any (fun x => x.thread == k && decide (x.kind = kind)) then f
  else { f with waiters := f.waiters ++ [{ thread := k, kind := kind, addrs := addrs, seq := seq, phase := phase }] }

/-- Leave a queue of waiters. -/
def Form.leave (f : Form) (k : Nat) (kind : WaitKind) : Form :=
  { f with waiters := f.waiters.filter (fun x => !(x.thread == k && decide (x.kind = kind))) }

/-- Another thread's clause of an earlier dispatch waits to reserve one of the words (R297: oldest dispatch first). -/
def Form.olderReserve (f : Form) (k seq : Nat) (ws : List Nat) : Bool :=
  f.waiters.any (fun x => decide (x.kind = .reserve) && x.thread != k && decide (x.seq < seq) &&
    x.addrs.any (fun w => ws.contains w))

/-- The oldest waiter of a kind on a word is thread k, or there is none. -/
def Form.firstIs (f : Form) (k : Nat) (kind : WaitKind) (w : Nat) : Bool :=
  match f.waiters.find? (fun x => decide (x.kind = kind) && x.addrs.contains w) with
  | none => true
  | some x => x.thread == k

/-- Byte a as a clause sees it: its own latest buffered store, else the hall (R51). -/
def seenByte (f : Form) (hw : List HallW) (a : Nat) : Byte :=
  match hw.reverse.find? (fun x => decide (x.addr ≤ a ∧ a < x.addr + x.bytes.length)) with
  | some x => x.bytes.getD (a - x.addr) 0
  | none => f.byte a

def seenWord (f : Form) (hw : List HallW) (a : Nat) : Word :=
  BitVec.ofNat 32 (leNat ((List.range 4).map (fun i => seenByte f hw (a + i))))

/-! ## The executing word -/

/-- What a word executes in: the state, the thread and its key, its form, the position of its clause among the
outstanding ones, and its word index. -/
structure Env where
  s : State
  k : Nat
  th : Thread
  fm : Form
  i : Nat
  cl : Clause
  idx : Nat

/-- The first outstanding clause with a word left. -/
def findOpen : List Clause → Nat → Option (Nat × Clause × Nat)
  | [], _ => none
  | c :: r, i =>
    match c.todo with
    | [] => findOpen r (i + 1)
    | (idx, _) :: _ => some (i, c, idx)

/-- The clause at position i, if it has a word left. -/
def openAt (cs : List Clause) (i : Nat) : Option (Nat × Clause × Nat) :=
  match cs[i]? with
  | none => none
  | some c =>
    match c.todo with
    | [] => none
    | (idx, _) :: _ => some (i, c, idx)

/-- The clause that executes next: the one at a given position, or the first with a word left. -/
def pickOpen (cs : List Clause) : Option Nat → Option (Nat × Clause × Nat)
  | none => findOpen cs 0
  | some i => openAt cs i

/-- The waits of R27 inside an instruction, which an asynchronous cause ends; the wait for a frozen context counts as one
(log 89). -/
def Wait.interruptible : Wait → Bool
  | .fullEmpty | .barrier | .channelBarrier | .ring | .chunk | .roll | .cross | .join | .channel | .grow _ | .sleep _
  | .reservation | .engine | .fence | .frozen => true
  | .none | .token | .dispatch | .fetch | .drain | .held => false

/-- Whether a thread is in a wait of R27 inside an instruction. -/
def Thread.inWait (th : Thread) : Bool := th.clauses.any (·.wait.interruptible)

/-- The word that the current thread executes next. -/
def openWord (s : State) : Option Env :=
  match Tab.find? s.cur s.threads with
  | none => none
  | some th =>
    match Tab.find? th.form s.forms with
    | none => none
    | some fm =>
      match pickOpen th.clauses s.curAt with
      | none => none
      | some (i, cl, idx) => some { s := s, k := s.cur, th := th, fm := fm, i := i, cl := cl, idx := idx }

/-- How the execution of one word ends: done, with the state that holds its effects; in a wait of R27; or in a fault,
with TADDR and DATA. -/
inductive WordOut where
  | done (s : State)
  | wait (w : Wait) (s : State)
  | fault (cause : Nat) (addr : Word) (data : Nat)

/-- Change the executing clause. -/
def Env.upd (e : Env) (s : State) (f : Clause → Clause) : State :=
  s.modThread e.k (fun th => { th with clauses := th.clauses.modify e.i f })

/-- A clause's next word is done: it leaves the clause, and the clause's wait ends. -/
def Clause.pop (c : Clause) : Clause := { c with todo := c.todo.tail, wait := .none }

/-- The next PC that a clause sets: that of a CONTROL clause which has executed (R51). -/
def Clause.pcAfter (c : Clause) (pc : VAddr) : VAddr := if c.hdr.cls = .control ∧ c.todo = [] then c.next else pc

/-- The next word of the clause at position i is done, with one change to its clause. -/
def Thread.endWord (th : Thread) (i : Nat) (f : Clause → Clause) : Thread :=
  { th with
    clauses := th.clauses.modify i (fun c => (f c).pop)
    pc := match th.clauses[i]? with | some c => (f c).pop.pcAfter th.pc | none => th.pc }

/-- The executing word is done. -/
def Env.finish (e : Env) (s : State) : State := s.modThread e.k (·.endWord e.i id)

/-- The executing clause waits. -/
def Clause.waits (w : Wait) (c : Clause) : Clause := { c with wait := w }

/-! ## Registers (R34, R35, R45) -/

/-- The value of gn for the clause at position i: the latest write of an earlier outstanding clause, else the file. -/
def gRead (th : Thread) (i n : Nat) : Word :=
  match (th.clauses.take i).reverse.findSome? (fun c => c.gw.lookup n) with
  | some v => v
  | none => SMap.get 0 n th.g

/-- The value of sn, in the same way. -/
def sRead (fm : Form) (th : Thread) (i n : Nat) : Word :=
  match (th.clauses.take i).reverse.findSome? (fun c => c.sw.lookup n) with
  | some v => v
  | none => SMap.get 0 n (fm.bench th.bench).s

def Env.g (e : Env) (n : Nat) : Word := gRead e.th e.i n
def Env.sreg (e : Env) (n : Nat) : Word := sRead e.fm e.th e.i n

/-- The value of an A, D, IM or OPND operand. -/
def Env.reg (e : Env) : Reg → Word
  | .g n => e.g n.val
  | .t n => SMap.get 0 n.val e.cl.temps
  | .z => 0

/-- The value of a B operand (R230). -/
def Env.src (e : Env) : Src → Word
  | .reg r => e.reg r
  | .sreg n => e.sreg n.val
  | .lit w => w

/-- The value of SA (R227). -/
def Env.ssrc (e : Env) : SSrc → Word
  | .s n => e.sreg n.val
  | .lit w => w
  | .g n => e.g n.val
  | .z => 0

/-- The register after an even one (R34). -/
def regSucc : Reg → Reg
  | .g n => if h : n.val + 1 < 120 then .g ⟨n.val + 1, h⟩ else .z
  | .t n => if h : n.val + 1 < 4 then .t ⟨n.val + 1, h⟩ else .z
  | .z => .z

/-- The 64-bit value of an even pair. -/
def Env.pair (e : Env) (n : Nat) : Nat := (e.g n).toNat + 2 ^ 32 * (e.g (n + 1)).toNat

/-- Buffer a short result: a g register and a temporary hold it, z discards it (R34, R46). -/
def Clause.put (c : Clause) (d : Reg) (v : Word) : Clause :=
  match d with
  | .g n => { c with gw := (n.val, v) :: c.gw }
  | .t n => { c with temps := SMap.set 0 n.val v c.temps }
  | .z => c

def Clause.putS (c : Clause) (d : Nat) (v : Word) : Clause := { c with sw := (d, v) :: c.sw }
def Clause.orNs (c : Clause) (f : BitVec 5) : Clause := { c with nsOr := c.nsOr ||| f }
def Clause.act (c : Clause) (a : CommitAct) : Clause := { c with acts := c.acts ++ [a] }
def Clause.store (c : Clause) (x : HallW) : Clause := { c with hw := c.hw ++ [x] }

/-- A long-latency register result: a g register is written when it arrives, a temporary at once (R35), z never. -/
def Clause.putLat (c : Clause) (d : Reg) (v : Word) : Clause :=
  match d with
  | .g n => { c with lats := c.lats ++ [{ tok := none, dst := .g n.val, val := v, kind := .value }] }
  | .t n => { c with temps := SMap.set 0 n.val v c.temps }
  | .z => c

def Clause.putLatS (c : Clause) (d : Nat) (v : Word) : Clause :=
  { c with lats := c.lats ++ [{ tok := none, dst := .s d, val := v, kind := .value }] }

/-- A completion that counts 1 (R46). -/
def Clause.putDone (c : Clause) (dst : LatDst) (kind : LatKind) : Clause :=
  { c with lats := c.lats ++ [{ tok := none, dst := dst, val := 0, kind := kind }] }

/-- The token that a clause's SET field attaches to (R43, R47). -/
def setTok (h : Header) : Option (Fin 6) :=
  if 1 ≤ h.set then (if h' : h.set - 1 < 6 then some ⟨h.set - 1, h'⟩ else none) else none

/-- A result that touches the executing clause only. -/
def Env.result (e : Env) (f : Clause → Clause) : WordOut := .done (e.upd e.s f)

/-! ## Meetings and signatures of a thread whose wait ends (R27, R139, R310) -/

/-- An arrival of the thread at `blane` that nothing will take any more. -/
def Arrival.passed (blane : Nat) (a : Arrival) : Arrival := if a.blane = blane then { a with taken := true } else a

/-- Withdraw the arrivals of a thread whose meeting has not completed for it (R310); what a completed one gathered is
lost with the thread's clause. -/
def Bench.withdraw (b : Bench) (blane : Nat) : Bench :=
  { b with meets := (b.meets.filter (fun a => a.done || a.blane != blane)).map (Arrival.passed blane) }

/-- Drop the thread's signatures of rounds not yet issued. -/
def MCtx.unsign (c : MCtx) (k : Nat) : MCtx :=
  { c with rolls := c.rolls.map (fun p =>
      let sigs := p.2.sigs.filter (·.thread != k)
      (p.1, { p.2 with sigs := sigs, key := if sigs.isEmpty then none else p.2.key })) }

/-- An issued operation without a signer whose clause is discarded: no effect of that clause is visible, so that its row
takes no part (R53, log 69). -/
def MOp.without (o : MOp) (k : Nat) : MOp :=
  let pick := fun {α : Type} (l : List α) =>
    if l.length = o.rows.length then ((l.zip o.rows).filter (fun p => p.2.2.thread != k)).map (·.1) else l
  { o with rows := o.rows.filter (fun p => p.2.thread != k), a := pick o.a, words := pick o.words, raw := pick o.raw }

/-- The matrix operations among the results of some clauses, and those that the clauses have signed. -/
def opsOf (cs : List Clause) : List Nat :=
  (cs.flatMap (·.lats)).filterMap (fun l => match l.kind with | .matrix id => some id | _ => none) ++
  cs.flatMap (fun c => c.signed.map (·.2))

/-- A clause before its first word. Its rounds that have issued remain (log 69). -/
def Clause.restart (c : Clause) : Clause :=
  { c with todo := c.words, temps := [], gw := [], sw := [], hw := [], nsOr := 0, lats := [], acts := [], recs := [],
           wait := .none }

/-- Whether a clause holds in a temporary its map word of one of some SGBKT operations. -/
def Clause.keepsMap (c : Clause) (ids : List Nat) : Bool :=
  c.signed.any (fun x => ids.contains x.2 && (match c.words.lookup x.1 with
    | some (.sgbkt _ (.t _) _ _ _ _ _ _) => true
    | _ => false))

/-- The clauses that hold a map word which a signer that is let go has changed are executed again (R53, log 69). -/
def Thread.rework (th : Thread) (ids : List Nat) : Thread :=
  { th with clauses := th.clauses.map (fun c => if c.keepsMap ids then c.restart else c) }

/-- Whether a thread has such a clause. -/
def Thread.keepsMap (th : Thread) (ids : List Nat) : Bool := th.clauses.any (·.keepsMap ids)

/-- Withdraw a thread from operations that its discarded clauses signed; one that is left without a signer is gone. -/
def MCtx.withdraw (c : MCtx) (k : Nat) (ids : List Nat) : MCtx :=
  let f := fun (o : MOp) => if ids.contains o.id then o.without k else o
  let left := fun (o : MOp) => !ids.contains o.id || !o.rows.isEmpty
  { c with ops := (c.ops.map f).filter left, frozen := c.frozen.map (fun x => (x.map f).filter left) }

/-- Whether a word meets other threads (R310, R335). -/
def meets : Instr → Bool
  | .bcast _ _ _ _ _ | .xmatch _ _ _ | .rank _ _ _ | .redx _ _ _ _ | .shfl _ _ _ _ _ | .slide _ _ _ _ _ _
  | .vote _ _ _ _ | .xshfl _ _ _ _ _ | .join => true
  | _ => false

/-- The other signers of some operations whose own clauses hold a map word of them: these clauses are executed again, and
their signatures of rounds not yet issued are dropped (R53, log 69). -/
def State.rework (s : State) (k f : Nat) (ids : List Nat) : State :=
  let hit := (s.threadsOf f).filter (fun p => p.1 != k && p.2.keepsMap ids)
  if hit.isEmpty then s
  else
    ({ s with threads := s.threads.map (fun (p : Nat × Thread) =>
        (p.1, if p.1 ≠ k ∧ p.2.form = f then p.2.rework ids else p.2)) }).modForm f (fun x =>
      { x with ctxs := x.ctxs.map (fun (c : MCtx) => hit.foldl (fun (c : MCtx) (p : Nat × Thread) => c.unsign p.1) c) })

/-- End whatever some clauses of a thread hold outside their own buffers: the places in queues, the reservations, the
signatures and operations of a fenced clause, and the arrival at a meeting. -/
def State.letGo (s : State) (k : Nat) (th : Thread) (cs : List Clause) : State :=
  let s1 := if cs.any (·.fenced) then
      (({ s with chanWait := s.chanWait.filter (·.thread != k) }).modForm th.form (fun f =>
        let f := f.release k
        { f with ctxs := f.ctxs.map (fun (c : MCtx) => (c.unsign k).withdraw k (opsOf cs)) })).rework k th.form (opsOf cs)
    else s
  if cs.any (fun c => c.words.any (fun w => meets w.2)) then
    s1.modForm th.form (·.modBench th.bench (·.withdraw th.blane))
  else s1

/-! ## Memory by physical address (R99, R211) -/

/-- Whether a physical address lies in HBM (R99). -/
def inHbm (pa : Nat) : Bool := decide (pa < 0x9000000000)
def stackOf (pa : Nat) : Nat := pa / 0xC00000000

/-- The SRAM slot that an HBM atom is redirected to, if any (R211). -/
def State.slotOf (s : State) (pa : Nat) : Option Nat :=
  if inHbm pa then Tab.find? (pa % 0xC00000000 / 32) (s.stack (stackOf pa)).remap else none

def State.physByte (s : State) (pa : Nat) : Byte :=
  match s.slotOf pa with
  | some k => SMap.get Config.blankByte (k * 32 + pa % 32) (s.stack (stackOf pa)).sram
  | none => SMap.get Config.blankByte pa s.mem

def State.setPhysByte (s : State) (pa : Nat) (b : Byte) : State :=
  match s.slotOf pa with
  | some k => s.modStack (stackOf pa) (fun x => { x with sram := SMap.set Config.blankByte (k * 32 + pa % 32) b x.sram })
  | none => { s with mem := SMap.set Config.blankByte pa b s.mem }

def State.physBytes (s : State) (pa n : Nat) : List Byte := (List.range n).map (fun i => s.physByte (pa + i))
def State.setPhysBytes (s : State) (pa : Nat) : List Byte → State
  | [] => s
  | b :: r => (s.setPhysByte pa b).setPhysBytes (pa + 1) r
def State.physWord (s : State) (pa : Nat) : Nat := leNat (s.physBytes pa 4)
def State.setPhysWord (s : State) (pa v : Nat) : State := s.setPhysBytes pa (leBytes 4 v)

/-- Whether the 32-byte unit of a physical address is failed (R95, R207). -/
def State.isBad (s : State) (pa : Nat) : Bool := SMap.get false (pa / 32) s.bad

/-! ## HBM requests and tags (R204, R205, R209) -/

/-- The pseudo-channel of an offset within a stack (R204). -/
def pchOf (off : Nat) : Nat := off / 256 % 64

/-- Whether a channel is in the group that is retraining (R209). -/
def Stack.paused (k : Stack) (pch : Nat) : Bool :=
  match k.retrain with | some (g, _) => pch / 2 / 8 == g | none => false

/-- The lowest free tag of a pseudo-channel. -/
def Stack.freeTag (k : Stack) (pch : Nat) : Option Nat :=
  (List.range 32).find? (fun t => !k.tags.any (fun x => x.1 == pch && x.2.1 == t))

/-- A request reaches the port: it takes a tag, or waits in arrival order (R205). -/
def Stack.request (k : Stack) (pch atom : Nat) : Stack :=
  match k.freeTag pch with
  | some t =>
    if k.paused pch || k.waiting.any (fun x => x.1 == pch) then { k with waiting := k.waiting ++ [(pch, atom)] }
    else { k with tags := k.tags ++ [(pch, t, atom)] }
  | none => { k with waiting := k.waiting ++ [(pch, atom)] }

/-- The requests of a list of physical addresses: one for each HBM atom that they touch. -/
def State.requests (s : State) (pas : List Nat) : State :=
  ((pas.filter inHbm).map (· / 32)).dedup.foldl (fun s a =>
    s.modStack (stackOf (a * 32)) (fun k => k.request (pchOf (a * 32 % 0xC00000000)) (a % (0xC00000000 / 32)))) s

/-! ## Timetable nodes: state, failure, and the end of a launch (R157, R161, R397) -/

/-- Word k of an inserted node, as its page shows it (R395). -/
def State.nodeWord (s : State) (pa k : Nat) : Word :=
  match Tab.find? pa s.nodes with
  | some n => pageLoad s.physByte n.pte (n.va + 4 * k)
  | none => BitVec.ofNat 32 (s.physWord (pa + 4 * k))
def State.nodeState (s : State) (pa : Nat) : Nat := bitsOf (s.nodeWord pa 0).toNat 27 24
def State.nodePred (s : State) (pa : Nat) : Nat := bitsOf (s.nodeWord pa 0).toNat 15 0

/-- The storage bytes of n of its words from word k on. -/
def State.nodeSpan (s : State) (pa k n : Nat) : List Nat :=
  (List.range n).flatMap (fun i => match Tab.find? pa s.nodes with
    | some x => pageSpan s.physByte x.pte (x.va + 4 * (k + i))
    | none => (List.range 4).map (· + (pa + 4 * (k + i))))

/-- The bytes, each with its physical address, that storing words from an address of a page on writes. -/
def State.wordPuts (s : State) (pte : BitVec 64) (va : Nat) (ws : List Word) : List (Nat × Byte) :=
  ws.zipIdx.flatMap (fun x =>
    let y := pageStore s.physByte pte (va + 4 * x.2) x.1
    y.2.zipIdx.map (fun z => (y.1 + z.2, z.1)))

/-- Whether a write of bytes meets an atom with an uncorrectable error of which it writes only a part (R207). -/
def State.putsHeld (s : State) (zs : List (Nat × Byte)) : Bool :=
  zs.any (fun z => s.isBad z.1 && !(List.range 32).all (fun i => zs.any (fun y => y.1 == z.1 / 32 * 32 + i)))

/-- The kernel or the walker writes bytes: its requests go out (R205), and an atom written whole is good again; over part
of an atom with an uncorrectable error the write is not performed (R207). -/
def State.puts (s : State) (zs : List (Nat × Byte)) : State :=
  if s.putsHeld zs then s
  else
    let s1 := zs.foldl (fun s z => s.setPhysByte z.1 z.2) s
    ({ s1 with bad := zs.foldl (fun b (z : Nat × Byte) => SMap.set false (z.1 / 32) false b) s1.bad } : State).requests (zs.map (·.1))

/-- Write STATE, ERR and PRED of an inserted node's word 0. -/
def State.setNode (s : State) (pa st err pred : Nat) : State :=
  let w := BitVec.ofNat 32 (bitsOf (s.nodeWord pa 0).toNat 31 28 * 2 ^ 28 + st * 2 ^ 24 + err * 2 ^ 16 + pred)
  match Tab.find? pa s.nodes with
  | some n => s.puts (s.wordPuts n.pte n.va [w])
  | none => s

/-- Whether the walker has met an uncorrectable error in what it reads of a node: its words 0 to 7. -/
def State.nodeBad (s : State) (pa : Nat) : Bool := (s.nodeSpan pa 0 8).any s.isBad

/-- Whether the walker waits for the kernel to deal with an uncorrectable atom before it writes a node or one of its
successors (R207, R214). -/
def State.walkHeld (s : State) (pa : Nat) : Bool :=
  s.nodeBad pa || (match Tab.find? pa s.nodes with | some n => n.succ.any s.nodeBad | none => false)

/-- A node becomes ready: it receives its ready time and sequence number (R164). -/
def State.makeReady (s : State) (pa : Nat) : State :=
  let s := s.setNode pa 1 0 0
  let s := { s with
    nodes := Tab.mod pa (fun n => { n with seq := s.readySeq, readyTick := s.clock }) s.nodes }
  { s with readySeq := s.readySeq + 1 }

/-- Forget a node that has ended, the messages between its forms and its collective: software may write it again (R159). -/
def State.dropNode (s : State) (pa : Nat) : State :=
  { s with nodes := Tab.del pa s.nodes, fifos := s.fifos.filter (fun p => p.1 / 2 ^ 128 != pa),
           clusters := s.clusters.map (fun p =>
             (p.1, { p.2 with colls := p.2.colls.filter (fun c => decide (c.node ≠ some pa)) })) }

/-- Fail a node; its successors in STATE 0 fail with 0x08, in list order. `fuel` bounds the depth by the number of
inserted nodes (R161). -/
def State.failNode : Nat → State → Nat → Nat → State
  | 0, s, _, _ => s
  | fuel + 1, s, pa, err =>
    match Tab.find? pa s.nodes with
    | none => s
    | some n =>
      let s := s.setNode pa 4 err (s.nodePred pa)
      n.succ.foldl (fun s p => if s.nodeState p = 0 then s.failNode fuel p 0x08 else s) (s.dropNode pa)

/-- A node completes: STATE 3, and each successor's PRED falls (R161). -/
def State.completeNode (s : State) (pa : Nat) : State :=
  match Tab.find? pa s.nodes with
  | none => s
  | some n =>
    let s := s.setNode pa 3 0 0
    n.succ.foldl (fun s p =>
      if s.nodeState p = 0 ∧ (Tab.find? p s.nodes).isSome then
        let k := s.nodePred p - 1
        if k = 0 then s.makeReady p else s.setNode p 0 0 k
      else s) (s.dropNode pa)

/-- The queues of a cluster without a form's operations. -/
def Cluster.dropForm (c : Cluster) (f : Nat) : Cluster :=
  { c with queues := c.queues.map (fun q => (q.1, q.2.filter (·.form != f))), colls := c.colls.filter (·.form != f) }

/-- The words that a thread's allotment and granted GROWs hold. -/
def Thread.holds (th : Thread) : Nat :=
  th.w + (th.clauses.flatMap (·.acts)).foldl (fun m a => match a with | .grow x => m + x | _ => m) 0

/-- What a form holds as it stands, its hall storage with it or not. -/
def State.holdOf (s : State) (f : Nat) (fm : Form) (hall : Bool) : Hold :=
  { rcd := fm.rcd, cluster := fm.cluster, cores := fm.cores, seats := fm.benches.map (·.seat), hall := hall,
    lanes := (s.threadsOf f).map (fun p => (p.2.core, p.2.lane, p.2.holds)) }

/-- A form that frees what it holds frees it for the forms that it was pre-empted for (R165). -/
def State.freed (s : State) (f : Nat) (hall : Bool) : State :=
  match Tab.find? f s.forms with
  | none => s
  | some fm =>
    if fm.phase = .queued ∨ fm.phase = .done then s
    else
      { s with clusters := s.clusters.map (fun p => (p.1,
          if p.1 = fm.cluster then
            { p.2 with reserved := p.2.reserved.map (fun r =>
                if r.victims.contains f then { r with holds := r.holds ++ [s.holdOf f fm hall] } else r) }
          else p.2)) }

/-- Drop the reservations of some forms. -/
def State.unreserve (s : State) (which : Nat → Bool) : State :=
  { s with clusters := s.clusters.map (fun p =>
      (p.1, { p.2 with reserved := p.2.reserved.filter (fun r => !which r.form) })) }

/-- Remove a form: its threads and their waits, its copies and collectives, its slots, hall and contexts (R29, R397). -/
def State.removeForm (s : State) (f : Nat) : State :=
  let s := (s.freed f true).unreserve (· == f)
  { s with chanWait := s.chanWait.filter (fun x => x.thread / 4096 != f),
           threads := s.threads.filter (fun p => p.2.form != f), forms := Tab.del f s.forms,
           clusters := s.clusters.map (fun p => (p.1, p.2.dropForm f)) }

/-- Every form of a launch goes, and what is reserved for one that waits for admission. -/
def State.dropForms (s : State) (node : Nat) : State :=
  let fs := (s.forms.filter (fun p => p.2.node == node)).map (·.1)
  (fs.foldl State.removeForm s).unreserve (fun h => match Tab.find? node s.nodes with
    | some n => decide (n.fbase ≤ h ∧ h < n.fbase + n.forms)
    | none => false)

/-- End a launch: every form of it goes, and its node fails (R397). -/
def State.endLaunch (s : State) (node err : Nat) : State :=
  let s := s.dropForms node
  (s.failNode (s.nodes.length + 1) node err).note (.ended node err)

/-- End several nodes at once, each launch with its forms: all of them are written with ERR 0x0B, and then those of their
successors fail that are still in STATE 0 (R120, R161, R214, R397). -/
def State.endNodes (s : State) (pas : List Nat) : State :=
  let s1 := pas.foldl State.dropForms s
  let succ := pas.flatMap (fun pa => match Tab.find? pa s1.nodes with | some n => n.succ | none => [])
  let s2 := pas.foldl (fun s pa => s.setNode pa 4 0x0B (s.nodePred pa)) s1
  let s3 := pas.foldl State.dropNode s2
  let s4 := succ.foldl (fun s p => if s.nodeState p = 0 then s.failNode (s.nodes.length + 1) p 0x08 else s) s3
  pas.foldl (fun s pa => s.note (.ended pa 0x0B)) s4

/-! ## Taking a trap (R53, R169 to R174) -/

/-- The PLACE code of a class in TINFO (R171). -/
def trapPlaceOf : Class → Nat
  | .core | .matrix | .scalar => 1
  | .cluster => 2
  | .pier => 3
  | _ => 0

/-- TINFO (R171). -/
def tinfoOf (p : Pending) : Word := BitVec.ofNat 32 (p.data % 65536 * 65536 + p.place * 16 + p.word)

def Lat.isMatrix (l : Lat) : Bool := match l.kind with | .matrix _ => true | .restored => true | _ => false

/-- Whether a trap may be entered: the earlier clauses have committed and the results of R53 (R178 for causes 0x10 and
0x13) have arrived. -/
def Thread.drained (th : Thread) (p : Pending) : Bool :=
  th.clauses.isEmpty && (if p.cause = 0x10 ∨ p.cause = 0x13 then th.lats.all Lat.isMatrix else th.lats.isEmpty)

/-- Write the trap registers and set the trap state bit (R169, R171). -/
def Thread.trapRegs (th : Thread) (p : Pending) : Thread :=
  { th with trapState := true, tcause := BitVec.ofNat 32 p.cause, tpc := BitVec.ofNat 32 p.pc.toNat,
            tpchi := BitVec.ofNat 32 (p.pc.toNat / 2 ^ 32), tinfo := tinfoOf p, taddr := p.addr, pending := none,
            wait := .none, sw := false }

/-- The trap registers that a trap writes, as the kernel logs them: TCAUSE, TPC, TPCHI, TINFO, TADDR (R171, R174). -/
def Pending.regs (p : Pending) : List Word :=
  [BitVec.ofNat 32 p.cause, BitVec.ofNat 32 p.pc.toNat, BitVec.ofNat 32 (p.pc.toNat / 2 ^ 32), tinfoOf p, p.addr]

/-- Route a trap whose registers are written: to the handler, or to the control kernel (R169, R170, R174). -/
def State.routeTrap (s : State) (k : Nat) (r : SMap Word) (p : Pending) : State :=
  if p.cause = 0x10 then s.modThread k (fun th => { th with pc := BitVec.ofNat 56 (Rec.handler r) })
  else if Rec.trapUser r p.cause then
    s.modThread k (fun th => { th with pc := BitVec.ofNat 56 (Rec.trapVA r p.cause) })
  else (s.modThread k (fun th => { th with status := .kernel })).note (.trap k p.regs)

/-- Cause 0x11 parks the thread at the clause where it stops; it writes no register (R169, R184). -/
def Thread.park (th : Thread) (p : Pending) : Thread :=
  { th with status := .parked, pc := p.pc, pending := none, wait := .none }

/-- Take a trap (R169); a synchronous fault in trap state is a double trap, which ends the launch (R173). -/
def State.enterTrap (s : State) (k : Nat) (p : Pending) : State :=
  match Tab.find? k s.threads with
  | none => s
  | some th =>
    match Tab.find? th.form s.forms with
    | none => s
    | some fm =>
      if p.cause = 0x11 then (s.modThread k (·.park p)).note (.parked th.form)
      else if th.trapState && !p.async then (s.note (.trap k p.regs)).endLaunch fm.node 0x0C
      else (s.modThread k (·.trapRegs p)).routeTrap k fm.rcd p

/-- Enter the thread's waiting trap as soon as it may be (R53, R178). -/
def State.settle (s : State) (k : Nat) : State :=
  match Tab.find? k s.threads with
  | none => s
  | some th =>
    match th.pending with
    | none => s
    | some p => if th.drained p then s.enterTrap k p else s

/-- A clause faults: it and every later clause are discarded, and the trap waits its turn (R53). -/
def State.raise (s : State) (k i : Nat) (p : Pending) : State :=
  match Tab.find? k s.threads with
  | none => s
  | some th =>
    ((s.letGo k th (th.clauses.drop i)).modThread k (fun th =>
      { th with clauses := th.clauses.take i, pending := some p, wait := .none })).settle k

/-- The trap of the executing word. -/
def Env.trap (e : Env) (cause : Nat) (addr : Word) (data : Nat) : Pending :=
  { cause := cause, pc := e.cl.va, word := e.idx, place := trapPlaceOf e.cl.hdr.cls, data := data, addr := addr,
    async := false }

/-- Execute the current thread's next word with the meaning f. -/
def runWord (s : State) (f : Env → WordOut) : Out State :=
  match openWord s with
  | none => .fault .noClause
  | some e =>
    match f e with
    | .done s' => .next (e.finish s')
    | .wait w s' => .next (e.upd s' (·.waits w))
    | .fault c a d => .next (e.s.raise e.k e.i (e.trap c a d))

/-- An event: it happens when its guard holds; an event that cannot happen leaves the machine as it is. -/
def runEvent (s : State) (guard : Bool) (eff : State → State) : Out State := .next (if guard then eff s else s)

end Sys2Proof.Machine
end

