-- ==== Sys2Proof/Machine/Operands.lean ====
section
/-! DEFINITION. Operand forms: shift amounts and field selectors (R312, R382), hall addresses with the checks of R296,
the weight window (R338), channel operands (R109) and rows of the matrix array (R143). -/

namespace Sys2Proof.Machine

/-- A shift amount (R382). -/
def Env.amt (e : Env) : Amt → Nat
  | .imm n => n.val
  | .src b => (e.src b).toNat

/-- The selector of BFI and BFX: position and width, none where the field is empty (R312). -/
def selector (b : Word) : Option (Nat × Nat) :=
  let pos := b.toNat % 256
  let len := b.toNat / 256 % 256
  if len = 0 ∨ 32 ≤ pos then none else some (pos, min len (32 - pos))

/-- addr ← (a + SignExtend(OFFSET) × width) mod 2^32 (R83, R336). -/
def effAddr (a : Word) (off : BitVec 9) (width : Nat) : Word := a + off.signExtend 32 * BitVec.ofNat 32 width

def ldWidth : LdW → Nat
  | .bn => 1 | .bi => 1 | .hn => 2 | .hi => 2 | .w => 4 | .d => 8

def stWidth : StW → Nat
  | .b => 1 | .h => 2 | .w => 4 | .d => 8

/-! ## Hall accesses -/

/-- The kinds of access that R71 and R89 tell apart. -/
inductive Access where
  | load | store | atomic
  deriving DecidableEq, Repr

/-- A hall view address resolved: its segment, where that storage begins, and the offset within the view. -/
structure HallRef where
  seg : Seg
  sb : Nat
  rel : Nat
  deriving DecidableEq, Repr

/-- The first of n bytes from a that lies in no valid segment (R86); bits 31:23 must be 0 (R83). -/
def firstOutside (r : SMap Word) (a : Nat) : Nat → Option Nat
  | 0 => none
  | n + 1 => if a < 2 ^ 23 ∧ (findSeg r a).isSome then firstOutside r (a + 1) n else some a

def resolve (r : SMap Word) (a : Nat) : Option HallRef :=
  (findSeg r a).map (fun g => { seg := g, sb := storeBase r g, rel := a - g.base })

/-- A failed check: its cause and TADDR. -/
abbrev Chk (α : Type) := Except (Nat × Word) α

def failAt (c a : Nat) : Chk Unit := .error (c, BitVec.ofNat 32 a)
def chk (b : Bool) (c a : Nat) : Chk Unit := if b then .ok () else .error (c, BitVec.ofNat 32 a)

/-- Storage bytes of a form as a clause sees them, from a storage's beginning. -/
def storage (f : Form) (hw : List HallW) (sb : Nat) : Bytes := fun o => seenByte f hw (sb + o)

/-- The storage bytes that an access of n view bytes touches. -/
def HallRef.span (h : HallRef) (f : Form) (acc : Access) (n : Nat) : List Nat :=
  if expanded h.seg.fmt then
    (match acc with
     | .load => elemSpan h.seg.fmt h.seg.geom (storage f [] h.sb) (h.rel / 4)
     | _ => (List.range (elemBytes h.seg.fmt)).map (· + elemOff h.seg.fmt h.seg.geom (h.rel / 4))).map (· + h.sb)
  else (List.range n).map (· + (h.sb + h.rel))

/-- Whether the segment's format permits the access (R71). -/
def formatPermits (fmt : Nat) (acc : Access) (n : Nat) : Bool :=
  match acc with
  | .load => fmt == 0 || n == 4
  | .store => fmt == 0 || (n == 4 && !isSP24 fmt)
  | .atomic => decide (fmt ≤ 1)

/-- The view address of a storage byte of the access: itself in a raw or FP32 view, else the element's slot. -/
def HallRef.viewOf (h : HallRef) (a o : Nat) : Nat := if expanded h.seg.fmt then a else a - h.rel + (o - h.sb)

/-- Whether a store of these bytes writes the whole of a byte's word. -/
def wholeWord (span : List Nat) (o : Nat) : Bool :=
  (List.range 4).all (fun i => span.contains (o / 4 * 4 + i))

/-- The checks of R296 in their order, with the address of the first byte that fails. -/
def hallCheck (f : Form) (acc : Access) (a n : Nat) : Chk HallRef := do
  match firstOutside f.rcd a n with
  | some b => .error (0x07, BitVec.ofNat 32 b)
  | none =>
    match resolve f.rcd a with
    | none => .error (0x07, BitVec.ofNat 32 a)
    | some h => do
      chk (a % n == 0) 0x08 a
      chk (formatPermits h.seg.fmt acc n) 0x08 a
      let span := h.span f acc n
      (match span.find? (fun o => decide (acc ≠ .load) && decide (f.tag o = .object)) with
       | some o => .error (0x09, BitVec.ofNat 32 (h.viewOf a o)) | none => .ok ())
      (match span.find? (fun o => decide (f.tag o = .poisoned) && !(decide (acc = .store) && wholeWord span o)) with
       | some o => .error (0x0F, BitVec.ofNat 32 (h.viewOf a o)) | none => .ok ())
      pure h

/-- Lift a check into the execution of a word. -/
def liftChk {α : Type} : Chk α → Except WordOut α
  | .ok x => .ok x
  | .error (c, t) => .error (.fault c t 0)

/-- A condition on register or record values, cause 0x04 with no address (R396). -/
def need (b : Bool) : Except WordOut Unit := if b then .ok () else .error (.fault 0x04 0 0)
def needCause (b : Bool) (c : Nat) (a : Word) : Except WordOut Unit := if b then .ok () else .error (.fault c a 0)

/-- What a word's execution in do-notation ends in. -/
def flat : Except WordOut WordOut → WordOut
  | .ok x => x
  | .error x => x

/-- A wait in which nothing is recorded. -/
def Env.waitIn {α : Type} (e : Env) (w : Wait) : Except WordOut α := .error (.wait w e.s)
def Env.waitUnless (e : Env) (b : Bool) (w : Wait) : Except WordOut Unit := if b then .ok () else e.waitIn w

/-- Operations that start only when their clause is held no longer (R52). -/
def Env.notHeld (e : Env) : Except WordOut Unit := e.waitUnless (e.i == 0) .held

/-- A checked hall access: every other access to a reserved word waits (R297). -/
def Env.hall (e : Env) (acc : Access) (a : Word) (n : Nat) : Except WordOut HallRef := do
  let h ← liftChk (hallCheck e.fm acc a.toNat n)
  e.waitUnless ((h.span e.fm acc n).all (fun o => !e.fm.heldByOther e.k o)) .reservation
  pure h

/-- The executing clause's view of a storage. -/
def Env.bytes (e : Env) (h : HallRef) : Bytes := storage e.fm e.cl.hw h.sb

/-- n raw bytes at a resolved address, lowest address lowest. -/
def Env.rawNat (e : Env) (h : HallRef) (n : Nat) : Nat :=
  leNat ((List.range n).map (fun i => e.bytes h (h.rel + i)))

/-- The value of a load of n bytes (R71, R336): raw bits, or the expanded-view value of the element. -/
def Env.loadVal (e : Env) (h : HallRef) (n : Nat) : Nat :=
  if expanded h.seg.fmt then (elemLoad h.seg.fmt h.seg.geom (e.bytes h) (h.rel / 4)).toNat else e.rawNat h n

/-- Extend a loaded value (R336); FN 5 is split by its caller. -/
def extend (k : LdW) (v : Nat) : Word :=
  match k with
  | .bi => (BitVec.ofNat 8 v).signExtend 32
  | .hi => (BitVec.ofNat 16 v).signExtend 32
  | _ => BitVec.ofNat 32 v

/-- The buffered write of a store of n bytes of v (R388): raw bytes, or the element's storage bytes, to which the value is
converted as the store is performed (R71). -/
def Env.storeW (e : Env) (h : HallRef) (n v : Nat) : HallW :=
  if expanded h.seg.fmt then
    let x := elemStore h.seg.fmt h.seg.geom (e.bytes h) (h.rel / 4) (BitVec.ofNat 32 v)
    { addr := h.sb + x.1, bytes := x.2, tag := .full,
      conv := some { fmt := h.seg.fmt, geom := h.seg.geom, sb := h.sb, idx := h.rel / 4, val := BitVec.ofNat 32 v } }
  else { addr := h.sb + h.rel, bytes := leBytes n v, tag := .full }

/-! ## Releases (R127, R131, R372) -/

/-- A matrix operation that writes the hall (R141). -/
def storesMemory : Instr → Bool
  | .mstore _ _ _ _ => true
  | .sgbkt _ _ _ _ _ _ _ _ => true
  | .sgsum _ _ _ _ _ => true
  | .spk _ _ => true
  | .msave _ => true
  | _ => false

/-- Whether the thread's earlier stores are performed: no matrix operation that it signed or issued has memory writes
to make (R141); its other stores were performed as their clauses committed. -/
def Env.storesDone (e : Env) : Bool :=
  e.fm.ctxs.all (fun c => c.ops.all (fun o => !storesMemory o.ins ||
    !e.th.lats.any (fun l => decide (l.kind = .matrix o.id))))

/-- A release or a copy comes after the thread's earlier stores: it waits, as a FENCE does, for the matrix operations of the
thread that have still to write the hall (R127, R131, R350, R372; log 102). -/
def Env.stored (e : Env) : Except WordOut Unit := e.waitUnless e.storesDone .fence

/-! ## Objects (R91, R304, R369, R115) -/

/-- A range of a raw segment for an object of n bytes: extents, alignment, raw segment, then tags (R296, R396); of a range
that runs on into another segment the first byte past its own one fails.
`needObj` 0: no word may be an object; 1: objects are allowed. Poison is checked last. -/
def objCheck (f : Form) (a n align : Nat) (objOk : Bool) : Chk HallRef := do
  match firstOutside f.rcd a n with
  | some b => .error (0x07, BitVec.ofNat 32 b)
  | none =>
    match resolve f.rcd a with
    | none => .error (0x07, BitVec.ofNat 32 a)
    | some h => do
      chk (a % align == 0) 0x08 a
      chk (h.seg.fmt == 0) 0x08 a
      chk (decide (h.rel + n ≤ h.seg.extent)) 0x08 (h.seg.base + h.seg.extent)
      let span := (List.range n).map (· + (h.sb + h.rel))
      (match span.find? (fun o => !objOk && decide (f.tag o = .object)) with
       | some o => .error (0x09, BitVec.ofNat 32 (a + (o - (h.sb + h.rel)))) | none => .ok ())
      (match span.find? (fun o => decide (f.tag o = .poisoned)) with
       | some o => .error (0x0F, BitVec.ofNat 32 (a + (o - (h.sb + h.rel)))) | none => .ok ())
      pure h

/-- A range of n bytes in one raw segment, read as words: extents, alignment, raw, objects where they are not allowed,
poison (R296, R396). -/
def Env.rawImage (e : Env) (a : Word) (n align : Nat) (objOk : Bool) : Except WordOut (List Word) := do
  let h ← liftChk (objCheck e.fm a.toNat n align objOk)
  e.waitUnless ((List.range (n / 4)).all (fun i => !e.fm.heldByOther e.k (h.sb + h.rel + 4 * i))) .reservation
  pure ((List.range (n / 4)).map (fun i => seenWord e.fm e.cl.hw (h.sb + h.rel + 4 * i)))

/-- The storage address that an address of an object of n bytes names, with the checks of the address (R115, R306, R371):
in an extent, aligned, in a raw segment, and no poisoned word among those of the n bytes that lie in the extent (log 70).
`own`: TADDR holds the operand's address, not the poisoned word's (R115). -/
def objAddr (f : Form) (a n align : Nat) (own : Bool := false) : Chk Nat := do
  match firstOutside f.rcd a 1 with
  | some b => .error (0x07, BitVec.ofNat 32 b)
  | none =>
    match resolve f.rcd a with
    | none => .error (0x07, BitVec.ofNat 32 a)
    | some h => do
      chk (a % align == 0) 0x08 a
      chk (h.seg.fmt == 0) 0x08 a
      let o := h.sb + h.rel
      (match (List.range n).find? (fun i => decide (h.rel + i < h.seg.extent) && decide (f.tag (o + i) = .poisoned)) with
       | some i => .error (0x0F, BitVec.ofNat 32 (if own then a else a + i)) | none => .ok ())
      pure o

/-- The storage address of an object's word 0, which must be an object of the kind. -/
def objAt (f : Form) (k : ObjKind) (a n align : Nat) (own : Bool := false) : Chk Nat := do
  let o ← objAddr f a n align own
  chk (decide (Tab.find? (o / 4) f.objs = some k)) 0x04 a
  pure o

/-! ## The registers that a word writes -/

/-- The register after an even one, of a two-register result (R34). -/
def twoRegs (b : Bool) (r : Reg) : List Reg := r :: (if b then [regSucc r] else [])
def ldTwo : LdW → Bool
  | .d => true
  | _ => false
def balTwo : VoteOp → Bool
  | .bal => true
  | _ => false

/-- The registers of the window and the temporaries that a word writes; CALL's link pair is apart. -/
def destRegs : Instr → List Reg
  | .abs _ d _ | .add _ d _ _ | .and d _ _ | .bfi d _ _ | .bfx _ d _ _ | .clz d _ | .cmp _ d _ _ | .lea _ d _ _
  | .mad d _ _ | .max _ d _ _ | .min _ d _ _ | .mov d _ | .mul d _ _ | .mulh _ d _ _ | .neg _ d _ | .or d _ _
  | .popc d _ | .rot d _ _ | .sel d _ _ | .shl d _ _ | .shr _ d _ _ | .shrr d _ _ | .sub _ d _ _ | .xor d _ _
  | .pack _ d _ _ | .padd _ d _ _ | .pdot2 _ d _ _ | .psub _ d _ _ | .fadd _ d _ _ | .fsub _ d _ _ | .fmul _ d _ _
  | .ffma _ d _ _ | .fcmp _ d _ _ | .fcvt _ d _ _ | .fmax d _ _ | .fmin d _ _ | .frnd _ d _ | .bfma _ d _ _
  | .cospi d _ | .ex2 d _ | .lg2 d _ | .rcp d _ | .rsq d _ | .sinpi d _ | .sqrt d _ | .tanh d _ | .act _ d _
  | .ldfe d _ _ | .atom _ d _ _ | .cas d _ _ | .bcast d _ _ _ _ | .xmatch d _ _ | .rank d _ _ | .redx _ d _ _
  | .shfl d _ _ _ _ | .slide _ d _ _ _ _ | .xshfl d _ _ _ _ | .grow d _ | .rdsr d _ | .launch d _ _ | .ctest _ d _ _
  | .bararr _ d _ | .ringacq d _ | .ringtake d _ | .sghash _ d _ _ | .sgbkt _ d _ _ _ _ _ _ => [d]
  | .ld w d _ _ | .ldw w d _ _ => twoRegs (ldTwo w) d
  | .vote op d _ _ => twoRegs (balTwo op) d
  | .recv w d _ => twoRegs w d
  | _ => []

/-! ## The registers that a word reads -/

def srcRegs : Src → List Reg
  | .reg r => [r]
  | _ => []
def amtRegs : Amt → List Reg
  | .src b => srcRegs b
  | .imm _ => []
def ssrcRegs : SSrc → List Reg
  | .g n => [.g n]
  | _ => []
def stTwo : StW → Bool
  | .d => true
  | _ => false

/-- The registers of the window and the temporaries that a word reads, or that PLACE names; even pairs of g registers that
hold one value are apart. -/
def readRegs : Instr → List Reg
  | .abs _ _ b | .clz _ b | .mov _ b | .neg _ _ b | .popc _ b | .frnd _ _ b | .cospi _ b | .ex2 _ b | .lg2 _ b
  | .rcp _ b | .rsq _ b | .sinpi _ b | .sqrt _ b | .tanh _ b | .act _ _ b | .trap b | .sleep b | .shrink b | .brx b
  | .grow _ b | .wrsr _ b => srcRegs b
  | .add _ _ a b | .and _ a b | .bfx _ _ a b | .cmp _ _ a b | .lea _ _ a b | .max _ _ a b | .min _ _ a b
  | .mul _ a b | .mulh _ _ a b | .or _ a b | .sub _ _ a b | .xor _ a b | .pack _ _ a b | .padd _ _ a b
  | .psub _ _ a b | .fadd _ _ a b | .fsub _ _ a b | .fmul _ _ a b | .fcmp _ _ a b | .fcvt _ _ a b | .fmax _ a b
  | .fmin _ a b | .atom _ _ a b | .cwait _ a b | .ctest _ _ a b | .barinit a b | .barwait _ a b | .ringinit a b
  | .ringpub a b | .ringdone a b | .mma _ _ _ _ _ a b | .mmconv _ _ _ _ _ a b _ _ | .mstore _ _ a b | .spk a b
  | .sghash _ _ a b => [a] ++ srcRegs b
  | .bfi d a b | .mad d a b | .sel d a b | .pdot2 _ d a b | .ffma _ d a b | .bfma _ d a b | .cas d a b =>
    [d] ++ [a] ++ srcRegs b
  | .rot _ a n | .shl _ a n | .shr _ _ a n | .shrr _ a n => [a] ++ amtRegs n
  | .addScalar _ _ a | .andScalar _ a | .bfiScalar _ a | .bfxScalar _ _ a | .clzScalar _ a | .cmpScalar _ _ a
  | .leaScalar _ _ a | .maxScalar _ _ a | .minScalar _ _ a | .movScalar _ a | .mulScalar _ a | .mulhScalar _ _ a
  | .orScalar _ a | .popcScalar _ a | .rotScalar _ a | .selScalar _ a | .shlScalar _ a | .shrScalar _ _ a
  | .subScalar _ _ a | .xorScalar _ a | .ldScalar _ _ a | .stScalar _ _ a => ssrcRegs a
  | .actld _ a | .ld _ _ a _ | .ldfe _ a _ | .ldw _ _ a _ | .brz a _ | .brnz a _ | .barfree a | .ringacq _ a
  | .ringtake _ a | .savep _ a | .loadp _ a | .cpy _ a _ | .cred _ a _ _ | .cgath _ a _ _ | .mload _ _ a | .msave a
  | .mrestore a | .rolldecl _ a _ | .recv _ _ a | .bararr _ _ a | .xmatch _ a _ | .rank _ a _ | .redx _ _ a _
  | .vote _ _ a _ => [a]
  | .st w d a _ => twoRegs (stTwo w) d ++ [a]
  | .stfe d a _ => [d] ++ [a]
  | .bcast _ a b _ f | .shfl _ a b _ f | .slide _ _ a b _ f | .xshfl _ a b _ f => [a] ++ srcRegs b ++ [f]
  | .place g _ => [.g g]
  | .send w a b => [a] ++ (match b with | .reg r => twoRegs w r | _ => [])
  | .launch _ a _ => [a]
  | .bind a b g _ _ => [a] ++ srcRegs b ++ [g]
  | .cpyg _ _ a _ | .cpys _ _ a _ => [a]
  | .qfence _ _ => []
  | .sgbkt _ _ _ a b _ _ _ => [a] ++ srcRegs b
  | .sgsum _ _ a _ gm => [a] ++ [gm]
  | _ => []

/-- Whether a word only computes a register from registers: it waits for nothing, faults in no case and records nothing. -/
def computes : Instr → Bool
  | .abs _ _ _ | .add _ _ _ _ | .and _ _ _ | .bfi _ _ _ | .bfx _ _ _ _ | .clz _ _ | .cmp _ _ _ _ | .lea _ _ _ _
  | .mad _ _ _ | .max _ _ _ _ | .min _ _ _ _ | .mov _ _ | .mul _ _ _ | .mulh _ _ _ _ | .neg _ _ _ | .or _ _ _
  | .popc _ _ | .rot _ _ _ | .sel _ _ _ | .shl _ _ _ | .shr _ _ _ _ | .shrr _ _ _ | .sub _ _ _ _ | .xor _ _ _
  | .padd _ _ _ _ | .psub _ _ _ _ => true
  | _ => false

/-- The temporaries among some registers. -/
def tempsOf (rs : List Reg) : List Reg := rs.filter (fun r => match r with | .t _ => true | _ => false)

/-- Whether word i depends on no word of a list, and none of them on it: neither writes a temporary that the other names. -/
def apart (i : Instr) (ws : List Instr) : Bool :=
  ws.all (fun w => (tempsOf (destRegs w)).all (fun r => !(readRegs i ++ destRegs i).contains r) &&
    (tempsOf (destRegs i)).all (fun r => !(readRegs w).contains r))

/-! ## Reservations (R297) -/

/-- The storage words that a check of n bytes found. -/
def Chk.words (n : Nat) (c : Chk HallRef) : List Nat :=
  match c with
  | .ok h => wordsOfSpan (h.sb + h.rel) n
  | .error _ => []

/-- The hall words that one of the clause's remaining words reserves, checked under R296. A word whose check fails reserves
nothing, and faults when it executes. -/
def Env.resvOf (e : Env) : Instr → List Nat
  | .atom _ _ a _ | .cas _ a _ => (hallCheck e.fm .atomic (e.reg a).toNat 4).words 4
  | .barinit a _ => (objCheck e.fm (e.reg a).toNat 8 8 false).words 8
  | .bararr false _ a | .barfree a => (objCheck e.fm (e.reg a).toNat 8 8 true).words 8
  | _ => []

/-- The register that names the words which a word reserves. -/
def resvReg : Instr → Option Reg
  | .atom _ _ a _ | .cas _ a _ | .barinit a _ | .bararr false _ a | .barfree a => some a
  | _ => none

/-- Whether a register holds now what a later word of the clause will read in it: not so a temporary that a word before
that one writes (log 12). -/
def regFixed (before : List Instr) (r : Reg) : Bool :=
  match r with | .t _ => !(before.flatMap destRegs).contains r | _ => true

/-- The hall words that the words of a clause reserve from its next word's successor on, where their addresses are fixed
already; `before` are the words executed until then. -/
def Env.resvLater (e : Env) : List Instr → List Instr → List Nat
  | _, [] => []
  | before, i :: r =>
    (match resvReg i with | some a => if regFixed before a then e.resvOf i else [] | none => []) ++
    e.resvLater (before ++ [i]) r

/-- How many of the words before the last one of a list whose address is not fixed yet come first, up to a word that computes
a temporary and depends on none of them; `before` are those already passed. -/
def hoistAt : List Instr → List Instr → Option Nat
  | _, [] => none
  | before, i :: r =>
    if computes i && apart i before && !(tempsOf (destRegs i)).isEmpty &&
        r.any (fun w => match resvReg w with | some a => (destRegs i).contains a || !regFixed r a | none => false) then
      some before.length
    else hoistAt (before ++ [i]) r

/-- A list with its entry at n put first. -/
def pull {α : Type} (n : Nat) (l : List α) : List α := (l.drop n).take 1 ++ l.take n ++ l.drop (n + 1)

/-- The words of the clause in the order in which they execute from here, where one goes before the next reserving word: it
computes a temporary that the address of a later reserving word is made of (R297; log 12). -/
def Env.hoist (e : Env) : Option (List (Nat × Instr)) :=
  let is := e.cl.todo.map (·.2)
  (hoistAt (is.take 1) is.tail).map (fun n => pull n e.cl.todo)

/-- Reserve the given words, together with every word that later words of the clause reserve; wait while another
clause holds one, or a clause of an earlier dispatch waits for one that the clause does not hold yet (R297). -/
def Env.reserve (e : Env) (ws : List Nat) : Except WordOut State :=
  match e.hoist with
  | some todo => .error (.wait .none (e.upd e.s (fun c => { c with todo := todo })))
  | none =>
  let is := e.cl.todo.map (·.2)
  let all := ws ++ e.resvLater (is.take 1) is.tail
  let more := all.filter (fun w => !e.fm.resv.contains (w, e.k))
  if all.all (fun w => !e.fm.heldByOther e.k (4 * w)) && !e.fm.olderReserve e.k e.cl.seq more then
    .ok (e.s.modForm e.th.form (fun f =>
      { f.leave e.k .reserve with resv := f.resv ++ more.dedup.map (fun w => (w, e.k)) }))
  else .error (.wait .reservation (e.s.modForm e.th.form (fun f => f.enqueue e.k .reserve all e.cl.seq)))

/-! ## Channels (R109) -/

/-- The checks of a channel operand: number, V, KIND and permission; cause 0x0A. -/
def capCheck (r : SMap Word) (n : Nat) (ok : BitVec 64 → Bool) : Except WordOut (BitVec 64) :=
  if n < 64 ∧ capValid (Rec.cap r n) ∧ ok (Rec.cap r n) then .ok (Rec.cap r n) else .error (.fault 0x0A 0 0)

/-! ## Rows (R143) -/

/-- Whether the segment of address a is one of the row's; its 64 elements as given. -/
def rowOf {α : Type} (f : Form) (hw : List HallW) (get : Nat → Nat → Bytes → Nat → α) (h : HallRef) : List α :=
  (List.range 64).map (fun k => get h.seg.fmt h.seg.geom (storage f hw h.sb) (h.rel / 4 + k))

/-- The writes of a row of FP32 words at a resolved row (R143): ST.w of each element. -/
def rowWrites (f : Form) (h : HallRef) (ws : List Word) : List HallW :=
  (List.range 64).map (fun k =>
    let v := ws.getD k 0
    if expanded h.seg.fmt then
      let x := elemStore h.seg.fmt h.seg.geom (storage f [] h.sb) (h.rel / 4 + k)
        (if h.seg.fmt = 5 ∨ h.seg.fmt = 6 then
          BitVec.ofInt 32 (satInt .rn 32 (valOfFP32 v)) else v)
      { addr := h.sb + x.1, bytes := x.2, tag := .full }
    else { addr := h.sb + h.rel + 4 * k, bytes := leBytes 4 v.toNat, tag := .full })

/-! ## The weight window (R95, R338) -/

/-- The physical address of the weight store's byte o of die d (R99). -/
def weightPa (d o : Nat) : Nat := 2 ^ 51 + d * 0x20000000 + o

/-- The storage of a form's weight window. -/
def windowBytes (s : State) (f : Form) : Bytes :=
  fun o => s.physByte (weightPa (f.cluster / 16) (Rec.wbase f.rcd + o))

def windowExtent (f : Form) : Nat := viewExtent (Rec.wformat f.rcd) (Rec.wgeom f.rcd) (Rec.wsize f.rcd)

end Sys2Proof.Machine
end

