-- ==== Sys2Proof/Machine/Flags.lean ====
section
/-! DEFINITION. The status flags of NS: what the trapping and recording opcodes do with the exceptions of R59 (R58,
R61, R64, R357). -/

namespace Sys2Proof.Machine

/-- The exceptions that a .t opcode traps on: NV and OF (R59). -/
def traps (f : BitVec 5) : Bool := f &&& (fNV ||| fOF) != 0

/-- The end of an FADD, FSUB, FMUL or FFMA: FN 0 to 3 write; .t faults 0x01 on NV or OF; .x records (R329). -/
def Env.fpEnd (e : Env) (m : FMode) (d : Reg) (r : Word × BitVec 5) : WordOut :=
  match m with
  | .t => if traps r.2 then .fault 0x01 0 0 else e.result (·.put d r.1)
  | .x => e.result (fun c => (c.put d r.1).orNs r.2)
  | _ => e.result (·.put d r.1)

/-- The end of PDOT2 and PACK: .x records SAT when a saturation changed the result (R357). -/
def Env.satEnd (e : Env) (x : Bool) (d : Reg) (v : Word) (sat : Bool) : WordOut :=
  e.result (fun c => if x && sat then (c.put d v).orNs fSAT else c.put d v)

/-- SAT of an integer and its saturation. -/
def satChanged (x y : Int) : Bool := x != y

end Sys2Proof.Machine
end

