-- ==== Sys2Proof/Machine/Alu.lean ====
section
/-! DEFINITION. Integer, bit, move and packed instructions, in formats A and SS (R298 to R302, R312, R314, R322, R323,
R339, R341, R343, R347, R351, R352, R354, R356 to R358, R374, R376, R382, R383, R389, R393; R234). -/

namespace Sys2Proof.Machine

/-! ## Moulds -/

/-- d ← f(b). -/
def unary (d : Reg) (b : Src) (f : Word → Word) (s : State) : Out State :=
  runWord s (fun e => e.result (·.put d (f (e.src b))))

/-- d ← f(a, b). -/
def binary (d a : Reg) (b : Src) (f : Word → Word → Word) (s : State) : Out State :=
  runWord s (fun e => e.result (·.put d (f (e.reg a) (e.src b))))

/-- d ← f(d, a, b): the destructive instructions of R231. -/
def ternary (d a : Reg) (b : Src) (f : Word → Word → Word → Word) (s : State) : Out State :=
  runWord s (fun e => e.result (·.put d (f (e.reg d) (e.reg a) (e.src b))))

/-- d ← f(a, n) with a shift amount n. -/
def shift (d a : Reg) (n : Amt) (f : Word → Nat → Word) (s : State) : Out State :=
  runWord s (fun e => e.result (·.put d (f (e.reg a) (e.amt n))))

/-- SD ← f(SD, SA) (R234). -/
def scalar (d : Fin 384) (a : SSrc) (f : Word → Word → Word) (s : State) : Out State :=
  runWord s (fun e => e.result (·.putS d.val (f (e.sreg d.val) (e.ssrc a))))

/-! ## Results -/

def boolWord (b : Bool) : Word := if b then 1 else 0

/-- R298. -/
def absVal (m : Sat) (b : Word) : Word :=
  if 0 ≤ b.toInt then b else match m with | .wrap => 0 - b | .sat => BitVec.ofInt 32 (sat32 (-b.toInt))

/-- R354. -/
def negVal (m : Sat) (b : Word) : Word :=
  match m with | .wrap => 0 - b | .sat => BitVec.ofInt 32 (sat32 (-b.toInt))

/-- R301. -/
def addVal (m : SatMode) (a b : Word) : Word :=
  match m with
  | .wrap => a + b
  | .satI => BitVec.ofInt 32 (sat32 (a.toInt + b.toInt))
  | .satN => BitVec.ofInt 32 (satN32 ((a.toNat : Int) + (b.toNat : Int)))

/-- R389. -/
def subVal (m : SatMode) (a b : Word) : Word :=
  match m with
  | .wrap => a - b
  | .satI => BitVec.ofInt 32 (sat32 (a.toInt - b.toInt))
  | .satN => BitVec.ofInt 32 (satN32 ((a.toNat : Int) - (b.toNat : Int)))

/-- Bits pos .. pos + n − 1 as a mask (R312). -/
def fieldMask (pos n : Nat) : Word := BitVec.ofNat 32 ((2 ^ n - 1) * 2 ^ pos)

/-- R312. -/
def bfiVal (d a b : Word) : Word :=
  match selector b with
  | none => d
  | some (pos, n) => (d &&& ~~~ (fieldMask pos n)) ||| ((a <<< pos) &&& fieldMask pos n)

/-- R314. -/
def bfxVal (m : Sign) (a b : Word) : Word :=
  match selector b with
  | none => 0
  | some (pos, n) =>
    let f := a.toNat / 2 ^ pos % 2 ^ n
    match m with
    | .n => BitVec.ofNat 32 f
    | .i => if f / 2 ^ (n - 1) = 1 then BitVec.ofInt 32 ((f : Int) - 2 ^ n) else BitVec.ofNat 32 f

/-- R322. -/
def clzVal (b : Word) : Word := if b = 0 then 32 else BitVec.ofNat 32 (31 - b.toNat.log2)

/-- R358. -/
def popcVal (b : Word) : Word := BitVec.ofNat 32 (((List.range 32).filter (fun i => b.toNat / 2 ^ i % 2 == 1)).length)

/-- R323. -/
def cmpVal (r : CmpRel) (a b : Word) : Word :=
  boolWord (match r with
    | .eq => a == b
    | .ne => a != b
    | .ltI => decide (a.toInt < b.toInt)
    | .leI => decide (a.toInt ≤ b.toInt)
    | .ltN => decide (a.toNat < b.toNat)
    | .leN => decide (a.toNat ≤ b.toNat))

/-- R343. -/
def maxVal (m : Sign) (a b : Word) : Word :=
  match m with
  | .i => if a.toInt < b.toInt then b else a
  | .n => if a.toNat < b.toNat then b else a

def minVal (m : Sign) (a b : Word) : Word :=
  match m with
  | .i => if b.toInt < a.toInt then b else a
  | .n => if b.toNat < a.toNat then b else a

/-- R352. -/
def mulhVal (m : Sign) (a b : Word) : Word :=
  match m with
  | .i => BitVec.ofInt 32 (a.toInt * b.toInt / 2 ^ 32)
  | .n => BitVec.ofNat 32 (a.toNat * b.toNat / 2 ^ 32)

/-- R374. -/
def rotVal (a : Word) (n : Nat) : Word := a.rotateLeft (n % 32)

/-- R376. -/
def selVal (d a b : Word) : Word := if d ≠ 0 then a else b

/-- R382. -/
def shlVal (a : Word) (n : Nat) : Word := if 32 ≤ n then 0 else a <<< n
def shrVal (m : Sign) (a : Word) (n : Nat) : Word :=
  match m with
  | .n => if 32 ≤ n then 0 else a >>> n
  | .i => if 32 ≤ n then (if a.toInt < 0 then 0xFFFFFFFF else 0) else BitVec.ofInt 32 (a.toInt / 2 ^ n)

/-- R383. -/
def shrrVal (a : Word) (n : Nat) : Word :=
  if n = 0 then a else if 32 ≤ n then 0 else BitVec.ofInt 32 ((a.toInt + 2 ^ (n - 1)) / 2 ^ n)

/-- The low and high INT16 elements of a packed word (R64). -/
def lo16 (w : Word) : Int := (w.extractLsb' 0 16).toInt
def hi16 (w : Word) : Int := (w.extractLsb' 16 16).toInt
def pack16 (lo hi : Int) : Word := BitVec.ofInt 16 hi ++ BitVec.ofInt 16 lo

/-- Wrap or saturate one packed element (R357). -/
def elem16 (m : Sat) (x : Int) : Int := match m with | .wrap => x | .sat => sat16 x

def paddVal (m : Sat) (a b : Word) : Word := pack16 (elem16 m (lo16 a + lo16 b)) (elem16 m (hi16 a + hi16 b))
def psubVal (m : Sat) (a b : Word) : Word := pack16 (elem16 m (lo16 a - lo16 b)) (elem16 m (hi16 a - hi16 b))
/-- The exact sum of PDOT2. -/
def pdot2Sum (d a b : Word) : Int := d.toInt + lo16 a * lo16 b + hi16 a * hi16 b
def packVal (a b : Word) : Word := pack16 (sat16 a.toInt) (sat16 b.toInt)
def packSat (a b : Word) : Bool := satChanged a.toInt (sat16 a.toInt) || satChanged b.toInt (sat16 b.toInt)

/-! ## Meanings -/

/-- ABS (R298). -/
def execAbs (m : Sat) (d : Reg) (b : Src) (s : State) : Out State := unary d b (absVal m) s
/-- ADD (R301). -/
def execAdd (m : SatMode) (d a : Reg) (b : Src) (s : State) : Out State := binary d a b (addVal m) s
/-- ADD in SS (R301, R234). -/
def execAddScalar (m : SatMode) (d : Fin 384) (a : SSrc) (s : State) : Out State := scalar d a (addVal m) s
/-- AND (R302). -/
def execAnd (d a : Reg) (b : Src) (s : State) : Out State := binary d a b (· &&& ·) s
/-- AND in SS. -/
def execAndScalar (d : Fin 384) (a : SSrc) (s : State) : Out State := scalar d a (· &&& ·) s
/-- BFI (R312), destructive. -/
def execBfi (d a : Reg) (b : Src) (s : State) : Out State := ternary d a b bfiVal s
/-- BFI in SS: the field of SD that SA selects (R234). -/
def execBfiScalar (d : Fin 384) (a : SSrc) (s : State) : Out State := scalar d a (fun x y => bfiVal x x y) s
/-- BFX (R314). -/
def execBfx (m : Sign) (d a : Reg) (b : Src) (s : State) : Out State := binary d a b (bfxVal m) s
/-- BFX in SS. -/
def execBfxScalar (m : Sign) (d : Fin 384) (a : SSrc) (s : State) : Out State := scalar d a (bfxVal m) s
/-- CLZ (R322). -/
def execClz (d : Reg) (b : Src) (s : State) : Out State := unary d b clzVal s
/-- CLZ in SS reads SA only. -/
def execClzScalar (d : Fin 384) (a : SSrc) (s : State) : Out State := scalar d a (fun _ y => clzVal y) s
/-- CMP (R323). -/
def execCmp (r : CmpRel) (d a : Reg) (b : Src) (s : State) : Out State := binary d a b (cmpVal r) s
/-- CMP in SS. -/
def execCmpScalar (r : CmpRel) (d : Fin 384) (a : SSrc) (s : State) : Out State := scalar d a (cmpVal r) s
/-- LEA (R339). -/
def execLea (n : Fin 5) (d a : Reg) (b : Src) (s : State) : Out State := binary d a b (fun x y => x + (y <<< n.val)) s
/-- LEA in SS. -/
def execLeaScalar (n : Fin 5) (d : Fin 384) (a : SSrc) (s : State) : Out State :=
  scalar d a (fun x y => x + (y <<< n.val)) s
/-- MAD (R341), destructive. -/
def execMad (d a : Reg) (b : Src) (s : State) : Out State := ternary d a b (fun z x y => z + x * y) s
/-- MAX (R343). -/
def execMax (m : Sign) (d a : Reg) (b : Src) (s : State) : Out State := binary d a b (maxVal m) s
/-- MAX in SS. -/
def execMaxScalar (m : Sign) (d : Fin 384) (a : SSrc) (s : State) : Out State := scalar d a (maxVal m) s
/-- MIN (R343). -/
def execMin (m : Sign) (d a : Reg) (b : Src) (s : State) : Out State := binary d a b (minVal m) s
/-- MIN in SS. -/
def execMinScalar (m : Sign) (d : Fin 384) (a : SSrc) (s : State) : Out State := scalar d a (minVal m) s
/-- MOV (R347). -/
def execMov (d : Reg) (b : Src) (s : State) : Out State := unary d b id s
/-- MOV in SS. -/
def execMovScalar (d : Fin 384) (a : SSrc) (s : State) : Out State := scalar d a (fun _ y => y) s
/-- MUL (R351). -/
def execMul (d a : Reg) (b : Src) (s : State) : Out State := binary d a b (· * ·) s
/-- MUL in SS. -/
def execMulScalar (d : Fin 384) (a : SSrc) (s : State) : Out State := scalar d a (· * ·) s
/-- MULH (R352). -/
def execMulh (m : Sign) (d a : Reg) (b : Src) (s : State) : Out State := binary d a b (mulhVal m) s
/-- MULH in SS. -/
def execMulhScalar (m : Sign) (d : Fin 384) (a : SSrc) (s : State) : Out State := scalar d a (mulhVal m) s
/-- NEG (R354). -/
def execNeg (m : Sat) (d : Reg) (b : Src) (s : State) : Out State := unary d b (negVal m) s
/-- OR (R356). -/
def execOr (d a : Reg) (b : Src) (s : State) : Out State := binary d a b (· ||| ·) s
/-- OR in SS. -/
def execOrScalar (d : Fin 384) (a : SSrc) (s : State) : Out State := scalar d a (· ||| ·) s
/-- POPC (R358). -/
def execPopc (d : Reg) (b : Src) (s : State) : Out State := unary d b popcVal s
/-- POPC in SS. -/
def execPopcScalar (d : Fin 384) (a : SSrc) (s : State) : Out State := scalar d a (fun _ y => popcVal y) s
/-- ROT (R374). -/
def execRot (d a : Reg) (n : Amt) (s : State) : Out State := shift d a n rotVal s
/-- ROT in SS. -/
def execRotScalar (d : Fin 384) (a : SSrc) (s : State) : Out State := scalar d a (fun x y => rotVal x y.toNat) s
/-- SEL (R376), destructive. -/
def execSel (d a : Reg) (b : Src) (s : State) : Out State := ternary d a b selVal s
/-- SEL in SS: SD where SD ≠ 0, else SA (R234). -/
def execSelScalar (d : Fin 384) (a : SSrc) (s : State) : Out State := scalar d a (fun x y => selVal x x y) s
/-- SHL (R382). -/
def execShl (d a : Reg) (n : Amt) (s : State) : Out State := shift d a n shlVal s
/-- SHL in SS. -/
def execShlScalar (d : Fin 384) (a : SSrc) (s : State) : Out State := scalar d a (fun x y => shlVal x y.toNat) s
/-- SHR (R382). -/
def execShr (m : Sign) (d a : Reg) (n : Amt) (s : State) : Out State := shift d a n (shrVal m) s
/-- SHR in SS. -/
def execShrScalar (m : Sign) (d : Fin 384) (a : SSrc) (s : State) : Out State :=
  scalar d a (fun x y => shrVal m x y.toNat) s
/-- SHRR (R383). -/
def execShrr (d a : Reg) (n : Amt) (s : State) : Out State := shift d a n shrrVal s
/-- SUB (R389). -/
def execSub (m : SatMode) (d a : Reg) (b : Src) (s : State) : Out State := binary d a b (subVal m) s
/-- SUB in SS. -/
def execSubScalar (m : SatMode) (d : Fin 384) (a : SSrc) (s : State) : Out State := scalar d a (subVal m) s
/-- XOR (R393). -/
def execXor (d a : Reg) (b : Src) (s : State) : Out State := binary d a b (· ^^^ ·) s
/-- XOR in SS. -/
def execXorScalar (d : Fin 384) (a : SSrc) (s : State) : Out State := scalar d a (· ^^^ ·) s
/-- PACK (R357). -/
def execPack (x : Bool) (d a : Reg) (b : Src) (s : State) : Out State :=
  runWord s (fun e => e.satEnd x d (packVal (e.reg a) (e.src b)) (packSat (e.reg a) (e.src b)))
/-- PADD (R357). -/
def execPadd (m : Sat) (d a : Reg) (b : Src) (s : State) : Out State := binary d a b (paddVal m) s
/-- PSUB (R357). -/
def execPsub (m : Sat) (d a : Reg) (b : Src) (s : State) : Out State := binary d a b (psubVal m) s
/-- PDOT2 (R357), destructive. -/
def execPdot2 (x : Bool) (d a : Reg) (b : Src) (s : State) : Out State :=
  runWord s (fun e =>
    let t := pdot2Sum (e.reg d) (e.reg a) (e.src b)
    e.satEnd x d (BitVec.ofInt 32 (sat32 t)) (satChanged t (sat32 t)))

end Sys2Proof.Machine
end

