-- ==== Sys2Proof/Machine/Cross.lean ====
section
/-! DEFINITION. Cross-lane instructions and the meetings of R310, which JOIN shares (R335). -/

namespace Sys2Proof.Machine

/-! ## Meetings -/

/-- The key of the thread at bench-lane `m` of bench `b`, if one was launched there (R15). -/
def Form.laneThread (f : Form) (fid b m : Nat) : Option Nat :=
  let tid := b * Rec.width f.rcd + m
  if m < Rec.width f.rcd ∧ tid < Rec.threads f.rcd then some (threadKey fid tid) else none

/-- Whether the member at bench-lane `m` is live: launched and not exited. -/
def State.laneLive (s : State) (fid : Nat) (f : Form) (b m : Nat) : Bool :=
  match f.laneThread fid b m with
  | none => false
  | some k => match Tab.find? k s.threads with
    | none => false
    | some th => decide (th.status ≠ .exited)

/-- The arrival of bench-lane `m` at the meeting of `x`. -/
def arrivalOf (meets : List Arrival) (x : Arrival) (m : Nat) : Option Arrival :=
  meets.find? (fun y => y.word == x.word && y.ord == x.ord && y.blane == m)

/-- The members that the arrival waits for: those of its mask, but for the excluded ones. -/
def Arrival.members (x : Arrival) : List Nat :=
  (List.range 64).filter (fun m => x.mask.getLsbD m && !x.excl.contains m)

/-- Whether every live member has arrived or exited (R310, R335). -/
def State.meetingFull (s : State) (fid : Nat) (f : Form) (b : Nat) (meets : List Arrival) (x : Arrival) : Bool :=
  x.members.all (fun m => (arrivalOf meets x m).isSome || !s.laneLive fid f b m)

/-- The participants of an arrival's meeting and the values that they presented, in ascending BLANE. -/
def participants (meets : List Arrival) (x : Arrival) : List (Nat × Word) :=
  x.members.filterMap (fun m => (arrivalOf meets x m).map (fun y => (m, y.a)))

/-- The key of a word: its clause's address and its index. -/
def keyOfWord (va : VAddr) (idx : Nat) : Nat := va.toNat * 16 + idx
/-- The key of a clause's next word. -/
def Clause.key (c : Clause) : Option Nat := c.todo.head?.map (fun p => keyOfWord c.va p.1)

/-- Complete every meeting of a bench that is full: each execution counts, its members keep what they gathered, and
the waits end (R310). -/
def State.meet (s : State) (fid b : Nat) : State :=
  match Tab.find? fid s.forms with
  | none => s
  | some f =>
    let old := (f.bench b).meets
    let full := fun (x : Arrival) => !x.done && s.meetingFull fid f b old x
    let s1 := s.modForm fid (fun f => f.modBench b (fun bn =>
      { bn with meets := old.map (fun x => if full x then { x with done := true, got := participants old x } else x) }))
    (old.filter full).foldl (fun s x =>
      match f.laneThread fid b x.blane with
      | none => s
      | some k => s.modThread k (fun th =>
          { th with
            met := SMap.set 0 x.word (x.ord + 1) th.met
            clauses := th.clauses.map (fun c => if c.key = some x.word then c.waits .none else c) })) s1

/-- The key of the executing word. -/
def Env.wordKey (e : Env) : Nat := keyOfWord e.cl.va e.idx

/-- The thread's arrival at this word whose meeting is complete and not yet taken. -/
def Env.ready (e : Env) (f : Form) : Option Arrival :=
  (f.bench e.th.bench).meets.find? (fun x => x.word == e.wordKey && x.blane == e.th.blane && x.done && !x.taken)

/-- Record the arrival of the executing thread. Members that completed the same execution with a value of this thread
that was withdrawn are not awaited and supply fill (R310). -/
def Env.arrive (e : Env) (mask : BitVec 64) (a : Word) : State :=
  let n := SMap.get 0 e.wordKey e.th.met
  e.s.modForm e.th.form (fun f => f.modBench e.th.bench (fun bn =>
    let excl := (bn.meets.filter (fun y => y.word == e.wordKey && y.ord == n && y.done && y.blane != e.th.blane
      && y.mask.getLsbD e.th.blane)).map (·.blane)
    { bn with meets := bn.meets ++ [{ word := e.wordKey, ord := n, blane := e.th.blane, a := a, mask := mask,
                                      excl := excl, done := false, taken := false, got := [] }] }))

/-- Take the values that a completed meeting gathered. -/
def Env.take (e : Env) (s : State) (x : Arrival) : State :=
  s.modForm e.th.form (fun f => f.modBench e.th.bench (fun bn =>
    { bn with meets := bn.meets.map (fun y => if y = x then { y with taken := true, got := [] } else y) }))

/-- Meet: arrive once, wait until the meeting is complete for the thread, and take what it gathered. -/
def Env.meeting (e : Env) (w : Wait) (mask : BitVec 64) (a : Word) : Except WordOut (State × List (Nat × Word)) :=
  match e.ready e.fm with
  | some x => .ok (e.take e.s x, x.got)
  | none =>
    let here := (e.fm.bench e.th.bench).meets.any
      (fun x => x.word == e.wordKey && x.blane == e.th.blane && !x.done)
    if here then e.waitIn w
    else
      let s := (e.arrive mask a).meet e.th.form e.th.bench
      match (Tab.find? e.th.form s.forms).bind e.ready with
      | some x => .ok (e.take s x, x.got)
      | none => .error (.wait w s)

/-! ## Masks -/

/-- The s register of an instruction's mask. -/
def maskReg : Instr → Option Nat
  | .bcast _ _ _ m _ => some m.val
  | .xmatch _ _ m => some m.val
  | .rank _ _ m => some m.val
  | .redx _ _ _ m => some m.val
  | .shfl _ _ _ m _ => some m.val
  | .slide _ _ _ _ m _ => some m.val
  | .vote _ _ _ m => some m.val
  | .xshfl _ _ _ m _ => some m.val
  | _ => none

/-- The s registers that the masks of a clause name, with their values for the clause at position i (R310: masks are
read at dispatch). -/
def maskValues (fm : Form) (th : Thread) (i : Nat) (todo : List (Nat × Instr)) : List (Nat × Word) :=
  (todo.filterMap (fun p => maskReg p.2)).flatMap
    (fun n => [(n, sRead fm th i n), (n + 1, sRead fm th i (n + 1))])

/-- Keep the masks of the executing clause as they are now, if its dispatch had to leave them unread. -/
def Env.keepMasks (e : Env) : Env :=
  if e.cl.masks.isEmpty then
    let ms := maskValues e.fm e.th e.i e.cl.todo
    { e with s := e.upd e.s (fun c => { c with masks := ms }), cl := { e.cl with masks := ms } }
  else e

def Env.maskWord (e : Env) (n : Nat) : Word := (e.cl.masks.lookup n).getD 0

/-- The 64-bit mask in sM and sM+1 (R310). -/
def Env.mask (e : Env) (m : Fin 384) : BitVec 64 :=
  BitVec.ofNat 64 ((e.maskWord m.val).toNat + 2 ^ 32 * (e.maskWord (m.val + 1)).toNat)

/-- Whether a mask is one that the thread may use: no bit at or above BWIDTH, and its own bit set (R310). -/
def maskOk (w blane : Nat) (m : BitVec 64) : Bool := decide (m.toNat < 2 ^ w) && m.getLsbD blane

/-- The mould of the cross-lane instructions: d from the meeting's values. `f` takes the environment and the
participants. -/
def cross (a : Reg) (m : Fin 384) (f : Env → List (Nat × Word) → Clause → Clause) (s : State) : Out State :=
  runWord s (fun e => flat do
    let e := e.keepMasks
    let mask := e.mask m
    needCause (maskOk (Rec.width e.fm.rcd) e.th.blane mask) 0x15 0
    let (s', got) ← e.meeting .cross mask (e.reg a)
    pure (.done (e.upd s' (f e got))))

/-! ## Results -/

/-- Src(i): the a of bench-lane i, or fill (R381). -/
def srcLane (w : Nat) (got : List (Nat × Word)) (fill : Word) (i : Int) : Word :=
  if 0 ≤ i ∧ i < w then (got.lookup i.toNat).getD fill else fill

/-- H(e): half e of the bench read as 2w halves (R381). -/
def srcHalf (w : Nat) (got : List (Nat × Word)) (fill : Word) (x : Int) : Nat :=
  let v := (srcLane w got fill (x / 2)).toNat
  if x % 2 = 0 then v % 65536 else v / 65536

/-- R381's slides, at bench-lane k. -/
def slideVal (op : SlideOp) (w k : Nat) (got : List (Nat × Word)) (fill : Word) (n : Nat) : Word :=
  let h := fun (e : Int) => srcHalf w got fill e
  match op with
  | .upW => srcLane w got fill ((k : Int) - n)
  | .dnW => srcLane w got fill ((k : Int) + n)
  | .upH => BitVec.ofNat 32 (h (2 * (k : Int) - n) + 65536 * h (2 * (k : Int) + 1 - n))
  | .dnH => BitVec.ofNat 32 (h (2 * (k : Int) + n) + 65536 * h (2 * (k : Int) + 1 + n))

/-- R342. -/
def matchVal (got : List (Nat × Word)) (a : Word) : Word :=
  let eq := got.filter (fun p => p.2 == a)
  BitVec.ofNat 32 ((eq.head?.elim 0 (·.1)) + 256 * eq.length)

/-- R359. -/
def rankVal (got : List (Nat × Word)) (k : Nat) : Word :=
  let on := got.filter (fun p => p.2 != 0)
  BitVec.ofNat 32 ((on.filter (fun p => decide (p.1 < k))).length + 256 * on.length)

/-- R366. -/
def redxVal (op : RedOp) (vs : List Word) : Word :=
  match op with
  | .addI => vs.foldl (· + ·) 0
  | .minI => vs.tail.foldl (minVal .i) (vs.headD 0)
  | .maxI => vs.tail.foldl (maxVal .i) (vs.headD 0)
  | .fadd => vs.foldl rnAdd 0

/-- The bits of VOTE.bal (R391). -/
def ballot (got : List (Nat × Word)) : Nat :=
  (got.filter (fun p => p.2 != 0)).foldl (fun n p => n + 2 ^ p.1) 0

/-! ## Instructions -/

/-- SHFL (R381). -/
def execShfl (d a : Reg) (b : Src) (m : Fin 384) (fill : Reg) (s : State) : Out State :=
  cross a m (fun e got c => c.put d (srcLane (Rec.width e.fm.rcd) got (e.reg fill)
    ((e.src b).toNat % Rec.width e.fm.rcd : Nat))) s

/-- SLIDE (R381). -/
def execSlide (op : SlideOp) (d a : Reg) (b : Src) (m : Fin 384) (fill : Reg) (s : State) : Out State :=
  cross a m (fun e got c =>
    c.put d (slideVal op (Rec.width e.fm.rcd) e.th.blane got (e.reg fill) (e.src b).toNat)) s

/-- XSHFL (R381). -/
def execXshfl (d a : Reg) (b : Src) (m : Fin 384) (fill : Reg) (s : State) : Out State :=
  cross a m (fun e got c =>
    c.put d (srcLane (Rec.width e.fm.rcd) got (e.reg fill) ((e.th.blane ^^^ (e.src b).toNat : Nat)))) s

/-- BCAST (R311). -/
def execBcast (d a : Reg) (b : Src) (m : Fin 384) (fill : Reg) (s : State) : Out State :=
  cross a m (fun e got c => c.put d (srcLane (Rec.width e.fm.rcd) got (e.reg fill) ((e.src b).toNat : Nat))) s

/-- MATCH (R342). -/
def execXmatch (d a : Reg) (m : Fin 384) (s : State) : Out State :=
  cross a m (fun e got c => c.put d (matchVal got ((got.lookup e.th.blane).getD 0))) s

/-- RANK (R359). -/
def execRank (d a : Reg) (m : Fin 384) (s : State) : Out State :=
  cross a m (fun e got c => c.put d (rankVal got e.th.blane)) s

/-- REDX (R366). -/
def execRedx (op : RedOp) (d a : Reg) (m : Fin 384) (s : State) : Out State :=
  cross a m (fun _ got c => c.put d (redxVal op (got.map (·.2)))) s

/-- VOTE (R391). -/
def execVote (op : VoteOp) (d a : Reg) (m : Fin 384) (s : State) : Out State :=
  cross a m (fun _ got c =>
    match op with
    | .any => c.put d (boolWord (got.any (fun p => p.2 != 0)))
    | .all => c.put d (boolWord (got.all (fun p => p.2 != 0)))
    | .bal => (c.put d (BitVec.ofNat 32 (ballot got))).put (regSucc d) (BitVec.ofNat 32 (ballot got / 2 ^ 32))) s

end Sys2Proof.Machine
end

