-- ==== Sys2Proof/Machine/Float.lean ====
section
/-! DEFINITION. FP32 instructions and conversions (R68, R313, R329 to R331, R333, R334). -/

namespace Sys2Proof.Machine

/-- FADD (R329). -/
def execFadd (m : FMode) (d a : Reg) (b : Src) (s : State) : Out State :=
  runWord s (fun e => e.fpEnd m d (fpAdd (fmodeRnd m) (e.reg a) (e.src b)))
/-- FSUB (R329). -/
def execFsub (m : FMode) (d a : Reg) (b : Src) (s : State) : Out State :=
  runWord s (fun e => e.fpEnd m d (fpSub (fmodeRnd m) (e.reg a) (e.src b)))
/-- FMUL (R329). -/
def execFmul (m : FMode) (d a : Reg) (b : Src) (s : State) : Out State :=
  runWord s (fun e => e.fpEnd m d (fpMul (fmodeRnd m) (e.reg a) (e.src b)))
/-- FFMA (R329), destructive. -/
def execFfma (m : FMode) (d a : Reg) (b : Src) (s : State) : Out State :=
  runWord s (fun e => e.fpEnd m d (fpFma (fmodeRnd m) (e.reg d) (e.reg a) (e.src b)))
/-- FCMP (R330). -/
def execFcmp (r : FRel) (d a : Reg) (b : Src) (s : State) : Out State :=
  binary d a b (fun x y => boolWord (fpCmp r x y)) s
/-- FMAX (R333). -/
def execFmax (d a : Reg) (b : Src) (s : State) : Out State := binary d a b fpMax s
/-- FMIN (R333). -/
def execFmin (d a : Reg) (b : Src) (s : State) : Out State := binary d a b fpMin s
/-- FRND (R334). -/
def execFrnd (m : Rnd) (d : Reg) (b : Src) (s : State) : Out State := unary d b (fpRnd m) s

/-- Byte k of d replaced by v; the other bytes are kept (R68). -/
def setByte (d : Word) (k v : Nat) : Word :=
  (d &&& ~~~ (BitVec.ofNat 32 (255 * 2 ^ (8 * k)))) ||| BitVec.ofNat 32 (v % 256 * 2 ^ (8 * k))

def byteOf (b : Word) (k : Nat) : Nat := b.toNat / 2 ^ (8 * k) % 256

/-- FCVT's result from d, a and b (R68, R331). -/
def cvtVal (c : Cvt) (d a b : Word) : Word :=
  match c with
  | .iRz => BitVec.ofInt 32 (satInt .rz 32 (valOfFP32 b))
  | .iRn => BitVec.ofInt 32 (satInt .rn 32 (valOfFP32 b))
  | .fI => rnFP32 (valOfInt b.toInt)
  | .fN => rnFP32 (valOfInt b.toNat)
  | .bf2 => BitVec.ofNat 32 (rnBF16 (valOfFP32 a) + 65536 * rnBF16 (valOfFP32 b))
  | .fBf hi => rnFP32 (valOfBF16 (b.toNat / (if hi then 65536 else 1)))
  | .t8 k => setByte d k.val (encodeT8 (valOfFP32 b))
  | .fT8 k => rnFP32 (valOfT8 (byteOf b k.val))
  | .t6 k => setByte d k.val (encodeT6 (valOfFP32 b))
  | .fT6 k => rnFP32 (valOfT6 (byteOf b k.val % 64))
  | .iH hi => (b.extractLsb' (if hi then 16 else 0) 16).signExtend 32

/-- FCVT (R68, R331). -/
def execFcvt (c : Cvt) (d a : Reg) (b : Src) (s : State) : Out State := ternary d a b (cvtVal c) s

/-- BFMA (R313): d ← RoundRN(d + v × b) with v the BFMA operand at hall address a. -/
def execBfma (x : Bool) (d a : Reg) (b : Src) (s : State) : Out State :=
  runWord s (fun e => flat do
    let h ← e.hall .load (e.reg a) 4
    let v := if expanded h.seg.fmt then elemFP h.seg.fmt h.seg.geom (e.bytes h) (h.rel / 4)
      else BitVec.ofNat 32 (e.rawNat h 4)
    pure (e.fpEnd (if x then .x else .rn) d (fpFma .rn (e.reg d) v (e.src b))))

end Sys2Proof.Machine
end

