-- ==== Sys2Proof/Machine/SfuNum.lean ====
section
/-! DEFINITION. What the SFU functions may return (R75, R76, R327): for each operand the list of FP32 patterns within
the bound. An exact result is enclosed between two rationals in fixed point of 256 bits (log 8). -/

namespace Sys2Proof.Machine

/-- Fixed point: a natural stands for itself × 2^(−256). -/
def fixBits : Nat := 256

/-- floor(√n), bit by bit from bit b − 1 downward. -/
def isqrtBits (n : Nat) : Nat → Nat → Nat
  | 0, r => r
  | b + 1, r => isqrtBits n b (if (r + 2 ^ b) * (r + 2 ^ b) ≤ n then r + 2 ^ b else r)

def isqrt (n : Nat) : Nat := isqrtBits n (n.log2 / 2 + 1) 0

/-- Σ over k of x^(2k+1) / (2k+1), for x = p / 2^256, n terms; alternating for the arctangent. -/
def oddSeries (alt : Bool) (x2 : Nat) : Nat → Nat → Nat → Int
  | 0, _, _ => 0
  | n + 1, k, t =>
    let u : Int := ((t / (2 * k + 1) : Nat) : Int)
    (if alt && k % 2 == 1 then -u else u) + oddSeries alt x2 n (k + 1) (t * x2 / 2 ^ fixBits)

def atanhFix (x : Nat) : Int := oddSeries false (x * x / 2 ^ fixBits) 170 0 x
def atanFix (x : Nat) : Int := oddSeries true (x * x / 2 ^ fixBits) 120 0 x

/-- ln 2 and π in fixed point. -/
def ln2Fix : Nat := (2 * atanhFix (2 ^ fixBits / 3)).toNat
def piFix : Nat := (16 * atanFix (2 ^ fixBits / 5) - 4 * atanFix (2 ^ fixBits / 239)).toNat

/-- e^x for 0 ≤ x < 1 in fixed point: n terms of the series, t the running term. -/
def expSeries (x : Nat) : Nat → Nat → Nat → Nat
  | 0, _, _ => 0
  | n + 1, k, t => t + expSeries x n (k + 1) (t * x / 2 ^ fixBits / (k + 1))
def expFix (x : Nat) : Nat := expSeries x 70 0 (2 ^ fixBits)

/-- sin x or cos x for 0 ≤ x < 2 in fixed point: alternating terms, t the running term and k its order. -/
def trigSeries (x2 : Nat) : Nat → Nat → Bool → Nat → Int
  | 0, _, _, _ => 0
  | n + 1, k, neg, t =>
    (if neg then -(t : Int) else (t : Int)) + trigSeries x2 n (k + 2) (!neg) (t * x2 / 2 ^ fixBits / ((k + 1) * (k + 2)))
def sinFix (x : Nat) : Nat := (trigSeries (x * x / 2 ^ fixBits) 45 1 false x).toNat
def cosFix (x : Nat) : Nat := (trigSeries (x * x / 2 ^ fixBits) 45 0 false (2 ^ fixBits)).toNat

/-- The magnitude that a code of 8 exponent and 23 fraction bits stands for; 2^128 for the code of ∞. -/
def codeMag (c : Nat) : Nat × Int :=
  let e : Nat := c / 2 ^ 23
  if e = 0 then (c % 2 ^ 23, -149) else (c % 2 ^ 23 + 2 ^ 23, (e : Int) - 150)

/-- The codes within b2 / 2 ulp of some point of [lo, hi] × 2^e, the ulp taken at lo's binade (R75). -/
def within (b2 lo hi : Nat) (e : Int) : List Nat :=
  let l : Int := (lo.log2 : Int) + e
  let qe : Int := max (l - 23) (-149)
  let r := (roundCode .rz 23 false lo 1 e).1
  let cs := ((List.range 7).map (fun i => r + i)).filter (fun c => decide (3 ≤ c)) |>.map (· - 3)
  cs.filter (fun c =>
    let m := codeMag c
    let e0 := min (min e (qe - 1)) m.2
    let at0 := fun (x : Nat) (k : Int) => ((x * 2 ^ (k - e0).toNat : Nat) : Int)
    decide (c ≤ 255 * 2 ^ 23) &&
      decide (at0 lo e - at0 b2 (qe - 1) ≤ at0 m.1 m.2 ∧ at0 m.1 m.2 ≤ at0 hi e + at0 b2 (qe - 1)))

/-- A sign and a code as a pattern. -/
def signed (neg : Bool) (c : Nat) : Word := BitVec.ofNat 32 ((if neg then 2 ^ 31 else 0) + c)

/-- n × 2^x, atScale by 2^1000. -/
def atScale (n : Nat) (x : Int) : Nat := n * 2 ^ (x + 1000).toNat

/-- The exponent of the ulp at a magnitude whose binade is that of lo × 2^e (R75). -/
def ulpExp (lo : Nat) (e : Int) : Int := max ((lo.log2 : Int) + e - 23) (-149)

/-- Whether code c is within one ulp, 2^q, of the reciprocal of m × 2^e. -/
def recipOk (m : Nat) (e q : Int) (c : Nat) : Bool :=
  let p := atScale ((codeMag c).1 * m) ((codeMag c).2 + e)
  let u := atScale m (q + e)
  decide (p ≤ atScale 1 0 + u ∧ atScale 1 0 ≤ p + u)

/-- Whether code c is within one ulp, 2^q, of the reciprocal of the root of m × 2^e. -/
def rsqOk (m : Nat) (e q : Int) (c : Nat) : Bool :=
  let g := min (codeMag c).2 q
  let k := (codeMag c).1 * 2 ^ ((codeMag c).2 - g).toNat
  let u := 2 ^ (q - g).toNat
  let at_ := fun (n : Nat) => atScale (n * n * m) (2 * g + e)
  decide (at_ (k - u) ≤ atScale 1 0 ∧ atScale 1 0 ≤ at_ (k + u))

/-- The patterns that RCP may return (R75, R76, R360): the reciprocal of a normal power of two is exact; that of any other
operand, a subnormal power of two among them, is within 1 ulp. -/
def rcpList (b : Word) : List Word :=
  match valOfFP32 b with
  | .nan => [qNaN]
  | .inf s => [signed s 0]
  | .fin s m e =>
    if m = 0 then [signed s (255 * 2 ^ 23)]
    else
      let c := roundCode .rn 23 s 1 m (-e)
      if (2 ^ m.log2 = m ∧ b.toNat / 2 ^ 23 % 256 ≠ 0) ∨ fOF &&& c.2 ≠ 0 then [signed s c.1]
      else
        let lo := 2 ^ 400 / m
        ((within 2 lo (lo + 1) (-e - 400)).filter (recipOk m e (ulpExp lo (-e - 400)))).map (signed s)

/-- RSQ (R375). -/
def rsqList (b : Word) : List Word :=
  match valOfFP32 b with
  | .nan => [qNaN]
  | .inf s => [if s then qNaN else 0]
  | .fin s m e =>
    if m = 0 then [signed s (255 * 2 ^ 23)]
    else if s then [qNaN]
    else
      let m1 := if e % 2 = 0 then m else 2 * m
      let e1 := if e % 2 = 0 then e else e - 1
      let r := isqrt (2 ^ 400 / m1)
      if r * r * m1 = 2 ^ 400 then [signed false (roundCode .rn 23 false r 1 (-200 - e1 / 2)).1]
      else
        ((within 2 r (r + 1) (-200 - e1 / 2)).filter (rsqOk m1 e1 (ulpExp r (-200 - e1 / 2)))).map (signed false)

/-- SQRT, correctly rounded (R387). -/
def sqrtVal (b : Word) : Word :=
  match valOfFP32 b with
  | .nan => qNaN
  | .inf s => if s then qNaN else b
  | .fin s m e =>
    if m = 0 then b
    else if s then qNaN
    else
      let m1 := if e % 2 = 0 then m else 2 * m
      let e1 := if e % 2 = 0 then e else e - 1
      let n := m1 * 2 ^ 100
      let r := isqrt n
      signed false (roundCode .rn 23 false (2 * r + (if r * r = n then 0 else 1)) 1 (e1 / 2 - 51)).1

/-- EX2 (R327). -/
def ex2List (b : Word) : List Word :=
  match valOfFP32 b with
  | .nan => [qNaN]
  | .inf s => [if s then 0 else 0x7F800000]
  | .fin s m e =>
    let n := (roundToInt .rd s m e)
    if 128 ≤ n then [0x7F800000]
    else if n < -150 ∨ (n = -150 ∧ Val.eq (.fin s m e) (valOfInt (-150))) then [0]
    else if Val.eq (.fin s m e) (valOfInt n) then [signed false (roundCode .rn 23 false 1 1 n).1]
    else
      let f := signedAt s m e (min e (-256)) - n * 2 ^ (- min e (-256)).toNat
      let f1 := f.toNat * 2 ^ fixBits / 2 ^ (- min e (-256)).toNat
      let y := expFix (f1 * ln2Fix / 2 ^ fixBits)
      (within 4 (y - 2 ^ 40) (y + 2 ^ 40) (n - 256)).map (signed false)

/-- LG2 (R340). -/
def lg2List (b : Word) : List Word :=
  match valOfFP32 b with
  | .nan => [qNaN]
  | .inf s => [if s then qNaN else 0x7F800000]
  | .fin s m e =>
    if m = 0 then [0xFF800000]
    else if s then [qNaN]
    else
      let k : Int := (m.log2 : Int) + e
      if 2 ^ m.log2 = m then [rnFP32 (valOfInt k)]
      else
        let y := m * 2 ^ fixBits / 2 ^ m.log2
        let t := (y - 2 ^ fixBits) * 2 ^ fixBits / (y + 2 ^ fixBits)
        let z : Int := k * 2 ^ fixBits + 2 * atanhFix t * 2 ^ fixBits / ln2Fix
        (within 4 (z.natAbs - 2 ^ 40) (z.natAbs + 2 ^ 40) (-256)).map (signed (decide (z < 0)))

/-- |x| mod 2 in fixed point, exactly (every FP32 value is a multiple of 2^−149). -/
def mod2Fix (m : Nat) (e : Int) : Nat :=
  let q := shiftRat m 1 (e + 256)
  q.1 / q.2 % (2 * 2 ^ fixBits)

/-- SINPI of |x| with its sign, as a list of signed codes (R384). -/
def sinpiList (b : Word) : List Word :=
  match valOfFP32 b with
  | .nan => [qNaN]
  | .inf _ => [qNaN]
  | .fin s m e =>
    let r := mod2Fix m e
    let one := 2 ^ fixBits
    let neg := if one ≤ r then !s else s
    let u := r % one
    if u = 0 then [signed s 0]
    else if 2 * u = one then [signed neg (127 * 2 ^ 23)]
    else
      let v := if one < 2 * u then one - u else u
      let y := sinFix (v * piFix / one)
      (within 3 (y - 2 ^ 40) (y + 2 ^ 40) (-256)).map (signed neg)

/-- COSPI (R324). -/
def cospiList (b : Word) : List Word :=
  match valOfFP32 b with
  | .nan => [qNaN]
  | .inf _ => [qNaN]
  | .fin _ m e =>
    let one := 2 ^ fixBits
    let r := mod2Fix m e
    let u := if one < r then 2 * one - r else r
    if 2 * u = one then [0]
    else if u = 0 then [0x3F800000]
    else if u = one then [0xBF800000]
    else
      let neg := decide (one < 2 * u)
      let v := if neg then one - u else u
      let y := cosFix (v * piFix / one)
      (within 3 (y - 2 ^ 40) (y + 2 ^ 40) (-256)).map (signed neg)

/-- TANH of m × 2^e < 2^(−38): between x − x³/3 and that and 2x⁵/15, in units of 2^(3e − 4). -/
def tanhSmall (m : Nat) (e : Int) : List Nat :=
  let t := m * 2 ^ (4 - 2 * e).toNat - 16 * m ^ 3 / 3
  within 4 (t - 1) (t + 1) (3 * e - 4)

/-- TANH (R390): magnitudes at most 1. -/
def tanhList (b : Word) : List Word :=
  match valOfFP32 b with
  | .nan => [qNaN]
  | .inf s => [signed s (127 * 2 ^ 23)]
  | .fin s m e =>
    let one := 2 ^ fixBits
    if m = 0 then [b]
    else if e ≤ -64 then (tanhSmall m e).map (signed s)
    else
      let q := shiftRat m 1 (e + 256)
      let x := q.1 / q.2
      let cs :=
        if 20 * one ≤ x then within 4 (one - 2 ^ 200) one (-256)
        else
          let y := 2 * x * one / ln2Fix
          let ex := expFix (y % one * ln2Fix / one) * 2 ^ (y / one)
          let t := (ex - one) * one / (ex + one)
          within 4 (t - 2 ^ 60) (t + 2 ^ 60) (-256)
      (cs.filter (fun c => decide (c ≤ 127 * 2 ^ 23))).map (signed s)

/-- The pattern that the part returns: free among the allowed ones, a function of the operation and operand (log 8). -/
def pick (op : Nat) (key : Word) (l : List Word) : Word := l.getD (Config.sfuChoice op key % l.length) qNaN

end Sys2Proof.Machine
end

