-- ==== Sys2Proof/Machine/Sfu.lean ====
section
/-! DEFINITION. SFU instructions and the activation table (R77 to R79, R299, R300, R327). -/

namespace Sys2Proof.Machine

/-- The mould of R327: a long-latency result, a function of the operand only. -/
def sfu (d : Reg) (b : Src) (f : Word → Word) (s : State) : Out State :=
  runWord s (fun e => e.result (·.putLat d (f (e.src b))))

/-- The magnitude of an FP32 pattern: odd functions choose by it, so that F(−x) = −F(x). -/
def magOf (b : Word) : Word := b &&& 0x7FFFFFFF

def rcpVal (b : Word) : Word := pick 0 b (rcpList b)
def rsqVal (b : Word) : Word := pick 1 b (rsqList b)
def ex2Val (b : Word) : Word := pick 2 b (ex2List b)
def lg2Val (b : Word) : Word := pick 3 b (lg2List b)
def sinpiVal (b : Word) : Word := pick 4 (magOf b) (sinpiList b)
def cospiVal (b : Word) : Word := pick 5 b (cospiList b)
def tanhVal (b : Word) : Word := pick 6 (magOf b) (tanhList b)

/-- RCP (R360). -/
def execRcp (d : Reg) (b : Src) (s : State) : Out State := sfu d b rcpVal s
/-- RSQ (R375). -/
def execRsq (d : Reg) (b : Src) (s : State) : Out State := sfu d b rsqVal s
/-- SQRT (R387). -/
def execSqrt (d : Reg) (b : Src) (s : State) : Out State := sfu d b sqrtVal s
/-- EX2 (R327). -/
def execEx2 (d : Reg) (b : Src) (s : State) : Out State := sfu d b ex2Val s
/-- LG2 (R340). -/
def execLg2 (d : Reg) (b : Src) (s : State) : Out State := sfu d b lg2Val s
/-- SINPI (R384). -/
def execSinpi (d : Reg) (b : Src) (s : State) : Out State := sfu d b sinpiVal s
/-- COSPI (R324). -/
def execCospi (d : Reg) (b : Src) (s : State) : Out State := sfu d b cospiVal s
/-- TANH (R390). -/
def execTanh (d : Reg) (b : Src) (s : State) : Out State := sfu d b tanhVal s

/-- The entry that x selects in a bank with domain start L and step 2^Q (R78). -/
def actIndex (l q x : Word) : Nat :=
  match (valOfFP32 x).add false (valOfFP32 l).neg with
  | .nan => 0
  | .inf neg => if neg then 0 else 255
  | .fin s m e => (clampInt 0 255 (roundToInt .rd s m (e - q.toInt))).toNat

/-- ACT(x) on a bank (R78): one rounding; a zero slope returns the intercept's bits. -/
def actVal (k : Bank) (x : Word) : Word :=
  if isNaN x then qNaN
  else
    let i := actIndex k.l k.q x
    let m := SMap.get 0 i k.m
    let c := SMap.get 0 i k.c
    if (valOfFP32 m).isZero then c else rnFma c m x

/-- A bank of a core (R77, R299). -/
def Core.bank (c : Core) (n : Nat) : Bank := Tab.getD Bank.reset n c.banks

/-- ACT (R299): the bank's contents are those at issue (R79). -/
def execAct (n : Fin 4) (d : Reg) (b : Src) (s : State) : Out State :=
  runWord s (fun e => e.result (·.putLat d (actVal ((e.s.core e.th.core).bank n.val) (e.src b))))

/-- The bank that an image of 516 words loads (R77). -/
def bankOf (image : List Word) (form : Nat) : Bank :=
  { l := image.getD 0 0, q := image.getD 1 0,
    m := (List.range 256).foldr (fun i t => SMap.set 0 i (image.getD (4 + 2 * i) 0) t) [],
    c := (List.range 256).foldr (fun i t => SMap.set 0 i (image.getD (5 + 2 * i) 0) t) [], owner := some form }

/-- L finite and Q from −64 to 64 (R77). -/
def imageOk (l q : Word) : Bool :=
  (match valOfFP32 l with | .fin _ _ _ => true | _ => false) && decide (-64 ≤ q.toInt ∧ q.toInt ≤ 64)

/-- ACTLD (R300): the image is read when the clause executes, goes to its bank at commit, and becomes current when the
load completes (R79). -/
def execActld (n : Fin 4) (a : Reg) (s : State) : Out State :=
  runWord s (fun e => flat do
    let img ← e.rawImage (e.reg a) 2064 16 true
    need (imageOk (img.getD 0 0) (img.getD 1 0))
    pure (.done (e.upd e.s.fresh (fun c =>
      (c.act (.actld n.val img e.s.serial)).putDone .none (.actld e.s.serial)))))

end Sys2Proof.Machine
end

