-- ==== Sys2Proof/Machine/Trans.lean ====
section
/-! DEFINITION. Address translation: page-table entries, TLBs, walks, and what a virtual address reads (R99 to R106,
R395), and the fetch of instruction words (R239). -/

namespace Sys2Proof.Machine

/-! ## Walks (R101) -/

/-- The walk of R101 from a table at a level: the leaf's address and the leaf, none where an entry is invalid. -/
def State.walkFrom (s : State) (va : Nat) : Nat → Nat → Nat → Option (Nat × BitVec 64)
  | 0, _, _ => none
  | fuel + 1, lvl, tbl =>
    let at_ := tbl + 8 * (va / 2 ^ (46 - 10 * lvl) % 1024)
    let e := BitVec.ofNat 64 (leNat (s.physBytes at_ 8))
    if leafOk lvl e then some (at_, e)
    else if pointerOk e && decide (lvl < 3) then s.walkFrom va fuel (lvl + 1) (pteBits e 51 13 * 8192)
    else none

/-- The walk in a context (log 16). -/
def State.walk (s : State) (ctx va : Nat) : Option (Nat × BitVec 64) :=
  (Tab.find? ctx s.roots).bind (fun root => s.walkFrom va 4 0 root)

/-- The bytes of the table entries that such a walk reads. -/
def State.walkSpan (s : State) (va : Nat) : Nat → Nat → Nat → List Nat
  | 0, _, _ => []
  | fuel + 1, lvl, tbl =>
    let at_ := tbl + 8 * (va / 2 ^ (46 - 10 * lvl) % 1024)
    let e := BitVec.ofNat 64 (leNat (s.physBytes at_ 8))
    (List.range 8).map (at_ + ·) ++
      (if !leafOk lvl e && pointerOk e && decide (lvl < 3) then s.walkSpan va fuel (lvl + 1) (pteBits e 51 13 * 8192) else [])

/-- The bytes of the tables that the walk of an address reads (R205). -/
def State.tableSpan (s : State) (ctx va : Nat) : List Nat :=
  match Tab.find? ctx s.roots with | some root => s.walkSpan va 4 0 root | none => []

/-- Whether that walk meets an uncorrectable atom, which pauses what needs it until the kernel has acted (R214). -/
def State.tableBad (s : State) (ctx va : Nat) : Bool := (s.tableSpan ctx va).any s.isBad

/-! ## TLBs (R103) -/

def TlbEntry.hits (e : TlbEntry) (ctx va : Nat) : Bool := e.ctx == ctx && e.page == va / pageBytes e.size

/-- The leaf entry by which the kernel and the walker reach an address: one that a cluster's L2 TLB holds, such as one
that the kernel has installed, else that of the tables (R104, R106, log 17). -/
def State.leafAt (s : State) (ctx va : Nat) : Option (BitVec 64) :=
  match s.clusters.findSome? (fun p => p.2.l2.find? (·.hits ctx va)) with
  | some e => some e.pte
  | none => (s.walk ctx va).map (·.2)

/-- The bytes of the tables that reaching an address by `leafAt` reads: none where an L2 TLB holds its entry. -/
def State.leafSpan (s : State) (ctx va : Nat) : List Nat :=
  if s.clusters.any (fun p => p.2.l2.any (·.hits ctx va)) then [] else s.tableSpan ctx va

/-- Change every cached translation list. -/
def State.mapTlbs (s : State) (g : List TlbEntry → List TlbEntry) : State :=
  { s with clusters := s.clusters.map (fun p => (p.1, { p.2 with l2 := g p.2.l2 })),
           cores := s.cores.map (fun p => (p.1, { p.2 with l1 := g p.2.l1 })) }

/-- What the update of D in the tables writes. -/
def State.dirtyPuts (s : State) (ctx va : Nat) : List (Nat × Byte) :=
  match s.walk ctx va with
  | some (a, p) =>
    if pteDirty p then [] else (leBytes 8 (pteSetD p).toNat).zipIdx.map (fun z => (a + z.2, z.1))
  | none => []

/-- Whether that update meets an atom with an uncorrectable error, in what it writes or on the way there, and so is not
performed (R207, R214). -/
def State.dirtyHeld (s : State) (ctx va : Nat) : Bool :=
  s.putsHeld (s.dirtyPuts ctx va) || (!(s.dirtyPuts ctx va).isEmpty && s.tableBad ctx va)

/-- Set D of an address's entry, in the tables and in every cached copy, before the first write through it (R102). -/
def State.markDirty (s : State) (ctx va : Nat) : State :=
  (s.puts (s.dirtyPuts ctx va)).mapTlbs
    (fun l => l.map (fun e => if e.hits ctx va then { e with pte := pteSetD e.pte } else e))

def tlbOf (ctx va : Nat) (pte : BitVec 64) : TlbEntry :=
  { ctx := ctx, page := va / pageBytes (pteSize pte), size := pteSize pte, pte := pte }

/-- Entries of a core's L1 TLB per page size (R103). -/
def l1Cap : Nat → Nat
  | 0 => 96 | 1 => 48 | 2 => 32 | _ => 16

/-- Put an entry first; the least recently used of its size goes when its partition is full. -/
def tlbFill1 (l : List TlbEntry) (e : TlbEntry) : List TlbEntry :=
  e :: (((l.filter (fun x => x != e && x.size == e.size)).take (l1Cap e.size - 1)) ++
    l.filter (fun x => x.size != e.size))

def tlbFill2 (l : List TlbEntry) (e : TlbEntry) : List TlbEntry := e :: (l.filter (· != e)).take 8191

/-- The 64 KiB page of an address, as misses and walks name it. -/
def walkOf (ctx va : Nat) : Walk := { ctx := ctx, page := va / 65536 }

/-- A miss of the cluster's L2: it waits for a walker, unless its page is being walked or its unit is paused (R104,
R106). -/
def State.miss (s : State) (cl ctx va : Nat) : State :=
  let w := walkOf ctx va
  let c := s.cluster cl
  if c.misses.contains w || c.walks.contains w || s.paused.contains w then s
  else s.modCluster cl (fun c => { c with misses := c.misses ++ [w] })

/-- A unit that meets an invalid entry or a failed permission pauses, and the control kernel is notified (R106). -/
def State.pause (s : State) (ctx va : Nat) : State :=
  let w := walkOf ctx va
  if s.paused.contains w then s else { s with paused := s.paused ++ [w] }.note (.translation ctx w.page)

/-- A use of a translation; a probe looks at the entry without using its permissions. -/
inductive Use where
  | read | write | probe
  deriving DecidableEq, Repr

/-- Whether an entry permits a use (R102). Copies and collectives never write the weight store (R98). -/
def useOk (u : Use) (e : BitVec 64) : Bool :=
  match u with | .read => pteRd e | .write => pteWr e && pteType e != 1 | .probe => true

/-- Use an entry: pause where its permission fails. The first write sets D before it is performed (R102), and waits while
the kernel has to deal with an error of the table (R207). -/
def State.useEntry (s : State) (ctx va : Nat) (u : Use) (e : TlbEntry) : State × Option TlbEntry :=
  if !useOk u e.pte then (s.pause ctx va, none)
  else match u with
    | .write =>
      if pteDirty e.pte then (s, some e)
      else if s.dirtyHeld ctx va then (s, none)
      else (s.markDirty ctx va, some { e with pte := pteSetD e.pte })
    | _ => (s, some e)

/-- Translate through the L2 TLB: staging, write-back and weight loads (R103). -/
def State.xlat2 (s : State) (cl ctx va : Nat) (u : Use) : State × Option TlbEntry :=
  match (s.cluster cl).l2.find? (·.hits ctx va) with
  | some e => (s.modCluster cl (fun c => { c with l2 := tlbFill2 c.l2 e })).useEntry ctx va u e
  | none => (s.miss cl ctx va, none)

/-- Translate through a core's L1 TLB, then the cluster's L2: fetch and the copies a core issues (R103). -/
def State.xlat1 (s : State) (core ctx va : Nat) (u : Use) : State × Option TlbEntry :=
  match (s.core core).l1.find? (·.hits ctx va) with
  | some e => (s.modCore core (fun c => { c with l1 := tlbFill1 c.l1 e })).useEntry ctx va u e
  | none =>
    match s.xlat2 (core / 8) ctx va u with
    | (s, some e) => (s.modCore core (fun c => { c with l1 := tlbFill1 c.l1 e }), some e)
    | r => r

/-- Pages of 64 KiB that n bytes from va touch. -/
def pagesOf (va n : Nat) : List Nat := (List.range ((va + (n - 1)) / 65536 + 1 - va / 65536)).map (fun i => (va / 65536 + i) * 65536)

/-- The leaf entry of an address as a cluster would find it: its L2 TLB first, then the tables, unless an uncorrectable atom
of theirs hides it. -/
def State.seek (s : State) (cl ctx va : Nat) : Option (BitVec 64) :=
  match (s.cluster cl).l2.find? (·.hits ctx va) with
  | some e => some e.pte
  | none => if s.tableBad ctx va then none else (s.walk ctx va).map (·.2)

/-! ## What a page reads (R395) -/

/-- The storage bytes of a page. -/
def State.pageRd (s : State) (pte : BitVec 64) : Bytes := pageRdOf s.physByte pte

/-- The word at a word-aligned address of a page. -/
def State.pageWord (s : State) (pte : BitVec 64) (va : Nat) : Word := pageLoad s.physByte pte va

/-! ## Fetch (R2, R239) -/

/-- The line of 64 bytes that holds an address of a page. -/
def State.lineAt (s : State) (pte : BitVec 64) (va : Nat) : CodeLine :=
  { pa := pteFrame pte + va % pageBytes (pteSize pte) / 64 * 64, fmt := pteFmt pte, geom := pteGeom pte,
    words := (List.range 16).map (fun i => s.pageWord pte (va / 64 * 64 + 4 * i)) }

/-- Whether two lines stand for the same 64 bytes. -/
def CodeLine.same (a b : CodeLine) : Bool := a.pa == b.pa && a.fmt == b.fmt && a.geom == b.geom

/-- The storage bytes behind a line. -/
def State.lineBytes (s : State) (pte : BitVec 64) (va : Nat) : List Nat :=
  (List.range 16).flatMap (fun i => pageSpan s.physByte pte (va / 64 * 64 + 4 * i))

/-- Put a line first; the least recently used goes when all 8,192 are taken. -/
def fillCode (l : List CodeLine) (x : CodeLine) : List CodeLine := x :: (l.filter (fun y => !y.same x)).take 8191

/-- Fetch one word through the cluster's instruction cache. A cached word that memory no longer holds is fetched old or
new, each word on its own (R239; a free value, log 7). A miss reads its line; an uncorrectable atom pauses it (R214). -/
def State.fetchWord (s : State) (core : Nat) (pte : BitVec 64) (va : Nat) : State × Option Word :=
  let cl := core / 8
  let x := s.lineAt pte va
  let i := va / 4 % 16
  let new := x.words.getD i 0
  let bad := (s.lineBytes pte va).any s.isBad
  match (s.cluster cl).icache.find? (·.same x) with
  | some l =>
    let old := l.words.getD i 0
    if old = new ∨ bad then (s.modCluster cl (fun c => { c with icache := fillCode c.icache l }), some old)
    else if Config.draw s.draws % 2 = 0 then
      ({ s.modCluster cl (fun c => { c with icache := fillCode c.icache l }) with draws := s.draws + 1 }, some old)
    else
      ({ s.modCluster cl (fun c => { c with icache := fillCode c.icache { l with words := l.words.set i new } }) with
         draws := s.draws + 1 }, some new)
  | none =>
    if bad then (s, none)
    else ((s.modCluster cl (fun c => { c with icache := fillCode c.icache x })).requests (s.lineBytes pte va), some new)

/-- Fetch n instruction words from va on, for a thread of a core. -/
def State.fetch (s : State) (core ctx va : Nat) : Nat → State × Option (List Word)
  | 0 => (s, some [])
  | n + 1 =>
    match s.xlat1 core ctx va .read with
    | (s, none) => (s, none)
    | (s, some e) =>
      match s.fetchWord core e.pte va with
      | (s1, none) => (s1, none)
      | (s1, some w) =>
        match s1.fetch core ctx ((va + 4) % 2 ^ 56) n with
        | (s2, some ws) => (s2, some (w :: ws))
        | (s2, none) => (s2, none)

end Sys2Proof.Machine
end

