-- ==== Sys2Proof/Machine/Node.lean ====
section
/-! DEFINITION. Checking and inserting timetable nodes and launch records (R157 to R162; R14, R16, R37, R69, R84, R85,
R93, R108, R170). -/

namespace Sys2Proof.Machine

/-! ## Reading device memory for the kernel and the walker -/

/-- The key of the node whose words stand at a VA of a context. -/
def State.keyAt (s : State) (ctx va : Nat) : Option Nat := (s.leafAt ctx va).map (fun e => nodeKey e va)

/-- n words at a VA, as its pages' formats show them (R395); none where a page has no entry that `ok` admits. -/
def State.readIf (s : State) (ok : BitVec 64 → Bool) (ctx va : Nat) : Nat → Option (List Word)
  | 0 => some []
  | n + 1 =>
    match s.leafAt ctx va, s.readIf ok ctx (va + 4) n with
    | some e, some ws => if ok e then some (s.pageWord e va :: ws) else none
    | _, _ => none

/-- n words at a VA through entries that permit reading (R102). -/
def State.readWords (s : State) (ctx va n : Nat) : Option (List Word) := s.readIf pteRd ctx va n

/-- The words of a launch record, which lies in HBM (R162). -/
def State.readRecord (s : State) (ctx va : Nat) : Option (List Word) :=
  s.readIf (fun e => pteRd e && pteType e == 0) ctx va 448

/-- The storage bytes behind n words at a VA, and those of the tables that translating it reads. -/
def State.wordsSpan (s : State) (ctx va n : Nat) : List Nat :=
  (pagesOf va (4 * n)).flatMap (s.leafSpan ctx) ++ (List.range n).flatMap (fun i =>
    match s.leafAt ctx (va + 4 * i) with | some e => pageSpan s.physByte e (va + 4 * i) | none => [])

/-- The requests of reading n words at a VA (R205). -/
def State.askWords (s : State) (ctx va n : Nat) : State := s.requests (s.wordsSpan ctx va n)

/-- Whether that reading meets an uncorrectable atom, which pauses it until the kernel has acted (R214). -/
def State.readHeld (s : State) (ctx va n : Nat) : Bool :=
  s.bad.any (fun b => b.2 && (s.wordsSpan ctx va n).any (fun p => p / 32 == b.1))

/-- Write a word through a leaf entry: its D bit is set first (R102); none where the entry forbids it, or SP24 (R71), or an
uncorrectable atom holds the write or the update of D (R207). -/
def State.writeWord (s : State) (ctx va : Nat) (w : Word) : Option State :=
  match s.leafAt ctx va with
  | none => none
  | some e =>
    if !writable e then none
    else if s.dirtyHeld ctx va || s.putsHeld (s.wordPuts e va [w]) then none
    else
      let s1 := if pteDirty e then s else s.markDirty ctx va
      some (s1.puts (s1.wordPuts e va [w]))

/-- A list of words as a sparse record. -/
def recordOf (ws : List Word) : SMap Word := SMap.setList 0 0 ws []

/-! ## Checks of a launch record, by ERR code (R160) -/

/-- Benches dealt to the form's core i (R16). -/
def benchesOn (r : SMap Word) (i : Nat) : Nat :=
  Rec.benches r / Rec.cores r + (if i < Rec.benches r % Rec.cores r then 1 else 0)

/-- Bench-plan entries in use, in order (R162). -/
def planOk (r : SMap Word) : Bool :=
  let used := fun e => bitsOf (rw r (8 + e)) 31 31 == 1
  let first := fun e => bitsOf (rw r (8 + e)) 8 0
  used 0 && first 0 == 0 &&
  (List.range 8).all (fun e => bitsOf (rw r (8 + e)) 30 15 == 0 && bitsOf (rw r (8 + e)) 9 9 == 0) &&
  (List.range 7).all (fun e => !used (e + 1) || (used e && decide (first e < first (e + 1) ∧ first (e + 1) < Rec.benches r)))

/-- Trap-table entries that must be 0 (R170). -/
def trapReserved (c : Nat) : Bool := c == 0 || c == 0x10 || c == 0x11 || decide (0x16 ≤ c)

def trapTableOk (r : SMap Word) : Bool :=
  (List.range 32).all (fun c =>
    let lo := rw r (384 + 2 * c)
    let hi := rw r (385 + 2 * c)
    if trapReserved c then lo == 0 && hi == 0
    else bitsOf hi 30 24 == 0 && Rec.trapVA r c % 4 == 0 && (Rec.trapUser r c || Rec.trapVA r c == 0))

/-- ERR 0x03: VERSION, shape, bench plan, trap table, weight window and reserved fields. -/
def shapeOk (r : SMap Word) : Bool :=
  rw r 0 == 0x00010000 && bitsOf (rw r 1) 31 16 == 0 && bitsOf (rw r 3) 31 24 == 0 && Rec.entry r % 4 == 0 &&
  (List.range 3).all (fun k => bitsOf (rw r (4 + k)) 31 20 == 0) && bitsOf (rw r 7) 31 18 == 0 &&
  bitsOf (rw r 7) 13 13 == 0 && decide (1 ≤ Rec.threads r ∧ Rec.threads r ≤ 4096) &&
  decide (benchesOn r 0 * Rec.width r ≤ 1024) && planOk r && bitsOf (rw r 17) 31 9 == 0 &&
  decide (Rec.scalars r ≤ 384) && bitsOf (rw r 18) 15 7 == 0 && rw r 19 == 0 && bitsOf (rw r 24) 23 14 == 0 &&
  formatOk (Rec.wformat r) (Rec.wgeom r) && bitsOf (rw r 25) 31 13 == 0 &&
  decide (Rec.wbase r + Rec.wsize r ≤ 8192 * 65536) && bitsOf (rw r 33) 31 16 == 0 &&
  (List.range 30).all (fun k => rw r (34 + k) == 0) && trapTableOk r

/-- Registers of the initial map at a place (R37). -/
def placedAt (r : SMap Word) (p : Place) : Nat :=
  ((List.range 120).filter (fun n => Rec.placeCode r n == p.code)).length

/-- ERR 0x04: allotments and place map (R37). -/
def allotOk (r : SMap Word) : Bool :=
  Rec.allotLane r % 8 == 0 && decide (8 ≤ Rec.allotLane r ∧ Rec.allotLane r ≤ 120 ∧ Rec.allotCore r ≤ 64 ∧
    Rec.allotCluster r ≤ 32 ∧ Rec.allotPier r ≤ 16) &&
  decide (placedAt r .core ≤ Rec.allotCore r ∧ placedAt r .cluster ≤ Rec.allotCluster r ∧
    placedAt r .pier ≤ Rec.allotPier r) &&
  (List.range 120).all (fun n => decide (n < Rec.allotLane r) || Rec.placeCode r n == 0)

/-- A segment descriptor on its own (R84, R85). Of one with V = 0 nothing is checked (log 79). -/
def segOk (r : SMap Word) (i : Nat) : Bool :=
  let g := segOf r i
  !g.valid ||
  (bitsOf (rw r (64 + 4 * i)) 30 23 == 0 && g.base % 128 == 0 && bitsOf (rw r (65 + 4 * i)) 31 23 == 0 &&
   decide (4 ≤ g.size ∧ g.size ≤ 0x180000) && formatOk g.fmt g.geom && bitsOf (rw r (66 + 4 * i)) 7 0 == 0 &&
   bitsOf (rw r (67 + 4 * i)) 31 23 == 0 && g.gkind != 7 && g.gaddr % 4 == 0 &&
   (!(g.gkind == 0 || g.gkind == 3) || g.gaddr == 0) && (g.isAlias || g.target == 0) &&
   (!expanded g.fmt || g.size % unitBytes g.fmt g.geom == 0) && (g.fmt != 1 || g.size % 4 == 0) &&
   (!g.isAlias || (let t := segOf r g.target
      t.valid && !t.isAlias && g.fmt == 0 && g.geom == 0 && g.size == t.size)) &&
   decide (g.base % 2 ^ 21 + g.extent ≤ 0x180000 ∧ g.base / 2 ^ 21 < Rec.cores r))

/-- ERR 0x05: the segments, and no two extents overlapping. -/
def segsOk (r : SMap Word) : Bool :=
  (List.range 16).all (segOk r) &&
  (List.range 16).all (fun i => (List.range 16).all (fun j =>
    let a := segOf r i
    let b := segOf r j
    decide (j ≤ i) || !a.valid || !b.valid || decide (a.base + a.extent ≤ b.base ∨ b.base + b.extent ≤ a.base)))

/-- A region entry on its own (R93). Of one with V = 0 nothing is checked (log 79). -/
def regionOk (r : SMap Word) (i : Nat) : Bool :=
  let g := regionOf r i
  let k := 128 + 8 * i
  let sg := segOf r g.seg
  !g.valid ||
  (bitsOf (rw r (k + 1)) 31 24 == 0 && g.srcva % 65536 == 0 && g.dir != 0 && bitsOf (rw r (k + 3)) 20 20 == 0 &&
   bitsOf (rw r (k + 3)) 15 0 == 0 && bitsOf (rw r (k + 4)) 28 23 == 0 && bitsOf (rw r (k + 5)) 31 8 == 0 &&
   rw r (k + 6) == 0 && rw r (k + 7) == 0 && g.gkind != 7 && g.gaddr % 4 == 0 &&
   (!(g.gkind == 0 || g.gkind == 3) || g.gaddr == 0) && sg.valid && !sg.isAlias &&
   decide (viewExtent g.fmt g.geom g.size ≤ sg.extent) &&
   (sg.gkind == 0 || (sg.gkind == g.gkind && sg.gaddr == g.gaddr && sg.gidx == g.gidx)))

/-- ERR 0x06: the regions, and no two on one segment. -/
def regionsOk (r : SMap Word) : Bool :=
  (List.range 16).all (regionOk r) &&
  (List.range 16).all (fun i => (List.range 16).all (fun j =>
    let a := regionOf r i
    let b := regionOf r j
    decide (j ≤ i) || !a.valid || !b.valid || a.seg != b.seg))

/-- ERR 0x07: the capabilities (R108); a mailbox number names one of the mailboxes 0 to 15 of R215. An entry with V = 0
is not used, and none of its other bits is checked (log 79). -/
def capsOk (r : SMap Word) : Bool :=
  (List.range 64).all (fun n =>
    let c := Rec.cap r n
    !capValid c ||
    (decide (capKind c ≤ 4) && (!capSend c || capAllow c != 0) && capBits c 46 32 == 0 &&
     (capKind c != 0 || decide (capEnd c < 64)) && (capKind c != 4 || decide (capEnd c < 16))))

/-- The lowest ERR of a launch record, 0 where it passes (R160). -/
def recordErr (r : SMap Word) : Nat :=
  if !shapeOk r then 3 else if !allotOk r then 4 else if !segsOk r then 5 else if !regionsOk r then 6
  else if !capsOk r then 7 else 0

/-! ## Checks of a node image (R157, R158, R160) -/

def imgWord (img : List Word) (k : Nat) : Nat := (img.getD k 0).toNat
def imgWord2 (img : List Word) (k : Nat) : Nat := imgWord img k + 2 ^ 32 * imgWord img (k + 1)
def imgKind (img : List Word) : Nat := bitsOf (imgWord img 0) 31 28
def imgPred (img : List Word) : Nat := bitsOf (imgWord img 0) 15 0
def imgSucc (img : List Word) : Nat := bitsOf (imgWord img 1) 3 0
def imgVA (img : List Word) (j : Nat) : Nat := imgWord2 img (8 + 2 * j)

/-- The body limits of R158. A VA of 2^56 or more, which the rule does not speak of, is refused, and the VA of a collective's
record may have any alignment (log 106). -/
def bodyOk (img : List Word) : Bool :=
  let z := fun k => imgWord img k == 0
  let va := fun k => decide (imgWord2 img k < 2 ^ 56)
  match imgKind img with
  | 0 => va 2 && imgWord2 img 2 % 256 == 0 && z 4 && z 5 && z 6 && z 7
  | 1 => va 2 && va 4 && z 7
  | 2 => va 2 && imgWord2 img 2 % 65536 == 0 && decide (imgWord img 4 < 4) && z 5 && imgWord img 6 % 65536 == 0 &&
         imgWord img 7 % 65536 == 0 && decide (imgWord img 6 + imgWord img 7 ≤ 0x20000000)
  | 3 => va 2 && z 5 && z 6 && z 7
  | 4 => (decide (imgWord img 2 < 16) || imgWord img 2 == 0xFFFFFFFF) && z 4 && z 5 && z 6 && z 7
  | _ => false

/-- ERR 0x01. -/
def imageOkN (img : List Word) : Bool :=
  decide (imgKind img ≤ 4) && bitsOf (imgWord img 0) 27 16 == 0 && bitsOf (imgWord img 1) 31 4 == 0 &&
  decide (imgSucc img ≤ 12) && bodyOk img &&
  (List.range 12).all (fun j => decide (imgVA img j < 2 ^ 56) && (decide (j < imgSucc img) || imgVA img j == 0))

/-- The inserted node at a VA of a context: whichever VA it was inserted by, its words stand there (log 17). -/
def State.nodeAt (s : State) (ctx va : Nat) : Option (Nat × Node) :=
  (s.keyAt ctx va).bind (fun pa => (Tab.find? pa s.nodes).map (fun n => (pa, n)))

/-- ERR 0x02: every successor inserted and in STATE 0. -/
def State.succOk (s : State) (ctx : Nat) (img : List Word) : Bool :=
  (List.range (imgSucc img)).all (fun j =>
    imgVA img j % 128 == 0 &&
    (match s.nodeAt ctx (imgVA img j) with | some (pa, _) => s.nodeState pa == 0 | none => false))

/-- The lowest ERR that a node takes at insertion (0 where it passes), with its launch record (R160). A record that does
not lie in readable HBM is one whose VERSION is not 1 (R162, log 17). -/
def State.insertErr (s : State) (ctx : Nat) (img : List Word) : Nat × SMap Word :=
  if !imageOkN img then (1, [])
  else if !s.succOk ctx img then (2, [])
  else if imgKind img ≠ 0 then (0, [])
  else
    match s.readRecord ctx (imgWord2 img 2) with
    | none => (3, [])
    | some ws => (recordErr (recordOf ws), recordOf ws)

/-- The successors that a node lists and that are inserted (R160: an entry that cannot be read as one is skipped). An entry
that is not a multiple of 128, on a page of an expanded format, reaches the node whose words stand there (log 107). -/
def State.listed (s : State) (ctx : Nat) (img : List Word) : List Nat :=
  (List.range (min 12 (imgSucc img))).filterMap (fun j => (s.nodeAt ctx (imgVA img j)).map (·.1))

/-- Write a node's 32 words through its page's entry, whose D bit is set first (R102, R205, R207). -/
def State.writeImage (s : State) (ctx va : Nat) (pte : BitVec 64) (img : List Word) : State :=
  let s1 := if pteDirty pte then s else s.markDirty ctx va
  s1.puts (s1.wordPuts pte va img)

/-- Write CONTEXT into a launch's record (R162, R166); none where the record's page forbids it. -/
def State.writeContext (s : State) (ctx : Nat) (img : List Word) : Option State :=
  if imgKind img = 0 then s.writeWord ctx (imgWord2 img 2 + 4) (BitVec.ofNat 32 ctx) else some s

/-- Write words from a VA on, where the pages' entries permit it (R102). -/
def State.writeWords (s : State) (ctx va : Nat) : List Word → State
  | [] => s
  | w :: r => ((s.writeWord ctx va w).getD s).writeWords ctx (va + 4) r

/-- A record's words. -/
def wordsOfRecord (r : SMap Word) : List Word := (List.range 448).map (fun k => SMap.get 0 k r)

/-- Whether the insertion reads the launch record of an image (R160). -/
def State.readsRecord (s : State) (ctx : Nat) (img : List Word) : Bool :=
  imageOkN img && s.succOk ctx img && imgKind img == 0

/-- The bytes that the insertion reads of an image's successors: the tables that lead there, and word 0 of each that is
inserted (R160). -/
def State.succSpan (s : State) (ctx : Nat) (img : List Word) : List Nat :=
  if !imageOkN img then []
  else (List.range (imgSucc img)).flatMap (fun j => s.leafSpan ctx (imgVA img j) ++
    (match s.nodeAt ctx (imgVA img j) with | some (pa, _) => s.nodeSpan pa 0 1 | none => []))

/-- The successors and the record are read (R205). -/
def State.askRecord (s : State) (ctx : Nat) (img : List Word) : State :=
  let s1 := s.requests (s.succSpan ctx img)
  if s.readsRecord ctx img then s1.askWords ctx (imgWord2 img 2) 448 else s1

/-- Whether the insertion waits because what it reads holds an uncorrectable atom (R214). -/
def State.recordHeld (s : State) (ctx : Nat) (img : List Word) : Bool :=
  (s.succSpan ctx img).any s.isBad || (s.readsRecord ctx img && s.readHeld ctx (imgWord2 img 2) 448)

/-- Where an insertion waits for the kernel: at an address whose entry forbids a write of it (R102, R106), or, with no
address, at an uncorrectable atom (R207, R214). -/
def State.insertWait (s : State) (ctx va : Nat) (pte : BitVec 64) (img : List Word) : Option (Option Nat) :=
  let rva := imgWord2 img 2 + 4
  if !writable pte then some (some va)
  else if s.dirtyHeld ctx va || s.putsHeld (s.wordPuts pte va img) || s.recordHeld ctx img then some none
  else if (s.insertErr ctx img).1 = 0 ∧ (s.writeContext ctx img).isNone then
    some (if (s.leafAt ctx rva).any writable then none else some rva)
  else none

/-- The kernel is notified of the address at which an insertion waits. -/
def State.pauseAt (s : State) (ctx : Nat) : Option (Option Nat) → State
  | some (some va) => s.pause ctx va
  | _ => s

/-- Insert a checked node (R159): its words stand in memory, CONTEXT is written into its record (R162), and with PRED 0
it is ready at once. `cap` bounds a launch's priority (R166). Its callers have seen that nothing holds its writes
(`State.insertWait`). In recording mode the node and its record are logged (R220); `host`: it was inserted on the host's
behalf. -/
def State.insertNode (s : State) (fn ctx : Nat) (part : List Nat) (va : Nat) (pte : BitVec 64) (img : List Word)
    (r : SMap Word) (cap : Nat) (host : Bool) : State :=
  match (s.writeImage ctx va pte img).writeContext ctx img with
  | none => s
  | some s2 =>
  let n := if imgKind img = 0 then Rec.forms r else 0
  let pa := nodeKey pte va
  let nd : Node :=
    { va := va, fn := fn, ctx := ctx, part := part, kind := imgKind img, body := (img.drop 2).take 6, seq := 0,
      readyTick := 0, prio := min (Rec.prio r) cap, succ := s.listed ctx img,
      rcd := SMap.set 0 1 (BitVec.ofNat 32 ctx) r, forms := n, fbase := s.serial, next := 0, retired := 0, aged := 0,
      pte := pteSetD pte }
  let s3 := ({ s2 with nodes := Tab.put pa nd s2.nodes, serial := s2.serial + n }).keep
    (.node fn ctx va (s2.epoch - s2.recFrom) host img (if imgKind img = 0 then wordsOfRecord r else []))
  if imgPred img = 0 then s3.makeReady pa else s3

/-- A refused node: written with STATE 4 and its ERR, and its listed successors in STATE 0 fail with 0x08 (R160). -/
def State.refuseNode (s : State) (ctx va : Nat) (pte : BitVec 64) (img : List Word) (err : Nat) : State :=
  let succ := s.listed ctx img
  let w := BitVec.ofNat 32 (imgKind img * 2 ^ 28 + 4 * 2 ^ 24 + err * 2 ^ 16 + imgPred img)
  let s := s.writeImage ctx va pte (img.set 0 w)
  succ.foldl (fun s p => if s.nodeState p = 0 then s.failNode (s.nodes.length + 1) p 0x08 else s) s

/-- Check and insert, or refuse, a node image at a VA of a page (R159, R160). -/
def State.offerNode (s : State) (fn ctx : Nat) (part : List Nat) (va : Nat) (pte : BitVec 64) (img : List Word) (cap : Nat) :
    State :=
  match s.insertErr ctx img with
  | (0, r) => (s.askRecord ctx img).insertNode fn ctx part va pte img r cap true
  | (e, _) => (s.askRecord ctx img).refuseNode ctx va pte img e

/-- What a LAUNCH may insert: not a weight load, and no check failing (R166). -/
def State.launchable (s : State) (ctx : Nat) (img : List Word) : Bool :=
  imgKind img != 2 && (s.insertErr ctx img).1 == 0

/-- Where a LAUNCH's insertion waits, if it is not refused (R106, R166). -/
def State.launchWait (s : State) (ctx va : Nat) (pte : BitVec 64) (img : List Word) : Option (Option Nat) :=
  if s.recordHeld ctx img then some none
  else if s.launchable ctx img then s.insertWait ctx va pte img
  else none

/-- LAUNCH's insertion and its status: where the image may not be inserted, its record and its successors are only read
(R166, R205). -/
def State.launchNode (s : State) (f : Form) (img : List Word) (va : Nat) (pte : BitVec 64) : State × Bool :=
  if s.launchable f.ctx img then
    ((s.askRecord f.ctx img).insertNode f.fn f.ctx f.part va pte img (s.insertErr f.ctx img).2 f.prio false, true)
  else (s.askRecord f.ctx img, false)

end Sys2Proof.Machine
end

