-- ==== Sys2Proof/Machine/Control.lean ====
section
/-! DEFINITION. CONTROL instructions other than barriers, rings and channels (R39 to R41, R97, R115, R135, R166, R175,
R176, R179 to R181, R203, R237, R315 to R319, R328, R332, R335, R355, R361 to R363, R385, R392). -/

namespace Sys2Proof.Machine

/-! ## Branches (R229, R237) -/

/-- header VA + 4 × n for a signed n. -/
def addWords (va : VAddr) (n : Int) : VAddr := va + BitVec.ofInt 56 (4 * n)
def linkOf (c : Clause) : VAddr := addWords c.va (1 + c.hdr.count)

/-- Set the next PC of the executing clause. -/
def Clause.goto (c : Clause) (t : VAddr) : Clause := { c with next := t }
def branchTo (off : BitVec 19) (c : Clause) : Clause := c.goto (addWords c.va off.toInt)

/-- BRA (R316). -/
def execBra (off : BitVec 19) (s : State) : Out State := runWord s (fun e => e.result (branchTo off))
/-- BRZ (R317). -/
def execBrz (a : Reg) (off : BitVec 19) (s : State) : Out State :=
  runWord s (fun e => e.result (fun c => if e.reg a = 0 then branchTo off c else c))
/-- BRNZ (R317). -/
def execBrnz (a : Reg) (off : BitVec 19) (s : State) : Out State :=
  runWord s (fun e => e.result (fun c => if e.reg a = 0 then c else branchTo off c))

/-- BRX's target: bits 55:32 are those of the header VA (R237). -/
def brxTarget (va : VAddr) (b : Word) : VAddr :=
  BitVec.ofNat 56 (va.toNat / 2 ^ 32 * 2 ^ 32 + (va.toNat + 4 * b.toNat) % 2 ^ 32)
/-- BRX (R318). -/
def execBrx (b : Src) (s : State) : Out State :=
  runWord s (fun e => e.result (fun c => c.goto (brxTarget c.va (e.src b))))

/-- CALL (R319): the link is written at commit. -/
def execCall (gl : Fin 120) (off : BitVec 19) (s : State) : Out State :=
  runWord s (fun e => e.result (fun c =>
    branchTo off { c with gw := (gl.val + 1, BitVec.ofNat 32 ((linkOf c).toNat / 2 ^ 32)) ::
                                (gl.val, BitVec.ofNat 32 (linkOf c).toNat) :: c.gw }))

/-- RET's target (R237). -/
def retTarget (lo hi : Word) : VAddr := BitVec.ofNat 56 (hi.toNat % 2 ^ 24 * 2 ^ 32 + lo.toNat / 4 * 4)
/-- RET (R237). -/
def execRet (b : Fin 120) (s : State) : Out State :=
  runWord s (fun e => e.result (·.goto (retTarget (e.g b.val) (e.g (b.val + 1)))))

/-- NOP (R355). -/
def execNop (s : State) : Out State := runWord s (fun e => e.result id)

/-! ## Meeting, leaving, waiting -/

/-- JOIN (R335): the members are the bench's lanes, of which those without a live thread are not awaited. -/
def execJoin (s : State) : Out State :=
  runWord s (fun e => flat do
    let (s', _) ← e.meeting .join (BitVec.ofNat 64 (2 ^ Rec.width e.fm.rcd - 1)) 0
    pure (.done s'))

/-- EXIT (R328): it waits for every earlier clause and every outstanding result (R28, R47). -/
def execExit (s : State) : Out State :=
  runWord s (fun e => flat do
    e.notHeld
    e.waitUnless e.th.lats.isEmpty .drain
    pure (e.result (·.act .exit)))

/-- YIELD (R179). -/
def execYield (s : State) : Out State := runWord s (fun e => e.result (·.act .yield))

/-- SLEEP (R385): b cycles of the cluster's clock, in units of 1/32 cycle (log 7). -/
def execSleep (b : Src) (s : State) : Out State :=
  runWord s (fun e =>
    let now := (e.s.cluster e.fm.cluster).cyc
    match e.cl.wait with
    | .sleep till => if till ≤ now then e.result id else .wait (.sleep till) e.s
    | _ => if e.src b = 0 then e.result id else .wait (.sleep (now + 32 * (e.src b).toNat)) e.s)

/-- Whether the thread's earlier reads are performed: no register result of a load is outstanding (R122). -/
def Thread.readsDone (th : Thread) : Bool := th.lats.all (fun l => decide (l.kind ≠ .value))

/-- Whether an order of FENCE has acquire, and release (R129, R135). -/
def acquires : Order → Bool
  | .rel => false
  | _ => true
def releases : Order → Bool
  | .acq => false
  | _ => true

/-- FENCE (R332): it executes when every earlier clause has committed, and waits for the earlier reads, the earlier
stores, or both. A write is performed for every observer at once (log 3), so the scopes do not differ. -/
def execFence (o : Order) (_sc : Scope) (s : State) : Out State :=
  runWord s (fun e => flat do
    e.notHeld
    e.waitUnless (!acquires o || e.th.readsDone) .fence
    e.waitUnless (!releases o || e.storesDone) .fence
    pure (e.result id))

/-! ## Traps -/

/-- TRAP (R175). -/
def execTrap (b : Src) (s : State) : Out State :=
  runWord s (fun e => .fault 0x0D 0 ((e.src b).toNat % 65536))

/-- The header VA that TPC and TPCHI name (R171). -/
def Thread.tpcVA (th : Thread) : VAddr := BitVec.ofNat 56 (th.tpchi.toNat * 2 ^ 32 + th.tpc.toNat)

/-- RETT (R176): `next` skips the clause at TPC, whose COUNT it fetches. -/
def execRett (nxt : Bool) (s : State) : Out State :=
  runWord s (fun e => flat do
    needCause e.th.trapState 0x03 0
    let h := e.th.tpcVA
    if nxt then
      match e.s.fetch e.th.core e.fm.ctx h.toNat 1 with
      | (s', some ws) =>
        pure (.done (e.upd s' (fun c => (c.goto (addWords h (1 + field (ws.getD 0 0) 31 28))).act (.rett true))))
      | (s', none) => .error (.wait .fetch s')
    else pure (e.result (fun c => (c.goto h).act (.rett false))))

/-! ## The register window (R39 to R41) -/

/-- The place map and W with the clause's earlier PLACEs, GROWs and SHRINKs. -/
def pendingMap (th : Thread) (acts : List CommitAct) : SMap Place × Nat :=
  acts.foldl (fun (m : SMap Place × Nat) a =>
    match a with
    | .place n p => (SMap.set .lane n p m.1, m.2)
    | .grow n => (m.1, m.2 + n)
    | .shrink n => ((List.range n).foldl (fun q i => SMap.set .lane (m.2 - n + i) .lane q) m.1, m.2 - n)
    | _ => m) (th.place, th.w)

/-- Window registers at a place. -/
def countAt (m : SMap Place) (w : Nat) (p : Place) : Nat :=
  ((List.range w).filter (fun n => decide (SMap.get .lane n m = p))).length

/-- No result is outstanding for g registers lo to hi − 1. -/
def Thread.quiet (th : Thread) (lo hi : Nat) : Bool :=
  th.lats.all (fun l => match l.dst with | .g n => decide (n < lo ∨ hi ≤ n) | _ => true)

/-- PLACE (R39). -/
def execPlace (g : Fin 120) (p : Place) (s : State) : Out State :=
  runWord s (fun e => flat do
    let (m, w) := pendingMap e.th e.cl.acts
    needCause (decide (g.val < w)) 0x06 0
    e.notHeld
    e.waitUnless (e.th.quiet g.val (g.val + 1)) .drain
    needCause (decide (SMap.get .lane g.val m = p ∨ p = .lane ∨ countAt m w p < allotOf e.fm.rcd p)) 0x06 0
    pure (e.result (·.act (.place g.val p))))

/-- The words that thread `tid` of a form holds; a never-launched lane has no thread and holds none (R15, R38). -/
def State.threadWords (s : State) (f tid : Nat) : Nat :=
  match Tab.find? (threadKey f tid) s.threads with | some th => th.holds | none => 0

/-- What is kept on a core's cluster for pre-empting forms other than `who` (R165). -/
def State.keptOn (s : State) (who : Option Nat) (cl : Nat) : List Hold :=
  ((s.cluster cl).reserved.filter (fun r => decide (some r.form ≠ who))).flatMap (·.holds)

/-- The words of a lane's share that allotments, granted GROWs, the targets of moves and what is kept for other forms than
`who` hold (R38, R165, R194), for the forms not in `ex`. -/
def State.laneHeld (s : State) (who : Option Nat) (ex : List Nat) (core lane : Nat) : Nat :=
  ((s.threads.filter (fun p => p.2.core == core && p.2.lane == lane && !ex.contains p.2.form)).map (·.2.holds)).sum +
  (s.forms.map (fun p => match p.2.move with
    | some (_, seats) =>
      if ex.contains p.1 then 0
      else (seats.zipIdx.map (fun x =>
        if x.1.core = core ∧ x.1.lane ≤ lane ∧ lane < x.1.lane + Rec.width p.2.rcd then
          s.threadWords p.1 (x.2 * Rec.width p.2.rcd + (lane - x.1.lane)) else 0)).sum
    | none => 0)).sum +
  (((s.keptOn who (core / 8)).flatMap (·.lanes)).map (fun x => if x.1 = core ∧ x.2.1 = lane then x.2.2 else 0)).sum

def State.laneUsed (s : State) (core lane : Nat) : Nat := s.laneHeld none [] core lane

/-- When the thread's waiting GROW began, if it waits in one. -/
def Thread.growing (th : Thread) : Option Nat :=
  th.clauses.findSome? (fun c => match c.wait with | .grow t => some t | _ => none)

/-- An older GROW than the given one waits on the lane (R40: oldest first). Of two whose waits began in one tick that of the
lower thread is the older (log 109). -/
def State.olderGrow (s : State) (core lane since k : Nat) : Bool :=
  s.threads.any (fun p => p.2.core == core && p.2.lane == lane && p.1 != k &&
    (match p.2.growing with | some t => decide (t < since ∨ (t = since ∧ p.1 < k)) | none => false))

/-- GROW (R40). -/
def execGrow (d : Reg) (n : Src) (s : State) : Out State :=
  runWord s (fun e => flat do
    let b := (e.src n).toNat
    let w := (pendingMap e.th e.cl.acts).2
    need (decide (b ≠ 0 ∧ b % 8 = 0 ∧ w + b ≤ 120))
    let since := match e.cl.wait with | .grow t => t | _ => e.s.clock
    e.waitUnless (decide (e.s.laneUsed e.th.core e.th.lane + b ≤ 1792) &&
      !e.s.olderGrow e.th.core e.th.lane since e.k) (.grow since)
    pure (e.result (fun c => (c.put d (BitVec.ofNat 32 (w + b))).act (.grow b))))

/-- A status that the clause is to write into a released register is written nowhere. -/
def CommitAct.lose (lo hi : Nat) (a : CommitAct) : CommitAct :=
  let drop := fun (d : Option Nat) => d.filter (fun n => decide (n < lo ∨ hi ≤ n))
  match a with
  | .arrive id slot d h => .arrive id slot (drop d) h
  | .launch img va pte slot d => .launch img va pte slot (drop d)
  | a => a

/-- What a clause has written to g registers lo to hi − 1 is lost: a later GROW delivers them as 0 (R41). -/
def Clause.lose (lo hi : Nat) (c : Clause) : Clause :=
  { c with gw := c.gw.map (fun p => if lo ≤ p.1 ∧ p.1 < hi then (p.1, 0) else p), acts := c.acts.map (·.lose lo hi) }

/-- SHRINK (R41). -/
def execShrink (n : Src) (s : State) : Out State :=
  runWord s (fun e => flat do
    let b := (e.src n).toNat
    let w := (pendingMap e.th e.cl.acts).2
    need (decide (b ≠ 0 ∧ b % 8 = 0 ∧ 8 + b ≤ w))
    e.notHeld
    e.waitUnless (e.th.quiet (w - b) w) .drain
    pure (e.result (fun c => (c.lose (w - b) w).act (.shrink b))))

/-! ## Special registers (R19, R60, R97, R171, R203, R361 to R363, R392) -/

/-- WSRS of a die (R97). -/
def wsrsOf (clock : Nat) (double : Bool) : Word :=
  let t := clock % 40000
  let till := fun (open_ : Nat) => let d := (open_ + 40000 - t) % 40000; if d = 0 then 40000 else d
  let opens := (List.range 32).map (fun b => (till (640 * b), b)) ++
    (if double then (List.range 32).map (fun b => (till ((20000 + 640 * b) % 40000), b)) else [])
  let best := opens.foldl (fun (m : Nat × Nat) x => if x.1 < m.1 then x else m) (opens.headD (0, 0))
  BitVec.ofNat 32 (best.2 * 2 ^ 27 + (if double then 2 ^ 26 else 0) + best.1)

/-- ALLOT (R363). -/
def allotWord (w : Nat) (r : SMap Word) : Word :=
  BitVec.ofNat 32 (w * 2 ^ 24 + Rec.allotCore r * 2 ^ 16 + Rec.allotCluster r * 2 ^ 8 + Rec.allotPier r)

/-- SHED (R203). -/
def shedWord (f : Form) : Word :=
  BitVec.ofNat 32 ((if f.shed then 128 else 0) + f.prio / 16 * 16 + f.level)

/-- The capture that CLOCKHI reads: the clause's latest CLOCKLO read, else the thread's (R362). -/
def Env.capture (e : Env) : BitVec 64 :=
  (e.cl.acts.reverse.findSome? (fun a => match a with | .clk v => some v | _ => none)).getD e.th.clk

/-- The value of special register n (R361). -/
def Env.special (e : Env) (n : Nat) : Word :=
  let r := e.fm.rcd
  let lit := fun (x : Nat) => BitVec.ofNat 32 x
  match n with
  | 0 => lit e.th.tid | 1 => lit e.th.lane | 2 => lit e.th.bench | 3 => lit e.th.blane | 4 => lit (Rec.width r)
  | 5 => lit (e.fm.lin % Rec.gx r) | 6 => lit (e.fm.lin / Rec.gx r % Rec.gy r)
  | 7 => lit (e.fm.lin / Rec.gx r / Rec.gy r)
  | 8 => lit (Rec.stage r e.th.bench) | 9 => lit (Rec.role r e.th.bench)
  | 10 => lit (e.th.core % 8) | 11 => lit e.fm.cluster | 12 => lit (e.fm.cluster / 16)
  | 13 => lit e.s.clock | 14 => lit (e.capture.toNat / 2 ^ 32)
  | 15 => lit (e.s.passes e.fm.cluster) | 16 => e.th.ns.zeroExtend 32
  | 17 => e.th.tcause | 18 => e.th.tpc | 19 => e.th.tpchi | 20 => e.th.tinfo | 21 => e.th.taddr
  | 22 => wsrsOf e.s.clock (e.s.die (e.fm.cluster / 16)).double
  | 23 => lit e.fm.prio | 24 => shedWord e.fm | _ => allotWord e.th.w r

/-- RDSR (R361): read when every earlier clause has committed; CLOCKLO captures the count (R362). -/
def execRdsr (d : Reg) (r : Fin 26) (s : State) : Out State :=
  runWord s (fun e => flat do
    e.notHeld
    pure (e.result (fun c =>
      let c := c.put d (e.special r.val)
      if r.val = 13 then c.act (.clk (BitVec.ofNat 64 e.s.clock)) else c)))

/-- WRSR (R392). -/
def execWrsr (r : WSr) (b : Src) (s : State) : Out State :=
  runWord s (fun e => flat do
    match r with
    | .ns => pure (e.result (·.act (.wrNs ((e.src b).truncate 5))))
    | .prio =>
      need (decide ((e.src b).toNat < 128))
      pure (e.result (·.act (.wrPrio (e.src b).toNat))))

/-! ## LAUNCH, BIND, chunk bits -/

/-- The thread has no COPY-class operation that is not yet performed (R119, R166). -/
def State.copiesDone (s : State) (cl k : Nat) : Bool :=
  (s.cluster cl).queues.all (fun q => q.2.all (·.thread != k)) && (s.cluster cl).colls.all (·.thread != k)

/-- The state as it will be when the clause's earlier LAUNCHes have committed. -/
def Env.launched (e : Env) : State :=
  e.cl.acts.foldl (fun s a => match a with | .launch img va pte _ _ => (s.launchNode e.fm img va pte).1 | _ => s) e.s

/-- A register destination's number. -/
def gOf : Reg → Option Nat
  | .g n => some n.val
  | _ => none

/-- LAUNCH (R166). A g register receives the status of the insertion at commit (log 1). An N of 2^56 or more, to which the
rule gives no fate, is refused with d = 0 (log 108). -/
def execLaunch (d a : Reg) (b : Fin 120) (s : State) : Out State :=
  runWord s (fun e => flat do
    let h ← liftChk (do
      objCheck e.fm (e.reg a).toNat 128 128 false)
    e.notHeld
    e.waitUnless (e.s.copiesDone e.fm.cluster e.k) .drain
    e.waitUnless ((List.range 32).all (fun i => !e.fm.heldByOther e.k (h.sb + h.rel + 4 * i))) .reservation
    let img := (List.range 32).map (fun i => seenWord e.fm e.cl.hw (h.sb + h.rel + 4 * i))
    let va := e.pair b.val % 2 ^ 64
    let refuse := e.result (·.put d 0)
    if va % 128 ≠ 0 ∨ 2 ^ 56 ≤ va ∨ imgKind img = 2 then pure refuse
    else
      match e.s.xlat1 e.th.core e.fm.ctx va .probe with
      | (s', none) => .error (.wait .fetch s')
      | (s', some t) =>
        if pteType t.pte ≠ 0 ∨ !pteWr t.pte then pure refuse
        else
          let held := e.launched.launchWait e.fm.ctx va t.pte img
          if held.isSome then .error (.wait .fetch (s'.pauseAt e.fm.ctx held))
          else pure (.done (e.upd s' (fun c => (c.put d (boolWord (e.launched.launchable e.fm.ctx img))).act
            (.launch img va t.pte c.gw.length (gOf d))))))

/-- Whether a channel operand of KIND 2 with BAR names a created counter (R109, R305). -/
def State.counterOk (s : State) (c : BitVec 64) : Bool :=
  capKind c == 2 && capBar c && (Tab.find? (capEnd c) s.counters).isSome

/-- BIND (R315): bytes a to a + b − 1, checked in the order of R396. -/
def execBind (a : Reg) (b : Src) (guard : Reg) (kind : GKind) (idx : BitVec 8) (s : State) : Out State :=
  runWord s (fun e => flat do
    let lo := (e.reg a).toNat
    let n := (e.src b).toNat
    let g := (e.reg guard).toNat
    let addr := decide (kind ≠ .none ∧ kind ≠ .chbar)
    let _ ← (if kind = .chbar then capCheck e.fm.rcd g e.s.counterOk else pure 0)
    need (n != 0)
    liftChk (do
      match findSeg e.fm.rcd lo with
      | none => .error (0x07, BitVec.ofNat 32 lo)
      | some sg => do
        chk (decide (lo < 2 ^ 23)) 0x07 lo
        chk (decide (lo + n ≤ sg.base + sg.extent)) 0x07 (sg.base + sg.extent)
        chk (lo % 4 == 0 && n % 4 == 0) 0x08 lo
        chk (!addr || (decide (g < 2 ^ 23) && (findSeg e.fm.rcd g).isSome)) 0x07 g
        chk (!addr || g % 4 == 0) 0x08 g)
    pure (e.result (·.act (.bind { lo := lo, hi := lo + n, kind := kind, guard := e.reg guard, idx := idx }))))

/-- The form as the executing clause's own buffered writes leave it. -/
def Env.seen (e : Env) : Form := e.fm.writes e.cl.hw

/-- Whether the bits of mask b are set in word n of the bitmap at a (R115). -/
def Env.chunkBits (e : Env) (n : Fin 8) (a : Reg) (b : Src) : Except WordOut Bool := do
  let o ← liftChk (objAt e.fm .bitmap (e.reg a).toNat 32 32 true)
  pure (e.fm.word (o + 4 * n.val) &&& e.src b == e.src b)

/-- CWAIT (R115). -/
def execCwait (n : Fin 8) (a : Reg) (b : Src) (s : State) : Out State :=
  runWord s (fun e => flat do
    let ok ← e.chunkBits n a b
    e.waitUnless ok .chunk
    pure (e.result id))

/-- CTEST (R115). -/
def execCtest (n : Fin 8) (d a : Reg) (b : Src) (s : State) : Out State :=
  runWord s (fun e => flat do
    let ok ← e.chunkBits n a b
    pure (e.result (·.put d (boolWord ok))))

/-! ## Save areas (R180, R181) -/

/-- Word k of PLACEMAP (R180). -/
def placeMapWord (m : SMap Place) (k : Nat) : Word :=
  BitVec.ofNat 32 ((List.range 16).foldl (fun n i => n + (SMap.get .lane (16 * k + i) m).code * 4 ^ i) 0)

/-- Counts of token k (R47). -/
def Thread.tokCount (th : Thread) (k : Nat) : Nat :=
  (th.lats.filter (fun l => match l.tok with | some i => i.val == k | none => false)).length

/-- The window registers at a place, ascending. -/
def regsAt (m : SMap Place) (w : Nat) (p : Place) : List Nat :=
  (List.range w).filter (fun n => decide (SMap.get .lane n m = p))

/-- The save area of a place (R180). -/
def Env.saveArea (e : Env) (p : Place) : List Word :=
  let th := e.th
  let rs := regsAt th.place th.w p
  [BitVec.ofNat 32 (0x00010000 + p.code * 256 + rs.length), BitVec.ofNat 32 th.w, th.ns.zeroExtend 32, 0] ++
  (List.range 6).map (fun k => BitVec.ofNat 32 (th.tokCount k)) ++ [0, 0] ++
  (List.range 8).map (placeMapWord th.place) ++ [th.tcause, th.tpc, th.tpchi, th.tinfo, th.taddr] ++
  List.replicate 7 0 ++ rs.map e.g

/-- SAVEP (R180). -/
def execSavep (p : Place) (a : Reg) (s : State) : Out State :=
  runWord s (fun e => flat do
    e.notHeld
    let n := (regsAt e.th.place e.th.w p).length
    let h ← liftChk (objCheck e.fm (e.reg a).toNat (128 + 4 * n) 4 false)
    e.waitUnless (e.th.lats.all Lat.isMatrix) .drain
    e.waitUnless (e.th.lats.isEmpty || (e.fm.mctx (e.fm.fcOf e.th.core)).frozen.isSome) .drain
    pure (e.result (·.store { addr := h.sb + h.rel, bytes := (e.saveArea p).flatMap (fun w => leBytes 4 w.toNat),
                              tag := .full })))

/-- The place map of an area's PLACEMAP words (R181). -/
def areaPlaces (area : List Word) : SMap Place :=
  (List.range 120).foldl (fun m n =>
    SMap.set .lane n (placeOfCode (bitsOf (area.getD (12 + n / 16) 0).toNat (2 * (n % 16) + 1) (2 * (n % 16)))) m) []

/-- A place map keeps the allotments (R37). -/
def mapOk (r : SMap Word) (w : Nat) (m : SMap Place) : Bool :=
  decide (countAt m 120 .core ≤ Rec.allotCore r ∧ countAt m 120 .cluster ≤ Rec.allotCluster r ∧
    countAt m 120 .pier ≤ Rec.allotPier r) &&
  (List.range 120).all (fun n => decide (n < w) || decide (SMap.get .lane n m = .lane))

/-- LOADP (R181): the registers are buffered as any result; the rest of the thread's state is written at commit. The extent
that the address checks take is that of the area's own n (log 98). -/
def execLoadp (p : Place) (a : Reg) (s : State) : Out State :=
  runWord s (fun e => flat do
    e.notHeld
    let hd ← e.rawImage (e.reg a) 128 4 false
    let n := (hd.getD 0 0).toNat % 256
    let area ← e.rawImage (e.reg a) (128 + 4 * n) 4 false
    let id := (area.getD 0 0).toNat
    needCause (id / 65536 == 1) 0x12 0
    need (id / 256 % 256 == p.code)
    let m := if p = .lane then areaPlaces area else e.th.place
    need (decide (p ≠ .lane) || area.getD 1 0 == BitVec.ofNat 32 e.th.w)
    needCause (decide (p ≠ .lane) || mapOk e.fm.rcd e.th.w m) 0x06 0
    let rs := regsAt m e.th.w p
    need (n == rs.length)
    pure (e.result (fun c =>
      { c with gw := (rs.zipIdx.map (fun (x : Nat × Nat) => (x.1, area.getD (32 + x.2) 0))).reverse ++ c.gw }.act (.loadp p area))))

end Sys2Proof.Machine
end

