-- ==== Sys2Proof/Machine/Sync.lean ====
section
/-! DEFINITION. Barriers, grid barrier counters, rings, and the messages of channels (R304 to R309, R364, R365, R367 to
R373, R377). -/

namespace Sys2Proof.Machine

/-! ## Barrier objects (R304 to R309) -/

def arrivedOf (w : Word) : Nat := w.toNat % 65536

/-- Word 0 of a barrier after one more arrival (R306). -/
def arriveWord (w target : Word) : Word :=
  if arrivedOf w + 1 = target.toNat then BitVec.ofNat 32 ((phaseOf w + 1) % 65536 * 65536)
  else BitVec.ofNat 32 (phaseOf w * 65536 + (arrivedOf w + 1) % 65536)

/-- A word of the object at storage address o, as the clause sees it. -/
def Env.objWord (e : Env) (o : Nat) : Word := seenWord e.fm e.cl.hw o

/-- A write of words to an object, whose tags stay. -/
def objStore (o : Nat) (ws : List Word) : HallW :=
  { addr := o, bytes := ws.flatMap (fun w => leBytes 4 w.toNat), tag := .keep }

/-- BARINIT (R308). -/
def execBarinit (a : Reg) (b : Src) (s : State) : Out State :=
  runWord s (fun e => flat do
    e.notHeld
    need (decide (1 ≤ (e.src b).toNat ∧ (e.src b).toNat ≤ 4096))
    let h ← liftChk (objCheck e.seen (e.reg a).toNat 8 8 false)
    let o := h.sb + h.rel
    let s' ← e.reserve [o / 4, o / 4 + 1]
    pure (.done (e.upd s' (·.store { objStore o [0, e.src b] with tag := .object .barrier }))))

/-- The channel checks of BARARR and BARWAIT with FN 1 (R109, R305): the counter's id. -/
def Env.counter (e : Env) (n : Nat) : Except WordOut (Nat × Counter) := do
  let c ← capCheck e.fm.rcd n e.s.counterOk
  match Tab.find? (capEnd c) e.s.counters with
  | some x => .ok (capEnd c, x)
  | none => .error (.fault 0x0A 0 0)

/-- How many arrivals at a counter a list of acts holds. -/
def arrivalsIn (id : Nat) (acts : List CommitAct) : Nat :=
  (acts.filter (fun a => match a with | .arrive i _ _ _ => i == id | _ => false)).length

/-- Whether a clause of the thread holds a counter: it has given its phase to a temporary and has not committed (R306). -/
def Thread.holdsCounter (th : Thread) (id : Nat) : Bool :=
  (th.clauses.flatMap (·.acts)).any (fun a => match a with | .arrive i _ _ h => h && i == id | _ => false)

/-- Whether a thread other than k holds a counter. -/
def State.counterHeld (s : State) (id k : Nat) : Bool := s.threads.any (fun p => p.1 != k && p.2.holdsCounter id)

def isTemp : Reg → Bool
  | .t _ => true
  | _ => false

/-- BARARR (R306). For a channel the arrival is performed at commit, which is when a g register's phase is known; a
temporary needs it at once, and its clause then holds the counter, which accepts no other arrival until the clause has
committed or is discarded (log 71). -/
def execBararr (ch : Bool) (d a : Reg) (s : State) : Out State :=
  runWord s (fun e => flat do
    e.notHeld
    if ch then
      let (id, c) ← e.counter (e.reg a).toNat
      e.stored
      e.waitUnless (!e.s.counterHeld id e.k) .channelBarrier
      let v := BitVec.ofNat 32 (c.phase.toNat + (c.arrived + arrivalsIn id e.cl.acts) / c.target)
      pure (e.result (fun x => (x.put d v).act (.arrive id x.gw.length (gOf d) (isTemp d))))
    else
      let o ← liftChk (objAt e.seen .barrier (e.reg a).toNat 8 8)
      e.stored
      let s' ← e.reserve [o / 4, o / 4 + 1]
      let w := e.objWord o
      pure (.done (e.upd s' (fun c =>
        ((c.put d (BitVec.ofNat 32 (phaseOf w))).store (objStore o [arriveWord w (e.objWord (o + 4))])).act .barrier))))

/-- Whether the phase that thread k's BARWAIT waits for has completed (R309). -/
def Form.waitDone (f : Form) (k : Nat) : Bool :=
  f.waiters.any (fun x => x.thread == k && decide (x.kind = .barrier) && x.done)

/-- BARWAIT (R309). A thread that waited for a released grid barrier goes on when its cluster is reached (R168), and one
whose phase completed in its wait goes on whatever has become of the object since. -/
def execBarwait (ch : Bool) (a : Reg) (b : Src) (s : State) : Out State :=
  runWord s (fun e => flat do
    e.notHeld
    if ch then
      let (_, c) ← e.counter (e.reg a).toNat
      let waited := decide (e.cl.wait = .channelBarrier) && c.order.contains (e.fm.cluster, e.src b)
      e.waitUnless (phaseDone 32 c.phase.toNat (e.src b).toNat && !waited) .channelBarrier
      pure (e.result id)
    else if e.fm.waitDone e.k then
      pure (.done (e.upd (e.s.modForm e.th.form (fun f => f.leave e.k .barrier)) id))
    else
      let o ← liftChk (objAt e.seen .barrier (e.reg a).toNat 8 8)
      e.waitUnless (!e.fm.heldByOther e.k o) .reservation
      if phaseDone 16 (phaseOf (e.objWord o)) (e.src b).toNat then
        pure (.done (e.upd (e.s.modForm e.th.form (fun f => f.leave e.k .barrier)) id))
      else .error (.wait .barrier (e.s.modForm e.th.form
        (fun f => f.enqueue e.k .barrier [o / 4] e.cl.seq (e.src b).toNat))))

/-- Whether a BARWAIT waits on the barrier object at storage address o: it is in its queue, and its phase has not
completed (R27, R309). -/
def Form.waitedOn (f : Form) (o : Nat) : Bool :=
  f.waiters.any (fun x => decide (x.kind = .barrier) && x.addrs.contains (o / 4) && !x.done &&
    !phaseDone 16 (phaseOf (f.word o)) x.phase)

/-- BARFREE (R307). -/
def execBarfree (a : Reg) (s : State) : Out State :=
  runWord s (fun e => flat do
    e.notHeld
    let o ← liftChk (objAt e.seen .barrier (e.reg a).toNat 8 8)
    let s' ← e.reserve [o / 4, o / 4 + 1]
    needCause (!e.fm.waitedOn o) 0x09 (e.reg a)
    pure (.done (e.upd s' (·.store { objStore o [0, 0] with tag := .plain }))))

/-! ## Rings (R367 to R373) -/

def ringSlots (w0 : Word) : Nat := w0.toNat / 256 % 16
def ringProd (w0 : Word) : Nat := w0.toNat % 8
def ringCons (w0 : Word) : Nat := w0.toNat / 16 % 8
def ringPersist (w0 : Word) : Bool := w0.toNat / 4096 % 2 == 1
def slotState (w : Word) : Nat := w.toNat % 4
def slotSeq (w : Word) : Nat := w.toNat / 65536
def slotWord (seq st : Nat) : Word := BitVec.ofNat 32 (seq % 65536 * 65536 + st)

/-- The reserved bits of a ring's word 0, and its SLOTS (R369, R370). -/
def ringOk (b : Word) : Bool :=
  b.toNat / 8192 == 0 && b.toNat / 128 % 2 == 0 && b.toNat / 8 % 2 == 0 && decide (1 ≤ ringSlots b ∧ ringSlots b ≤ 12)

/-- RINGINIT (R370). -/
def execRinginit (a : Reg) (b : Src) (s : State) : Out State :=
  runWord s (fun e => flat do
    e.notHeld
    let w0 := e.src b
    need (ringOk w0)
    let n := 4 + 2 * ringSlots w0
    let h ← liftChk (objCheck e.seen (e.reg a).toNat (4 * n) 32 false)
    let o := h.sb + h.rel
    let s' ← e.reserve ((List.range n).map (· + o / 4))
    pure (.done (e.upd s' (·.store { objStore o (w0 :: List.replicate (n - 1) 0) with tag := .object .ring }))))

/-- A ring as an instruction finds it: its storage address and word 0. -/
structure RingRef where
  o : Nat
  w0 : Word

def RingRef.words (r : RingRef) : List Nat := (List.range (4 + 2 * ringSlots r.w0)).map (· + r.o / 4)

/-- While a clause of another thread holds the ring's words, a ring instruction waits, in the ring's queue if it waits for
a slot (R371). -/
def Env.ringTurn (e : Env) (o : Nat) (kind : Option WaitKind) : Except WordOut Unit :=
  if e.fm.heldByOther e.k o then
    .error (.wait .reservation (match kind with
      | some q => e.s.modForm e.th.form (fun f => f.enqueue e.k q [o / 4] e.cl.seq)
      | none => e.s))
  else .ok ()

/-- The checks that the ring instructions share, in the order of R371; the ring's contents are judged once no other
clause holds its words. -/
def Env.ring (e : Env) (a : Reg) (stage : Word → Nat) (kind : Option WaitKind) : Except WordOut RingRef := do
  e.notHeld
  let o ← liftChk (objAddr e.seen (e.reg a).toNat 4 32)
  e.ringTurn o kind
  needCause (decide (Tab.find? (o / 4) e.seen.objs = some .ring)) 0x04 (e.reg a)
  let r : RingRef := { o := o, w0 := e.objWord o }
  (match (r.words.find? (fun w => decide (e.seen.tag (4 * w) = .poisoned))) with
   | some w => .error (.fault 0x0F (e.reg a + BitVec.ofNat 32 (4 * w - o)) 0) | none => .ok ())
  needCause (Rec.stage e.fm.rcd e.th.bench == stage r.w0) 0x0B 0
  pure r

def Env.slot (e : Env) (r : RingRef) (n : Nat) : Word := e.objWord (r.o + 4 * (4 + 2 * n))

/-- Reserve a ring's words while the instruction is served, or wait. -/
def Env.ringHold (e : Env) (r : RingRef) : Except WordOut State := do
  e.waitUnless (r.words.all (fun w => !e.fm.heldByOther e.k (4 * w))) .reservation
  pure (e.s.modForm e.th.form (fun f => { f with
    resv := f.resv ++ r.words.map (fun w => (w, e.k)),
    waiters := f.waiters.filter (fun x => !(x.thread == e.k && decide (x.kind = .ringAcq ∨ x.kind = .ringTake))) }))

/-- Be served oldest first once the slot is as it must be, else wait in the ring's queue (R367, R373). -/
def Env.ringServe (e : Env) (r : RingRef) (kind : WaitKind) (ready : Bool) : Except WordOut State :=
  if ready && e.fm.firstIs e.k kind (r.o / 4) then e.ringHold r
  else .error (.wait .ring (e.s.modForm e.th.form (fun f => f.enqueue e.k kind [r.o / 4] e.cl.seq)))

/-- RINGACQ (R367). -/
def execRingacq (d a : Reg) (s : State) : Out State :=
  runWord s (fun e => flat do
    let r ← e.ring a ringProd (some .ringAcq)
    let acq := (e.objWord (r.o + 4)).toNat % 65536
    let n := acq % ringSlots r.w0
    let s' ← e.ringServe r .ringAcq (slotState (e.slot r n) == 0)
    pure (.done (e.upd s' (fun c =>
      ((c.put d (BitVec.ofNat 32 n)).store (objStore (r.o + 4) [BitVec.ofNat 32 ((acq + 1) % 65536)])).store
        (objStore (r.o + 4 * (4 + 2 * n)) [slotWord (slotSeq (e.slot r n) + 1) 1, BitVec.ofNat 32 e.th.tid])))))

/-- RINGTAKE (R373). -/
def execRingtake (d a : Reg) (s : State) : Out State :=
  runWord s (fun e => flat do
    let r ← e.ring a ringCons (some .ringTake)
    let take := (e.objWord (r.o + 8)).toNat % 65536
    let n := take % ringSlots r.w0
    let s' ← e.ringServe r .ringTake (slotState (e.slot r n) == 2)
    pure (.done (e.upd s' (fun c =>
      ((c.put d (BitVec.ofNat 32 n)).store (objStore (r.o + 8) [BitVec.ofNat 32 ((take + 1) % 65536)])).store
        (objStore (r.o + 4 * (4 + 2 * n)) [slotWord (slotSeq (e.slot r n)) 3, BitVec.ofNat 32 e.th.tid])))))

/-- RINGPUB (R371): the slot must be acquired, and becomes published. -/
def execRingpub (a : Reg) (b : Src) (s : State) : Out State :=
  runWord s (fun e => flat do
    let r ← e.ring a ringProd none
    let n := (e.src b).toNat
    need (decide (n < ringSlots r.w0) && slotState (e.slot r n) == 1)
    e.stored
    let s' ← e.ringHold r
    pure (.done (e.upd s' (·.store (objStore (r.o + 4 * (4 + 2 * n)) [slotWord (slotSeq (e.slot r n)) 2])))))

/-- RINGDONE (R368): the slot must be taken, and becomes free; at commit a ring that no one keeps or waits on is
released. -/
def execRingdone (a : Reg) (b : Src) (s : State) : Out State :=
  runWord s (fun e => flat do
    let r ← e.ring a ringCons none
    let n := (e.src b).toNat
    need (decide (n < ringSlots r.w0) && slotState (e.slot r n) == 3)
    e.stored
    let s' ← e.ringHold r
    pure (.done (e.upd s' (fun c =>
      (c.store (objStore (r.o + 4 * (4 + 2 * n)) [slotWord (slotSeq (e.slot r n)) 0])).act (.ringdone r.o n)))))

/-- RINGDONE's decision at commit: a ring whose slots are all free, that does not persist, and on which no RINGACQ or
RINGTAKE waits is released (R368). -/
def Form.endRing (f : Form) (o : Nat) : Form :=
  let w0 := f.word o
  let idle := (List.range (ringSlots w0)).all (fun i => slotState (f.word (o + 4 * (4 + 2 * i))) == 0)
  let waited := f.waiters.any (fun x => decide (x.kind = .ringAcq ∨ x.kind = .ringTake) && x.addrs.contains (o / 4))
  if decide (Tab.find? (o / 4) f.objs = some .ring) && idle && !ringPersist w0 && !waited then
    f.write { objStore o (List.replicate (4 + 2 * ringSlots w0) 0) with tag := .plain }
  else f

/-! ## Channels (R364, R365, R377) -/

/-- The FIFO from one form of a launch to another. -/
def fifoKey (node src dst : Nat) : Nat := node * 2 ^ 128 + src * 2 ^ 64 + dst
/-- The mailbox n of a function. -/
def mailKey (fn n : Nat) : Nat := fn * 16 + n

/-- Whether a channel may carry messages in the direction that `may` reads (R109, R163). -/
def messageOk (r : SMap Word) (may : BitVec 64 → Bool) (c : BitVec 64) : Bool :=
  may c && ((capKind c == 3 && decide (capEnd c < Rec.forms r)) || (capKind c == 4 && decide (capEnd c < 16)))

/-- How often outstanding clauses hold an act. -/
def State.heldActs (s : State) (p : Nat → Thread → CommitAct → Nat) : Nat :=
  s.threads.foldl (fun n x => n + ((x.2.clauses.flatMap (·.acts)).map (p x.1 x.2)).sum) 0

/-- Words in a mailbox's outbound FIFO. -/
def State.mailUsed (s : State) (key : Nat) : Nat := ((Tab.getD [] key s.mailOut).map (·.words.length)).sum

/-- Words that executed SENDs have reserved in mailbox n of a function (R364). -/
def State.mailHeld (s : State) (fn n : Nat) : Nat :=
  s.heldActs (fun _ th a => match a with
    | .send m ws => (match Tab.find? th.form s.forms with
      | some f => if f.fn = fn ∧ capKind (Rec.cap f.rcd m) = 4 ∧ capEnd (Rec.cap f.rcd m) = n then ws.length else 0
      | none => 0)
    | _ => 0)

/-- The free allowance of a SEND capability covers a message of n words (R364, R377). -/
def Env.allowed (e : Env) (cap : Nat) (c : BitVec 64) (n : Nat) : Bool :=
  let held := e.s.heldActs (fun _ th a => match a with
    | .send m _ => if th.form = e.th.form ∧ m = cap then 1 else 0 | _ => 0)
  let room := if capKind c = 4 then
      e.s.mailUsed (mailKey e.fm.fn (capEnd c)) + n + e.s.mailHeld e.fm.fn (capEnd c)
    else 0
  decide (SMap.get 0 cap e.fm.sent + held < capAllow c ∧ room ≤ 16)

/-- SEND (R377). -/
def execSend (wide : Bool) (a : Reg) (b : Src) (s : State) : Out State :=
  runWord s (fun e => flat do
    e.notHeld
    let n := (e.reg a).toNat
    let c ← capCheck e.fm.rcd n (messageOk e.fm.rcd capSend)
    let msg := match wide, b with
      | true, .reg r => [e.reg r, e.reg (regSucc r)]
      | _, _ => [e.src b]
    e.waitUnless (e.allowed n c msg.length) .channel
    pure (e.result (·.act (.send n msg))))

/-- The source of a RECV: whether a peer's FIFO, and its key. -/
def sourceOf (f : Form) (c : BitVec 64) : Bool × Nat :=
  if capKind c = 3 then (true, fifoKey f.node (capEnd c) f.lin) else (false, mailKey f.fn (capEnd c))

/-- The messages that a source holds, oldest first. -/
def State.messages (s : State) (src : Bool × Nat) : List (List Word) :=
  if src.1 then (Tab.getD [] src.2 s.fifos).map (·.words) else Tab.getD [] src.2 s.mailIn

/-- The queue key of a source. -/
def sourceKey (src : Bool × Nat) : Nat := 2 * src.2 + (if src.1 then 1 else 0)

/-- Take a place in the queue of a source, once (R365). -/
def State.queueRecv (s : State) (k : Nat) (src : Bool × Nat) : State :=
  if s.chanWait.any (fun x => x.thread == k) then s
  else { s with chanWait := s.chanWait ++ [{ thread := k, kind := .recv, addrs := [sourceKey src] }] }

def isRecv (src : Bool × Nat) (a : CommitAct) : Nat :=
  match a with | .recv p k => if (p, k) = src then 1 else 0 | _ => 0

/-- RECV (R365): it waits its turn, then for a message, and reserves the oldest. -/
def execRecv (wide : Bool) (d a : Reg) (s : State) : Out State :=
  runWord s (fun e => flat do
    e.notHeld
    let c ← capCheck e.fm.rcd (e.reg a).toNat (messageOk e.fm.rcd capRecv)
    let src := sourceOf e.fm c
    let others := e.s.heldActs (fun k _ x => if k = e.k then 0 else isRecv src x)
    let mine := (e.cl.acts.map (isRecv src)).sum
    let first := match e.s.chanWait.find? (fun x => x.addrs.contains (sourceKey src)) with
      | some x => x.thread == e.k | none => true
    let rest := e.s.chanWait.filter (fun x => x.thread != e.k)
    match (e.s.messages src)[mine]? with
    | some (m :: ms) =>
      if others = 0 ∧ first = true then
        need (decide (ms.length = (if wide then 1 else 0)))
        pure (.done (e.upd { e.s with chanWait := rest } (fun c =>
          let c := c.put d m
          let c := match wide, ms with | true, m2 :: _ => c.put (regSucc d) m2 | _, _ => c
          c.act (.recv src.1 src.2))))
      else .error (.wait .channel (e.s.queueRecv e.k src))
    | _ => .error (.wait .channel (e.s.queueRecv e.k src)))

end Sys2Proof.Machine
end

