-- ==== Sys2Proof/Machine/Copy.lean ====
section
/-! DEFINITION. The COPY class: what a copy names and how its elements are laid out and converted (R82, R108 to R119,
R321, R325, R326). The engines that perform the operations are in CopyEngine.lean. -/

namespace Sys2Proof.Machine

/-! ## Sides of a copy -/

/-- Where a copy address lies: in the form's hall, or in memory by translation (R82). -/
inductive Loc where
  | hall (a : Nat)
  | mem (va : Nat)
  deriving DecidableEq, Repr

def locOf (va : Nat) : Loc := if va / 2 ^ 48 = 0xFE then .hall (va % 2 ^ 48) else .mem va
def Loc.isHall : Loc → Bool
  | .hall _ => true
  | .mem _ => false

/-- The entry among the given ones that translates a VA. -/
def entryFor (es : List TlbEntry) (ctx va : Nat) : Option TlbEntry := es.find? (·.hits ctx va)

/-- Format and geometry at an address, where a segment holds it or one of the given entries translates it. -/
def formatAt (r : SMap Word) (es : List TlbEntry) (ctx va : Nat) : Option (Nat × Nat) :=
  match locOf va with
  | .hall a => (findSeg r a).map (fun g => (g.fmt, g.geom))
  | .mem v => (entryFor es ctx v).map (fun e => (pteFmt e.pte, pteGeom e.pte))

/-- The offset of an address from a block boundary's origin: its segment's base, or any page's. -/
def relOf (r : SMap Word) (va : Nat) : Nat :=
  match locOf va with
  | .hall a => match findSeg r a with | some g => a - g.base | none => a
  | .mem v => v

/-- Where storage bytes stand. -/
inductive Store where
  | hall (o : Nat)
  | phys (pa : Nat)
  deriving DecidableEq, Repr

/-- The storage behind an address: where its segment's or page's storage begins, and the offset in the view. -/
def storeAt (r : SMap Word) (es : List TlbEntry) (ctx va : Nat) : Option (Store × Nat) :=
  match locOf va with
  | .hall a => (findSeg r a).map (fun g => (.hall (storeBase r g), a - g.base))
  | .mem v => (entryFor es ctx v).map (fun e => (.phys (pteFrame e.pte), v % pageBytes e.size))

def Store.add (k : Nat) : Store → Store
  | .hall o => .hall (o + k)
  | .phys pa => .phys (pa + k)

/-- The storage bytes of n view bytes of a raw or FP32 side, each where its own segment or page puts it. -/
def bytesAt (r : SMap Word) (es : List TlbEntry) (ctx va n : Nat) : Option (List Store) :=
  (List.range n).mapM (fun i => (storeAt r es ctx (va + i)).map (fun x => x.1.add x.2))

/-! ## The plan of a bulk copy (R111 to R113) -/

/-- A plan with the formats found at its two sides; a side without a translation counts as raw until it has one (log 45). -/
def Plan.formats (p : Plan) (x y : Option (Nat × Nat)) : Plan :=
  { p with sf := (x.getD (0, 0)).1, sg := (x.getD (0, 0)).2, df := (y.getD (0, 0)).1, dg := (y.getD (0, 0)).2,
           known := x.isSome && y.isSome }

/-- The leaf entry of an address as a core would find it: its L1 TLB first. -/
def State.seek1 (s : State) (core ctx va : Nat) : Option TlbEntry :=
  match (s.core core).l1.find? (·.hits ctx va) with
  | some e => some e
  | none => (s.seek (core / 8) ctx va).map (tlbOf ctx va)

/-- The layout record as CPY judges it at issue (R111): the formats are those of the first byte of each side (log 45). -/
def planOf (s : State) (core : Nat) (f : Form) (rc : List Word) : Plan :=
  let w := fun k => (rc.getD k 0).toNat
  let src := w 0 + 2 ^ 32 * w 1
  let dst := w 2 + 2 ^ 32 * w 3
  let at_ := fun va => formatAt f.rcd (match locOf va with
    | .hall _ => [] | .mem v => (s.seek1 core f.ctx v).toList) f.ctx va
  Plan.formats { src := src, dst := dst, cols := w 4, rows := w 5, sstr := w 6, dstr := w 7, sf := 0, sg := 0, df := 0,
                 dg := 0, known := false } (at_ src) (at_ dst)

/-- E: 1 when both sides are raw, else 4 (R111). -/
def Plan.e (p : Plan) : Nat := if p.sf = 0 ∧ p.df = 0 then 1 else 4
/-- Bytes of a row as addressed. -/
def Plan.rowLen (p : Plan) : Nat := p.cols * p.e
/-- The last written offset (R113). -/
def Plan.last (p : Plan) : Nat := (p.rows - 1) * p.dstr + p.rowLen - 1
/-- The last bitmap bit of the copy. -/
def Plan.lastChunk (p : Plan) : Nat := p.last / 512
def Plan.sameFmt (p : Plan) : Bool := p.sf == p.df && p.sg == p.dg

/-- Whether every row that starts at `rel` + row × `str` starts on a block boundary of g elements. -/
def onBlocks (rel str rows g : Nat) : Bool := rel % (4 * g) == 0 && (decide (rows ≤ 1) || str % (4 * g) == 0)

/-- Whether the copy moves storage bits, scales and metadata included (R112). -/
def Plan.storage (p : Plan) (srel : Nat) : Bool :=
  p.sameFmt && (unitElems p.sf p.sg == 1 || onBlocks srel p.sstr p.rows (unitElems p.sf p.sg))

/-- Elements that are written together: a block with its scale, an SP24 unit, else one. -/
def Plan.unit (p : Plan) : Nat := unitElems p.df p.dg

/-- Storage offset of the unit at offset `rel` of a view, and the storage bytes of a unit. -/
def unitOff (fmt geom rel : Nat) : Nat :=
  if expanded fmt then rel / 4 / unitElems fmt geom * unitBytes fmt geom else rel
def unitLen (fmt geom e : Nat) : Nat := if expanded fmt then unitBytes fmt geom else e

/-- The storage bytes of the unit at an address of a side of the given format; none where the side has another format
there, or no translation. -/
def unitPlace (r : SMap Word) (es : List TlbEntry) (ctx fmt geom e va : Nat) : Option (List Store) :=
  if formatAt r es ctx va ≠ some (fmt, geom) then none
  else if expanded fmt then
    (storeAt r es ctx va).map (fun x =>
      (List.range (unitBytes fmt geom)).map (fun i => x.1.add (unitOff fmt geom x.2 + i)))
  else bytesAt r es ctx va e

/-- Overlap of the two extents in VA (R111). -/
def Plan.overlaps (p : Plan) : Bool :=
  let sEnd := p.src + (p.rows - 1) * p.sstr + p.rowLen
  let dEnd := p.dst + (p.rows - 1) * p.dstr + p.rowLen
  decide (p.src < dEnd ∧ p.dst < sEnd)

/-- The units of the copy, row by row: source address and destination address. -/
def Plan.units (p : Plan) : List (Nat × Nat) :=
  (List.range p.rows).flatMap (fun i => (List.range (p.cols / p.unit)).map (fun j =>
    (p.src + i * p.sstr + j * p.unit * p.e, p.dst + i * p.dstr + j * p.unit * p.e)))

/-- The addressed bytes of a unit. -/
def Plan.span (p : Plan) : Nat := p.unit * p.e

/-- The chunks in which a unit has bytes (R113). -/
def Plan.chunksOf (p : Plan) (u : Nat × Nat) : List Nat :=
  let lo := (u.2 - p.dst) / 512
  (List.range ((u.2 - p.dst + p.span - 1) / 512 + 1 - lo)).map (· + lo)

/-- The units that write chunk c (R113). -/
def Plan.unitsOf (p : Plan) (c : Nat) : List (Nat × Nat) := p.units.filter (fun u => (p.chunksOf u).contains c)

/-- Chunks 0 to the last that the strides skip (R114). -/
def Plan.skipped (p : Plan) : List Nat := (List.range (p.lastChunk + 1)).filter (fun c => (p.unitsOf c).isEmpty)

/-! ## Checks at issue (R113, R396) -/

/-- SP24 of another format or geometry, which no copy writes (R112). -/
def Plan.badSP24 (p : Plan) : Bool := isSP24 p.df && !p.sameFmt

/-- The limits on counts, partial blocks and the last offset (R111 to R113): cause 0x04. -/
def Plan.limits (p : Plan) (r : SMap Word) : Bool :=
  decide (1 ≤ p.cols ∧ p.cols < 65536 ∧ 1 ≤ p.rows ∧ p.rows < 65536) &&
  (p.unit == 1 || p.badSP24 || (onBlocks (relOf r p.dst) p.dstr p.rows p.unit && p.cols % p.unit == 0)) &&
  (!(isSP24 p.df && p.sameFmt) || p.storage (relOf r p.src)) && decide (p.last < 131072)

/-- Whether a side's elements stand at whole element slots (R71). -/
def slotsOk (r : SMap Word) (fmt va str rows : Nat) : Bool := !expanded fmt || onBlocks (relOf r va) str rows 1

/-- The first of n hall bytes from a that lies in no extent (R86), segment by segment; there are sixteen. -/
def rangeOutside (r : SMap Word) : Nat → Nat → Nat → Option Nat
  | 0, a, _ => some a
  | fuel + 1, a, n =>
    if n = 0 then none
    else
      match (if a < 2 ^ 23 then findSeg r a else none) with
      | none => some a
      | some g =>
        let room := g.base + g.extent - a
        if n ≤ room then none else rangeOutside r fuel (a + room) (n - room)

/-- The first hall byte of a side that lies in no extent. -/
def rowsOutside (r : SMap Word) (base str rows len : Nat) : Option Nat :=
  (List.range rows).findSome? (fun i => rangeOutside r 17 (base + i * str) len)

/-- Cause 0x07 for one side (R82, R113). -/
def sideCheck (r : SMap Word) (va str rows len : Nat) : Chk Unit :=
  match locOf va with
  | .mem _ => .ok ()
  | .hall a =>
    match (if 2 ^ 23 ≤ a then some a else rowsOutside r a str rows len) with
    | some b => .error (0x07, BitVec.ofNat 32 b)
    | none => .ok ()

/-- The first hall address of a destination whose storage holds an object word, or a word of the copy's own bitmap. -/
def objectInDest (f : Form) (p : Plan) (bm : Nat) : Option Nat :=
  match locOf p.dst with
  | .mem _ => none
  | .hall _ => p.units.findSome? (fun u =>
      ((unitPlace f.rcd [] f.ctx p.df p.dg p.e u.2).getD []).zipIdx.findSome? (fun x =>
        match x.1 with
        | .hall o =>
          if f.tag o = .object ∨ (bm / 4 ≤ o / 4 ∧ o / 4 < bm / 4 + 8) then some (u.2 % 2 ^ 48 + storageView p.df p.dg x.2)
          else none
        | .phys _ => none))

/-- Whether part of a range translates to the weight store (R98). -/
def State.hitsWeights (s : State) (cl ctx va n : Nat) : Bool :=
  (pagesOf va n).any (fun v => match s.seek cl ctx v with | some e => pteType e == 1 | none => false)

/-- The bitmap rows of R113 one by one: in an extent; aligned and raw; no object of another kind; not poisoned. The
bitmap's storage address. -/
def bitmapExtent (f : Form) (a : Nat) : Chk HallRef := do
  match firstOutside f.rcd a 32 with
  | some b => .error (0x07, BitVec.ofNat 32 b)
  | none =>
    match resolve f.rcd a with
    | none => .error (0x07, BitVec.ofNat 32 a)
    | some h => .ok h
def bitmapAlign (h : HallRef) (a : Nat) : Chk Unit := do
  chk (a % 32 == 0) 0x08 a
  chk (h.seg.fmt == 0) 0x08 a
  chk (decide (h.rel + 32 ≤ h.seg.extent)) 0x08 (h.seg.base + h.seg.extent)
def bitmapKind (f : Form) (a o : Nat) : Chk Unit :=
  if Tab.find? (o / 4) f.objs = some .bitmap then .ok ()
  else match (List.range 32).find? (fun i => decide (f.tag (o + i) = .object)) with
    | some i => .error (0x09, BitVec.ofNat 32 (a + i)) | none => .ok ()
def bitmapPoison (f : Form) (a o : Nat) : Chk Unit :=
  match (List.range 32).find? (fun i => decide (f.tag (o + i) = .poisoned)) with
  | some i => .error (0x0F, BitVec.ofNat 32 (a + i)) | none => .ok ()

/-- The bitmap of a collective (R321). -/
def bitmapCheck (f : Form) (a : Nat) : Chk Nat := do
  let h ← bitmapExtent f a
  bitmapAlign h a
  bitmapKind f a (h.sb + h.rel)
  bitmapPoison f a (h.sb + h.rel)
  pure (h.sb + h.rel)

/-- TADDR of a side: its hall address, 0 for a side in memory. -/
def hallOr0 (va : Nat) : Nat := match locOf va with | .hall a => a | .mem _ => 0

/-- The address rows of R113, the highest row first, and within a row the bitmap, the source and the destination, as the
word and its record name them. The bitmap's storage address. -/
def cpyCheck (f : Form) (p : Plan) (a : Nat) : Chk Nat := do
  let h ← bitmapExtent f a
  sideCheck f.rcd p.src p.sstr p.rows p.rowLen
  sideCheck f.rcd p.dst p.dstr p.rows p.rowLen
  bitmapAlign h a
  chk (slotsOk f.rcd p.sf p.src p.sstr p.rows) 0x08 (hallOr0 p.src)
  chk (!p.badSP24 && slotsOk f.rcd p.df p.dst p.dstr p.rows) 0x08 (hallOr0 p.dst)
  bitmapKind f a (h.sb + h.rel)
  (match objectInDest f p (h.sb + h.rel) with | some x => .error (0x09, BitVec.ofNat 32 x) | none => .ok ())
  bitmapPoison f a (h.sb + h.rel)
  pure (h.sb + h.rel)

/-- The eight record words at sR. -/
def Env.record (e : Env) (n : Nat) : List Word := (List.range 8).map (fun i => e.sreg (n + i))

/-- Note the record's registers: the clause commits only while they hold these words (R111, R119). -/
def Clause.noteRec (c : Clause) (n : Nat) (rc : List Word) : Clause :=
  { c with recs := c.recs ++ rc.zipIdx.map (fun p => (n + p.2, p.1)) }

/-- A copy channel: KIND 0, CRD for a source and CWR for a destination outside the hall (R109, R113). -/
def copyOk (rd wr : Bool) (c : BitVec 64) : Bool := capKind c == 0 && (!rd || capCrd c) && (!wr || capCwr c)

/-- CPY (R325). The record is judged here and captured at commit, which executes the word again when a register of it
has changed since. The weight-store check looks at the whole extent of the destination, gaps included (log 39). -/
def execCpy (ch : Fin 64) (a : Reg) (r : Fin 384) (s : State) : Out State :=
  runWord s (fun e => flat do
    e.notHeld
    let rc := e.record r.val
    let p := planOf e.s e.th.core e.fm rc
    let cap ← capCheck e.fm.rcd ch.val (copyOk (!(locOf p.src).isHall) (!(locOf p.dst).isHall))
    need (decide (p.src < 2 ^ 56 ∧ p.dst < 2 ^ 56) && p.limits e.fm.rcd)
    let bm ← liftChk (cpyCheck e.fm p (e.reg a).toNat)
    needCause ((locOf p.dst).isHall || !e.s.hitsWeights e.fm.cluster e.fm.ctx p.dst (p.last + 1)) 0x0C 0
    e.stored
    pure (e.result (fun c =>
      (c.act (.copy [capEnd cap] (.bulk p bm (List.range (p.lastChunk + 1)) none))).noteRec r.val rc)))

/-- The extent check of a hall side of a fine-grain copy, with its storage place (R118). -/
def fineSpan (f : Form) (a n : Nat) : Chk (Seg × Nat) :=
  match firstOutside f.rcd a n with
  | some b => .error (0x07, BitVec.ofNat 32 b)
  | none =>
    match resolve f.rcd a with
    | none => .error (0x07, BitVec.ofNat 32 a)
    | some h => .ok (h.seg, h.sb + h.rel)

/-- The object check of a hall side of a fine-grain copy (R118); poison is judged as the bytes move (R89). -/
def fineTags (f : Form) (a o n : Nat) : Chk Unit :=
  match (List.range n).find? (fun i => decide (f.tag (o + i) = .object)) with
  | some i => .error (0x09, BitVec.ofNat 32 (a + i)) | none => .ok ()

/-- The checks that CPYG and CPYS share, in the order of R118: capability, VA (R326), then 0x07, 0x08 and 0x09 of the hall
side and of a VA in the hall window, and the weight-store destination. -/
def Env.fine (e : Env) (ch : Nat) (rd : Bool) (a : Reg) (b size : Nat) :
    Except WordOut (State × Nat × Nat × Nat) := do
  e.notHeld
  let c ← capCheck e.fm.rcd ch (copyOk rd (!rd))
  let va := e.pair b
  need (decide (va < 2 ^ 56))
  let h := (e.reg a).toNat
  let (g, o) ← liftChk (fineSpan e.fm h size)
  let win := match locOf va with | .hall x => some x | .mem _ => none
  let far ← liftChk (match win with
    | some x => if x < 2 ^ 23 then (fineSpan e.fm x size).map (fun p => some (x, p)) else .error (0x07, BitVec.ofNat 32 x)
    | none => .ok none)
  liftChk (chk (h % size == 0 && g.fmt == 0) 0x08 h)
  needCause (va % size == 0) 0x08 (BitVec.ofNat 32 (win.getD 0))
  liftChk (match far with | some (x, (gf, _)) => chk (gf.fmt == 0) 0x08 x | none => .ok ())
  liftChk (fineTags e.fm h o size)
  liftChk (match far with | some (x, (_, of)) => fineTags e.fm x of size | none => .ok ())
  needCause (rd || win.isSome || !e.s.hitsWeights e.fm.cluster e.fm.ctx va size) 0x0C 0
  pure (e.s, capEnd c, va, o)

/-- CPYG (R326). -/
def execCpyg (wide : Bool) (ch : Fin 64) (a : Reg) (b : Fin 120) (s : State) : Out State :=
  runWord s (fun e => flat do
    let size := if wide then 16 else 8
    let (s', q, va, o) ← e.fine ch.val true a b.val size
    e.stored
    pure (.done (e.upd s' (·.act (.copy [q] (.gather size o va))))))

/-- CPYS (R326): the hall bytes are read as the clause commits. -/
def execCpys (wide : Bool) (ch : Fin 64) (a : Reg) (b : Fin 120) (s : State) : Out State :=
  runWord s (fun e => flat do
    let size := if wide then 16 else 8
    let (s', q, va, o) ← e.fine ch.val false a b.val size
    e.stored
    e.waitUnless ((wordsOfSpan o size).all (fun w => !e.fm.heldByOther e.k (4 * w))) .reservation
    pure (.done (e.upd s' (·.act (.scatter q o size va)))))

/-- QFENCE (R117). -/
def execQfence (ch : Fin 64) (m : Fin 384) (s : State) : Out State :=
  runWord s (fun e => flat do
    e.notHeld
    let mask := (e.sreg m.val).toNat + 2 ^ 32 * (e.sreg (m.val + 1)).toNat
    let ok := fun (n : Nat) => capValid (Rec.cap e.fm.rcd n) && capKind (Rec.cap e.fm.rcd n) == 0
    let set := (List.range 64).filter (fun n => mask / 2 ^ n % 2 == 1)
    needCause (ok ch.val && (mask == 0 || (set.all ok && set.contains ch.val))) 0x0A 0
    let qs := (set.map (fun n => capEnd (Rec.cap e.fm.rcd n))).dedup
    if mask = 0 then pure (e.result id) else pure (e.result (·.act (.copy qs (.qfence qs)))))

/-! ## Collectives (R119, R321) -/

def recVA (rc : List Word) (k : Nat) : Nat := (rc.getD k 0).toNat + 2 ^ 32 * (rc.getD (k + 1) 0).toNat
def recN (rc : List Word) : Nat := (rc.getD 2 0).toNat
def recTransport (rc : List Word) : Nat := (rc.getD 3 0).toNat

/-- The record limits of R119 that register values alone decide. -/
def collLimits (gather : Bool) (rc : List Word) : Bool :=
  decide (recVA rc 0 < 2 ^ 56) && recVA rc 0 % 64 == 0 && decide (32 ≤ recN rc ∧ recN rc ≤ 2 ^ 26) &&
  recN rc % 32 == 0 &&
  (if gather then recTransport rc == 1 || recTransport rc == 0 else recTransport rc == 3 || recTransport rc == 1) &&
  (if !gather && recTransport rc == 3 then decide (recVA rc 4 < 2 ^ 56) else recVA rc 4 == 0) && rc.getD 7 0 == 0

/-- Whether n bytes at va lie outside the hall window, and every page of them that translates is an FP32 page, in HBM where
that is asked (R119). -/
def State.fp32Pages (s : State) (cl ctx va n : Nat) (hbm : Bool) : Bool :=
  (pagesOf va n).all (fun v => !(locOf v).isHall && match s.seek cl ctx v with
    | some e => pteFmt e == 1 && (!hbm || pteType e == 0) | none => true)

/-- The bytes of the buffer that a member knows to be written: those of CRED's n elements; those of CGATH up to its own
n elements, at its member index (R108, R120). -/
def collBytes (gather : Bool) (c : BitVec 64) (rc : List Word) : Nat :=
  4 * recN rc * (if gather then capMember c + 1 else 1)

/-- Whether a collective writes a residual buffer (R119). -/
def hasResidual (gather : Bool) (rc : List Word) : Bool := !gather && recTransport rc == 3

/-- Whether a destination of a collective translates to the weight store (R98). -/
def State.collWeights (s : State) (cl ctx : Nat) (gather : Bool) (c : BitVec 64) (rc : List Word) : Bool :=
  s.hitsWeights cl ctx (recVA rc 0) (collBytes gather c rc) ||
  (hasResidual gather rc && s.hitsWeights cl ctx (recVA rc 4) (4 * recN rc))

/-- CRED and CGATH at issue (R321): the record's limits, then the bitmap, then the weight store. The record is captured
at commit, as CPY's is. -/
def collective (gather : Bool) (ch : Fin 64) (a : Reg) (r : Fin 384) (bit : Fin 256) (s : State) : Out State :=
  runWord s (fun e => flat do
    e.notHeld
    let rc := e.record r.val
    let cap ← capCheck e.fm.rcd ch.val (fun c => capKind c == 1 && capCrd c && capCwr c)
    need (collLimits gather rc)
    let weights := e.s.collWeights e.fm.cluster e.fm.ctx gather cap rc
    need (weights || (e.s.fp32Pages e.fm.cluster e.fm.ctx (recVA rc 0) (collBytes gather cap rc) true &&
      (!hasResidual gather rc || e.s.fp32Pages e.fm.cluster e.fm.ctx (recVA rc 4) (4 * recN rc) false)))
    let bm ← liftChk (bitmapCheck e.fm (e.reg a).toNat)
    needCause (!weights) 0x0C 0
    let x : Coll :=
      { id := e.s.serial, thread := e.k, form := e.th.form, node := none, cap := cap, gather := gather, rc := rc,
        bit := some (bm, bit.val), before := [] }
    pure (.done (e.upd e.s.fresh (fun c => (c.act (.coll x)).noteRec r.val rc))))

/-- CRED (R321). -/
def execCred (ch : Fin 64) (a : Reg) (r : Fin 384) (bit : Fin 256) (s : State) : Out State :=
  collective false ch a r bit s

/-- CGATH (R321). -/
def execCgath (ch : Fin 64) (a : Reg) (r : Fin 384) (bit : Fin 256) (s : State) : Out State :=
  collective true ch a r bit s

end Sys2Proof.Machine
end

