-- ==== Sys2Proof/Machine/Matrix.lean ====
section
/-! DEFINITION. The MATRIX class: rolls and signing, the operands of the array, the signature stage, SPK, and freezing
(R136 to R156, R344 to R350, R353, R378 to R380, R386). The array's own acts are in MatrixEngine.lean. -/

namespace Sys2Proof.Machine

/-! ## Rolls (R138, R139) -/

/-- The thread indices of a roll's set with their ranks. -/
def Roll.ranks (r : Roll) : List (Nat × Nat) :=
  (((List.range 64).filter (fun i => r.mask.getLsbD i)).map (· + r.base)).zipIdx.map (fun p => (p.2, p.1))
def Roll.has (r : Roll) (tid : Nat) : Bool := decide (r.base ≤ tid) && r.mask.getLsbD (tid - r.base) && decide (tid < r.base + 64)
def Roll.size (r : Roll) : Nat := r.ranks.length

/-- Whether a thread of a form is live: it has not exited. -/
def State.liveThread (s : State) (f tid : Nat) : Bool :=
  match Tab.find? (threadKey f tid) s.threads with
  | some th => decide (th.status ≠ .exited)
  | none => false

/-- The rank of each signature of a round, in rank order. -/
def Roll.signed (r : Roll) (f : Nat) : List (Nat × Sig) :=
  r.ranks.filterMap (fun p => (r.sigs.find? (fun x => x.thread == threadKey f p.2)).map (fun x => (p.1, x)))

/-- Every live member has signed (R139). -/
def State.roundFull (s : State) (f : Nat) (r : Roll) : Bool :=
  !r.sigs.isEmpty && r.ranks.all (fun p => !s.liveThread f p.2 || r.sigs.any (fun x => x.thread == threadKey f p.2))

/-- MSTORE, SGBKT and SGSUM write memory: a round issues only after they have (R140). -/
def writesMemory : Instr → Bool
  | .mstore _ _ _ _ => true
  | .sgbkt _ _ _ _ _ _ _ _ => true
  | .sgsum _ _ _ _ _ => true
  | _ => false

/-- Whether a clause of one of an operation's signers has not committed. A discarded clause leaves no effect, so the
operation is performed after it (R53, R134). -/
def State.uncommitted (s : State) (f op : Nat) : Bool :=
  (s.threadsOf f).any (fun p => (opsOf p.2.clauses).contains op)

/-- Whether an operation cannot be performed before a round issues: a clause that signed it waits for a round, and no
effect of that clause may be seen before it commits (R51, R134). -/
def State.heldBack (s : State) (f : Nat) (o : MOp) : Bool :=
  (s.threadsOf f).any (fun p => p.2.clauses.any (fun c => decide (c.wait = .roll) && (opsOf [c]).contains o.id))

/-- A round is ready to issue (R139, R140, R153): every earlier operation that writes memory has performed its writes, but
for those that wait for a clause which itself waits for a round (log 77). None issues while a committed MSAVE or MRESTORE
still waits. -/
def State.roundReady (s : State) (f : Nat) (c : MCtx) (r : Roll) : Bool :=
  s.roundFull f r && c.frozen.isNone && c.ops.all (fun o => o.late.isNone &&
    (!writesMemory o.ins || (c.ops.takeWhile (fun p => p.id != o.id) ++ [o]).any (s.heldBack f)))

/-! ## The limiter's requests (R191) -/

def Cluster.runOf (c : Cluster) (core : Nat) : CoreRun := Tab.getD .idle core c.run

/-- Whether a roll operation is ready to issue on a core, or in flight there. -/
def State.coreReady (s : State) (core : Nat) : Bool :=
  s.forms.any (fun p => p.2.cores.contains core && decide (p.2.phase = .running ∨ p.2.phase = .yielding) &&
    (let c := p.2.mctx (p.2.fcOf core); c.rolls.any (fun r => s.roundReady p.1 c r.2)))
def State.coreBusy (s : State) (core : Nat) : Bool :=
  s.forms.any (fun p => p.2.cores.contains core &&
    (p.2.mctx (p.2.fcOf core)).ops.any (fun o => !o.rows.isEmpty))

/-- The entries of a ramp table (R192): up to the first 0. -/
def rampTable (w : Word) : List Nat :=
  ((List.range 8).map (fun e => w.toNat / 16 ^ e % 16)).takeWhile (· != 0)
def Cluster.active (c : Cluster) : Nat := (c.run.filter (fun p => decide (p.2 ≠ .idle))).length
/-- The smallest index whose entry is at least active, else the last. -/
def Cluster.fit (c : Cluster) : Nat :=
  let t := rampTable c.ramp
  min (t.findIdx (fun x => decide (c.active ≤ x))) (t.length - 1)

/-- A step boundary in this cycle: a written table is adopted with i clamped (R192), then i is updated; at a ramp start
i fits the active cores, and at another boundary it rises by one while a request was waiting in the cycle before (R191). -/
def Cluster.stepBoundary (c : Cluster) (ramp : Bool) : Cluster :=
  let c1 := match c.rampNext with
    | some w => { c with ramp := w, rampNext := none, rampIdx := min c.rampIdx ((rampTable w).length - 1) }
    | none => c
  let i := if !ramp && c.waitedBefore then min (c1.rampIdx + 1) ((rampTable c1.ramp).length - 1) else c1.fit
  { c1 with rampIdx := i, boundary := if ramp then c.cyc else c.boundary + 128 }

/-- The place of a core among the requests of one cycle: first the cores that a barrier release has reached, in its core
order, then the others in ascending core index (R168, R191). A core keeps its place from the release until it is granted
(R277, log 83). -/
def Cluster.placeOf (c : Cluster) (core : Nat) : Nat :=
  if c.reached.contains core then c.reached.findIdx (· == core) else 4096 + core

/-- A core that is granted leaves its place among those that a release has reached. -/
def Cluster.leave (c : Cluster) (core : Nat) : Cluster :=
  { c with reached := c.reached.map (fun x => if x = core then 8 else x) }

/-- A release reaches some cores, in its order, after those that an earlier one has reached (R168). -/
def Cluster.reach (c : Cluster) (cores : List Nat) : Cluster :=
  let old := c.reached.map (fun x => if cores.contains x then 8 else x)
  { c with reached := (if c.requests.isEmpty then old.filter (· != 8) else old) ++ cores }

/-- Whether a waiting request goes before one that begins at a tick with a place. -/
def goesBefore (tick place : Nat) (p : Nat × Nat × Nat) : Bool := decide (p.1 < tick ∨ (p.1 = tick ∧ p.2.1 ≤ place))

/-- A core requests; with no request waiting in the cycle before, the cycle is a ramp start. -/
def Cluster.request (c : Cluster) (tick core : Nat) : Cluster :=
  let at_ := c.placeOf core
  let older := c.requests.filter (goesBefore tick at_)
  let younger := c.requests.filter (fun p => !goesBefore tick at_ p)
  let c := if c.requests.isEmpty ∧ !c.waitedBefore ∧ c.boundary ≠ c.cyc then c.stepBoundary true else c
  { c with requests := older ++ [(tick, at_, core)] ++ younger }

/-- Every core of a cluster that is ready and neither active nor waiting requests (R191). -/
def State.askSlew (s : State) (cl : Nat) : State :=
  (List.range 8).foldl (fun s k =>
    let c := s.cluster cl
    if c.runOf k = .idle ∧ !c.requests.any (fun p => p.2.2 == k) ∧ s.coreReady (8 * cl + k) then
      s.modCluster cl (fun c => c.request s.clock k)
    else s) s

/-! ## Rows and tiles (R143, R144, R147) -/

/-- A 256-byte row in one segment, without the checks of its tags: those of a fetched row are made at the fetch. -/
def rowShape (f : Form) (a : Nat) : Chk HallRef := do
  match firstOutside f.rcd a 1 with
  | some b => .error (0x07, BitVec.ofNat 32 b)
  | none =>
    match resolve f.rcd a with
    | none => .error (0x07, BitVec.ofNat 32 a)
    | some h => do
      chk (decide (h.rel + 256 ≤ h.seg.extent)) 0x07 (h.seg.base + h.seg.extent)
      chk (a % 4 == 0) 0x08 a
      chk (!(isSP24 h.seg.fmt || h.seg.geom != 0) || h.rel / 4 % 64 == 0) 0x08 a
      pure h

/-- A 64-row tile in the hall: its whole 16 KiB view in one segment, and no SP24 (R144, R147). -/
def tileShape (f : Form) (a : Nat) (sp24 : Bool) : Chk HallRef := do
  match firstOutside f.rcd a 1 with
  | some b => .error (0x07, BitVec.ofNat 32 b)
  | none =>
    match resolve f.rcd a with
    | none => .error (0x07, BitVec.ofNat 32 a)
    | some h => do
      chk (decide (h.rel + 16384 ≤ h.seg.extent)) 0x07 (h.seg.base + h.seg.extent)
      chk (a % 4 == 0) 0x08 a
      chk (!(isSP24 h.seg.fmt || h.seg.geom != 0) || h.rel / 4 % 64 == 0) 0x08 a
      chk (sp24 || !isSP24 h.seg.fmt) 0x08 a
      pure h

/-- Storage bytes of 64 elements of a format. -/
def rowBytes (fmt geom : Nat) : Nat := 64 / unitElems fmt geom * unitBytes fmt geom

/-- A tile in the weight window (R144). -/
def windowTile (f : Form) (b : Nat) : Chk Unit := do
  let u := rowBytes (Rec.wformat f.rcd) (Rec.wgeom f.rcd)
  chk (decide (b < Rec.wsize f.rcd) && b % u == 0) 0x07 b
  chk (decide (b + 64 * u ≤ Rec.wsize f.rcd)) 0x07 (Rec.wsize f.rcd)
  chk (!isSP24 (Rec.wformat f.rcd)) 0x08 b

/-- Element i of a storage as an A row element (R73, R147). -/
def mElem (fmt geom : Nat) (rd : Bytes) (i : Nat) : MElem :=
  if isSP24 fmt ∧ (elemBits fmt geom rd i).isNone then .skip else .val (elemMatrix fmt geom rd i)

/-- The committed storage of a hall reference. -/
def Form.bytesAt (f : Form) (h : HallRef) : Bytes := storage f [] h.sb

def rowA (f : Form) (h : HallRef) : List MElem :=
  (List.range 64).map (fun k => mElem h.seg.fmt h.seg.geom (f.bytesAt h) (h.rel / 4 + k))
/-- A row of FP32 values as a BFMA operand reads them (R71). -/
def rowFP (f : Form) (h : HallRef) : List Word :=
  (List.range 64).map (fun k => elemFP h.seg.fmt h.seg.geom (f.bytesAt h) (h.rel / 4 + k))
/-- Element k after a reference's own. -/
def HallRef.elem (h : HallRef) (k : Nat) : HallRef := { h with rel := h.rel + 4 * k }

/-- The view address of the first of some elements, from a resolved address on, whose storage is poisoned: of the byte
itself in a raw or FP32 view. -/
def firstPoison (f : Form) (h : HallRef) (idx : List Nat) : Option Nat :=
  idx.findSome? (fun k =>
    let a := h.seg.base + h.rel + 4 * k
    (((h.elem k).span f .load 4).find? (fun o => decide (f.tag o = .poisoned))).map (fun o =>
      if expanded h.seg.fmt then a else h.seg.base + (o - h.sb)))

/-- A row that is read: its words are not poisoned (R89, R143). -/
def rowRead (f : Form) (a : Nat) : Chk HallRef := do
  let h ← rowShape f a
  match firstPoison f h (List.range 64) with | some x => .error (0x0F, BitVec.ofNat 32 x) | none => .ok h

/-- The storage spans of the stores that write a row: element by element, as ST.w does (R143), or, where the instruction
chooses the scale of each block, block by block (R66). -/
def rowUnits (f : Form) (scales : Bool) (h : HallRef) : List (List Nat) :=
  let g := unitElems h.seg.fmt h.seg.geom
  if scales && h.seg.geom != 0 then
    (List.range (64 / g)).map (fun j => (List.range (g + 1)).map (· + (h.sb + (h.rel / 4 / g + j) * (g + 1))))
  else (List.range 64).map (fun k => (h.elem k).span f .store 4)

/-- A row that is written in the given units: no SP24 (R71), no object anywhere in it, and no poisoned word that a unit
writes in part (R89, R143, R396). -/
def rowStore (f : Form) (a : Nat) (units : HallRef → List (List Nat)) (sp24 : Bool := false) : Chk HallRef := do
  let h ← rowShape f a
  chk (sp24 || !isSP24 h.seg.fmt) 0x08 a
  let at_ := fun (o : Nat) => BitVec.ofNat 32 (h.seg.base + storageView h.seg.fmt h.seg.geom (o - h.sb))
  (match (units h).flatten.find? (fun o => decide (f.tag o = .object)) with
   | some o => .error (0x09, at_ o) | none => .ok ())
  match (units h).findSome? (fun u => u.find? (fun o => decide (f.tag o = .poisoned) && !wholeWord u o)) with
  | some o => .error (0x0F, at_ o)
  | none => .ok h

/-- The 64 × 64 values of a hall tile and of a window tile. -/
def tileVals (f : Form) (h : HallRef) : List (List Val) :=
  (List.range 64).map (fun r => (List.range 64).map (fun k =>
    elemMatrix h.seg.fmt h.seg.geom (f.bytesAt h) (h.rel / 4 + 64 * r + k)))
def windowVals (s : State) (f : Form) (b : Nat) : List (List Val) :=
  let fmt := Rec.wformat f.rcd
  let geom := Rec.wgeom f.rcd
  let base := b / rowBytes fmt geom * 64
  (List.range 64).map (fun r => (List.range 64).map (fun k => elemMatrix fmt geom (windowBytes s f) (base + 64 * r + k)))

/-! ## Implicit convolution (R146) -/

structure Conv where
  n : Nat
  h : Nat
  w : Nat
  c : Nat
  fh : Nat
  fw : Nat
  sy : Nat
  sx : Nat
  dy : Nat
  dx : Nat
  py : Nat
  px : Nat
  pad : Word
  input : Nat

def convOf (rc : List Word) : Conv :=
  let lo := fun k => (rc.getD k 0).toNat % 65536
  let hi := fun k => (rc.getD k 0).toNat / 65536
  { n := lo 0, h := hi 0, w := lo 1, c := hi 1, fh := lo 2, fw := hi 2, sy := lo 3, sx := hi 3, dy := lo 4, dx := hi 4,
    py := lo 5, px := hi 5, pad := rc.getD 6 0, input := (rc.getD 7 0).toNat }

/-- floor((x + 2 pad − d (f − 1) − 1) / s) + 1, 0 where it is below 1. -/
def convOut (x pad d f s : Nat) : Nat :=
  (((x : Int) + 2 * pad - d * (f - 1 : Nat) - 1) / (s : Int) + 1).toNat
def Conv.oh (v : Conv) : Nat := convOut v.h v.py v.dy v.fh v.sy
def Conv.ow (v : Conv) : Nat := convOut v.w v.px v.dx v.fw v.sx

/-- The limits of R146. -/
def Conv.ok (v : Conv) (p kb : Nat) : Bool :=
  decide (1 ≤ v.n ∧ 1 ≤ v.h ∧ 1 ≤ v.w ∧ 1 ≤ v.c ∧ 1 ≤ v.fh ∧ 1 ≤ v.fw ∧ 1 ≤ v.sy ∧ 1 ≤ v.sx ∧ 1 ≤ v.dy ∧ 1 ≤ v.dx) &&
  (match valOfFP32 v.pad with | .fin _ _ _ => true | _ => false) &&
  decide (1 ≤ v.oh ∧ 1 ≤ v.ow ∧ p < v.n * v.oh * v.ow ∧ kb * 64 < v.fh * v.fw * v.c)

/-- What stands at position kk of K-block kb for output p: an element's index in the tensor, the pad, or nothing. -/
inductive ConvAt where
  | elem (i : Nat)
  | pad
  | skip

def Conv.at_ (v : Conv) (p kb kk : Nat) : ConvAt :=
  let q := 64 * kb + kk
  if v.fh * v.fw * v.c ≤ q then .skip
  else
    let n := p / (v.oh * v.ow)
    let oy := p / v.ow % v.oh
    let ox := p % v.ow
    let c := q % v.c
    let fw := q / v.c % v.fw
    let fh := q / (v.c * v.fw)
    let iy : Int := (oy * v.sy : Nat) - (v.py : Int) + (fh * v.dy : Nat)
    let ix : Int := (ox * v.sx : Nat) - (v.px : Int) + (fw * v.dx : Nat)
    if iy < 0 ∨ (v.h : Int) ≤ iy ∨ ix < 0 ∨ (v.w : Int) ≤ ix then .pad
    else .elem (((n * v.h + iy.toNat) * v.w + ix.toNat) * v.c + c)

/-- An element of MMCONV's input tensor: its LD.w value (R346, R71), an integer as its FP32 value (log 32), which the
array takes as its format's class has it (R73). -/
def convElem (fmt geom : Nat) (rd : Bytes) (i : Nat) : Val :=
  let v := valOfFP32 (elemFP fmt geom rd i)
  if taperedClass fmt then v else flushBF16 (rnBF16 v)

/-- The generated A row of MMCONV (R146); a position that SP24 skips is skipped (R74, R147). -/
def convRow (f : Form) (v : Conv) (h : HallRef) (p kb : Nat) : List MElem :=
  (List.range 64).map (fun kk => match v.at_ p kb kk with
    | .skip => .skip
    | .pad => .pad (valOfBF16 (rnBF16 (valOfFP32 v.pad)))
    | .elem i =>
      let k := h.rel / 4 + i
      if isSP24 h.seg.fmt ∧ (elemBits h.seg.fmt h.seg.geom (f.bytesAt h) k).isNone then .skip
      else .val (convElem h.seg.fmt h.seg.geom (f.bytesAt h) k))

/-- The elements that a generated row reads. -/
def convReads (v : Conv) (p kb : Nat) : List Nat :=
  (List.range 64).filterMap (fun kk => match v.at_ p kb kk with | .elem i => some i | _ => none)

/-- The checks of an MMCONV signer's tensor, those of an A row for the whole tensor (R143, R146). -/
def convShape (f : Form) (v : Conv) : Chk HallRef := do
  match firstOutside f.rcd v.input 1 with
  | some b => .error (0x07, BitVec.ofNat 32 b)
  | none =>
    match resolve f.rcd v.input with
    | none => .error (0x07, BitVec.ofNat 32 v.input)
    | some h => do
      chk (decide (h.rel + 4 * (v.n * v.h * v.w * v.c) ≤ h.seg.extent)) 0x07 (h.seg.base + h.seg.extent)
      chk (v.input % 4 == 0) 0x08 v.input
      chk (!(isSP24 h.seg.fmt || h.seg.geom != 0) || h.rel / 4 % 64 == 0) 0x08 v.input
      pure h

/-! ## The buckets of SGBKT (R150) -/

/-- The buckets of a round: their members in rank order, leaders ascending. -/
def buckets (rows : List (Nat × Sig)) : List (List (Nat × Sig)) :=
  rows.foldl (fun bs p =>
    match bs.findIdx? (fun b => match b with | q :: _ => q.2.a == p.2.a | [] => false) with
    | some j => bs.modify j (· ++ [p])
    | none => bs ++ [[p]]) []

/-- The squared norm of a row, fused. -/
def normOf (r : List Word) : Word := r.foldl (fun s x => rnFma s x x) (0 : Word)

/-- The FP32 row that a rank presented, as it was read at issue. -/
def MOp.wordsOf (o : MOp) (rank : Nat) : List Word :=
  (((List.zip o.rows o.words).find? (fun p => p.1.1 == rank)).map (·.2)).getD []
/-- The storage bytes of that row. -/
def MOp.rawOf (o : MOp) (rank : Nat) : List Byte :=
  (((List.zip o.rows o.raw).find? (fun p => p.1.1 == rank)).map (·.2)).getD []

/-- The member of a bucket with the largest norm: ties to the lower rank, NaN below every number. -/
def maxNormOf (o : MOp) (b : List (Nat × Sig)) : Option (Nat × Sig) :=
  let n := fun (p : Nat × Sig) => valOfFP32 (normOf (o.wordsOf p.1))
  match b with
  | [] => none
  | p :: r => some (r.foldl (fun m q =>
      if n m == .nan && n q != .nan then q else if (n m).lt (n q) then q else m) p)

/-- The representative of a bucket, by its rank (R150). -/
def MOp.repOf (o : MOp) (m : Rep) (b : List (Nat × Sig)) : Nat :=
  match m with
  | .maxnorm => ((maxNormOf o b).map (·.1)).getD 0
  | _ => (b.map (·.1)).headD 0

/-- FN, the offset and the staging address of SGBKT. -/
def MOp.staging (o : MOp) : Rep × Nat × Nat :=
  let stage := match o.rows with | p :: _ => (p.2.extra.getD 2 0).toNat | [] => 0
  match o.ins with
  | .sgbkt m _ _ _ _ _ _ off => (m, off.val, stage)
  | _ => (.first, 0, 0)

/-- SGBKT's map words by rank: compact index, representative and size of the rank's bucket (R150). -/
def MOp.mapWords (o : MOp) : List (Nat × Word) :=
  let (m, off, _) := o.staging
  (buckets o.rows).zipIdx.flatMap (fun x => x.1.map (fun p =>
    (p.1, BitVec.ofNat 32 (off + x.2 + o.repOf m x.1 * 256 + x.1.length * 65536))))

/-! ## Signing (R139) -/

/-- The key part of an instruction: word 0 bits 31:14 with the other parts that R139, R346, R378 and R380 name, its
register operands left out. -/
def keyInstr : Instr → Instr
  | .mma z ws x acc roll _ _ => .mma z ws x acc roll .z (.reg .z)
  | .mmconv z ws x acc roll _ _ _ kb => .mmconv z ws x acc roll .z (.reg .z) 0 kb
  | .mload acc roll _ => .mload acc roll .z
  | .mstore acc roll _ _ => .mstore acc roll .z (.reg .z)
  | .sgbkt m _ roll _ _ sS sL off => .sgbkt m .z roll .z (.reg .z) sS sL off
  | .sgsum m roll _ sS _ => .sgsum m roll .z sS .z
  | i => i

/-- An operation of one thread, without rows or writes. -/
def MOp.thread (id : Nat) (ins : Instr) : MOp :=
  { id := id, ins := ins, rows := [], a := [], b := [], words := [], writes := [], grp := 0, nextGroup := 0 }

/-- The form's core index of the executing thread, and its context there. -/
def Env.fc (e : Env) : Nat := e.fm.fcOf e.th.core
def Env.ctx (e : Env) : MCtx := e.fm.mctx e.fc

/-- A signer's word is done: its completion is outstanding, with D for SGBKT, given as its code and its map word. -/
def Clause.sealed (c : Clause) (op : Nat) (d : Option (Nat × Word)) : Clause :=
  match d with
  | some (code, v) =>
    let c := if 120 ≤ code ∧ code < 124 then { c with temps := SMap.set 0 (code - 120) v c.temps } else c
    { c with lats := c.lats ++ [{ tok := none, dst := if code < 120 then .g code else .none, val := v,
                                  kind := .matrix op }] }
  | none => c.putDone .none (.matrix op)

/-- D of a signer of an operation with SGBKT, and its map word as the round stands. -/
def MOp.dOf (o : MOp) (sg : Sig) : Option (Nat × Word) :=
  match o.ins with
  | .sgbkt _ _ _ _ _ _ _ _ =>
    let rank := ((o.rows.find? (fun p => p.2.thread == sg.thread)).map (·.1)).getD 64
    some ((sg.extra.getD 1 0).toNat, (o.mapWords.lookup rank).getD 0)
  | _ => none

/-- A signer whose clause is executed again gives an issued operation the operands that its registers hold now; where
they have changed, the operation reads its rows anew, from the hall of its issue (log 69). -/
def MOp.resign (o : MOp) (sg : Sig) (hall : Memory) : MOp :=
  if o.rows.any (fun p => p.2 == sg) then o
  else { o with rows := o.rows.map (fun p => if p.2.thread = sg.thread then (p.1, sg) else p), base := some (o.base.getD hall) }

/-- The word of a round that has issued, executed again: its checks are made again where its operands have changed, and it
is done. -/
def Env.signedAgain (e : Env) (op : Nat) (sg : Sig) (check : Chk Unit) : WordOut := flat do
  match e.ctx.ops.find? (fun o => o.id == op) with
  | none => pure (e.result (·.sealed op none))
  | some o =>
    liftChk (if o.rows.any (fun p => p.2 == sg) then .ok () else check)
    let s' := e.s.modForm e.th.form (fun f => f.modCtx e.fc (fun c =>
      { c with ops := c.ops.map (fun x => if x.id = op then x.resign sg e.fm.hall else x) }))
    pure (.done (e.upd s' (·.sealed op ((o.resign sg e.fm.hall).dOf sg))))

/-- Sign a roll (R139): membership, the signer's own operands, the key; then the signature waits for its round. -/
def Env.sign (e : Env) (roll : Nat) (ins : Instr) (a b : Word) (key extra : List Word) (check : Chk Unit) :
    WordOut := flat do
  let r := e.ctx.roll roll
  let sg : Sig := { thread := e.k, set := e.cl.hdr.set, a := a, b := b, extra := extra, ins := ins }
  match e.cl.signed.lookup e.idx with
  | some op => pure (e.signedAgain op sg check)
  | none =>
  e.waitUnless e.ctx.frozen.isNone .frozen
  if r.sigs.any (fun x => x.thread == e.k) then e.waitIn .roll
  else
    needCause (r.has e.th.tid) 0x14 0
    liftChk check
    need (r.sigs.isEmpty || decide (r.key = some (keyInstr ins, key)))
    let r' : Roll := { r with key := some (keyInstr ins, key), sigs := r.sigs ++ [sg] }
    let s' := e.s.modForm e.th.form (fun f => f.modCtx e.fc (fun c => c.setRoll roll r'))
    .error (.wait .roll (s'.askSlew e.fm.cluster))

/-- MMA's B operand at the signer (R144). -/
def Env.tileCheck (e : Env) (ws : Bool) (b : Nat) : Chk Unit :=
  if ws then windowTile e.fm b else (tileShape e.fm b false).map (fun _ => ())

/-- MMA (R345). -/
def execMma (z ws x : Bool) (acc : Fin 4) (roll : Fin 16) (a : Reg) (b : Src) (s : State) : Out State :=
  runWord s (fun e => e.sign roll.val (.mma z ws x acc roll a b) (e.reg a) (e.src b) [e.src b] [] (do
    let _ ← rowShape e.fm (e.reg a).toNat
    e.tileCheck ws (e.src b).toNat))

/-- MMCONV (R346). -/
def execMmconv (z ws x : Bool) (acc : Fin 4) (roll : Fin 16) (a : Reg) (b : Src) (r : Fin 384) (kb : BitVec 16)
    (s : State) : Out State :=
  runWord s (fun e =>
    let rc := e.record r.val
    let v := convOf rc
    e.sign roll.val (.mmconv z ws x acc roll a b r kb) (e.reg a) (e.src b) (e.src b :: rc) rc (do
      (if v.ok (e.reg a).toNat kb.toNat then .ok () else .error (0x04, 0))
      let _ ← convShape e.fm v
      e.tileCheck ws (e.src b).toNat))

/-- MZERO (R353). -/
def execMzero (acc : Fin 4) (roll : Fin 16) (s : State) : Out State :=
  runWord s (fun e => e.sign roll.val (.mzero acc roll) 0 0 [] [] (.ok ()))

/-- MLOAD (R344). -/
def execMload (acc : Fin 4) (roll : Fin 16) (a : Reg) (s : State) : Out State :=
  runWord s (fun e => e.sign roll.val (.mload acc roll a) (e.reg a) 0 [] [] (do
    let _ ← rowShape e.fm (e.reg a).toNat))

/-- MSTORE (R350): the row index, then the target row with its tags. -/
def execMstore (acc : Fin 4) (roll : Fin 16) (a : Reg) (b : Src) (s : State) : Out State :=
  runWord s (fun e => e.sign roll.val (.mstore acc roll a b) (e.reg a) (e.src b) [] [] (do
    (if (e.src b).toNat < 64 then .ok () else .error (0x04, 0))
    let _ ← rowStore e.fm (e.reg a).toNat (rowUnits e.fm false)))

/-- SGBKT (R378): the map extent, and for FN 1 and 2 the row at D. -/
def execSgbkt (m : Rep) (d : Reg) (roll : Fin 16) (a : Reg) (b : Src) (sS sL : Fin 384) (off : Fin 64) (s : State) :
    Out State :=
  runWord s (fun e =>
    let stage := if m = .first then [] else [e.sreg sS.val]
    e.sign roll.val (.sgbkt m d roll a b sS sL off) (e.reg a) (e.src b) (e.src b :: stage)
      ([e.reg d, BitVec.ofNat 32 d.code] ++ stage) (do
        let n := 4 * (e.ctx.roll roll.val).size
        (match firstOutside e.fm.rcd (e.src b).toNat n with
         | some x => .error (0x07, BitVec.ofNat 32 x) | none => .ok ())
        match resolve e.fm.rcd (e.src b).toNat with
        | none => .error (0x07, e.src b)
        | some h => do
          chk (decide (h.rel + n ≤ h.seg.extent)) 0x07 (h.seg.base + h.seg.extent)
          chk ((e.src b).toNat % 4 == 0 && h.seg.fmt == 0) 0x08 (e.src b).toNat
          (match (wordsOfSpan (h.sb + h.rel) n).find? (fun w => decide (e.fm.tag (4 * w) = .object)) with
           | some w => .error (0x09, BitVec.ofNat 32 ((e.src b).toNat + (4 * w - (h.sb + h.rel)))) | none => .ok ())
          if m = .first then pure () else do
            let _ ← rowShape e.fm (e.reg d).toNat))

/-- SGSUM (R380): gm's index, the gradient row, and the destination row. -/
def execSgsum (mean : Bool) (roll : Fin 16) (a : Reg) (sS : Fin 384) (gm : Reg) (s : State) : Out State :=
  runWord s (fun e =>
    let c := (e.reg gm).toNat % 256
    e.sign roll.val (.sgsum mean roll a sS gm) (e.reg a) 0 [e.sreg sS.val] [BitVec.ofNat 32 c, e.sreg sS.val] (do
      (if c < 64 then .ok () else .error (0x04, 0))
      let _ ← rowShape e.fm (e.reg a).toNat
      let _ ← rowStore e.fm ((e.sreg sS.val).toNat + 256 * c) (rowUnits e.fm true)))

/-- ROLLDECL (R138): the set is declared at commit, and the completion follows it. -/
def execRolldecl (roll : Fin 16) (a : Reg) (sK : Fin 384) (s : State) : Out State :=
  runWord s (fun e => flat do
    e.waitUnless e.ctx.frozen.isNone .frozen
    let base := (e.reg a).toNat
    let mask := BitVec.ofNat 64 ((e.sreg sK.val).toNat + 2 ^ 32 * (e.sreg (sK.val + 1)).toNat)
    let r : Roll := { base := base, mask := mask, key := none, sigs := [] }
    need (mask != 0 && r.ranks.all (fun p => match Tab.find? (threadKey e.th.form p.2) e.s.threads with
      | some th => decide (p.2 < Rec.threads e.fm.rcd) && th.core == e.th.core | none => false))
    e.waitUnless ((e.ctx.roll roll.val).sigs.isEmpty) .roll
    let op := MOp.thread e.s.serial (.rolldecl roll a sK)
    pure (.done (e.upd e.s.fresh (fun c =>
      ((c.act (.rolldecl roll.val base mask)).act (.matrix op)).putDone .none (.matrix e.s.serial)))))

/-! ## Thread operations of the gather and signature unit -/

/-- Bit h of SGHASH (R149). -/
def hashBit (x plane : List Word) : Bool :=
  let s := (List.zip x plane).foldl (fun s p => rnFma s p.1 p.2) (0 : Word)
  !isNaN s && !(valOfFP32 s).lt (.fin false 0 0)

/-- SGHASH (R379). -/
def execSghash (n : Fin 13) (d a : Reg) (b : Src) (s : State) : Out State :=
  runWord s (fun e => flat do
    e.waitUnless e.ctx.frozen.isNone .frozen
    let h ← liftChk (rowRead e.fm (e.reg a).toNat)
    let planes ← liftChk (do
      match firstOutside e.fm.rcd (e.src b).toNat 1 with
      | some x => .error (0x07, BitVec.ofNat 32 x)
      | none =>
        match resolve e.fm.rcd (e.src b).toNat with
        | none => .error (0x07, e.src b)
        | some g => do
          chk (decide (g.rel + 256 * n.val ≤ g.seg.extent)) 0x07 (g.seg.base + g.seg.extent)
          (List.range n.val).mapM (fun i => rowRead e.fm ((e.src b).toNat + 256 * i)))
    let x := rowFP e.fm h
    let v := planes.zipIdx.foldl (fun v p => v + (if hashBit x (rowFP e.fm p.1) then 2 ^ p.2 else 0)) 0
    let op := MOp.thread e.s.serial (.sghash n d a b)
    pure (.done (e.upd e.s.fresh (fun c =>
      let dst := match d with | .g r => LatDst.g r.val | _ => .none
      let c := match d with | .t _ => c.put d (BitVec.ofNat 32 v) | _ => c
      { c.act (.matrix op) with
        lats := c.lats ++ [{ tok := none, dst := dst, val := BitVec.ofNat 32 v, kind := .matrix e.s.serial }] }))))

/-- Larger magnitude first; NaN above every number; ties to the lower index (R148). -/
def magBefore (a b : Val) : Bool :=
  match a, b with
  | _, .nan => false
  | .nan, _ => true
  | a, b => b.abs.lt a.abs

/-- The two kept positions of a group of four, ascending (R148). -/
def keptOf (vs : List Val) : Nat × Nat :=
  let at_ := fun (i : Nat) => vs.getD i (.fin false 0 0)
  let best := (List.range 4).foldl (fun m i => if magBefore (at_ i) (at_ m) then i else m) 0
  let rest := (List.range 4).filter (· != best)
  let second := rest.foldl (fun m i => if magBefore (at_ i) (at_ m) then i else m) (rest.headD 0)
  if best < second then (best, second) else (second, best)

/-- The storage bytes of an SP24 unit packed from 64 codes of a format (R69, R148). -/
def packUnit (fmt : Nat) (codes : List Nat) : List Byte :=
  let groups := (List.range 16).map (fun j => (List.range 4).map (fun i => codes.getD (4 * j + i) 0))
  let kept := groups.map (fun g => keptOf (g.map (codeVal fmt)))
  let w := elemBytes fmt
  (List.zip groups kept).flatMap (fun p => leBytes w (p.1.getD p.2.1 0) ++ leBytes w (p.1.getD p.2.2 0)) ++
  leBytes 8 (kept.zipIdx.foldl (fun m p => m + (p.1.1 + 4 * p.1.2) * 16 ^ p.2) 0)

/-- SPK's dense tile: the checks of its address (R386, R396). -/
def denseTile (f : Form) (a : Nat) : Chk HallRef := do
  let h ← tileShape f a true
  chk (h.seg.geom == 0 && (h.seg.fmt == 3 || h.seg.fmt == 2)) 0x08 a
  (match firstPoison f h (List.range 4096) with | some x => .error (0x0F, BitVec.ofNat 32 x) | none => .ok ())
  pure h

/-- SPK's sparse tile for a dense format: the checks of its address (R386, R148). -/
def sparseTile (f : Form) (fmt a : Nat) : Chk HallRef := do
  let g ← tileShape f a true
  chk ((fmt == 3 && g.seg.fmt == 7) || (fmt == 2 && g.seg.fmt == 8)) 0x08 a
  let o := g.sb + g.rel / 256 * unitBytes g.seg.fmt 0
  (match (List.range (64 * unitBytes g.seg.fmt 0)).find? (fun i => decide (f.tag (o + i) = .object)) with
   | some i => .error (0x09, BitVec.ofNat 32 (a + storageView g.seg.fmt 0 i)) | none => .ok ())
  pure g

/-- SPK (R386). -/
def execSpk (a : Reg) (b : Src) (s : State) : Out State :=
  runWord s (fun e => flat do
    e.waitUnless e.ctx.frozen.isNone .frozen
    let h ← liftChk (denseTile e.fm (e.reg a).toNat)
    let g ← liftChk (sparseTile e.fm h.seg.fmt (e.src b).toNat)
    let o := g.sb + g.rel / 256 * unitBytes g.seg.fmt 0
    let w := elemBytes h.seg.fmt
    let code := fun (i : Nat) => leNat ((List.range w).map (fun k => e.bytes h (i * w + k)))
    let data := (List.range 64).flatMap (fun r =>
      packUnit h.seg.fmt ((List.range 64).map (fun k => code (h.rel / 4 + 64 * r + k))))
    let op := { MOp.thread e.s.serial (.spk a b) with writes := [{ addr := o, bytes := data, tag := .full }] }
    pure (.done (e.upd e.s.fresh (fun c => (c.act (.matrix op)).putDone .none (.matrix e.s.serial)))))

/-! ## Freezing (R153 to R155) -/

/-- An MMA or an MMCONV, which a freeze stops at a group boundary (R153). -/
def isProduct : Instr → Bool
  | .mma _ _ _ _ _ _ _ => true
  | .mmconv _ _ _ _ _ _ _ _ _ => true
  | _ => false

/-- An MSAVE that has committed and is not performed yet. -/
def MOp.saves (o : MOp) : Bool := o.late.isSome && (match o.ins with | .msave _ => true | _ => false)

/-- A context may freeze behind these operations: every one but one product, and other MSAVEs that wait, has completed
(R153). -/
def mayFreeze (ops : List MOp) : Bool :=
  let rest := ops.filter (fun o => !o.saves)
  decide (rest.length ≤ 1) && rest.all (fun o => isProduct o.ins)

/-- Whether the signers of some operations have committed, but for those whose clauses wait for another round: their
effects may be kept (R134, R153; log 100). -/
def State.sealedOps (s : State) (f : Nat) (ops : List MOp) : Bool :=
  ops.all (fun o => !s.uncommitted f o.id || s.heldBack f o)

/-- The operations of a context that some clauses' own words have not begun. -/
def MCtx.others (c : MCtx) (own : List Clause) : List MOp := c.ops.filter (fun o => !(opsOf own).contains o.id)

/-- MSAVE (R349): checked before anything is frozen, and frozen at commit. -/
def execMsave (a : Reg) (s : State) : Out State :=
  runWord s (fun e => flat do
    let h ← liftChk (do
      let f := e.fm
      (match firstOutside f.rcd (e.reg a).toNat 1 with
       | some x => .error (0x07, BitVec.ofNat 32 x) | none => .ok ())
      match resolve f.rcd (e.reg a).toNat with
      | none => .error (0x07, e.reg a)
      | some h => do
        chk (decide (h.rel + 73728 ≤ h.seg.extent)) 0x07 (h.seg.base + h.seg.extent)
        chk ((e.reg a).toNat % 256 == 0 && h.seg.fmt == 0) 0x08 (e.reg a).toNat
        (match (wordsOfSpan (h.sb + h.rel) 73728).find? (fun w => decide (f.tag (4 * w) = .object)) with
         | some w => .error (0x09, BitVec.ofNat 32 ((e.reg a).toNat + (4 * w - (h.sb + h.rel)))) | none => .ok ())
        pure h)
    let others := e.ctx.others [e.cl]
    e.waitUnless (e.ctx.frozen.isSome || (mayFreeze others && e.s.sealedOps e.th.form others)) .drain
    pure (.done (e.upd e.s.fresh (fun c =>
      (c.act (.msave (h.sb + h.rel) e.s.serial)).putDone .none (.matrix e.s.serial)))))

/-- Word k of an image, at its byte offset. -/
def imgAt (img : List Word) (off : Nat) : Nat := (img.getD (off / 4) 0).toNat
/-- The live ranks of an image's frozen operation. -/
def imgRanks (img : List Word) : List Nat :=
  (List.range 64).filter (fun r => (imgAt img 0x10 + 2 ^ 32 * imgAt img 0x14) / 2 ^ r % 2 == 1)
def imgTok (img : List Word) (r : Nat) : Nat × Nat := (bitsOf (imgAt img (0x300 + 4 * r)) 27 16, imgAt img (0x300 + 4 * r) % 8)

/-- The instruction of an image's frozen operation, if it is a product; its register fields are of no effect. -/
def imgInstr (img : List Word) : Option Instr :=
  let kb := imgAt img 0x10420 % 65536
  match decodeItem .matrix { idx := 1, w0 := BitVec.ofNat 32 (imgAt img 8), w1 := BitVec.ofNat 32 (124 * 65536 + kb),
                             ext := 0, listed := true } with
  | .ok i => if isProduct i then some i else none
  | .error _ => none

/-- Whether an image holds a frozen MMCONV. -/
def imgConv (img : List Word) : Bool :=
  imgAt img 4 % 2 == 1 && (match imgInstr img with | some (.mmconv _ _ _ _ _ _ _ _ _) => true | _ => false)

/-- The reserved fields of an image are 0 (R154, R348); the half-word after SHAPE keeps kb of a frozen MMCONV (log 31). -/
def imgReserved (img : List Word) : Bool :=
  let z := fun (lo hi : Nat) => (List.range ((hi - lo) / 4)).all (fun i => imgAt img (lo + 4 * i) == 0)
  imgAt img 4 % 2 ^ 32 == imgAt img 4 % 2 + imgAt img 4 / 256 % 32 * 256 && z 0x18 0x100 &&
  (List.range 16).all (fun r => imgAt img (0x100 + 16 * r + 12) == 0) &&
  (List.range 64).all (fun r => imgAt img (0x300 + 4 * r) / 2 ^ 28 == 0 && bitsOf (imgAt img (0x300 + 4 * r)) 15 3 == 0) &&
  (imgAt img 0x10420 == 0 || (imgConv img && imgAt img 0x10420 / 65536 == 0)) && z 0x10424 0x12000

/-- The threads that an image names are threads of the form on the core (R348). -/
def State.imgThreads (s : State) (f core : Nat) (r : SMap Word) (img : List Word) : Bool :=
  let here := fun (tid : Nat) => match Tab.find? (threadKey f tid) s.threads with
    | some th => decide (tid < Rec.threads r) && th.core == core | none => false
  (List.range 16).all (fun k =>
    let x : Roll := { base := imgAt img (0x100 + 16 * k), mask := BitVec.ofNat 64 (imgAt img (0x104 + 16 * k) +
      2 ^ 32 * imgAt img (0x108 + 16 * k)), key := none, sigs := [] }
    x.ranks.all (fun p => here p.2)) &&
  (imgAt img 4 % 2 == 0 || (imgRanks img).all (fun k => here (imgTok img k).1))

/-- The checks of a save image's address (R154). -/
def restoreAddr (fm : Form) (a : Word) : Chk HallRef := do
  let h ← (match (if a.toNat < 2 ^ 23 then resolve fm.rcd a.toNat else none) with
    | none => .error (0x07, a)
    | some h => .ok h)
  chk (decide (h.rel + 73728 ≤ h.seg.extent)) 0x07 (h.seg.base + h.seg.extent)
  chk (a.toNat % 256 == 0 && h.seg.fmt == 0) 0x08 a.toNat
  pure h

/-- The image that MRESTORE loads from an address, with the checks of R154 and R348. They are made as the word executes
and again as its clause commits, when the image is read. -/
def State.restoreCheck (s : State) (f core : Nat) (fm : Form) (a : Word) : Chk (List Word) := do
  let h ← restoreAddr fm a
  let words := wordsOfSpan (h.sb + h.rel) 73728
  (match words.find? (fun w => decide (fm.tag (4 * w) = .poisoned)) with
   | some w => .error (0x0F, a + BitVec.ofNat 32 (4 * w - (h.sb + h.rel))) | none => .ok ())
  let img := words.map (fun w => fm.word (4 * w))
  chk (imgAt img 0 / 65536 == 1) 0x12 0
  chk ((fm.mctx (fm.fcOf core)).rolls.all (fun r => r.2.sigs.isEmpty)) 0x04 0
  chk (s.imgThreads f core fm.rcd img) 0x04 0
  chk (imgReserved img) 0x04 0
  pure img

/-- MRESTORE (R348): the address, then a wait until no operation but those of its own clause is in flight. -/
def execMrestore (a : Reg) (s : State) : Out State :=
  runWord s (fun e => flat do
    let _ ← liftChk (restoreAddr e.fm (e.reg a))
    e.waitUnless (e.ctx.others [e.cl]).isEmpty .drain
    let _ ← liftChk (e.s.restoreCheck e.th.form e.th.core e.fm (e.reg a))
    pure (.done (e.upd e.s.fresh (fun c =>
      (c.act (.mrestore (e.reg a) e.idx e.s.serial)).putDone .none (.matrix e.s.serial)))))

end Sys2Proof.Machine
end

