-- ==== Sys2Proof/Machine/Names.lean ====
section
/-! DEFINITION. What a word names: the g and s registers that dispatch checks (R42, R44, R162, R172), how many
long-latency results it has (R46, R47), and whether it fences its clause (R50). -/

namespace Sys2Proof.Machine

/-! ## g registers -/

def regG : Reg → List Nat
  | .g n => [n.val]
  | _ => []
def ssrcG : SSrc → List Nat
  | .g n => [n.val]
  | _ => []
/-- A register and, where `two` holds, the one after it (R34). -/
def pairG (two : Bool) (r : Reg) : List Nat := (twoRegs two r).flatMap regG
def finPair (n : Fin 120) : List Nat := [n.val, n.val + 1]

/-- The g registers that a word writes: its destination (R44). PLACE's D is exempt (R39). -/
def destG : Instr → List Nat
  | .call gl _ => finPair gl
  | i => (destRegs i).flatMap regG

/-- Those of them that the instruction's second word names: D of SGBKT (R378). -/
def lateDest : Instr → List Nat
  | .sgbkt _ d _ _ _ _ _ _ => regG d
  | _ => []

/-- The even pair of g registers that a word reads as one value. -/
def readPair : Instr → List Nat
  | .ret b | .launch _ _ b | .cpyg _ _ _ b | .cpys _ _ _ b => finPair b
  | _ => []

/-- The g registers that a word reads, or that PLACE names. -/
def readG (i : Instr) : List Nat := (readRegs i).flatMap regG ++ readPair i

/-- Every g register that an instruction names (R42). -/
def namesG (i : Instr) : List Nat := destG i ++ readG i

/-- Those named in the instruction's second word: word 1, or the extension word of an SS word (R230, R233). -/
def lateG : Instr → List Nat
  | .bcast _ _ _ _ f | .shfl _ _ _ _ f | .slide _ _ _ _ _ f | .xshfl _ _ _ _ f => regG f
  | .bind _ _ g _ _ => regG g
  | .sgbkt _ d _ _ _ _ _ _ => regG d
  | .sgsum _ _ _ _ gm => regG gm
  | .addScalar _ _ a | .andScalar _ a | .bfiScalar _ a | .bfxScalar _ _ a | .clzScalar _ a | .cmpScalar _ _ a
  | .leaScalar _ _ a | .maxScalar _ _ a | .minScalar _ _ a | .movScalar _ a | .mulScalar _ a | .mulhScalar _ _ a
  | .orScalar _ a | .popcScalar _ a | .rotScalar _ a | .selScalar _ a | .shlScalar _ a | .shrScalar _ _ a
  | .subScalar _ _ a | .xorScalar _ a | .ldScalar _ _ a | .stScalar _ _ a => ssrcG a
  | _ => []

/-! ## s registers (R162) -/

def srcS : Src → List Nat
  | .sreg n => [n.val]
  | _ => []
def amtS : Amt → List Nat
  | .src b => srcS b
  | .imm _ => []
def ssrcS : SSrc → List Nat
  | .s n => [n.val]
  | _ => []
def pairS (n : Fin 384) : List Nat := [n.val, n.val + 1]
/-- A record base with the seven registers after it. -/
def recS (n : Fin 384) : List Nat := (List.range 8).map (· + n.val)

/-- Every s register that a word names. -/
def namesS : Instr → List Nat
  | .abs _ _ b | .clz _ b | .mov _ b | .neg _ _ b | .popc _ b | .frnd _ _ b | .cospi _ b | .ex2 _ b | .lg2 _ b
  | .rcp _ b | .rsq _ b | .sinpi _ b | .sqrt _ b | .tanh _ b | .act _ _ b | .trap b | .sleep b | .shrink b | .brx b
  | .grow _ b | .wrsr _ b | .add _ _ _ b | .and _ _ b | .bfx _ _ _ b | .cmp _ _ _ b | .lea _ _ _ b | .max _ _ _ b
  | .min _ _ _ b | .mul _ _ b | .mulh _ _ _ b | .or _ _ b | .sub _ _ _ b | .xor _ _ b | .pack _ _ _ b
  | .padd _ _ _ b | .psub _ _ _ b | .fadd _ _ _ b | .fsub _ _ _ b | .fmul _ _ _ b | .fcmp _ _ _ b | .fcvt _ _ _ b
  | .fmax _ _ b | .fmin _ _ b | .atom _ _ _ b | .cwait _ _ b | .ctest _ _ _ b | .barinit _ b | .barwait _ _ b
  | .ringinit _ b | .ringpub _ b | .ringdone _ b | .mma _ _ _ _ _ _ b | .mstore _ _ _ b | .spk _ b | .sghash _ _ _ b
  | .bfi _ _ b | .mad _ _ b | .sel _ _ b | .pdot2 _ _ _ b | .ffma _ _ _ b | .bfma _ _ _ b | .cas _ _ b
  | .send _ _ b | .bind _ b _ _ _ => srcS b
  | .rot _ _ n | .shl _ _ n | .shr _ _ _ n | .shrr _ _ n => amtS n
  | .addScalar _ d a | .andScalar d a | .bfiScalar d a | .bfxScalar _ d a | .clzScalar d a | .cmpScalar _ d a
  | .leaScalar _ d a | .maxScalar _ d a | .minScalar _ d a | .movScalar d a | .mulScalar d a | .mulhScalar _ d a
  | .orScalar d a | .popcScalar d a | .rotScalar d a | .selScalar d a | .shlScalar d a | .shrScalar _ d a
  | .subScalar _ d a | .xorScalar d a => d.val :: ssrcS a
  | .ldScalar w d a => (if ldTwo w then pairS d else [d.val]) ++ ssrcS a
  | .stScalar w d a => (if stTwo w then pairS d else [d.val]) ++ ssrcS a
  | .bcast _ _ b m _ | .shfl _ _ b m _ | .slide _ _ _ b m _ | .xshfl _ _ b m _ => srcS b ++ pairS m
  | .xmatch _ _ m | .rank _ _ m | .redx _ _ _ m | .vote _ _ _ m | .qfence _ m | .rolldecl _ _ m => pairS m
  | .cpy _ _ r | .cred _ _ r _ | .cgath _ _ r _ => recS r
  | .mmconv _ _ _ _ _ _ b r _ => srcS b ++ recS r
  | .sgbkt _ _ _ _ b sS sL _ => srcS b ++ [sS.val] ++ pairS sL
  | .sgsum _ _ _ sS _ => [sS.val]
  | _ => []

/-! ## Long-latency results (R46, R47) -/

/-- 32-bit registers still to be written, or completions, of a word: what it adds to its clause's SET token. A
temporary's result counts toward none (R35), and z has none. -/
def latCount : Instr → Nat
  | .ld w d _ _ | .ldw w d _ _ => (pairG (ldTwo w) d).length
  | .ldScalar w _ _ => if ldTwo w then 2 else 1
  | .ldfe d _ _ | .atom _ d _ _ | .cas d _ _ | .cospi d _ | .ex2 d _ | .lg2 d _ | .rcp d _ | .rsq d _ | .sinpi d _
  | .sqrt d _ | .tanh d _ | .act _ d _ => (regG d).length
  | .actld _ _ | .mma _ _ _ _ _ _ _ | .mmconv _ _ _ _ _ _ _ _ _ | .mzero _ _ | .mload _ _ _ | .mstore _ _ _ _
  | .msave _ | .mrestore _ | .spk _ _ | .sghash _ _ _ _ | .sgbkt _ _ _ _ _ _ _ _ | .sgsum _ _ _ _ _
  | .rolldecl _ _ _ => 1
  | _ => 0

/-! ## Fences (R50) -/

/-- A word that makes its clause fenced, whatever its class: a cross-lane instruction, an access of the hall or the
weight store, or one whose faults depend on register values or thread state. -/
def fences : Instr → Bool
  | .bcast _ _ _ _ _ | .xmatch _ _ _ | .rank _ _ _ | .redx _ _ _ _ | .shfl _ _ _ _ _ | .slide _ _ _ _ _ _
  | .vote _ _ _ _ | .xshfl _ _ _ _ _ | .ld _ _ _ _ | .ldScalar _ _ _ | .st _ _ _ _ | .stScalar _ _ _ | .ldfe _ _ _
  | .stfe _ _ _ | .ldw _ _ _ _ | .atom _ _ _ _ | .cas _ _ _ | .bfma _ _ _ _ | .actld _ _ | .barinit _ _
  | .bararr _ _ _ | .barwait _ _ _ | .barfree _ | .ringinit _ _ | .ringacq _ _ | .ringpub _ _ | .ringtake _ _
  | .ringdone _ _ | .cwait _ _ _ | .ctest _ _ _ _ | .savep _ _ | .loadp _ _ | .launch _ _ _ | .grow _ _ | .shrink _
  | .place _ _ | .bind _ _ _ _ _ | .send _ _ _ | .recv _ _ _ | .rett _ | .wrsr _ _ => true
  | _ => false

/-- Whether a clause is fenced. -/
def isFenced (h : Header) (todo : List (Nat × Instr)) : Bool :=
  h.tf || decide (h.cls = .matrix ∨ h.cls = .copy) || todo.any (fun p => fences p.2)

/-- The place at which a class executes (R32). -/
def placeOfClass : Class → Place
  | .core | .matrix | .scalar => .core
  | .cluster => .cluster
  | .pier => .pier
  | .lane | .copy | .control => .lane

end Sys2Proof.Machine
end

