-- ==== Sys2Proof/Machine/Product.lean ====
section
/-! DEFINITION. The arithmetic of the array (R74), what freezes a context, and the save image (R153 to R155). -/

namespace Sys2Proof.Machine

/-! ## Groups (R74) -/

/-- The value that an element of an A row presents. -/
def MElem.presents : MElem → Val
  | .val v => v
  | .pad v => v
  | .skip => .fin false 0 0

/-- Whether products of the element may be recorded in NS. -/
def MElem.records : MElem → Bool
  | .val _ => true
  | _ => false

/-- The product with a tile element; a skipped or K-padded position is an exact +0. -/
def MElem.times (x : MElem) (b : Val) : Val :=
  match x with
  | .skip => .fin false 0 0
  | x => x.presents.mul b

/-- The exact sum of products: −0 only when every product is −0. -/
def exactSum : List Val → Val
  | [] => .fin false 0 0
  | p :: r => r.foldl (Val.add false) p

/-- Whether a group is an invalid operation (R74, R61): ∞ × 0 at a position that records; ∞ − ∞ among those positions,
where no product of the group is NaN; or ∞ − ∞ in the addition to the accumulator (log 20). -/
def groupInvalid (a : Val) (row : List (MElem × Val)) : Bool :=
  let rec_ := row.filter (fun p => p.1.records)
  let prods := row.map (fun p => p.1.times p.2)
  let sum := exactSum prods
  rec_.any (fun p => p.1.presents != .nan && p.2 != .nan && p.1.times p.2 == .nan) ||
  (prods.all (· != .nan) && exactSum (rec_.map (fun p => p.1.times p.2)) == .nan) ||
  (sum != .nan && a != .nan && Val.add false a sum == .nan)

/-- One group added to an accumulator cell, with OF and NV. -/
def addGroup (a : Word) (row : List (MElem × Val)) : Word × BitVec 5 :=
  let v := valOfFP32 a
  let r := roundFP32 .rn (Val.add false v (exactSum (row.map (fun p => p.1.times p.2))))
  (r.1, (r.2 &&& fOF) ||| (if groupInvalid v row then fNV else 0))

/-- Groups `lo` to `hi` − 1 of size g added to a cell. -/
def addGroups (g lo : Nat) (a : Word) (row : List (MElem × Val)) : Nat → Word × BitVec 5
  | 0 => (a, 0)
  | n + 1 =>
    let r := addGroups g lo a row n
    let x := addGroup r.1 ((row.drop (g * (lo + n))).take g)
    (x.1, r.2 ||| x.2)

/-- Column j of a tile. -/
def column (b : List (List Val)) (j : Nat) : List Val := b.map (fun r => r.getD j (.fin false 0 0))

/-- The z, x and accumulator of a product. -/
def productOf : Instr → Bool × Bool × Nat
  | .mma z _ x acc _ _ _ => (z, x, acc.val)
  | .mmconv z _ x acc _ _ _ _ _ => (z, x, acc.val)
  | _ => (false, false, 0)

def accKey (acc row col : Nat) : Nat := acc * 4096 + row * 64 + col

/-- The flags of an accumulator row and its new cells, for n groups from `nextGroup` on. -/
def MOp.rowSum (op : MOp) (acc : SMap Word) (rank : Nat) (a : List MElem) (n : Nat) : List Word × BitVec 5 :=
  let p := productOf op.ins
  let cells := (List.range 64).map (fun j =>
    let old := if p.1 && op.nextGroup == 0 then 0 else SMap.get 0 (accKey p.2.2 rank j) acc
    addGroups op.grp op.nextGroup old (List.zip a (column op.b j)) n)
  (cells.map (·.1), cells.foldl (fun f c => f ||| c.2) 0)

/-- Perform n groups of a product: the accumulators, and each signer's flags. -/
def MOp.advance (op : MOp) (acc : SMap Word) (n : Nat) : SMap Word × List (Nat × BitVec 5) :=
  if n = 0 then (acc, [])
  else
    (List.zip op.rows op.a).foldl (fun (x : SMap Word × List (Nat × BitVec 5)) p =>
      let r := op.rowSum acc p.1.1 p.2 n
      (SMap.setList 0 (accKey (productOf op.ins).2.2 p.1.1 0) r.1 x.1, x.2 ++ [(p.1.2.thread, r.2)])) (acc, [])

/-- Groups of a product. -/
def MOp.groups (op : MOp) : Nat := 64 / op.grp

/-- OR the recorded flags of a .x product into its signers' NS (R61). -/
def State.orNs (s : State) (x : Bool) (fs : List (Nat × BitVec 5)) : State :=
  if x then fs.foldl (fun s p => s.modThread p.1 (fun th => { th with ns := th.ns ||| p.2 })) s else s

/-! ## The save image (R154) -/

/-- MMCONV's kb, kept after SHAPE (log 31). -/
def kbOf : Instr → Nat
  | .mmconv _ _ _ _ _ _ _ _ kb => kb.toNat
  | _ => 0

/-- The image of a context with what it holds frozen. OPWORD is the word of the lowest live rank (log 96). -/
def MCtx.image (c : MCtx) (op : Option MOp) : List Word :=
  let lit := fun (n : Nat) => BitVec.ofNat 32 n
  let rows := match op with | some o => o.rows | none => []
  let at_ := fun (r : Nat) (f : Sig → Word) => ((rows.find? (fun p => p.1 == r)).map (fun p => f p.2)).getD 0
  let state := match op with | some o => 1 + 256 * o.nextGroup | none => 0
  let w0 := match op with | some o => (encode o.ins).headD 0 | none => 0
  let b := match rows with | p :: _ => p.2.b | [] => 0
  let live := rows.foldl (fun n p => n + 2 ^ p.1) 0
  let shape := match op with
    | some o => (match rows with | p :: _ => (List.range 8).map (fun k => p.2.extra.getD k 0) | [] => List.replicate 8 0)
        ++ [lit (kbOf o.ins)]
    | none => List.replicate 9 0
  [0x00010007, lit state, w0, b, lit (live % 2 ^ 32), lit (live / 2 ^ 32)] ++ List.replicate 58 0 ++
  (List.range 16).flatMap (fun r =>
    let x := c.roll r
    [lit x.base, lit (x.mask.toNat % 2 ^ 32), lit (x.mask.toNat / 2 ^ 32), 0]) ++
  (List.range 64).map (fun r => at_ r (·.a)) ++
  (List.range 64).map (fun r => at_ r (fun g => lit (g.thread % 4096 * 65536 + g.set))) ++
  SMap.getList 0 0 16384 c.acc ++ shape ++ List.replicate 1783 0

/-! ## Freezing (R153) -/

/-- Freeze a context: a product in flight stops after n more of its groups, whose sums the accumulators hold; signatures
of rounds that have not issued are dropped. -/
def MCtx.freeze (c : MCtx) (n : Nat) : MCtx × List (Nat × BitVec 5) :=
  let rolls := c.rolls.map (fun p => (p.1, { p.2 with key := none, sigs := [] }))
  match c.ops.find? (fun o => isProduct o.ins) with
  | none => ({ c with rolls := rolls, frozen := some none }, [])
  | some op =>
    let k := if op.nextGroup < op.groups then n % (op.groups - op.nextGroup) else 0
    let r := op.advance c.acc k
    ({ acc := r.1, rolls := rolls, ops := c.ops.filter (fun o => o.id != op.id),
       frozen := some (some { op with nextGroup := op.nextGroup + k }) }, r.2)

/-- The operations of a context that are ahead of one. -/
def MCtx.ahead (c : MCtx) (id : Nat) : List MOp := c.ops.takeWhile (fun o => o.id != id)

/-- Whether a committed MSAVE or MRESTORE may be performed: earlier operations have completed, but for the one product
that a freeze stops (R153, R348). -/
def MCtx.lateReady (c : MCtx) (o : MOp) : Bool :=
  match o.ins with
  | .msave _ => c.frozen.isSome || mayFreeze (c.ahead o.id)
  | _ => (c.ahead o.id).isEmpty

/-- Whether it is to be performed: an MSAVE freezes its context only once the product's signers have committed (log 100). -/
def State.lateFree (s : State) (f : Nat) (c : MCtx) (o : MOp) : Bool :=
  c.lateReady o && (c.frozen.isSome || s.sealedOps f (c.ahead o.id))

/-- MSAVE: freeze, unless the context is frozen, and start writing the image (log 15). A product with a signer that has not
committed stops where it is (log 100). -/
def State.msave (s : State) (f fc addr : Nat) (o : MOp) : State :=
  match Tab.find? f s.forms with
  | none => s
  | some fm =>
    let c := fm.mctx fc
    let (s, c) : State × MCtx := match c.frozen with
      | some _ => (s, c)
      | none =>
        let open_ := (c.ops.filter (fun o => isProduct o.ins)).any (fun o => s.uncommitted f o.id)
        let z := c.freeze (if open_ then 0 else Config.draw s.draws)
        let x := match c.ops.find? (fun o => isProduct o.ins) with | some p => (productOf p.ins).2.1 | none => false
        ({ s.orNs x z.2 with draws := s.draws + 1 }, z.1)
    let img := c.image (c.frozen.getD none)
    let w : HallW := { addr := addr, bytes := img.flatMap (fun w => leBytes 4 w.toNat), tag := .full }
    s.modForm f (fun f => f.modCtx fc (fun _ =>
      { c with ops := c.ops.map (fun m => if m.id = o.id then { m with writes := [w], late := none } else m) }))

/-! ## The operands of a product, by address (R73, R143 to R147) -/

/-- Whether the A row of a signer, and the tile, are of the tapered class. -/
def rowTapered (f : Form) (a : Word) : Bool :=
  match resolve f.rcd a.toNat with | some h => taperedClass h.seg.fmt | none => false

/-- The A row of a signer of a product. -/
def productRow (f : Form) (ins : Instr) (g : Sig) : List MElem :=
  match ins with
  | .mmconv _ _ _ _ _ _ _ _ kb =>
    let v := convOf g.extra
    (match resolve f.rcd v.input with | some h => convRow f v h g.a.toNat kb.toNat | none => List.replicate 64 .skip)
  | _ => match resolve f.rcd g.a.toNat with | some h => rowA f h | none => List.replicate 64 .skip

def isWs : Instr → Bool
  | .mma _ ws _ _ _ _ _ => ws
  | .mmconv _ ws _ _ _ _ _ _ _ => ws
  | _ => false

/-- The B tile of a product. -/
def productTile (s : State) (f : Form) (ins : Instr) (b : Word) : List (List Val) :=
  if isWs ins then windowVals s f b.toNat
  else match resolve f.rcd b.toNat with | some h => tileVals f h | none => []

/-- The address that an A row comes from. -/
def rowSource (ins : Instr) (g : Sig) : Word :=
  match ins with
  | .mmconv _ _ _ _ _ _ _ _ _ => BitVec.ofNat 32 (convOf g.extra).input
  | _ => g.a

/-- G of R74: 8 when both operands are of the tapered class, else 4. -/
def groupSize (f : Form) (ins : Instr) (rows : List (Nat × Sig)) : Nat :=
  match rows with
  | [] => 4
  | p :: _ =>
    let tile := if isWs ins then taperedClass (Rec.wformat f.rcd) else rowTapered f p.2.b
    if tile && rows.all (fun r => rowTapered f (rowSource ins r.2)) then 8 else 4

/-- The product that a round or an image describes, its operands read now (R140, R155). -/
def productOp (s : State) (f : Form) (id : Nat) (ins : Instr) (rows : List (Nat × Sig)) (next : Nat) : MOp :=
  { id := id, ins := ins, rows := rows, a := rows.map (fun p => productRow f ins p.2),
    b := productTile s f ins (match rows with | p :: _ => p.2.b | [] => 0), words := [], writes := [],
    grp := groupSize f ins rows, nextGroup := next }

/-! ## Restoring (R155) -/

/-- The signers of an image's frozen operation, by rank. -/
def imgRows (f : Nat) (ins : Instr) (img : List Word) : List (Nat × Sig) :=
  (imgRanks img).map (fun r => (r,
    { thread := threadKey f (imgTok img r).1, set := (imgTok img r).2, a := BitVec.ofNat 32 (imgAt img (0x200 + 4 * r)),
      b := BitVec.ofNat 32 (imgAt img 0xC), extra := (List.range 8).map (fun k => BitVec.ofNat 32 (imgAt img (0x10400 + 4 * k))), ins := ins }))

/-- The rolls of an image. -/
def imgRolls (img : List Word) : Tab Roll :=
  (List.range 16).map (fun r => (r,
    { base := imgAt img (0x100 + 16 * r), key := none, sigs := [],
      mask := BitVec.ofNat 64 (imgAt img (0x104 + 16 * r) + 2 ^ 32 * imgAt img (0x108 + 16 * r)) }))

/-- MRESTORE: the context holds the image, and a frozen operation goes on at its next group with its operands read
again, with no check of what is read (log 75). It keeps its number where the context itself still held it. An OPWORD
that is no MMA and no MMCONV resumes nothing (log 74). -/
def State.mrestore (s : State) (f fc : Nat) (img : List Word) (o : MOp) : State :=
  match Tab.find? f s.forms with
  | none => s
  | some fm =>
    let c := fm.mctx fc
    let id := match c.frozen with | some (some o) => o.id | _ => s.serial
    let acc := SMap.setList 0 0 ((img.drop 256).take 16384) []
    let ops := match (if imgAt img 4 % 2 = 1 then imgInstr img else none) with
      | some i => [productOp s fm id i (imgRows f i img) (bitsOf (imgAt img 4) 12 8)]
      | none => []
    let rest := c.ops.map (fun m => if m.id = o.id then { m with late := none } else m)
    s.fresh.modForm f (fun f => f.modCtx fc (fun _ =>
      { acc := acc, rolls := imgRolls img, ops := ops ++ rest, frozen := none }))

/-- Perform a committed MSAVE or MRESTORE that may be performed. -/
def State.runLate (s : State) (f fc : Nat) (o : MOp) : State :=
  match o.late, Tab.find? f s.forms with
  | some (addr, img), some fm =>
    if !(fm.mctx fc).lateReady o then s
    else match o.ins with
      | .msave _ => s.msave f fc addr o
      | _ => s.mrestore f fc img o
  | _, _ => s

/-- A committed MSAVE or MRESTORE enters its context's operations, and is performed now if it may be. -/
def State.startLate (s : State) (f fc : Nat) (o : MOp) : State :=
  let s1 := s.modForm f (fun x => x.modCtx fc (fun c => { c with ops := c.ops ++ [o] }))
  match Tab.find? f s1.forms with
  | some fm => if s1.lateFree f (fm.mctx fc) o then s1.runLate f fc o else s1
  | none => s1

/-- A context whose frozen operation goes on (R156). -/
def MCtx.thaw (c : MCtx) : MCtx :=
  match c.frozen with
  | some (some o) => { c with ops := o :: c.ops, frozen := none }
  | _ => { c with frozen := none }

end Sys2Proof.Machine
end

