-- ==== Sys2Proof/Machine/Thread.lean ====
section
/-! DEFINITION. The life of a thread: dispatch (R42 to R44, R47, R52, R172, R185), commit (R51 to R53, R114, R116),
arriving results (R46 to R48), asynchronous causes (R27, R31, R167, R173, R178, R184, R201), and debug (R185, R186). -/

namespace Sys2Proof.Machine

/-! ## Asynchronous causes (R173) -/

/-- The asynchronous cause that is due: 0x11 first, whatever the trap state bit; then 0x10, then 0x13. -/
def Thread.dueCause (th : Thread) : Option Nat :=
  if th.pend11 then some 0x11
  else if th.trapState then none
  else if th.pend10 then some 0x10
  else if th.pend13 then some 0x13
  else none

/-- Whether a form's forced save is due: it yields and its budget has run out, or it has no handler (R177, R183). -/
def Form.saveDue (fm : Form) (clock : Nat) : Bool :=
  decide (fm.phase = .yielding) &&
  (Rec.handler fm.rcd == 0 || decide (fm.yieldTick + 800 * Rec.budget fm.rcd ≤ clock))

/-- Whether the thread may dispatch: live, in a form that runs and is neither moving nor due to be saved, in no wait
of R27 inside an instruction, with no trap waiting or due (R22, R183, R194). -/
def Thread.mayDispatch (th : Thread) (fm : Form) (clock : Nat) : Bool :=
  decide (th.status = .live) && decide (fm.phase = .running ∨ fm.phase = .yielding) && fm.move.isNone &&
  !fm.saveDue clock && th.pending.isNone && th.dueCause.isNone && !th.inWait

/-- The PLACE code of the clause at a VA (R171); lane where no header can be read there. -/
def State.placeAt (s : State) (cl ctx : Nat) (va : VAddr) : Nat :=
  match s.seek cl ctx va.toNat with
  | none => 0
  | some e => match decodeHeader (s.pageWord e va.toNat) with | some h => trapPlaceOf h.cls | none => 0

/-! ## Dispatch -/

/-- How an attempt to dispatch ends. -/
inductive DispatchOut where
  | wait (w : Wait) (s : State)
  | fault (cause word data : Nat) (place : Nat) (s : State)
  | go (c : Clause) (s : State)

/-- Long-latency results that an outstanding clause has and will have. -/
def Clause.owed (c : Clause) : Nat := c.lats.length + (c.todo.map (fun p => latCount p.2)).sum

/-- Counts of a token, those of outstanding clauses that will add to it included (R47, log 33). -/
def Thread.tokDue (th : Thread) (t : Nat) : Nat :=
  th.tokCount t + ((th.clauses.filter (fun c => c.hdr.set == t + 1)).map Clause.owed).sum

/-- Whether the tokens of a WAIT mask are retired. -/
def Thread.tokensFree (th : Thread) (w : BitVec 6) : Bool :=
  (List.range 6).all (fun t => !w.getLsbD t || th.tokDue t == 0)

/-- An act that decides at its commit whether or how the thread's next clause dispatches: an end, a return, a change of
the register window, or a status that a register receives only then (R166, R306; log 90). -/
def CommitAct.steers : CommitAct → Bool
  | .exit | .yield | .rett _ | .place _ _ | .grow _ | .shrink _ | .loadp _ _ | .arrive _ _ (some _) _
  | .launch _ _ _ _ (some _) => true
  | _ => false

/-- Whether nothing dispatches because of an outstanding CONTROL clause: it has words left, so that the next PC is not
known (R51), or its commit decides on the next dispatch. -/
def Thread.afterControl (th : Thread) : Bool :=
  th.clauses.any (fun c => decide (c.hdr.cls = .control) && (!c.todo.isEmpty || c.acts.any (·.steers)))

/-- Whether SW parks the thread (R47). -/
def Thread.parkedBySw (th : Thread) : Bool := (th.sw && !th.lats.isEmpty) || th.clauses.any (fun c => c.hdr.sw)

/-- The lowest matched word of a clause and the lowest comparator that matches it (R185). -/
def State.breakAt (s : State) (th : Thread) (ctx : Nat) (n : Nat) : Option (Nat × Nat) :=
  if th.trapState || th.noBreak == some th.pc then none
  else (List.range (n + 1)).findSome? (fun (w : Nat) =>
    ((List.range 8).find? (fun i =>
      let c := Tab.getD Comp.reset i (s.core th.core).comps
      c.en && c.ctx == ctx && c.word == (addWords th.pc w).extractLsb' 2 54)).map (fun i => (w, i)))

/-- The checks of one instruction in the order of R172, word by word: 0x03, 0x04, 0x06, 0x05; and the index of the word
that fails. A failing encoding and an s register at or above SCALARS name the instruction's first word (log 78). -/
def wordCheck (fm : Form) (th : Thread) (c : Class) (it : Item) : Except (Nat × Nat) Instr :=
  match decodeItem c it with
  | .error .illegalClause => .error (it.idx, 0x02)
  | .error .illegalOpcode => .error (it.idx, 0x03)
  | .error .illegalOperand => .error (it.idx, 0x04)
  | .ok i =>
    let late := lateG i
    let beyond := fun (ns : List Nat) => ns.any (fun n => decide (th.w ≤ n))
    let misplaced := fun (ns : List Nat) => ns.any (fun n => decide (SMap.get .lane n th.place ≠ placeOfClass c))
    if (namesS i).any (fun n => decide (Rec.scalars fm.rcd ≤ n)) then .error (it.idx, 0x04)
    else if beyond ((namesG i).diff late) then .error (it.idx, 0x06)
    else if misplaced ((destG i).diff (lateDest i)) then .error (it.idx, 0x05)
    else if beyond late then .error (it.idx + 1, 0x06)
    else if misplaced (lateDest i) then .error (it.idx + 1, 0x05)
    else .ok i

/-- The first failing word, or the clause's instructions. -/
def wordChecks (fm : Form) (th : Thread) (c : Class) : List Item → Except (Nat × Nat) (List (Nat × Instr))
  | [] => .ok []
  | it :: r =>
    match wordCheck fm th c it with
    | .error e => .error e
    | .ok i => match wordChecks fm th c r with | .ok l => .ok ((it.idx, i) :: l) | .error e => .error e

/-- Whether a role allows a class (R20). -/
def roleAllows (role : Nat) (c : Class) : Bool :=
  match c with
  | .matrix => role == 0 || role == 2
  | .copy => role == 0 || role == 1
  | _ => true

/-- The clause as it is when it is dispatched: its temporaries are 0 (R35); its masks are read now if every earlier
clause has executed (R310). -/
def newClause (fm : Form) (th : Thread) (h : Header) (todo : List (Nat × Instr)) (seq : Nat) : Clause :=
  { va := th.pc, hdr := h, todo := todo, temps := [],
    masks := if th.clauses.all (fun c => c.todo.isEmpty) then maskValues fm th th.clauses.length todo else [],
    gw := [], sw := [], hw := [], nsOr := 0, lats := [], acts := [], next := addWords th.pc (1 + h.count),
    fenced := isFenced h todo, seq := seq, words := todo, recs := [] }

/-- The waits that come before a clause of this header and these words dispatches (R47, R52). -/
def dispatchWait (th : Thread) (h : Header) (todo : List (Nat × Instr)) : Option Wait :=
  let place := placeOfClass h.cls
  if !th.tokensFree h.wait then some .token
  else if 2 ≤ (th.clauses.filter (fun c => decide (placeOfClass c.hdr.cls = place))).length then some .dispatch
  else if isFenced h todo && th.clauses.any (fun c => c.fenced) then some .dispatch
  else if 1 ≤ h.set ∧ 63 < th.tokDue (h.set - 1) + (todo.map (fun p => latCount p.2)).sum then some .dispatch
  else none

/-- The dispatch checks of R172 on a fetched clause, and then the waits: a clause that fails a check reports it without
waiting for its WAIT tokens first (log 110). -/
def State.checkClause (s : State) (fm : Form) (th : Thread) (h : Header) (ws : List Word) : DispatchOut :=
  let place := trapPlaceOf h.cls
  match cutClause h ws with
  | none => .fault 0x02 0 0 place s
  | some items =>
    if !roleAllows (Rec.role fm.rcd th.bench) h.cls then .fault 0x0B 0 0 place s
    else
      match s.breakAt th fm.ctx h.count with
      | some (w, i) => .fault 0x0E w i place s
      | none =>
        match wordChecks fm th h.cls items with
        | .error (w, c) => .fault c w 0 place s
        | .ok todo =>
          match dispatchWait th h todo with
          | some w => .wait w s
          | none => .go (newClause fm th h todo s.serial) s

/-- Fetch the next clause and try to dispatch it. -/
def State.tryDispatch (s : State) (fm : Form) (th : Thread) : DispatchOut :=
  if th.afterControl || (th.step && !th.clauses.isEmpty) then .wait .held s
  else if th.parkedBySw then .wait .token s
  else
    match s.fetch th.core fm.ctx th.pc.toNat 1 with
    | (s, none) => .wait .fetch s
    | (s, some hs) =>
      match decodeHeader (hs.getD 0 0) with
      | none => .fault 0x02 0 0 (trapPlaceOf (classOf (field (hs.getD 0 0) 27 25))) s
      | some h =>
        match s.fetch th.core fm.ctx (addWords th.pc 1).toNat h.count with
        | (s, none) => .wait .fetch s
        | (s, some ws) => s.checkClause fm th h ws

/-- A clause issues: it is the thread's last outstanding clause, its form's watchdog counter and its core's count of
R167 are 0 again (R31, R167), and it takes the next issue number. -/
def State.issueClause (s : State) (k : Nat) (th : Thread) (c : Clause) : State :=
  ((s.fresh.modForm th.form (fun f => { f with watchdog := 0 })).modCore th.core (fun x => { x with growIdle := 0 })).modThread k
    (fun th =>
      { th with clauses := th.clauses ++ [{ c with tick := s.clock }], pc := c.next, wait := .none, sw := false, age := 0,
                noBreak := if th.noBreak = some c.va then none else th.noBreak })

/-- Dispatch the thread's next clause, raise the first failing check, or wait. -/
def State.dispatch (s : State) (k : Nat) : State :=
  match Tab.find? k s.threads with
  | none => s
  | some th =>
    match Tab.find? th.form s.forms with
    | none => s
    | some fm =>
      if !th.mayDispatch fm s.clock then s
      else
        match s.tryDispatch fm th with
        | .wait w s => s.modThread k (fun th => { th with wait := w })
        | .fault c w d p s =>
          s.raise k th.clauses.length
            { cause := c, pc := th.pc, word := w, place := p, data := d, addr := 0, async := false }
        | .go c s => s.issueClause k th c

/-! ## The order of words across places (R32, R45, R51) -/

/-- Whether the next word of the clause at position i may execute: the clause is first in its place's order, and every
earlier clause at the home place of a register that the clause names has executed. -/
def Thread.canRun (th : Thread) (i : Nat) : Bool :=
  match th.clauses[i]? with
  | none => false
  | some c =>
    let open_ := fun (p : Place) =>
      (th.clauses.take i).any (fun b => !b.todo.isEmpty && decide (placeOfClass b.hdr.cls = p))
    !c.todo.isEmpty && !open_ (placeOfClass c.hdr.cls) &&
    c.words.all (fun w => (namesG w.2).all (fun n => !open_ (SMap.get .lane n th.place)) &&
      ((namesS w.2).isEmpty || !open_ .core))

/-! ## Bitmaps and queues at commit (R114, R116) -/

/-- Set or clear bit n of the bitmap at a storage address. -/
def Form.setBit (f : Form) (bm n : Nat) (v : Bool) : Form :=
  let a := bm + 4 * (n / 32)
  let w := f.word a
  let m := BitVec.ofNat 32 (2 ^ (n % 32))
  f.write { addr := a, bytes := leBytes 4 (if v then w ||| m else w &&& ~~~m).toNat, tag := .keep }

/-- Whether an outstanding copy or collective owns one of the bits. -/
def Form.bitsOwned (f : Form) (bm : Nat) (bits : List Nat) : Bool :=
  f.owned.any (fun o => o.2.1 == bm && bits.contains o.2.2)

/-- Take bits of a bitmap for an operation: the words become a bitmap object, and the bits are cleared. -/
def Form.takeBits (f : Form) (id bm : Nat) (bits : List Nat) : Form :=
  let f := if Tab.find? (bm / 4) f.objs = some .bitmap then f
    else f.write { addr := bm, bytes := List.replicate 32 0, tag := .object .bitmap }
  let f := bits.foldl (fun f n => f.setBit bm n false) f
  { f with owned := f.owned ++ bits.map (fun n => (id, bm, n)) }

/-- The bits that an act takes. -/
def bitsOfAct : CommitAct → Option (Nat × List Nat)
  | .copy _ (.bulk _ bm left _) => some (bm, left)
  | .coll c => c.bit.map (fun b => (b.1, [b.2]))
  | _ => none

def Cluster.queue (c : Cluster) (q : Nat) : List CopyOp := Tab.getD [] q c.queues

/-- The queues that an act enters. -/
def queuesOfAct : CommitAct → List Nat
  | .copy qs _ => qs
  | .scatter q _ _ _ => [q]
  | _ => []

/-- The hall words that an act reads or takes as its clause commits: a bitmap's, and those that CPYS reads. -/
def wordsOfAct : CommitAct → List Nat
  | .scatter _ o size _ => wordsOfSpan o size
  | a => match bitsOfAct a with | some (bm, _) => wordsOfSpan bm 32 | none => []

/-- What the COPY acts of a clause wait for, all together: for their engine, where a queue has no room for them or an
outstanding copy or collective owns bits that they take (R114, R116), or for one of their hall words that another clause holds
reserved (R297). -/
def State.copyWait (s : State) (k : Nat) (fm : Form) (acts : List CommitAct) : Option Wait :=
  let qs := acts.flatMap queuesOfAct
  if qs.any (fun q => decide (32 < ((s.cluster fm.cluster).queue q).length + qs.count q)) ||
      acts.any (fun a => match bitsOfAct a with | some (bm, bits) => fm.bitsOwned bm bits | none => false) then some .engine
  else if acts.any (fun a => (wordsOfAct a).any (fun w => fm.heldByOther k (4 * w))) then some .reservation
  else none

/-- The place of a thread among those of one cycle: by core, then lane, then slot row (R116). -/
def Thread.pos (th : Thread) : Nat := th.core * 1024 + th.lane * 16 + th.row

/-- The bundle that a fine-grain copy belongs to: the address and the issue tick of its clause, which is the thread's first
(R118). -/
def Thread.bundleOf (th : Thread) (kind : CopyKind) : Option (Nat × Nat) :=
  match kind with
  | .gather _ _ _ | .scatter _ _ => th.clauses.head?.map (fun c => (c.va.toNat, c.tick))
  | _ => none

/-- The operation that a thread's act gives its engine. -/
def State.newOp (s : State) (k f : Nat) (kind : CopyKind) : CopyOp :=
  let op : CopyOp := { id := s.serial, thread := k, form := f, started := false, kind := kind, tick := s.clock }
  match Tab.find? k s.threads with
  | some th => { op with pos := th.pos, bundle := th.bundleOf kind }
  | none => op

/-- Whether an operation that reaches the engine goes before one that stands in a queue: both came in one cycle, the other has
not started and its thread stands behind in the order of R116; those of one bundle come in their own order (R118). -/
def CopyOp.passes (a b : CopyOp) : Bool :=
  a.tick == b.tick && !b.started && decide (a.pos < b.pos) && (a.bundle.isNone || a.bundle != b.bundle)

/-- An operation enters a queue: at its end, but before those at the end that it passes. -/
def joinQueue (op : CopyOp) (q : List CopyOp) : List CopyOp :=
  (q.reverse.dropWhile op.passes).reverse ++ op :: (q.reverse.takeWhile op.passes).reverse

/-- An operation enters its queues. -/
def State.enqueue (s : State) (k f : Nat) (fm : Form) (qs : List Nat) (kind : CopyKind) : State :=
  let op := s.newOp k f kind
  s.fresh.modCluster fm.cluster (fun c =>
    { c with queues := qs.foldl (fun t q => Tab.put q (joinQueue op (Tab.getD [] q t)) t) c.queues })

/-- The COPY-class operations of a thread that are not yet performed (R119). -/
def Cluster.copiesOf (c : Cluster) (k : Nat) : List Nat :=
  c.queues.flatMap (fun q => (q.2.filter (·.thread == k)).map (·.id)) ++ ((c.colls.filter (·.thread == k)).map (·.id))

/-- Perform a COPY act: the operation enters its queues. CPYS reads its hall bytes here, and a poisoned word among them
ends the form with its launch (R89, R118, R397). A collective reads its buffer after what its thread issued before it,
earlier words of the clause included (R131). -/
def State.startCopy (s : State) (k f : Nat) (a : CommitAct) : State :=
  match Tab.find? f s.forms with
  | none => s
  | some fm =>
    match a with
    | .copy qs kind =>
      (match bitsOfAct a with
        | some (bm, bits) => s.modForm f (·.takeBits s.serial bm bits)
        | none => s).enqueue k f fm qs kind
    | .scatter q o size va =>
      if (wordsOfSpan o size).any (fun w => decide (fm.tag (4 * w) = .poisoned)) then
        (s.note (.cause0F f)).endLaunch fm.node 0x0B
      else s.enqueue k f fm [q] (.scatter ((List.range size).map (fun i => fm.byte (o + i))) va)
    | .coll c =>
      let s := match c.bit with
        | some (bm, n) => s.modForm f (·.takeBits c.id bm [n])
        | none => s
      s.modCluster fm.cluster (fun x => { x with colls := x.colls ++ [{ c with before := x.copiesOf k }] })
    | _ => s

/-! ## Channels and counters at commit (R168, R306, R364) -/

/-- The channel number and phase of a BARWAIT on a counter, if that is what the thread waits in. -/
def Thread.waitsPhase (th : Thread) (fm : Form) : Option (Nat × Nat) :=
  th.clauses.zipIdx.findSome? (fun (x : Clause × Nat) =>
    match x.1.wait, x.1.todo with
    | .channelBarrier, (_, .barwait true a b) :: _ =>
      let e : Env := { s := State.reset, k := 0, th := th, fm := fm, i := x.2, cl := x.1, idx := 0 }
      some (capEnd (Rec.cap fm.rcd (e.reg a).toNat), (e.src b).toNat)
    | _, _ => none)

/-- The clusters and cores that hold a thread waiting for a phase of counter `id` of which `done` holds. -/
def State.waitingAt (s : State) (id : Nat) (done : Nat → Bool) : List (Nat × Nat) :=
  s.threads.filterMap (fun p =>
    match Tab.find? p.2.form s.forms with
    | none => none
    | some fm => match p.2.waitsPhase fm with
      | some (i, b) => if i = id ∧ done b then some (p.2.core / 8, p.2.core % 8) else none
      | none => none)

def State.port (s : State) (p : Nat) : Port := Tab.getD Port.reset p s.ports

/-- Bytes 0 to 247 of a flit (R219; log 36 for the byte order). -/
def flitBytes (f : Flit) : List Byte :=
  leBytes 2 (f.cls * 4096 + f.len) ++ leBytes 2 f.dest ++ leBytes 4 f.seq ++ leBytes 8 f.tag ++
  ((f.payload ++ List.replicate (56 - f.payload.length) (0 : Word)).flatMap (fun (w : Word) => leBytes 4 w.toNat)) ++ leBytes 8 f.ack

/-- A flit that waits to be sent, throttle flits first (R195, R219). -/
def Port.send (p : Port) (fl : Flit) : Port :=
  let f := { fl with seq := p.txSeq, ack := (p.next + (2 ^ 32 - 1)) % 2 ^ 32 }
  let f := { f with crc := Config.crc64 (flitBytes f) }
  { p with txSeq := (p.txSeq + 1) % 2 ^ 32,
           tx := if f.cls = 0 then p.tx.filter (fun x => x.cls == 0) ++ [f] ++ p.tx.filter (fun x => x.cls != 0)
             else p.tx ++ [f] }

/-- Send a message to another device, on the port that leads there (R219, log 36). -/
def State.emit (s : State) (dest cls tag : Nat) (payload : List Word) : State :=
  let p := Config.portTo dest % 16
  if dest = Config.deviceId ∨ !(s.port p).up then s
  else
    { s with ports := Tab.put p ((s.port p).send
        { cls := cls, len := payload.length, dest := dest, seq := 0, tag := tag, payload := payload, ack := 0, crc := 0 }) s.ports }

/-- One arrival at a counter; the last of a phase releases it, for the threads that wait for that phase (R168, R306). -/
def State.arriveAt (s : State) (id : Nat) : State :=
  match Tab.find? id s.counters with
  | none => s
  | some c =>
    if c.arrived + 1 = c.target then
      let ws := s.waitingAt id (fun b => b == c.phase.toNat)
      let order := ((List.range 64).map (fun i => (i + c.clStart) % 64)).filter (fun x => ws.any (fun w => w.1 == x))
      { s with counters := Tab.put id { c with phase := c.phase + 1, arrived := 0, order := c.order ++ order.map (·, c.phase),
                                               clStart := (c.clStart + 1) % 64 } s.counters }
    else { s with counters := Tab.put id { c with arrived := c.arrived + 1 } s.counters }

/-- An arrival of this device: the other devices that share the counter are sent it (R219, R305). -/
def State.arriveHere (s : State) (id : Nat) : State :=
  match Tab.find? id s.counters with
  | none => s
  | some c => c.devices.foldl (fun s d => s.emit d 1 id [BitVec.ofNat 32 id]) (s.arriveAt id)

/-- Add to a form's count of undelivered messages on a capability (R364). -/
def State.sentOn (s : State) (f cap : Nat) (up : Bool) : State :=
  s.modForm f (fun x =>
    { x with sent := SMap.set 0 cap (if up then SMap.get 0 cap x.sent + 1 else SMap.get 0 cap x.sent - 1) x.sent })

/-- A message is delivered: it counts no longer against its sender's allowance (R364). -/
def State.delivered (s : State) (m : Msg) : State :=
  match m.sender with | some (f, cap) => s.sentOn f cap false | none => s

/-- Whether a peer form of a launch has retired: admitted, and gone (R364). -/
def State.peerRetired (s : State) (node lin : Nat) : Bool :=
  match Tab.find? node s.nodes with
  | none => true
  | some n => decide (lin < n.next) && !s.forms.any (fun p => p.2.node == node && p.2.lin == lin &&
      decide (p.2.phase ≠ .writeBack ∧ p.2.phase ≠ .done))

/-- Append a message (R364, R377). -/
def State.sendMsg (s : State) (f : Nat) (fm : Form) (cap : Nat) (ws : List Word) : State :=
  let c := Rec.cap fm.rcd cap
  let m : Msg := { words := ws, sender := some (f, cap) }
  if capKind c = 3 then
    if s.peerRetired fm.node (capEnd c) then s
    else
      let key := fifoKey fm.node fm.lin (capEnd c)
      ({ s with fifos := Tab.put key (Tab.getD [] key s.fifos ++ [m]) s.fifos }).sentOn f cap true
  else
    let key := mailKey fm.fn (capEnd c)
    ({ s with mailOut := Tab.put key (Tab.getD [] key s.mailOut ++ [m]) s.mailOut }).sentOn f cap true

/-- Remove the oldest message of a source (R364, R365). -/
def State.recvMsg (s : State) (peer : Bool) (key : Nat) : State :=
  if peer then
    match Tab.getD [] key s.fifos with
    | [] => s
    | m :: r => ({ s with fifos := Tab.put key r s.fifos }).delivered m
  else { s with mailIn := Tab.put key (Tab.getD [] key s.mailIn).tail s.mailIn }

/-! ## The acts of a commit -/

/-- Cut a range out of a binding (R123). -/
def Bind.cut (lo hi : Nat) (b : Bind) : List Bind :=
  if b.hi ≤ lo ∨ hi ≤ b.lo then [b]
  else (if b.lo < lo then [{ b with hi := lo }] else []) ++ (if hi < b.hi then [{ b with lo := hi }] else [])

/-- PLACE, GROW and SHRINK at commit (R39 to R41). -/
def Thread.placeReg (th : Thread) (n : Nat) (p : Place) : Thread := { th with place := SMap.set .lane n p th.place }
def Thread.grow (th : Thread) (n : Nat) : Thread :=
  (List.range n).foldl (fun (t : Thread) i =>
    { t with g := SMap.set 0 (th.w + i) 0 t.g, place := SMap.set .lane (th.w + i) .lane t.place })
    { th with w := th.w + n }
def Thread.shrink (th : Thread) (n : Nat) : Thread :=
  (List.range n).foldl (fun (t : Thread) i =>
    { t with g := SMap.set 0 (th.w - n + i) 0 t.g, place := SMap.set .lane (th.w - n + i) .lane t.place })
    { th with w := th.w - n }

/-- LOADP of lane at commit (R181); its registers are buffered writes. Restored counts take the place of the tokens' counts. -/
def Thread.loadp (th : Thread) (p : Place) (area : List Word) : Thread :=
  let wd := fun (k : Nat) => area.getD k 0
  let counts := (List.finRange 6).flatMap (fun t => List.replicate ((wd (4 + t.val)).toNat % 64)
    ({ tok := some t, dst := .none, val := 0, kind := .restored } : Lat))
  if p = .lane then
    { th with
      place := areaPlaces area, ns := (wd 2).truncate 5,
      lats := th.lats.map (fun l => { l with tok := none }) ++ counts,
      tcause := wd 20 &&& 0x1F, tpc := wd 21, tpchi := wd 22 &&& 0xFFFFFF, tinfo := wd 23 &&& 0xFFFF007F,
      taddr := wd 24 }
  else th

/-- RETT at commit (R176). -/
def Thread.rett (th : Thread) (nxt : Bool) : Thread :=
  { th with trapState := false, noBreak := if th.tcause = 0x0E ∧ !nxt then some th.tpcVA else th.noBreak }

/-- ROLLDECL at commit: an identical set has no effect (R138). -/
def MCtx.declare (c : MCtx) (roll base : Nat) (mask : BitVec 64) : MCtx :=
  let r := c.roll roll
  if r.base = base ∧ r.mask = mask then c
  else c.setRoll roll { base := base, mask := mask, key := none, sigs := [] }

/-- A load of an activation table takes its place among those of its core, in issue order (R79, R300). -/
def Core.load (c : Core) (l : BankLoad) : Core :=
  { c with loads := c.loads.filter (fun x => decide (x.seq ≤ l.seq)) ++ l :: c.loads.filter (fun x => decide (l.seq < x.seq)) }

/-- Put a status that is known only at commit where the clause buffered it (log 1). -/
def patchG (gw : List (Nat × Word)) (slot : Nat) (d : Option Nat) (v : Word) : List (Nat × Word) :=
  match d with
  | none => gw
  | some n => gw.set (gw.length - 1 - slot) (n, v)

/-- Perform one act of a clause that commits. Acts follow in word order, so that one after an MSAVE acts on the context that
this has just frozen (log 95). -/
def State.doAct (s : State) (k f : Nat) (gw : List (Nat × Word)) (a : CommitAct) : State × List (Nat × Word) :=
  match Tab.find? k s.threads, Tab.find? f s.forms with
  | some th, some fm =>
    let fc := fm.fcOf th.core
    match a with
    | .place n p => (s.modThread k (·.placeReg n p), gw)
    | .grow n => (s.modThread k (·.grow n), gw)
    | .shrink n => (s.modThread k (·.shrink n), gw)
    | .wrNs v => (s.modThread k (fun t => { t with ns := v }), gw)
    | .wrPrio v => (s.modForm f (fun x => { x with prio := min x.prio v }), gw)
    | .clk v => (s.modThread k (fun t => { t with clk := v }), gw)
    | .send cap msg => (s.sendMsg f fm cap msg, gw)
    | .recv peer src => (s.recvMsg peer src, gw)
    | .barrier => (s, gw)
    | .arrive id slot d _ =>
      let v := match Tab.find? id s.counters with | some c => c.phase | none => 0
      (s.arriveHere id, patchG gw slot d v)
    | .bind b => (s.modForm f (fun x => { x with binds := x.binds.flatMap (Bind.cut b.lo b.hi) ++ [b] }), gw)
    | .launch img va pte slot d =>
      let r := s.launchNode fm img va pte
      (r.1, patchG gw slot d (boolWord r.2))
    | .loadp p area => (s.modThread k (·.loadp p area), gw)
    | .exit => (s.modThread k (fun t => { t with status := .exited }), gw)
    | .yield =>
      if fm.phase = .yielding then (s.modThread k (fun t => { t with status := .yielded }), gw)
      else (s.modThread k (fun t => { t with age := 0 }), gw)
    | .rett nxt => (s.modThread k (·.rett nxt), gw)
    | .copy _ _ => (s.startCopy k f a, gw)
    | .scatter _ _ _ _ => (s.startCopy k f a, gw)
    | .coll _ => (s.startCopy k f a, gw)
    | .rolldecl r b m => (s.modForm f (fun x => x.modCtx fc (·.declare r b m)), gw)
    | .msave addr op => (s.startLate f fc { MOp.thread op (.msave .z) with late := some (addr, []) }, gw)
    | .mrestore a _ op =>
      let img := match s.restoreCheck f th.core fm a with | .ok w => w | .error _ => []
      (s.startLate f fc { MOp.thread op (.mrestore .z) with late := some (0, img) }, gw)
    | .ringdone o _ => (s.modForm f (fun x => x.endRing o), gw)
    | .matrix op => (s.modForm f (fun x => x.modCtx fc (fun c => { c with ops := c.ops ++ [op] })), gw)
    | .actld bank image op =>
      let seq := match th.clauses.head? with | some c => c.seq | none => 0
      (s.modCore th.core (·.load { op := op, bank := bank, image := image, form := f, seq := seq }), gw)
  | _, _ => (s, gw)

def State.doActs (s : State) (k f : Nat) (gw : List (Nat × Word)) : List CommitAct → State × List (Nat × Word)
  | [] => (s, gw)
  | a :: r => let x := s.doAct k f gw a; x.1.doActs k f x.2 r

/-! ## Commit -/

/-- Whether the threads of the clause's bundle perform its effects in ascending bench-lane: the stores of a SCALAR clause and
the fine-grain copies of a COPY clause (R118, R388). -/
def Clause.inBundleOrder (c : Clause) : Bool :=
  (decide (c.hdr.cls = .scalar) && !c.hw.isEmpty) ||
  (decide (c.hdr.cls = .copy) && c.acts.any (fun a => match a with
    | .copy _ (.gather _ _ _) => true | .scatter _ _ _ _ => true | _ => false))

/-- Whether a clause waits for its bundle: a thread of a lower bench-lane, or of a lower lane where two benches meet in one
bundle (log 101), has not yet committed the clause that issued with it. -/
def State.bundleHeld (s : State) (th : Thread) (c : Clause) : Bool :=
  c.inBundleOrder && s.threads.any (fun p => p.2.core == th.core &&
    decide (p.2.blane < th.blane ∨ (p.2.blane = th.blane ∧ p.2.lane < th.lane)) &&
    p.2.clauses.any (fun d => d.va == c.va && d.tick == c.tick))

/-- What a finished clause waits for before it commits: the hall words that another clause holds reserved (R297), its
context while it is frozen and the operations that a freeze or a restore must wait for (R153, R348), signatures pending on
a roll it declares (R138), a counter that another clause holds (R306), a node of another launch (R157), or its bundle (R118,
R388). A committed MSAVE that waits for the clause itself does not hold it. COPY acts wait on their own. -/
def State.commitWait (s : State) (k : Nat) (th : Thread) (fm : Form) (c : Clause) : Option Wait :=
  let ctx := fm.mctx (fm.fcOf th.core)
  let others := ctx.others [c]
  if c.hw.any (fun x => (wordsOfSpan x.addr x.bytes.length).any (fun w => fm.heldByOther k (4 * w))) then
    some .reservation
  else if c.acts.any (fun a => match a with
      | .rolldecl _ _ _ => true | .matrix _ => true | _ => false) &&
      (ctx.frozen.isSome || ctx.ops.any (fun o => o.late.isSome &&
        !(ctx.ahead o.id).any (fun p => (opsOf [c]).contains p.id))) then some .frozen
  else if c.acts.any (fun a => match a with
      | .rolldecl r _ _ => !(ctx.roll r).sigs.isEmpty | _ => false) then some .roll
  else if c.acts.any (fun a => match a with
      | .msave _ _ => !(ctx.frozen.isSome || (mayFreeze others && s.sealedOps th.form others))
      | .mrestore _ _ _ => !others.isEmpty
      | _ => false) then some .drain
  else if c.acts.any (fun a => match a with | .arrive id _ _ _ => s.counterHeld id k | _ => false) then
    some .channelBarrier
  else if c.acts.any (fun a => match a with
      | .launch img va pte _ _ => (s.launchWait fm.ctx va pte img).isSome | _ => false) then some .fetch
  else if s.bundleHeld th c then some .held
  else none

/-- An MRESTORE whose image is refused as the clause commits: its word, cause and TADDR (R348). -/
def State.commitFault (s : State) (f : Nat) (th : Thread) (fm : Form) (c : Clause) : Option (Nat × Nat × Word) :=
  c.acts.findSome? (fun a => match a with
    | .mrestore x idx _ =>
      (match s.restoreCheck f th.core fm x with | .error e => some (idx, e.1, e.2) | .ok _ => none)
    | _ => none)

/-- Whether the record registers of a COPY clause hold what its words read (R111, R119). -/
def Clause.recsHold (c : Clause) (fm : Form) (th : Thread) : Bool := c.recs.all (fun p => sRead fm th 0 p.1 == p.2)

/-- The thread after a clause's register effects (R51): the clause leaves, and its results become outstanding under its
token (R47). -/
def Thread.retire (th : Thread) (c : Clause) (gw : List (Nat × Word)) : Thread :=
  { th with
    clauses := th.clauses.tail, g := gw.foldr (fun p g => SMap.set 0 p.1 p.2 g) th.g, ns := th.ns ||| c.nsOr,
    lats := th.lats ++ c.lats.map (fun l => { l with tok := setTok c.hdr, seq := c.seq }), sw := c.hdr.sw }

/-- One write of an s register by a clause with issue number `seq`: the write that issued last stands (R36, log 88). -/
def Bench.put1 (b : Bench) (seq n : Nat) (v : Word) : Bench :=
  if seq < SMap.get 0 n b.last then b
  else { b with s := SMap.set 0 n v b.s, last := SMap.set 0 n seq b.last }

/-- The s register writes of a clause, latest first. -/
def Bench.putS (b : Bench) (seq : Nat) (sw : List (Nat × Word)) : Bench := sw.foldr (fun p b => b.put1 seq p.1 p.2) b

/-- Whether a clause arrives at a barrier (R201). -/
def Clause.arrives (c : Clause) : Bool :=
  c.acts.any (fun a => match a with | .barrier => true | .arrive _ _ _ _ => true | _ => false)

/-- After a commit: step mode's trap, once no clause is outstanding (R186), the stop of a shed form (R201), meetings and
requests that an exit completes (R310, R335, R139), and a trap that waited for the clause (R53). -/
def State.afterCommit (s : State) (k f : Nat) (c : Clause) : State :=
  match Tab.find? k s.threads, Tab.find? f s.forms with
  | some th, some fm =>
    let p : Pending := { cause := 0x0E, pc := th.pc, word := 0, place := s.placeAt fm.cluster fm.ctx th.pc, data := 0xFFFF,
                         addr := 0, async := false }
    let s := if th.step && th.clauses.isEmpty && th.pending.isNone && decide (th.status = .live) then
        s.modThread k (fun t => { t with pending := some p })
      else s
    let s := if fm.shed && decide (fm.phase = .running) && c.arrives && decide (th.status = .live) then
        s.modThread k (fun t => { t with status := .stopped }) else s
    let s := if th.status = .exited then (s.meet f th.bench).askSlew fm.cluster else s
    s.settle k
  | _, _ => s

/-- The BARWAITs of a form whose phase has completed wait no longer (R27, R309). -/
def State.wake (s : State) (f : Nat) : State :=
  match Tab.find? f s.forms with
  | none => s
  | some fm => { s with threads := s.threads.map (fun p => (p.1,
      if p.2.form = f ∧ fm.waitDone p.1 then
        { p.2 with clauses := p.2.clauses.map (fun c => if c.wait = .barrier then c.waits .none else c) }
      else p.2)) }

/-- Perform a clause's effects together: acts, hall writes, then registers (R51, R297). -/
def State.finishClause (s : State) (k f : Nat) (c : Clause) : State :=
  let s := s.modForm f (fun x => x.writes c.hw)
  let r := s.doActs k f c.gw c.acts
  let s := r.1.modThread k (·.retire c r.2)
  let s := match Tab.find? k s.threads with
    | some th => s.modForm f (fun x => ((x.modBench th.bench (·.putS c.seq c.sw)).release k).serveAll c.hw)
    | none => s
  (s.wake f).afterCommit k f c

/-- The thread's first clause cannot commit yet: it waits. -/
def State.waitCommit (s : State) (k : Nat) (w : Wait) : State :=
  s.modThread k (fun t => { t with clauses := t.clauses.modify 0 (·.waits w) })

/-- Commit the thread's first clause, once it has executed, or wait (R51). A COPY clause enters all its operations
together. -/
def State.commit (s : State) (k : Nat) : State :=
  match Tab.find? k s.threads with
  | none => s
  | some th =>
    match Tab.find? th.form s.forms, th.clauses with
    | some fm, c :: _ =>
      if !c.todo.isEmpty then s
      else if !c.recsHold fm th then
        s.modThread k (fun t => { t with clauses := t.clauses.modify 0 Clause.restart })
      else
        match s.commitWait k th fm c with
        | some w => s.waitCommit k w
        | none =>
          match s.commitFault th.form th fm c with
          | some (w, cause, a) => s.raise k 0 { cause := cause, pc := c.va, word := w, place := trapPlaceOf c.hdr.cls,
                                                data := 0, addr := a, async := false }
          | none =>
            match (if c.hdr.cls = .copy then s.copyWait k fm c.acts else none) with
            | some w => s.waitCommit k w
            | none => s.finishClause k th.form c
    | _, _ => s

/-- Whether a thread's first clause may try to commit. -/
def State.canCommit (s : State) (k : Nat) : Bool :=
  match Tab.find? k s.threads with
  | none => false
  | some th => (match th.clauses with | c :: _ => c.todo.isEmpty | [] => false) && decide (th.status ≠ .exited)

/-- CLAUSE_DISPATCH (R172). -/
def execClauseDispatch (t : Nat) (s : State) : Out State := runEvent s true (·.dispatch t)

/-- CLAUSE_COMMIT (R51). -/
def execClauseCommit (t : Nat) (s : State) : Out State := runEvent s (s.canCommit t) (·.commit t)

/-! ## Arriving results (R46 to R48) -/

/-- Write the register of a result that arrives. -/
def State.land (s : State) (k : Nat) (l : Lat) : State :=
  match l.dst with
  | .none => s
  | .g n => s.modThread k (fun th => { th with g := SMap.set 0 n l.val th.g })
  | .s n => match Tab.find? k s.threads with
    | none => s
    | some th => s.modForm th.form (fun f => f.modBench th.bench (·.put1 l.seq n l.val))

/-- The j-th outstanding result arrives: its register is written, its token falls, and a trap that waited may enter. -/
def State.arrive (s : State) (k j : Nat) (l : Lat) : State :=
  ((s.land k l).modThread k (fun th => { th with lats := th.lats.eraseIdx j })).settle k

/-- LONG_LATENCY_RESULT (R47): the j-th outstanding result of the thread, which must be a register result. -/
def execLongLatencyResult (t : Nat) (j : Nat) (s : State) : Out State :=
  match (Tab.find? t s.threads).bind (fun th => th.lats[j]?) with
  | some l => runEvent s (decide (l.kind = .value)) (fun s => s.arrive t j l)
  | none => .next s

/-- Complete a unit's result of thread k: the outstanding result of that kind, in the file or still in its clause. -/
def State.completeKind (s : State) (k : Nat) (kind : LatKind) : State :=
  match Tab.find? k s.threads with
  | none => s
  | some th =>
    match th.lats.findIdx? (fun l => decide (l.kind = kind)) with
    | some j => s.arrive k j (th.lats.getD j { tok := none, dst := .none, val := 0, kind := kind })
    | none =>
      s.modThread k (fun th => { th with clauses := th.clauses.map (fun c =>
        { c with lats := c.lats.map (fun l => if l.kind = kind then { l with kind := .value } else l) }) })

/-! ## Asynchronous traps (R27, R173, R184) -/

/-- Where an asynchronous cause stops the thread: at its next clause once nothing is outstanding, or at its first
outstanding clause if that is in a wait which the cause ends; its header VA and place. A later clause's wait ends once the
clauses before it have completed (R173); the watchdog ends any wait (log 89). -/
def State.stopPoint (s : State) (th : Thread) (fm : Form) (cause : Nat) : Option (VAddr × Nat) :=
  match th.clauses with
  | [] => some (th.pc, s.placeAt fm.cluster fm.ctx th.pc)
  | c :: _ =>
    if c.wait.interruptible || (cause == 0x13 && decide (c.wait ≠ .none)) then some (c.va, trapPlaceOf c.hdr.cls) else none

def Thread.clearPend (th : Thread) (c : Nat) : Thread :=
  match c with
  | 0x11 => { th with pend11 := false }
  | 0x10 => { th with pend10 := false }
  | _ => { th with pend13 := false }

/-- The asynchronous trap that may be taken now, at the thread's next clause or at its first outstanding one. -/
def State.asyncTrap (s : State) (k : Nat) : Option Pending :=
  match Tab.find? k s.threads with
  | none => none
  | some th =>
    match Tab.find? th.form s.forms with
    | none => none
    | some fm =>
      if th.status = .live ∧ th.pending = none ∧ fm.move = none ∧ (fm.phase = .running ∨ fm.phase = .yielding) then
        match th.dueCause with
        | none => none
        | some c => (s.stopPoint th fm c).map (fun x =>
            { cause := c, pc := x.1, word := 0, place := x.2, data := 0, addr := 0, async := true })
      else none

/-- ASYNC_TRAP_TAKEN (R173): the cause is taken at the next clause, or at the clause whose wait it ends. -/
def execAsyncTrapTaken (t : Nat) (s : State) : Out State :=
  match s.asyncTrap t with
  | some p => runEvent s true (fun s => (s.modThread t (·.clearPend p.cause)).raise t 0 p)
  | none => .next s

/-- WATCHDOG_EXPIRE (R31): the counter is in units of 1/32 cycle (log 7). -/
def execWatchdogExpire (f : Nat) (s : State) : Out State :=
  runEvent s (match Tab.find? f s.forms with
      | some x => decide (x.phase = .running) && !x.shed && decide (2 ^ 29 ≤ x.watchdog) | none => false)
    (fun s => { s.modForm f (fun x => { x with watchdog := 0 }) with
      threads := s.threads.map (fun p =>
        (p.1, if p.2.form = f ∧ p.2.status ≠ .exited then { p.2 with pend13 := true } else p.2)) })

/-- PARK_TIMEOUT (R184, R201): 4 ms after its form was shed, a thread that has not stopped is parked. -/
def execParkTimeout (t : Nat) (s : State) : Out State :=
  runEvent s (match Tab.find? t s.threads with
      | some th => decide (th.status = .live) && (match Tab.find? th.form s.forms with
        | some f => f.shed && decide (f.phase = .running) && decide (f.shedTick + 3200000 ≤ s.clock) | none => false)
      | none => false)
    (fun s => s.modThread t (fun th => { th with pend11 := true }))

/-! ## Sleep, GROW deadlock, released barriers -/

/-- A thread's waiting word is done, with one change to its clause. -/
def State.endWord (s : State) (k i : Nat) (f : Clause → Clause) : State := s.modThread k (·.endWord i f)

/-- The position of the thread's clause that sleeps, and until when. -/
def Thread.sleeping (th : Thread) : Option (Nat × Nat) :=
  th.clauses.zipIdx.findSome? (fun (x : Clause × Nat) => match x.1.wait with | .sleep till => some (x.2, till) | _ => none)

/-- SLEEP_EXPIRE (R385). -/
def execSleepExpire (t : Nat) (s : State) : Out State :=
  match Tab.find? t s.threads with
  | none => .next s
  | some th =>
    match th.sleeping with
    | some (i, till) => runEvent s (decide (till ≤ (s.cluster (th.core / 8)).cyc)) (fun s => s.endWord t i id)
    | none => .next s

/-- The waiting GROWs of a core: when each began, its lane, row and key. -/
def State.growWaits (s : State) (core : Nat) : List (Nat × Nat × Nat × Nat) :=
  s.threads.filterMap (fun p => if p.2.core = core ∧ p.2.status = .live then
    p.2.growing.map (fun t => (t, p.2.lane, p.2.row, p.1)) else none)

/-- The youngest: the last to begin, then the higher lane, then the higher row. -/
def younger (a b : Nat × Nat × Nat × Nat) : Bool :=
  decide (b.1 < a.1 ∨ (b.1 = a.1 ∧ (b.2.1 < a.2.1 ∨ (b.2.1 = a.2.1 ∧ b.2.2.1 < a.2.2.1))))

/-- Whether R167 counts this cycle on a core: a GROW waits, and every live thread is in a GROW wait or in a wait on an
object of its own form. -/
def State.growStuck (s : State) (core : Nat) : Bool :=
  !(s.growWaits core).isEmpty && s.threads.all (fun p =>
    decide (p.2.core ≠ core) || decide (p.2.status = .exited) ||
    (decide (p.2.status = .live) && (p.2.growing.isSome || p.2.clauses.any (·.wait.ownForm))))

/-- The position of the thread's clause that waits in a GROW, and the GROW's destination. -/
def Thread.growAt (th : Thread) : Option (Nat × Reg) :=
  th.clauses.zipIdx.findSome? (fun (x : Clause × Nat) =>
    match x.1.wait, x.1.todo with | .grow _, (_, .grow d _) :: _ => some (x.2, d) | _, _ => none)

/-- GROW_DEADLOCK (R167): the youngest GROW returns 0; the count of 64 cycles is in units of 1/32 cycle (log 7). -/
def execGrowDeadlock (core : Nat) (s : State) : Out State :=
  match s.growWaits core with
  | [] => .next s
  | x :: r =>
    let y := r.foldl (fun m z => if younger z m then z else m) x
    runEvent s (s.growStuck core && decide (2048 ≤ (s.core core).growIdle)) (fun s =>
      let s := s.modCore core (fun c => { c with growIdle := 0 })
      match (Tab.find? y.2.2.2 s.threads).bind Thread.growAt with
      | some (i, d) => s.endWord y.2.2.2 i (·.put d 0)
      | none => s)

/-- The cores of a cluster that hold threads waiting for a released phase, from the counter's core start index (R168). -/
def State.coresAt (s : State) (id cl : Nat) (c : Counter) (phase : Word) : List Nat :=
  let ws := s.waitingAt id (fun b => b == phase.toNat)
  ((List.range 8).map (fun i => (i + SMap.get 0 cl c.coreStart) % 8)).filter (fun x => ws.contains (cl, x))

/-- The recorded order of a release in a cluster that a replay has not yet come to (R221). -/
def State.dueGrants (s : State) (id cl : Nat) : Option RecItem :=
  s.play.find? (fun x => match x with | .grants i c _ => i == id && c == cl | _ => false)

/-- The core order of a release in a cluster: that of R168, or in replay the recorded one. -/
def State.grantOrder (s : State) (id cl : Nat) (c : Counter) (phase : Word) : List Nat :=
  match (if s.replaying then s.dueGrants id cl else none) with
  | some (.grants _ _ order) => order
  | _ => s.coresAt id cl c phase

/-- CHANNEL_BARRIER_RELEASE (R168, R220, R221): a release reaches the next cluster of the counter's order. -/
def execChannelBarrierRelease (id cl : Nat) (s : State) : Out State :=
  match Tab.find? id s.counters with
  | none => .next s
  | some c =>
    match c.order with
    | [] => .next s
    | (x, phase) :: rest =>
      runEvent s (x == cl) (fun s =>
        let cores := s.grantOrder id cl c phase
        let start := SMap.set 0 cl ((SMap.get 0 cl c.coreStart + 1) % 8) c.coreStart
        let wake := fun (p : Nat × Thread) =>
          match (Tab.find? p.2.form s.forms).bind p.2.waitsPhase with
          | some (i, b) =>
            if i = id ∧ p.2.core / 8 = cl ∧ b = phase.toNat then
              (p.1, { p.2 with clauses := p.2.clauses.map (fun c => if c.wait = .channelBarrier then c.waits .none else c) })
            else p
          | none => p
        let cs := Tab.put id { c with order := rest, coreStart := start } s.counters
        let s1 := { s with counters := cs, threads := s.threads.map wake }
        ((s1.keep (.grants id cl cores)).played (.grants id cl cores)).modCluster cl (·.reach cores))

/-- COUNTER_CREATE (R305). -/
def execCounterCreate (id target : Nat) (devices : List Nat) (s : State) : Out State :=
  runEvent s (decide (id < 1024 ∧ 1 ≤ target ∧ target ≤ 2 ^ 24))
    (fun s =>
      let c : Counter := { target := target, phase := 0, arrived := 0, devices := devices, clStart := 0, coreStart := [],
                           order := [] }
      { s with counters := Tab.put id c s.counters })

/-! ## The control kernel and the debugger (R174, R185, R186, R397) -/

/-- KERNEL_RESUME_THREAD (R174): as RETT would. The kernel reads COUNT by the page table. -/
def execKernelResumeThread (t : Nat) (nxt : Bool) (s : State) : Out State :=
  match Tab.find? t s.threads with
  | none => .next s
  | some th =>
    let h := th.tpcVA
    let n := ((Tab.find? th.form s.forms).bind (fun f => s.seek f.cluster f.ctx h.toNat)).map
      (fun e => field (s.pageWord e h.toNat) 31 28)
    runEvent s (decide (th.status = .kernel) && (!nxt || n.isSome)) (fun s =>
      s.modThread t (fun th => { (th.rett nxt) with
        status := .live, pc := if nxt then addWords h (1 + n.getD 0) else h }))

/-- KERNEL_END_LAUNCH (R106, R160, R397): the kernel ends a launch for a cause that ends it, or a node of another kind
whose unit it does not let go on. -/
def execKernelEndLaunch (n err : Nat) (s : State) : Out State :=
  runEvent s (match Tab.find? n s.nodes with
    | some x => (s.nodeState n == 1 || s.nodeState n == 2) &&
        (err == 0x0B || (x.kind == 0 && (err == 0x09 || err == 0x0C)))
    | none => false) (·.endLaunch n err)

/-- COMPARATOR_PROGRAM (R185): VA bits 55:2 are held. -/
def execComparatorProgram (core idx : Nat) (en : Bool) (ctx : Nat) (va : VAddr) (s : State) : Out State :=
  runEvent s (decide (idx < 8))
    (fun s => s.modCore core (fun c => { c with comps := Tab.put idx { en := en, ctx := ctx, word := va.extractLsb' 2 54 } c.comps }))

/-- STEP_MODE_SET (R186). -/
def execStepModeSet (t : Nat) (on : Bool) (s : State) : Out State :=
  runEvent s true (fun s => s.modThread t (fun th => { th with step := on }))

end Sys2Proof.Machine
end

