-- ==== Sys2Proof/Machine/MatrixEngine.lean ====
section
/-! DEFINITION. The acts of the matrix array, of the signature stage and of the current-slew limiter (R138 to R155, R191,
R192), and the completion of ACTLD (R79, R300). -/

namespace Sys2Proof.Machine

/-! ## Operand fetch (R140) -/

/-- The view address of the first of n elements, from an address on, whose storage is poisoned. -/
def poisonAt (f : Form) (a : Word) (idx : List Nat) : Option Nat :=
  (resolve f.rcd a.toNat).bind (fun h => firstPoison f h idx)

/-- The first failed unit of a window tile, as an offset (R95, R144). -/
def windowPoison (s : State) (f : Form) (b : Nat) : Option Nat :=
  ((List.range (64 * rowBytes (Rec.wformat f.rcd) (Rec.wgeom f.rcd))).map (· + b)).find?
    (fun o => s.isBad (weightPa (f.cluster / 16) (Rec.wbase f.rcd + o)))

/-- The first uncorrectable error that a round's fetch finds: the signers' rows in rank order, then the tile. -/
def fetchError (s : State) (f : Form) (ins : Instr) (rows : List (Nat × Sig)) : Option Nat :=
  let row := List.range 64
  let b := match rows with | p :: _ => p.2.b | [] => 0
  let tile := fun (_ : Unit) =>
    if isWs ins then windowPoison s f b.toNat else poisonAt f b (List.range 4096)
  match ins with
  | .mma _ _ _ _ _ _ _ =>
    (match rows.findSome? (fun p => poisonAt f p.2.a row) with | some a => some a | none => tile ())
  | .mmconv _ _ _ _ _ _ _ _ kb =>
    (match rows.findSome? (fun p =>
        let v := convOf p.2.extra
        poisonAt f (BitVec.ofNat 32 v.input) (convReads v p.2.a.toNat kb.toNat)) with
     | some a => some a | none => tile ())
  | .mload _ _ _ => rows.findSome? (fun p => poisonAt f p.2.a row)
  | .sgbkt m _ _ _ _ _ _ _ => if m = .first then none else rows.findSome? (fun p => poisonAt f (p.2.extra.getD 0 0) row)
  | .sgsum _ _ _ _ _ => rows.findSome? (fun p => poisonAt f p.2.a row)
  | _ => none

/-! ## The signature stage (R150, R152) -/

/-- The FP32 row at an address, read as BFMA operands are. -/
def fpRow (f : Form) (a : Word) : List Word :=
  match resolve f.rcd a.toNat with | some h => rowFP f h | none => List.replicate 64 0

/-- The element-wise sum of rows in order, each step rounded. -/
def sumRows (rs : List (List Word)) : List Word :=
  (List.range 64).map (fun k => rs.foldl (fun s r => rnAdd s (r.getD k 0)) (0 : Word))
def meanRows (rs : List (List Word)) : List Word :=
  (sumRows rs).map (fun s => rnDiv (valOfFP32 s) rs.length)
/-- The writes of a row of FP32 values with one scale chosen per block (R66, R150, R152). -/
def rowBlocks (f : Form) (h : HallRef) (ws : List Word) : List HallW :=
  if h.seg.geom = 0 then rowWrites f h ws
  else
    let g := unitElems h.seg.fmt h.seg.geom
    (List.range (64 / g)).map (fun j =>
      { addr := h.sb + (h.rel / 4 / g + j) * (g + 1),
        bytes := blockBytes h.seg.fmt h.seg.geom (((ws.drop (j * g)).take g).map valOfFP32), tag := .full })

/-- The address of a row's storage. -/
def rowAt (h : HallRef) : Nat :=
  h.sb + (if expanded h.seg.fmt then h.rel / 4 / unitElems h.seg.fmt h.seg.geom * unitBytes h.seg.fmt h.seg.geom else h.rel)

/-- The storage bytes of the row at an address. -/
def rawRow (f : Form) (a : Word) : List Byte :=
  match resolve f.rcd a.toNat with
  | some h => (List.range (rowBytes h.seg.fmt h.seg.geom)).map (fun i => f.byte (rowAt h + i))
  | none => []

/-- Whether the row of a signer stands in storage of the format and geometry of a staging row (R150). -/
def sameFormat (f : Form) (p : Nat × Sig) (h : HallRef) : Bool :=
  match resolve f.rcd (p.2.extra.getD 0 0).toNat with
  | some g => g.seg.fmt == h.seg.fmt && g.seg.geom == h.seg.geom
  | none => false

/-- The member whose storage bytes become a bucket's staging row as they are, if the row is made so (R150). -/
def MOp.copied (o : MOp) (f : Form) (m : Rep) (b : List (Nat × Sig)) (h : HallRef) : Option (Nat × Sig) :=
  if m = .maxnorm then (maxNormOf o b).filter (fun p => sameFormat f p h) else none

/-- The check of a bucket's staging row at address a (R143, R378). -/
def MOp.stageCheck (o : MOp) (f : Form) (m : Rep) (b : List (Nat × Sig)) (a : Nat) : Chk Unit :=
  let raw := match resolve f.rcd a with | some h => (o.copied f m b h).isSome | none => false
  if m = .first then .ok ()
  else (rowStore f a (fun h =>
    if raw then [(List.range (rowBytes h.seg.fmt h.seg.geom)).map (· + rowAt h)] else rowUnits f true h) raw).map (fun _ => ())

/-- The writes of a bucket's staging row at address a (R150). -/
def MOp.stageRow (o : MOp) (f : Form) (m : Rep) (b : List (Nat × Sig)) (a : Nat) : List HallW :=
  match resolve f.rcd a, m with
  | some h, .mean => rowBlocks f h (meanRows (b.map (fun p => o.wordsOf p.1)))
  | some h, .maxnorm =>
    (match o.copied f m b h with
     | some p => [{ addr := rowAt h, bytes := o.rawOf p.1, tag := .full }]
     | none => rowBlocks f h (((maxNormOf o b).map (fun p => o.wordsOf p.1)).getD []))
  | _, _ => []

/-- The failing check of the lowest cause, the first of several (R378). -/
def worst (xs : List (Chk Unit)) : Option (Nat × Word) :=
  xs.foldl (fun m x => match x, m with
    | .error e, some w => if e.1 < w.1 then some e else some w
    | .error e, none => some e
    | .ok _, m => m) none

/-- SGBKT's buckets have compact indices below 64 (R150). -/
def bucketsFit (ins : Instr) (rows : List (Nat × Sig)) : Bool :=
  match ins with
  | .sgbkt _ _ _ _ _ _ _ off => decide (off.val + (buckets rows).length ≤ 64)
  | _ => true

/-- The check of SGBKT's staging rows, which are known once its round is (R378). -/
def MOp.stagesFail (o : MOp) (f : Form) : Option (Nat × Word) :=
  let (m, off, stage) := o.staging
  worst ((buckets o.rows).zipIdx.map (fun x => o.stageCheck f m x.1 (stage + 256 * (off + x.2))))

/-- SGBKT's writes: the map, in which a rank without a signer has 0, and the staging rows. -/
def MOp.bucketWrites (o : MOp) (f : Form) : List HallW :=
  let (m, off, stage) := o.staging
  let b := match o.rows with | p :: _ => p.2.b | [] => 0
  let words := (List.range o.set.2).map (fun r => (o.mapWords.lookup r).getD 0)
  (match resolve f.rcd b.toNat with
   | some h => [{ addr := h.sb + h.rel, bytes := words.flatMap (fun x => leBytes 4 x.toNat), tag := .full }]
   | none => []) ++
  (buckets o.rows).zipIdx.flatMap (fun x => o.stageRow f m x.1 (stage + 256 * (off + x.2)))

/-- The leader mask of a round (R150). -/
def MOp.leaders (o : MOp) : List Word :=
  let m := ((buckets o.rows).filterMap (fun b => b.head?)).foldl (fun n p => n + 2 ^ (p.2.thread % 4096 - o.set.1)) 0
  [BitVec.ofNat 32 m, BitVec.ofNat 32 (m / 2 ^ 32)]

/-- The writes of SGSUM: one row per compact index presented (R152). -/
def MOp.sums (o : MOp) (f : Form) (mean : Bool) : List HallW :=
  let cs := ((o.rows.map (fun p => (p.2.extra.getD 0 0).toNat)).dedup)
  cs.flatMap (fun c =>
    let ms := o.rows.filter (fun p => (p.2.extra.getD 0 0).toNat == c)
    let rs := ms.map (fun p => o.wordsOf p.1)
    let a := match ms with | p :: _ => (p.2.extra.getD 1 0).toNat + 256 * c | [] => 0
    match resolve f.rcd a with
    | some h => rowBlocks f h (if mean then meanRows rs else sumRows rs)
    | none => [])

/-! ## Issue (R139, R140) -/

/-- The clause in which a thread waits for its roll's round: its position, itself, and its word. -/
def Thread.signing (th : Thread) : Option (Nat × Clause × Nat) :=
  th.clauses.zipIdx.findSome? (fun (x : Clause × Nat) =>
    if x.1.wait = .roll then x.1.todo.head?.map (fun w => (x.2, x.1, w.1)) else none)

/-- Fault every signer's clause (R140, R378). -/
def State.faultSigners (s : State) (rows : List (Nat × Sig)) (cause : Nat) (addr : Word) : State :=
  rows.foldl (fun s p =>
    match (Tab.find? p.2.thread s.threads).bind Thread.signing with
    | some (i, c, idx) => s.raise p.2.thread i
        { cause := cause, pc := c.va, word := idx, place := trapPlaceOf c.hdr.cls, data := 0, addr := addr, async := false }
    | none => s) s

/-- A signer's word is done as its round issues. -/
def State.signedDone (s : State) (op : Nat) (k : Nat) (d : Option (Nat × Word)) : State :=
  match (Tab.find? k s.threads).bind Thread.signing with
  | none => s
  | some (i, _, idx) => s.endWord k i (fun c => { c.sealed op d with signed := c.signed ++ [(idx, op)] })

/-- Read the memory operands of an operation's rows (R140). -/
def MOp.fetch (o : MOp) (s : State) (f : Form) : MOp :=
  let fp := fun (a : Sig → Word) => o.rows.map (fun p => fpRow f (a p.2))
  match o.ins with
  | .mma _ ws _ _ _ _ _ =>
    let p := productOp s f o.id o.ins o.rows o.nextGroup
    { o with a := p.a, b := if ws && !o.b.isEmpty then o.b else p.b, grp := if o.grp = 0 then p.grp else o.grp }
  | .mmconv _ ws _ _ _ _ _ _ _ =>
    let p := productOp s f o.id o.ins o.rows o.nextGroup
    { o with a := p.a, b := if ws && !o.b.isEmpty then o.b else p.b, grp := if o.grp = 0 then p.grp else o.grp }
  | .mload _ _ _ => { o with words := fp (·.a) }
  | .sgbkt .first _ _ _ _ _ _ _ => o
  | .sgbkt _ _ _ _ _ _ _ _ =>
    { o with words := fp (fun g => g.extra.getD 0 0), raw := o.rows.map (fun p => rawRow f (p.2.extra.getD 0 0)) }
  | .sgsum _ _ _ _ _ => { o with words := fp (·.a) }
  | _ => o

/-- The operation that a full round becomes (its operands are read now), with what SGBKT gives each signer. -/
def issueOp (s : State) (f : Form) (id : Nat) (r : Roll) (ins : Instr) (rows : List (Nat × Sig)) :
    Chk (MOp × List (Nat × Word)) :=
  let op := ({ MOp.thread id ins with rows := rows }).fetch s f
  match ins with
  | .sgbkt _ _ _ _ _ _ _ _ =>
    let op := { op with set := (r.base, r.size) }
    (match op.stagesFail f with
     | some e => .error e
     | none => .ok (op, op.mapWords))
  | _ => .ok (op, [])

/-! ## What an operation does (R141 to R143) -/

/-- The writes of an operation: of MSTORE, the rows as they are when it is performed. -/
def storeWrites (f : Form) (c : MCtx) (op : MOp) : List HallW :=
  match op.ins with
  | .mstore acc _ _ _ => op.rows.flatMap (fun p => match resolve f.rcd p.2.a.toNat with
      | some h => rowWrites f h (SMap.getList 0 (accKey acc.val p.2.b.toNat 0) 64 c.acc)
      | none => [])
  | .sgbkt _ _ _ _ _ _ _ _ => op.bucketWrites f
  | .sgsum mean _ _ _ _ => op.sums f mean
  | _ => op.writes

/-- The accumulators and flags after an operation. -/
def MCtx.perform (c : MCtx) (op : MOp) : SMap Word × List (Nat × BitVec 5) :=
  match op.ins with
  | .mma _ _ _ _ _ _ _ => op.advance c.acc (op.groups - op.nextGroup)
  | .mmconv _ _ _ _ _ _ _ _ _ => op.advance c.acc (op.groups - op.nextGroup)
  | .mzero acc _ =>
    (op.rows.foldl (fun a p => SMap.setList 0 (accKey acc.val p.1 0) (List.replicate 64 0) a) c.acc, [])
  | .mload acc _ _ =>
    ((List.zip op.rows op.words).foldl (fun a p => SMap.setList 0 (accKey acc.val p.1.1 0) p.2 a) c.acc, [])
  | _ => (c.acc, [])

/-- An operation as it is performed: one that issued behind writes which were held back reads its operands now, from the
hall as it was at its issue with those of the writes that have been performed (R134, R140). -/
def MOp.ready (o : MOp) (s : State) (f : Form) : MOp :=
  match o.base with
  | some h => o.fetch s { f with hall := h }
  | none => o

/-- A write, as a later operation that keeps the hall of its issue sees it. -/
def MOp.sees (o : MOp) (ws : List HallW) (f : Form) : MOp :=
  { o with base := o.base.map (fun h => (({ f with hall := h }).writes ws).hall) }

/-- The form after an operation of a context: its writes and accumulators, and the operations that are left. -/
def Form.perform (f : Form) (s : State) (fc : Nat) (o : MOp) : Form :=
  let c := f.mctx fc
  let op := o.ready s f
  let ws := storeWrites f c op
  let later := (c.ops.dropWhile (fun x => x.id != o.id)).tail.map (·.sees ws f)
  (f.modCtx fc (fun c => { c with acc := (c.perform op).1, ops := c.ops.takeWhile (fun x => x.id != o.id) ++ later })).writes ws

/-- The form as a round's fetch sees it: as if the operations before it had been performed (R140). -/
def Form.view (f : Form) (s : State) (fc : Nat) : Form :=
  (f.mctx fc).ops.foldl (fun g o => match (g.mctx fc).ops.find? (fun x => x.id == o.id) with
    | some x => if x.late.isSome then g else g.perform s fc x
    | none => g) f

/-- Re-arm a roll with the same set (R139). -/
def Roll.rearm (r : Roll) : Roll := { r with key := none, sigs := [] }

/-- The instruction of a round: that of its lowest live rank. -/
def insOf (rows : List (Nat × Sig)) : Instr := match rows with | p :: _ => p.2.ins | [] => .nop

/-- Issue a round. The checks that need the round come in the order of R396: the number of buckets, poison in what is
fetched, and the staging rows. Where writes before it are held back, it keeps the hall of its issue (log 77). -/
def State.issue (s : State) (f fc roll : Nat) (fm : Form) : State :=
  let r := (fm.mctx fc).roll roll
  let rows := r.signed f
  let ins := insOf rows
  let s1 := s.modForm f (fun x => x.modCtx fc (fun c => c.setRoll roll r.rearm))
  let held := (fm.mctx fc).ops.any (fun o => writesMemory o.ins)
  let seen := if held then fm.view s fc else fm
  if !bucketsFit ins rows then s1.faultSigners rows 0x04 0
  else
    match fetchError s seen ins rows with
    | some a => s1.faultSigners rows 0x0F (BitVec.ofNat 32 a)
    | none =>
      match issueOp s seen s.serial r ins rows with
      | .error (c, a) => s1.faultSigners rows c a
      | .ok (op0, ds) =>
        let op := { op0 with base := if held then some fm.hall else none }
        let s2 := s1.fresh.modForm f (fun x => x.modCtx fc (fun c => { c with ops := c.ops ++ [op] }))
        rows.foldl (fun s p =>
          let d := match ins with
            | .sgbkt _ _ _ _ _ _ _ _ => some ((p.2.extra.getD 1 0).toNat, (ds.lookup p.1).getD 0)
            | _ => none
          s.signedDone op.id p.2.thread d) s2

/-- The core of a form's core index. -/
def Form.coreAt (f : Form) (fc : Nat) : Nat := f.cores.getD fc 0

/-- A stream ends in the first cycle with no operation in flight and none ready (R191). -/
def State.endStream (s : State) (core : Nat) : State :=
  let c := s.cluster (core / 8)
  if c.runOf (core % 8) = .stream ∧ !s.coreBusy core ∧ !s.coreReady core then
    s.modCluster (core / 8) (fun c => { c with run := Tab.put (core % 8) (.filler c.cyc) c.run })
  else s

/-- ROLL_ROUND_ISSUE (R140, R191): a full round of a core that the limiter has granted issues. -/
def execRollRoundIssue (f fc roll : Nat) (s : State) : Out State :=
  match Tab.find? f s.forms with
  | none => .next s
  | some fm =>
    runEvent s (decide (fm.phase = .running ∨ fm.phase = .yielding) &&
        s.roundReady f (fm.mctx fc) ((fm.mctx fc).roll roll) &&
        decide ((s.cluster fm.cluster).runOf (fm.coreAt fc % 8) = .stream))
      (fun s => ((s.issue f fc roll fm).modCluster fm.cluster (·.leave (fm.coreAt fc % 8))).endStream (fm.coreAt fc))

/-! ## Completion (R141 to R143) -/

/-- The accumulator rows that an operation reads or writes. -/
def MOp.accRows (op : MOp) : List (Nat × Nat) :=
  match op.ins with
  | .mma _ _ _ acc _ _ _ => op.rows.map (fun p => (acc.val, p.1))
  | .mmconv _ _ _ acc _ _ _ _ _ => op.rows.map (fun p => (acc.val, p.1))
  | .mzero acc _ => op.rows.map (fun p => (acc.val, p.1))
  | .mload acc _ _ => op.rows.map (fun p => (acc.val, p.1))
  | .mstore acc _ _ _ => op.rows.map (fun p => (acc.val, p.2.b.toNat))
  | _ => []

/-- Whether an operation may complete: no earlier operation of the context uses one of its accumulator rows, no clause
holds a word that it writes reserved (R140, R297), its signers' clauses have committed (R51, R134), and the writes that were
held back at its issue have been performed. -/
def State.mayComplete (s : State) (f : Nat) (fm : Form) (c : MCtx) (op : MOp) : Bool :=
  let ahead := c.ops.takeWhile (fun o => o.id != op.id)
  op.late.isNone && ahead.all (fun o => !o.accRows.any (fun r => op.accRows.contains r)) &&
  (op.base.isNone || ahead.all (fun o => !writesMemory o.ins)) &&
  (storeWrites fm c (op.ready s fm)).all (fun w => (wordsOfSpan w.addr w.bytes.length).all (fun x => !fm.held (4 * x))) &&
  !s.uncommitted f op.id

/-- SGBKT's leader mask, to every bench that holds a signer, in one write that is ordered by the cycle in which it is
performed (R150, R378). -/
def Form.putMasks (f : Form) (s : State) (op : MOp) : Form :=
  match op.ins with
  | .sgbkt _ _ _ _ _ _ sL _ =>
    let bs := (op.rows.filterMap (fun p => (Tab.find? p.2.thread s.threads).map (·.bench))).dedup
    bs.foldl (fun f b => f.modBench b (fun x => { x with s := SMap.setList 0 sL.val op.leaders x.s })) f
  | _ => f

/-- A result that an outstanding operation is to write. -/
def Thread.reval (th : Thread) (op : Nat) (v : Word) : Thread :=
  { th with lats := th.lats.map (fun l => if l.kind = .matrix op then { l with val := v } else l) }

/-- The D of SGBKT's signers: their own map words (R150). -/
def State.putMaps (s : State) (op : MOp) : State :=
  match op.ins with
  | .sgbkt _ _ _ _ _ _ _ _ => op.rows.foldl (fun s p =>
      s.modThread p.2.thread (·.reval op.id ((op.mapWords.lookup p.1).getD 0))) s
  | _ => s

/-- The threads that an operation completes, by their own results or by the counts that LOADP restored (R155). -/
def State.settleOp (s : State) (f : Nat) (op : MOp) : State :=
  let own := fun (th : Thread) => (th.lats ++ th.clauses.flatMap (·.lats)).any (fun l => decide (l.kind = .matrix op.id))
  let mine := ((s.threadsOf f).filter (fun p => own p.2)).map (·.1)
  let s1 := mine.foldl (fun s k => s.completeKind k (.matrix op.id)) s
  (op.rows.filter (fun p => !mine.contains p.2.thread)).foldl (fun s p =>
    match Tab.find? p.2.thread s.threads with
    | none => s
    | some th =>
      match th.lats.findIdx? (fun l => decide (l.kind = .restored) && decide (l.tok.map (fun t => t.val + 1) = some p.2.set)) with
      | some j => s.arrive p.2.thread j (th.lats.getD j { tok := none, dst := .none, val := 0, kind := .restored })
      | none => s) s1

/-- Complete an operation of a context. -/
def State.completeOp (s : State) (f fc : Nat) (fm : Form) (o : MOp) : State :=
  let op := o.ready s fm
  let ws := storeWrites fm (fm.mctx fc) op
  let s1 := s.modForm f (fun x => ((x.perform s fc o).serveAll ws).putMasks s op)
  (((s1.orNs (productOf op.ins).2.1 ((fm.mctx fc).perform op).2).putMaps op).settleOp f op)

/-- MATRIX_OP_COMPLETE (R141); of an MSAVE or an MRESTORE that waits for earlier operations, that it is performed (R153,
R348). -/
def execMatrixOpComplete (f fc op : Nat) (s : State) : Out State :=
  match Tab.find? f s.forms with
  | none => .next s
  | some fm =>
    match (fm.mctx fc).ops.find? (fun o => o.id == op) with
    | none => .next s
    | some o =>
      if o.late.isSome then runEvent s (s.lateFree f (fm.mctx fc) o) (fun s => s.runLate f fc o)
      else runEvent s (s.mayComplete f fm (fm.mctx fc) o)
        (fun s => ((s.completeOp f fc fm o).askSlew fm.cluster).endStream (fm.coreAt fc))

/-- Complete the operations of a context in their order, those that wait for earlier ones among them (R156); each of the
`fuel` turns performs or completes one. -/
def State.finishOps : Nat → State → Nat → Nat → State
  | 0, s, _, _ => s
  | fuel + 1, s, f, fc =>
    match Tab.find? f s.forms with
    | none => s
    | some fm =>
      match (fm.mctx fc).ops with
      | [] => s
      | o :: _ => (if o.late.isSome then s.runLate f fc o else s.completeOp f fc fm o).finishOps fuel f fc

/-- Complete every operation of a context, a frozen one first; nothing is left frozen (R156). -/
def State.finishCtx (s : State) (f fc : Nat) : State :=
  let s1 := s.modForm f (fun x => x.modCtx fc MCtx.thaw)
  let n := match Tab.find? f s1.forms with | some fm => 3 * (fm.mctx fc).ops.length | none => 0
  (s1.finishOps n f fc).modForm f (fun x => x.modCtx fc MCtx.thaw)

/-! ## The current-slew limiter (R191, R192) -/

/-- SLEW_GRANT (R191): the oldest request is granted while fewer cores are active than the table permits. -/
def execSlewGrant (cl core : Nat) (s : State) : Out State :=
  let c := s.cluster cl
  runEvent s (decide ((c.requests.head?).map (·.2.2) = some core) &&
      decide (c.active < (rampTable c.ramp).getD c.rampIdx 0))
    (fun s => (s.modCluster cl (fun c =>
      { c.leave core with requests := c.requests.tail, run := Tab.put core .stream c.run })).endStream (8 * cl + core))

/-- RAMP_STEP_BOUNDARY (R191): 4 cycles, of 32 units each (log 7), after the last boundary. -/
def execRampStepBoundary (cl : Nat) (s : State) : Out State :=
  runEvent s (decide ((s.cluster cl).boundary + 128 ≤ (s.cluster cl).cyc))
    (fun s => s.modCluster cl (·.stepBoundary false))

/-- FILLER_END (R191): after 12 cycles of filler the core is no longer active, or it starts a new stream. -/
def execFillerEnd (cl core : Nat) (s : State) : Out State :=
  match (s.cluster cl).runOf core with
  | .filler since =>
    runEvent s (decide (since + 384 ≤ (s.cluster cl).cyc))
      (fun s => s.modCluster cl (fun c => { c with
        run := if s.coreReady (8 * cl + core) then Tab.put core .stream c.run else Tab.del core c.run }))
  | _ => .next s

/-! ## ACTLD (R77, R79, R300) -/

/-- Whether a clause that issued before a load, on its core, has an ACTLD and has not committed (R79). -/
def State.loadBehind (s : State) (core : Nat) (l : BankLoad) : Bool :=
  s.threads.any (fun p => p.2.core == core && p.2.clauses.any (fun c => decide (c.seq < l.seq) &&
    c.words.any (fun w => match w.2 with | .actld _ _ => true | _ => false)))

/-- ACTLD_COMPLETE (R79): the load of the core that issued first replaces its bank. -/
def execActldComplete (core : Nat) (s : State) : Out State :=
  match (s.core core).loads with
  | [] => .next s
  | l :: r => runEvent s (!s.loadBehind core l) (fun s =>
      let s1 := s.modCore core (fun c => { c with loads := r, banks := Tab.put l.bank (bankOf l.image l.form) c.banks })
      (s1.threads.filter (fun p => (p.2.lats ++ p.2.clauses.flatMap (·.lats)).any
        (fun x => decide (x.kind = .actld l.op)))).foldl (fun s p => s.completeKind p.1 (.actld l.op)) s1)

end Sys2Proof.Machine
end

