-- ==== Sys2Proof/Machine/CopyEngine.lean ====
section
/-! DEFINITION. The acts of the copy engines (R89, R106, R111 to R121, R131, R204 to R208, R214). -/

namespace Sys2Proof.Machine

/-! ## Moving one unit -/

/-- A storage byte, and the bytes of a storage. -/
def sideByte (s : State) (f : Form) : Store → Byte
  | .hall o => f.byte o
  | .phys pa => s.physByte pa
def sideBytes (s : State) (f : Form) (x : Store) : Bytes := fun o => sideByte s f (x.add o)

/-- What a unit moves: the storage bytes that it writes, what it writes there, and the storage bytes that it reads. -/
structure Move where
  dst : List Store
  bytes : List Byte
  reads : List Store
  deriving DecidableEq, Repr

/-- One source element of a conversion: its value, its bytes where the side is raw or FP32, and the storage bytes that
hold it. -/
def elemAt (s : State) (f : Form) (p : Plan) (es : List TlbEntry) (va : Nat) : Option (Val × List Byte × List Store) :=
  if formatAt f.rcd es f.ctx va ≠ some (p.sf, p.sg) then none
  else if expanded p.sf then
    (storeAt f.rcd es f.ctx va).map (fun x =>
      (elemVal p.sf p.sg (sideBytes s f x.1) (x.2 / 4), [],
       (elemSpan p.sf p.sg (sideBytes s f x.1) (x.2 / 4)).map (fun o => x.1.add o)))
  else
    (bytesAt f.rcd es f.ctx va 4).map (fun xs =>
      let bs := xs.map (sideByte s f)
      (valOfFP32 (BitVec.ofNat 32 (leNat bs)), bs, xs))

/-- What a unit's first k elements give its destination (R112): storage bits, or converted elements filled up by +0. -/
def unitRead (s : State) (f : Form) (p : Plan) (storage : Bool) (es : List TlbEntry) (va k : Nat) :
    Option (List Byte × List Store) :=
  if storage then
    (unitPlace f.rcd es f.ctx p.sf p.sg p.e va).map (fun xs => (xs.map (sideByte s f), xs))
  else
    ((List.range k).mapM (fun i => elemAt s f p es (va + i * p.e))).map (fun xs =>
      (if p.sf = 1 ∧ p.df = 0 then xs.flatMap (·.2.1)
       else blockBytes p.df p.dg (xs.map (·.1) ++ List.replicate (p.unit - k) (.fin false 0 0)),
       xs.flatMap (·.2.2)))

/-- A unit of a bulk copy; none where a side has another format there than the copy's, or no translation. -/
def unitMove (s : State) (f : Form) (p : Plan) (storage : Bool) (es : List TlbEntry) (u : Nat × Nat) : Option Move :=
  match unitPlace f.rcd es f.ctx p.df p.dg p.e u.2, unitRead s f p storage es u.1 p.unit with
  | some dst, some r => some { dst := dst, bytes := r.1, reads := r.2 }
  | _, _ => none

/-- Hall bytes and physical addresses among storage bytes. -/
def Store.hall? : Store → Option Nat
  | .hall o => some o
  | .phys _ => none
def Store.phys? : Store → Option Nat
  | .phys p => some p
  | .hall _ => none

/-- The hall bytes, and the physical addresses, that moves write. -/
def hallBytes (ms : List Move) : List Nat := (ms.flatMap (·.dst)).filterMap Store.hall?
def physBytesOf (ms : List Move) : List Nat := (ms.flatMap (·.dst)).filterMap Store.phys?

/-- Whether moves meet poison: a poisoned word read, or fewer than the four bytes of one written (R89). -/
def movesPoison (f : Form) (ms : List Move) : Bool :=
  let ws := hallBytes ms
  ((ms.flatMap (·.reads)).filterMap Store.hall?).any (fun o => decide (f.tag o = .poisoned)) ||
  ws.any (fun o => decide (f.tag o = .poisoned) && !wholeWord ws o)

/-- Whether moves meet an uncorrectable atom, which pauses their unit until the kernel has acted (R207, R214). A write of
a whole atom is not held by its old contents. -/
def physHeld (s : State) (ms : List Move) : Bool :=
  ((ms.flatMap (·.reads)).filterMap Store.phys?).any s.isBad ||
  (let ws := physBytesOf ms
   ws.any (fun p => s.isBad p && !(List.range 32).all (fun i => ws.contains (p / 32 * 32 + i))))

/-- Whether moves must wait: for a hall word that a clause holds reserved (R297), or an uncorrectable atom. -/
def movesHeld (s : State) (f : Form) (ms : List Move) : Bool :=
  (hallBytes ms ++ (ms.flatMap (·.reads)).filterMap Store.hall?).any f.held || physHeld s ms

/-- Perform moves: each hall word written becomes full and serves its queue (R89, R90); an atom written whole is good
again (R207). The reads of its atoms and the writes of them are requests of their own (R205). A hall word that has become an
object since the copy's issue is written and becomes full like any other (log 94). -/
def State.perform (s : State) (f : Nat) (ms : List Move) : State :=
  let zs := ms.flatMap (fun m => m.dst.zip m.bytes)
  let hw := zs.filterMap (fun z => z.1.hall?.map (fun o => ({ addr := o, bytes := [z.2], tag := .full } : HallW)))
  let s := s.modForm f (fun x => (x.writes hw).serveAll hw)
  let s := zs.foldl (fun s z => match z.1 with | .phys p => s.setPhysByte p z.2 | .hall _ => s) s
  let ws := physBytesOf ms
  let s := { s with bad := (ws.map (· / 32)).dedup.foldl (fun b a => SMap.set false a false b) s.bad }
  (s.requests ((ms.flatMap (·.reads)).filterMap Store.phys?)).requests ws

/-- A copy that meets poison ends its form's launch (R89, R397). -/
def State.poisonEnd (s : State) (f : Nat) (fm : Form) : State := (s.note (.cause0F f)).endLaunch fm.node 0x0B

/-! ## Translation for an engine (R103, R106) -/

/-- Translate a list of addresses, each with its use, through a translator; a miss or a pause stops the unit. -/
def xlatAll (x : State → Nat → Use → State × Option TlbEntry) (s : State) : List (Nat × Use) → State × Option (List TlbEntry)
  | [] => (s, some [])
  | (va, u) :: r =>
    match x s va u with
    | (s', none) => (s', none)
    | (s', some e) =>
      match xlatAll x s' r with
      | (s'', some es) => (s'', some (e :: es))
      | (s'', none) => (s'', none)

/-- The memory pages of n bytes at a copy address. -/
def sidePages (va n : Nat) (u : Use) : List (Nat × Use) :=
  match locOf va with | .hall _ => [] | .mem v => (pagesOf v n).map (fun p => (p, u))

/-- The translator of a copy: the L1 TLB of the core that issued it. -/
def State.coreOf (s : State) (k : Nat) (f : Form) : Nat :=
  match Tab.find? k s.threads with | some th => th.core | none => f.cores.getD 0 0
def copyXlat (core ctx : Nat) (s : State) (va : Nat) (u : Use) : State × Option TlbEntry := s.xlat1 core ctx va u

/-- The translator of a chunk that has begun: an entry that it has used stays in use for the rest of it (R105). -/
def keptXlat (used : List TlbEntry) (core ctx : Nat) (s : State) (va : Nat) (u : Use) : State × Option TlbEntry :=
  match used.find? (·.hits ctx va) with
  | some e => s.useEntry ctx va u e
  | none => copyXlat core ctx s va u

/-- The entries that chunks of an operation have used so far. -/
def CopyOp.kept (o : CopyOp) (cs : List Nat) : List TlbEntry := (o.used.filter (fun x => cs.contains x.1)).map (·.2)

/-- The pages of a list of units: of the source side, of the destination side. -/
def srcPages (p : Plan) (us : List (Nat × Nat)) : List (Nat × Use) := (us.flatMap (fun u => sidePages u.1 p.span .read)).dedup
def dstPages (p : Plan) (us : List (Nat × Nat)) : List (Nat × Use) := (us.flatMap (fun u => sidePages u.2 p.span .write)).dedup

/-- A side whose format was not known at issue is translated now; the copy pauses where it cannot be (R106, R113). -/
def State.learn (s : State) (core : Nat) (f : Form) (p : Plan) : State × Option Plan :=
  if p.known then (s, some p)
  else
    match xlatAll (copyXlat core f.ctx) s (sidePages p.src 1 .probe ++ sidePages p.dst 1 .probe) with
    | (s', none) => (s', none)
    | (s', some es) => (s', some (p.formats (formatAt f.rcd es f.ctx p.src) (formatAt f.rcd es f.ctx p.dst)))

/-- Whether a plan keeps the limits that depend on its formats (R113). Where a format learnt after the issue widens E from 1 to
4, the wider hall range is not checked again for causes 0x07 and 0x09: a unit past its segment's extent pauses the copy,
and an object word is written (log 103). -/
def Plan.mayStart (p : Plan) (r : SMap Word) : Bool :=
  p.limits r && !p.badSP24 && slotsOk r p.sf p.src p.sstr p.rows && slotsOk r p.df p.dst p.dstr p.rows

/-- The chunks of a plan whose bits were not taken at its commit, because a side's format was not known then (log 45). -/
def Plan.more (p : Plan) (left : List Nat) : List Nat := (List.range (p.lastChunk + 1)).filter (fun c => !left.contains c)

/-- A translation that the kernel does not let a copy use: it ends the form's launch and records the error (R106, R397). -/
def State.translationEnd (s : State) (fm : Form) (va : Nat) : State :=
  (s.note (.translation fm.ctx (va / 65536))).endLaunch fm.node 0x0B

/-! ## Starting (R114, R116, R117) -/

/-- Change the operation at the head of a queue. -/
def Cluster.modHead (c : Cluster) (q : Nat) (g : CopyOp → CopyOp) : Cluster :=
  { c with queues := Tab.mod q (fun l => l.modify 0 g) c.queues }

/-- An operation is performed: it leaves every queue. -/
def Cluster.dropOp (c : Cluster) (id : Nat) : Cluster :=
  { c with queues := c.queues.map (fun q => (q.1, q.2.filter (fun o => o.id != id))) }

def CopyOp.begin_ (o : CopyOp) : CopyOp := { o with started := true }

/-- An operation owns the bits before any other: a later one of its own clause follows it (log 65). -/
def Form.ownsFirst (f : Form) (id bm : Nat) (bits : List Nat) : Bool :=
  bits.all (fun n => (f.owned.find? (fun o => o.2.1 == bm && o.2.2 == n)).all (·.1 == id))

/-- An operation has performed the chunks of bits: it owns them no longer, and those that nothing else owns are set (R114). -/
def Form.giveBits (f : Form) (id bm : Nat) (bits : List Nat) : Form :=
  let f := { f with owned := f.owned.filter (fun o => !(o.1 == id && o.2.1 == bm && bits.contains o.2.2)) }
  bits.foldl (fun f n => if f.owned.any (fun o => o.2.1 == bm && o.2.2 == n) then f else f.setBit bm n true) f

/-- Start a bulk copy: skipped chunks' bits are set; with overlapping extents every source element is read first. A copy
that has learnt its formats takes the bits of the chunks that they add, and starts once it owns them (R106, R114). -/
def State.startBulk (s : State) (cl q : Nat) (o : CopyOp) (f : Form) (p : Plan) (bm : Nat) (left : List Nat) : State :=
  match s.learn (s.coreOf o.thread f) f p with
  | (s1, none) => s1
  | (s1, some p') =>
    let skip := p'.skipped
    let more := p'.more left
    let set := fun (s : State) (k : CopyKind) (go : Bool) =>
      s.modCluster cl (fun c => c.modHead q (fun x => { x with started := go, kind := k }))
    let go := fun (s : State) (held : Option (List (List Byte))) =>
      set (s.modForm o.form (·.giveBits o.id bm skip)) (.bulk p' bm (left.filter (fun n => !skip.contains n)) held) true
    if !p'.mayStart f.rcd then s1.translationEnd f p'.dst
    else if !p.known && !more.isEmpty then
      set (s1.modForm o.form (·.takeBits o.id bm more)) (.bulk p' bm (left ++ more) none) false
    else if !p'.overlaps then go s1 none
    else
      match xlatAll (copyXlat (s1.coreOf o.thread f) f.ctx) s1 (srcPages p' p'.units) with
      | (s2, none) => s2
      | (s2, some es) =>
        match p'.units.mapM (fun u => unitRead s2 f p' (p'.storage (relOf f.rcd p'.src)) es u.1 p'.unit) with
        | none => s2.pause f.ctx p'.src
        | some rs =>
          let ms := rs.map (fun r => ({ dst := [], bytes := [], reads := r.2 } : Move))
          if movesPoison f ms then s2.poisonEnd o.form f
          else if movesHeld s2 f ms then s2
          else go (s2.perform o.form ms) (some (rs.map (·.1)))

/-- COPY_OP_START (R116): the operation at the head of a queue starts; QFENCE is performed once it heads every queue that
it entered (R117). -/
def execCopyOpStart (cl q : Nat) (s : State) : Out State :=
  match ((s.cluster cl).queue q).head? with
  | none => .next s
  | some o =>
    match Tab.find? o.form s.forms with
    | none => .next s
    | some f =>
      runEvent s (!o.started) (fun s =>
        match o.kind with
        | .bulk p bm left _ => if f.ownsFirst o.id bm left then s.startBulk cl q o f p bm left else s
        | .qfence qs =>
          if qs.all (fun x => decide ((((s.cluster cl).queue x).head?).map (·.id) = some o.id)) then
            s.modCluster cl (·.dropOp o.id)
          else s
        | _ => s.modCluster cl (·.modHead q CopyOp.begin_))

/-! ## Chunks (R113, R114, R131) -/

/-- The move of one unit of a started copy: its bytes are those held from before the copy's first write (R111), or are
read now. -/
def bulkMove (s : State) (f : Form) (p : Plan) (held : Option (List (List Byte))) (es : List TlbEntry) (u : Nat × Nat) :
    Option Move :=
  match held with
  | none => unitMove s f p (p.storage (relOf f.rcd p.src)) es u
  | some bs => (unitPlace f.rcd es f.ctx p.df p.dg p.e u.2).map (fun dst =>
      { dst := dst, bytes := bs.getD (p.units.findIdx (· == u)) [], reads := [] })

/-- The units that an operation has not performed: those of chunks that are left. -/
def Plan.due (p : Plan) (left moved : List Nat) (us : List (Nat × Nat)) : List (Nat × Nat) :=
  let all := p.units
  us.filter (fun u => (p.chunksOf u).all left.contains && !moved.contains (all.findIdx (· == u)))

/-- The units that chunk c still has to write: one with bytes in two chunks is written whole with the first of them, and
none that has been performed already. -/
def Plan.dueIn (p : Plan) (left moved : List Nat) (c : Nat) : List (Nat × Nat) := p.due left moved (p.unitsOf c)

/-- The moves of units, those of one chunk by the one translation of each page that the chunk uses (R105), and the entries
that each chunk has used; none where they must wait. -/
def State.movesOf (s : State) (o : CopyOp) (f : Form) (p : Plan) (held : Option (List (List Byte))) (us : List (Nat × Nat)) :
    List (List Nat) → State × Option (List Move × List (Nat × TlbEntry))
  | [] => (s, some ([], []))
  | cs :: r =>
    let g := us.filter (fun u => p.chunksOf u == cs)
    match xlatAll (keptXlat (o.kept cs) (s.coreOf o.thread f) f.ctx) s
        ((if held.isNone then srcPages p g else []) ++ dstPages p g) with
    | (s1, none) => (s1, none)
    | (s1, some es) =>
      match g.mapM (bulkMove s1 f p held es) with
      | none => (s1.pause f.ctx p.dst, none)
      | some ms =>
        match s1.movesOf o f p held us r with
        | (s2, none) => (s2, none)
        | (s2, some (ms', used)) => (s2, some (ms ++ ms', cs.flatMap (fun c => es.map (c, ·)) ++ used))

/-- The units among some that write a byte of a poisoned hall word of which moves write only a part. -/
def sharing (f : Form) (p : Plan) (ms : List Move) (us : List (Nat × Nat)) : List (Nat × Nat) :=
  let ws := hallBytes ms
  let part := (ws.filter (fun o => decide (f.tag o = .poisoned) && !wholeWord ws o)).map (· / 4)
  if part.isEmpty then []
  else us.filter (fun u => (((unitPlace f.rcd [] f.ctx p.df p.dg p.e u.2).getD []).filterMap Store.hall?).any
    (fun o => part.contains (o / 4)))

/-- Perform units of a started copy, and with them those by which it writes the rest of a poisoned word that they write in
part: what R89 asks of a word, it asks of all the bytes that the copy writes there (log 46). The units that were performed
and the entries that their chunks used; none where they must wait, or the copy has ended. -/
def State.moveUnits (s : State) (o : CopyOp) (f : Form) (p : Plan) (left : List Nat) (held : Option (List (List Byte))) :
    Nat → List (Nat × Nat) → State × Option (List (Nat × Nat) × List (Nat × TlbEntry))
  | 0, _ => (s, none)
  | fuel + 1, us =>
    match s.movesOf o f p held us (us.map p.chunksOf).dedup with
    | (s', none) => (s', none)
    | (s', some (ms, used)) =>
      let more := (sharing f p ms (p.due left o.moved p.units)).filter (fun u => !us.contains u)
      if movesHeld s' f ms then (s', none)
      else if !more.isEmpty then s.moveUnits o f p left held fuel (us ++ more)
      else if movesPoison f ms then (s'.poisonEnd o.form f, none)
      else (s'.perform o.form ms, some (us, used))

/-- An operation with the chunks that are left and the units performed of them; of a chunk that has begun, the entries that
it used. -/
def CopyOp.progress (o : CopyOp) (p : Plan) (bm : Nat) (held : Option (List (List Byte))) (rest : List Nat)
    (us : List (Nat × Nat)) (used : List (Nat × TlbEntry)) : CopyOp :=
  let all := p.units
  { o with kind := .bulk p bm rest held,
           moved := o.moved ++ (us.filter (fun u => (p.chunksOf u).all rest.contains)).map (fun u => all.findIdx (· == u)),
           used := ((o.used ++ used).filter (fun x => rest.contains x.1)).dedup }

/-- A chunk's writes are performed and its bit is set; the last one ends the copy. -/
def State.doChunk (s : State) (cl q : Nat) (o : CopyOp) (f : Form) (p : Plan) (bm : Nat) (left : List Nat)
    (held : Option (List (List Byte))) (c : Nat) : State :=
  match s.moveUnits o f p left held (p.units.length + 1) (p.dueIn left o.moved c) with
  | (s', none) => s'
  | (s', some (us, used)) =>
    let rest := left.filter (· != c)
    let s2 := s'.modForm o.form (·.giveBits o.id bm [c])
    if rest.isEmpty then s2.modCluster cl (·.dropOp o.id)
    else s2.modCluster cl (fun x => x.modHead q (fun y => y.progress p bm held rest us used))

/-- One unit of the copy that heads a queue is performed before the rest of its chunk: an access by a thread meanwhile finds
some elements old and some new (R114, R271). -/
def State.moveUnit (s : State) (cl q u : Nat) : State :=
  match ((s.cluster cl).queue q).head? with
  | none => s
  | some o =>
    match o.kind, Tab.find? o.form s.forms with
    | .bulk p bm left held, some f =>
      (match p.units[u]? with
       | none => s
       | some x =>
         if o.started && (p.chunksOf x).all left.contains && !o.moved.contains u then
           match s.moveUnits o f p left held (p.units.length + 1) [x] with
           | (s', none) => s'
           | (s', some (us, used)) =>
             s'.modCluster cl (fun c => c.modHead q (fun y => y.progress p bm held left us used))
         else s)
    | _, _ => s

/-- CHUNK_BIT_SET (R114). -/
def execChunkBitSet (cl q chunk : Nat) (s : State) : Out State :=
  match ((s.cluster cl).queue q).head? with
  | none => .next s
  | some o =>
    match o.kind, Tab.find? o.form s.forms with
    | .bulk p bm left held, some f =>
      runEvent s (o.started && left.contains chunk) (fun s => s.doChunk cl q o f p bm left held chunk)
    | _, _ => .next s

/-! ## Fine-grain copies (R118) -/

/-- The storage bytes at n bytes of a copy address: a hall side is raw (R118); in memory, those that the pages map there
(log 87). -/
def finePlace (f : Form) (es : List TlbEntry) (va n : Nat) : Option (List Store) :=
  match locOf va with
  | .hall _ => bytesAt f.rcd es f.ctx va n
  | .mem _ => (List.range n).mapM (fun i =>
      (entryFor es f.ctx (va + i)).bind (fun e => (storedAt e.pte (va + i)).map .phys))

/-- The move of a fine-grain copy: storage bytes, moved unchanged (R118, R326). -/
def fineMove (s : State) (f : Form) (es : List TlbEntry) : CopyKind → Option Move
  | .gather size hall va => (finePlace f es va size).map (fun xs =>
      { dst := (List.range size).map (fun i => .hall (hall + i)), bytes := xs.map (sideByte s f), reads := xs })
  | .scatter data va => (finePlace f es va data.length).map (fun xs => { dst := xs, bytes := data, reads := [] })
  | _ => none

/-- The pages of a fine-grain copy. -/
def finePages : CopyKind → List (Nat × Use)
  | .gather size _ va => sidePages va size .read
  | .scatter data va => sidePages va data.length .write
  | _ => []

/-- FINE_GRAIN_DONE (R118): a started request is performed. -/
def execFineGrainDone (cl q : Nat) (s : State) : Out State :=
  match ((s.cluster cl).queue q).head? with
  | none => .next s
  | some o =>
    match o.kind, Tab.find? o.form s.forms with
    | .bulk _ _ _ _, _ => .next s
    | .qfence _, _ => .next s
    | k, some f =>
      runEvent s o.started (fun s =>
        match xlatAll (copyXlat (s.coreOf o.thread f) f.ctx) s (finePages k) with
        | (s', none) => s'
        | (s', some es) =>
          match fineMove s' f es k with
          | none => s'.pause f.ctx ((finePages k).headD (0, .probe)).1
          | some m =>
            if movesHeld s' f [m] then s'
            else if movesPoison f [m] then s'.poisonEnd o.form f
            else (s'.perform o.form [m]).modCluster cl (·.dropOp o.id))
    | _, none => .next s

/-! ## Collectives (R80, R119, R120) -/

/-- What one block of 32 elements sends, its scale and then its 32 codes, and the new residuals (R80). -/
def sendBlock (x res : List Word) : List Word × List Word :=
  let c := (List.zip x res).map (fun p => rnAdd p.1 p.2)
  let e := scaleFor 12 (c.map valOfFP32)
  let q := c.map (fun w => encodeT8 (unscaled e (valOfFP32 w)))
  let r := (List.zip c q).map (fun p =>
    if e = 255 then (0 : Word) else rnFP32 (Val.add false (valOfFP32 p.1) (scaled e (valOfT8 p.2)).neg))
  (BitVec.ofNat 32 e :: q.map (BitVec.ofNat 32), r)

/-- The lists of k elements that a list is cut into. -/
def chunksOf {α : Type} (k : Nat) (xs : List α) : List (List α) :=
  (List.range ((xs.length + (k - 1)) / k)).map (fun i => (xs.drop (k * i)).take k)

/-- A member's contribution as it is sent, and its new residuals (R80). `res` are the words that stand in the residual
buffer, whichever capability's CRED left them (log 72). -/
def contribution (transport : Nat) (x res : List Word) : List Word × List Word :=
  if transport = 3 then
    let bs := (List.zip (chunksOf 32 x) (chunksOf 32 res)).map (fun p => sendBlock p.1 p.2)
    (bs.flatMap (·.1), bs.flatMap (·.2))
  else (x, res)

/-- The exact values that a contribution decodes to (R80, R81). -/
def decoded (transport : Nat) (d : List Word) : List Val :=
  if transport = 3 then
    (chunksOf 33 d).flatMap (fun b => b.tail.map (fun q => scaled (b.headD 0).toNat (valOfT8 q.toNat)))
  else d.map valOfFP32

/-- Where a collective runs: its context and its translator. -/
structure CollCtx where
  ctx : Nat
  x : State → Nat → Use → State × Option TlbEntry

/-- The physical bytes of n bytes of byte-for-byte pages. -/
def pageStores (ctx : Nat) (es : List TlbEntry) (va n : Nat) : List Store :=
  (List.range n).filterMap (fun i => (entryFor es ctx (va + i)).map (fun e => .phys (paOf e.pte (va + i))))

/-- The words at physical bytes. -/
def wordsAt (s : State) (xs : List Store) : List Word :=
  (chunksOf 4 (xs.filterMap Store.phys?)).map (fun w => BitVec.ofNat 32 (leNat (w.map s.physByte)))

/-- The buffer after a collective: for CRED the sum of all contributions in arrival order from +0, rounded to FP32 at
each step; for CGATH each member's elements at its index (R120). -/
def collResult (gather : Bool) (transport n : Nat) (arrivals : List (Nat × List Word)) : List (Nat × List Word) :=
  if gather then arrivals.map (fun a => (a.1 * n, a.2))
  else
    let vs := arrivals.map (fun a => decoded transport a.2)
    [(0, (List.range n).map (fun k => vs.foldl (fun s v =>
      rnFP32 (Val.add false (valOfFP32 s) (v.getD k (.fin false 0 0)))) (0 : Word)))]

/-- The kernel ends the launches of a group, those none of whose forms has been admitted among them, and its collective nodes, when its members' records disagree (R120, R397). -/
def State.collectiveError (s : State) (group : Nat) : State :=
  let names := fun (r : SMap Word) => (List.range 64).any (fun n =>
    let c := Rec.cap r n
    capValid c && capKind c == 1 && capGroup c == group)
  let nodes := ((s.forms.filter (fun p => names p.2.rcd)).map (·.2.node) ++
    (s.nodes.filter (fun p => p.2.kind == 0 && names p.2.rcd)).map (·.1)).dedup
  let colls := s.clusters.flatMap (fun p => p.2.colls.filterMap (fun c => if capGroup c.cap = group then c.node else none))
  (s.note (.collective group)).endNodes (nodes ++ colls).dedup

/-- A member's arrival: its member index, the count, transport and sequence of its record, and its contribution. -/
structure CollArrival where
  member : Nat
  fields : List Word
  data : List Word
  deriving DecidableEq, Repr

def collArrivalOf (a : List Word) : CollArrival := { member := (a.headD 0).toNat, fields := (a.drop 1).take 3, data := a.drop 4 }

/-- The fields that every member's record must agree in (R120). -/
def collFields (rc : List Word) : List Word := [rc.getD 2 0, rc.getD 3 0, rc.getD 6 0]

/-- The words that a member sends for n elements: with T8, a scale for every 32 codes (R80). -/
def sentWords (transport n : Nat) : Nat := if transport = 3 then n / 32 * 33 else n

/-- Send this member's contribution to the devices that have members of its group, in flits of class 2 (R219; log 36). -/
def State.sendOwn (s : State) (c : Coll) (own : List Word) : State :=
  ((s.members.filter (fun m => m.1 == capGroup c.cap)).map (fun m => m.2 / 4)).dedup.foldl (fun s d =>
    (chunksOf 56 own).zipIdx.foldl (fun s x =>
      s.emit d 2 ((c.rc.getD 6 0).toNat * 2 ^ 32 + 56 * x.2) x.1) s) s

/-- The pages of a collective are FP32 pages, and those of its buffer are in HBM (R119). -/
def collPagesOk (ctx : Nat) (es : List TlbEntry) (va n resVA m : Nat) : Bool :=
  let ok := fun (hbm : Bool) (v : Nat) => match entryFor es ctx v with
    | some e => pteFmt e.pte == 1 && (!hbm || pteType e.pte == 0) | none => false
  (pagesOf va n).all (ok true) && (m == 0 || (pagesOf resVA m).all (ok false))

/-- A collective's arrival order as it is recorded (R220). -/
def State.collItem (s : State) (c : Coll) (order : List Nat) : RecItem :=
  match c.node, Tab.find? c.form s.forms with
  | some p, _ => .arrivals p 0 4096 (capGroup c.cap) (collFields c.rc) order
  | none, some f => .arrivals f.node f.lin (c.thread % 4096) (capGroup c.cap) (collFields c.rc) order
  | none, none => .arrivals 0 0 0 (capGroup c.cap) (collFields c.rc) order

/-- Whether two items record the same collective. -/
def sameColl : RecItem → RecItem → Bool
  | .arrivals a b c d e _, .arrivals a' b' c' d' e' _ => a == a' && b == b' && c == c' && d == d' && e == e'
  | _, _ => false

/-- Whether an arrival order is the one that a replay re-imposes, if it re-imposes one (R221, R222). -/
def State.orderForced (s : State) (x : RecItem) : Bool :=
  !s.replaying || (match s.play.find? (sameColl x) with | some y => y == x | none => true)

/-- Perform a collective at this member with the arrivals of all members, in arrival order (log 18): the members are
0 to the group's size − 1, each with its n elements, this one among them with what its buffer holds: CGATH's too are the first n there (log 104). A page that is not as
R119 asks pauses it. -/
def State.performColl (s : State) (cl : Nat) (c : Coll) (cc : CollCtx) (arrivals : List CollArrival) : State :=
  let n := recN c.rc
  let tr := recTransport c.rc
  let va := recVA c.rc 0
  let resVA := recVA c.rc 4
  let m := if hasResidual c.gather c.rc then 4 * n else 0
  if arrivals.any (fun a => a.fields != collFields c.rc) then s.collectiveError (capGroup c.cap)
  else if arrivals.any (fun a => a.data.length != sentWords tr n) then s
  else
    let total := if c.gather then n * arrivals.length else n
    let pages := (pagesOf va (4 * total)).map (fun p => (p, Use.write)) ++ (pagesOf va (4 * n)).map (fun p => (p, Use.read)) ++
      (if m = 0 then [] else (pagesOf resVA m).flatMap (fun p => [(p, Use.read), (p, Use.write)]))
    match xlatAll cc.x s pages with
    | (s', none) => s'
    | (s', some es) =>
      let src := pageStores cc.ctx es va (4 * n)
      let res := pageStores cc.ctx es resVA m
      let own := contribution tr (wordsAt s' src) (wordsAt s' res)
      let put := fun (a : Nat) (ws : List Word) (reads : List Store) =>
        ({ dst := pageStores cc.ctx es a (4 * ws.length), bytes := ws.flatMap (fun w => leBytes 4 w.toNat), reads := reads } : Move)
      let ms := (collResult c.gather tr n (arrivals.map (fun a => (a.member, a.data)))).map
          (fun r => put (va + 4 * r.1) r.2 []) ++ [put resVA (if m = 0 then [] else own.2) (src ++ res)]
      if !collPagesOk cc.ctx es va (4 * total) resVA m then s'.pause cc.ctx va
      else if physHeld s' ms then s'
      else if !arrivals.any (fun a => a.member == capMember c.cap && a.data == own.1) then s'
      else
        let s2 := s'.perform c.form ms
        let s3 := match c.bit with
          | some (bm, b) => s2.modForm c.form (·.giveBits c.id bm [b])
          | none => s2
        let item := s.collItem c (arrivals.map (·.member))
        let s4 := (((s3.sendOwn c own.1).keep item).played item).modCluster cl (fun x =>
          { x with colls := x.colls.filter (fun y => y.id != c.id) })
        match c.node with
        | some p => { s4 with nodes := Tab.mod p (fun n => { n with retired := 1 }) s4.nodes }
        | none => s4

/-- The context of a collective: its form's, or its node's, which goes through the cluster's L2 TLB. -/
def State.collCtx (s : State) (cl : Nat) (c : Coll) : Option CollCtx :=
  match c.node with
  | some p => (Tab.find? p s.nodes).map (fun n => { ctx := n.ctx, x := fun s va u => s.xlat2 cl n.ctx va u })
  | none => (Tab.find? c.form s.forms).map (fun f =>
      { ctx := f.ctx, x := copyXlat (s.coreOf c.thread f) f.ctx })

/-- The issuing thread's earlier COPY-class operations are performed (R119, R131), and no other operation owns the bit. -/
def State.collDue (s : State) (cl : Nat) (c : Coll) : Bool :=
  !(s.cluster cl).queues.any (fun q => q.2.any (fun o => c.before.contains o.id)) &&
  !(s.cluster cl).colls.any (fun y => c.before.contains y.id) &&
  (match c.bit, Tab.find? c.form s.forms with | some (bm, b), some f => f.ownsFirst c.id bm [b] | _, _ => true)

/-- Arrivals name each member of a group once. -/
def wholeGroup (arrivals : List CollArrival) : Bool :=
  (List.range arrivals.length).all (fun m => arrivals.any (·.member == m))

/-- Whether a group's collectives use a port: it leads to a device that has a member of the group (R219, log 36). -/
def State.groupUses (s : State) (group port : Nat) : Bool :=
  s.members.any (fun m => m.1 == group && m.2 / 4 != Config.deviceId && Config.portTo (m.2 / 4) % 16 == port)

/-- Whether a port that the group's collectives use is down (R219). -/
def State.groupDown (s : State) (group : Nat) : Bool :=
  (List.range 16).any (fun p => !(s.port p).up && s.groupUses group p)

/-- COLLECTIVE_PERFORMED (R119, R120, R219, R221): the k-th outstanding collective of the cluster; it fails where a port that
its group uses is down. -/
def execCollectivePerformed (cl k : Nat) (arrivals : List (List Word)) (s : State) : Out State :=
  match (s.cluster cl).colls[k]? with
  | none => .next s
  | some c =>
    match s.collCtx cl c with
    | none => .next s
    | some cc =>
      if s.groupDown (capGroup c.cap) then runEvent s true (·.collectiveError (capGroup c.cap))
      else
        runEvent s (s.collDue cl c && wholeGroup (arrivals.map collArrivalOf) &&
            s.orderForced (s.collItem c (arrivals.map (fun a => (collArrivalOf a).member))))
          (fun s => s.performColl cl c cc (arrivals.map collArrivalOf))

end Sys2Proof.Machine
end

