-- ==== Sys2Proof/Machine/Admit.lean ====
section
/-! DEFINITION. Admission: the candidates and their order, placement, pre-emption, and what a form is when it is admitted
or resumed (R14 to R17, R37, R38, R85, R136, R164, R165, R177, R182, R183). -/

namespace Sys2Proof.Machine

/-! ## Shape of a form on its cores (R16) -/

/-- The form core of bench b. -/
def coreIndexOf (r : SMap Word) (b : Nat) : Nat :=
  let big := Rec.benches r / Rec.cores r + 1
  let m := Rec.benches r % Rec.cores r
  if b < m * big then b / big else m + (b - m * big) / (big - 1)

/-- The benches of form core i. -/
def benchesAt (r : SMap Word) (i : Nat) : List Nat :=
  (List.range (Rec.benches r)).filter (fun b => coreIndexOf r b == i)

/-- Threads of form core i. -/
def threadsAt (r : SMap Word) (i : Nat) : Nat :=
  ((benchesAt r i).map (fun b => min (Rec.width r) (Rec.threads r - b * Rec.width r))).sum

/-- Whether form core i takes a matrix context (R136). -/
def wantsCtx (r : SMap Word) (i : Nat) : Bool := (benchesAt r i).any (fun b => Rec.role r b == 0 || Rec.role r b == 2)

/-- Core bench file words of form core i, and cluster and pier file words of the form (R37, R38). -/
def coreFile (r : SMap Word) (i : Nat) : Nat :=
  threadsAt r i * Rec.allotCore r + (benchesAt r i).length * Rec.scalars r
def clusterFile (r : SMap Word) : Nat := Rec.threads r * Rec.allotCluster r
def pierFile (r : SMap Word) (i : Nat) : Nat := threadsAt r i * Rec.allotPier r

/-- Hall storage of form core i: its segments that are no alias (R85). -/
def hallBytesAt (r : SMap Word) (i : Nat) : Nat :=
  ((List.range 16).map (fun k => let g := segOf r k
    if g.valid ∧ !g.isAlias ∧ g.base / 2 ^ 21 = i then g.size else 0)).sum

/-! ## What is held -/

def noSeat : Seat := { core := 512, row := 0, lane := 0 }

/-- The cores of a placement in form order. A form core without a bench takes the core that the seat of its own index
names: it has fewer benches than cores, so that no bench has that index (R16). -/
def coresOf (r : SMap Word) (seats : List Seat) : List Nat :=
  (List.range (Rec.cores r)).map (fun i => (seats.getD ((benchesAt r i).headD i) noSeat).core)

/-- The seats of a placement: one for each bench, and one for each form core without a bench. -/
def seatCount (r : SMap Word) : Nat := max (Rec.benches r) (Rec.cores r)

/-- The holdings that a form `who` meets: of the forms not in `ex`, with the targets of moves, and what is kept for other
pre-empting forms (R164, R165, R194). -/
def State.holds (s : State) (who : Option Nat) (ex : List Nat) : List Hold :=
  s.forms.flatMap (fun p =>
    let f := p.2
    if ex.contains p.1 then []
    else
      (match f.phase with
       | .queued | .done => []
       | _ => [s.holdOf p.1 f true]) ++
      (match f.move with
       | some (cl, seats) =>
         [{ rcd := f.rcd, cluster := cl, cores := coresOf f.rcd seats,
            seats := seats.take (Rec.benches f.rcd), hall := true, lanes := [] }]
       | none => [])) ++
  (List.range 64).flatMap (s.keptOn who)

/-- A core's share of a quantity over holdings that count. -/
def heldOn (hs : List Hold) (core : Nat) (q : SMap Word → Nat → Nat) (counts : Hold → Bool) : Nat :=
  (hs.map (fun h => if counts h && h.cores.contains core then q h.rcd (h.cores.findIdx (· == core)) else 0)).sum

/-- A hold with its seats. -/
def Hold.seated (h : Hold) : Bool := !h.seats.isEmpty

/-- Whether a slot is taken. -/
def slotTaken (hs : List Hold) (core row lane : Nat) : Bool :=
  hs.any (fun h => h.seats.any (fun x => decide (x.core = core ∧ x.row = row ∧ x.lane ≤ lane ∧
    lane < x.lane + Rec.width h.rcd)))

/-- The weight window of a record on a die. -/
def windowHits (r : SMap Word) (off size : Nat) : Bool :=
  decide (Rec.wbase r < off + size ∧ off < Rec.wbase r + Rec.wsize r)

/-- The ranges of the running weight-load nodes of a die (R98, R164). -/
def State.loadsOf (s : State) (die : Nat) : List (Nat × Nat) :=
  s.nodes.filterMap (fun p =>
    if p.2.kind = 2 ∧ s.nodeState p.1 = 2 ∧ ((p.2.body.getD 2 0).toNat) = die then
      some ((p.2.body.getD 4 0).toNat, (p.2.body.getD 5 0).toNat) else none)

/-! ## Fitting (R164) -/

/-- What is to be placed: its record, the form itself if it is one already, for whom it is placed, and the forms taken to
be gone. -/
structure Need where
  rcd : SMap Word
  form : Option Nat
  who : Option Nat
  ex : List Nat
  deriving DecidableEq, Repr

/-- The lane words that thread `tid` needs: its allotment, none for a lane that is never launched (R15, R38). -/
def State.wordsFor (s : State) (n : Need) (tid : Nat) : Nat :=
  if Rec.threads n.rcd ≤ tid then 0
  else match n.form with
    | some f => s.threadWords f tid
    | none => Rec.allotLane n.rcd

/-- The lane words that bench b needs, lane by lane. -/
def State.benchWords (s : State) (n : Need) (b : Nat) : List Nat :=
  (List.range (Rec.width n.rcd)).map (fun l => s.wordsFor n (b * Rec.width n.rcd + l))

/-- Whether form core i fits the files, the hall and the contexts of a core. -/
def coreRoom (hs : List Hold) (r : SMap Word) (i core : Nat) : Bool :=
  decide (heldOn hs core coreFile Hold.seated + coreFile r i ≤ 65536) &&
  decide (heldOn hs core pierFile Hold.seated + pierFile r i ≤ 16384) &&
  decide (heldOn hs core hallBytesAt Hold.hall + hallBytesAt r i ≤ 0x180000) &&
  decide (heldOn hs core (fun r i => if wantsCtx r i then 1 else 0) Hold.seated + (if wantsCtx r i then 1 else 0) ≤ 2)

/-- The room of the lane group from `lane` on: free rows, and the free words of each lane. -/
def State.groupRoom (s : State) (hs : List Hold) (n : Need) (core lane : Nat) : Nat × List Nat :=
  let lanes := (List.range (Rec.width n.rcd)).map (· + lane)
  (((List.range 16).filter (fun r => lanes.all (fun l => !slotTaken hs core r l))).length,
   lanes.map (fun l => 1792 - s.laneHeld n.who n.ex core l))

/-- Whether benches with these lane words can be given rows of these groups. -/
def packs : List (List Nat) → List (Nat × List Nat) → Bool
  | [], _ => true
  | b :: r, gs => (List.range gs.length).any (fun i =>
      match gs[i]? with
      | some (k + 1, ws) =>
        (b.zip ws).all (fun x => decide (x.1 ≤ x.2)) && packs r (gs.set i (k, (ws.zip b).map (fun x => x.1 - x.2)))
      | _ => false)

/-- Whether form core i fits a core. -/
def State.coreFits (s : State) (hs : List Hold) (n : Need) (i core : Nat) : Bool :=
  coreRoom hs n.rcd i core &&
  packs ((benchesAt n.rcd i).map (s.benchWords n))
    ((List.range (64 / Rec.width n.rcd)).map (fun g => s.groupRoom hs n core (g * Rec.width n.rcd)))

/-- Whether the form cores can be given distinct cores of those free. -/
def assignable (fits : Nat → Nat → Bool) : List Nat → List Nat → Bool
  | [], _ => true
  | i :: r, free => free.any (fun c => fits i c && assignable fits r (free.erase c))

/-- Whether a cluster as a whole has room: its cluster file, and no weight load over the window. -/
def State.clusterRoom (s : State) (hs : List Hold) (r : SMap Word) (cl : Nat) : Bool :=
  decide (((hs.filter (fun h => h.cluster == cl && !h.seats.isEmpty)).map (fun h => clusterFile h.rcd)).sum +
    clusterFile r ≤ 131072) &&
  (Rec.wsize r == 0 || (s.loadsOf (cl / 16)).all (fun x => !windowHits r x.1 x.2))

/-- Whether the form fits the cluster (R164). -/
def State.fits (s : State) (n : Need) (cl : Nat) : Bool :=
  let hs := s.holds n.who n.ex
  s.clusterRoom hs n.rcd cl &&
  assignable (s.coreFits hs n) (List.range (Rec.cores n.rcd)) ((List.range 8).map (· + 8 * cl))

/-- Whether the seats are a placement of the form on the cluster (R14, R16, R164). Of the seat of a form core without
benches only the core counts. -/
def State.placedWell (s : State) (n : Need) (cl : Nat) (seats : List Seat) : Bool :=
  let r := n.rcd
  let w := Rec.width r
  let hs := s.holds n.who n.ex
  let cs := coresOf r seats
  let bs := (seats.take (Rec.benches r)).zipIdx
  decide (seats.length = seatCount r) && cs.all (fun c => c / 8 == cl) &&
  bs.all (fun (x : Seat × Nat) =>
    decide (x.1.core / 8 = cl ∧ x.1.row < 16 ∧ x.1.lane % w = 0 ∧ x.1.lane + w ≤ 64) &&
    cs[coreIndexOf r x.2]? == some x.1.core &&
    (List.range w).all (fun l => !slotTaken hs x.1.core x.1.row (x.1.lane + l)) &&
    (seats.take x.2).all (fun y => decide (y.core ≠ x.1.core ∨ y.row ≠ x.1.row ∨ y.lane ≠ x.1.lane)) &&
    (List.range w).all (fun l => decide (s.laneHeld n.who n.ex x.1.core (x.1.lane + l) +
      ((bs.filter (fun y => decide (y.1.core = x.1.core ∧ y.1.lane = x.1.lane))).map
        (fun y => s.wordsFor n (y.2 * w + l))).sum ≤ 1792))) &&
  decide cs.Nodup && cs.zipIdx.all (fun (x : Nat × Nat) => coreRoom hs r x.2 x.1) && s.clusterRoom hs r cl

/-! ## Candidates (R163, R164) -/

/-- A candidate: the form's number, its node, and what orders it. -/
structure Cand where
  f : Nat
  node : Nat
  lin : Nat
  e : Nat
  seq : Nat
  prio : Nat
  part : List Nat
  queued : Bool
  deriving DecidableEq, Repr

/-- Effective priority (R164). -/
def effective (prio aged : Nat) : Nat := min 127 (prio + min 16 aged)

/-- The levels gained since a node's ready time: one for each millisecond (R164). -/
def State.levels (s : State) (n : Node) : Nat := max n.aged ((s.clock - n.readyTick) / 800000)

/-- The candidates that a node gives: its next form not yet admitted, and its pre-empted forms. A PRIO that the form has
lowered has no effect on E, and on its shed class from the next epoch (R392). -/
def State.candsOf (s : State) (pa : Nat) (n : Node) : List Cand :=
  if n.kind ≠ 0 then []
  else
    (if n.next < n.forms ∧ (s.nodeState pa = 1 ∨ s.nodeState pa = 2) then
      [{ f := n.fbase + n.next, node := pa, lin := n.next, e := effective n.prio (s.levels n), seq := n.seq, prio := n.prio,
         part := n.part, queued := false }] else []) ++
    (s.forms.filter (fun p => p.2.node == pa && decide (p.2.phase = .queued))).map (fun p =>
      { f := p.1, node := pa, lin := p.2.lin, e := effective n.prio (s.levels n), seq := n.seq, prio := p.2.shedPrio,
        part := n.part, queued := true })

/-- The candidates of no shed class (R201), by the device's own level, whatever cluster may take them (log 99). -/
def State.cands (s : State) : List Cand :=
  (s.nodes.flatMap (fun p => s.candsOf p.1 p.2)).filter (fun c => decide (s.droop.level ≤ c.prio / 16))

/-- Whether candidate a goes before b (R164). -/
def Cand.before (a b : Cand) : Bool :=
  decide (b.e < a.e ∨ (b.e = a.e ∧ (a.seq < b.seq ∨ (a.seq = b.seq ∧ a.lin < b.lin))))

/-- Whether a candidate is the first of its partition. -/
def State.isFirst (s : State) (c : Cand) : Bool := !s.cands.any (fun d => d.part == c.part && d.before c)

/-- What a candidate needs, with some forms taken to be gone. -/
def State.needOf (s : State) (c : Cand) (ex : List Nat) : Need :=
  match Tab.find? c.f s.forms with
  | some f => { rcd := f.rcd, form := some c.f, who := some c.f, ex := ex }
  | none =>
    let r := match Tab.find? c.node s.nodes with | some n => n.rcd | none => []
    { rcd := r, form := none, who := some c.f, ex := ex }

/-- The clusters that fit a candidate as things stand, in ascending order. -/
def State.fitting (s : State) (c : Cand) : List Nat :=
  (List.range 64).filter (fun cl => c.part.contains cl && s.fits (s.needOf c []) cl)

/-- Admission by the control kernel (R218). -/
def State.kernelAdmits (s : State) : Bool := s.modectl.getLsbD 1

/-! ## Pre-emption (R165, R177) -/

/-- A resident form that may be a victim for E: it is staged, runs, moves, or yields already (log 53). -/
def Form.victim (f : Form) (e : Nat) : Bool :=
  decide (f.phase = .staging ∨ f.phase = .running ∨ f.phase = .yielding) && decide (f.prio < e)

/-- Whether a goes before b among the victims: lowest PRIO first, then the most recently admitted; of two admitted in one tick,
the one with the lower number (log 97). -/
def victimBefore (a b : Nat × Form) : Bool :=
  decide (a.2.prio < b.2.prio ∨ (a.2.prio = b.2.prio ∧ b.2.admitted ≤ a.2.admitted))

/-- Insert a victim before the first that it goes before. -/
def insertVictim (a : Nat × Form) : List (Nat × Form) → List (Nat × Form)
  | [] => [a]
  | b :: r => if victimBefore a b then a :: b :: r else b :: insertVictim a r

/-- Whether a form is already a victim for another than `who` (R165): what it frees is not free for that one. -/
def State.spokenFor (s : State) (who cl f : Nat) : Bool :=
  (s.cluster cl).reserved.any (fun r => r.form != who && r.victims.contains f)

/-- Victims of a cluster for a candidate, in order. -/
def State.victimOrder (s : State) (who cl e : Nat) : List (Nat × Form) :=
  (s.forms.filter (fun p => p.2.cluster == cl && p.2.victim e && !s.spokenFor who cl p.1)).foldr insertVictim []

/-- The shortest run of victims after which the candidate fits. -/
def State.victimsOn (s : State) (c : Cand) (cl : Nat) : Option (List (Nat × Form)) :=
  let vs := s.victimOrder c.f cl c.e
  ((List.range vs.length).map (fun k => vs.take (k + 1))).find? (fun v => s.fits (s.needOf c (v.map (·.1))) cl)

/-- Whether a choice of victims on a cluster is better than another. -/
def betterChoice (a b : Nat × List (Nat × Form)) : Bool :=
  let top := fun (x : Nat × List (Nat × Form)) => (x.2.map (fun p => p.2.prio)).foldl max 0
  decide (top a < top b ∨ (top a = top b ∧ (a.2.length < b.2.length ∨ (a.2.length = b.2.length ∧ a.1 < b.1))))

/-- The cluster and victims that R165 chooses. -/
def State.chooseVictims (s : State) (c : Cand) : Option (Nat × List (Nat × Form)) :=
  let cs := (List.range 64).filterMap (fun cl =>
    if c.part.contains cl then (s.victimsOn c cl).map (fun v => (cl, v)) else none)
  match cs with
  | [] => none
  | x :: r => some (r.foldl (fun m y => if betterChoice y m then y else m) x)

/-- A thread whose form is parked no longer: a cause 0x11 that has not yet stopped it is dropped, and it goes on with the
clause at which it would have stopped (R184, R202). -/
def Thread.unpark (th : Thread) : Thread :=
  match th.pending with
  | some p => if p.cause = 0x11 then { th with pending := none, pc := p.pc, pend11 := false } else { th with pend11 := false }
  | none => { th with pend11 := false }

/-- A thread that a yield request reaches: a stopped or parked one leaves its stop to run the handler (R177). -/
def Thread.askYield (th : Thread) : Thread :=
  match th.status with
  | .live | .kernel => { th.unpark with pend10 := true }
  | .stopped | .parked => { th.unpark with pend10 := true, status := .live }
  | .exited | .yielded => th

/-- A yield request (R177): cause 0x10 for every live thread; with no handler the form goes to its forced save. A form that
is being staged yields when its staging is done, and one that is to move stays where it is (log 53). -/
def State.askYield (s : State) (f : Nat) : State :=
  match Tab.find? f s.forms with
  | none => s
  | some fm =>
    if fm.phase = .running ∨ (fm.phase = .staging ∧ !fm.asked) then
      let s := s.modForm f (fun x =>
        { x with phase := if fm.phase = .running then .yielding else x.phase, asked := decide (fm.phase = .staging),
                 yieldTick := s.clock, watchdog := 0, move := none })
      if Rec.handler fm.rcd = 0 then s
      else s.modThreadsOf f Thread.askYield
    else s

/-- A cluster's pre-emption for a form, with its victims (R165). -/
def Cluster.reserveFor (c : Cluster) (h : Nat) (vs : List Nat) : Cluster :=
  match c.reserved.find? (fun r => r.form == h) with
  | some _ => { c with reserved := c.reserved.map (fun r =>
      if r.form = h then { r with victims := r.victims ++ vs.filter (fun v => !r.victims.contains v) } else r) }
  | none => { c with reserved := c.reserved ++ [{ form := h, victims := vs, holds := [] }] }

/-- Send the requests, and keep what the victims will free for the candidate. -/
def State.preempt (s : State) (c : Cand) (cl : Nat) (vs : List Nat) : State :=
  (vs.foldl State.askYield s).modCluster cl (·.reserveFor c.f vs)

/-- The victims that the kernel names, each by a slot that one of its benches holds (R218): each with PRIO below E, and no
other form's victim (R165). -/
def State.namedVictims (s : State) (c : Cand) (cl : Nat) (seats : List Seat) : List Nat :=
  ((s.victimOrder c.f cl c.e).filter (fun p => p.2.benches.any (fun b => seats.any (fun x =>
    decide (x.core = b.seat.core ∧ x.row = b.seat.row ∧ b.seat.lane ≤ x.lane ∧
      x.lane < b.seat.lane + Rec.width p.2.rcd))))).map (·.1)

/-! ## What is admitted (R17, R37, R162, R182, R183) -/

def gkindOf : Nat → GKind
  | 1 => .fe | 2 => .barrier | 3 => .chbar | 4 => .ring | 5 => .chunk | 6 => .lock | _ => .none

/-- The bindings that the record makes: a segment's guard, or its region's (R84, R93, R124). -/
def initialBinds (r : SMap Word) : List Bind :=
  (List.range 16).filterMap (fun i =>
    let g := segOf r i
    let reg := ((List.range 16).map (regionOf r)).find? (fun x => x.valid && x.seg == i)
    let k : Nat × Nat × Nat := match reg with
      | some x => if g.gkind = 0 then (x.gkind, x.gaddr, x.gidx) else (g.gkind, g.gaddr, g.gidx)
      | none => (g.gkind, g.gaddr, g.gidx)
    if g.valid ∧ k.1 ≠ 0 then
      some { lo := g.base, hi := g.base + g.extent, kind := gkindOf k.1,
             guard := BitVec.ofNat 32 (if k.1 = 3 then k.2.2 else k.2.1), idx := BitVec.ofNat 8 k.2.2 }
    else none)

/-- The fields of a record that are read at admission (R93, R162, R170), taken from the words `now`. -/
def admitRecord (r : SMap Word) (now : List Word) : SMap Word :=
  let w := fun k => now.getD k 0
  let m0 := (List.range 32).foldl (fun m c =>
    SMap.set 0 (385 + 2 * c) ((w (385 + 2 * c) &&& 0x00FFFFFF) ||| (SMap.get 0 (385 + 2 * c) r &&& 0xFF000000))
      (SMap.set 0 (384 + 2 * c) (w (384 + 2 * c)) m)) r
  let m1 := [2, 3, 20, 21, 22, 23].foldl (fun m k => SMap.set 0 k (w k) m) m0
  let m2 := SMap.set 0 18 ((w 18 &&& 0xFFFF0000) ||| (SMap.get 0 18 r &&& 0xFFFF)) m1
  (List.range 16).foldl (fun m i =>
    let k := 128 + 8 * i
    SMap.set 0 (k + 3) ((w (k + 3) &&& 0x1FE00000) ||| (SMap.get 0 (k + 3) r &&& 0xE01FFFFF))
      (SMap.setList 0 k [w k, w (k + 1), w (k + 2)] m)) m2

/-- A thread of a form that is admitted for the first time (R37, log 22). -/
def freshThread (f : Nat) (r : SMap Word) (tid : Nat) (seat : Seat) : Thread :=
  { form := f, tid := tid, bench := tid / Rec.width r, blane := tid % Rec.width r, core := seat.core, row := seat.row,
    lane := seat.lane + tid % Rec.width r, pc := BitVec.ofNat 56 (Rec.entry r), g := [], place := initialPlaces r,
    w := Rec.allotLane r, ns := 0, lats := [], clauses := [], trapState := false, tcause := 0, tpc := 0, tpchi := 0,
    tinfo := 0, taddr := 0, pending := none, pend10 := false, pend11 := false, pend13 := false, clk := 0, met := [],
    status := .live, wait := .none, sw := false, age := 0, step := false, noBreak := none }

/-- A form that is admitted for the first time: it waits for its staging. -/
def freshForm (c : Cand) (n : Node) (r : SMap Word) (cl : Nat) (seats : List Seat) (clock level : Nat) : Form :=
  { node := c.node, lin := c.lin, rcd := r, fn := n.fn, ctx := n.ctx, part := n.part, phase := .staging, prio := n.prio,
    cluster := cl, cores := coresOf r seats, admitted := clock, moved := clock,
    benches := (seats.take (Rec.benches r)).map (fun x => { seat := x, s := [], meets := [] }), hall := [], tags := [], objs := [],
    binds := initialBinds r, resv := [], waiters := [], owned := [],
    ctxs := List.replicate (Rec.cores r) MCtx.reset, sent := [], shed := false, shedPrio := n.prio, shedTick := 0,
    level := level, watchdog := 0, yieldTick := 0, resume := .fresh, savedBanks := [], move := none }

/-- A thread in its new seat. -/
def Thread.seat (th : Thread) (r : SMap Word) (seats : List Seat) : Thread :=
  let x := seats.getD th.bench noSeat
  { th with core := x.core, row := x.row, lane := x.lane + th.tid % Rec.width r }

/-- A thread that resumes through RESTORE (R182). A cause 0x13 that it had not taken at its YIELD is dropped (log 92); the
cross-lane executions that counted still count (R310). -/
def Thread.restore (th : Thread) (r : SMap Word) : Thread :=
  if th.status = .exited then th
  else
    { th with
      pc := BitVec.ofNat 56 (Rec.restore r), g := [], place := [], ns := 0, lats := [], clauses := [], trapState := true,
      tcause := 0, tpc := 0, tpchi := 0, tinfo := 0, taddr := 0, pending := none, pend10 := false, pend11 := false,
      pend13 := false, status := .live, wait := .none, sw := false, age := 0, noBreak := none }

/-- A stopped thread whose form is no longer shed dispatches again (R202). -/
def Thread.unstop (th : Thread) : Thread :=
  match th.status with | .stopped | .parked => { th.unpark with status := .live } | _ => th.unpark

/-- A thread that resumes directly: one that had committed its YIELD goes on at its next clause too (R183). -/
def Thread.resume (th : Thread) : Thread :=
  match th.status with | .yielded => { th.unpark with status := .live } | _ => th.unstop

/-- A form in its new place. -/
def Form.settleAt (fm : Form) (cl : Nat) (seats : List Seat) : Form :=
  { fm with cluster := cl, cores := coresOf fm.rcd seats,
            benches := (List.zip fm.benches seats).map (fun p => { p.1 with seat := p.2 }) }

/-- The enabled comparators of a core for a context. -/
def Core.compsOf (c : Core) (ctx : Nat) : Tab Comp := c.comps.filter (fun p => p.2.en && p.2.ctx == ctx)

/-- The kernel programs the comparators of a form's new cores with those that it had on its old ones (R185), all as they
were before: a core that is both keeps none of those that leave it. -/
def State.moveComps (s : State) (ctx : Nat) (old new : List Nat) : State :=
  (List.zip old new).foldl (fun t p =>
    let mine := (s.core p.1).compsOf ctx
    let own := if old.contains p.2 then (s.core p.2).comps.filter (fun x => !(x.2.en && x.2.ctx == ctx)) else (s.core p.2).comps
    t.modCore p.2 (fun c => { c with comps := mine.foldl (fun t x => Tab.put x.1 x.2 t) own })) s

/-- Write saved banks to the form's cores (R183, R194). -/
def State.putBanks (s : State) (f : Nat) (cores : List Nat) (banks : List (Nat × Nat × Bank)) : State :=
  banks.foldl (fun s b => s.modCore (cores.getD b.1 0) (fun c =>
    { c with banks := Tab.put b.2.1 { b.2.2 with owner := some f } c.banks })) s

/-- The control kernel invalidates a cluster's instruction cache for a launch before the first form of it comes to the
cluster (R239). -/
def State.codeFor (s : State) (cl node : Nat) : State :=
  match Tab.find? node s.nodes with
  | none => s
  | some n =>
    if (s.cluster cl).launches.contains n.fbase then s
    else s.modCluster cl (fun c => { c with icache := [], launches := c.launches ++ [n.fbase] })

/-- The shed level that a cluster applies: the one that its throttle groups have adopted, else the device's (R195, R200). -/
def State.levelOn (s : State) (cl : Nat) : Nat := (s.cluster cl).level.getD s.droop.level

/-- Resume a queued form on its new cores: through RESTORE, or directly after a forced save. -/
def State.resumeForm (s : State) (f : Nat) (fm : Form) (cl : Nat) (seats : List Seat) : State :=
  let direct := decide (fm.resume = .direct)
  let go := fun (th : Thread) =>
    ((if direct then th.resume else th.restore fm.rcd).seat fm.rcd seats)
  let s1 := s.modThreadsOf f go
  let s2 := s1.modForm f (fun x =>
    { (x.settleAt cl seats) with phase := .running, admitted := s.clock, moved := s.clock, shed := false, watchdog := 0,
                                 level := s.levelOn cl, savedBanks := [], resume := .fresh,
                                 asked := false })
  let new := coresOf fm.rcd seats
  let s3 := s2.moveComps fm.ctx fm.cores new
  if direct then s3.putBanks f new fm.savedBanks else s3

/-- BODY as it stands in memory when a node starts (R157). -/
def State.bodyOf (s : State) (pa : Nat) : List Word := (List.range 6).map (fun i => s.nodeWord pa (2 + i))

/-- Admit a form for the first time; its record's page must translate (R106). The node starts with its first form: BODY is
read then. -/
def State.admitNew (s : State) (c : Cand) (n0 : Node) (cl : Nat) (seats : List Seat) : State :=
  let first := decide (s.nodeState c.node = 1)
  let n := if first then { n0 with body := s.bodyOf c.node } else n0
  let va := (n.body.getD 0 0).toNat + 2 ^ 32 * (n.body.getD 1 0).toNat
  if (first && s.nodeBad c.node) || s.readHeld n.ctx va 448 then s
  else match s.readRecord n.ctx va with
  | none => s.pause n.ctx va
  | some ws =>
    let s := s.askWords n.ctx va 448
    let r := admitRecord n.rcd ws
    let fm := freshForm c n r cl seats s.clock (s.levelOn cl)
    let ths := (List.range (Rec.threads r)).map (fun t =>
      (threadKey c.f t, freshThread c.f r t (seats.getD (t / Rec.width r) noSeat)))
    let s1 := if first then s.setNode c.node 2 0 0 else s
    let s2 := s1.unreserve (· == c.f)
    { s2 with forms := Tab.put c.f fm s1.forms,
              threads := ths.foldl (fun t p => Tab.put p.1 p.2 t) s1.threads,
              nodes := Tab.mod c.node (fun x => { x with next := x.next + 1, body := n.body }) s1.nodes }

/-- Admit a candidate at its seats. -/
def State.admitForm (s : State) (c : Cand) (cl : Nat) (seats : List Seat) : State :=
  let s := s.codeFor cl c.node
  match Tab.find? c.f s.forms with
  | some fm => (s.resumeForm c.f fm cl seats).unreserve (· == c.f)
  | none => match Tab.find? c.node s.nodes with | some n => s.admitNew c n cl seats | none => s

/-- The cluster that the seats name. -/
def seatsCluster (seats : List Seat) : Nat := match seats with | x :: _ => x.core / 8 | [] => 64

/-- FORM_ADMIT (R164, R165): the first candidate of its partition is admitted at the given seats, on the lowest cluster
that fits it, or on one of the kernel's choice; where none fits, victims are asked to yield. -/
def execFormAdmit (f : Nat) (seats : List Seat) (s : State) : Out State :=
  match s.cands.find? (fun c => c.f == f) with
  | none => .next s
  | some c =>
    runEvent s (s.isFirst c) (fun s =>
      let cl := seatsCluster seats
      match s.fitting c with
      | k :: ks =>
        if (cl = k ∨ (s.kernelAdmits ∧ ks.contains cl)) ∧ s.placedWell (s.needOf c []) cl seats then s.admitForm c cl seats
        else s
      | [] =>
        if s.kernelAdmits then
          (let vs := s.namedVictims c cl seats
           if c.part.contains cl ∧ s.fits (s.needOf c vs) cl then s.preempt c cl vs else s)
        else match s.chooseVictims c with
          | some (k, vs) => s.preempt c k (vs.map (·.1))
          | none => s)

end Sys2Proof.Machine
end

