-- ==== Sys2Proof/Machine/Schedule.lean ====
section
/-! DEFINITION. The timetable and the life of forms: staging and write-back (R17, R29, R94), yields and forced saves
(R177, R183), nodes of every kind (R98, R158, R161, R164), and the doorbell (R215). -/

namespace Sys2Proof.Machine

/-! ## Regions (R94) -/

/-- A region's copy between memory and its segment: whole elements, units or blocks of its FORMAT; a rest of SIZE that is less
than one is not copied (log 111). -/
def regionPlan (r : SMap Word) (i : Nat) (out : Bool) : Plan :=
  let g := regionOf r i
  let sg := segOf r g.seg
  let hall := 0xFE * 2 ^ 48 + sg.base
  let cols := if g.fmt = 0 ∧ sg.fmt = 0 then g.size else elemCount g.fmt g.geom g.size
  if out then
    { src := hall, dst := g.srcva, cols := cols, rows := 1, sstr := 0, dstr := 0, sf := sg.fmt, sg := sg.geom,
      df := g.fmt, dg := g.geom, known := true }
  else
    { src := g.srcva, dst := hall, cols := cols, rows := 1, sstr := 0, dstr := 0, sf := g.fmt, sg := g.geom,
      df := sg.fmt, dg := sg.geom, known := true }

/-- The j-th unit of a region: storage bits, or elements converted as a copy's are (R67). Of a last block that the region
fills in part, only the scale, chosen as if +0 filled it up, and its elements are written (R66, R94). -/
def regionMove (s : State) (f : Form) (p : Plan) (es : List TlbEntry) (j : Nat) : Option Move :=
  let k := min p.unit (p.cols - j * p.unit)
  match unitPlace f.rcd es f.ctx p.df p.dg p.e (p.dst + j * p.span), unitRead s f p p.sameFmt es (p.src + j * p.span) k with
  | some dst, some r =>
    let n := if k < p.unit then k + 1 else dst.length
    some { dst := dst.take n, bytes := r.1.take n, reads := r.2 }
  | _, _ => none

/-- How the work on regions ends: the moves of each region, by its number. -/
inductive RegionOut where
  | wait (s : State)
  | bad
  | go (s : State) (ms : List (Nat × List Move))

/-- All the moves. -/
def allMoves (ms : List (Nat × List Move)) : List Move := ms.flatMap (·.2)

/-- Whether a page of a region breaks its entry: permission, FORMAT, GEOM, or a write of the weight store (R94, R98). -/
def pageBad (g : Region) (out : Bool) (e : TlbEntry) : Bool :=
  pteFmt e.pte != g.fmt || pteGeom e.pte != g.geom || (if out then !pteWr e.pte || pteType e.pte == 1 else !pteRd e.pte)

/-- Translate a region's pages through the cluster's L2 TLB and compute its moves. -/
def State.regionWork (s : State) (f : Form) (i : Nat) (out : Bool) : RegionOut :=
  let g := regionOf f.rcd i
  let p := regionPlan f.rcd i out
  let n := viewExtent g.fmt g.geom g.size
  let pages := if n = 0 then [] else pagesOf g.srcva n
  let x := fun (s : State) (va : Nat) (u : Use) => s.xlat2 f.cluster f.ctx va u
  match xlatAll x s (pages.map (fun v => (v, Use.probe))) with
  | (s1, none) => .wait s1
  | (s1, some es) =>
    if es.any (pageBad g out) || (isSP24 p.df && !p.sameFmt) then .bad
    else
      match (if out then xlatAll x s1 (pages.map (fun v => (v, Use.write))) else (s1, some es)) with
      | (s2, none) => .wait s2
      | (s2, some es) =>
        match (List.range ((p.cols + (p.unit - 1)) / p.unit)).mapM (regionMove s2 f p es) with
        | some ms => .go s2 [(i, ms)]
        | none => .wait s2

/-- The regions of a record that are staged, or written back, in order. -/
def regionsOf (r : SMap Word) (out : Bool) : List Nat :=
  (List.range 16).filter (fun i =>
    let g := regionOf r i
    g.valid && (g.dir == 3 || g.dir == (if out then 2 else 1)))

/-- All the regions' moves together. -/
def State.regionsWork (s : State) (f : Form) (out : Bool) : List Nat → RegionOut
  | [] => .go s []
  | i :: r =>
    match s.regionWork f i out with
    | .go s1 ms =>
      (match s1.regionsWork f out r with
       | .go s2 ms2 => .go s2 (ms ++ ms2)
       | x => x)
    | x => x

/-- A region error: the kernel records it and ends the launch (R94). -/
def State.regionError (s : State) (f : Nat) (fm : Form) : State := (s.note (.region f)).endLaunch fm.node 0x09

/-- The checksum of a region at staging, of the memory that it reads, and at write-back, of what it writes there (R220). -/
def regionCrc (s : State) (out : Bool) (ms : List Move) : Word :=
  if out then Config.crc32 (ms.flatMap (·.bytes))
  else Config.crc32 (((ms.flatMap (·.reads)).filterMap Store.phys?).map s.physByte)

def regionItem (s : State) (fm : Form) (out : Bool) (x : Nat × List Move) : RecItem :=
  .region fm.node fm.lin x.1 out (regionCrc s out x.2)

/-- Log the checksums of regions. -/
def State.keepRegions (s : State) (fm : Form) (out : Bool) (ms : List (Nat × List Move)) : State :=
  ms.foldl (fun t x => t.keep (regionItem s fm out x)) s

/-- The recorded checksum of a region at staging that a replay has not yet come to. -/
def State.dueRegion (s : State) (fm : Form) (i : Nat) : Option RecItem :=
  s.play.find? (fun x => match x with
    | .region n l j false _ => n == fm.node && l == fm.lin && j == i
    | _ => false)

/-- Whether a replayed staging meets a checksum that differs (R221). -/
def State.regionsDiffer (s : State) (fm : Form) (ms : List (Nat × List Move)) : Bool :=
  s.replaying && ms.any (fun x => match s.dueRegion fm x.1 with | some y => y != regionItem s fm false x | none => false)

/-- STAGING_COMPLETE (R17, R94, R221): the regions are staged and every thread becomes eligible. A word that an error had
poisoned before is staged over like any other (log 80). A form that was asked to yield meanwhile yields now (R177). -/
def execStagingComplete (f : Nat) (s : State) : Out State :=
  match Tab.find? f s.forms with
  | none => .next s
  | some fm => runEvent s (decide (fm.phase = .staging)) (fun s =>
      match s.regionsWork fm false (regionsOf fm.rcd false) with
      | .wait s' => s'
      | .bad => s.regionError f fm
      | .go s' ms =>
        if movesHeld s' fm (allMoves ms) then s'
        else if s'.regionsDiffer fm ms then s'.endLaunch fm.node 0x0B
        else
          let s1 := ms.foldl (fun t x => t.played (regionItem s' fm false x)) (s'.keepRegions fm false ms)
          (s1.perform f (allMoves ms)).modForm f (fun x =>
            { x with phase := if x.asked then .yielding else .running, asked := false }))

/-! ## Retirement (R29) -/

/-- The form's copies and collectives have been performed (R121). -/
def State.enginesDone (s : State) (cl f : Nat) : Bool :=
  (s.cluster cl).queues.all (fun q => q.2.all (·.form != f)) && (s.cluster cl).colls.all (·.form != f)

def State.allExited (s : State) (f : Nat) : Bool := (s.threadsOf f).all (fun p => decide (p.2.status = .exited))

/-- Messages to a form that retires are discarded, and count as delivered (R364). -/
def State.discardMail (s : State) (fm : Form) : State :=
  let mine := fun (p : Nat × List Msg) => p.1 / 2 ^ 128 == fm.node && p.1 % 2 ^ 64 == fm.lin
  let s1 := ((s.fifos.filter mine).flatMap (·.2)).foldl State.delivered s
  { s1 with fifos := s1.fifos.filter (fun p => !mine p) }

/-- FORM_RETIRE (R29, R364): slots, registers and contexts are freed; the hall stays until the write-back is performed. -/
def execFormRetire (f : Nat) (s : State) : Out State :=
  match Tab.find? f s.forms with
  | none => .next s
  | some fm =>
    runEvent s (decide (fm.phase = .running ∨ fm.phase = .yielding) && s.allExited f && s.enginesDone fm.cluster f)
      (fun s =>
        let s := (s.freed f false).discardMail fm
        { s.modForm f (fun x => { x with phase := .writeBack, benches := [], ctxs := [], move := none }) with
          threads := s.threads.filter (fun p => p.2.form != f) })

/-- WRITE_BACK_COMPLETE (R29, R94): the regions are written back and the form is gone. -/
def execWriteBackComplete (f : Nat) (s : State) : Out State :=
  match Tab.find? f s.forms with
  | none => .next s
  | some fm => runEvent s (decide (fm.phase = .writeBack)) (fun s =>
      match s.regionsWork fm true (regionsOf fm.rcd true) with
      | .wait s' => s'
      | .bad => s.regionError f fm
      | .go s' ms =>
        if movesHeld s' fm (allMoves ms) then s'
        else if movesPoison fm (allMoves ms) then s'.poisonEnd f fm
        else
          let s2 := ((s'.keepRegions fm true ms).perform f (allMoves ms)).removeForm f
          { s2 with nodes := Tab.mod fm.node (fun n => { n with retired := n.retired + 1 }) s2.nodes })

/-! ## Yielding (R177, R183) -/

/-- The thread gives up its seat. -/
def Thread.unseat (th : Thread) : Thread := { th with core := 512 }
def Bench.unseat (b : Bench) : Bench := { b with seat := noSeat }
/-- A bench after a yield: its s registers read 0 (R182), and the executions that completed a meeting still count (R310). -/
def Bench.yield (b : Bench) : Bench :=
  { b.unseat with s := [], meets := (b.meets.filter (·.done)).map (fun a => { a with taken := true, got := [] }) }

/-- FORM_YIELDED (R177): every live thread has yielded or exited; the form frees what it holds and rejoins its queue. -/
def execFormYielded (f : Nat) (s : State) : Out State :=
  match Tab.find? f s.forms with
  | none => .next s
  | some fm =>
    runEvent s (decide (fm.phase = .yielding) && !s.allExited f && s.enginesDone fm.cluster f &&
        (s.threadsOf f).all (fun p => decide (p.2.status = .exited ∨ p.2.status = .yielded)))
      (fun s0 =>
        ((s0.freed f true).modForm f (fun x =>
          { x with
            phase := .queued, resume := .restore, hall := [], tags := [], objs := [], binds := initialBinds x.rcd,
            resv := [], waiters := [], owned := [], ctxs := x.ctxs.map (fun _ => MCtx.reset),
            benches := x.benches.map Bench.yield })).modThreadsOf f Thread.unseat)

/-- Whether the kernel may save a thread: no word of it is being executed (R183). -/
def Thread.savable (th : Thread) : Bool :=
  decide (th.status ≠ .live) || (match th.clauses with | [] => true | c :: _ => decide (c.wait ≠ .none))

/-- A thread as it is saved: it will dispatch the clause at which it stopped. A trap that waited for the effects of earlier
clauses goes with them, since its own clause comes again; a yield request is answered by the save (R183). -/
def Thread.saved (th : Thread) : Thread :=
  { th with
    pc := match th.clauses, th.pending with | c :: _, _ => c.va | [], some p => p.pc | [], none => th.pc
    clauses := [], wait := .none, pend10 := false, core := 512
    pending := if th.clauses.isEmpty then th.pending.filter (fun p => decide (p.cause ≠ 0x10)) else none }

/-- The banks of a form's cores that its threads loaded (R183, R194). -/
def State.banksOf (s : State) (f : Nat) (cores : List Nat) : List (Nat × Nat × Bank) :=
  cores.zipIdx.flatMap (fun (c : Nat × Nat) =>
    ((s.core c.1).banks.filter (fun b => decide (b.2.owner = some f))).map (fun b => (c.2, b.1, b.2)))

/-- The kernel stops a form's threads where they are and completes its matrix operations, those that an MSAVE has frozen
too, so that none is left frozen (R156, R183). -/
def State.quiesce (s : State) (f : Nat) (fm : Form) : State :=
  let s1 := ((s.threadsOf f).filter (fun p => !p.2.clauses.isEmpty)).foldl (fun s p => s.letGo p.1 p.2 p.2.clauses) s
  fm.cores.foldl State.endStream ((List.range fm.cores.length).foldl (fun s fc => s.finishCtx f fc) s1)

/-- FORCED_SAVE (R183, R218): once the form's copies, collectives and ACTLDs have been performed, the kernel completes its
matrix operations and saves it, each thread in whatever state it is, and it rejoins its queue. In host-assisted mode it
does so only where the host, which it asks first, agrees. -/
def execForcedSave (r : SaveRequest) (s : State) : Out State :=
  let f := r.form
  match Tab.find? f s.forms with
  | none => .next s
  | some fm =>
    runEvent s ((!s.modectl.getLsbD 2 || r.host) && fm.saveDue s.clock && !s.allExited f && s.enginesDone fm.cluster f &&
        fm.cores.all (fun c => (s.core c).loads.all (fun l => l.form != f)) && (s.threadsOf f).all (fun p => p.2.savable))
      (fun s =>
        let s1 := (s.quiesce f fm).freed f true
        let banks := s1.banksOf f fm.cores
        (s1.modForm f (fun x =>
          { x with phase := .queued, resume := .direct, savedBanks := banks, benches := x.benches.map Bench.unseat })).modThreadsOf
            f Thread.saved)

/-! ## Nodes (R98, R158, R159, R161, R164) -/

/-- Whether R98 holds a weight-load node back: by a form on its die, or one that is to move there. -/
def State.loadHeld (s : State) (n : Node) : Bool :=
  let die := (n.body.getD 2 0).toNat
  decide (n.kind = 2) && s.forms.any (fun p =>
    decide (p.2.phase = .staging ∨ p.2.phase = .running ∨ p.2.phase = .yielding) &&
    (p.2.cluster / 16 == die || (match p.2.move with | some (cl, _) => cl / 16 == die | none => false)) &&
    decide (Rec.wsize p.2.rcd ≠ 0) && windowHits p.2.rcd (n.body.getD 4 0).toNat (n.body.getD 5 0).toNat)

/-- Whether a ready node of kinds 1 to 4 is the next to start (R161). -/
def State.startsNext (s : State) (pa : Nat) (n : Node) : Bool :=
  s.nodeState pa == 1 && !s.walkHeld pa && !s.loadHeld n &&
  s.nodes.all (fun p => decide (p.2.kind = 0) || s.nodeState p.1 != 1 || decide (n.seq ≤ p.2.seq) || s.loadHeld p.2)

/-- Start a node: its body is read (R157, R205). -/
def State.startNode (s : State) (pa : Nat) : State :=
  let body := s.bodyOf pa
  let s1 := (s.setNode pa 2 0 0).requests (s.nodeSpan pa 2 6)
  { s1 with nodes := Tab.mod pa (fun n => { n with body := body }) s1.nodes }

def Node.word (n : Node) (k : Nat) : Nat := (n.body.getD (k - 2) 0).toNat
def Node.va2 (n : Node) (k : Nat) : Nat := n.word k + 2 ^ 32 * n.word (k + 1)
/-- The cluster whose engine and L2 TLB serve a node. -/
def Node.home (n : Node) : Nat := n.part.getD 0 0

def State.failWith (s : State) (pa err : Nat) : State := s.failNode (s.nodes.length + 1) pa err

/-- COPY_NODE_START (R158): a destination in the weight store fails the node. -/
def execCopyNodeStart (pa : Nat) (s : State) : Out State :=
  match Tab.find? pa s.nodes with
  | none => .next s
  | some n => runEvent s (decide (n.kind = 1) && s.startsNext pa n) (fun s =>
      if s.hitsWeights n.home n.ctx (n.va2 4) (n.word 6) then s.failWith pa 0x0B else s.startNode pa)

/-- WEIGHT_LOAD_START (R98). -/
def execWeightLoadStart (pa : Nat) (s : State) : Out State :=
  match Tab.find? pa s.nodes with
  | none => .next s
  | some n => runEvent s (decide (n.kind = 2) && s.startsNext pa n) (·.startNode pa)

/-- A collective that a node takes part in belongs to no thread and no form. -/
def nodeColl (id pa endpoint : Nat) (gather : Bool) (rc : List Word) : Coll :=
  { id := id, thread := 2 ^ 96, form := 2 ^ 80, node := some pa,
    cap := BitVec.ofNat 64 (2 ^ 63 + 2 ^ 60 + 2 ^ 49 + 2 ^ 48 + endpoint), gather := gather, rc := rc, bit := none,
    before := [] }

/-- Whether a node's collective record keeps the limits of R119. -/
def State.nodeRecordOk (s : State) (n : Node) (gather : Bool) (rc : List Word) : Bool :=
  let cap := BitVec.ofNat 64 (n.word 4)
  collLimits gather rc && !s.collWeights n.home n.ctx gather cap rc &&
  s.fp32Pages n.home n.ctx (recVA rc 0) (collBytes gather cap rc) true &&
  (!hasResidual gather rc || s.fp32Pages n.home n.ctx (recVA rc 4) (4 * recN rc) false)

/-- The member's collective becomes outstanding. The record does not name its operation: transport 3 is CRED's and 0 is
CGATH's; with 1 it is a free value (log 18). A record that breaks the limits of R119 is a collective error of the node,
ERR 0x0B (log 81). -/
def State.startColl (s : State) (pa : Nat) (n : Node) : State :=
  if s.readHeld n.ctx (n.va2 2) 8 then s else
  match s.readWords n.ctx (n.va2 2) 8 with
  | none => s.pause n.ctx (n.va2 2)
  | some rc =>
    let gather := recTransport rc == 0 || (recTransport rc == 1 && Config.draw s.draws % 2 == 1)
    let s1 := { s.askWords n.ctx (n.va2 2) 8 with draws := s.draws + 1 }
    if !s1.nodeRecordOk n gather rc then (s1.note (.collective (n.word 4))).failWith pa 0x0B
    else s1.fresh.modCluster n.home (fun c => { c with colls := c.colls ++ [nodeColl s1.serial pa (n.word 4) gather rc] })

/-- COLLECTIVE_NODE_START (R158): a started node whose record's page was paused starts its collective later (R106). -/
def execCollectiveNodeStart (pa : Nat) (s : State) : Out State :=
  match Tab.find? pa s.nodes with
  | none => .next s
  | some n =>
    let again := s.nodeState pa == 2 && n.retired == 0 &&
      (s.cluster n.home).colls.all (fun c => decide (c.node ≠ some pa))
    runEvent s (decide (n.kind = 3) && (again || s.startsNext pa n)) (fun s =>
      let s1 := if again then s else s.startNode pa
      match Tab.find? pa s1.nodes with | some n => s1.startColl pa n | none => s1)

/-- Post a host event, if its mailbox has room (R158, R215). -/
def State.postEvent (s : State) (pa : Nat) (n : Node) : State :=
  let done := fun (s : State) => { s with nodes := Tab.mod pa (fun n => { n with retired := 1 }) s.nodes }
  if n.word 2 = 0xFFFFFFFF then done s
  else
    let key := mailKey n.fn (n.word 2)
    if s.mailUsed key + s.mailHeld n.fn (n.word 2) + 1 ≤ 16 then
      let m : Msg := { words := [BitVec.ofNat 32 (n.word 3)], sender := none }
      done { s with mailOut := Tab.put key (Tab.getD [] key s.mailOut ++ [m]) s.mailOut }
    else s

/-- HOST_EVENT_POST (R158, R215): a node whose mailbox is full stays running until it has room. -/
def execHostEventPost (pa : Nat) (s : State) : Out State :=
  match Tab.find? pa s.nodes with
  | none => .next s
  | some n =>
    let again := s.nodeState pa == 2 && n.retired == 0
    runEvent s (decide (n.kind = 4) && (again || s.startsNext pa n)) (fun s =>
      let s1 := if again then s else s.startNode pa
      match Tab.find? pa s1.nodes with | some n => s1.postEvent pa n | none => s1)

/-- Translate a run of n storage bytes from a VA on: a run that reaches the end of a page's storage goes on in that of the
next page (log 87). The entries that it uses and the bytes' physical addresses; each of the `fuel` turns does one page. -/
def State.run (s : State) (cl ctx : Nat) (u : Use) : Nat → Nat → Nat → State × Option (List TlbEntry × List Nat)
  | _, _, 0 => (s, some ([], []))
  | 0, _, _ => (s, none)
  | fuel + 1, va, n =>
    match s.xlat2 cl ctx va u with
    | (s1, none) => (s1, none)
    | (s1, some e) =>
      let k := min n (pageStored e.pte - pageOff e.pte va)
      if k = 0 then (s1.pause ctx va, none)
      else match s1.run cl ctx u fuel (va / pageBytes e.size * pageBytes e.size + pageBytes e.size) (n - k) with
        | (s2, some (es, ps)) => (s2, some (e :: es, (List.range k).map (· + paOf e.pte va) ++ ps))
        | (s2, none) => (s2, none)

/-- The run of a node's transfer at a VA. -/
def State.runOf (s : State) (n : Node) (u : Use) (va size : Nat) : State × Option (List TlbEntry × List Nat) :=
  s.run n.home n.ctx u size va size

/-- The transfer of a copy or weight-load node: every storage byte is read, then written unchanged (R98, R158); true when
it has been performed. A copy whose destination translates to the weight store fails. -/
def State.runTransfer (s : State) (pa : Nat) (n : Node) : State × Bool :=
  let size := if n.kind = 1 then n.word 6 else n.word 7
  let move := fun (s : State) (src dst : List Nat) =>
    let m : Move := { dst := dst.map .phys, bytes := src.map s.physByte, reads := src.map .phys }
    if physHeld s [m] then (s, false) else (s.perform (2 ^ 80) [m], true)
  match s.runOf n .read (n.va2 2) size with
  | (s1, none) => (s1, false)
  | (s1, some (_, src)) =>
    if n.kind ≠ 1 then move s1 src ((List.range size).map (fun i => weightPa (n.word 4) (n.word 6 + i)))
    else match s1.runOf n .probe (n.va2 4) size with
      | (s2, none) => (s2, false)
      | (s2, some (es, _)) =>
        if es.any (fun e => pteType e.pte == 1) then (s2.failWith pa 0x0B, false)
        else match s2.runOf n .write (n.va2 4) size with
          | (s3, some (_, dst)) => move s3 src dst
          | (s3, none) => (s3, false)

/-- Whether a running node's work is over: every form has retired and been written back (R29), the collective is
performed or the event posted. -/
def Node.over (n : Node) : Bool :=
  match n.kind with
  | 0 => n.retired == n.forms
  | 3 | 4 => n.retired == 1
  | _ => false

/-- NODE_COMPLETE (R161): a copy or weight-load node performs its transfer here. -/
def execNodeComplete (pa : Nat) (s : State) : Out State :=
  match Tab.find? pa s.nodes with
  | none => .next s
  | some n =>
    runEvent s (s.nodeState pa == 2 && !s.walkHeld pa && (n.over || n.kind == 1 || n.kind == 2)) (fun s =>
      if n.kind = 1 ∨ n.kind = 2 then
        let r := s.runTransfer pa n
        if r.2 then r.1.completeNode pa else r.1
      else s.completeNode pa)

/-- EFFECTIVE_PRIORITY_AGING (R164): the node of form f gains a level for each millisecond since its ready time. The
candidates' order follows the clock in any case (`State.levels`). -/
def execEffectivePriorityAging (f : Nat) (s : State) : Out State :=
  match List.find? (fun (p : Nat × Node) => decide (p.2.kind = 0 ∧ p.2.fbase ≤ f ∧ f < p.2.fbase + p.2.forms)) s.nodes with
  | none => .next s
  | some (pa, n) =>
    runEvent s (decide (n.aged < 16 ∧ n.readyTick + 800000 * (n.aged + 1) ≤ s.clock ∧ 1 ≤ s.nodeState pa))
      (fun s => { s with nodes := Tab.mod pa (fun n => { n with aged := n.aged + 1 }) s.nodes })

/-! ## The doorbell (R215) -/

/-- The key of an insertion slot of a function. -/
def slotKey (fn slot : Nat) : Nat := fn * 512 + slot

/-- Insert the image of a slot at its VA in the function's context (R159, R160). A VA that names no HBM page, or where a
node is still inserted, is ignored and logged (log 17). A slot keeps its image while the node's page or its record's may not
be written or holds an uncorrectable atom there, until the kernel has acted (R102, R106, R214). -/
def State.offerSlot (s : State) (fn slot va : Nat) (img : List Word) : State :=
  match Tab.find? fn s.binding with
  | none => s
  | some (part, ctx) =>
    let free := { s with slots := Tab.del (slotKey fn slot) s.slots }
    let kept := { s with slots := Tab.put (slotKey fn slot) (va, img) s.slots }
    if (s.leafSpan ctx va).any s.isBad then kept else
    match s.leafAt ctx va with
    | none => free.note (.doorbell fn slot)
    | some e =>
      if va % 128 ≠ 0 ∨ pteType e ≠ 0 ∨ (Tab.find? (nodeKey e va) s.nodes).isSome then free.note (.doorbell fn slot)
      else
        let held := s.insertWait ctx va e img
        if held.isSome then kept.pauseAt ctx held
        else free.offerNode fn ctx part va e img 127

/-- Insert again what waits in the slots (R106). -/
def State.retrySlots (s : State) : State :=
  s.slots.foldl (fun s p => s.offerSlot (p.1 / 512) (p.1 % 512) p.2.1 p.2.2) s

/-- The next node of a recording that the kernel re-inserts (R221). -/
def State.nextNode (s : State) : Option RecItem :=
  s.play.find? (fun x => match x with | .node _ _ _ _ true _ _ => true | _ => false)

/-- A doorbell in replay: the kernel re-inserts the recording's next node in its epoch, and puts its launch record back
first; any other is ignored and logged (R221, R222, log 68). -/
def State.replayNode (s : State) (fn slot va : Nat) (img : List Word) : State :=
  match s.nextNode with
  | some (.node f ctx v e h im rcd) =>
    if f = fn ∧ v = va ∧ im = img ∧ e = s.epoch - s.recFrom then
      ((s.writeWords ctx (imgWord2 img 2) rcd).played (.node f ctx v e h im rcd)).offerSlot fn slot va img
    else s.note (.doorbell fn slot)
  | _ => s.note (.doorbell fn slot)

/-- The re-insertion that the kernel makes next in a replay, in the lowest free slot (R221). -/
def State.replayDoorbell (s : State) : Option Instr :=
  match (if s.replaying then s.nextNode else none) with
  | some (.node f _ v e _ im _) =>
    if e = s.epoch - s.recFrom then
      ((List.range 511).find? (fun k => (Tab.find? (slotKey f k) s.slots).isNone)).map
        (fun k => .doorbell f k (BitVec.ofNat 56 v) im)
    else none
  | _ => none

/-- DOORBELL (R159, R160, R215, R216): once the windows are open, the image in the slot is checked and inserted. A doorbell
for a slot that is still being inserted is ignored and logged. -/
def execDoorbell (fn slot : Nat) (va : VAddr) (img : List Word) (s : State) : Out State :=
  runEvent s (s.booted && (Tab.find? fn s.binding).isSome && decide (slot < 511 ∧ img.length = 32 ∧ fn ≤ 16)) (fun s =>
    if (Tab.find? (slotKey fn slot) s.slots).isSome then s.note (.doorbell fn slot)
    else if s.replaying then s.replayNode fn slot va.toNat img
    else s.offerSlot fn slot va.toNat img)

end Sys2Proof.Machine
end

