-- ==== Sys2Proof/Machine/Walk.lean ====
section
/-! DEFINITION. Page walks and the control kernel's hand in translation (R104 to R106). -/

namespace Sys2Proof.Machine

/-- TLB_MISS_WALK (R104, R218): in hardware mode a miss takes a free walker, of 32. -/
def execTlbMissWalk (cl ctx : Nat) (va : VAddr) (s : State) : Out State :=
  let w := walkOf ctx va.toNat
  runEvent s ((s.cluster cl).misses.contains w && decide ((s.cluster cl).walks.length < 32) && !s.modectl.getLsbD 0)
    (fun s => s.modCluster cl (fun c => { c with misses := c.misses.erase w, walks := c.walks ++ [w] }))

/-- TLB_WALK_COMPLETE (R104, R106, R205): the table entries are read and the leaf enters the L2 TLB; an invalid entry pauses
what met it. A walk that meets an uncorrectable atom stays paused until the kernel has acted (R214). -/
def execTlbWalkComplete (cl k : Nat) (s : State) : Out State :=
  match (s.cluster cl).walks[k]? with
  | none => .next s
  | some w => runEvent s (!s.tableBad w.ctx (w.page * 65536)) (fun s =>
      let va := w.page * 65536
      let s1 := (s.requests (s.tableSpan w.ctx va)).modCluster cl (fun c => { c with walks := c.walks.eraseIdx k })
      match s1.walk w.ctx va with
      | some (_, e) => s1.modCluster cl (fun c => { c with l2 := tlbFill2 c.l2 (tlbOf w.ctx va e) })
      | none => s1.pause w.ctx va)

/-- INSTALL_TRANSLATION (R104, R106): the control kernel puts a valid leaf entry into a cluster's L2 TLB in the place of
any that its cluster holds for the address; misses and pauses on its page end, and insertions that waited are made. -/
def execInstallTranslation (cl ctx : Nat) (va : VAddr) (pte : BitVec 64) (s : State) : Out State :=
  let e := tlbOf ctx va.toNat pte
  let keep := fun (w : Walk) => !e.hits w.ctx (w.page * 65536)
  let drop := fun (l : List TlbEntry) => l.filter (fun x => !x.hits ctx va.toNat)
  runEvent s (leafOk 2 pte || leafOk 3 pte) (fun s =>
    let s1 := (List.range 8).foldl (fun s k => s.modCore (8 * cl + k) (fun c => { c with l1 := drop c.l1 })) s
    let s2 := s1.modCluster cl (fun c => { c with l2 := tlbFill2 (drop c.l2) e, misses := c.misses.filter keep })
    ({ s2 with paused := s2.paused.filter keep }).retrySlots)

/-- Whether an entry maps part of a range of VAs. -/
def TlbEntry.overlaps (e : TlbEntry) (ctx lo hi : Nat) : Bool :=
  let n := pageBytes e.size
  e.ctx == ctx && decide (e.page * n ≤ hi ∧ lo < e.page * n + n)

/-- Whether a chunk of a copy that has begun uses an entry that maps part of a range of VAs. -/
def State.chunkUses (s : State) (ctx lo hi : Nat) : Bool :=
  s.clusters.any (fun c => c.2.queues.any (fun q => q.2.any (fun o => o.used.any (·.2.overlaps ctx lo hi))))

/-- TLB_INVALIDATE (R105): the range is lo to hi, both included. It completes once no chunk of a copy that has begun uses an
entry of the range; every other use of an entry is one step of the model. What was paused in the range tries again. -/
def execTlbInvalidate (ctx : Nat) (lo hi : VAddr) (s : State) : Out State :=
  runEvent s (!s.chunkUses ctx lo.toNat hi.toNat) (fun s =>
    let s1 := s.mapTlbs (fun l => l.filter (fun e => !e.overlaps ctx lo.toNat hi.toNat))
    { s1 with paused := s1.paused.filter (fun w =>
        !(w.ctx == ctx && decide (w.page * 65536 ≤ hi.toNat ∧ lo.toNat < w.page * 65536 + 65536))) })

end Sys2Proof.Machine
end

