-- ==== Sys2Proof/Machine/Power.lean ====
section
/-! DEFINITION. Power, heat and the droop curve (R187 to R203). -/

namespace Sys2Proof.Machine

/-! ## The ladder and the applied position (R189, R190) -/

/-- A position's place on the ladder, from the least restrictive. -/
def posRank (p : Pos) : Nat := if p.passes = 1 then 24 - p.phi else if p.passes = 2 then 25 else 26
def posOf (n : Nat) : Pos :=
  if n ≤ 24 then { phi := 24 - n, passes := 1 } else if n = 25 then { phi := 0, passes := 2 } else { phi := 0, passes := 4 }
def posDown (p : Pos) : Pos := posOf (min 26 (posRank p + 1))
def posUp (p : Pos) : Pos := posOf (posRank p - 1)
/-- The lowest φ and the highest p, each on its own. -/
def posMeet (a b : Pos) : Pos := { phi := min a.phi b.phi, passes := max a.passes b.passes }
def posTop : Pos := { phi := 24, passes := 1 }
def posFloor : Pos := { phi := 0, passes := 4 }

/-- The demands of a cluster without its group's. -/
def State.demand (s : State) (cl : Nat) : Pos :=
  let c := s.cluster cl
  posMeet (posMeet { phi := c.maxPhi, passes := 1 } s.package.pos) c.thermal

/-- The applied position (R190). -/
def State.applied (s : State) (cl : Nat) : Pos := posMeet (s.demand cl) (s.cluster cl).group

/-! ## The sequencer (R187, R188) -/

def Cluster.vfAt (c : Cluster) (phi : Nat) : Nat := c.vf.getD phi 95

/-- The next step towards a target (R188). -/
def Cluster.nextStep (c : Cluster) (t : Nat) : Option SeqStep :=
  if t < c.phi then some .phiDown
  else if c.volt < c.vfAt t then some .voltUp
  else if c.phi < t then some .phiUp
  else if c.vfAt t < c.volt then some .voltDown
  else none

/-- A step that finishes. -/
def Cluster.takeStep (c : Cluster) : Cluster :=
  match c.stepping with
  | some .phiDown => { c with phi := c.phi - 1 }
  | some .voltUp => { c with volt := c.volt + 1 }
  | some .phiUp => { c with phi := c.phi + 1 }
  | some .voltDown => { c with volt := c.volt - 1 }
  | none => c

/-- A sequencer that is idle starts towards its target. -/
def State.retarget (s : State) (cl : Nat) : State :=
  if (s.cluster cl).stepping = none then
    s.modCluster cl (fun c => { c with stepping := c.nextStep (s.applied cl).phi })
  else s
def State.retargetAll (s : State) : State := (List.range 64).foldl State.retarget s

/-- SEQUENCER_STEP_DONE (R188): the step under way finishes and the loop starts again. -/
def execSequencerStepDone (cl : Nat) (s : State) : Out State :=
  runEvent s (s.cluster cl).stepping.isSome (fun s =>
    (s.modCluster cl (fun c => { c.takeStep with stepping := none })).retarget cl)

/-- CONFIGURED_MAXIMUM_WRITE (R190, R193): the kernel sets a cluster's maximum φ and its temperature threshold. -/
def execConfiguredMaximumWrite (cl : Nat) (l : ClusterLimits) (s : State) : Out State :=
  runEvent s (decide (cl < 64 ∧ l.phi ≤ 24 ∧ 80 ≤ l.threshold ∧ l.threshold ≤ 104)) (fun s =>
    (s.modCluster cl (fun c => { c with maxPhi := l.phi, threshold := l.threshold })).retarget cl)

/-- Whether a table is nondecreasing. -/
def rising : List Nat → Bool
  | a :: b :: r => decide (a ≤ b) && rising (b :: r)
  | _ => true

/-- VF_TABLE_WRITE (R187): an entry may be raised, never below its fused code, and the table stays nondecreasing. The
voltage follows at once, so that v stays at or above VF[φ] (log 34); a voltage step down that is under way is chosen anew,
and so is a step up that this has overtaken, so that v passes no target (R188). -/
def execVfTableWrite (cl phi code : Nat) (s : State) : Out State :=
  runEvent s (decide (cl < 64)) (fun s =>
    let vf := (s.cluster cl).vf.set phi code
    if phi ≤ 24 ∧ code ≤ 95 ∧ Config.fusedVF phi ≤ code ∧ rising vf then
      (s.modCluster cl (fun c =>
        let f := if c.stepping = some .phiUp then c.phi + 1 else c.phi
        let c1 := { c with vf := vf }
        { c1 with volt := max c.volt (c1.vfAt f),
                  stepping := if c.stepping = some .voltDown ∨ (c.stepping = some .voltUp ∧ c.volt < c1.vfAt f) then none
                    else c.stepping })).retarget cl
    else s.note .vf)

/-! ## Package power (R190) -/

/-- The demand a step down starts from: the least restrictive applied position, if the demand is less restrictive. -/
def State.packageFrom (s : State) : Pos :=
  let least := ((List.range 64).map (fun cl => posRank (s.applied cl))).foldl min 26
  if posRank s.package.pos < least then posOf least else s.package.pos

/-- PACKAGE_POWER_SAMPLE (R190): `watts` is the 1 ms average. -/
def execPackagePowerSample (watts : Nat) (s : State) : Out State :=
  runEvent s true (fun s =>
    let p := s.package
    let c := s.droop.ceiling
    let q : Package :=
      if c < watts then { pos := posDown s.packageFrom, low := 0 }
      else if 100 * watts < 95 * c then
        (if p.low + 1 = 10 then { pos := posUp p.pos, low := 0 } else { p with low := p.low + 1 })
      else { p with low := 0 }
    { s with package := q }.retargetAll)

/-! ## Heat (R190, R193, R194) -/

/-- THERMAL_SAMPLE (R190, R193): at or above 105 °C the demand is (0, 4) at once. -/
def execThermalSample (cl temp : Nat) (s : State) : Out State :=
  runEvent s (decide (cl < 64)) (fun s =>
    (s.modCluster cl (fun c =>
      { c with temp := temp, thermal := if 105 ≤ temp then posFloor else c.thermal })).retarget cl)

/-- Whether a move away from a cluster is under way. -/
def State.migrating (s : State) (cl : Nat) : Bool := s.forms.any (fun p => p.2.cluster == cl && p.2.move.isSome)

/-- THERMAL_DEMAND_STEP (R190): every 1 ms. -/
def execThermalDemandStep (cl : Nat) (s : State) : Out State :=
  runEvent s (decide (cl < 64 ∧ (s.cluster cl).thermalTick + 800000 ≤ s.clock)) (fun s =>
    (s.modCluster cl (fun c =>
      { c with
        thermalTick := s.clock,
        thermal := if c.threshold < c.temp ∧ !s.migrating cl then posDown c.thermal
          else if c.temp + 3 ≤ c.threshold then posUp c.thermal else c.thermal })).retarget cl)

/-- A parked form: shed, with every thread stopped. -/
def State.parked (s : State) (f : Nat) (fm : Form) : Bool :=
  fm.shed && (s.threadsOf f).all (fun p => decide (p.2.status ≠ .live))

/-- A resident form that neither yields nor moves. -/
def Form.stays (f : Form) : Bool := decide (f.phase = .staging ∨ f.phase = .running) && !f.asked && f.move.isNone

/-- The form that leaves a hot cluster (R193). -/
def State.movable (s : State) (cl : Nat) : Option (Nat × Form) :=
  let fs := s.forms.filter (fun p => p.2.cluster == cl && p.2.stays && decide (p.2.moved + 16000000 ≤ s.clock) &&
    !s.parked p.1 p.2)
  match fs with
  | [] => none
  | x :: r => some (r.foldl (fun m p => if m.2.admitted ≤ p.2.admitted then p else m) x)

/-- What a moving form needs. -/
def moveNeed (f : Nat) (fm : Form) : Need := { rcd := fm.rcd, form := some f, who := some f, ex := [] }

/-- The target that R193 chooses for a form of a hot cluster. -/
def State.coolTarget (s : State) (cl f : Nat) (fm : Form) : Option Nat :=
  let ts := (List.range 64).filter (fun t => fm.part.contains t && decide ((s.cluster t).temp + 6 ≤ (s.cluster cl).temp) &&
    decide ((s.cluster t).temp < (s.cluster t).threshold) && s.fits (moveNeed f fm) t)
  match ts with
  | [] => none
  | x :: r => some (r.foldl (fun m t => if (s.cluster t).temp < (s.cluster m).temp then t else m) x)

/-- The kernel's own choice of a move, in host-assisted mode: a form of the cluster and a target of its partition that can
place it (R194, R218). -/
def State.kernelMove (s : State) (cl f target : Nat) (seats : List Seat) : State :=
  match Tab.find? f s.forms with
  | none => s
  | some fm =>
    if fm.cluster = cl ∧ fm.stays ∧ fm.part.contains target ∧ target ≠ cl ∧ s.placedWell (moveNeed f fm) target seats then
      s.modForm f (fun x => { x with move := some (target, seats) })
    else s

/-- MIGRATION_EVAL (R193, R194, R218): the target is reserved. In host-assisted mode the kernel chooses form and target. -/
def execMigrationEval (cl : Nat) (c : MoveChoice) (seats : List Seat) (s : State) : Out State :=
  runEvent s (decide (cl < 64) && (s.modectl.getLsbD 5 || decide ((s.cluster cl).migTick + 800000 ≤ s.clock))) (fun s =>
    let tick := fun (s : State) => s.modCluster cl (fun c => { c with migTick := s.clock })
    if s.modectl.getLsbD 5 then s.kernelMove cl c.form c.target seats
    else if (s.cluster cl).temp ≤ (s.cluster cl).threshold then tick s
    else
      match s.movable cl with
      | none => tick s
      | some (f, fm) =>
        match s.coolTarget cl f fm with
        | none => tick s
        | some t =>
          if t = c.target ∧ s.placedWell (moveNeed f fm) t seats then
            tick (s.modForm f (fun x => { x with move := some (t, seats) }))
          else s)

/-- Whether a thread stands still for a move: before its next clause, or in a wait of R27 inside its first outstanding one,
with every word of the clauses behind it that can go on executed (R194). -/
def Thread.still (th : Thread) : Bool :=
  th.pending.isNone &&
  (match th.clauses with
   | [] => true
   | c :: _ => c.wait.interruptible &&
     th.clauses.zipIdx.all (fun x => !th.canRun x.2 || decide (x.1.wait ≠ .none)))

/-- A SLEEP's end on another cluster's clock (R385). -/
def Wait.rebase (old new : Nat) : Wait → Wait
  | .sleep till => .sleep (new + (till - old))
  | w => w

/-- FORM_MIGRATE (R194): a form that has stopped moves whole, and resumes where it stopped. Its watchdog keeps its count. No
weight load that its window overlaps runs on the target's die (R133). -/
def execFormMigrate (f : Nat) (s : State) : Out State :=
  match Tab.find? f s.forms with
  | none => .next s
  | some fm =>
    match fm.move with
    | none => .next s
    | some (cl, seats) =>
      runEvent s ((s.threadsOf f).all (fun p => p.2.still) && fm.ctxs.all (fun c => c.ops.isEmpty) &&
          s.enginesDone fm.cluster f && fm.cores.all (fun c => (s.core c).loads.all (fun l => l.form != f)) &&
          (Rec.wsize fm.rcd == 0 || (s.loadsOf (cl / 16)).all (fun x => !windowHits fm.rcd x.1 x.2)))
        (fun s =>
          let banks := s.banksOf f fm.cores
          let s := s.codeFor cl fm.node
          let old := (s.cluster fm.cluster).cyc
          let new := (s.cluster cl).cyc
          let go := fun (th : Thread) =>
            { th.seat fm.rcd seats with clauses := th.clauses.map (fun c => c.waits (c.wait.rebase old new)) }
          let s1 := { s with threads := s.threads.map (fun (p : Nat × Thread) => (p.1, if p.2.form = f then go p.2 else p.2)) }
          let s2 := s1.modForm f (fun x => { x.settleAt cl seats with move := none, moved := s.clock })
          let s3 := s2.moveComps fm.ctx fm.cores (coresOf fm.rcd seats)
          (s3.putBanks f (coresOf fm.rcd seats) banks).askSlew cl)

/-! ## The droop follower (R197 to R200) -/

def dropX (w : Word) (signed : Bool) : Int := if signed then (w.toInt).ediv 65536 else Int.ofNat (w.toNat / 65536)
def dropP (w : Word) : Int := Int.ofNat (w.toNat % 128)

/-- Curve of R200 over points given as (X, P). -/
def curve (x : Int) : List (Int × Int) → Int
  | [] => 0
  | [(_, p)] => p
  | (xa, pa) :: (xb, pb) :: r =>
    if x ≤ xa then pa
    else if x < xb then (pa * (xb - xa) + (pb - pa) * (x - xa)) / (xb - xa)
    else curve x ((xb, pb) :: r)

def freqPoints (drp : List Word) : List (Int × Int) := (drp.take 12).map (fun w => (dropX w true, dropP w))
def voltPoints (drp : List Word) : List (Int × Int) := ((drp.drop 12).take 4).map (fun w => (dropX w false, dropP w))

/-- C% of a frequency deviation and a bus voltage. -/
def ceilingPct (drp : List Word) (df vbus : Int) : Nat :=
  (min (curve df (freqPoints drp)) (curve vbus (voltPoints drp))).toNat

/-- T1 to T7. -/
def thresholds (t0 t1 : Word) : List Nat :=
  (List.range 4).map (fun k => bitsOf t0.toNat (8 * k + 7) (8 * k)) ++
  (List.range 3).map (fun k => bitsOf t1.toNat (8 * k + 7) (8 * k))

def shedLevel (ts : List Nat) (c : Nat) : Nat := (ts.filter (fun t => decide (c < t))).length

/-- X values strictly ascending, P at most 100; thresholds nonincreasing and at most 100 (R198, R199). -/
def ascending : List (Int × Int) → Bool
  | a :: b :: r => decide (a.1 < b.1) && ascending (b :: r)
  | _ => true
def falling : List Nat → Bool
  | a :: b :: r => decide (b ≤ a) && falling (b :: r)
  | _ => true
def curveOk (drp : List Word) (t0 t1 : Word) : Bool :=
  ascending (freqPoints drp) && ascending (voltPoints drp) && drp.all (fun w => decide (w.toNat % 128 ≤ 100)) &&
  falling (thresholds t0 t1) && (thresholds t0 t1).all (fun t => decide (t ≤ 100))

/-- What a sample first adopts: the nominal frequency, and a committed curve or its refusal. -/
def Droop.adopt (d : Droop) : Droop :=
  let d1 := { d with nom := d.nomNext }
  if !d.commit then d1
  else if curveOk d.staged d.staged0 d.staged1 then
    { d1 with drp := d.staged, shedt0 := d.staged0, shedt1 := d.staged1, commit := false, refused := false }
  else { d1 with commit := false, refused := true }

/-- Δf, clamped (R197). -/
def deviation (freq : Nat) (nom : Bool) : Int :=
  let d := Int.ofNat freq - (if nom then 60000 else 50000)
  max (-32767) (min 32767 d)

/-- Whether a sample at a tick comes after a gap of 10 ms or more (R197, R200). -/
def Droop.broken (d : Droop) (clock : Nat) : Bool := d.gap || decide (d.lastTick + 8000000 ≤ clock)

/-- The droop follower after a sample; `broken`: it breaks the run of consecutive ones (R200). Of several
samples of an epoch whose Lnew is at least L, the last sets L (log 93). -/
def Droop.sample (d : Droop) (broken : Bool) (clock freq vbus : Nat) : Droop :=
  let d := d.adopt
  let df := deviation freq d.nom
  let ts := thresholds d.shedt0 d.shedt1
  let pct := ceilingPct d.drp df (Int.ofNat vbus)
  let lhys := shedLevel ts (ceilingPct d.drp (df - 50) (Int.ofNat vbus))
  let hist := (lhys :: (if broken then [] else d.hist)).take 2000
  { d with
    pct := pct, lnew := if d.level ≤ shedLevel ts pct then shedLevel ts pct else d.lnew, hist := hist,
    fall := if hist.length = 2000 ∧ hist.all (fun x => decide (x < d.level)) then some (hist.foldl max 0) else d.fall,
    lastTick := clock, gap := false }

/-- The next sample of a recording. -/
def State.nextSample (s : State) : Option RecItem :=
  s.play.find? (fun x => match x with | .sample _ _ _ _ => true | _ => false)

/-- Whether the next sample breaks the run: by this device's clock, in replay as it did in the recording (R200, R222). -/
def State.sampleBroken (s : State) : Bool :=
  match (if s.replaying then s.nextSample else none) with
  | some (.sample _ _ _ b) => b
  | _ => s.droop.broken s.clock

/-- A sample as it is recorded: with its epoch, counted from the write of RECCTL (R220), and whether it breaks the run. -/
def State.sampleItem (s : State) (freq vbus : Nat) : RecItem := .sample (s.epoch - s.recFrom) freq vbus s.sampleBroken

/-- Whether a sample may be taken: in replay only the next one of the recording, in its epoch (R221, R222). -/
def State.sampleDue (s : State) (freq vbus : Nat) : Bool :=
  !s.replaying || s.nextSample == some (s.sampleItem freq vbus)

/-- Take a sample. -/
def State.takeSample (s : State) (freq vbus : Nat) : State :=
  let d := s.droop.sample s.sampleBroken s.clock freq vbus
  let s1 := (({ s with droop := d }).keep (s.sampleItem freq vbus)).played (s.sampleItem freq vbus)
  if s.droop.commit && d.refused then s1.note .curve else s1

/-- TELEMETRY_SAMPLE (R197, R199, R221): a sample of the port, in hardware mode, or in replay of the recording, which the
kernel feeds in its place. -/
def execTelemetrySample (freq vbus : Nat) (s : State) : Out State :=
  runEvent s ((!s.modectl.getLsbD 4 || s.replaying) && decide (freq < 2 ^ 32 ∧ vbus < 2 ^ 16) && s.sampleDue freq vbus) (fun s =>
    ({ s with droop := { s.droop with sampf := BitVec.ofNat 32 freq, sampv := BitVec.ofNat 32 vbus } }).takeSample freq vbus)

/-- SAMPV_WRITE (R199): in host-assisted mode it completes one sample, with the last value written to SAMPF; otherwise it
is ignored. -/
def execSampvWrite (w : Word) (s : State) : Out State :=
  runEvent s (s.modectl.getLsbD 4 && s.sampleDue s.droop.written.toNat (w.toNat % 65536)) (fun s =>
    ({ s with droop := { s.droop with writtenV := w &&& 0xFFFF } }).takeSample s.droop.written.toNat (w.toNat % 65536))

/-- SAMPF and SAMPV as they read: what the host wrote in host-assisted mode, else the port's last sample (R199). -/
def Droop.samples (d : Droop) (host : Bool) : Word × Word := if host then (d.written, d.writtenV) else (d.sampf, d.sampv)

/-- SAMPLE_GAP (R197): no sample for 10 ms. In replay the recorded samples say where one was (R222). -/
def execSampleGap (s : State) : Out State :=
  runEvent s (!s.replaying && !s.droop.gap && decide (s.droop.lastTick + 8000000 ≤ s.clock)) (fun s =>
    { s with droop := { s.droop with gap := true, hist := [] } }.note .gap)

/-- DRP_COMMIT (R199): a write of DRPCTL. -/
def execDrpCommit (w : Word) (s : State) : Out State :=
  runEvent s true (fun s =>
    { s with droop := { s.droop with nomNext := w.getLsbD 1, commit := s.droop.commit || w.getLsbD 0 } })

/-- DRPCTL as it reads. -/
def Droop.ctl (d : Droop) : Word := BitVec.ofNat 32 ((if d.refused then 4 else 0) + (if d.nomNext then 2 else 0))

/-- RAMP_WRITE (R192): judged by the entries of the table it makes. -/
def execRampWrite (cl : Nat) (w : Word) (s : State) : Out State :=
  runEvent s (decide (cl < 64)) (fun s =>
    let t := rampTable w
    if !t.isEmpty ∧ t.all (fun e => decide (e ≤ 8)) ∧ rising t then
      s.modCluster cl (fun c => { c with rampNext := some w })
    else s.note (.ramp cl))

/-! ## The epoch boundary (R195, R200 to R202) -/

/-- The throttle groups of a cluster: the KIND 1 endpoints of its resident forms (R195). -/
def State.groupsOf (s : State) (cl : Nat) : List Nat :=
  (s.forms.flatMap (fun p =>
    if p.2.cluster = cl ∧ (p.2.phase = .staging ∨ p.2.phase = .running ∨ p.2.phase = .yielding) then
      (List.range 64).filterMap (fun n => let c := Rec.cap p.2.rcd n
        if capValid c ∧ capKind c = 1 then some (capGroup c) else none)
    else [])).dedup

/-- The reports of this device's dies for an epoch: their members are 0 to 3 (R195). -/
def State.ownReports (s : State) (epoch : Nat) : List Report :=
  (List.range 4).flatMap (fun die =>
    let cls := (List.range 16).map (· + 16 * die)
    ((cls.flatMap s.groupsOf).dedup).map (fun g =>
      let mine := cls.filter (fun c => (s.groupsOf c).contains g)
      { group := g, member := die, epoch := epoch,
        pos := posOf ((mine.map (fun c => posRank (s.demand c))).foldl max 0), level := s.droop.level }))

/-- The members of other devices that lack a report of an epoch. -/
def silent (rs : List Report) (ms : List (Nat × Nat)) (epoch : Nat) : List (Nat × Nat) :=
  ms.filter (fun m => !rs.any (fun r => r.group == m.1 && r.member == m.2 && r.epoch == epoch))

/-- The position and level that a group adopts from an epoch's reports: the most restrictive and the highest. A member
that has sent none counts as (0, 4) with L = 7. -/
def adopted (rs : List Report) (ms : List (Nat × Nat)) (g epoch : Nat) : Pos × Nat :=
  if (silent rs ms epoch).any (fun m => m.1 == g) then (posFloor, 7)
  else (rs.filter (fun r => r.group == g && r.epoch == epoch)).foldl (fun m r =>
    (posOf (max (posRank m.1) (posRank r.pos)), max m.2 r.level)) (posTop, 0)

/-- The shed level of the device after a boundary (R200). -/
def Droop.atEpoch (d : Droop) : Droop :=
  let d1 := { d with ceiling := d.pct * 34, lnew := 0 }
  if d.level ≤ d.lnew then { d1 with level := d.lnew, fall := none }
  else
    match d.fall with
    | some x => { d1 with level := x, fall := none }
    | none => d1

/-- Whether a form holds a place on a cluster. -/
def Form.resident (f : Form) : Bool := decide (f.phase = .staging ∨ f.phase = .running ∨ f.phase = .yielding)

/-- A form's shed flag at a boundary (R201, R202). The PRIO that counts for its class is read then, of a form that waits
for admission too (R392). -/
def Form.shedAt (f : Form) (level clock : Nat) : Form :=
  if !f.resident then { f with shedPrio := f.prio }
  else
    let sh := decide (f.prio / 16 < level)
    { f with level := level, shed := sh, shedTick := if sh && !f.shed then clock else f.shedTick, shedPrio := f.prio }

/-- The level that a cluster's groups have adopted, if it is in one; otherwise the device's own applies (R195). -/
def groupLevel (gs : List Nat) (rs : List Report) (ms : List (Nat × Nat)) (epoch : Nat) : Option Nat :=
  if gs.isEmpty then none else some (gs.foldl (fun m g => max m (adopted rs ms g epoch).2) 0)

/-- A sample or a node of the recording that has to come before a boundary (R221, R222). -/
def State.replayOwed (s : State) : Bool :=
  s.replaying && s.play.any (fun x => match x with
    | .sample e _ _ _ => decide (e ≤ s.epoch - s.recFrom)
    | .node _ _ _ e true _ _ => decide (e ≤ s.epoch - s.recFrom)
    | _ => false)

/-- The sample that the kernel feeds next in a replay (R221). -/
def State.replaySample (s : State) : Option Instr :=
  match (if s.replaying then s.nextSample else none) with
  | some (.sample e f v _) => if e = s.epoch - s.recFrom then some (.telemetrySample f v) else none
  | _ => none

/-- The reports of an epoch as this device counts them at its end: a die whose clusters came to a group during the epoch
counts with its own demand and level (R195, log 63). -/
def State.reportsOf (s : State) (epoch : Nat) : List Report :=
  s.reports ++ (s.ownReports epoch).filter (fun r =>
    !s.reports.any (fun x => x.group == r.group && x.member == r.member && x.epoch == r.epoch))

/-- Send this device's reports of an epoch to the members of other devices, which are numbered four to a device (R195;
log 36). -/
def State.sendReports (s : State) (rs : List Report) : State :=
  rs.foldl (fun s r => ((s.members.filter (fun m => m.1 == r.group)).map (fun m => m.2 / 4)).dedup.foldl (fun s d =>
    s.emit d 0 r.group [BitVec.ofNat 32 r.member, BitVec.ofNat 32 r.epoch, BitVec.ofNat 32 (posRank r.pos),
      BitVec.ofNat 32 r.level]) s) s

/-- EPOCH_BOUNDARY (R195, R200 to R202, R218): MODECTL, the ceiling, the shed level and the groups' positions are
adopted, and the shed flags follow. -/
def execEpochBoundary (s : State) : Out State :=
  runEvent s (decide (80000 * (s.epoch + 1) ≤ s.clock) && !s.replayOwed) (fun s =>
    let k := s.epoch
    let d := s.droop.atEpoch
    let rs := s.reportsOf k
    let late := (silent s.reports s.members k).filter (fun m => (List.range 64).any (fun cl => (s.groupsOf cl).contains m.1))
    let s1 := { s with droop := d, modectl := s.modectlNext.getD s.modectl, modectlNext := none, epoch := k + 1 }
    let s2 := late.foldl (fun s m => s.note (.groupError m.1)) s1
    let s3 := (List.range 64).foldl (fun s cl =>
      let gs := s1.groupsOf cl
      if gs.isEmpty ∧ (s.cluster cl).group = posTop ∧ (s.cluster cl).level = none then s
      else s.modCluster cl (fun c =>
        { c with group := gs.foldl (fun p g => posMeet p (adopted rs s1.members g k).1) posTop,
                 level := groupLevel gs rs s1.members k })) s2
    let was := fun (f : Nat) => match Tab.find? f s.forms with | some x => x.shed | none => false
    let s4 := { s3 with forms := s3.forms.map (fun (p : Nat × Form) =>
      (p.1, p.2.shedAt (s3.levelOn p.2.cluster) s.clock)) }
    let free := fun (f : Nat) => was f && (match Tab.find? f s4.forms with | some x => !x.shed | none => false)
    let s5 := { s4 with
      threads := s4.threads.map (fun (p : Nat × Thread) => (p.1, if free p.2.form then p.2.unstop else p.2)),
      reports := s.reports.filter (fun r => decide (k < r.epoch)) }
    let own := s5.ownReports (k + 1)
    ({ s5 with reports := s5.reports ++ own }.sendReports own).retargetAll)

/-- THROTTLE_REPORT_RECEIVE (R195): of a member of another device, numbered from 4. It is a member from its first report
until one that says it leaves (log 84). -/
def execThrottleReportReceive (group member epoch : Nat) (pos : Pos) (level : Option Nat) (s : State) : Out State :=
  runEvent s (decide (4 ≤ member ∧ level.getD 0 ≤ 7)) (fun s =>
    let others := s.reports.filter (fun r => !(r.group == group && r.member == member && r.epoch == epoch))
    match level with
    | none => { s with reports := others, members := s.members.filter (· != (group, member)) }
    | some l => { s with reports := others ++ [{ group := group, member := member, epoch := epoch, pos := pos, level := l }],
                         members := s.members.filter (· != (group, member)) ++ [(group, member)] })

end Sys2Proof.Machine
end

