-- ==== Sys2Proof/Machine/Hbm.lean ====
section
/-! DEFINITION. Main memory: replies and tags, errors and their escalation, frequency and refresh, remaps, neighbour
refresh, the weight store's refresh windows, and hall scrubbing (R92, R96, R196, R204 to R214). -/

namespace Sys2Proof.Machine

/-! ## Replies (R205, R209) -/

/-- The oldest waiting request of a pseudo-channel takes a free tag, if it may be sent. -/
def Stack.serve (k : Stack) (pch : Nat) : Stack :=
  match k.waiting.find? (fun x => x.1 == pch), k.freeTag pch with
  | some x, some t =>
    if k.paused pch then k else { k with waiting := k.waiting.erase x, tags := k.tags ++ [(pch, t, x.2)] }
  | _, _ => k

/-- One draw of the seeded neighbour refresh (R212). -/
def Stack.drawLfsr (k : Stack) : Stack := if k.nrctl.getLsbD 5 then { k with lfsr := Config.lfsrNext k.lfsr } else k

/-- HBM_REPLY (R205, R212, R214): the reply frees its tag. The model takes one activate, and so one draw in seeded mode,
for each request (log 25). An error that was corrected is counted in the kernel's log. -/
def execHbmReply (stack pch : Nat) (r : HbmAnswer) (s : State) : Out State :=
  match (s.stack stack).tags.find? (fun x => x.1 == pch && x.2.1 == r.tag) with
  | none => .next s
  | some x => runEvent s true (fun s =>
      let s1 := if r.corrected then s.note (.corrected stack x.2.2) else s
      s1.modStack stack (fun k =>
        ({ k with tags := k.tags.filter (fun x => !(x.1 == pch && x.2.1 == r.tag)) }.drawLfsr).serve pch))

/-! ## Frequency states, refresh (R196, R209) -/

/-- The state that a stack will have when the changes asked for are done. -/
def Stack.goal (k : Stack) : Nat :=
  match k.wanted.getLast?, k.retrain with
  | some x, _ => x
  | none, some (_, x) => x
  | none, none => k.freq

/-- Ask for a frequency state: a change under way is finished first. -/
def Stack.change (k : Stack) (st : Nat) : Stack :=
  if k.retrain.isSome then { k with wanted := k.wanted ++ [st] }
  else if k.freq = st then k
  else { k with retrain := some (0, st) }

/-- HBM_FREQ_CHANGE (R209): by the control kernel. -/
def execHbmFreqChange (stack st : Nat) (s : State) : Out State :=
  runEvent s (decide (stack < 12 ∧ st < 4)) (fun s => s.modStack stack (·.change st))

/-- The first of the changes asked for that is one begins; those before it ask for the state just reached. -/
def Stack.begin (k : Stack) : List Nat → Stack
  | [] => { k with retrain := none, wanted := [] }
  | x :: r => if x = k.freq then k.begin r else { k with retrain := some (0, x), wanted := r }

/-- The next group retrains, or the change is done and the next one asked for begins. -/
def Stack.nextGroup (k : Stack) (g st : Nat) : Stack :=
  if g < 3 then { k with retrain := some (g + 1, st) } else { k with freq := st }.begin k.wanted

/-- HBM_RETRAIN_GROUP_DONE (R209): a group's pause ends, once the requests that it held are complete; what waits for its
channels is sent. -/
def execHbmRetrainGroupDone (stack : Nat) (s : State) : Out State :=
  match (s.stack stack).retrain with
  | none => .next s
  | some (g, st) =>
    runEvent s ((s.stack stack).tags.all (fun x => x.1 / 2 / 8 != g)) (fun s =>
      s.modStack stack (fun k =>
        let k1 := k.nextGroup g st
        (k1.waiting.filter (fun x => x.1 / 2 / 8 == g)).foldl (fun k x => k.serve x.1) k1))

/-- The refresh multiple of a temperature, with a fall only 2 °C below a boundary (R196). -/
def refreshOf (old temp : Nat) : Nat :=
  let up := if 95 < temp then 4 else if 85 < temp then 2 else 1
  if old ≤ up then up
  else if temp ≤ 83 then 1
  else if temp ≤ 93 then 2
  else old

/-- The frequency state follows the heat above 105 °C (R196). -/
def Stack.heat (k : Stack) (temp : Nat) (auto : Bool) : Stack :=
  let k := { k with temp := temp, refresh := refreshOf k.refresh temp }
  if !auto then k
  else if 105 < temp ∧ !k.dropped ∧ k.goal < 3 then { k with dropped := true }.change (k.goal + 1)
  else if temp ≤ 100 ∧ k.dropped then { k with dropped := false }.change (k.goal - 1)
  else k

/-- HBM_TEMP_CHANGE (R196, R218): the hottest die of a stack. -/
def execHbmTempChange (stack temp : Nat) (s : State) : Out State :=
  runEvent s (decide (stack < 12)) (fun s => s.modStack stack (·.heat temp (!s.modectl.getLsbD 6)))

/-! ## Errors (R95, R207, R214) -/

/-- The physical address of an atom: of a stack, or for numbers 12 to 15 of the weight store of die 0 to 3. -/
def atomPa (stack atom : Nat) : Nat :=
  if stack < 12 then stack * 0xC00000000 + atom * 32 else weightPa (stack - 12) (atom * 32)

/-- Whether a leaf entry's frame holds a physical address. -/
def mapsPa (pa : Nat) (e : BitVec 64) : Bool := decide (pteFrame e ≤ pa ∧ pa < pteFrame e + pageBytes (pteSize e))

/-- The leaves of the tables below one, at a level, whose frames hold a physical address (R100, R101). -/
def State.leavesBelow (s : State) (pa : Nat) : Nat → Nat → Nat → List (BitVec 64)
  | 0, _, _ => []
  | fuel + 1, lvl, tbl => (List.range 1024).flatMap (fun i =>
      let e := BitVec.ofNat 64 (leNat (s.physBytes (tbl + 8 * i) 8))
      if leafOk lvl e then (if mapsPa pa e then [e] else [])
      else if pointerOk e && decide (lvl < 3) then s.leavesBelow pa fuel (lvl + 1) (pteBits e 51 13 * 8192)
      else [])

/-- The leaf entries that map a physical address in a context: those that the TLBs hold, then those of the tables. -/
def State.mappings (s : State) (ctx pa : Nat) : List (BitVec 64) :=
  ((s.clusters.flatMap (fun p => p.2.l2) ++ s.cores.flatMap (fun p => p.2.l1)).filter (fun e =>
      e.ctx == ctx && mapsPa pa e.pte)).map (·.pte) ++
  (match Tab.find? ctx s.roots with | some root => s.leavesBelow pa 4 0 root | none => [])

/-- The leaf entry that maps a physical address in a context, the first of them, with D where any of them has it: replicas
and cached copies differ in D alone (R101). -/
def State.mapping (s : State) (ctx pa : Nat) : Option (BitVec 64) :=
  match s.mappings ctx pa with
  | [] => none
  | e :: r => some (if r.any pteDirty then pteSetD e else e)

/-- The unit that met an error: a form for an even number, a node for an odd one. -/
def unitForm (u : Nat) : Option Nat := if u % 2 = 0 then some (u / 2) else none
def unitNode (u : Nat) : Option Nat := if u % 2 = 1 then some (u / 2) else none

/-- Context, launch or node, and partition of a unit. -/
def State.unitOf (s : State) (u : Nat) : Option (Nat × Nat × List Nat) :=
  match unitForm u with
  | some f => (Tab.find? f s.forms).map (fun x => (x.ctx, x.node, x.part))
  | none => (unitNode u).bind (fun pa => (Tab.find? pa s.nodes).map (fun n => (n.ctx, pa, n.part)))

/-- Reset the clusters of a partition with their cores (R214). -/
def State.resetClusters (s : State) (part : List Nat) : State :=
  { s with clusters := s.clusters.filter (fun p => !part.contains p.1),
           cores := s.cores.filter (fun p => !part.contains (p.1 / 8)) }

/-- The device after a reset: memory, the kernel's log and the recording keep what they hold (log 35); the clock counts
from the reset (R362). -/
def State.deviceReset (s : State) : State :=
  { State.reset with mem := s.mem, bad := s.bad, log := s.log, nvme := s.nvme, serial := s.serial, draws := s.draws }

/-- The rows of R214's table after the first: what an OWN code has the kernel do for a unit of a context, a launch or node,
and a partition. -/
def State.ownAction (s : State) (own u ctx node : Nat) (part : List Nat) : State :=
  match own with
  | 0 => (match unitForm u with | some f => s.note (.cause0F f) | none => s).endLaunch node 0x0B
  | 1 => s.endNodes ((s.nodes.filter (fun p => p.2.ctx == ctx)).map (·.1))
  | 2 => (s.endNodes ((s.nodes.filter (fun p => p.2.part == part && s.nodeState p.1 == 2)).map (·.1))).resetClusters part
  | _ => s.deviceReset

/-- The action of R214 for a unit: by CS, D and OWN of the entry that maps the atom in the unit's context; an atom with no
mapping there is OWN 3. -/
def State.escalate (s : State) (pa u : Nat) : State :=
  match s.unitOf u with
  | none => s.deviceReset
  | some (ctx, node, part) =>
    match s.mapping ctx pa with
    | none => s.deviceReset
    | some e =>
      if pteBits e 55 55 = 1 ∧ !pteDirty e then s else s.ownAction (pteBits e 57 56) u ctx node part

/-- The host's choice of the action for an atom at a physical address, in host-assisted mode: 0 to 3 as for OWN, anything
else the first row, which leaves the unit paused until its page has been fetched again (R214, R218). -/
def State.hostAction (s : State) (pa choice u : Nat) : State :=
  if 4 ≤ choice then { s with refetch := s.refetch.filter (· != pa / 32) ++ [pa / 32] }
  else
    match s.unitOf u with
    | none => if choice = 3 then s.deviceReset else s
    | some (ctx, node, part) => s.ownAction choice u ctx node part

/-- HBM_UNCORRECTABLE (R95, R207, R214, R218): the unit that met the atom pauses and the error escalates; with ESCAL the
host chooses the action. An error of the weight store leaves its unit failed. -/
def execHbmUncorrectable (stack atom : Nat) (e : HbmError) (s : State) : Out State :=
  runEvent s (decide (stack < 16)) (fun s =>
    let pa := atomPa stack atom
    let s1 := { s with bad := SMap.set false (pa / 32) true s.bad }
    if 12 ≤ stack then s1.note (.weight atom)
    else
      let s2 := s1.note (.hbm stack atom)
      if s2.modectl.getLsbD 3 then s2.hostAction pa e.choice e.unit else s2.escalate pa e.unit)

/-- The page that holds a 32-byte unit and may be fetched again: one with a source (CS) that is clean, or for which the host
has chosen it (R214, R218). -/
def State.refetchable (s : State) (unit : Nat) : Option (BitVec 64) :=
  s.roots.findSome? (fun p => (s.mapping p.1 (unit * 32)).filter (fun e =>
    pteBits e 55 55 == 1 && (!pteDirty e || s.refetch.contains unit)))

/-- PAGE_REFETCH_COMPLETE (R214, R218): the page that holds the 32-byte unit has been fetched again; insertions that waited
for it are made. -/
def execPageRefetchComplete (unit : Nat) (s : State) : Out State :=
  match s.refetchable unit with
  | none => .next s
  | some e => runEvent s (SMap.get false unit s.bad) (fun s =>
      let out := fun (a : Nat) => decide (a < pteFrame e / 32 ∨ (pteFrame e + pageBytes (pteSize e)) / 32 ≤ a)
      ({ s with bad := s.bad.filter (fun p => out p.1), refetch := s.refetch.filter out }).retrySlots)

/-! ## Remaps (R211) -/

/-- Install a remap: the atom's bytes go to its slot. -/
def State.remap (s : State) (stack : Nat) (e : BitVec 64) : State :=
  let atom := bitsOf e.toNat 42 12
  let slot := bitsOf e.toNat 11 0
  let t := (s.stack stack).remap
  if bitsOf e.toNat 63 63 ≠ 1 ∨ bitsOf e.toNat 62 43 ≠ 0 ∨ t.any (fun p => p.1 == atom || p.2 == slot) then s.note .remap
  else
    let bytes := s.physBytes (stack * 0xC00000000 + atom * 32) 32
    s.modStack stack (fun k =>
      { k with remap := Tab.put atom slot k.remap, sram := SMap.setList Config.blankByte (slot * 32) bytes k.sram })

/-- REMAP_INSTALL (R211). -/
def execRemapInstall (stack : Nat) (e : BitVec 64) (s : State) : Out State :=
  runEvent s (decide (stack < 12)) (fun s => s.remap stack e)

/-- REMAP_REMOVE (R211): the slot is written back to its atom. -/
def execRemapRemove (stack slot : Nat) (s : State) : Out State :=
  match List.find? (fun (p : Nat × Nat) => p.2 == slot) (s.stack stack).remap with
  | none => .next s
  | some (atom, _) => runEvent s true (fun s =>
      let bytes := SMap.getList Config.blankByte (slot * 32) 32 (s.stack stack).sram
      (s.modStack stack (fun k =>
        { k with remap := Tab.del atom k.remap,
                 sram := SMap.setList Config.blankByte (slot * 32) (List.replicate 32 Config.blankByte) k.sram })).setPhysBytes
        (stack * 0xC00000000 + atom * 32) bytes)

/-! ## Neighbour refresh (R212, R213) -/

/-- NRCTL_WRITE (R212, R213). -/
def execNrctlWrite (stack : Nat) (w : Word) (s : State) : Out State :=
  runEvent s (decide (stack < 12)) (fun s =>
    if w.toNat % 32 < 6 ∨ 16 < w.toNat % 32 then s.note .nrctl
    else s.modStack stack (fun k => { k with nrctl := w &&& 0x3F, lfsr := if w.getLsbD 5 then k.nrseed else k.lfsr }))

/-- The next seed of a stack in a recording. -/
def State.nextSeed (s : State) (stack : Nat) : Option RecItem :=
  s.play.find? (fun x => match x with | .seed k _ => k == stack | _ => false)

/-- NRSEED_WRITE (R213, R220, R221): recorded, and in replay only the recorded one. -/
def execNrseedWrite (stack : Nat) (w : Word) (s : State) : Out State :=
  runEvent s (decide (stack < 12)) (fun s =>
    if w = 0 then s.note .nrseed
    else if s.replaying && (s.nextSeed stack).any (· != .seed stack w) then s
    else ((s.modStack stack (fun k => { k with nrseed := w })).keep (.seed stack w)).played (.seed stack w))

/-! ## The weight store's refresh (R96) -/

/-- Whether a bank's window is open at a tick: its first, or its second if that opened in this period or, of banks 30 and
31, in the one before. -/
def windowOpen (clock bank : Nat) (double was : Bool) : Bool :=
  let t := clock % 40000
  let at_ := fun (t o : Nat) => decide (o ≤ t ∧ t < o + 1280)
  at_ t (640 * bank) || (double && at_ t (20000 + 640 * bank)) || (was && at_ (t + 40000) (20000 + 640 * bank))

/-- Whether second windows are in force at a tick, and whether they were in the period before. -/
def Die.windows (d : Die) (clock : Nat) : Bool × Bool := (d.double, if clock / 40000 = d.period then d.was else d.double)

/-- At a period's start the second windows follow the weight-store temperature of the bank's own die (log 105). -/
def Die.atPeriod (d : Die) (clock temp : Nat) : Die :=
  if clock / 40000 = d.period ∧ 0 < clock / 40000 then d
  else { d with double := decide (95 < temp), was := d.double, period := clock / 40000 }

/-- WS_REFRESH_OPEN (R96): at the opening of bank 0, the period's start, the second windows follow the die's weight-store
temperature. -/
def execWsRefreshOpen (die bank temp : Nat) (s : State) : Out State :=
  let d := if bank = 0 ∧ s.clock % 40000 < 1280 then (s.die die).atPeriod s.clock temp else s.die die
  let w := d.windows s.clock
  runEvent s (decide (die < 4 ∧ bank < 32) && windowOpen s.clock bank w.1 w.2 && !(s.die die).openBanks.contains bank)
    (fun s => s.modDie die (fun _ => { d with openBanks := d.openBanks ++ [bank] }))

/-- WS_REFRESH_CLOSE (R96). -/
def execWsRefreshClose (die bank : Nat) (s : State) : Out State :=
  let w := (s.die die).windows s.clock
  runEvent s ((s.die die).openBanks.contains bank && !windowOpen s.clock bank w.1 w.2)
    (fun s => s.modDie die (fun d => { d with openBanks := d.openBanks.erase bank }))

/-! ## Hall scrubbing (R92) -/

/-- HALL_SCRUB_ERROR (R92): a soft error is corrected and counted; an uncorrectable one poisons the storage word. -/
def execHallScrubError (f : Nat) (e : HallError) (s : State) : Out State :=
  runEvent s ((Tab.find? f s.forms).isSome) (fun s =>
    if e.soft then s.note .scrub
    else (s.modForm f (fun x => { x with tags := SMap.set .empty (e.addr / 4) .poisoned x.tags })).note (.hallError f e.addr))

end Sys2Proof.Machine
end

