-- ==== Sys2Proof/Machine/HostIf.lean ====
section
/-! DEFINITION. The host's windows, the management registers, the causeway ports and the boot (R199, R215 to R221, R364). -/

namespace Sys2Proof.Machine

/-! ## Management registers (R199, R215, R218, R221) -/

/-- MODECTL_WRITE (R218): the change takes effect at the next epoch boundary. -/
def execModectlWrite (w : Word) (s : State) : Out State :=
  runEvent s true (fun s => { s with modectlNext := some (w &&& 0x7F) })

/-- A recording begins: the seeds are logged, and where the droop follower stands (R220, log 68). -/
def State.startRecording (s : State) : State :=
  { s with nvme := .follower { s.droop with lastTick := s.clock - s.droop.lastTick } ::
      (List.range 12).map (fun k => .seed k (s.stack k).nrseed) }

/-- The droop follower starts a replay where it stood as the recording began, so that the recorded samples move it at the
recorded epochs (R222). -/
def State.resetFollower (s : State) : State :=
  match s.nvme.head? with
  | some (.follower d) =>
    ({ s with droop := { d with lastTick := s.clock - d.lastTick, written := s.droop.written, writtenV := s.droop.writtenV } }).played
      (.follower d)
  | _ => s

/-- A replay begins: what was recorded is to be re-imposed, the follower's state and each stack's seed at once (R221). -/
def State.startReplay (s : State) : State :=
  (List.range 12).foldl (fun s k => match s.nextSeed k with
    | some (.seed i w) => (s.modStack k (fun x =>
        { x with nrseed := w, lfsr := if x.nrctl.getLsbD 5 then w else x.lfsr })).played (.seed i w)
    | _ => s) ({ s with play := s.nvme }).resetFollower

/-- RECCTL_WRITE (R220, R221): MODE 3, or a write while a node runs, is ignored and logged. -/
def execRecctlWrite (w : Word) (s : State) : Out State :=
  runEvent s true (fun s =>
    if w.toNat % 4 = 3 ∨ s.nodes.any (fun p => s.nodeState p.1 == 2) then s.note .recctl
    else
      let s1 := { s with recctl := w &&& 3, recFrom := s.epoch, play := [] }
      if w.toNat % 4 = 1 then s1.startRecording else if w.toNat % 4 = 2 then s1.startReplay else s1)

/-- Offsets of registers whose writes are events of their own: MODECTL, RECCTL, DRPCTL, SAMPV, NRCTL and NRSEED. -/
def ownEvent (off : Nat) : Bool :=
  off == 0 || off == 4 || off == 0x140 || off == 0x150 ||
  (decide (0x1000 ≤ off ∧ off < 0x1300) && decide (off % 0x40 < 8))

/-- A write of a management register with no behaviour of its own: the staged droop registers, SAMPF in host-assisted
mode, and any other offset, which keeps the word. -/
def State.mgmtWrite (s : State) (off : Nat) (w : Word) : State :=
  let d := s.droop
  if 0x100 ≤ off ∧ off < 0x140 then { s with droop := { d with staged := d.staged.set ((off - 0x100) / 4) (w &&& 0xFFFF007F) } }
  else if off = 0x144 then { s with droop := { d with staged0 := w } }
  else if off = 0x148 then { s with droop := { d with staged1 := w &&& 0xFFFFFF } }
  else if off = 0x14C then (if s.modectl.getLsbD 4 then { s with droop := { d with written := w } } else s)
  else { s with mgmt := SMap.set 0 (off / 4) w s.mgmt }

/-- MGMT_REGISTER_WRITE (R199, R215). -/
def execMgmtRegisterWrite (off : Nat) (w : Word) (s : State) : Out State :=
  runEvent s (decide (off < 2 ^ 24 ∧ off % 4 = 0) && !ownEvent off) (fun s => s.mgmtWrite off w)

/-! ## Mailboxes (R215, R364) -/

/-- The host reads an entry: reading a message's last word delivers it; an empty FIFO reads 0 and is logged. -/
def State.readEntry (s : State) (fn n : Nat) : State :=
  let key := mailKey fn n
  match Tab.getD [] key s.mailOut with
  | [] => { s with hostRead := 0 }.note (.mailbox fn n)
  | m :: r =>
    let w := m.words.headD 0
    match m.words.tail with
    | [] => { s with mailOut := Tab.put key r s.mailOut, hostRead := w }.delivered m
    | ws => { s with mailOut := Tab.put key ({ m with words := ws } :: r) s.mailOut, hostRead := w }

/-- The status of an outbound FIFO: its entries in bits 4:0, and bit 8 where the head is the low word of two (R364). -/
def State.mailStatus (s : State) (fn n : Nat) : Word :=
  let key := mailKey fn n
  let two := match Tab.getD [] key s.mailOut with | m :: _ => m.words.length == 2 | [] => false
  BitVec.ofNat 32 (s.mailUsed key + (if two then 256 else 0))

/-- MAILBOX_HOST_READ (R364): a 4-byte read at an offset of the mailbox window. What an offset that the rule does not name
reads is a free value (log 85). -/
def execMailboxHostRead (fn off : Nat) (s : State) : Out State :=
  runEvent s (decide (fn ≤ 16)) (fun s =>
    if off < 0x400 ∧ off % 64 = 0 then s.readEntry fn (off / 64)
    else if off < 0x400 ∧ off % 64 = 4 then { s with hostRead := s.mailStatus fn (off / 64) }
    else { s with hostRead := BitVec.ofNat 32 (Config.draw s.draws), draws := s.draws + 1 })

/-- Append a host message; one that does not fit its 16 entries is dropped and logged. -/
def State.hostWrite (s : State) (fn n : Nat) (ws : List Word) : State :=
  let key := mailKey fn n
  let q := Tab.getD [] key s.mailIn
  if (q.map List.length).sum + ws.length ≤ 16 then { s with mailIn := Tab.put key (q ++ [ws]) s.mailIn }
  else s.note (.mailbox fn n)

/-- The inbound mailbox that an offset names for a write: at 0x400 + 64n + `at_`. -/
def inboundOf (off at_ : Nat) : Option Nat :=
  if 0x400 ≤ off ∧ off < 0x800 ∧ off % 64 = at_ then some ((off - 0x400) / 64) else none

/-- MAILBOX_HOST_WRITE_WORD (R364): a write of `size` bytes; of another size or offset than the rule's it is dropped and
logged. -/
def execMailboxHostWriteWord (fn : Nat) (p : HostPlace) (w : Word) (s : State) : Out State :=
  runEvent s (decide (fn ≤ 16)) (fun s =>
    match (if p.size = 4 then inboundOf p.off 0 else none) with
    | some n => s.hostWrite fn n [w]
    | none => s.note (.mailbox fn (p.off % 0x400 / 64)))

/-- MAILBOX_HOST_WRITE_PAIR (R364): an 8-byte write. -/
def execMailboxHostWritePair (fn off : Nat) (lo hi : Word) (s : State) : Out State :=
  runEvent s (decide (fn ≤ 16)) (fun s =>
    match inboundOf off 8 with
    | some n => s.hostWrite fn n [lo, hi]
    | none => s.note (.mailbox fn (off % 0x400 / 64)))

/-! ## Causeway ports (R219) -/

/-- Whether a sequence number is at or before another, of 32 bits that wrap. -/
def seqLe (a b : Nat) : Bool := decide ((b + 2 ^ 32 - a) % 2 ^ 32 < 2 ^ 31)

/-- Whether a port whose flits all passed their CRC delivers one: it is beyond the last one delivered of its class. -/
def Port.inOrder (p : Port) (fl : Flit) : Bool :=
  let last := SMap.get 0 fl.cls p.seqs
  last == 0 || !seqLe fl.seq (last - 1)

/-- Deliver a flit. -/
def Port.deliver (p : Port) (fl : Flit) : Port :=
  { p with seqs := SMap.set 0 fl.cls (fl.seq + 1) p.seqs, rx := p.rx ++ [fl] }

/-- Advance the first SEQ that has not come, over those that have been delivered and those that are held, which it
delivers. -/
def Port.advance (p : Port) : Nat → Port
  | 0 => p
  | n + 1 =>
    if p.got.contains p.next then ({ p with got := p.got.erase p.next, next := (p.next + 1) % 2 ^ 32 }).advance n
    else match p.held.find? (fun x => x.seq == p.next) with
      | some fl => ({ (p.deliver fl) with held := p.held.erase fl, next := (p.next + 1) % 2 ^ 32 }).advance n
      | none => p

/-- A flit that passes its CRC: what it acknowledges is sent no more. It is delivered if it is in order in its class; once
one has failed its CRC, whose class and SEQ nobody knows, each waits for every SEQ before its own (log 36). -/
def Port.take (p : Port) (fl : Flit) : Port :=
  let q := { p with tx := p.tx.filter (fun x => !seqLe x.seq fl.ack) }
  if q.failed then
    if (fl.seq != q.next && seqLe fl.seq q.next) || q.got.contains fl.seq || q.held.any (fun x => x.seq == fl.seq) then q
    else ({ q with held := q.held ++ [fl] }).advance (q.got.length + q.held.length + 1)
  else if !q.inOrder fl then q
  else ({ (q.deliver fl) with got := q.got ++ [fl.seq] }).advance (q.got.length + 1)

/-- Whether a flit is well formed and for this device. -/
def flitMine (fl : Flit) : Bool := decide (1 ≤ fl.len ∧ fl.len ≤ 56 ∧ fl.cls < 4 ∧ fl.dest = Config.deviceId)

/-- A port after a flit comes in: of one that fails its CRC nothing is known but that it will come again (R219). -/
def Port.receive (p : Port) (fl : Flit) : Port :=
  if fl.crc = Config.crc64 (flitBytes fl) then p.take fl else { p with failed := true }

/-- The flits that a port delivers as one comes in. -/
def Port.delivers (p : Port) (fl : Flit) : List Flit := (p.receive fl).rx.drop p.rx.length

/-- FLIT_RECEIVE (R219, R305): a flit that passes its CRC is delivered in SEQ order within its class; classes pass each
other. A channel-barrier flit is one arrival of another device at the counter that its TAG names, which waits while a
clause of this device holds the counter (R306); what the other payloads mean comes as events of their own (log 36). -/
def execFlitReceive (port : Nat) (fl : Flit) (s : State) : Out State :=
  let p := s.port port
  let arrives := (p.delivers fl).filter (fun x => x.cls == 1)
  runEvent s (decide (port < 16) && p.up && (fl.crc != Config.crc64 (flitBytes fl) || flitMine fl) &&
      !arrives.any (fun x => s.threads.any (fun t => t.2.holdsCounter x.tag)))
    (fun s => arrives.foldl (fun s x => s.arriveAt x.tag) { s with ports := Tab.put port (p.receive fl) s.ports })

/-- The groups that have a collective outstanding. -/
def State.collGroups (s : State) : List Nat := (s.clusters.flatMap (fun p => p.2.colls.map (fun c => capGroup c.cap))).dedup

/-- PORT_RETRAIN_FAIL (R120, R219): the port is taken down and logged, and the collectives that use it fail. No address of
R99 lies on another device, so that no copy of this device uses a port (log 36). -/
def execPortRetrainFail (port : Nat) (s : State) : Out State :=
  runEvent s (decide (port < 16) && (s.port port).up) (fun s =>
    let s1 := { s with ports := Tab.put port { s.port port with up := false } s.ports }.note (.port port)
    (s1.collGroups.filter (fun g => s1.groupUses g port)).foldl State.collectiveError s1)

/-! ## Boot (R216, R217) -/

/-- Whole clusters, in at most 8 partitions that share none (R216). -/
def partitionsOk (ps : List (List Nat)) : Bool :=
  decide (ps.dedup.length ≤ 8) && ps.all (fun p => p.all (fun c => decide (c < 64)) && !p.isEmpty) &&
  ps.all (fun p => ps.all (fun q => p == q || p.all (fun c => !q.contains c)))

/-- The kernel that the boot image loads: from root port 0, or if that fails from root port 1 (R217). -/
def kernelOf : List (Option (List Byte)) → Option (Nat × List Byte)
  | some k :: _ => some (0, k)
  | none :: some k :: _ => some (1, k)
  | _ => none

/-- POWER_ON_BOOT (R211, R216, R217): core 0 of the control cluster checks the boot image's CRC-32 and loads the control
kernel, whose 8 cores then run; the kernel reinstalls the remaps of its log, programs VF and the default curve, binds the
functions to partitions and contexts, and opens the insertion windows. An image that fails its check, or a kernel that
neither root port gives, leaves them closed. -/
def execPowerOnBoot (b : BootSource) (roots : List (Nat × Nat)) (remaps : List (Nat × BitVec 64)) (s : State) : Out State :=
  match kernelOf b.kernels with
  | none => .next s
  | some (root, kernel) =>
    runEvent s (!s.booted && Config.crc32 b.image == b.crc && decide (kernel.length ≤ 2 ^ 23) &&
        partitionsOk (b.binding.map (fun x => x.2.1)) &&
        b.binding.all (fun x => decide (x.1 ≤ 16 ∧ x.2.2 < 65536)) &&
        roots.all (fun r => decide (r.2 % 8192 = 0)) && remaps.all (fun r => decide (r.1 < 12)))
      (fun s =>
        let s1 := { s with hbm := s.hbm.map (fun (p : Nat × Stack) => (p.1, { p.2 with remap := [], sram := [] })) }
        let s2 := remaps.foldl (fun (s : State) (r : Nat × BitVec 64) => s.remap r.1 r.2) s1
        let d := { s2.droop with drp := defaultCurve, staged := defaultCurve }
        { s2 with booted := true, droop := d,
                  ctl := { sram := SMap.setList Config.blankByte 0 kernel [], cores := List.replicate 8 true, rootPort := some root },
                  binding := b.binding.foldl (fun t (x : Nat × List Nat × Nat) => Tab.put x.1 (x.2.1, x.2.2) t) [],
                  roots := roots.foldl (fun t (r : Nat × Nat) => Tab.put r.1 r.2 t) [],
                  clusters := s2.clusters.map (fun (p : Nat × Cluster) => (p.1, { p.2 with vf := (List.range 25).map Config.fusedVF })) })

end Sys2Proof.Machine
end

