-- ==== Sys2Proof/Machine/Mem.lean ====
section
/-! DEFINITION. Memory instructions (R303, R320, R336 to R338, R388). Stores are buffered in their clause and performed
at its commit; loads read through the buffer (R51). -/

namespace Sys2Proof.Machine

/-- A loaded value into d, or into d and d + 1 for .d (R336): long-latency. -/
def Clause.putLoad (c : Clause) (k : LdW) (d : Reg) (v : Nat) : Clause :=
  match k with
  | .d => (c.putLat d (BitVec.ofNat 32 v)).putLat (regSucc d) (BitVec.ofNat 32 (v / 2 ^ 32))
  | k => c.putLat d (extend k v)

def Clause.putLoadS (c : Clause) (k : LdW) (d : Nat) (v : Nat) : Clause :=
  match k with
  | .d => (c.putLatS d (BitVec.ofNat 32 v)).putLatS (d + 1) (BitVec.ofNat 32 (v / 2 ^ 32))
  | k => c.putLatS d (extend k v)

/-- LD (R336). -/
def execLd (k : LdW) (d a : Reg) (off : BitVec 9) (s : State) : Out State :=
  runWord s (fun e => flat do
    let h ← e.hall .load (effAddr (e.reg a) off (ldWidth k)) (ldWidth k)
    pure (e.result (·.putLoad k d (e.loadVal h (ldWidth k)))))

/-- LD in SS: the address is the value of SA (R234). -/
def execLdScalar (k : LdW) (d : Fin 384) (a : SSrc) (s : State) : Out State :=
  runWord s (fun e => flat do
    let h ← e.hall .load (e.ssrc a) (ldWidth k)
    pure (e.result (·.putLoadS k d.val (e.loadVal h (ldWidth k)))))

/-- The value of a store: d, or d and d + 1 for .d (R388). -/
def pairVal (lo hi : Word) : Nat := lo.toNat + 2 ^ 32 * hi.toNat

/-- ST (R388). -/
def execSt (k : StW) (d a : Reg) (off : BitVec 9) (s : State) : Out State :=
  runWord s (fun e => flat do
    let h ← e.hall .store (effAddr (e.reg a) off (stWidth k)) (stWidth k)
    pure (e.result (·.store (e.storeW h (stWidth k) (pairVal (e.reg d) (e.reg (regSucc d)))))))

/-- ST in SS (R234). -/
def execStScalar (k : StW) (d : Fin 384) (a : SSrc) (s : State) : Out State :=
  runWord s (fun e => flat do
    let h ← e.hall .store (e.ssrc a) (stWidth k)
    pure (e.result (·.store (e.storeW h (stWidth k) (pairVal (e.sreg d.val) (e.sreg (d.val + 1)))))))

/-- Whether a storage word's tag is one that the bank serves an LDFE or an STFE at (R89, R90). -/
def Form.feReady (f : Form) (kind : WaitKind) (w : Nat) : Bool :=
  match kind with
  | .ldfe => decide (SMap.get Tag.empty w f.tags = .full)
  | _ => decide (SMap.get Tag.empty w f.tags = .empty)

/-- The wait for the full/empty word at storage address o: the thread joins the word's queue, and goes on once the
word has the tag that it waits for and is reserved for it, which an idle word is at once (R90, R337). -/
def Env.feServed (e : Env) (kind : WaitKind) (o : Nat) : Except WordOut State :=
  let q := e.fm.enqueue e.k kind [o / 4] e.cl.seq
  let f := q.serve (o / 4)
  if f.resv.contains (o / 4, e.k) && f.feReady kind (o / 4) then
    .ok (e.s.modForm e.th.form (fun _ => f.leave e.k kind))
  else .error (.wait .fullEmpty (e.s.modForm e.th.form (fun _ => q)))

/-- LDFE (R337): at commit the word becomes empty. -/
def execLdfe (d a : Reg) (off : BitVec 9) (s : State) : Out State :=
  runWord s (fun e => flat do
    e.notHeld
    let h ← liftChk (hallCheck e.fm .atomic (effAddr (e.reg a) off 4).toNat 4)
    let s' ← e.feServed .ldfe (h.sb + h.rel)
    pure (.done (e.upd s' (fun c =>
      (c.putLat d (BitVec.ofNat 32 (e.rawNat h 4))).store { addr := h.sb + h.rel, bytes := [], tag := .empty }))))

/-- STFE (R337): at commit the word is written and becomes full. -/
def execStfe (d a : Reg) (off : BitVec 9) (s : State) : Out State :=
  runWord s (fun e => flat do
    e.notHeld
    let h ← liftChk (hallCheck e.fm .atomic (effAddr (e.reg a) off 4).toNat 4)
    e.stored
    let s' ← e.feServed .stfe (h.sb + h.rel)
    pure (.done (e.upd s' (fun c =>
      c.store { addr := h.sb + h.rel, bytes := leBytes 4 (e.reg d).toNat, tag := .full }))))

/-- The checks of a weight-window read (R95, R338): extent, alignment, width, failed units. -/
def windowCheck (s : State) (f : Form) (a n : Nat) : Chk Unit := do
  chk (decide (a < windowExtent f)) 0x07 a
  chk (decide (a + n ≤ windowExtent f)) 0x07 (windowExtent f)
  chk (a % n == 0) 0x08 a
  chk (!expanded (Rec.wformat f.rcd) && Rec.wformat f.rcd == 0 || n == 4) 0x08 a
  let pa := fun o => weightPa (f.cluster / 16) (Rec.wbase f.rcd + o)
  let span := if expanded (Rec.wformat f.rcd) then
      elemReads (Rec.wformat f.rcd) (Rec.wgeom f.rcd) (windowBytes s f) (a / 4) else (List.range n).map (· + a)
  chk (!span.any (fun o => s.isBad (pa o))) 0x0F a

/-- The value of LDW at window offset a (R338). -/
def windowVal (s : State) (f : Form) (a n : Nat) : Nat :=
  if expanded (Rec.wformat f.rcd) then (elemLoad (Rec.wformat f.rcd) (Rec.wgeom f.rcd) (windowBytes s f) (a / 4)).toNat
  else leNat ((List.range n).map (fun i => windowBytes s f (a + i)))

/-- LDW (R338). -/
def execLdw (k : LdW) (d a : Reg) (off : BitVec 9) (s : State) : Out State :=
  runWord s (fun e => flat do
    let x := (effAddr (e.reg a) off (ldWidth k)).toNat
    liftChk (windowCheck e.s e.fm x (ldWidth k))
    pure (e.result (·.putLoad k d (windowVal e.s e.fm x (ldWidth k)))))

/-- ATOM's new value (R303). -/
def atomVal (op : AtomOp) (old b : Word) : Word :=
  match op with
  | .addI => old + b
  | .minI => minVal .i old b
  | .maxI => maxVal .i old b
  | .minN => minVal .n old b
  | .maxN => maxVal .n old b
  | .and => old &&& b
  | .or => old ||| b
  | .xor => old ^^^ b
  | .exch => b
  | .fadd => rnAdd old b

/-- A read-modify-write of the hall word at a (R297): `f old` is the new value. -/
def readModify (d a : Reg) (f : Env → Word → Word) (s : State) : Out State :=
  runWord s (fun e => flat do
    e.notHeld
    let h ← liftChk (hallCheck e.fm .atomic (e.reg a).toNat 4)
    let s' ← e.reserve [(h.sb + h.rel) / 4]
    let old := BitVec.ofNat 32 (e.rawNat h 4)
    pure (.done (e.upd s' (fun c =>
      (c.putLat d old).store { addr := h.sb + h.rel, bytes := leBytes 4 (f e old).toNat, tag := .full }))))

/-- ATOM (R303). -/
def execAtom (op : AtomOp) (d a : Reg) (b : Src) (s : State) : Out State :=
  readModify d a (fun e old => atomVal op old (e.src b)) s

/-- CAS (R320): the word is b where it equals d; its tag becomes full either way. -/
def execCas (d a : Reg) (b : Src) (s : State) : Out State :=
  readModify d a (fun e old => if old = e.reg d then e.src b else old) s

end Sys2Proof.Machine
end

