-- ==== Sys2Proof/Machine/Dispatch.lean ====
section
/-! DEFINITION. One arm per instruction: a direct call of its meaning. -/

namespace Sys2Proof.Machine

/-- The meaning of every instruction and event. -/
def exec (i : Instr) (s : State) : Host.Outcome State Fault Refusal :=
  match i with
  | .abs m d b => Sys2Proof.Machine.execAbs m d b s
  | .add m d a b => Sys2Proof.Machine.execAdd m d a b s
  | .addScalar m d a => Sys2Proof.Machine.execAddScalar m d a s
  | .and d a b => Sys2Proof.Machine.execAnd d a b s
  | .andScalar d a => Sys2Proof.Machine.execAndScalar d a s
  | .bfi d a b => Sys2Proof.Machine.execBfi d a b s
  | .bfiScalar d a => Sys2Proof.Machine.execBfiScalar d a s
  | .bfx m d a b => Sys2Proof.Machine.execBfx m d a b s
  | .bfxScalar m d a => Sys2Proof.Machine.execBfxScalar m d a s
  | .clz d b => Sys2Proof.Machine.execClz d b s
  | .clzScalar d a => Sys2Proof.Machine.execClzScalar d a s
  | .cmp r d a b => Sys2Proof.Machine.execCmp r d a b s
  | .cmpScalar r d a => Sys2Proof.Machine.execCmpScalar r d a s
  | .lea n d a b => Sys2Proof.Machine.execLea n d a b s
  | .leaScalar n d a => Sys2Proof.Machine.execLeaScalar n d a s
  | .mad d a b => Sys2Proof.Machine.execMad d a b s
  | .max m d a b => Sys2Proof.Machine.execMax m d a b s
  | .maxScalar m d a => Sys2Proof.Machine.execMaxScalar m d a s
  | .min m d a b => Sys2Proof.Machine.execMin m d a b s
  | .minScalar m d a => Sys2Proof.Machine.execMinScalar m d a s
  | .mov d b => Sys2Proof.Machine.execMov d b s
  | .movScalar d a => Sys2Proof.Machine.execMovScalar d a s
  | .mul d a b => Sys2Proof.Machine.execMul d a b s
  | .mulScalar d a => Sys2Proof.Machine.execMulScalar d a s
  | .mulh m d a b => Sys2Proof.Machine.execMulh m d a b s
  | .mulhScalar m d a => Sys2Proof.Machine.execMulhScalar m d a s
  | .neg m d b => Sys2Proof.Machine.execNeg m d b s
  | .or d a b => Sys2Proof.Machine.execOr d a b s
  | .orScalar d a => Sys2Proof.Machine.execOrScalar d a s
  | .popc d b => Sys2Proof.Machine.execPopc d b s
  | .popcScalar d a => Sys2Proof.Machine.execPopcScalar d a s
  | .rot d a n => Sys2Proof.Machine.execRot d a n s
  | .rotScalar d a => Sys2Proof.Machine.execRotScalar d a s
  | .sel d a b => Sys2Proof.Machine.execSel d a b s
  | .selScalar d a => Sys2Proof.Machine.execSelScalar d a s
  | .shl d a n => Sys2Proof.Machine.execShl d a n s
  | .shlScalar d a => Sys2Proof.Machine.execShlScalar d a s
  | .shr m d a n => Sys2Proof.Machine.execShr m d a n s
  | .shrScalar m d a => Sys2Proof.Machine.execShrScalar m d a s
  | .shrr d a n => Sys2Proof.Machine.execShrr d a n s
  | .sub m d a b => Sys2Proof.Machine.execSub m d a b s
  | .subScalar m d a => Sys2Proof.Machine.execSubScalar m d a s
  | .xor d a b => Sys2Proof.Machine.execXor d a b s
  | .xorScalar d a => Sys2Proof.Machine.execXorScalar d a s
  | .pack x d a b => Sys2Proof.Machine.execPack x d a b s
  | .padd m d a b => Sys2Proof.Machine.execPadd m d a b s
  | .pdot2 x d a b => Sys2Proof.Machine.execPdot2 x d a b s
  | .psub m d a b => Sys2Proof.Machine.execPsub m d a b s
  | .fadd m d a b => Sys2Proof.Machine.execFadd m d a b s
  | .fsub m d a b => Sys2Proof.Machine.execFsub m d a b s
  | .fmul m d a b => Sys2Proof.Machine.execFmul m d a b s
  | .ffma m d a b => Sys2Proof.Machine.execFfma m d a b s
  | .fcmp r d a b => Sys2Proof.Machine.execFcmp r d a b s
  | .fcvt c d a b => Sys2Proof.Machine.execFcvt c d a b s
  | .fmax d a b => Sys2Proof.Machine.execFmax d a b s
  | .fmin d a b => Sys2Proof.Machine.execFmin d a b s
  | .frnd m d b => Sys2Proof.Machine.execFrnd m d b s
  | .bfma x d a b => Sys2Proof.Machine.execBfma x d a b s
  | .cospi d b => Sys2Proof.Machine.execCospi d b s
  | .ex2 d b => Sys2Proof.Machine.execEx2 d b s
  | .lg2 d b => Sys2Proof.Machine.execLg2 d b s
  | .rcp d b => Sys2Proof.Machine.execRcp d b s
  | .rsq d b => Sys2Proof.Machine.execRsq d b s
  | .sinpi d b => Sys2Proof.Machine.execSinpi d b s
  | .sqrt d b => Sys2Proof.Machine.execSqrt d b s
  | .tanh d b => Sys2Proof.Machine.execTanh d b s
  | .act n d b => Sys2Proof.Machine.execAct n d b s
  | .actld n a => Sys2Proof.Machine.execActld n a s
  | .ld wd d a off => Sys2Proof.Machine.execLd wd d a off s
  | .ldScalar wd d a => Sys2Proof.Machine.execLdScalar wd d a s
  | .st wd d a off => Sys2Proof.Machine.execSt wd d a off s
  | .stScalar wd d a => Sys2Proof.Machine.execStScalar wd d a s
  | .ldfe d a off => Sys2Proof.Machine.execLdfe d a off s
  | .stfe d a off => Sys2Proof.Machine.execStfe d a off s
  | .ldw wd d a off => Sys2Proof.Machine.execLdw wd d a off s
  | .atom op d a b => Sys2Proof.Machine.execAtom op d a b s
  | .cas d a b => Sys2Proof.Machine.execCas d a b s
  | .bcast d a b m fill => Sys2Proof.Machine.execBcast d a b m fill s
  | .xmatch d a m => Sys2Proof.Machine.execXmatch d a m s
  | .rank d a m => Sys2Proof.Machine.execRank d a m s
  | .redx op d a m => Sys2Proof.Machine.execRedx op d a m s
  | .shfl d a b m fill => Sys2Proof.Machine.execShfl d a b m fill s
  | .slide op d a b m fill => Sys2Proof.Machine.execSlide op d a b m fill s
  | .vote op d a m => Sys2Proof.Machine.execVote op d a m s
  | .xshfl d a b m fill => Sys2Proof.Machine.execXshfl d a b m fill s
  | .bra off => Sys2Proof.Machine.execBra off s
  | .brz a off => Sys2Proof.Machine.execBrz a off s
  | .brnz a off => Sys2Proof.Machine.execBrnz a off s
  | .brx b => Sys2Proof.Machine.execBrx b s
  | .call gl off => Sys2Proof.Machine.execCall gl off s
  | .ret b => Sys2Proof.Machine.execRet b s
  | .join => Sys2Proof.Machine.execJoin s
  | .exit => Sys2Proof.Machine.execExit s
  | .trap b => Sys2Proof.Machine.execTrap b s
  | .rett nxt => Sys2Proof.Machine.execRett nxt s
  | .yield => Sys2Proof.Machine.execYield s
  | .sleep b => Sys2Proof.Machine.execSleep b s
  | .grow d n => Sys2Proof.Machine.execGrow d n s
  | .shrink n => Sys2Proof.Machine.execShrink n s
  | .place g p => Sys2Proof.Machine.execPlace g p s
  | .rdsr d r => Sys2Proof.Machine.execRdsr d r s
  | .wrsr r b => Sys2Proof.Machine.execWrsr r b s
  | .send wide a b => Sys2Proof.Machine.execSend wide a b s
  | .recv wide d a => Sys2Proof.Machine.execRecv wide d a s
  | .launch d a b => Sys2Proof.Machine.execLaunch d a b s
  | .cwait n a b => Sys2Proof.Machine.execCwait n a b s
  | .ctest n d a b => Sys2Proof.Machine.execCtest n d a b s
  | .fence o sc => Sys2Proof.Machine.execFence o sc s
  | .bind a b guard kind idx => Sys2Proof.Machine.execBind a b guard kind idx s
  | .barinit a b => Sys2Proof.Machine.execBarinit a b s
  | .bararr ch d a => Sys2Proof.Machine.execBararr ch d a s
  | .barwait ch a b => Sys2Proof.Machine.execBarwait ch a b s
  | .barfree a => Sys2Proof.Machine.execBarfree a s
  | .ringinit a b => Sys2Proof.Machine.execRinginit a b s
  | .ringacq d a => Sys2Proof.Machine.execRingacq d a s
  | .ringpub a b => Sys2Proof.Machine.execRingpub a b s
  | .ringtake d a => Sys2Proof.Machine.execRingtake d a s
  | .ringdone a b => Sys2Proof.Machine.execRingdone a b s
  | .savep p a => Sys2Proof.Machine.execSavep p a s
  | .loadp p a => Sys2Proof.Machine.execLoadp p a s
  | .nop => Sys2Proof.Machine.execNop s
  | .cpy ch a r => Sys2Proof.Machine.execCpy ch a r s
  | .cpyg wide ch a b => Sys2Proof.Machine.execCpyg wide ch a b s
  | .cpys wide ch a b => Sys2Proof.Machine.execCpys wide ch a b s
  | .qfence ch m => Sys2Proof.Machine.execQfence ch m s
  | .cred ch a r bit => Sys2Proof.Machine.execCred ch a r bit s
  | .cgath ch a r bit => Sys2Proof.Machine.execCgath ch a r bit s
  | .mma z ws x acc roll a b => Sys2Proof.Machine.execMma z ws x acc roll a b s
  | .mmconv z ws x acc roll a b r kb => Sys2Proof.Machine.execMmconv z ws x acc roll a b r kb s
  | .mzero acc roll => Sys2Proof.Machine.execMzero acc roll s
  | .mload acc roll a => Sys2Proof.Machine.execMload acc roll a s
  | .mstore acc roll a b => Sys2Proof.Machine.execMstore acc roll a b s
  | .msave a => Sys2Proof.Machine.execMsave a s
  | .mrestore a => Sys2Proof.Machine.execMrestore a s
  | .spk a b => Sys2Proof.Machine.execSpk a b s
  | .sghash n d a b => Sys2Proof.Machine.execSghash n d a b s
  | .sgbkt m d roll a b sS sL off => Sys2Proof.Machine.execSgbkt m d roll a b sS sL off s
  | .sgsum mean roll a sS gm => Sys2Proof.Machine.execSgsum mean roll a sS gm s
  | .rolldecl roll a sK => Sys2Proof.Machine.execRolldecl roll a sK s
  | .sleepExpire t => Sys2Proof.Machine.execSleepExpire t s
  | .clauseDispatch t => Sys2Proof.Machine.execClauseDispatch t s
  | .clauseCommit t => Sys2Proof.Machine.execClauseCommit t s
  | .longLatencyResult t k => Sys2Proof.Machine.execLongLatencyResult t k s
  | .asyncTrapTaken t => Sys2Proof.Machine.execAsyncTrapTaken t s
  | .watchdogExpire f => Sys2Proof.Machine.execWatchdogExpire f s
  | .growDeadlock core => Sys2Proof.Machine.execGrowDeadlock core s
  | .parkTimeout t => Sys2Proof.Machine.execParkTimeout t s
  | .forcedSave r => Sys2Proof.Machine.execForcedSave r s
  | .formYielded f => Sys2Proof.Machine.execFormYielded f s
  | .doorbell fn slot va img => Sys2Proof.Machine.execDoorbell fn slot va img s
  | .nodeComplete n => Sys2Proof.Machine.execNodeComplete n s
  | .formAdmit f seats => Sys2Proof.Machine.execFormAdmit f seats s
  | .stagingComplete f => Sys2Proof.Machine.execStagingComplete f s
  | .formRetire f => Sys2Proof.Machine.execFormRetire f s
  | .writeBackComplete f => Sys2Proof.Machine.execWriteBackComplete f s
  | .copyNodeStart n => Sys2Proof.Machine.execCopyNodeStart n s
  | .weightLoadStart n => Sys2Proof.Machine.execWeightLoadStart n s
  | .collectiveNodeStart n => Sys2Proof.Machine.execCollectiveNodeStart n s
  | .hostEventPost n => Sys2Proof.Machine.execHostEventPost n s
  | .copyOpStart cl q => Sys2Proof.Machine.execCopyOpStart cl q s
  | .chunkBitSet cl q chunk => Sys2Proof.Machine.execChunkBitSet cl q chunk s
  | .fineGrainDone cl q => Sys2Proof.Machine.execFineGrainDone cl q s
  | .collectivePerformed cl k arrivals => Sys2Proof.Machine.execCollectivePerformed cl k arrivals s
  | .rollRoundIssue f fc roll => Sys2Proof.Machine.execRollRoundIssue f fc roll s
  | .matrixOpComplete f fc op => Sys2Proof.Machine.execMatrixOpComplete f fc op s
  | .slewGrant cl core => Sys2Proof.Machine.execSlewGrant cl core s
  | .rampStepBoundary cl => Sys2Proof.Machine.execRampStepBoundary cl s
  | .fillerEnd cl core => Sys2Proof.Machine.execFillerEnd cl core s
  | .actldComplete core => Sys2Proof.Machine.execActldComplete core s
  | .channelBarrierRelease id cl => Sys2Proof.Machine.execChannelBarrierRelease id cl s
  | .counterCreate id target devices => Sys2Proof.Machine.execCounterCreate id target devices s
  | .tlbMissWalk cl ctx va => Sys2Proof.Machine.execTlbMissWalk cl ctx va s
  | .tlbWalkComplete cl k => Sys2Proof.Machine.execTlbWalkComplete cl k s
  | .installTranslation cl ctx va pte => Sys2Proof.Machine.execInstallTranslation cl ctx va pte s
  | .tlbInvalidate ctx lo hi => Sys2Proof.Machine.execTlbInvalidate ctx lo hi s
  | .kernelResumeThread t nxt => Sys2Proof.Machine.execKernelResumeThread t nxt s
  | .kernelEndLaunch n err => Sys2Proof.Machine.execKernelEndLaunch n err s
  | .comparatorProgram core idx en ctx va => Sys2Proof.Machine.execComparatorProgram core idx en ctx va s
  | .stepModeSet t on => Sys2Proof.Machine.execStepModeSet t on s
  | .hbmReply stack pch r => Sys2Proof.Machine.execHbmReply stack pch r s
  | .hbmUncorrectable stack atom e => Sys2Proof.Machine.execHbmUncorrectable stack atom e s
  | .hbmFreqChange stack st => Sys2Proof.Machine.execHbmFreqChange stack st s
  | .hbmRetrainGroupDone stack => Sys2Proof.Machine.execHbmRetrainGroupDone stack s
  | .hbmTempChange stack temp => Sys2Proof.Machine.execHbmTempChange stack temp s
  | .remapInstall stack e => Sys2Proof.Machine.execRemapInstall stack e s
  | .remapRemove stack slot => Sys2Proof.Machine.execRemapRemove stack slot s
  | .nrctlWrite stack w => Sys2Proof.Machine.execNrctlWrite stack w s
  | .nrseedWrite stack w => Sys2Proof.Machine.execNrseedWrite stack w s
  | .wsRefreshOpen die bank temp => Sys2Proof.Machine.execWsRefreshOpen die bank temp s
  | .wsRefreshClose die bank => Sys2Proof.Machine.execWsRefreshClose die bank s
  | .hallScrubError f e => Sys2Proof.Machine.execHallScrubError f e s
  | .sequencerStepDone cl => Sys2Proof.Machine.execSequencerStepDone cl s
  | .packagePowerSample watts => Sys2Proof.Machine.execPackagePowerSample watts s
  | .thermalSample cl temp => Sys2Proof.Machine.execThermalSample cl temp s
  | .thermalDemandStep cl => Sys2Proof.Machine.execThermalDemandStep cl s
  | .migrationEval cl c seats => Sys2Proof.Machine.execMigrationEval cl c seats s
  | .formMigrate f => Sys2Proof.Machine.execFormMigrate f s
  | .epochBoundary => Sys2Proof.Machine.execEpochBoundary s
  | .throttleReportReceive group member epoch pos level => Sys2Proof.Machine.execThrottleReportReceive group member epoch pos level s
  | .telemetrySample freq vbus => Sys2Proof.Machine.execTelemetrySample freq vbus s
  | .sampleGap => Sys2Proof.Machine.execSampleGap s
  | .sampvWrite w => Sys2Proof.Machine.execSampvWrite w s
  | .drpCommit w => Sys2Proof.Machine.execDrpCommit w s
  | .rampWrite cl w => Sys2Proof.Machine.execRampWrite cl w s
  | .modectlWrite w => Sys2Proof.Machine.execModectlWrite w s
  | .recctlWrite w => Sys2Proof.Machine.execRecctlWrite w s
  | .mgmtRegisterWrite off w => Sys2Proof.Machine.execMgmtRegisterWrite off w s
  | .mailboxHostRead fn off => Sys2Proof.Machine.execMailboxHostRead fn off s
  | .mailboxHostWriteWord fn p w => Sys2Proof.Machine.execMailboxHostWriteWord fn p w s
  | .mailboxHostWritePair fn off lo hi => Sys2Proof.Machine.execMailboxHostWritePair fn off lo hi s
  | .flitReceive port fl => Sys2Proof.Machine.execFlitReceive port fl s
  | .portRetrainFail port => Sys2Proof.Machine.execPortRetrainFail port s
  | .powerOnBoot b roots remaps => Sys2Proof.Machine.execPowerOnBoot b roots remaps s
  | .effectivePriorityAging f => Sys2Proof.Machine.execEffectivePriorityAging f s
  | .configuredMaximumWrite cl l => Sys2Proof.Machine.execConfiguredMaximumWrite cl l s
  | .vfTableWrite cl phi code => Sys2Proof.Machine.execVfTableWrite cl phi code s
  | .pageRefetchComplete unit => Sys2Proof.Machine.execPageRefetchComplete unit s

end Sys2Proof.Machine
end

