-- ==== Sys2Proof/Machine/Pick.lean ====
section
/-! DEFINITION. What a step does: one act of a thread or one event, by the agenda or by the model's own order, and the
passage of time (R22, R23, R30, R31, R167, R398; log 1, log 7). -/

namespace Sys2Proof.Machine

/-- The events of the opcode table, as against the instructions of threads. -/
def isEvent : Instr → Bool
  | .sleepExpire _ => true
  | .clauseDispatch _ => true
  | .clauseCommit _ => true
  | .longLatencyResult _ _ => true
  | .asyncTrapTaken _ => true
  | .watchdogExpire _ => true
  | .growDeadlock _ => true
  | .parkTimeout _ => true
  | .forcedSave _ => true
  | .formYielded _ => true
  | .doorbell _ _ _ _ => true
  | .nodeComplete _ => true
  | .formAdmit _ _ => true
  | .stagingComplete _ => true
  | .formRetire _ => true
  | .writeBackComplete _ => true
  | .copyNodeStart _ => true
  | .weightLoadStart _ => true
  | .collectiveNodeStart _ => true
  | .hostEventPost _ => true
  | .copyOpStart _ _ => true
  | .chunkBitSet _ _ _ => true
  | .fineGrainDone _ _ => true
  | .collectivePerformed _ _ _ => true
  | .rollRoundIssue _ _ _ => true
  | .matrixOpComplete _ _ _ => true
  | .slewGrant _ _ => true
  | .rampStepBoundary _ => true
  | .fillerEnd _ _ => true
  | .actldComplete _ => true
  | .channelBarrierRelease _ _ => true
  | .counterCreate _ _ _ => true
  | .tlbMissWalk _ _ _ => true
  | .tlbWalkComplete _ _ => true
  | .installTranslation _ _ _ _ => true
  | .tlbInvalidate _ _ _ => true
  | .kernelResumeThread _ _ => true
  | .kernelEndLaunch _ _ => true
  | .comparatorProgram _ _ _ _ _ => true
  | .stepModeSet _ _ => true
  | .hbmReply _ _ _ => true
  | .hbmUncorrectable _ _ _ => true
  | .hbmFreqChange _ _ => true
  | .hbmRetrainGroupDone _ => true
  | .hbmTempChange _ _ => true
  | .remapInstall _ _ => true
  | .remapRemove _ _ => true
  | .nrctlWrite _ _ => true
  | .nrseedWrite _ _ => true
  | .wsRefreshOpen _ _ _ => true
  | .wsRefreshClose _ _ => true
  | .hallScrubError _ _ => true
  | .sequencerStepDone _ => true
  | .packagePowerSample _ => true
  | .thermalSample _ _ => true
  | .thermalDemandStep _ => true
  | .migrationEval _ _ _ => true
  | .formMigrate _ => true
  | .epochBoundary => true
  | .throttleReportReceive _ _ _ _ _ => true
  | .telemetrySample _ _ => true
  | .sampleGap => true
  | .sampvWrite _ => true
  | .drpCommit _ => true
  | .rampWrite _ _ => true
  | .modectlWrite _ => true
  | .recctlWrite _ => true
  | .mgmtRegisterWrite _ _ => true
  | .mailboxHostRead _ _ => true
  | .mailboxHostWriteWord _ _ _ => true
  | .mailboxHostWritePair _ _ _ _ => true
  | .flitReceive _ _ => true
  | .portRetrainFail _ => true
  | .powerOnBoot _ _ _ => true
  | .effectivePriorityAging _ => true
  | .configuredMaximumWrite _ _ => true
  | .vfTableWrite _ _ _ => true
  | .pageRefetchComplete _ => true
  | _ => false

/-! ## One act of a thread -/

/-- Execute the word that the current thread executes next; a thread with none does nothing. -/
def State.execNext (s : State) : Out State :=
  match openWord s with
  | some e => (match e.cl.todo with | (_, i) :: _ => exec i s | [] => .next s)
  | none => .next s

/-- Whether the words of a thread's clauses execute: it is live, in a form that runs. -/
def State.runs (s : State) (th : Thread) : Bool :=
  decide (th.status = .live) &&
  (match Tab.find? th.form s.forms with | some f => decide (f.phase = .running ∨ f.phase = .yielding) | none => false)

/-- Thread t executes the next word of its clause at position i, if that word may execute now. -/
def State.runAt (s : State) (t i : Nat) : Out State :=
  match Tab.find? t s.threads with
  | some th => if s.runs th && th.canRun i then ({ s with cur := t, curAt := some i }).execNext else .next s
  | none => .next s

/-- The clauses that thread t has outstanding. -/
def State.outstanding (s : State) (t : Nat) : Nat :=
  match Tab.find? t s.threads with | some th => th.clauses.length | none => 0

/-- Thread t issues: its next clause is dispatched, and the clause's first word executes if it may. -/
def State.issueThread (s : State) (t : Nat) : Out State :=
  let d := s.dispatch t
  if d.outstanding t = s.outstanding t + 1 then d.runAt t (s.outstanding t) else .next d

/-- One act of thread t: an asynchronous trap that is due, the commit of its first clause, the next word of the first
clause that can go on, or the issue of its next clause (log 1). -/
def State.actThread (s : State) (t : Nat) : Out State :=
  if (s.asyncTrap t).isSome then execAsyncTrapTaken t s
  else if s.canCommit t then execClauseCommit t s
  else match Tab.find? t s.threads with
    | none => .next s
    | some th => match (List.range th.clauses.length).find? th.canRun with
      | some i => s.runAt t i
      | none => s.issueThread t

/-! ## Issue (R22 to R24) -/

/-- The wait in which an attempt to dispatch the thread's next clause ends: `none` where the clause can dispatch or fails a
check; `some .none` where the thread may not dispatch. -/
def State.blocked (s : State) (p : Nat × Thread) : Option Wait :=
  match Tab.find? p.2.form s.forms with
  | some f => if p.2.mayDispatch f s.clock then (match s.tryDispatch f p.2 with | .wait w _ => some w | _ => none) else some .none
  | none => some .none

/-- Whether a thread is eligible (R22, R24): it may dispatch, and the attempt to dispatch its next clause does not end in a
wait. A clause that cannot be fetched yet leaves its thread ineligible (log 91). The threads of a yielding form run its
handler (R177), so that they are eligible until their YIELD commits (log 86). -/
def State.eligible (s : State) (p : Nat × Thread) : Bool := (s.blocked p).isNone

/-- Whether a thread is in a wait whose last column in R27 is "No". -/
def State.waitsOutside (s : State) (p : Nat × Thread) : Bool :=
  p.2.clauses.any (·.wait.outside) || decide (s.blocked p = some .token ∨ s.blocked p = some .dispatch)

/-- Whether thread a is older than b: by age, then the lower slot row, then the lower lane (R22). -/
def olderThread (a b : Nat × Thread) : Bool :=
  decide (b.2.age < a.2.age ∨ (b.2.age = a.2.age ∧ (a.2.row < b.2.row ∨ (a.2.row = b.2.row ∧
    (a.2.lane < b.2.lane ∨ (a.2.lane = b.2.lane ∧ a.1 < b.1))))))

/-- The oldest of some threads. -/
def oldestOf : List (Nat × Thread) → Option (Nat × Thread)
  | [] => none
  | x :: r => some (r.foldl (fun m p => if olderThread p m then p else m) x)

/-- The threads of a core that a cycle's issue stage chooses among the eligible ones `es`, in `n` more rounds: in each, the
oldest of a lane not yet chosen leads, and every lane not yet chosen gives its oldest thread at the lead's address. -/
def issueRounds (es : List (Nat × Thread)) : Nat → List (Nat × Thread) → List (Nat × Thread)
  | 0, chosen => chosen
  | n + 1, chosen =>
    let free := es.filter (fun p => !chosen.any (fun q => q.2.lane == p.2.lane))
    match oldestOf free with
    | none => chosen
    | some lead =>
      issueRounds es n (chosen ++ (List.range 64).filterMap (fun l =>
        oldestOf (free.filter (fun p => p.2.lane == l && p.2.pc == lead.2.pc))))

/-- The threads that a core issues in a cycle: at most one a lane and four addresses, the lanes of an address in ascending
order, so in ascending bench-lane (R23, R36). -/
def issueStage (es : List (Nat × Thread)) : List Nat := (issueRounds es 4 []).map (·.1)

/-- The threads that the device's cores issue in a cycle. -/
def State.issues (s : State) : List Nat :=
  let es := s.threads.filter s.eligible
  ((es.map (·.2.core)).dedup).flatMap (fun c => issueStage (es.filter (fun p => p.2.core == c)))

/-! ## Time (log 7) -/

/-- Whether a form's watchdog counts: no live thread is eligible or in a wait whose last column in R27 is "No", and none is
stopped by a trap of the kernel (R31). -/
def State.watchCounts (s : State) (f : Nat) : Bool :=
  (s.threadsOf f).all (fun p => decide (p.2.status ≠ .kernel) &&
    (decide (p.2.status ≠ .live) || (!s.eligible p && !s.waitsOutside p)))

/-- A form's watchdog after one tick; it is frozen while the form is shed, yields or moves (R31, R194, R201). -/
def State.watchTick (s : State) (f : Nat) (fm : Form) : Form :=
  if fm.phase ≠ .running ∨ fm.shed ∨ fm.move.isSome then fm
  else { fm with watchdog := if s.watchCounts f then fm.watchdog + 16 + (s.cluster fm.cluster).phi else 0 }

/-- A thread's age after one tick: it grows while the thread is eligible and does not issue (R22); an issue sets it to 0
(`State.issueClause`). -/
def State.grown (s : State) (p : Nat × Thread) : Thread :=
  { p.2 with age := if s.eligible p then p.2.age + 16 + (s.cluster (p.2.core / 8)).phi else 0 }

/-- The streams that have nothing more to do end (R191). -/
def State.endStreams (s : State) : State :=
  (s.clusters.flatMap (fun p => p.2.run.map (fun r => 8 * p.1 + r.1))).foldl State.endStream s

/-- One reference tick: 1.25 ns, in which a cluster at step φ runs (16 + φ)/32 of a cycle (R187). -/
def State.tick (s : State) : State :=
  State.endStreams { s with
    clock := s.clock + 1,
    threads := s.threads.map (fun (p : Nat × Thread) => (p.1, s.grown p)),
    clusters := s.clusters.map (fun (p : Nat × Cluster) =>
      (p.1, { p.2 with cyc := p.2.cyc + 16 + p.2.phi, waitedBefore := !p.2.requests.isEmpty })),
    forms := s.forms.map (fun (p : Nat × Form) => (p.1, s.watchTick p.1 p.2)),
    cores := s.cores.map (fun (p : Nat × Core) =>
      (p.1, { p.2 with growIdle := if s.growStuck p.1 then p.2.growIdle + 16 + (s.cluster (p.1 / 8)).phi else 0 })) }

/-! ## Placement by the model's own scheduler (R16; log 11) -/

/-- Cores for form cores in order. -/
def assignment (fits : Nat → Nat → Bool) : List Nat → List Nat → Option (List Nat)
  | [], _ => some []
  | i :: r, free => free.findSome? (fun c => if fits i c then (assignment fits r (free.erase c)).map (c :: ·) else none)

/-- Seats on a core for benches with these lane words, given each lane group's first lane, free rows and free words. -/
def packSeats (core : Nat) : List (List Nat) → List (Nat × List Nat × List Nat) → Option (List Seat)
  | [], _ => some []
  | b :: r, gs => (List.range gs.length).findSome? (fun i =>
      match gs[i]? with
      | some (lane, row :: rows, ws) =>
        if (b.zip ws).all (fun x => decide (x.1 ≤ x.2)) then
          (packSeats core r (gs.set i (lane, rows, (ws.zip b).map (fun x => x.1 - x.2)))).map
            ({ core := core, row := row, lane := lane } :: ·)
        else none
      | _ => none)

/-- Seats for the benches of form core i on a core. -/
def State.seatsOn (s : State) (hs : List Hold) (n : Need) (i core : Nat) : List Seat :=
  let w := Rec.width n.rcd
  (packSeats core ((benchesAt n.rcd i).map (s.benchWords n)) ((List.range (64 / w)).map (fun g =>
    (g * w, (List.range 16).filter (fun r => (List.range w).all (fun l => !slotTaken hs core r (g * w + l))),
     (s.groupRoom hs n core (g * w)).2)))).getD []

/-- A placement on a cluster that fits: the benches in order, then the form cores without a bench. -/
def State.seatsFor (s : State) (n : Need) (cl : Nat) : List Seat :=
  let hs := s.holds n.who n.ex
  match assignment (s.coreFits hs n) (List.range (Rec.cores n.rcd)) ((List.range 8).map (· + 8 * cl)) with
  | none => []
  | some cs => cs.zipIdx.flatMap (fun (x : Nat × Nat) => s.seatsOn hs n x.2 x.1) ++
      (cs.drop (Rec.benches n.rcd)).map (fun c => { core := c, row := 0, lane := 0 })

/-! ## The events that the machine may take by itself -/

/-- The events of translation, engines and cores of a cluster. -/
def State.clusterEvents (s : State) (p : Nat × Cluster) : List Instr :=
  let cl := p.1
  let c := p.2
  (match c.misses with | w :: _ => [.tlbMissWalk cl w.ctx (BitVec.ofNat 56 (w.page * 65536))] | [] => []) ++
  (if c.walks.isEmpty then [] else [.tlbWalkComplete cl 0]) ++
  c.queues.flatMap (fun q => match q.2 with
    | o :: _ =>
      if !o.started then [.copyOpStart cl q.1]
      else (match o.kind with
        | .bulk _ _ (k :: _) _ => [.chunkBitSet cl q.1 k]
        | _ => [.fineGrainDone cl q.1])
    | [] => []) ++
  (match c.colls.findIdx? (fun x => s.groupDown (capGroup x.cap)) with | some k => [.collectivePerformed cl k []] | none => []) ++
  (match c.requests with | (_, _, k) :: _ => [.slewGrant cl k] | [] => []) ++
  (if c.boundary + 128 ≤ c.cyc then [.rampStepBoundary cl] else []) ++
  c.run.flatMap (fun r => match r.2 with | .filler _ => [.fillerEnd cl r.1] | _ => []) ++
  (if c.stepping.isSome then [.sequencerStepDone cl] else []) ++
  (if c.thermalTick + 800000 ≤ s.clock then [.thermalDemandStep cl] else [])

/-- The events of a form. -/
def State.formEvents (s : State) (p : Nat × Form) : List Instr :=
  let f := p.1
  (match p.2.phase with
   | .staging => [.stagingComplete f]
   | .running => [.formRetire f, .watchdogExpire f]
   | .yielding => [.formRetire f, .formYielded f, .forcedSave ⟨f, true⟩]
   | .writeBack => [.writeBackComplete f]
   | _ => []) ++
  (if p.2.move.isSome then [.formMigrate f] else []) ++
  p.2.ctxs.zipIdx.flatMap (fun (x : MCtx × Nat) =>
    x.1.rolls.filterMap (fun r => if s.roundReady f x.1 r.2 then some (Instr.rollRoundIssue f x.2 r.1) else none) ++
    x.1.ops.map (fun o => .matrixOpComplete f x.2 o.id))

/-- The events of a thread. -/
def State.threadEvents (s : State) (p : Nat × Thread) : List Instr :=
  (if p.2.sleeping.isSome then [.sleepExpire p.1] else []) ++
  (if p.2.growing.isSome then [.growDeadlock p.2.core] else []) ++
  ((List.range p.2.lats.length).map (fun j => .longLatencyResult p.1 j)) ++
  (match Tab.find? p.2.form s.forms with
   | some f => if f.shed && decide (p.2.status = .live) && !p.2.pend11 then [.parkTimeout p.1] else []
   | none => [])

/-- The events of a node. -/
def State.nodeEvents (s : State) (p : Nat × Node) : List Instr :=
  (if s.nodeState p.1 = 2 then [.nodeComplete p.1] else []) ++
  (match p.2.kind with
   | 0 => if p.2.aged < 16 then [.effectivePriorityAging p.2.fbase] else []
   | 1 => [.copyNodeStart p.1]
   | 2 => [.weightLoadStart p.1]
   | 3 => [.collectiveNodeStart p.1]
   | _ => [.hostEventPost p.1])

/-- Admission of the first candidates: on the lowest cluster that fits, or the call for victims. -/
def State.admitEvents (s : State) : List Instr :=
  (s.cands.filter s.isFirst).map (fun c =>
    .formAdmit c.f (match s.fitting c with | cl :: _ => s.seatsFor (s.needOf c []) cl | [] => []))

/-- The evaluation of a hot cluster. -/
def State.moveEvents (s : State) : List Instr :=
  s.clusters.filterMap (fun p =>
    if p.2.threshold < p.2.temp ∧ p.2.migTick + 800000 ≤ s.clock then
      (match s.movable p.1 with
       | some (f, fm) => (match s.coolTarget p.1 f fm with
         | some t => some (.migrationEval p.1 ⟨f, t⟩ (s.seatsFor (moveNeed f fm) t))
         | none => some (.migrationEval p.1 ⟨f, 64⟩ []))
       | none => some (.migrationEval p.1 ⟨0, 64⟩ []))
    else none)

/-- The events of the device: what a replay feeds, replies, retraining, epochs, the sample gap, barrier releases, activation
tables. -/
def State.deviceEvents (s : State) : List Instr :=
  s.replayDoorbell.toList ++ s.replaySample.toList ++
  s.hbm.flatMap (fun k =>
    (match k.2.tags with | (pch, t, _) :: _ => [Instr.hbmReply k.1 pch ⟨t, false⟩] | [] => []) ++
    (if k.2.retrain.isSome then [.hbmRetrainGroupDone k.1] else [])) ++
  (if 80000 * (s.epoch + 1) ≤ s.clock then [.epochBoundary] else []) ++
  (if !s.replaying && !s.droop.gap && decide (s.droop.lastTick + 8000000 ≤ s.clock) then [.sampleGap] else []) ++
  s.counters.filterMap (fun c => match c.2.order with | (cl, _) :: _ => some (.channelBarrierRelease c.1 cl) | [] => none) ++
  s.cores.filterMap (fun c => if c.2.loads.isEmpty then none else some (.actldComplete c.1)) ++
  (List.range 4).flatMap (fun d => (s.die d).openBanks.filterMap (fun b =>
    let w := (s.die d).windows s.clock
    if windowOpen s.clock b w.1 w.2 then none else some (.wsRefreshClose d b)))

/-- Every event that the machine may take by itself, given no input from outside. -/
def State.events (s : State) : List Instr :=
  s.clusters.flatMap s.clusterEvents ++ s.forms.flatMap s.formEvents ++ s.threads.flatMap s.threadEvents ++
  s.nodes.flatMap s.nodeEvents ++ s.admitEvents ++ s.moveEvents ++ s.deviceEvents

/-- What thread p may try next beside an issue: a trap of its own, the words of its clauses that can go on, the commit of
its first clause, and again a fetch that waits for its page. -/
def State.workOf (s : State) (p : Nat × Thread) : List Act :=
  (if (s.asyncTrap p.1).isSome then [.event (.asyncTrapTaken p.1)] else []) ++
  (if s.runs p.2 then ((List.range p.2.clauses.length).filter p.2.canRun).map (Act.word p.1) else []) ++
  (if s.canCommit p.1 then [.event (.clauseCommit p.1)] else []) ++
  (match Tab.find? p.2.form s.forms with
   | some f => if p.2.mayDispatch f s.clock then
       (match s.tryDispatch f p.2 with | .wait .fetch _ => [.issue p.1] | _ => []) else []
   | none => [])

/-- The event whose turn it is. -/
def State.turn (s : State) : Option Instr :=
  match s.events with
  | [] => none
  | es => es[s.clock / 2 % es.length]?

/-! ## One step -/

/-- What goes on at an odd tick: every thread's work, and one event. -/
def State.others (s : State) : List Act := s.threads.flatMap s.workOf ++ s.turn.toList.map Act.event

/-- The acts that the model takes when the agenda is empty: at an even tick the issue stages' threads issue, or if there
are none the other work goes on; at an odd tick the other work, or if there is none the issue stages. -/
def State.nextActs (s : State) : List Act :=
  let i := s.issues.map Act.issue
  if s.clock % 2 = 0 then (if i.isEmpty then s.others else i) else (if s.others.isEmpty then i else s.others)

/-- Perform an act; an instruction of a thread that the agenda names as an event does nothing. -/
def State.perform1 (s : State) (a : Act) : Out State :=
  match a with
  | .event e => if isEvent e then exec e s else .next s
  | .run t => s.actThread t
  | .issue t => s.issueThread t
  | .word t i => s.runAt t i
  | .unit cl q u => .next (s.moveUnit cl q u)

/-- The model's own acts, with the tick that they take; those after the first stand in the agenda. -/
def State.ownAct (s : State) : Out State :=
  match s.nextActs with
  | [] => .next s.tick
  | a :: r => ({ s.tick with agenda := r }).perform1 a

end Sys2Proof.Machine
end

