-- ==== Sys2Proof/Machine/Load.lean ====
section
/-! DEFINITION. The load of one instruction for the first step (log 2): a form of one thread whose code page holds a clause
of that instruction alone. -/

namespace Sys2Proof.Machine

/-- The record of the form: one thread in a general bench of width 8, with the largest window and allotments. -/
def loadRecord : SMap Word := [(7, 1), (8, 0x80000000), (16, 0x78402010), (17, 384)]

/-- The class, the length and the destinations of the instruction that the table's bits stand for. -/
def loadShape (nbits w : Nat) : Class × Nat × List Nat :=
  match classify (tableWords nbits w) with
  | some (c, i) => (c, (encode i).length, destG i)
  | none => (.lane, 1, [])

/-- The header of the clause. -/
def loadHeader (c : Class) (n : Nat) : Header :=
  { count := n, cls := c, wait := 0, set := 0, sw := false, tf := true, pf := false }

/-- The thread: g registers that the instruction writes stand at the place of its class. -/
def loadThread (c : Class) (ds : List Nat) : Thread :=
  { freshThread 0 loadRecord 0 { core := 0, row := 0, lane := 0 } with
    pc := 0, place := ds.foldl (fun m n => SMap.set .lane n (placeOfClass c) m) [] }

/-- The form, running on cluster 0. -/
def loadForm : Form :=
  { node := 2 ^ 52, lin := 0, rcd := loadRecord, fn := 0, ctx := 0, part := [0], phase := .running, prio := 0, cluster := 0,
    cores := [0], admitted := 0, moved := 0,
    benches := [{ seat := { core := 0, row := 0, lane := 0 }, s := [], meets := [] }], hall := [], tags := [], objs := [],
    binds := [], resv := [], waiters := [], owned := [], ctxs := [MCtx.reset], sent := [], shed := false, shedPrio := 0,
    shedTick := 0, level := 0, watchdog := 0, yieldTick := 0, resume := .fresh, savedBanks := [], move := none }

/-- A readable raw page of HBM, frame 0 (R100). -/
def loadPte : BitVec 64 := 0xC010000000000000

/-- The state that holds the loaded clause at physical address 0, VA 0 of context 0, and whose next act is its thread's issue. -/
def State.loadWord (s : State) (nbits w : Nat) : State :=
  let x := loadShape nbits w
  let ws := encodeHeader (loadHeader x.1 x.2.1) :: tableWords nbits w
  let s1 := s.setPhysBytes 0 (ws.flatMap bytesOfWord)
  let s2 := s1.modCore 0 (fun c => { c with l1 := [tlbOf 0 0 loadPte] })
  { s2 with forms := Tab.put 0 loadForm s2.forms, threads := Tab.put 0 (loadThread x.1 x.2.2) s2.threads,
            agenda := [.issue 0] }

end Sys2Proof.Machine
end

