-- ==== Sys2Proof/Safety.lean ====
section
/-! DEFINITION. What counts as a safe state and a safe run, in the terms that claims use: the form of memory, how a word
ends, and how events end. -/

namespace Sys2Proof.Machine

/-- The base dies' SRAM, tables of memory bytes like memory itself. -/
def sramsWf (s : State) : Bool := s.hbm.all (fun p => Memory.wf p.2.sram)

/-- Memory in its canonical form: the device's and every base die's SRAM (log 23). -/
def State.memoryWf (s : State) : Bool := Memory.wf s.mem && sramsWf s

/-- A step that goes on. -/
def goesTo (o : Host.Outcome State Fault Refusal) (t : State) : Prop := o = .next t

/-- A safe state: no step of it ends in a refusal. -/
def State.safe (s : State) : Prop := ∀ r, step s ≠ .refused r

/-! ## How a word ends -/

/-- The state after the open word has changed its clause by g: the word leaves the clause, which waits no
longer. -/
def Env.after (e : Env) (g : Clause → Clause) : State := e.finish (e.upd e.s g)

/-- The same, where the word has changed the rest of the state to t. -/
def Env.afterIn (e : Env) (t : State) (g : Clause → Clause) : State := e.finish (e.upd t g)

/-- The state after the open word has faulted with a cause, TADDR and DATA (R53). -/
def Env.trapped (e : Env) (cause : Nat) (addr : Word) (data : Nat) : State :=
  e.s.raise e.k e.i (e.trap cause addr data)

/-- The state in which the open word's clause waits. -/
def Env.waiting (e : Env) (w : Wait) (t : State) : State := e.upd t (·.waits w)

/-- Wherever a word is open, i completes, and changes only its clause, by f. -/
def completes (i : Instr) (f : Env → Clause → Clause) : Prop :=
  ∀ s e, openWord s = some e → exec i s = .next (e.after (f e))

/-- d ← f(b), a short result, for every d and b. -/
def givesUn (mk : Reg → Src → Instr) (f : Word → Word) : Prop :=
  ∀ d b, completes (mk d b) (fun e c => c.put d (f (e.src b)))

/-- d ← f(a, b). -/
def givesBin (mk : Reg → Reg → Src → Instr) (f : Word → Word → Word) : Prop :=
  ∀ d a b, completes (mk d a b) (fun e c => c.put d (f (e.reg a) (e.src b)))

/-- d ← f(d, a, b), the destructive instructions of R231. -/
def givesTern (mk : Reg → Reg → Src → Instr) (f : Word → Word → Word → Word) : Prop :=
  ∀ d a b, completes (mk d a b) (fun e c => c.put d (f (e.reg d) (e.reg a) (e.src b)))

/-- d ← f(a, n), with n an immediate amount or the value of an operand (R382). -/
def givesShift (mk : Reg → Reg → Amt → Instr) (f : Word → Nat → Word) : Prop :=
  (∀ d a n, completes (mk d a (.imm n)) (fun e c => c.put d (f (e.reg a) n.val))) ∧
  (∀ d a b, completes (mk d a (.src b)) (fun e c => c.put d (f (e.reg a) (e.src b).toNat)))

/-- SD ← f(SD, SA), in format SS (R234). -/
def givesScalar (mk : Fin 384 → SSrc → Instr) (f : Word → Word → Word) : Prop :=
  ∀ d a, completes (mk d a) (fun e c => c.putS d.val (f (e.sreg d.val) (e.ssrc a)))

/-- The event i, whose guard holds in s, happens with the effect g. -/
def happens (i : Instr) (s : State) (g : State → State) : Prop := exec i s = .next (g s)

end Sys2Proof.Machine
end

