-- ==== Sys2Proof/Certificates/Slice0/Obligations.lean ====
section
/-! DEFINITION. The statements about the model, from the numbered rules of spec/. -/

open Sys2Proof Sys2Proof.Machine

/-! ## Encoding -/

/-- The words that the spec prints for one instruction of each family decode to it. -/
def Obligations.PrintedWordsDecode : Prop :=
  (decodeWords .lane [0x0C1E007E, 3]).toOption = some (.mul (.t 0) (.g 0) (.lit 3), []) ∧
  (decodeWords .lane [0x041E3C7E, 7]).toOption = some (.add .wrap (.t 0) (.t 0) (.lit 7), []) ∧
  (decodeWords .lane [0x245E4002]).toOption = some (.shl (.t 1) (.g 0) (.imm 2), []) ∧
  (decodeWords .lane [0xC678F200]).toOption = some (.st .w (.t 0) (.t 1) 0, []) ∧
  (decodeWords .core [0xB4053E15]).toOption = some (.tanh (.g 20) (.reg (.g 21)), []) ∧
  (decodeWords .lane [0xE0BE0104, 0x007C0000]).toOption = some (.xshfl (.t 0) (.g 2) (.reg (.g 4)) 0 .z, []) ∧
  (decodeWords .scalar [0x60000FF0, 0xFF]).toOption = some (.movScalar 0 (.lit 0xFF), []) ∧
  (decodeWords .control [0x0C0FFFFC]).toOption = some (.brnz (.g 1) (-4), []) ∧
  (decodeWords .control [0x281F3E7E, 5]).toOption = some (.trap (.lit 5), []) ∧
  (decodeWords .copy [0x0400037C, 0x047C0000]).toOption = some (.cpy 0 (.g 6) 8, []) ∧
  (decodeWords .matrix [0x2485087E, 0x1000]).toOption = some (.sghash 4 (.g 20) (.g 16) (.lit 0x1000), [])

/-- A header with a COUNT of 1 to 15 and a SET of at most 6 decodes to itself; a word decodes to a header whose encoding it
is, or its COUNT is 0, its SET 7, or a reserved field not what R223 says. No bit of a legal word is dropped: what decodes is well-formed, belongs to the class, and its words are the
instruction's encoding. -/
def Obligations.HeadersAndWordsAreTheirEncoding : Prop :=
  ((∀ h : Header, 1 ≤ h.count → h.count ≤ 15 → h.set ≤ 6 → decodeHeader (encodeHeader h) = some h) ∧
   (∀ w h, decodeHeader w = some h → encodeHeader h = w ∧ 1 ≤ h.count ∧ h.count ≤ 15 ∧ h.set ≤ 6) ∧
   (∀ w, decodeHeader w = none ↔
     (field w 31 28 = 0 ∨ field w 18 16 = 7 ∨ field w 12 8 ≠ 0 ∨ field w 7 0 ≠ 0x9E))) ∧
  (∀ (c : Sys2Proof.Class) (ws rest : List Word) (i : Instr), decodeWords c ws = .ok (i, rest) →
     i.wf = true ∧ c ∈ classesOf i ∧ encode i ++ rest = ws)

/-- Every well-formed instruction of the compute and scalar maps is what its words decode to, in each class that has it. -/
def Obligations.EncodedComputeWordsDecode : Prop :=
  ∀ (i : Instr) (c : Sys2Proof.Class) (rest : List Word), c ∈ [Sys2Proof.Class.lane, .core, .cluster, .pier, .scalar] → i.wf = true →
    c ∈ classesOf i → decodeWords c (encode i ++ rest) = .ok (i, rest)

/-- The same of the CONTROL, COPY and MATRIX maps. -/
def Obligations.EncodedSystemWordsDecode : Prop :=
  ∀ (i : Instr) (c : Sys2Proof.Class) (rest : List Word), c ∈ [Sys2Proof.Class.control, .copy, .matrix] → i.wf = true →
    c ∈ classesOf i → decodeWords c (encode i ++ rest) = .ok (i, rest)

/-- A word whose OP its class does not list is refused with cause 0x03 at dispatch; so is a reserved FN of a unary
instruction, before its operands are looked at, and an A other than 124 of it is 0x04; an OP never used in any map
is refused in every class. The word that fails is named: an s register at or above SCALARS (the model names the
instruction's first word: log 78), a g register at or above W, a destination whose place is not the class's; a g register
that stands in the instruction's second word fails there. -/
def Obligations.IllegalWordsAreRefused : Prop :=
  (∀ (fm : Form) (th : Thread) (c : Sys2Proof.Class) (it : Item), it.listed = false →
    wordCheck fm th c it = .error (it.idx, 0x03)) ∧
  (∀ (c : Sys2Proof.Class) (n idx : Nat) (w : Word) (rest : List Word), fmtOf c (field w 31 26) = none →
    cutWords c (n + 1) idx (w :: rest) = some [{ idx := idx, w0 := w, w1 := 0, ext := 0, listed := false }]) ∧
  (∀ (c : Sys2Proof.Class) (w : Word), field w 31 26 = 0 ∨ 0x39 ≤ field w 31 26 → fmtOf c (field w 31 26) = none) ∧
  (∀ (fm : Form) (th : Thread) (it : Item) (c : Sys2Proof.Class), c ∈ [Sys2Proof.Class.lane, .core] → it.listed = true →
    field it.w0 31 26 ∈ [0x0D, 0x0E, 0x13, 0x14, 0x18] →
    (2 ≤ field it.w0 25 21 → wordCheck fm th c it = .error (it.idx, 0x03)) ∧
    (field it.w0 25 21 = 0 → field it.w0 13 7 ≠ 124 → wordCheck fm th c it = .error (it.idx, 0x04))) ∧
  (∀ (it : Item), field it.w0 31 26 = 0x06 → 1 ≤ field it.w0 25 21 → decodeCompute it = .error .illegalOpcode) ∧
  (∀ (fm : Form) (th : Thread) (c : Sys2Proof.Class) (it : Item) (i : Instr), decodeItem c it = .ok i →
    ((∃ n ∈ namesS i, Rec.scalars fm.rcd ≤ n) → wordCheck fm th c it = .error (it.idx, 0x04)) ∧
    ((∀ n ∈ namesS i, n < Rec.scalars fm.rcd) →
      ((∃ n ∈ (namesG i).diff (lateG i), th.w ≤ n) → wordCheck fm th c it = .error (it.idx, 0x06)) ∧
      ((∀ n ∈ (namesG i).diff (lateG i), n < th.w) →
        ((∃ n ∈ (destG i).diff (lateDest i), SMap.get .lane n th.place ≠ placeOfClass c) →
          wordCheck fm th c it = .error (it.idx, 0x05)) ∧
        ((∀ n ∈ (destG i).diff (lateDest i), SMap.get .lane n th.place = placeOfClass c) →
          ((∃ n ∈ lateG i, th.w ≤ n) → wordCheck fm th c it = .error (it.idx + 1, 0x06)) ∧
          ((∀ n ∈ lateG i, n < th.w) →
            ((∃ n ∈ lateDest i, SMap.get .lane n th.place ≠ placeOfClass c) →
              wordCheck fm th c it = .error (it.idx + 1, 0x05)) ∧
            ((∀ n ∈ lateDest i, SMap.get .lane n th.place = placeOfClass c) → wordCheck fm th c it = .ok i)))))) ∧
  (∀ (m : Rep) (d : Fin 120) (roll : Fin 16) (a : Reg) (b : Src) (sS sL : Fin 384) (off : Fin 64),
    lateG (.sgbkt m (.g d) roll a b sS sL off) = [d.val] ∧ destG (.sgbkt m (.g d) roll a b sS sL off) = [d.val] ∧
    lateDest (.sgbkt m (.g d) roll a b sS sL off) = [d.val]) ∧
  (∀ i : Instr, (∀ m d roll a b sS sL off, i ≠ .sgbkt m d roll a b sS sL off) → lateDest i = []) ∧
  (∀ (d a f : Fin 120) (b : Src) (m : Fin 384), lateG (.xshfl (.g d) (.g a) b m (.g f)) = [f.val] ∧
    lateG (.bcast (.g d) (.g a) b m (.g f)) = [f.val])

/-! ## Steps, words and commits -/

/-- A step whose agenda names a word of thread t, whose turn it is, executes that word's instruction, and does nothing beside
it but take the act off the agenda; the same where the agenda names the thread, which has no asynchronous trap due, no
clause to commit, and that word is the first that may execute. A word may execute when no earlier clause of its place has
a word left and none at the home of a register that the clause names has one. A
step performs the event at the head of the agenda; with an empty agenda the model's own acts, which take one tick, of which
those after the first stand in the agenda (the order among the acts is the model's choice: log 1, log 7); at an even tick
those are the issues of the cores' issue stages, where there are any. A core's issue stage chooses among the core's eligible
threads, and gives at most one thread a lane, at most four addresses, and the oldest of them always; a thread is eligible
that may dispatch, and whose next clause can be fetched and is in no wait before it dispatches (log 91); in a
tick the clock, the cycles and the ages of the eligible threads go on, and memory and all else of a thread stay. -/
def Obligations.StepFollowsTheAgenda : Prop :=
  (∀ (s : State) (t i : Nat) (r : List Act) (th : Thread) (fm : Form) (e : Env) (ins : Instr) (q : List (Nat × Instr)),
     Tab.find? t s.threads = some th → Tab.find? th.form s.forms = some fm → th.status = .live →
     (fm.phase = .running ∨ fm.phase = .yielding) → th.canRun i = true →
     openWord { s with agenda := r, cur := t, curAt := some i } = some e → e.cl.todo = (e.idx, ins) :: q →
     (s.agenda = .word t i :: r → step s = exec ins { s with agenda := r, cur := t, curAt := some i }) ∧
     (s.agenda = .run t :: r → ({ s with agenda := r } : State).asyncTrap t = none →
       ({ s with agenda := r } : State).canCommit t = false → (∀ j, j < i → th.canRun j = false) →
       step s = exec ins { s with agenda := r, cur := t, curAt := some i })) ∧
  (∀ (th : Thread) (i : Nat) (c : Clause), th.clauses[i]? = some c →
     (th.canRun i = true ↔ c.todo ≠ [] ∧
       ∀ b ∈ th.clauses.take i, b.todo ≠ [] → placeOfClass b.hdr.cls ≠ placeOfClass c.hdr.cls ∧
         ∀ w ∈ c.words, (∀ n ∈ namesG w.2, SMap.get .lane n th.place ≠ placeOfClass b.hdr.cls) ∧
           (namesS w.2 ≠ [] → placeOfClass b.hdr.cls ≠ .core))) ∧
  ((∀ (s : State) (e : Instr) (r : List Act), s.agenda = .event e :: r → isEvent e = true →
     step s = exec e { s with agenda := r }) ∧
   (∀ (s : State) (e : Instr) (r : List Act), s.agenda = [] → s.nextActs = .event e :: r → isEvent e = true →
     step s = exec e { s.tick with agenda := r }) ∧
   (∀ (s : State) (a : Act) (r : List Act), s.agenda = [] → s.nextActs = a :: r →
     step s = ({ s.tick with agenda := r }).perform1 a) ∧
   (∀ s : State, s.agenda = [] → s.nextActs = [] → step s = .next s.tick) ∧
   (∀ s : State, s.tick.clock = s.clock + 1 ∧ s.tick.mem = s.mem ∧
     (∀ (k : Nat), Tab.find? k s.tick.threads = (Tab.find? k s.threads).map (fun th =>
       { th with age := if s.eligible (k, th) then th.age + 16 + (s.cluster (th.core / 8)).phi else 0 })) ∧
     (∀ (c : Nat) (x : Cluster), Tab.find? c s.clusters = some x →
       ∃ y, Tab.find? c s.tick.clusters = some y ∧ y.cyc = x.cyc + 16 + x.phi))) ∧
  (∀ (es : List (Nat × Thread)),
     (∀ p ∈ issueRounds es 4 [], p ∈ es) ∧
     (issueRounds es 4 []).Pairwise (fun p q => p.2.lane ≠ q.2.lane) ∧
     ((issueRounds es 4 []).map (·.2.pc)).dedup.length ≤ 4 ∧
     (∀ x, oldestOf es = some x → (∀ y ∈ es, olderThread y x = false) ∧ (x.2.lane < 64 → x ∈ issueRounds es 4 []))) ∧
  ((∀ (s : State) (t : Nat), t ∈ s.issues ↔ ∃ (c : Nat) (th : Thread),
      (t, th) ∈ issueRounds (s.threads.filter (fun p => s.eligible p && p.2.core == c)) 4 []) ∧
   (∀ (s : State) (p : Nat × Thread), s.eligible p = true ↔ ∃ fm, Tab.find? p.2.form s.forms = some fm ∧
      p.2.mayDispatch fm s.clock = true ∧ ∀ w s', s.tryDispatch fm p.2 ≠ .wait w s') ∧
   (∀ s : State, s.clock % 2 = 0 → s.issues ≠ [] → s.nextActs = s.issues.map Act.issue))

/-- A step that issues a thread with no outstanding clause fetches the words at its PC; where they are a legal
clause that nothing holds back, the step dispatches the clause and executes its first instruction: step is exec of the
decoded instruction in the state in which the clause is outstanding and the PC stands after it, its form's watchdog
counter and its core's count of R167 are 0, and the thread's age is 0. -/
def Obligations.StepRunsTheDecodedInstruction : Prop :=
  ∀ (s s1 s2 : State) (t : Nat) (r : List Act) (th : Thread) (fm : Form) (hw : Word) (h : Header) (ws : List Word)
    (items : List Item) (idx : Nat) (i : Instr) (q : List (Nat × Instr)),
    s.agenda = .issue t :: r →
    Tab.find? t s.threads = some th → Tab.find? th.form s.forms = some fm →
    th.clauses = [] → th.mayDispatch fm s.clock = true → th.parkedBySw = false →
    ({ s with agenda := r } : State).fetch th.core fm.ctx th.pc.toNat 1 = (s1, some [hw]) →
    decodeHeader hw = some h →
    s1.fetch th.core fm.ctx (addWords th.pc 1).toNat h.count = (s2, some ws) →
    cutClause h ws = some items → roleAllows (Rec.role fm.rcd th.bench) h.cls = true →
    s2.breakAt th fm.ctx h.count = none → wordChecks fm th h.cls items = .ok ((idx, i) :: q) →
    dispatchWait th h ((idx, i) :: q) = none →
    step s = exec i { ((s2.fresh.modForm th.form (fun f => { f with watchdog := 0 })).modCore th.core
      (fun x => { x with growIdle := 0 })).modThread t (fun x => { x with
        clauses := x.clauses ++ [{ newClause fm th h ((idx, i) :: q) s2.serial with tick := s2.clock }], pc := addWords th.pc (1 + h.count),
        wait := .none, sw := false, age := 0, noBreak := if x.noBreak = some th.pc then none else x.noBreak }) with
      cur := t, curAt := some 0 }

/-- A short result is buffered in its clause: z discards it, a temporary reads it back at once, a g register holds it for
later clauses and keeps the file as it is until the commit; nothing else of the clause changes. A clause reads the
latest write of an earlier outstanding clause, else the register file. -/
def Obligations.ResultsAreBuffered : Prop :=
  (∀ (c : Clause) (v : Word), c.put .z v = c) ∧
  (∀ (c : Clause) (n : Fin 120) (v : Word), (c.put (.g n) v).gw.lookup n.val = some v ∧
    (∀ m, m ≠ n.val → (c.put (.g n) v).gw.lookup m = c.gw.lookup m) ∧
    { c.put (.g n) v with gw := c.gw } = c) ∧
  (∀ (c : Clause) (n : Fin 4) (v : Word), SMap.wf 0 c.temps = true →
    SMap.get 0 n.val (c.put (.t n) v).temps = v ∧
    (∀ m, m ≠ n.val → SMap.get 0 m (c.put (.t n) v).temps = SMap.get 0 m c.temps) ∧
    { c.put (.t n) v with temps := c.temps } = c) ∧
  (∀ (th : Thread) (i n : Nat) (c : Clause) (v : Word), th.clauses[i]? = some c → c.gw.lookup n = some v →
    gRead th (i + 1) n = v) ∧
  (∀ (th : Thread) (i n : Nat) (c : Clause), th.clauses[i]? = some c → c.gw.lookup n = none →
    gRead th (i + 1) n = gRead th i n) ∧
  (∀ (th : Thread) (n : Nat), gRead th 0 n = SMap.get 0 n th.g)

/-- At its commit a clause leaves: every g register that it wrote takes the value that it wrote last, every other keeps
its own; NS takes the recorded flags beside its own; its long-latency results become outstanding under its SET token;
place map, allotment, PC and trap registers keep their values. Only a CONTROL clause sets the PC, when its last word has
executed. The first clause of a live thread, once every word of it has executed, commits where nothing holds it back: its
hall writes, its register writes and its scalar writes are performed together; but for the waits on a barrier's phase that
its stores complete nothing else changes. Of two clauses of a bench that write one s register the write of the later issued
stands, whichever commits first (the model's reading of R36: log 88). A clause that stores to a word that another clause
holds reserved waits, and so does a clause with SCALAR stores or fine-grain copies while a thread of its bundle with a lower
bench-lane (of two equal ones with a lower lane: log 101) has not committed; a COPY clause whose record registers have
changed since its words read them executes again from its first word (the model's reading of R111: log 65). -/
def Obligations.ClauseCommitsTogether : Prop :=
  (∀ (th : Thread) (c : Clause), SMap.wf 0 th.g = true →
     (∀ n, SMap.get 0 n (th.retire c c.gw).g = (c.gw.lookup n).getD (SMap.get 0 n th.g)) ∧
     (th.retire c c.gw).ns = th.ns ||| c.nsOr ∧ (th.retire c c.gw).clauses = th.clauses.tail ∧
     (th.retire c c.gw).lats = th.lats ++ c.lats.map (fun l => { l with tok := setTok c.hdr, seq := c.seq }) ∧
     { th.retire c c.gw with g := th.g, ns := th.ns, clauses := th.clauses, lats := th.lats, sw := th.sw } = th) ∧
  (∀ (th : Thread) (i : Nat) (c : Clause) (h : Clause → Clause), th.clauses[i]? = some c → (h c).hdr = c.hdr →
     (h c).todo = c.todo →
     (th.endWord i h).pc = (if c.hdr.cls = .control ∧ c.todo.length ≤ 1 then (h c).next else th.pc) ∧
     (th.endWord i h).clauses[i]? = some { h c with todo := c.todo.tail, wait := .none } ∧
     (∀ j, j ≠ i → (th.endWord i h).clauses[j]? = th.clauses[j]?) ∧
     { th.endWord i h with clauses := th.clauses, pc := th.pc } = th) ∧
  (∀ (s : State) (t : Nat) (th : Thread) (fm : Form) (c : Clause) (r : List Clause),
     Tab.find? t s.threads = some th → Tab.find? th.form s.forms = some fm → th.clauses = c :: r → c.todo = [] →
     th.status = .live →
     (th.step = false → th.pending = none → c.hdr.cls ≠ .copy → c.acts = [] → c.recsHold fm th = true →
       s.commitWait t th fm c = none →
       exec (.clauseCommit t) s = .next
         ((((s.modForm th.form (·.writes c.hw)).modThread t (·.retire c c.gw)).modForm th.form
           (fun x => ((x.modBench th.bench (·.putS c.seq c.sw)).release t).serveAll c.hw)).wake th.form)) ∧
     (c.recsHold fm th = true → (∃ x ∈ c.hw, ∃ w ∈ wordsOfSpan x.addr x.bytes.length, fm.heldByOther t (4 * w) = true) →
       exec (.clauseCommit t) s = .next (s.waitCommit t .reservation)) ∧
     (c.recsHold fm th = true → c.acts = [] →
       (∀ x ∈ c.hw, ∀ w ∈ wordsOfSpan x.addr x.bytes.length, fm.heldByOther t (4 * w) = false) →
       s.bundleHeld th c = true → exec (.clauseCommit t) s = .next (s.waitCommit t .held)) ∧
     (s.bundleHeld th c = true ↔ ((c.hdr.cls = .scalar ∧ c.hw ≠ []) ∨ (c.hdr.cls = .copy ∧ ∃ a ∈ c.acts,
         (∃ qs n o va, a = .copy qs (.gather n o va)) ∨ ∃ q o n va, a = .scatter q o n va)) ∧
       ∃ p ∈ s.threads, p.2.core = th.core ∧ (p.2.blane < th.blane ∨ (p.2.blane = th.blane ∧ p.2.lane < th.lane)) ∧
         ∃ d ∈ p.2.clauses, d.va = c.va ∧ d.tick = c.tick) ∧
     (c.recsHold fm th = false → exec (.clauseCommit t) s = .next (s.modThread t (fun u =>
       { u with clauses := u.clauses.modify 0 (fun b =>
         { b with todo := b.words, temps := [], gw := [], sw := [], hw := [], nsOr := 0, lats := [], acts := [], recs := [],
                  wait := .none }) }))) ∧
     (∀ w, s.waitCommit t w = s.modThread t (fun u =>
       { u with clauses := u.clauses.modify 0 (fun b => { b with wait := w }) }))) ∧
  (∀ (s : State) (f : Nat) (fm : Form), Tab.find? f s.forms = some fm →
     { s.wake f with threads := s.threads } = s ∧
     ∀ (j : Nat) (u : Thread), Tab.find? j s.threads = some u →
       ((u.form ≠ f ∨ fm.waitDone j = false) → Tab.find? j (s.wake f).threads = some u) ∧
       (u.form = f → fm.waitDone j = true → Tab.find? j (s.wake f).threads = some { u with
         clauses := u.clauses.map (fun b => if b.wait = .barrier then { b with wait := .none } else b) })) ∧
  (∀ (b : Bench) (q r n m : Nat) (v w : Word), SMap.wf 0 b.s = true → SMap.wf 0 b.last = true → q < r →
     SMap.get 0 n b.last ≤ q → m ≠ n →
     SMap.get 0 n (b.put1 q n v).s = v ∧ SMap.get 0 m (b.put1 q n v).s = SMap.get 0 m b.s ∧
     SMap.get 0 n ((b.put1 q n v).put1 r n w).s = w ∧ SMap.get 0 n ((b.put1 r n w).put1 q n v).s = w)

/-- PLACE, GROW, SHRINK, WRSR, RDSR of CLOCKLO, EXIT, YIELD, RETT, BIND and ROLLDECL change the machine when their clause
commits: GROW adds registers that read 0 and stand at the lane, SHRINK takes the highest away, a write of PRIO never
raises it, and a binding replaces what bound its range before. -/
def controlActs : Prop :=
  ∀ (s : State) (k f : Nat) (gw : List (Nat × Word)) (th : Thread) (fm : Form),
    Tab.find? k s.threads = some th → Tab.find? f s.forms = some fm →
    (∀ n p, s.doAct k f gw (.place n p) = (s.modThread k (fun x => { x with place := SMap.set .lane n p x.place }), gw)) ∧
    (∀ n, ∃ u : Thread, s.doAct k f gw (.grow n) = (s.modThread k (·.grow n), gw) ∧ th.grow n = u ∧ u.w = th.w + n ∧
      (SMap.wf 0 th.g = true → SMap.wf .lane th.place = true → ∀ j,
        SMap.get 0 j u.g = (if th.w ≤ j ∧ j < th.w + n then 0 else SMap.get 0 j th.g) ∧
        SMap.get .lane j u.place = (if th.w ≤ j ∧ j < th.w + n then .lane else SMap.get .lane j th.place))) ∧
    (∀ n, s.doAct k f gw (.shrink n) = (s.modThread k (·.shrink n), gw) ∧ (th.shrink n).w = th.w - n) ∧
    (∀ v, s.doAct k f gw (.wrNs v) = (s.modThread k (fun x => { x with ns := v }), gw)) ∧
    (∀ v, s.doAct k f gw (.wrPrio v) = (s.modForm f (fun x => { x with prio := min x.prio v }), gw)) ∧
    (∀ v, s.doAct k f gw (.clk v) = (s.modThread k (fun x => { x with clk := v }), gw)) ∧
    s.doAct k f gw .exit = (s.modThread k (fun x => { x with status := .exited }), gw) ∧
    (fm.phase = .yielding → s.doAct k f gw .yield = (s.modThread k (fun x => { x with status := .yielded }), gw)) ∧
    (fm.phase ≠ .yielding → s.doAct k f gw .yield = (s.modThread k (fun x => { x with age := 0 }), gw)) ∧
    (∀ nxt, s.doAct k f gw (.rett nxt) = (s.modThread k (·.rett nxt), gw) ∧ (th.rett nxt).trapState = false) ∧
    (∀ b, s.doAct k f gw (.bind b) =
      (s.modForm f (fun x => { x with binds := x.binds.flatMap (Bind.cut b.lo b.hi) ++ [b] }), gw)) ∧
    (∀ roll b m, s.doAct k f gw (.rolldecl roll b m) =
      (s.modForm f (fun x => x.modCtx (fm.fcOf th.core) (·.declare roll b m)), gw))

/-- At commit SEND appends its message to the FIFO of its peer, or drops it where the peer has retired, or to the mailbox;
RECV takes the oldest message, which counts no longer against its sender; an arrival at a counter counts, or completes the
phase, and its register holds the phase from before it; LAUNCH inserts its node, or nothing where the image may not be
inserted, of which the successors and the record are only read, and its register holds which. -/
def channelActs : Prop :=
  ∀ (s : State) (k f : Nat) (gw : List (Nat × Word)) (th : Thread) (fm : Form),
    Tab.find? k s.threads = some th → Tab.find? f s.forms = some fm →
    (∀ cap msg, capKind (Rec.cap fm.rcd cap) = 3 →
      let key := fifoKey fm.node fm.lin (capEnd (Rec.cap fm.rcd cap))
      (s.peerRetired fm.node (capEnd (Rec.cap fm.rcd cap)) = true → s.doAct k f gw (.send cap msg) = (s, gw)) ∧
      (s.peerRetired fm.node (capEnd (Rec.cap fm.rcd cap)) = false → s.doAct k f gw (.send cap msg) =
        (({ s with fifos := Tab.put key (Tab.getD [] key s.fifos ++ [{ words := msg, sender := some (f, cap) }]) s.fifos }
          : State).modForm f (fun x => { x with sent := SMap.set 0 cap (SMap.get 0 cap x.sent + 1) x.sent }), gw))) ∧
    (∀ cap msg, capKind (Rec.cap fm.rcd cap) = 4 →
      let key := mailKey fm.fn (capEnd (Rec.cap fm.rcd cap))
      s.doAct k f gw (.send cap msg) =
        (({ s with mailOut := Tab.put key (Tab.getD [] key s.mailOut ++ [{ words := msg, sender := some (f, cap) }]) s.mailOut }
          : State).modForm f (fun x => { x with sent := SMap.set 0 cap (SMap.get 0 cap x.sent + 1) x.sent }), gw)) ∧
    (∀ key ws g cap r, Tab.getD [] key s.fifos = { words := ws, sender := some (g, cap) } :: r →
      s.doAct k f gw (.recv true key) = (({ s with fifos := Tab.put key r s.fifos } : State).modForm g (fun x =>
        { x with sent := SMap.set 0 cap (SMap.get 0 cap x.sent - 1) x.sent }), gw)) ∧
    (∀ key, s.doAct k f gw (.recv false key) =
      ({ s with mailIn := Tab.put key (Tab.getD [] key s.mailIn).tail s.mailIn }, gw)) ∧
    (∀ id slot d h c, Tab.find? id s.counters = some c → ∃ c',
      (s.doAct k f gw (.arrive id slot d h)).2 = patchG gw slot d c.phase ∧
      Tab.find? id (s.doAct k f gw (.arrive id slot d h)).1.counters = some c' ∧ c'.target = c.target ∧
      c'.phase = (if c.arrived + 1 = c.target then c.phase + 1 else c.phase) ∧
      c'.arrived = (if c.arrived + 1 = c.target then 0 else c.arrived + 1) ∧
      (s.doAct k f gw (.arrive id slot d h)).1.threads = s.threads ∧
      (s.doAct k f gw (.arrive id slot d h)).1.forms = s.forms) ∧
    (∀ (a b : List (Nat × Word)) (n : Nat) (old v : Word),
      patchG (a ++ (n, old) :: b) b.length (some n) v = a ++ (n, v) :: b) ∧
    (∀ img va pte slot d, s.launchable fm.ctx img = false →
      s.doAct k f gw (.launch img va pte slot d) = (s.askRecord fm.ctx img, patchG gw slot d 0)) ∧
    (∀ img, { s.askRecord fm.ctx img with hbm := s.hbm } = s) ∧
    (∀ img va pte slot d, s.launchable fm.ctx img = true →
      (((s.askRecord fm.ctx img).writeImage fm.ctx va pte img).writeContext fm.ctx img).isSome = true →
      ∃ nd, (s.doAct k f gw (.launch img va pte slot d)).2 = patchG gw slot d 1 ∧
        Tab.find? (nodeKey pte va) (s.doAct k f gw (.launch img va pte slot d)).1.nodes = some nd ∧
        (s.doAct k f gw (.launch img va pte slot d)).1.threads = s.threads ∧
        nd.fn = fm.fn ∧ nd.ctx = fm.ctx ∧ nd.part = fm.part ∧ nd.kind = imgKind img ∧ nd.body = (img.drop 2).take 6 ∧
        nd.va = va ∧ nd.pte = pteSetD pte ∧
        nd.prio = min (Rec.prio (s.insertErr fm.ctx img).2) fm.prio ∧ nd.retired = 0 ∧
        (imgPred img = 0 → nd.readyTick = s.clock))

/-- At commit a copy, a gather, a scatter or a QFENCE enters its queues at their ends, but before the operations at the end
that reached the engine in the same cycle, have not started and whose threads stand behind by core, lane and slot row, those of
its own bundle excepted, which come in their own order; a bulk copy owns the chunk bits that it will set; CPYS reads its hall bytes then, and a poisoned word among them ends the launch with 0x0B; a collective
waits for the copies and collectives that its thread issued before it; ACTLD starts its load, in issue order; MSAVE and MRESTORE are
performed, once the operations before them have completed: MSAVE freezes the context and writes its image, MRESTORE loads
the accumulators and the rolls, and thaws. -/
def engineActs : Prop :=
  ∀ (s : State) (k f : Nat) (gw : List (Nat × Word)) (th : Thread) (fm : Form),
    Tab.find? k s.threads = some th → Tab.find? f s.forms = some fm →
    (∀ (qs : List Nat) (kind : CopyKind) (q : Nat), qs.Nodup →
      ((s.doAct k f gw (.copy qs kind)).1.cluster fm.cluster).queue q =
        (if q ∈ qs then joinQueue (s.newOp k f kind) ((s.cluster fm.cluster).queue q) else (s.cluster fm.cluster).queue q) ∧
      (s.doAct k f gw (.copy qs kind)).2 = gw ∧ (s.doAct k f gw (.copy qs kind)).1.threads = s.threads) ∧
    (∀ (qs : List Nat) (p : Plan) (bm : Nat) (left : List Nat) (h : Option (List (List Byte))), ∃ f',
      Tab.find? f (s.doAct k f gw (.copy qs (.bulk p bm left h))).1.forms = some f' ∧
      f'.owned = fm.owned ++ left.map (fun n => (s.serial, bm, n))) ∧
    (∀ (q o size va : Nat), (∃ w ∈ wordsOfSpan o size, fm.tag (4 * w) = .poisoned) →
      s.doAct k f gw (.scatter q o size va) = ((s.note (.cause0F f)).endLaunch fm.node 0x0B, gw)) ∧
    (∀ (q o size va : Nat), (∀ w ∈ wordsOfSpan o size, fm.tag (4 * w) ≠ .poisoned) →
      ((s.doAct k f gw (.scatter q o size va)).1.cluster fm.cluster).queue q =
        joinQueue (s.newOp k f (.scatter ((List.range size).map (fun i => fm.byte (o + i))) va))
          ((s.cluster fm.cluster).queue q)) ∧
    (∀ (kind : CopyKind),
      let bundle := match kind with
        | .gather _ _ _ => th.clauses.head?.map (fun c => (c.va.toNat, c.tick))
        | .scatter _ _ => th.clauses.head?.map (fun c => (c.va.toNat, c.tick))
        | _ => none
      s.newOp k f kind =
        { id := s.serial, thread := k, form := f, started := false, kind := kind, moved := [], tick := s.clock,
          pos := th.core * 1024 + th.lane * 16 + th.row, used := [], bundle := bundle }) ∧
    (∀ (op : CopyOp) (q : List CopyOp), ∃ a b, q = a ++ b ∧ joinQueue op q = a ++ op :: b ∧
      (∀ x ∈ b, op.passes x = true) ∧ ∀ x, a.getLast? = some x → op.passes x = false) ∧
    (∀ (x y : CopyOp), x.passes y = true ↔ x.tick = y.tick ∧ y.started = false ∧ x.pos < y.pos ∧
      (x.bundle = none ∨ x.bundle ≠ y.bundle)) ∧
    (∀ (c : Coll), ((s.doAct k f gw (.coll c)).1.cluster fm.cluster).colls = (s.cluster fm.cluster).colls ++
      [{ c with before := (s.cluster fm.cluster).copiesOf k }]) ∧
    (∀ bank image op c r, th.clauses = c :: r → s.doAct k f gw (.actld bank image op) = (s.modCore th.core (·.load
      { op := op, bank := bank, image := image, form := f, seq := c.seq }), gw)) ∧
    (∀ (c : Core) (l : BankLoad), { c.load l with loads := c.loads } = c ∧
      (∀ x, x ∈ (c.load l).loads ↔ x = l ∨ x ∈ c.loads) ∧
      (c.loads.Pairwise (fun x y => x.seq ≤ y.seq) → (c.load l).loads.Pairwise (fun x y => x.seq ≤ y.seq))) ∧
    (∀ addr op (c0 : MCtx), fm.ctxs[fm.fcOf th.core]? = some c0 → c0.ops = [] → c0.frozen = none → ∃ f' c1,
      Tab.find? f (s.doAct k f gw (.msave addr op)).1.forms = some f' ∧ f'.ctxs[fm.fcOf th.core]? = some c1 ∧
      c1.frozen = some none ∧ c1.acc = c0.acc ∧ (∀ x ∈ c1.rolls, x.2.sigs = []) ∧
      c1.ops = [{ MOp.thread op (.msave .z) with
        writes := [{ addr := addr, bytes := (c1.image none).flatMap (fun w => leBytes 4 w.toNat), tag := .full }] }]) ∧
    (∀ (a : Word) (idx op : Nat) (c0 : MCtx) (img : List Word), fm.ctxs[fm.fcOf th.core]? = some c0 → c0.ops = [] →
      s.restoreCheck f th.core fm a = .ok img → imgAt img 4 % 2 = 0 → ∃ f' c1,
      Tab.find? f (s.doAct k f gw (.mrestore a idx op)).1.forms = some f' ∧ f'.ctxs[fm.fcOf th.core]? = some c1 ∧
      c1.frozen = none ∧ (∀ i, i < 16384 → SMap.get 0 i c1.acc = img.getD (256 + i) 0) ∧
      (∀ r, r < 16 → (c1.roll r).base = imgAt img (0x100 + 16 * r) ∧ (c1.roll r).sigs = []) ∧
      c1.ops = [MOp.thread op (.mrestore .z)]) ∧
    (∀ (c : MCtx) (op : Option MOp), (c.image op).length = 18432 ∧ (c.image op).getD 0 0 = 0x00010007 ∧
      (∀ i, i < 16384 → (c.image op).getD (256 + i) 0 = SMap.get 0 i c.acc) ∧
      (∀ r, r < 16 → (c.image op).getD (64 + 4 * r) 0 = BitVec.ofNat 32 (c.roll r).base))

/-- What the acts of a clause do when it commits: those of CONTROL, of channels and nodes, and of the engines. -/
def Obligations.ControlActsAtCommit : Prop := controlActs ∧ channelActs ∧ engineActs

/-! ## Traps -/

/-- Taking a trap: with its class routed to the handler, the saved PC, TINFO, TADDR and TCAUSE are written, trap state is
set and the PC is the class's handler; routed to the control kernel, the thread stops with the same registers and the
kernel's log records them; a synchronous fault in trap state ends the launch with 0x0C; cause 0x11 parks the thread
at the clause and writes no register. -/
def Obligations.TrapEntry : Prop :=
  ∀ (s : State) (k : Nat) (p : Pending) (th : Thread) (fm : Form),
    Tab.find? k s.threads = some th → Tab.find? th.form s.forms = some fm →
    (p.cause = 0x11 → s.enterTrap k p = (s.modThread k (fun x =>
      { x with status := .parked, pc := p.pc, pending := none, wait := .none })).note (.parked th.form)) ∧
    (p.cause ≠ 0x11 → th.trapState = true → p.async = false →
      s.enterTrap k p = (s.note (.trap k p.regs)).endLaunch fm.node 0x0C) ∧
    (p.cause ≠ 0x11 → (th.trapState = false ∨ p.async = true) → ∃ u : Thread,
      u = { th with trapState := true, tcause := BitVec.ofNat 32 p.cause, tpc := BitVec.ofNat 32 p.pc.toNat,
                    tpchi := BitVec.ofNat 32 (p.pc.toNat / 2 ^ 32),
                    tinfo := BitVec.ofNat 32 (p.data % 65536 * 65536 + p.place * 16 + p.word), taddr := p.addr,
                    pending := none, wait := .none, sw := false } ∧
      p.regs = [u.tcause, u.tpc, u.tpchi, u.tinfo, u.taddr] ∧
      (p.cause = 0x10 → Tab.find? k (s.enterTrap k p).threads = some { u with pc := BitVec.ofNat 56 (Rec.handler fm.rcd) }) ∧
      (p.cause ≠ 0x10 → Rec.trapUser fm.rcd p.cause = true →
        Tab.find? k (s.enterTrap k p).threads = some { u with pc := BitVec.ofNat 56 (Rec.trapVA fm.rcd p.cause) } ∧
        { s.enterTrap k p with threads := s.threads } = s) ∧
      (p.cause ≠ 0x10 → Rec.trapUser fm.rcd p.cause = false →
        Tab.find? k (s.enterTrap k p).threads = some { u with status := .kernel } ∧
        { s.enterTrap k p with threads := s.threads } = { s with log := s.log ++ [.trap k p.regs] }))

/-- A word that faults, the first outstanding clause's as any other's, discards its clause and every later one of its thread,
with every effect that they hold outside their buffers: the places in queues, the reservations, the signatures and the rows
of issued operations of a fenced clause, and its arrival at a meeting; what an earlier clause holds stays its own. The trap
is taken once no clause is outstanding and the results that it waits for have arrived; until then it waits, and the
thread's file keeps its values. That an issued operation goes on without the discarded signer's row and words, and that a
clause of another signer which holds its map word of such an SGBKT in a temporary executes again, is the model's reading
(log 69). -/
def Obligations.FaultDiscardsTheClause : Prop :=
  (∀ (s : State) (k i : Nat) (p : Pending) (th : Thread) (fm : Form),
    Tab.find? k s.threads = some th → Tab.find? th.form s.forms = some fm →
    ∃ t : State, ∃ f' : Form,
    s.raise k i p = (if th.clauses.take i = [] ∧
        (∀ l ∈ th.lats, (p.cause = 0x10 ∨ p.cause = 0x13) ∧ l.isMatrix = true) then t.enterTrap k p else t) ∧
    Tab.find? k t.threads = some { th with clauses := th.clauses.take i, pending := some p, wait := .none } ∧
    (∀ j, j ≠ k → Tab.find? j t.threads = (Tab.find? j s.threads).map (fun u =>
      if (∃ c ∈ th.clauses.drop i, c.fenced = true) ∧ u.form = th.form then
        { u with clauses := u.clauses.map (fun c => if c.keepsMap (opsOf (th.clauses.drop i)) then c.restart else c) }
      else u)) ∧
    ((∃ c ∈ th.clauses.drop i, c.fenced = true) → ∀ j u, j ≠ k → Tab.find? j s.threads = some u → u.form = th.form →
      (∃ c ∈ u.clauses, c.keepsMap (opsOf (th.clauses.drop i)) = true) →
      ∀ c ∈ f'.ctxs, ∀ x ∈ c.rolls, ∀ g ∈ x.2.sigs, g.thread ≠ j) ∧
    t.mem = s.mem ∧ Tab.find? th.form t.forms = some f' ∧ f'.hall = fm.hall ∧ f'.tags = fm.tags ∧
    ((∀ c ∈ th.clauses.drop i, c.fenced = false ∧ ∀ w ∈ c.words, meets w.2 = false) → { t with threads := s.threads } = s) ∧
    ((∃ c ∈ th.clauses.drop i, c.fenced = true) →
      (∀ x ∈ t.chanWait, x.thread ≠ k) ∧ (∀ x ∈ f'.waiters, x.thread ≠ k) ∧ (∀ x ∈ f'.resv, x.2 ≠ k) ∧
      (∀ c ∈ f'.ctxs, ∀ x ∈ c.rolls, ∀ g ∈ x.2.sigs, g.thread ≠ k) ∧
      (∀ c ∈ f'.ctxs, ∀ o ∈ c.ops, o.id ∈ opsOf (th.clauses.drop i) → o.rows ≠ [] ∧ ∀ x ∈ o.rows, x.2.thread ≠ k)) ∧
    ((∃ c ∈ th.clauses.drop i, ∃ w ∈ c.words, meets w.2 = true) → ∀ b, f'.benches[th.bench]? = some b →
      ∀ a ∈ b.meets, a.blane = th.blane → a.done = true ∧ a.taken = true)) ∧
  (∀ (c : Clause) (ids : List Nat), (c.keepsMap ids = true ↔ ∃ x ∈ c.signed, x.2 ∈ ids ∧
      ∃ m n roll a b sS sL off, c.words.lookup x.1 = some (.sgbkt m (.t n) roll a b sS sL off)) ∧
    c.restart = { c with todo := c.words, temps := [], gw := [], sw := [], hw := [], nsOr := 0, lats := [], acts := [],
                         recs := [], wait := .none }) ∧
  (∀ (o : MOp) (k : Nat), o.words.length = o.rows.length →
    (o.without k).rows = o.rows.filter (fun p => p.2.thread ≠ k) ∧
    (o.without k).words = ((o.words.zip o.rows).filter (fun p => p.2.2.thread ≠ k)).map (·.1)) ∧
  (∀ l : Sys2Proof.Machine.Lat, l.isMatrix = true ↔ l.kind = .restored ∨ ∃ id, l.kind = .matrix id)

/-- TRAP in the first outstanding clause of a thread with nothing outstanding, outside trap state and with its class
routed to the handler: cause 0x0D, the header's address, b's low half-word in DATA, and the PC at the handler; every
general register, NS, the place map and memory are unchanged, and the clause is gone. RETT in trap state returns: at commit trap state ends and the PC is the saved one, or, for the .next form whose header
can be fetched, the clause after it; outside trap state RETT faults with cause 0x03. -/
def Obligations.TrapInstructionAndReturn : Prop :=
  (∀ (s : State) (e : Env) (b : Src), openWord s = some e → e.i = 0 → e.th.lats = [] → e.th.trapState = false →
     Rec.trapUser e.fm.rcd 0x0D = true →
     ∃ t, exec (.trap b) s = .next t ∧ t.mem = s.mem ∧
       (∀ j, j ≠ s.cur → Tab.find? j t.threads = Tab.find? j s.threads) ∧
       Tab.find? s.cur t.threads = some { e.th with
         clauses := [], trapState := true, tcause := 0x0D, tpc := BitVec.ofNat 32 e.cl.va.toNat,
         tpchi := BitVec.ofNat 32 (e.cl.va.toNat / 2 ^ 32),
         tinfo := BitVec.ofNat 32 ((e.src b).toNat % 65536 * 65536 + trapPlaceOf e.cl.hdr.cls * 16 + e.idx),
         taddr := 0, pending := none, wait := .none, sw := false, pc := BitVec.ofNat 56 (Rec.trapVA e.fm.rcd 0x0D) }) ∧
  ((∀ (s : State) (e : Env), openWord s = some e → e.th.trapState = true →
     exec (.rett false) s = .next (e.after (fun c =>
       { c with next := e.th.tpcVA, acts := c.acts ++ [.rett false] }))) ∧
   (∀ (s t : State) (e : Env) (h : Word), openWord s = some e → e.th.trapState = true →
     s.fetch e.th.core e.fm.ctx e.th.tpcVA.toNat 1 = (t, some [h]) →
     exec (.rett true) s = .next (e.afterIn t (fun c =>
       { c with next := e.th.tpcVA + BitVec.ofInt 56 (4 * (1 + (field h 31 28 : Int))), acts := c.acts ++ [.rett true] }))) ∧
   (∀ (s : State) (e : Env) (nxt : Bool), openWord s = some e → e.th.trapState = false →
     exec (.rett nxt) s = .next (e.trapped 0x03 0 0)) ∧
   (∀ (th : Thread), th.tpcVA.toNat = (th.tpchi.toNat * 2 ^ 32 + th.tpc.toNat) % 2 ^ 56))
/-! ## Integer, bit, move and packed instructions -/

/-- A FN of a compute word that is not among the ones listed is the fault of cause 0x03, whatever the operands are. -/
def reservedFn (op : Nat) (fns : List Nat) : Prop :=
  ∀ (fm : Form) (th : Thread) (c : Sys2Proof.Class) (it : Item), c ∈ [Sys2Proof.Class.lane, .core, .cluster, .pier] →
    field it.w0 31 26 = op → field it.w0 25 21 ∉ fns → wordCheck fm th c it = .error (it.idx, 0x03)

/-- The same in format SS. -/
def reservedFnScalar (op : Nat) (fns : List Nat) : Prop :=
  ∀ (fm : Form) (th : Thread) (it : Item), field it.w0 31 26 = op → field it.w0 25 21 ∉ fns →
    wordCheck fm th .scalar it = .error (it.idx, 0x03)

/-- The unary instruction with this FN is the fault of cause 0x04 when its A operand is not 124. -/
def needsNoA (op fn : Nat) : Prop :=
  ∀ (fm : Form) (th : Thread) (c : Sys2Proof.Class) (it : Item), c ∈ [Sys2Proof.Class.lane, .core, .cluster, .pier] →
    it.listed = true → field it.w0 31 26 = op → field it.w0 25 21 = fn → field it.w0 13 7 ≠ 124 →
    wordCheck fm th c it = .error (it.idx, 0x04)

/-- An immediate amount above 31 in the B field of the form with this FN is the fault of cause 0x04. -/
def amountBelow32 (op fn : Nat) : Prop :=
  ∀ (fm : Form) (th : Thread) (c : Sys2Proof.Class) (it : Item), c ∈ [Sys2Proof.Class.lane, .core, .cluster, .pier] →
    it.listed = true → field it.w0 31 26 = op → field it.w0 25 21 = fn → 32 ≤ field it.w0 6 0 →
    wordCheck fm th c it = .error (it.idx, 0x04)

/-- ADD and SUB: modulo 2^32, saturated as INT32, saturated as NAT32, in both formats; NS is untouched; a
reserved FN is cause 0x03. -/
def Obligations.AddAndSubtract : Prop :=
  let addI := fun (x y : Word) => BitVec.ofInt 32 (max (-2 ^ 31) (min (2 ^ 31 - 1) (x.toInt + y.toInt)))
  let subI := fun (x y : Word) => BitVec.ofInt 32 (max (-2 ^ 31) (min (2 ^ 31 - 1) (x.toInt - y.toInt)))
  let addW := fun (x y : Word) => BitVec.ofNat 32 (x.toNat + y.toNat)
  let addN := fun (x y : Word) => BitVec.ofNat 32 (min (2 ^ 32 - 1) (x.toNat + y.toNat))
  let subW := fun (x y : Word) => BitVec.ofInt 32 (x.toInt - y.toInt)
  let subN := fun (x y : Word) => BitVec.ofNat 32 (x.toNat - y.toNat)
  (givesBin (.add .wrap) addW ∧ givesScalar (.addScalar .wrap) addW) ∧
  (givesBin (.add .satI) addI ∧ givesScalar (.addScalar .satI) addI) ∧
  (givesBin (.add .satN) addN ∧ givesScalar (.addScalar .satN) addN) ∧
  (givesBin (.sub .wrap) subW ∧ givesScalar (.subScalar .wrap) subW) ∧
  (givesBin (.sub .satI) subI ∧ givesScalar (.subScalar .satI) subI) ∧
  (givesBin (.sub .satN) subN ∧ givesScalar (.subScalar .satN) subN) ∧
  reservedFn 0x01 [0, 1, 2] ∧ reservedFnScalar 0x01 [0, 1, 2] ∧ reservedFn 0x02 [0, 1, 2] ∧ reservedFnScalar 0x02 [0, 1, 2]

/-- MUL and MULH are the two halves of the exact product, MAD adds the low half to d; a reserved FN is cause 0x03. -/
def Obligations.Multiply : Prop :=
  ∃ hiI hiN : Word → Word → Word,
    (∀ x y : Word, (hiI x y).toInt * 2 ^ 32 + (x * y).toNat = x.toInt * y.toInt) ∧
    (∀ x y : Word, (hiN x y).toNat * 2 ^ 32 + (x * y).toNat = x.toNat * y.toNat) ∧
    (givesBin .mul (fun x y => BitVec.ofInt 32 (x.toInt * y.toInt)) ∧
      givesScalar .mulScalar (fun x y => BitVec.ofInt 32 (x.toInt * y.toInt))) ∧
    (givesBin (.mulh .i) hiI ∧ givesScalar (.mulhScalar .i) hiI) ∧
    (givesBin (.mulh .n) hiN ∧ givesScalar (.mulhScalar .n) hiN) ∧
    givesTern .mad (fun z x y => BitVec.ofInt 32 (z.toInt + x.toInt * y.toInt)) ∧
    reservedFn 0x03 [0] ∧ reservedFnScalar 0x03 [0] ∧ reservedFn 0x04 [0, 1] ∧ reservedFnScalar 0x04 [0, 1] ∧
    reservedFn 0x05 [0]

/-- AND, OR and XOR act bit by bit, in both formats; a reserved FN is cause 0x03. -/
def Obligations.BitwiseLogic : Prop :=
  ∃ f g h : Word → Word → Word,
    (∀ x y i, (f x y).getLsbD i = (x.getLsbD i && y.getLsbD i)) ∧
    (∀ x y i, (g x y).getLsbD i = (x.getLsbD i || y.getLsbD i)) ∧
    (∀ x y i, (h x y).getLsbD i = (x.getLsbD i != y.getLsbD i)) ∧
    (givesBin .and f ∧ givesScalar .andScalar f ∧ reservedFn 0x06 [0] ∧ reservedFnScalar 0x06 [0]) ∧
    (givesBin .or g ∧ givesScalar .orScalar g ∧ reservedFn 0x07 [0] ∧ reservedFnScalar 0x07 [0]) ∧
    (givesBin .xor h ∧ givesScalar .xorScalar h ∧ reservedFn 0x08 [0] ∧ reservedFnScalar 0x08 [0])

/-- The shifts and ROT, for an immediate amount, a register's and a literal's: an amount of 32 or more shifts everything
out; SHR of INT32 rounds down, SHRR to nearest with ties up, and ROT moves bit i to bit i + n modulo 32; a reserved FN is
cause 0x03 and an immediate amount above 31 cause 0x04. -/
def Obligations.ShiftsAndRotations : Prop :=
  ∃ rot : Word → Nat → Word,
    (∀ a n i, i < 32 → (rot a n).getLsbD ((i + n) % 32) = a.getLsbD i) ∧
    (givesShift .shl (fun a n => BitVec.ofNat 32 (a.toNat * 2 ^ n)) ∧
      givesScalar .shlScalar (fun x y => BitVec.ofNat 32 (x.toNat * 2 ^ y.toNat))) ∧
    (givesShift (.shr .n) (fun a n => BitVec.ofNat 32 (a.toNat / 2 ^ n)) ∧
      givesScalar (.shrScalar .n) (fun x y => BitVec.ofNat 32 (x.toNat / 2 ^ y.toNat))) ∧
    (givesShift (.shr .i) (fun a n => BitVec.ofInt 32 (a.toInt / 2 ^ n)) ∧
      givesScalar (.shrScalar .i) (fun x y => BitVec.ofInt 32 (x.toInt / 2 ^ y.toNat))) ∧
    givesShift .shrr (fun a n => if n = 0 then a else BitVec.ofInt 32 ((a.toInt + 2 ^ (n - 1)) / 2 ^ n)) ∧
    (givesShift .rot rot ∧ givesScalar .rotScalar (fun x y => rot x y.toNat)) ∧
    (reservedFn 0x09 [0, 2] ∧ reservedFnScalar 0x09 [0] ∧ reservedFn 0x0A [0, 1, 2, 3] ∧ reservedFnScalar 0x0A [0, 1] ∧
      reservedFn 0x0B [0, 2] ∧ reservedFnScalar 0x0B [0] ∧ reservedFn 0x0C [0, 2]) ∧
    (amountBelow32 0x09 2 ∧ amountBelow32 0x0A 2 ∧ amountBelow32 0x0A 3 ∧ amountBelow32 0x0B 2 ∧ amountBelow32 0x0C 2)

/-- BFI and BFX with the selector's position and width cut to the word (an empty field inserts nothing and extracts 0), CLZ
and POPC; the SCALAR forms of the unary ones read SA only; a reserved FN is cause 0x03, and an A
operand of CLZ or POPC other than 124 cause 0x04. -/
def Obligations.BitFields : Prop :=
  ∃ (ins : Word → Word → Word → Word) (exI exN : Word → Word → Word) (clz popc : Word → Word),
    (∀ d a b : Word, let pos := b.toNat % 256
      let n := min (b.toNat / 256 % 256) (32 - pos)
      ∀ i, i < 32 → (ins d a b).getLsbD i = if pos ≤ i ∧ i < pos + n then a.getLsbD (i - pos) else d.getLsbD i) ∧
    (∀ a b : Word, let pos := b.toNat % 256
      let n := min (b.toNat / 256 % 256) (32 - pos)
      ∀ i, i < 32 → (exN a b).getLsbD i = (decide (i < n) && a.getLsbD (pos + i)) ∧
        (exI a b).getLsbD i = (decide (0 < n) && a.getLsbD (pos + min i (n - 1)))) ∧
    (clz 0 = 32 ∧ ∀ b : Word, b ≠ 0 → ∃ k, (clz b).toNat + k = 31 ∧ 2 ^ k ≤ b.toNat ∧ b.toNat < 2 ^ (k + 1)) ∧
    (∀ b : Word, (popc b).toNat = ((List.range 32).filter (fun i => b.getLsbD i)).length) ∧
    (givesTern .bfi ins ∧ givesScalar .bfiScalar (fun x y => ins x x y)) ∧
    (givesBin (.bfx .i) exI ∧ givesScalar (.bfxScalar .i) exI) ∧
    (givesBin (.bfx .n) exN ∧ givesScalar (.bfxScalar .n) exN) ∧
    (givesUn .clz clz ∧ givesScalar .clzScalar (fun _ y => clz y)) ∧
    (givesUn .popc popc ∧ givesScalar .popcScalar (fun _ y => popc y)) ∧
    (reservedFn 0x0D [0] ∧ reservedFn 0x0E [0] ∧ reservedFn 0x0F [0, 1] ∧ reservedFn 0x10 [0] ∧ reservedFnScalar 0x0D [0] ∧
      reservedFnScalar 0x0E [0] ∧ reservedFnScalar 0x0F [0, 1] ∧ reservedFnScalar 0x10 [0]) ∧
    (needsNoA 0x0D 0 ∧ needsNoA 0x0E 0)

/-- CMP answers 1 or 0 by its relation; MAX and MIN answer the operand that is not below, or not above, the other; ABS and
NEG wrap or saturate at the most negative number. MOV copies, SEL keeps or chooses by d, LEA adds b shifted by FN, modulo 2^32. A
reserved FN is cause 0x03, and an A operand of ABS, NEG or MOV other than 124 cause 0x04. -/
def Obligations.CompareSelectAndMove : Prop :=
  (let bit := fun (p : Bool) => (if p then 1 else 0 : Word)
   let gives := fun (r : CmpRel) (p : Word → Word → Bool) =>
     givesBin (.cmp r) (fun x y => bit (p x y)) ∧ givesScalar (.cmpScalar r) (fun x y => bit (p x y))
   gives .eq (fun x y => x == y) ∧ gives .ne (fun x y => x != y) ∧
   gives .ltI (fun x y => decide (x.toInt < y.toInt)) ∧ gives .leI (fun x y => decide (x.toInt ≤ y.toInt)) ∧
   gives .ltN (fun x y => decide (x.toNat < y.toNat)) ∧ gives .leN (fun x y => decide (x.toNat ≤ y.toNat)) ∧
   (∃ hiI hiN loI loN : Word → Word → Word,
     (∀ x y, (hiI x y).toInt = max x.toInt y.toInt) ∧ (∀ x y, (loI x y).toInt = min x.toInt y.toInt) ∧
     (∀ x y, (hiN x y).toNat = max x.toNat y.toNat) ∧ (∀ x y, (loN x y).toNat = min x.toNat y.toNat) ∧
     (givesBin (.max .i) hiI ∧ givesScalar (.maxScalar .i) hiI) ∧ (givesBin (.max .n) hiN ∧ givesScalar (.maxScalar .n) hiN) ∧
     (givesBin (.min .i) loI ∧ givesScalar (.minScalar .i) loI) ∧ (givesBin (.min .n) loN ∧ givesScalar (.minScalar .n) loN)) ∧
   (∃ absW absS negW negS : Word → Word,
     (∀ b, (absW b).toNat = b.toInt.natAbs) ∧ (∀ b, (absS b).toInt = min (2 ^ 31 - 1) (b.toInt.natAbs : Int)) ∧
     (∀ b, negW b + b = 0) ∧ (∀ b, (negS b).toInt = min (2 ^ 31 - 1) (-b.toInt)) ∧
     givesUn (.abs .wrap) absW ∧ givesUn (.abs .sat) absS ∧ givesUn (.neg .wrap) negW ∧ givesUn (.neg .sat) negS)) ∧
  ((givesUn .mov (fun x => x) ∧ givesScalar .movScalar (fun _ y => y)) ∧
   (givesTern .sel (fun z x y => if z = 0 then y else x) ∧ givesScalar .selScalar (fun x y => if x = 0 then y else x)) ∧
   (∀ n : Fin 5, givesBin (.lea n) (fun x y => BitVec.ofNat 32 (x.toNat + y.toNat * 2 ^ n.val)) ∧
     givesScalar (.leaScalar n) (fun x y => BitVec.ofNat 32 (x.toNat + y.toNat * 2 ^ n.val))) ∧
   (reservedFn 0x11 [0, 1] ∧ reservedFn 0x12 [0, 1] ∧ reservedFn 0x13 [0, 1] ∧ reservedFn 0x14 [0, 1] ∧
    reservedFn 0x15 [0, 1, 2, 3, 4, 5] ∧ reservedFn 0x16 [0] ∧ reservedFn 0x17 [0, 1, 2, 3, 4] ∧ reservedFn 0x18 [0] ∧
    reservedFnScalar 0x11 [0, 1] ∧ reservedFnScalar 0x12 [0, 1] ∧ reservedFnScalar 0x15 [0, 1, 2, 3, 4, 5] ∧
    reservedFnScalar 0x16 [0] ∧ reservedFnScalar 0x17 [0, 1, 2, 3, 4] ∧ reservedFnScalar 0x18 [0]) ∧
   (needsNoA 0x13 0 ∧ needsNoA 0x13 1 ∧ needsNoA 0x14 0 ∧ needsNoA 0x14 1 ∧ needsNoA 0x18 0))

/-- PADD and PSUB on two INT16 elements with no carry between them, wrapping or saturating; PACK saturates two INT32;
PDOT2 adds two products to d and saturates once; the .x forms record SAT when a saturation changed the result, and
no other form touches NS; a reserved FN is cause 0x03. -/
def Obligations.PackedArithmetic : Prop :=
  let lo := fun (w : Word) => (w.extractLsb' 0 16).toInt
  let hi := fun (w : Word) => (w.extractLsb' 16 16).toInt
  let clamp := fun (n : Nat) (x : Int) => max (-2 ^ n) (min (2 ^ n - 1) x)
  ∃ (addW addS subW subS pk : Word → Word → Word) (dot : Word → Word → Word → Word),
    (∀ x y, (addW x y).extractLsb' 0 16 = x.extractLsb' 0 16 + y.extractLsb' 0 16 ∧
      (addW x y).extractLsb' 16 16 = x.extractLsb' 16 16 + y.extractLsb' 16 16) ∧
    (∀ x y, (subW x y).extractLsb' 0 16 = x.extractLsb' 0 16 - y.extractLsb' 0 16 ∧
      (subW x y).extractLsb' 16 16 = x.extractLsb' 16 16 - y.extractLsb' 16 16) ∧
    (∀ x y, lo (addS x y) = clamp 15 (lo x + lo y) ∧ hi (addS x y) = clamp 15 (hi x + hi y)) ∧
    (∀ x y, lo (subS x y) = clamp 15 (lo x - lo y) ∧ hi (subS x y) = clamp 15 (hi x - hi y)) ∧
    (∀ x y, lo (pk x y) = clamp 15 x.toInt ∧ hi (pk x y) = clamp 15 y.toInt) ∧
    (∀ z x y, (dot z x y).toInt = clamp 31 (z.toInt + lo x * lo y + hi x * hi y)) ∧
    givesBin (.padd .wrap) addW ∧ givesBin (.padd .sat) addS ∧ givesBin (.psub .wrap) subW ∧ givesBin (.psub .sat) subS ∧
    givesBin (.pack false) pk ∧ givesTern (.pdot2 false) dot ∧
    (∀ d a b, completes (.pack true d a b) (fun e c =>
      let c1 := c.put d (pk (e.reg a) (e.src b))
      if clamp 15 (e.reg a).toInt ≠ (e.reg a).toInt ∨ clamp 15 (e.src b).toInt ≠ (e.src b).toInt then
        { c1 with nsOr := c1.nsOr ||| 16 } else c1)) ∧
    (∀ d a b, completes (.pdot2 true d a b) (fun e c =>
      let t := (e.reg d).toInt + lo (e.reg a) * lo (e.src b) + hi (e.reg a) * hi (e.src b)
      let c1 := c.put d (dot (e.reg d) (e.reg a) (e.src b))
      if clamp 31 t ≠ t then { c1 with nsOr := c1.nsOr ||| 16 } else c1)) ∧
    reservedFn 0x19 [0, 1] ∧ reservedFn 0x1A [0, 1] ∧ reservedFn 0x1B [0, 1] ∧ reservedFn 0x1C [0, 1]

/-! ## Floating point and the SFUs -/

/-- FADD, FSUB, FMUL and FFMA round the exact result once; a NaN operand gives the canonical NaN with no exception and an
invalid operation gives it with NV; FN 0 to 3 only write, .t traps with cause 0x01 on NV or OF and writes nothing else,
.x ORs the flags into NS at commit. -/
def Obligations.FloatingPointArithmetic : Prop :=
  let round := fun (r : Rnd) (nan : Bool) (x : Val) =>
    (if nan then (0x7FC00000, 0) else if x = .nan then (0x7FC00000, 1) else roundFP32 r x : Word × BitVec 5)
  let gives := fun (mk : FMode → Reg → Reg → Src → Instr) (f : Rnd → Word → Word → Word → Word × BitVec 5) =>
    ∀ d a b, let v := fun (r : Rnd) (e : Env) => f r (e.reg d) (e.reg a) (e.src b)
      completes (mk .rn d a b) (fun e c => c.put d (v .rn e).1) ∧ completes (mk .rz d a b) (fun e c => c.put d (v .rz e).1) ∧
      completes (mk .ru d a b) (fun e c => c.put d (v .ru e).1) ∧ completes (mk .rd d a b) (fun e c => c.put d (v .rd e).1) ∧
      completes (mk .x d a b) (fun e c => (c.put d (v .rn e).1).orNs (v .rn e).2) ∧
      (∀ s e, openWord s = some e → (v .rn e).2.getLsbD 0 = false → (v .rn e).2.getLsbD 1 = false →
        exec (mk .t d a b) s = .next (e.after (fun c => c.put d (v .rn e).1))) ∧
      (∀ s e, openWord s = some e → ((v .rn e).2.getLsbD 0 = true ∨ (v .rn e).2.getLsbD 1 = true) →
        exec (mk .t d a b) s = .next (e.trapped 0x01 0 0))
  gives .fadd (fun r _ a b => round r (isNaN a || isNaN b) ((valOfFP32 a).add (r == .rd) (valOfFP32 b))) ∧
  gives .fsub (fun r _ a b => round r (isNaN a || isNaN b) ((valOfFP32 a).add (r == .rd) (valOfFP32 b).neg)) ∧
  gives .fmul (fun r _ a b => round r (isNaN a || isNaN b) ((valOfFP32 a).mul (valOfFP32 b))) ∧
  gives .ffma (fun r d a b => round r (isNaN d || isNaN a || isNaN b)
    ((valOfFP32 d).add (r == .rd) ((valOfFP32 a).mul (valOfFP32 b))))

/-- FCMP compares as real numbers, FMAX and FMIN answer one of their operands' bits, the other one where one is NaN and
the canonical NaN where both are, with −0 below +0; FRND returns an integral value, an infinity among them, unchanged, and
rounds any other. -/
def Obligations.FloatingPointSelection : Prop :=
  let bit := fun (p : Bool) => (if p then 1 else 0 : Word)
  let un := fun (x y : Word) => isNaN x || isNaN y
  let lt := fun (x y : Word) => (valOfFP32 x).lt (valOfFP32 y)
  givesBin (.fcmp .eq) (fun x y => bit (!un x y && !lt x y && !lt y x)) ∧
  givesBin (.fcmp .ne) (fun x y => bit (un x y || lt x y || lt y x)) ∧
  givesBin (.fcmp .lt) (fun x y => bit (!un x y && lt x y)) ∧
  givesBin (.fcmp .le) (fun x y => bit (!un x y && !lt y x)) ∧
  givesBin (.fcmp .un) (fun x y => bit (un x y)) ∧
  (∃ hi lo : Word → Word → Word,
    (∀ x y, un x y = false → (hi x y = x ∨ hi x y = y) ∧ lt (hi x y) x = false ∧ lt (hi x y) y = false ∧
      (lo x y = x ∨ lo x y = y) ∧ lt x (lo x y) = false ∧ lt y (lo x y) = false) ∧
    (∀ x y, isNaN x = true → isNaN y = false → hi x y = y ∧ hi y x = y ∧ lo x y = y ∧ lo y x = y) ∧
    (∀ x y, isNaN x = true → isNaN y = true → hi x y = 0x7FC00000 ∧ lo x y = 0x7FC00000) ∧
    hi 0 0x80000000 = 0 ∧ hi 0x80000000 0 = 0 ∧ lo 0 0x80000000 = 0x80000000 ∧ lo 0x80000000 0 = 0x80000000 ∧
    givesBin .fmax hi ∧ givesBin .fmin lo) ∧
  (∃ rnd : Rnd → Word → Word,
    (∀ r b, isNaN b = true → rnd r b = 0x7FC00000) ∧ (∀ r b, b.toNat % 2 ^ 31 = 0x7F800000 → rnd r b = b) ∧
    (∀ r b s m e, valOfFP32 b = .fin s m e → (∃ n : ℕ, (m : ℚ) * 2 ^ e = n) → rnd r b = b) ∧
    (∀ r b s m e, valOfFP32 b = .fin s m e → roundToInt r s m e = 0 → rnd r b = if s then 0x80000000 else 0) ∧
    (∀ r b s m e, valOfFP32 b = .fin s m e → roundToInt r s m e ≠ 0 → rnd r b = rnFP32 (valOfInt (roundToInt r s m e))) ∧
    (∀ m, givesUn (.frnd m) (rnd m)))

/-- FCVT: integers from FP32 truncated or rounded to nearest even and saturated, with NaN giving 0; FP32 from integers,
BF16 and tapered bytes; a byte conversion keeps the other bytes of d; half-words are sign-extended. -/
def Obligations.Conversions : Prop :=
  let byte := fun (w : Word) (k : Nat) => w.toNat / 256 ^ k % 256
  ∃ f : Cvt → Word → Word → Word → Word,
    (∀ c, givesTern (.fcvt c) (f c)) ∧
    (∀ d a b, f .iRz d a b = BitVec.ofInt 32 (satInt .rz 32 (valOfFP32 b)) ∧
      f .iRn d a b = BitVec.ofInt 32 (satInt .rn 32 (valOfFP32 b)) ∧
      (isNaN b = true → f .iRz d a b = 0 ∧ f .iRn d a b = 0)) ∧
    (∀ d a b, f .fI d a b = rnFP32 (valOfInt b.toInt) ∧ f .fN d a b = rnFP32 (valOfInt b.toNat)) ∧
    (∀ d a b, (f .bf2 d a b).toNat % 65536 = rnBF16 (valOfFP32 a) ∧ (f .bf2 d a b).toNat / 65536 = rnBF16 (valOfFP32 b)) ∧
    (∀ d a b, f (.fBf false) d a b = rnFP32 (valOfBF16 (b.toNat % 65536)) ∧
      f (.fBf true) d a b = rnFP32 (valOfBF16 (b.toNat / 65536))) ∧
    (∀ (d a b : Word) (k : Fin 4), byte (f (.t8 k) d a b) k = encodeT8 (valOfFP32 b) ∧
      byte (f (.t6 k) d a b) k = encodeT6 (valOfFP32 b) ∧
      (∀ j, j < 4 → j ≠ k.val → byte (f (.t8 k) d a b) j = byte d j ∧ byte (f (.t6 k) d a b) j = byte d j) ∧
      f (.fT8 k) d a b = rnFP32 (valOfT8 (byte b k)) ∧ f (.fT6 k) d a b = rnFP32 (valOfT6 (byte b k % 64))) ∧
    (∀ d a b, (f (.iH false) d a b).toInt = (b.extractLsb' 0 16).toInt ∧
      (f (.iH true) d a b).toInt = (b.extractLsb' 16 16).toInt)

/-- What LD.w, LDW.w and BFMA read at element i of a formatted storage (R71): the integer, the exact scaled value rounded to
FP32, the scale byte standing before its block (R70), +0 at a skipped position of SP24; of an integer BFMA reads its FP32. -/
def expandedValues : Prop :=
  ∀ (rd : Bytes) (i : Nat),
    elemLoad 5 0 rd i = (rd i).signExtend 32 ∧ elemFP 5 0 rd i = rnFP32 (valOfInt (rd i).toInt) ∧
    elemLoad 6 0 rd i = (BitVec.ofNat 16 (halfAt rd (2 * i))).signExtend 32 ∧
    elemFP 6 0 rd i = rnFP32 (valOfInt (BitVec.ofNat 16 (halfAt rd (2 * i))).toInt) ∧
    elemLoad 2 0 rd i = rnFP32 (valOfBF16 (halfAt rd (2 * i))) ∧
    elemLoad 3 0 rd i = rnFP32 (valOfT8 (rd i).toNat) ∧ elemLoad 4 0 rd i = rnFP32 (valOfT6 ((rd i).toNat % 64)) ∧
    (∀ g, g ≠ 0 →
      let n := unitElems 3 g
      let o := i / n * (n + 1)
      elemLoad 3 g rd i = rnFP32 (scaled (rd o).toNat (valOfT8 (rd (o + 1 + i % n)).toNat)) ∧
      elemLoad 4 g rd i = rnFP32 (scaled (rd o).toNat (valOfT6 ((rd (o + 1 + i % n)).toNat % 64))) ∧
      o ∈ elemReads 3 g rd i ∧ o ∈ elemReads 4 g rd i ∧ o + 1 + i % n ∈ elemReads 3 g rd i ∧ o + 1 + i % n ∈ elemReads 4 g rd i) ∧
    (∀ p, p = 7 ∨ p = 8 → spKept (spMeta p rd (i / 64)) (i % 64 / 4) (i % 4) = none → elemLoad p 0 rd i = 0) ∧
    (∀ p, 2 ≤ p → p ≠ 5 → p ≠ 6 → ∀ g, elemFP p g rd i = elemLoad p g rd i)

/-- The checks of LDW, in their order: an offset with a byte past the window's view extent is 0x07, at the first such byte;
a misaligned one, and a width other than w in a window that is not raw, 0x08; a byte of the read in a failed unit, the
scale byte of an element's block among them, 0x0F; else the read is made. The value is that of the weight store of the
form's die from WBASE on, raw or by the window's format. -/
def windowReads : Prop :=
  (∀ (s : State) (f : Form) (o : Nat),
    windowBytes s f o = s.physByte (2 ^ 51 + f.cluster / 16 * 0x20000000 + (Rec.wbase f.rcd + o))) ∧
  (∀ (s : State) (f : Form) (a n : Nat),
    let fmt := Rec.wformat f.rcd
    let geom := Rec.wgeom f.rcd
    let failed := fun (o : Nat) => s.isBad (2 ^ 51 + f.cluster / 16 * 0x20000000 + (Rec.wbase f.rcd + o))
    let reads := if 2 ≤ fmt then elemReads fmt geom (windowBytes s f) (a / 4) else (List.range n).map (· + a)
    (windowExtent f ≤ a → windowCheck s f a n = .error (0x07, BitVec.ofNat 32 a)) ∧
    (a < windowExtent f → windowExtent f < a + n →
      windowCheck s f a n = .error (0x07, BitVec.ofNat 32 (windowExtent f))) ∧
    (a < windowExtent f → a + n ≤ windowExtent f →
      (a % n ≠ 0 → windowCheck s f a n = .error (0x08, BitVec.ofNat 32 a)) ∧
      (a % n = 0 → fmt ≠ 0 → n ≠ 4 → windowCheck s f a n = .error (0x08, BitVec.ofNat 32 a)) ∧
      (a % n = 0 → (fmt = 0 ∨ n = 4) →
        ((∃ o ∈ reads, failed o = true) → windowCheck s f a n = .error (0x0F, BitVec.ofNat 32 a)) ∧
        ((∀ o ∈ reads, failed o = false) → windowCheck s f a n = .ok ()))) ∧
    (fmt < 2 → windowVal s f a n = leNat (s.physBytes (2 ^ 51 + f.cluster / 16 * 0x20000000 + Rec.wbase f.rcd + a) n)) ∧
    (2 ≤ fmt → windowVal s f a n = (elemLoad fmt geom (windowBytes s f) (a / 4)).toNat)) ∧
  (∀ f : Form, windowExtent f = viewExtent (Rec.wformat f.rcd) (Rec.wgeom f.rcd) (Rec.wsize f.rcd))

/-- BFMA: d ← d + v × b rounded once, with v the hall element at a; a check of R296 that fails is its fault, and a reserved
word its wait. LDW reads the form's weight window where its checks hold, and its result is long-latency; a check that
fails is its fault. -/
def Obligations.HallOperandsAndWeightWindow : Prop :=
  ((∀ (s : State) (e : Env) (d a : Reg) (b : Src) (h : HallRef), openWord s = some e → e.hall .load (e.reg a) 4 = .ok h →
     let v := if expanded h.seg.fmt then elemFP h.seg.fmt h.seg.geom (e.bytes h) (h.rel / 4) else BitVec.ofNat 32 (e.rawNat h 4)
     exec (.bfma false d a b) s = .next (e.after (fun c => c.put d (fpFma .rn (e.reg d) v (e.src b)).1)) ∧
     exec (.bfma true d a b) s = .next (e.after (fun c =>
       (c.put d (fpFma .rn (e.reg d) v (e.src b)).1).orNs (fpFma .rn (e.reg d) v (e.src b)).2))) ∧
   (∀ (e : Env) (a : Word) (n : Nat) (h : HallRef), hallCheck e.fm .load a.toNat n = .ok h →
     (∀ o ∈ h.span e.fm .load n, e.fm.heldByOther e.k o = false) → e.hall .load a n = .ok h) ∧
   (∀ (s : State) (e : Env) (x : Bool) (d a : Reg) (b : Src) (h : HallRef), openWord s = some e →
     hallCheck e.fm .load (e.reg a).toNat 4 = .ok h → (∃ o ∈ h.span e.fm .load 4, e.fm.heldByOther e.k o = true) →
     exec (.bfma x d a b) s = .next (e.waiting .reservation s)) ∧
   (∀ (s : State) (e : Env) (x : Bool) (d a : Reg) (b : Src) (cause : Nat) (addr : Word), openWord s = some e →
     hallCheck e.fm .load (e.reg a).toNat 4 = .error (cause, addr) →
     exec (.bfma x d a b) s = .next (e.trapped cause addr 0))) ∧
  ((∀ (s : State) (e : Env) (k : LdW) (d a : Reg) (off : BitVec 9), openWord s = some e →
     windowCheck s e.fm (effAddr (e.reg a) off (ldWidth k)).toNat (ldWidth k) = .ok () →
     exec (.ldw k d a off) s = .next (e.after (fun c =>
       c.putLoad k d (windowVal s e.fm (effAddr (e.reg a) off (ldWidth k)).toNat (ldWidth k))))) ∧
   (∀ (s : State) (e : Env) (k : LdW) (d a : Reg) (off : BitVec 9) (c : Nat) (v : Word), openWord s = some e →
     windowCheck s e.fm (effAddr (e.reg a) off (ldWidth k)).toNat (ldWidth k) = .error (c, v) →
     exec (.ldw k d a off) s = .next (e.trapped c v 0))) ∧
  windowReads ∧ expandedValues

/-- The rational that a finite value is; 0 for the others. -/
def valQ : Val → ℚ
  | .fin s m e => (if s then -1 else 1) * (m : ℚ) * 2 ^ e
  | _ => 0

/-- The magnitude of a finite pattern. -/
def magQ (w : Word) : ℚ := ((codeMag (w.toNat % 2 ^ 31)).1 : ℚ) * 2 ^ (codeMag (w.toNat % 2 ^ 31)).2

/-- The ulp at the binade of 2^l (R75). -/
def ulpQ (l : ℤ) : ℚ := 2 ^ max (l - 23) (-149)

/-- RCP, RSQ and SQRT (R75, R76, R360, R375, R387): within 1 ulp of the reciprocal and of the reciprocal root at its binade,
exact at normal powers of two and at powers of four (R360 promises nothing of a subnormal one: log 8); the root within half
an ulp. -/
def rootValues : Prop :=
  (∀ (b : Word) (s : Bool) (m : Nat) (e : Int), valOfFP32 b = .fin s m e → m ≠ 0 →
    (∀ w ∈ rcpList b, decide (2 ^ 31 ≤ w.toNat) = s) ∧
    (1 / ((m : ℚ) * 2 ^ e) < 2 ^ (128 : ℤ) - 2 ^ (103 : ℤ) → ∀ l : ℤ, (2 : ℚ) ^ l ≤ 1 / ((m : ℚ) * 2 ^ e) →
      1 / ((m : ℚ) * 2 ^ e) < 2 ^ (l + 1) → ∀ w ∈ rcpList b, |magQ w - 1 / ((m : ℚ) * 2 ^ e)| ≤ ulpQ l) ∧
    (∀ k : ℤ, (m : ℚ) * 2 ^ e = 2 ^ k → k ≤ 127 → -126 ≤ k → magQ (rcpVal b) = 2 ^ (-k)) ∧
    (s = true → rsqVal b = 0x7FC00000 ∧ sqrtVal b = 0x7FC00000 ∧ lg2Val b = 0x7FC00000) ∧
    (s = false → ∀ w ∈ rsqList b, w.toNat < 2 ^ 31 ∧
      ∀ l : ℤ, (2 : ℚ) ^ (2 * l) ≤ 1 / ((m : ℚ) * 2 ^ e) → 1 / ((m : ℚ) * 2 ^ e) < 2 ^ (2 * l + 2) →
        (magQ w - ulpQ l) ^ 2 * ((m : ℚ) * 2 ^ e) ≤ 1 ∧ 1 ≤ (magQ w + ulpQ l) ^ 2 * ((m : ℚ) * 2 ^ e)) ∧
    (s = false → ∀ k : ℤ, (m : ℚ) * 2 ^ e = 2 ^ (2 * k) → magQ (rsqVal b) = 2 ^ (-k)) ∧
    (s = false → (sqrtVal b).toNat < 2 ^ 31 ∧
      ∀ l : ℤ, (2 : ℚ) ^ (2 * l) ≤ (m : ℚ) * 2 ^ e → (m : ℚ) * 2 ^ e < 2 ^ (2 * l + 2) →
        (magQ (sqrtVal b) - ulpQ l / 2) ^ 2 ≤ (m : ℚ) * 2 ^ e ∧ (m : ℚ) * 2 ^ e ≤ (magQ (sqrtVal b) + ulpQ l / 2) ^ 2)) ∧
  (∀ b, (rcpList b ≠ [] → rcpVal b ∈ rcpList b) ∧ (rsqList b ≠ [] → rsqVal b ∈ rsqList b))

/-- EX2, LG2, SINPI, COSPI and TANH (R75, R76, R324, R327, R340, R384, R390): exact where the rules say so, with R76's special
values, and odd where they are. -/
def curveValues : Prop :=
  (∀ (b : Word) (s : Bool) (m : Nat) (e : Int), valOfFP32 b = .fin s m e → m ≠ 0 →
    (∀ n : ℤ, valQ (.fin s m e) = n → -149 ≤ n → n ≤ 127 → magQ (ex2Val b) = 2 ^ n ∧ (ex2Val b).toNat < 2 ^ 31) ∧
    (128 ≤ valQ (.fin s m e) → ex2Val b = 0x7F800000) ∧ (valQ (.fin s m e) ≤ -150 → ex2Val b = 0) ∧
    (s = false → ∀ k : ℤ, (m : ℚ) * 2 ^ e = 2 ^ k → lg2Val b = rnFP32 (valOfInt k)) ∧
    (∀ n : ℕ, (m : ℚ) * 2 ^ e = n → sinpiVal b = (if s then 0x80000000 else 0)) ∧
    (∀ n : ℕ, (m : ℚ) * 2 ^ e = n + 1 / 2 →
      sinpiVal b = (if s = decide (n % 2 = 0) then 0xBF800000 else 0x3F800000) ∧ cospiVal b = 0) ∧
    (∀ n : ℕ, (m : ℚ) * 2 ^ e = n → cospiVal b = (if n % 2 = 0 then 0x3F800000 else 0xBF800000)) ∧
    (∀ w ∈ tanhList b, decide (2 ^ 31 ≤ w.toNat) = s ∧ magQ w ≤ 1) ∧
    (sinpiList b ≠ [] → sinpiVal (b ^^^ 0x80000000) = sinpiVal b ^^^ 0x80000000) ∧
    (tanhList b ≠ [] → tanhVal (b ^^^ 0x80000000) = tanhVal b ^^^ 0x80000000)) ∧
  (∀ b, (ex2List b ≠ [] → ex2Val b ∈ ex2List b) ∧ (lg2List b ≠ [] → lg2Val b ∈ lg2List b) ∧
    (sinpiList b ≠ [] → sinpiVal b ∈ sinpiList b) ∧ (cospiList b ≠ [] → cospiVal b ∈ cospiList b) ∧
    (tanhList b ≠ [] → tanhVal b ∈ tanhList b))

/-- The SFUs and ACT write a long-latency result: a function of the operand (for ACT also of its bank) alone, the canonical
NaN for NaN, the special values of R76, and elsewhere a pattern among those that R75 allows: which of them is
free (log 8). ACT chooses the segment of x, clamped to the bank's ends, gives the intercept for a zero slope, and else
rounds M × x + C once. -/
def Obligations.SpecialFunctions : Prop :=
  ((∀ (s : State) (e : Env) (d : Reg) (b : Src), openWord s = some e →
     exec (.rcp d b) s = .next (e.after (fun c => c.putLat d (rcpVal (e.src b)))) ∧
     exec (.rsq d b) s = .next (e.after (fun c => c.putLat d (rsqVal (e.src b)))) ∧
     exec (.sqrt d b) s = .next (e.after (fun c => c.putLat d (sqrtVal (e.src b)))) ∧
     exec (.ex2 d b) s = .next (e.after (fun c => c.putLat d (ex2Val (e.src b)))) ∧
     exec (.lg2 d b) s = .next (e.after (fun c => c.putLat d (lg2Val (e.src b)))) ∧
     exec (.sinpi d b) s = .next (e.after (fun c => c.putLat d (sinpiVal (e.src b)))) ∧
     exec (.cospi d b) s = .next (e.after (fun c => c.putLat d (cospiVal (e.src b)))) ∧
     exec (.tanh d b) s = .next (e.after (fun c => c.putLat d (tanhVal (e.src b))))) ∧
   (∀ (s : State) (e : Env) (n : Fin 4) (d : Reg) (b : Src), openWord s = some e →
     exec (.act n d b) s = .next (e.after (fun c =>
       c.putLat d (actVal ((e.s.core e.th.core).bank n.val) (e.src b)))))) ∧
  (∀ b, isNaN b = true → [rcpVal b, rsqVal b, sqrtVal b, ex2Val b, lg2Val b, sinpiVal b, cospiVal b, tanhVal b] =
    List.replicate 8 0x7FC00000) ∧
  ((∀ (k : Bank) (b : Word), isNaN b = true → actVal k b = 0x7FC00000) ∧
   (∀ b : Word, isNaN b = false → actVal Bank.reset b = 0) ∧
   (∀ (k : Bank) (b : Word), isNaN b = false → actVal k b =
     (let i := actIndex k.l k.q b
      if (valOfFP32 (SMap.get 0 i k.m)).isZero then SMap.get 0 i k.c
      else (fpFma .rn (SMap.get 0 i k.c) (SMap.get 0 i k.m) b).1)) ∧
   (∀ (l q x : Word) (s t : Bool) (m n : Nat) (e f : Int), valOfFP32 l = .fin s m e → valOfFP32 x = .fin t n f →
     ((actIndex l q x : Nat) : ℤ) =
       max 0 (min 255 ⌊(valQ (.fin t n f) - valQ (.fin s m e)) / 2 ^ q.toInt⌋)) ∧
   (∀ (l q : Word) (s : Bool) (m : Nat) (e : Int), valOfFP32 l = .fin s m e →
     actIndex l q 0x7F800000 = 255 ∧ actIndex l q 0xFF800000 = 0)) ∧
  (rcpVal 0 = 0x7F800000 ∧ rcpVal 0x80000000 = 0xFF800000 ∧ rcpVal 0x7F800000 = 0 ∧ rcpVal 0xFF800000 = 0x80000000 ∧
   rsqVal 0 = 0x7F800000 ∧ rsqVal 0x80000000 = 0xFF800000 ∧ rsqVal 0x7F800000 = 0 ∧ rsqVal 0xFF800000 = 0x7FC00000 ∧
   sqrtVal 0 = 0 ∧ sqrtVal 0x80000000 = 0x80000000 ∧ sqrtVal 0x7F800000 = 0x7F800000 ∧ sqrtVal 0xFF800000 = 0x7FC00000 ∧
   ex2Val 0xFF800000 = 0 ∧ ex2Val 0x7F800000 = 0x7F800000 ∧ ex2Val 0 = 0x3F800000 ∧ ex2Val 0x80000000 = 0x3F800000 ∧
   lg2Val 0 = 0xFF800000 ∧ lg2Val 0x80000000 = 0xFF800000 ∧ lg2Val 0x7F800000 = 0x7F800000 ∧ lg2Val 0xFF800000 = 0x7FC00000 ∧
   lg2Val 0x3F800000 = 0 ∧ sinpiVal 0x7F800000 = 0x7FC00000 ∧ cospiVal 0x7F800000 = 0x7FC00000 ∧
   sinpiVal 0xFF800000 = 0x7FC00000 ∧ cospiVal 0xFF800000 = 0x7FC00000 ∧ sinpiVal 0 = 0 ∧ sinpiVal 0x80000000 = 0x80000000 ∧
   cospiVal 0 = 0x3F800000 ∧
   tanhVal 0 = 0 ∧ tanhVal 0x80000000 = 0x80000000 ∧ tanhVal 0x7F800000 = 0x3F800000 ∧ tanhVal 0xFF800000 = 0xBF800000) ∧
  rootValues ∧ curveValues

/-- A pattern of the sign of x and within k ulp of it, the ulp taken at its binade, but for 2^(−27) of an ulp, by which the
model's enclosures of the exact values may be wide (log 8). -/
def closeTo (k : ℝ) (w : Word) (x : ℝ) : Prop :=
  decide (2 ^ 31 ≤ w.toNat) = decide (x < 0) ∧
  ∀ l : ℤ, (2 : ℝ) ^ l ≤ |x| → |x| < 2 ^ (l + 1) → abs ((magQ w : ℝ) - |x|) ≤ (k + 2 ^ (-27 : ℤ)) * (ulpQ l : ℝ)

/-- Every pattern that EX2, LG2, SINPI, COSPI and TANH may return stands within the bound of R75, up to 2^(−27) of an ulp (the
width of the model's enclosures: log 8), of the exact value, with its sign; and there is always one, for each SFU. -/
def Obligations.SfuResultsAreWithinTheirBounds : Prop :=
  (∀ (b : Word) (s : Bool) (m : Nat) (e : Int), valOfFP32 b = .fin s m e → m ≠ 0 →
    let x : ℝ := ((valQ (.fin s m e) : ℚ) : ℝ)
    (-150 < x → x < 128 → ∀ w ∈ ex2List b, closeTo 2 w (2 ^ x)) ∧
    (0 < x → x ≠ 1 → ∀ w ∈ lg2List b, closeTo 2 w (Real.logb 2 x)) ∧
    (Real.sin (Real.pi * x) ≠ 0 → ∀ w ∈ sinpiList b, closeTo (3 / 2) w (Real.sin (Real.pi * x))) ∧
    (Real.cos (Real.pi * x) ≠ 0 → ∀ w ∈ cospiList b, closeTo (3 / 2) w (Real.cos (Real.pi * x))) ∧
    (∀ w ∈ tanhList b, closeTo 2 w (Real.tanh x))) ∧
  (∀ b : Word, rcpList b ≠ [] ∧ rsqList b ≠ [] ∧ ex2List b ≠ [] ∧ lg2List b ≠ [] ∧ sinpiList b ≠ [] ∧ cospiList b ≠ [] ∧
    tanhList b ≠ [])

/-- ACTLD reads its image, which must be one raw range with a finite L and a Q from −64 to 64, sends it to its bank at
commit and counts 1 until the load completes, which a load of a clause that issued before it on the core and has not committed
holds back; a failing check of the range is its fault, and a bad L or Q cause 0x04. -/
def Obligations.ActivationTableLoad : Prop :=
  (∀ (s : State) (e : Env) (n : Fin 4) (a : Reg) (img : List Word), openWord s = some e →
    e.rawImage (e.reg a) 2064 16 true = .ok img → imageOk (img.getD 0 0) (img.getD 1 0) = true →
    exec (.actld n a) s = .next (e.afterIn s.fresh (fun c =>
      (c.act (.actld n.val img s.serial)).putDone .none (.actld s.serial)))) ∧
  (∀ (s : State) (e : Env) (n : Fin 4) (a : Reg) (img : List Word), openWord s = some e →
    e.rawImage (e.reg a) 2064 16 true = .ok img → imageOk (img.getD 0 0) (img.getD 1 0) = false →
    exec (.actld n a) s = .next (e.trapped 0x04 0 0)) ∧
  (∀ (s : State) (e : Env) (n : Fin 4) (a : Reg) (c d : Nat) (x : Word), openWord s = some e →
    e.rawImage (e.reg a) 2064 16 true = .error (.fault c x d) → exec (.actld n a) s = .next (e.trapped c x d)) ∧
  (∀ l q : Word, imageOk l q = true ↔ (l.toNat % 2 ^ 31 < 0x7F800000 ∧ -64 ≤ q.toInt ∧ q.toInt ≤ 64)) ∧
  (∀ (s : State) (core : Nat) (l : BankLoad) (r : List BankLoad), (s.core core).loads = l :: r →
    (s.loadBehind core l = true ↔ ∃ p ∈ s.threads, p.2.core = core ∧ ∃ c ∈ p.2.clauses, c.seq < l.seq ∧
      ∃ w ∈ c.words, ∃ n a, w.2 = .actld n a) ∧
    (s.loadBehind core l = true → exec (.actldComplete core) s = .next s)) ∧
  (∀ (s : State) (core : Nat) (l : BankLoad) (r : List BankLoad), (s.core core).loads = l :: r →
    s.loadBehind core l = false → ∃ t, exec (.actldComplete core) s = .next t ∧ (t.core core).loads = r ∧
      (t.core core).bank l.bank = bankOf l.image l.form ∧
      (∀ n, n ≠ l.bank → (t.core core).bank n = (s.core core).bank n))

/-! ## Memory -/

/-- LD reads the checked hall bytes at a + offset × width, through the clause's own stores, or in an expanded view the element
that they make up (R71), and its result is long-latency: zero- or sign-extended, or a pair for .d, the low word in d; in SS the
address is SA and the destinations are s registers. The value is the hall's as the word executes, whenever the result arrives
(the model's choice: log 19). A failing check is its fault, a reserved word its wait, in SS too. -/
def Obligations.LoadsFromTheHall : Prop :=
  (∀ (s : State) (e : Env) (k : LdW) (d a : Reg) (off : BitVec 9) (h : HallRef), openWord s = some e →
    e.hall .load (effAddr (e.reg a) off (ldWidth k)) (ldWidth k) = .ok h →
    exec (.ld k d a off) s = .next (e.after (fun c => c.putLoad k d (e.loadVal h (ldWidth k))))) ∧
  (∀ (s : State) (e : Env) (k : LdW) (d : Fin 384) (a : SSrc) (h : HallRef), openWord s = some e →
    e.hall .load (e.ssrc a) (ldWidth k) = .ok h →
    exec (.ldScalar k d a) s = .next (e.after (fun c => c.putLoadS k d.val (e.loadVal h (ldWidth k))))) ∧
  (∀ (s : State) (e : Env) (k : LdW) (d a : Reg) (off : BitVec 9) (c x : Nat) (v : Word), openWord s = some e →
    e.hall .load (effAddr (e.reg a) off (ldWidth k)) (ldWidth k) = .error (.fault c v x) →
    exec (.ld k d a off) s = .next (e.trapped c v x)) ∧
  (∀ (s t : State) (e : Env) (k : LdW) (d : Fin 384) (a : SSrc) (c x : Nat) (v : Word) (w : Wait), openWord s = some e →
    (e.hall .load (e.ssrc a) (ldWidth k) = .error (.fault c v x) →
      exec (.ldScalar k d a) s = .next (e.trapped c v x)) ∧
    (e.hall .load (e.ssrc a) (ldWidth k) = .error (.wait w t) → exec (.ldScalar k d a) s = .next (e.waiting w t))) ∧
  (∀ (e : Env) (a : Word) (n : Nat), (∀ c v, hallCheck e.fm .load a.toNat n = .error (c, v) →
      e.hall .load a n = .error (.fault c v 0)) ∧
    (∀ h, hallCheck e.fm .load a.toNat n = .ok h →
      ((∃ o ∈ h.span e.fm .load n, e.fm.heldByOther e.k o = true) → e.hall .load a n = .error (.wait .reservation e.s)) ∧
      ((∀ o ∈ h.span e.fm .load n, e.fm.heldByOther e.k o = false) → e.hall .load a n = .ok h))) ∧
  (∀ (s t : State) (e : Env) (k : LdW) (d a : Reg) (off : BitVec 9) (w : Wait), openWord s = some e →
    e.hall .load (effAddr (e.reg a) off (ldWidth k)) (ldWidth k) = .error (.wait w t) →
    exec (.ld k d a off) s = .next (e.waiting w t)) ∧
  (∀ (a : Word) (off : BitVec 9) (n : Nat),
    (effAddr a off n).toNat = (((a.toNat : Int) + off.toInt * n) % 2 ^ 32).toNat) ∧
  (∀ (e : Env) (h : HallRef) (n : Nat), expanded h.seg.fmt = false →
    e.loadVal h n = leNat ((List.range n).map (fun i => seenByte e.fm e.cl.hw (h.sb + (h.rel + i))))) ∧
  (∀ (e : Env) (h : HallRef) (n : Nat), expanded h.seg.fmt = true →
    e.loadVal h n = (elemLoad h.seg.fmt h.seg.geom (fun o => seenByte e.fm e.cl.hw (h.sb + o)) (h.rel / 4)).toNat) ∧
  expandedValues ∧
  (∀ (c : Clause) (n m : Fin 120) (t : Fin 4) (v : Nat) (w : Word),
    let value := fun (dst : LatDst) (w : Word) => ({ tok := none, dst := dst, val := w, kind := .value } : Sys2Proof.Machine.Lat)
    c.putLat (.g n) w = { c with lats := c.lats ++ [value (.g n.val) w] } ∧ c.putLat .z w = c ∧
    c.putLat (.t t) w = { c with temps := SMap.set 0 t.val w c.temps } ∧
    c.putLatS n.val w = { c with lats := c.lats ++ [value (.s n.val) w] } ∧
    (m.val = n.val + 1 → c.putLoad .d (.g n) v = { c with lats := c.lats ++
      [value (.g n.val) (BitVec.ofNat 32 v), value (.g m.val) (BitVec.ofNat 32 (v / 2 ^ 32))] })) ∧
  (∀ (c : Clause) (d v : Nat), c.putLoadS .bi d v = c.putLatS d ((BitVec.ofNat 8 v).signExtend 32) ∧
    c.putLoadS .hi d v = c.putLatS d ((BitVec.ofNat 16 v).signExtend 32) ∧
    c.putLoadS .w d v = c.putLatS d (BitVec.ofNat 32 v) ∧ c.putLoadS .bn d v = c.putLatS d (BitVec.ofNat 32 v) ∧
    c.putLoadS .hn d v = c.putLatS d (BitVec.ofNat 32 v) ∧
    c.putLoadS .d d v = (c.putLatS d (BitVec.ofNat 32 v)).putLatS (d + 1) (BitVec.ofNat 32 (v / 2 ^ 32))) ∧
  (∀ (c : Clause) (d : Reg) (v : Nat), c.putLoad .bi d v = c.putLat d ((BitVec.ofNat 8 v).signExtend 32) ∧
    c.putLoad .hi d v = c.putLat d ((BitVec.ofNat 16 v).signExtend 32) ∧ c.putLoad .w d v = c.putLat d (BitVec.ofNat 32 v) ∧
    c.putLoad .bn d v = c.putLat d (BitVec.ofNat 32 v) ∧ c.putLoad .hn d v = c.putLat d (BitVec.ofNat 32 v) ∧
    c.putLoad .d d v = (c.putLat d (BitVec.ofNat 32 v)).putLat (regSucc d) (BitVec.ofNat 32 (v / 2 ^ 32)))

/-- The checks of a hall access come in the order of R296: a byte outside every segment (0x07, at that byte), alignment,
what the format permits (0x08), an object word that is not loaded (0x09), a poisoned word that is not wholly overwritten
(0x0F), these two at the first such byte. -/
def Obligations.HallAccessChecks : Prop :=
  (∀ (f : Form) (acc : Access) (a n : Nat) (h : HallRef),
    (∀ b, firstOutside f.rcd a n = some b → hallCheck f acc a n = .error (0x07, BitVec.ofNat 32 b)) ∧
    (firstOutside f.rcd a n = none → resolve f.rcd a = some h →
      (a % n ≠ 0 → hallCheck f acc a n = .error (0x08, BitVec.ofNat 32 a)) ∧
      (a % n = 0 → formatPermits h.seg.fmt acc n = false → hallCheck f acc a n = .error (0x08, BitVec.ofNat 32 a)) ∧
      (a % n = 0 → formatPermits h.seg.fmt acc n = true →
        (acc ≠ .load → ∀ o, (h.span f acc n).find? (fun o => decide (f.tag o = .object)) = some o →
          hallCheck f acc a n = .error (0x09, BitVec.ofNat 32 (h.viewOf a o))) ∧
        ((acc = .load ∨ ∀ o ∈ h.span f acc n, f.tag o ≠ .object) →
          (∀ o, (h.span f acc n).find? (fun o => decide (f.tag o = .poisoned) &&
              !(decide (acc = .store) && wholeWord (h.span f acc n) o)) = some o →
            hallCheck f acc a n = .error (0x0F, BitVec.ofNat 32 (h.viewOf a o))) ∧
          ((∀ o ∈ h.span f acc n, f.tag o = .poisoned → acc = .store ∧ wholeWord (h.span f acc n) o = true) →
            hallCheck f acc a n = .ok h))))) ∧
  (∀ (h : HallRef) (a i : Nat), expanded h.seg.fmt = false → h.rel ≤ a → h.viewOf a (h.sb + h.rel + i) = a + i) ∧
  (∀ (r : SMap Word) (a n b : Nat), firstOutside r a n = some b → a ≤ b ∧ b < a + n ∧ (2 ^ 23 ≤ b ∨ findSeg r b = none) ∧
    ∀ x, a ≤ x → x < b → x < 2 ^ 23 ∧ (findSeg r x).isSome = true)

/-- ST buffers one write of its width at a + offset × width, d's bytes lowest address lowest (d and d + 1 for .d), which
marks its words full at commit; an expanded view stores the element instead, at the element's storage bytes alone, converted
as the write is performed, under the scale that its block has then: an integer saturated, a float rounded to BF16, or the
tapered code of the value divided by the scale, of NaN under the scale 255 (R66, R71; log 82). The storing clause itself reads
back the element under the scale that it sees. A failing check is its fault and a reserved word its wait, in SS too. Nothing
else changes before the commit, and no other byte of the hall then. -/
def Obligations.StoresToTheHall : Prop :=
  (∀ (s : State) (e : Env) (k : StW) (d a : Reg) (off : BitVec 9) (h : HallRef), openWord s = some e →
    e.hall .store (effAddr (e.reg a) off (stWidth k)) (stWidth k) = .ok h →
    exec (.st k d a off) s = .next (e.after (fun c => { c with hw := c.hw ++
      [e.storeW h (stWidth k) ((e.reg d).toNat + 2 ^ 32 * (e.reg (regSucc d)).toNat)] }))) ∧
  (∀ (s : State) (e : Env) (k : StW) (d : Fin 384) (a : SSrc) (h : HallRef), openWord s = some e →
    e.hall .store (e.ssrc a) (stWidth k) = .ok h →
    exec (.stScalar k d a) s = .next (e.after (fun c => { c with hw := c.hw ++
      [e.storeW h (stWidth k) ((e.sreg d.val).toNat + 2 ^ 32 * (e.sreg (d.val + 1)).toNat)] }))) ∧
  (∀ (s : State) (e : Env) (k : StW) (c x : Nat) (v : Word), openWord s = some e →
    (∀ (d a : Reg) (off : BitVec 9), e.hall .store (effAddr (e.reg a) off (stWidth k)) (stWidth k) = .error (.fault c v x) →
      exec (.st k d a off) s = .next (e.trapped c v x)) ∧
    (∀ (d : Fin 384) (a : SSrc), e.hall .store (e.ssrc a) (stWidth k) = .error (.fault c v x) →
      exec (.stScalar k d a) s = .next (e.trapped c v x))) ∧
  (∀ (s : State) (e : Env) (k : StW), openWord s = some e →
    (∀ (d a : Reg) (off : BitVec 9) (h : HallRef),
      hallCheck e.fm .store (effAddr (e.reg a) off (stWidth k)).toNat (stWidth k) = .ok h →
      (∃ o ∈ h.span e.fm .store (stWidth k), e.fm.heldByOther e.k o = true) →
      exec (.st k d a off) s = .next (e.waiting .reservation s)) ∧
    (∀ (d : Fin 384) (a : SSrc) (h : HallRef), hallCheck e.fm .store (e.ssrc a).toNat (stWidth k) = .ok h →
      (∃ o ∈ h.span e.fm .store (stWidth k), e.fm.heldByOther e.k o = true) →
      exec (.stScalar k d a) s = .next (e.waiting .reservation s))) ∧
  (∀ (e : Env) (h : HallRef) (n v : Nat), expanded h.seg.fmt = false →
    (e.storeW h n v).addr = h.sb + h.rel ∧ (e.storeW h n v).bytes.length = n ∧ (e.storeW h n v).tag = .full ∧
    (∀ i, i < n → (e.storeW h n v).bytes[i]? = some (BitVec.ofNat 8 (v / 256 ^ i))) ∧
    ∀ f, (e.storeW h n v).data f = (e.storeW h n v).bytes) ∧
  (∀ (e : Env) (h : HallRef) (n v : Nat), expanded h.seg.fmt = true →
    (e.storeW h n v).addr = h.sb + elemOff h.seg.fmt h.seg.geom (h.rel / 4) ∧
    (e.storeW h n v).bytes.length = elemBytes h.seg.fmt ∧ (e.storeW h n v).tag = .full ∧
    (h.seg.fmt = 5 → (e.storeW h n v).bytes = leBytes 1
      (BitVec.ofInt 8 (max (-128) (min 127 (BitVec.ofNat 32 v).toInt))).toNat) ∧
    (h.seg.fmt = 6 → (e.storeW h n v).bytes = leBytes 2
      (BitVec.ofInt 16 (max (-32768) (min 32767 (BitVec.ofNat 32 v).toInt))).toNat) ∧
    (h.seg.fmt = 2 → h.seg.geom = 0 → ∀ (s : Bool) (m : Nat) (x : Int), valOfFP32 (BitVec.ofNat 32 v) = .fin s m x →
      (e.storeW h n v).bytes = leBytes 2 (rnBF16 (.fin s m x))) ∧
    (e.storeW h n v).bytes = (elemStore h.seg.fmt h.seg.geom (fun o => seenByte e.fm e.cl.hw (h.sb + o)) (h.rel / 4)
      (BitVec.ofNat 32 v)).2 ∧
    ∀ f : Form, (e.storeW h n v).data f = (elemStore h.seg.fmt h.seg.geom (fun o => f.byte (h.sb + o)) (h.rel / 4)
      (BitVec.ofNat 32 v)).2) ∧
  (∀ (rd : Bytes) (i : Nat) (w : Word),
    (elemStore 5 0 rd i w).2 = leBytes 1 (BitVec.ofInt 8 (max (-128) (min 127 w.toInt))).toNat ∧
    (elemStore 6 0 rd i w).2 = leBytes 2 (BitVec.ofInt 16 (max (-32768) (min 32767 w.toInt))).toNat ∧
    (elemStore 2 0 rd i w).2 = leBytes 2 (rnBF16 (unscaled 127 (valOfFP32 w))) ∧
    (elemStore 3 0 rd i w).2 = leBytes 1 (encodeT8 (unscaled 127 (valOfFP32 w))) ∧
    (elemStore 4 0 rd i w).2 = leBytes 1 (encodeT6 (unscaled 127 (valOfFP32 w))) ∧
    (∀ g, g ≠ 0 → let n := unitElems 3 g
      let scale := (rd (i / n * (n + 1))).toNat
      (elemStore 3 g rd i w).2 = leBytes 1 (encodeT8 (unscaled scale (valOfFP32 w))) ∧
      (elemStore 4 g rd i w).2 = leBytes 1 (encodeT6 (unscaled scale (valOfFP32 w))) ∧
      (elemStore 3 g rd i w).1 = i / n * (n + 1) + 1 + i % n ∧ (elemStore 4 g rd i w).1 = i / n * (n + 1) + 1 + i % n)) ∧
  (∀ (scale : Nat) (x : Val), (scale = 255 → unscaled scale x = .nan) ∧
    (scale ≠ 255 → ∀ s m k, x = .fin s m k → unscaled scale x = .fin s m (k + (127 - (scale : Int))))) ∧
  (∀ (f : Form) (x : HallW) (i : Nat), SMap.wf 0 f.hall = true → SMap.wf .empty f.tags = true → x.tag = .full →
    i < x.bytes.length →
    some ((f.write x).byte (x.addr + i)) = (x.data f)[i]? ∧ (f.write x).tag (x.addr + i) = .full) ∧
  (∀ (f : Form) (e : Env) (h : HallRef) (n v a : Nat),
    (a < (e.storeW h n v).addr ∨ (e.storeW h n v).addr + (e.storeW h n v).bytes.length ≤ a) →
    (f.write (e.storeW h n v)).byte a = f.byte a)

/-- LDFE of a full word and STFE of an empty one are served oldest first: at once where the word is reserved for the thread,
or where nobody has it reserved and no other thread stands before it in the word's queue. The word is then reserved for the
thread, and at commit it becomes empty, or is written and becomes full; otherwise the thread waits in the queue. STFE first
waits for the matrix stores that its thread has in flight (the model's reading: log 102). A word that
changes its tag, or is reserved no longer, is reserved for the oldest that can be served. -/
def Obligations.FullEmptyAccesses : Prop :=
  (∀ (s : State) (e : Env) (d a : Reg) (off : BitVec 9) (h : HallRef), openWord s = some e → e.i = 0 →
    hallCheck e.fm .atomic (effAddr (e.reg a) off 4).toNat 4 = .ok h →
    let w := (h.sb + h.rel) / 4
    let out := fun (q : WaitKind) => e.fm.waiters.filter (fun x => !(x.thread == e.k && decide (x.kind = q)))
    let first := fun (q : WaitKind) => ∀ x ∈ e.fm.waiters, x.kind = q → (w ∈ x.addrs ↔ x.thread = e.k)
    let behind := fun (q : WaitKind) =>
      ∃ x, e.fm.waiters.find? (fun x => decide (x.kind = q) && x.addrs.contains w) = some x ∧ x.thread ≠ e.k
    let load := fun (t : State) => exec (.ldfe d a off) s = .next (e.afterIn t (fun c =>
      (c.putLat d (BitVec.ofNat 32 (e.rawNat h 4))).store { addr := h.sb + h.rel, bytes := [], tag := .empty }))
    let store := fun (t : State) => e.storesDone = true → exec (.stfe d a off) s = .next (e.afterIn t (fun c =>
      c.store { addr := h.sb + h.rel, bytes := leBytes 4 (e.reg d).toNat, tag := .full }))
    let loadWaits := exec (.ldfe d a off) s = .next (e.waiting .fullEmpty
      (s.modForm e.th.form (fun _ => e.fm.enqueue e.k .ldfe [w] e.cl.seq)))
    let storeWaits := e.storesDone = true → exec (.stfe d a off) s = .next (e.waiting .fullEmpty
      (s.modForm e.th.form (fun _ => e.fm.enqueue e.k .stfe [w] e.cl.seq)))
    ((∀ r ∈ e.fm.resv, r.1 ≠ w) →
      (e.fm.tag (h.sb + h.rel) = .full → first .ldfe →
        load (s.modForm e.th.form (fun _ => { e.fm with resv := e.fm.resv ++ [(w, e.k)], waiters := out .ldfe }))) ∧
      (e.fm.tag (h.sb + h.rel) = .empty → first .stfe →
        store (s.modForm e.th.form (fun _ => { e.fm with resv := e.fm.resv ++ [(w, e.k)], waiters := out .stfe }))) ∧
      (e.fm.tag (h.sb + h.rel) = .full → behind .ldfe → loadWaits) ∧
      (e.fm.tag (h.sb + h.rel) = .empty → behind .stfe → storeWaits)) ∧
    ((w, e.k) ∈ e.fm.resv →
      (e.fm.tag (h.sb + h.rel) = .full → load (s.modForm e.th.form (fun _ => { e.fm with waiters := out .ldfe }))) ∧
      (e.fm.tag (h.sb + h.rel) = .empty → store (s.modForm e.th.form (fun _ => { e.fm with waiters := out .stfe })))) ∧
    ((∃ r ∈ e.fm.resv, r.1 = w) → (w, e.k) ∉ e.fm.resv → loadWaits ∧ storeWaits) ∧
    (e.fm.tag (h.sb + h.rel) ≠ .full → loadWaits) ∧ (e.fm.tag (h.sb + h.rel) ≠ .empty → storeWaits) ∧
    (e.storesDone = false → exec (.stfe d a off) s = .next (e.waiting .fence s))) ∧
  (∀ (f : Form) (w : Nat) (x : Waiter), (∀ r ∈ f.resv, r.1 ≠ w) →
    (f.tag (4 * w) = .full → f.waiters.find? (fun x => decide (x.kind = .ldfe) && x.addrs.contains w) = some x →
      f.serve w = { f with resv := f.resv ++ [(w, x.thread)] }) ∧
    (f.tag (4 * w) = .empty → f.waiters.find? (fun x => decide (x.kind = .stfe) && x.addrs.contains w) = some x →
      f.serve w = { f with resv := f.resv ++ [(w, x.thread)] })) ∧
  (∀ (s : State) (e : Env) (d a : Reg) (off : BitVec 9) (c : Nat) (v : Word), openWord s = some e →
    (e.i ≠ 0 → exec (.ldfe d a off) s = .next (e.waiting .held s) ∧ exec (.stfe d a off) s = .next (e.waiting .held s)) ∧
    (e.i = 0 → hallCheck e.fm .atomic (effAddr (e.reg a) off 4).toNat 4 = .error (c, v) →
      exec (.ldfe d a off) s = .next (e.trapped c v 0) ∧ exec (.stfe d a off) s = .next (e.trapped c v 0)))

/-- ATOM and CAS, once their word is reserved, read it, answer the old value as a long-latency result and buffer the new
one, full: the sum, the least or greatest, the bits, the operand, the rounded FP32 sum; CAS writes b where the word
equals d and the old value elsewhere. A reservation takes the words of the clause's later words too, all at once, once no
other clause holds one and no clause that was dispatched earlier waits for one that the clause does not hold yet; a word
that computes the address of a later one from registers, and depends on no word before it, executes first, so that its words
are among them; a later word whose address stands in a temporary that the clause still writes is reserved when it executes
(the model's choice: log 12). -/
def Obligations.AtomicReadModifyWrite : Prop :=
  (∀ (s t : State) (e : Env) (d a : Reg) (b : Src) (h : HallRef), openWord s = some e → e.i = 0 →
    hallCheck e.fm .atomic (e.reg a).toNat 4 = .ok h → e.reserve [(h.sb + h.rel) / 4] = .ok t →
    let old := BitVec.ofNat 32 (e.rawNat h 4)
    let to_ := fun (v : Word) => e.afterIn t (fun c =>
      (c.putLat d old).store { addr := h.sb + h.rel, bytes := leBytes 4 v.toNat, tag := .full })
    (∀ op, exec (.atom op d a b) s = .next (to_ (atomVal op old (e.src b)))) ∧
    exec (.cas d a b) s = .next (to_ (if old = e.reg d then e.src b else old))) ∧
  (∀ (s t : State) (e : Env) (d a : Reg) (b : Src) (h : HallRef) (w : Wait), openWord s = some e → e.i = 0 →
    hallCheck e.fm .atomic (e.reg a).toNat 4 = .ok h → e.reserve [(h.sb + h.rel) / 4] = .error (.wait w t) →
    (∀ op, exec (.atom op d a b) s = .next (e.waiting w t)) ∧ exec (.cas d a b) s = .next (e.waiting w t)) ∧
  (∀ (s : State) (e : Env) (d a : Reg) (b : Src) (c : Nat) (v : Word), openWord s = some e → e.i = 0 →
    hallCheck e.fm .atomic (e.reg a).toNat 4 = .error (c, v) →
    (∀ op, exec (.atom op d a b) s = .next (e.trapped c v 0)) ∧ exec (.cas d a b) s = .next (e.trapped c v 0)) ∧
  (∀ (s : State) (e : Env) (d a : Reg) (b : Src), openWord s = some e → e.i ≠ 0 →
    (∀ op, exec (.atom op d a b) s = .next (e.waiting .held s)) ∧ exec (.cas d a b) s = .next (e.waiting .held s)) ∧
  (∀ (e : Env) (ws : List Nat),
    let is := e.cl.todo.map (·.2)
    let all := ws ++ e.resvLater (is.take 1) is.tail
    let more := all.filter (fun w => !e.fm.resv.contains (w, e.k))
    let older := ∃ x ∈ e.fm.waiters, x.kind = .reserve ∧ x.thread ≠ e.k ∧ x.seq < e.cl.seq ∧ ∃ w ∈ x.addrs, w ∈ more
    (∀ todo, e.hoist = some todo →
      e.reserve ws = .error (.wait .none (e.upd e.s (fun c => { c with todo := todo })))) ∧
    (e.hoist = none → (∀ w ∈ all, e.fm.heldByOther e.k (4 * w) = false) → ¬ older → e.reserve ws = .ok (e.s.modForm e.th.form (fun f =>
      { f with resv := f.resv ++ more.dedup.map (fun w => (w, e.k)),
               waiters := f.waiters.filter (fun x => !(x.thread == e.k && decide (x.kind = .reserve))) }))) ∧
    (e.hoist = none → (∃ w ∈ all, e.fm.heldByOther e.k (4 * w) = true) ∨ older → e.reserve ws = .error (.wait .reservation
      (e.s.modForm e.th.form (fun f => f.enqueue e.k .reserve all e.cl.seq))))) ∧
  (∀ (e : Env), (∀ todo, e.hoist = some todo → ∃ x a b, e.cl.todo = a ++ x :: b ∧ a ≠ [] ∧ todo = x :: (a ++ b) ∧
      computes x.2 = true ∧ apart x.2 (a.map (·.2)) = true ∧ ∃ y ∈ b, (resvReg y.2).isSome = true) ∧
    ((∀ x ∈ e.cl.todo.tail, computes x.2 = false) → e.hoist = none)) ∧
  (∀ (i : Instr) (ws : List Instr), apart i ws = true ↔ ∀ w ∈ ws, ∀ t : Fin 4,
    (.t t ∈ destRegs w → .t t ∉ readRegs i ∧ .t t ∉ destRegs i) ∧ (.t t ∈ destRegs i → .t t ∉ readRegs w)) ∧
  (∀ (e : Env) (b r : List Instr) (i : Instr), e.resvLater b [] = [] ∧
    (∀ a, resvReg i = some a → ((∀ n, a = .t n → a ∉ b.flatMap destRegs) →
        e.resvLater b (i :: r) = e.resvOf i ++ e.resvLater (b ++ [i]) r) ∧
      (∀ n, a = .t n → a ∈ b.flatMap destRegs → e.resvLater b (i :: r) = e.resvLater (b ++ [i]) r)) ∧
    (resvReg i = none → e.resvLater b (i :: r) = e.resvLater (b ++ [i]) r)) ∧
  (∀ x y : Word, atomVal .addI x y = BitVec.ofNat 32 (x.toNat + y.toNat) ∧
    (atomVal .minI x y).toInt = min x.toInt y.toInt ∧ (atomVal .maxI x y).toInt = max x.toInt y.toInt ∧
    (atomVal .minN x y).toNat = min x.toNat y.toNat ∧ (atomVal .maxN x y).toNat = max x.toNat y.toNat ∧
    atomVal .and x y = x &&& y ∧ atomVal .or x y = x ||| y ∧ atomVal .xor x y = x ^^^ y ∧ atomVal .exch x y = y ∧
    atomVal .fadd x y = (fpAdd .rn x y).1)

/-! ## Cross-lane -/

/-- A cross-lane word whose mask has no bit beyond the bench and its own bit set meets the live members of its mask, and
then answers its function of what they presented in lane order: the shuffled value or fill, the matches, the rank, the
reduction in lane order, the vote; the participants stand in ascending BLANE. Its mask is the one that its clause holds from its dispatch; a clause whose dispatch had to leave it
unread reads it at its first cross-lane word. -/
def Obligations.CrossLaneResults : Prop :=
  (∀ (ms : List Arrival) (x : Arrival), (participants ms x).Pairwise (fun p q => p.1 < q.1) ∧
    ∀ p ∈ participants ms x, p.1 ∈ x.members ∧ ∃ y, arrivalOf ms x p.1 = some y ∧ p.2 = y.a) ∧
  ∀ (s t : State) (e0 e : Env) (a : Reg) (m : Fin 384) (got : List (Nat × Word)), openWord s = some e0 → e = e0.keepMasks →
    maskOk (Rec.width e.fm.rcd) e.th.blane (e.mask m) = true → e.meeting .cross (e.mask m) (e.reg a) = .ok (t, got) →
    let w := Rec.width e.fm.rcd
    let k := e.th.blane
    let val := fun (fill : Reg) (i : Int) => if 0 ≤ i ∧ i < w then (got.lookup i.toNat).getD (e.reg fill) else e.reg fill
    let half := fun (fill : Reg) (x : Int) => (val fill (x / 2)).toNat / (if x % 2 = 0 then 1 else 65536) % 65536
    let own := (got.lookup k).getD 0
    let to_ := fun (d : Reg) (v : Word) => Host.Outcome.next (e.afterIn t (fun c => c.put d v))
    (∀ d b f, exec (.shfl d a b m f) s = to_ d (val f ((e.src b).toNat % w : Nat))) ∧
    (∀ d b f, exec (.slide .upW d a b m f) s = to_ d (val f ((k : Int) - (e.src b).toNat))) ∧
    (∀ d b f, exec (.slide .dnW d a b m f) s = to_ d (val f ((k : Int) + (e.src b).toNat))) ∧
    (∀ d b f, exec (.slide .upH d a b m f) s = to_ d (BitVec.ofNat 32
      (half f (2 * (k : Int) - (e.src b).toNat) + 65536 * half f (2 * (k : Int) + 1 - (e.src b).toNat)))) ∧
    (∀ d b f, exec (.slide .dnH d a b m f) s = to_ d (BitVec.ofNat 32
      (half f (2 * (k : Int) + (e.src b).toNat) + 65536 * half f (2 * (k : Int) + 1 + (e.src b).toNat)))) ∧
    (∀ d b f, exec (.xshfl d a b m f) s = to_ d (val f (k ^^^ (e.src b).toNat : Nat))) ∧
    (∀ d b f, exec (.bcast d a b m f) s = to_ d (val f ((e.src b).toNat : Nat))) ∧
    (∀ d j, (j, own) ∈ got → got.Pairwise (fun p q => p.1 < q.1) → (∀ i, (i, own) ∈ got → j ≤ i) →
      exec (.xmatch d a m) s = to_ d (BitVec.ofNat 32 (j + 256 * (got.filter (fun p => p.2 == own)).length))) ∧
    (∀ d, ∃ v, exec (.xmatch d a m) s = to_ d v) ∧
    (∀ d, exec (.rank d a m) s = to_ d (BitVec.ofNat 32
      ((got.filter (fun p => p.2 != 0 && decide (p.1 < k))).length + 256 * (got.filter (fun p => p.2 != 0)).length))) ∧
    (∀ d, exec (.redx .addI d a m) s = to_ d (BitVec.ofNat 32 (got.map (·.2.toNat)).sum)) ∧
    (∀ d, ∃ v : Word, exec (.redx .minI d a m) s = to_ d v ∧
      (got ≠ [] → v ∈ got.map (·.2)) ∧ ∀ p ∈ got, v.toInt ≤ p.2.toInt) ∧
    (∀ d, ∃ v : Word, exec (.redx .maxI d a m) s = to_ d v ∧
      (got ≠ [] → v ∈ got.map (·.2)) ∧ ∀ p ∈ got, p.2.toInt ≤ v.toInt) ∧
    (∀ d, exec (.redx .fadd d a m) s = to_ d ((got.map (·.2)).foldl (fun t v => (fpAdd .rn t v).1) 0)) ∧
    (∀ d, exec (.vote .any d a m) s = to_ d (if got.any (fun p => p.2 != 0) then 1 else 0)) ∧
    (∀ d, exec (.vote .all d a m) s = to_ d (if got.all (fun p => p.2 != 0) then 1 else 0)) ∧
    (∀ d, exec (.vote .bal d a m) s = .next (e.afterIn t (fun c =>
      (c.put d (BitVec.ofNat 32 (ballot got))).put (regSucc d) (BitVec.ofNat 32 (ballot got / 2 ^ 32)))))

/-- A mask with a bit at or above BWIDTH, or without the thread's own bit, faults with cause 0x15; JOIN meets every live
thread of its bench, and waits for them; a meeting is full as soon as, and only when, each of its members has arrived or is
not live. A
clause whose dispatch read the masks keeps them. -/
def Obligations.MeetingsAndMasks : Prop :=
  (∀ (s : State) (e0 e : Env) (d a : Reg) (b : Src) (m : Fin 384) (f : Reg), openWord s = some e0 → e = e0.keepMasks →
    (2 ^ Rec.width e.fm.rcd ≤ (e.mask m).toNat ∨ (e.mask m).getLsbD e.th.blane = false) →
    exec (.shfl d a b m f) s = .next (e.trapped 0x15 0 0) ∧ exec (.xmatch d a m) s = .next (e.trapped 0x15 0 0) ∧
    exec (.rank d a m) s = .next (e.trapped 0x15 0 0) ∧ exec (.xshfl d a b m f) s = .next (e.trapped 0x15 0 0) ∧
    exec (.bcast d a b m f) s = .next (e.trapped 0x15 0 0) ∧
    (∀ op, exec (.slide op d a b m f) s = .next (e.trapped 0x15 0 0)) ∧
    (∀ op, exec (.redx op d a m) s = .next (e.trapped 0x15 0 0)) ∧
    (∀ op, exec (.vote op d a m) s = .next (e.trapped 0x15 0 0))) ∧
  (∀ (s t : State) (e0 e : Env) (d a : Reg) (b : Src) (m : Fin 384) (f : Reg) (w : Wait), openWord s = some e0 →
    e = e0.keepMasks → maskOk (Rec.width e.fm.rcd) e.th.blane (e.mask m) = true →
    e.meeting .cross (e.mask m) (e.reg a) = .error (.wait w t) →
    exec (.shfl d a b m f) s = .next (e.waiting w t) ∧ exec (.xmatch d a m) s = .next (e.waiting w t) ∧
    exec (.rank d a m) s = .next (e.waiting w t) ∧ exec (.xshfl d a b m f) s = .next (e.waiting w t) ∧
    exec (.bcast d a b m f) s = .next (e.waiting w t) ∧ (∀ op, exec (.slide op d a b m f) s = .next (e.waiting w t)) ∧
    (∀ op, exec (.redx op d a m) s = .next (e.waiting w t)) ∧ (∀ op, exec (.vote op d a m) s = .next (e.waiting w t))) ∧
  (∀ (s t : State) (e : Env) (got : List (Nat × Word)), openWord s = some e →
    e.meeting .join (BitVec.ofNat 64 (2 ^ Rec.width e.fm.rcd - 1)) 0 = .ok (t, got) →
    exec .join s = .next (e.finish t)) ∧
  (∀ (s t : State) (e : Env) (w : Wait), openWord s = some e →
    e.meeting .join (BitVec.ofNat 64 (2 ^ Rec.width e.fm.rcd - 1)) 0 = .error (.wait w t) →
    exec .join s = .next (e.waiting w t)) ∧
  (∀ (s : State) (fid : Nat) (f : Form) (b : Nat) (ms : List Arrival) (x : Arrival),
    ((∀ m ∈ x.members, s.laneLive fid f b m = false ∨ (arrivalOf ms x m).isSome = true) →
      s.meetingFull fid f b ms x = true) ∧
    (∀ m ∈ x.members, s.laneLive fid f b m = true → arrivalOf ms x m = none → s.meetingFull fid f b ms x = false)) ∧
  (∀ e : Env, e.cl.masks ≠ [] → e.keepMasks = e)

/-! ## Control -/

/-- The branches set the clause's next PC, in words from its header: BRA always, BRZ and BRNZ by a, BRX by b modulo 2^32
within the header's upper bits, CALL with the address after the clause in its link pair, RET to its pair with the low bits
cleared. -/
def Obligations.Branches : Prop :=
  let jump := fun (off : BitVec 19) (c : Clause) => { c with next := c.va + BitVec.ofInt 56 (4 * off.toInt) }
  (∀ off, completes (.bra off) (fun _ c => jump off c)) ∧
  (∀ a off, completes (.brz a off) (fun e c => if e.reg a = 0 then jump off c else c)) ∧
  (∀ a off, completes (.brnz a off) (fun e c => if e.reg a = 0 then c else jump off c)) ∧
  (∃ f : VAddr → Word → VAddr,
    (∀ va b, (f va b).toNat / 2 ^ 32 = va.toNat / 2 ^ 32 ∧ (f va b).toNat % 2 ^ 32 = (va.toNat + 4 * b.toNat) % 2 ^ 32) ∧
    ∀ b, completes (.brx b) (fun e c => { c with next := f c.va (e.src b) })) ∧
  (∀ (gl : Fin 120) (off : BitVec 19), completes (.call gl off) (fun _ c =>
    let link := c.va + BitVec.ofInt 56 (4 * (1 + (c.hdr.count : Int)))
    { c with next := c.va + BitVec.ofInt 56 (4 * off.toInt),
             gw := (gl.val + 1, BitVec.ofNat 32 (link.toNat / 2 ^ 32)) :: (gl.val, BitVec.ofNat 32 link.toNat) :: c.gw })) ∧
  (∃ f : Word → Word → VAddr, (∀ lo hi, (f lo hi).toNat = hi.toNat % 2 ^ 24 * 2 ^ 32 + lo.toNat / 4 * 4) ∧
    ∀ g : Fin 120, completes (.ret g) (fun e c => { c with next := f (e.g g.val) (e.g (g.val + 1)) }))

/-- NOP does nothing, YIELD and EXIT act at commit, FENCE and EXIT wait for the earlier clauses, EXIT also for every
outstanding result, a FENCE that acquires for the earlier loads and one that releases for the matrix writes that its thread
has in flight; SLEEP of 0 does nothing and of n waits n cycles of its cluster's clock. -/
def Obligations.WaitingAndLeaving : Prop :=
  completes .nop (fun _ c => c) ∧ completes .yield (fun _ c => { c with acts := c.acts ++ [.yield] }) ∧
  (∀ e : Env, e.storesDone = true ↔
    ∀ c ∈ e.fm.ctxs, ∀ x ∈ c.ops, storesMemory x.ins = true → ∀ l ∈ e.th.lats, l.kind ≠ .matrix x.id) ∧
  (∀ (s : State) (e : Env), openWord s = some e →
    (e.i = 0 → ∀ o sc, (o = .rel ∨ ∀ l ∈ e.th.lats, l.kind ≠ .value) →
      (o = .acq ∨ ∀ c ∈ e.fm.ctxs, ∀ x ∈ c.ops, storesMemory x.ins = true → ∀ l ∈ e.th.lats, l.kind ≠ .matrix x.id) →
      exec (.fence o sc) s = .next (e.after (fun c => c))) ∧
    (e.i = 0 → ∀ o sc, o ≠ .rel → (∃ l ∈ e.th.lats, l.kind = .value) →
      exec (.fence o sc) s = .next (e.waiting .fence s)) ∧
    (e.i = 0 → ∀ o sc, o ≠ .acq →
      (∃ c ∈ e.fm.ctxs, ∃ x ∈ c.ops, storesMemory x.ins = true ∧ ∃ l ∈ e.th.lats, l.kind = .matrix x.id) →
      exec (.fence o sc) s = .next (e.waiting .fence s)) ∧
    (e.i ≠ 0 → (∀ o sc, exec (.fence o sc) s = .next (e.waiting .held s)) ∧
      exec .exit s = .next (e.waiting .held s)) ∧
    (e.i = 0 → e.th.lats = [] → exec .exit s = .next (e.after (fun c => { c with acts := c.acts ++ [.exit] }))) ∧
    (e.i = 0 → e.th.lats ≠ [] → exec .exit s = .next (e.waiting .drain s)) ∧
    (∀ b, let now := (s.cluster e.fm.cluster).cyc
      (∀ till, e.cl.wait = .sleep till → till ≤ now → exec (.sleep b) s = .next (e.after (fun c => c))) ∧
      (∀ till, e.cl.wait = .sleep till → now < till → exec (.sleep b) s = .next (e.waiting (.sleep till) s)) ∧
      ((∀ till, e.cl.wait ≠ .sleep till) → e.src b = 0 → exec (.sleep b) s = .next (e.after (fun c => c))) ∧
      ((∀ till, e.cl.wait ≠ .sleep till) → e.src b ≠ 0 →
        exec (.sleep b) s = .next (e.waiting (.sleep (now + 32 * (e.src b).toNat)) s))))

/-- PLACE, GROW and SHRINK check the window, the allotments and the lane's register file; each acts at commit, GROW answers
the new allotment at once, and a GROW that its lane has no room for, or that an older one waits before, waits; what a clause
has written to a register that its SHRINK releases is lost, so that a later GROW delivers it as 0; a PLACE or a SHRINK of a
register whose result is outstanding waits for it. -/
def Obligations.RegisterWindow : Prop :=
  ∀ (s : State) (e : Env) (m : SMap Place) (w : Nat), openWord s = some e → pendingMap e.th e.cl.acts = (m, w) →
    (∀ (g : Fin 120) (p : Place), e.i = 0 → g.val < w → e.th.quiet g.val (g.val + 1) = true →
      (SMap.get .lane g.val m = p ∨ p = .lane ∨ countAt m w p < allotOf e.fm.rcd p) →
      exec (.place g p) s = .next (e.after (fun c => { c with acts := c.acts ++ [.place g.val p] }))) ∧
    (∀ (g : Fin 120) (p : Place), w ≤ g.val → exec (.place g p) s = .next (e.trapped 0x06 0 0)) ∧
    (∀ (g : Fin 120) (p : Place), e.i = 0 → g.val < w → e.th.quiet g.val (g.val + 1) = true →
      SMap.get .lane g.val m ≠ p → p ≠ .lane → allotOf e.fm.rcd p ≤ countAt m w p →
      exec (.place g p) s = .next (e.trapped 0x06 0 0)) ∧
    (∀ (d : Reg) (n : Src), let b := (e.src n).toNat
      b ≠ 0 → b % 8 = 0 → w + b ≤ 120 →
      s.laneUsed e.th.core e.th.lane + b ≤ 1792 →
      (∀ since, e.cl.wait = .grow since → s.olderGrow e.th.core e.th.lane since e.k = false) →
      ((∀ since, e.cl.wait ≠ .grow since) → s.olderGrow e.th.core e.th.lane s.clock e.k = false) →
      exec (.grow d n) s = .next (e.after (fun c =>
        let c1 := c.put d (BitVec.ofNat 32 (w + b))
        { c1 with acts := c1.acts ++ [.grow b] }))) ∧
    (∀ (d : Reg) (n : Src), let b := (e.src n).toNat
      b ≠ 0 → b % 8 = 0 → w + b ≤ 120 → 1792 < s.laneUsed e.th.core e.th.lane + b → (∀ since, e.cl.wait ≠ .grow since) →
      exec (.grow d n) s = .next (e.waiting (.grow s.clock) s)) ∧
    (∀ (d : Reg) (n : Src), ((e.src n).toNat = 0 ∨ (e.src n).toNat % 8 ≠ 0 ∨ 120 < w + (e.src n).toNat) →
      exec (.grow d n) s = .next (e.trapped 0x04 0 0)) ∧
    (∀ n : Src, let b := (e.src n).toNat
      b ≠ 0 → b % 8 = 0 → 8 + b ≤ w → e.i = 0 → e.th.quiet (w - b) w = true →
      exec (.shrink n) s = .next (e.after (fun c =>
        let c1 := c.lose (w - b) w
        { c1 with acts := c1.acts ++ [.shrink b] }))) ∧
    (∀ (lo hi : Nat) (c : Clause), { c.lose lo hi with gw := c.gw, acts := c.acts } = c ∧
      (c.lose lo hi).gw = c.gw.map (fun p => (p.1, if lo ≤ p.1 ∧ p.1 < hi then 0 else p.2)) ∧
      (c.lose lo hi).acts = c.acts.map (·.lose lo hi)) ∧
    (∀ (lo hi id slot n va : Nat) (held : Bool) (img : List Word) (pte : BitVec 64),
      let d := if lo ≤ n ∧ n < hi then none else some n
      (CommitAct.arrive id slot (some n) held).lose lo hi = .arrive id slot d held ∧
      (CommitAct.launch img va pte slot (some n)).lose lo hi = .launch img va pte slot d) ∧
    (∀ n : Src, ((e.src n).toNat = 0 ∨ (e.src n).toNat % 8 ≠ 0 ∨ w < 8 + (e.src n).toNat) →
      exec (.shrink n) s = .next (e.trapped 0x04 0 0)) ∧
    (∀ (g : Fin 120) (p : Place), g.val < w → e.i ≠ 0 → exec (.place g p) s = .next (e.waiting .held s)) ∧
    (∀ (g : Fin 120) (p : Place), g.val < w → e.i = 0 → e.th.quiet g.val (g.val + 1) = false →
      exec (.place g p) s = .next (e.waiting .drain s)) ∧
    (∀ n : Src, let b := (e.src n).toNat
      b ≠ 0 → b % 8 = 0 → 8 + b ≤ w → (e.i ≠ 0 → exec (.shrink n) s = .next (e.waiting .held s)) ∧
        (e.i = 0 → e.th.quiet (w - b) w = false → exec (.shrink n) s = .next (e.waiting .drain s))) ∧
    (∀ (d : Reg) (n : Src) (since : Nat), let b := (e.src n).toNat
      b ≠ 0 → b % 8 = 0 → w + b ≤ 120 → e.cl.wait = .grow since →
      (1792 < s.laneUsed e.th.core e.th.lane + b ∨ s.olderGrow e.th.core e.th.lane since e.k = true) →
      exec (.grow d n) s = .next (e.waiting (.grow since) s)) ∧
    (∀ lo hi, e.th.quiet lo hi = true ↔ ∀ l ∈ e.th.lats, ∀ n, l.dst = .g n → n < lo ∨ hi ≤ n)

/-- RDSR reads every special register, once the earlier clauses have committed: where the thread stands, its form, stage, role
and cluster, the clock, whose high half CLOCKHI reads as CLOCKLO last captured it, the pass count, NS, the trap registers,
the next refresh window of its die, PRIO, SHED and ALLOT. WRSR writes NS or, below 128, PRIO at commit, and faults with cause
0x04 on a PRIO of 128 or more. -/
def Obligations.SpecialRegisters : Prop :=
  (∀ (s : State) (e : Env) (d : Reg) (r : Fin 26), openWord s = some e → e.i = 0 →
    exec (.rdsr d r) s = .next (e.after (fun c =>
      let c1 := c.put d (e.special r.val)
      if r.val = 13 then { c1 with acts := c1.acts ++ [.clk (BitVec.ofNat 64 s.clock)] } else c1))) ∧
  (∀ (s : State) (e : Env) (d : Reg) (r : Fin 26), openWord s = some e → e.i ≠ 0 →
    exec (.rdsr d r) s = .next (e.waiting .held s)) ∧
  (∀ (s : State) (e : Env) (b : Src), openWord s = some e →
    exec (.wrsr .ns b) s = .next (e.after (fun c => { c with acts := c.acts ++ [.wrNs ((e.src b).truncate 5)] })) ∧
    ((e.src b).toNat < 128 → exec (.wrsr .prio b) s = .next (e.after (fun c =>
      { c with acts := c.acts ++ [.wrPrio (e.src b).toNat] }))) ∧
    (128 ≤ (e.src b).toNat → exec (.wrsr .prio b) s = .next (e.trapped 0x04 0 0))) ∧
  (∀ e : Env, let lit := fun (n : Nat) => BitVec.ofNat 32 n
    let r := e.fm.rcd
    [e.special 0, e.special 1, e.special 2, e.special 3, e.special 4] =
      [lit e.th.tid, lit e.th.lane, lit e.th.bench, lit e.th.blane, lit (Rec.width r)] ∧
    e.special 5 = lit (e.fm.lin % Rec.gx r) ∧ e.special 6 = lit (e.fm.lin / Rec.gx r % Rec.gy r) ∧
    e.special 7 = lit (e.fm.lin / Rec.gx r / Rec.gy r) ∧
    e.special 8 = lit (Rec.stage r e.th.bench) ∧ e.special 9 = lit (Rec.role r e.th.bench) ∧
    e.special 10 = lit (e.th.core % 8) ∧
    e.special 11 = lit e.fm.cluster ∧ e.special 12 = lit (e.fm.cluster / 16) ∧ e.special 13 = lit e.s.clock ∧
    ((∀ a ∈ e.cl.acts, ∀ v, a ≠ .clk v) → e.special 14 = lit (e.th.clk.toNat / 2 ^ 32)) ∧
    (∀ (xs ys : List CommitAct) (v : BitVec 64), e.cl.acts = xs ++ .clk v :: ys → (∀ a ∈ ys, ∀ u, a ≠ .clk u) →
      e.special 14 = lit (v.toNat / 2 ^ 32)) ∧
    e.special 15 = lit (max (max (e.s.cluster e.fm.cluster).thermal.passes (e.s.cluster e.fm.cluster).group.passes)
      e.s.package.pos.passes) ∧
    e.special 16 = e.th.ns.zeroExtend 32 ∧
    [e.special 17, e.special 18, e.special 19, e.special 20, e.special 21] =
      [e.th.tcause, e.th.tpc, e.th.tpchi, e.th.tinfo, e.th.taddr] ∧
    e.special 22 = wsrsOf e.s.clock (e.s.die (e.fm.cluster / 16)).double ∧ e.special 23 = lit e.fm.prio ∧
    (e.fm.prio < 128 → e.fm.level < 8 → (e.special 24).toNat =
      (if e.fm.shed then 128 else 0) + e.fm.prio / 16 * 16 + e.fm.level) ∧
    (e.th.w ≤ 120 → (e.special 25).toNat =
      e.th.w * 2 ^ 24 + Rec.allotCore r * 2 ^ 16 + Rec.allotCluster r * 2 ^ 8 + Rec.allotPier r)) ∧
  (∀ (clock : Nat) (double : Bool),
    let n := (wsrsOf clock double).toNat % 2 ^ 16
    let b := (wsrsOf clock double).toNat / 2 ^ 27
    let opens := fun (b t : Nat) => t % 40000 = 640 * b ∨ (double = true ∧ t % 40000 = (20000 + 640 * b) % 40000)
    (wsrsOf clock double).toNat / 2 ^ 26 % 2 = (if double then 1 else 0) ∧
    (wsrsOf clock double).toNat / 2 ^ 16 % 2 ^ 10 = 0 ∧ 1 ≤ n ∧ n ≤ 40000 ∧ b < 32 ∧ opens b (clock + n) ∧
    (∀ k c, 1 ≤ k → k < n → c < 32 → ¬ opens c (clock + k)))

/-- BIND records, at commit, a checked range with its guard, and a failing check of its channel, its size, its range or its
guard's address is its fault; CWAIT waits until the bits of b
are set in a word of a bitmap, CTEST answers whether they are; LAUNCH offers a checked node image at commit and answers 1
when it may be inserted, and 0 for a VA that is not 128-byte aligned or is 2^56 or more (this the model's choice: log 108), for a weight-load node, and for a place
that is not writable HBM; it waits for the thread's copies, for the image's words, for the translation, and where a page or
an atom holds back the insertion. -/
def Obligations.LaunchBindAndChunks : Prop :=
  (∀ (s : State) (e : Env) (a guard : Reg) (b : Src) (idx : BitVec 8) (g : Seg), openWord s = some e →
    findSeg e.fm.rcd (e.reg a).toNat = some g → (e.reg a).toNat < 2 ^ 23 → (e.src b).toNat ≠ 0 →
    (e.reg a).toNat + (e.src b).toNat ≤ g.base + g.extent → (e.reg a).toNat % 4 = 0 → (e.src b).toNat % 4 = 0 →
    let to_ := fun (k : GKind) => Host.Outcome.next (e.after (fun c => { c with acts := c.acts ++
      [.bind { lo := (e.reg a).toNat, hi := (e.reg a).toNat + (e.src b).toNat, kind := k, guard := e.reg guard,
               idx := idx }] }))
    exec (.bind a b guard .none idx) s = to_ .none ∧
    (∀ c, capCheck e.fm.rcd (e.reg guard).toNat s.counterOk = .ok c → exec (.bind a b guard .chbar idx) s = to_ .chbar) ∧
    (∀ k, k ≠ .none → k ≠ .chbar → (e.reg guard).toNat < 2 ^ 23 → (findSeg e.fm.rcd (e.reg guard).toNat).isSome = true →
      (e.reg guard).toNat % 4 = 0 → exec (.bind a b guard k idx) s = to_ k)) ∧
  (∀ (s : State) (e : Env) (a guard : Reg) (b : Src) (idx : BitVec 8) (k : GKind), openWord s = some e →
    (k = .chbar → capCheck e.fm.rcd (e.reg guard).toNat s.counterOk = .error (.fault 0x0A 0 0) →
      exec (.bind a b guard k idx) s = .next (e.trapped 0x0A 0 0)) ∧
    ((k = .chbar → ∃ c, capCheck e.fm.rcd (e.reg guard).toNat s.counterOk = .ok c) →
      (e.src b = 0 → exec (.bind a b guard k idx) s = .next (e.trapped 0x04 0 0)) ∧
      (e.src b ≠ 0 →
        (findSeg e.fm.rcd (e.reg a).toNat = none ∨ 2 ^ 23 ≤ (e.reg a).toNat →
          exec (.bind a b guard k idx) s = .next (e.trapped 0x07 (e.reg a) 0)) ∧
        (∀ g, findSeg e.fm.rcd (e.reg a).toNat = some g → (e.reg a).toNat < 2 ^ 23 →
          (g.base + g.extent < (e.reg a).toNat + (e.src b).toNat →
            exec (.bind a b guard k idx) s = .next (e.trapped 0x07 (BitVec.ofNat 32 (g.base + g.extent)) 0)) ∧
          ((e.reg a).toNat + (e.src b).toNat ≤ g.base + g.extent →
            ((e.reg a).toNat % 4 ≠ 0 ∨ (e.src b).toNat % 4 ≠ 0 →
              exec (.bind a b guard k idx) s = .next (e.trapped 0x08 (e.reg a) 0)) ∧
            ((e.reg a).toNat % 4 = 0 → (e.src b).toNat % 4 = 0 → k ≠ .none → k ≠ .chbar →
              ((2 ^ 23 ≤ (e.reg guard).toNat ∨ findSeg e.fm.rcd (e.reg guard).toNat = none) →
                exec (.bind a b guard k idx) s = .next (e.trapped 0x07 (e.reg guard) 0)) ∧
              ((e.reg guard).toNat < 2 ^ 23 → (findSeg e.fm.rcd (e.reg guard).toNat).isSome = true →
                (e.reg guard).toNat % 4 ≠ 0 → exec (.bind a b guard k idx) s = .next (e.trapped 0x08 (e.reg guard) 0)))))))) ∧
  (∀ (s : State) (e : Env) (n : Fin 8) (d a : Reg) (b : Src) (o : Nat), openWord s = some e →
    objAt e.fm .bitmap (e.reg a).toNat 32 32 true = .ok o →
    let ok := e.fm.word (o + 4 * n.val) &&& e.src b == e.src b
    exec (.ctest n d a b) s = .next (e.after (fun c => c.put d (if ok then 1 else 0))) ∧
    (ok = true → exec (.cwait n a b) s = .next (e.after (fun c => c))) ∧
    (ok = false → exec (.cwait n a b) s = .next (e.waiting .chunk s))) ∧
  (∀ (s : State) (e : Env) (n : Fin 8) (d a : Reg) (b : Src) (c : Nat) (x : Word), openWord s = some e →
    objAt e.fm .bitmap (e.reg a).toNat 32 32 true = .error (c, x) →
    exec (.ctest n d a b) s = .next (e.trapped c x 0) ∧ exec (.cwait n a b) s = .next (e.trapped c x 0)) ∧
  (∀ (s : State) (e : Env) (d a : Reg) (b : Fin 120) (h : HallRef), openWord s = some e →
    objCheck e.fm (e.reg a).toNat 128 128 false = .ok h →
    let out := exec (.launch d a b) s
    let img := (List.range 32).map (fun i => seenWord e.fm e.cl.hw (h.sb + h.rel + 4 * i))
    let va := e.pair b.val % 2 ^ 64
    (e.i ≠ 0 → out = .next (e.waiting .held s)) ∧
    (e.i = 0 → s.copiesDone e.fm.cluster e.k = false → out = .next (e.waiting .drain s)) ∧
    (e.i = 0 → s.copiesDone e.fm.cluster e.k = true →
      ((∃ i, i < 32 ∧ e.fm.heldByOther e.k (h.sb + h.rel + 4 * i) = true) → out = .next (e.waiting .reservation s)) ∧
      ((∀ i, i < 32 → e.fm.heldByOther e.k (h.sb + h.rel + 4 * i) = false) →
        ((va % 128 ≠ 0 ∨ 2 ^ 56 ≤ va ∨ imgKind img = 2) → out = .next (e.after (fun c => c.put d 0))) ∧
        (va % 128 = 0 → va < 2 ^ 56 → imgKind img ≠ 2 →
          (∀ t, s.xlat1 e.th.core e.fm.ctx va .probe = (t, none) → out = .next (e.waiting .fetch t)) ∧
          (∀ t p, s.xlat1 e.th.core e.fm.ctx va .probe = (t, some p) →
            ((pteType p.pte ≠ 0 ∨ pteWr p.pte = false) → out = .next (e.after (fun c => c.put d 0))) ∧
            (pteType p.pte = 0 → pteWr p.pte = true →
              (e.launched.launchWait e.fm.ctx va p.pte img = none → out = .next (e.afterIn t (fun c =>
                let c1 := c.put d (if e.launched.launchable e.fm.ctx img then 1 else 0)
                { c1 with acts := c1.acts ++ [.launch img va p.pte c.gw.length (gOf d)] }))) ∧
              (e.launched.launchWait e.fm.ctx va p.pte img = some none → out = .next (e.waiting .fetch t)) ∧
              (∀ v, e.launched.launchWait e.fm.ctx va p.pte img = some (some v) →
                out = .next (e.waiting .fetch (t.pause e.fm.ctx v))))))))) ∧
  (∀ (s : State) (ctx va : Nat) (pte : BitVec 64) (img : List Word), s.recordHeld ctx img = false →
    (s.launchable ctx img = false → s.launchWait ctx va pte img = none) ∧
    (s.launchable ctx img = true → writable pte = false → s.launchWait ctx va pte img = some (some va))) ∧
  (∀ (s : State) (e : Env) (d a : Reg) (b : Fin 120) (c : Nat) (x : Word), openWord s = some e →
    objCheck e.fm (e.reg a).toNat 128 128 false = .error (c, x) → exec (.launch d a b) s = .next (e.trapped c x 0))

/-- SAVEP writes the place's area, with its identity, W, NS, the token counts, the place map, the trap registers and the
registers of the place, to a checked range, once the earlier clauses have committed and no result is outstanding but a frozen
context's; LOADP reads an area of its place and writes those registers back, and for the lane's area, at commit, NS, the
token counts, the place map and the trap registers; a failing check of the range, a wrong identity, place or W, a place map
beyond the allotments and a wrong count of registers fault. LOADP takes each token count modulo 64, and checks the extent that
the area's own count of registers gives (the model's readings: log 48, log 98). -/
def Obligations.SaveAndRestoreAreas : Prop :=
  (∀ (s : State) (e : Env) (p : Place) (a : Reg), openWord s = some e →
    let n := (regsAt e.th.place e.th.w p).length
    let out := exec (.savep p a) s
    (e.i ≠ 0 → out = .next (e.waiting .held s)) ∧
    (e.i = 0 →
      (∀ c x, objCheck e.fm (e.reg a).toNat (128 + 4 * n) 4 false = .error (c, x) → out = .next (e.trapped c x 0)) ∧
      (∀ h, objCheck e.fm (e.reg a).toNat (128 + 4 * n) 4 false = .ok h →
        (e.th.lats = [] ∨ (e.th.lats.all Lat.isMatrix = true ∧ (e.fm.mctx (e.fm.fcOf e.th.core)).frozen.isSome = true) →
          out = .next (e.after (fun c => { c with hw := c.hw ++
            [{ addr := h.sb + h.rel, bytes := (e.saveArea p).flatMap (fun w => leBytes 4 w.toNat), tag := .full }] }))) ∧
        ((∃ l ∈ e.th.lats, l.isMatrix = false) → out = .next (e.waiting .drain s)) ∧
        (e.th.lats ≠ [] → (e.fm.mctx (e.fm.fcOf e.th.core)).frozen = none → out = .next (e.waiting .drain s))))) ∧
  (∀ (e : Env) (p : Place), let at_ := fun (k : Nat) => (e.saveArea p).getD k 0
    (e.saveArea p).length = 32 + (regsAt e.th.place e.th.w p).length ∧
    at_ 0 = BitVec.ofNat 32 (0x10000 + p.code * 256 + (regsAt e.th.place e.th.w p).length) ∧
    at_ 1 = BitVec.ofNat 32 e.th.w ∧ at_ 2 = e.th.ns.zeroExtend 32 ∧ at_ 3 = 0 ∧
    (∀ t : Fin 6, at_ (4 + t.val) = BitVec.ofNat 32 (e.th.lats.filter (fun l => decide (l.tok = some t))).length) ∧
    at_ 10 = 0 ∧ at_ 11 = 0 ∧
    (∀ n, n < 128 → (at_ (12 + n / 16)).toNat / 4 ^ (n % 16) % 4 = (SMap.get .lane n e.th.place).code) ∧
    at_ 20 = e.th.tcause ∧ at_ 21 = e.th.tpc ∧ at_ 22 = e.th.tpchi ∧ at_ 23 = e.th.tinfo ∧ at_ 24 = e.th.taddr ∧
    (∀ k, 25 ≤ k → k < 32 → at_ k = 0) ∧
    (∀ i n, (regsAt e.th.place e.th.w p)[i]? = some n → at_ (32 + i) = e.g n)) ∧
  (∀ (s : State) (e : Env) (p : Place) (a : Reg), openWord s = some e →
    let out := exec (.loadp p a) s
    (e.i ≠ 0 → out = .next (e.waiting .held s)) ∧
    (e.i = 0 →
      (∀ c x d, e.rawImage (e.reg a) 128 4 false = .error (.fault c x d) → out = .next (e.trapped c x d)) ∧
      (∀ w t, e.rawImage (e.reg a) 128 4 false = .error (.wait w t) → out = .next (e.waiting w t)) ∧
      (∀ hd, e.rawImage (e.reg a) 128 4 false = .ok hd →
        let n := (hd.getD 0 0).toNat % 256
        (∀ c x d, e.rawImage (e.reg a) (128 + 4 * n) 4 false = .error (.fault c x d) → out = .next (e.trapped c x d)) ∧
        (∀ w t, e.rawImage (e.reg a) (128 + 4 * n) 4 false = .error (.wait w t) → out = .next (e.waiting w t)) ∧
        (∀ area, e.rawImage (e.reg a) (128 + 4 * n) 4 false = .ok area →
          let id := (area.getD 0 0).toNat
          let m := if p = .lane then areaPlaces area else e.th.place
          let rs := regsAt m e.th.w p
          (id / 65536 ≠ 1 → out = .next (e.trapped 0x12 0 0)) ∧
          (id / 65536 = 1 → id / 256 % 256 ≠ p.code → out = .next (e.trapped 0x04 0 0)) ∧
          (id / 65536 = 1 → id / 256 % 256 = p.code →
            (p = .lane → area.getD 1 0 ≠ BitVec.ofNat 32 e.th.w → out = .next (e.trapped 0x04 0 0)) ∧
            ((p = .lane → area.getD 1 0 = BitVec.ofNat 32 e.th.w) →
              (p = .lane → mapOk e.fm.rcd e.th.w m = false → out = .next (e.trapped 0x06 0 0)) ∧
              ((p = .lane → mapOk e.fm.rcd e.th.w m = true) →
                (n ≠ rs.length → out = .next (e.trapped 0x04 0 0)) ∧
                (n = rs.length → out = .next (e.after (fun c => { c with
                  gw := (rs.zipIdx.map (fun (x : Nat × Nat) => (x.1, area.getD (32 + x.2) 0))).reverse ++ c.gw,
                  acts := c.acts ++ [.loadp p area] })))))))))) ∧
  (∀ (s : State) (k f : Nat) (gw : List (Nat × Word)) (th : Thread) (fm : Form) (p : Place) (area : List Word),
    Tab.find? k s.threads = some th → Tab.find? f s.forms = some fm →
    ∃ u, Tab.find? k (s.doAct k f gw (.loadp p area)).1.threads = some u ∧ (s.doAct k f gw (.loadp p area)).2 = gw ∧
      { (s.doAct k f gw (.loadp p area)).1 with threads := s.threads } = s ∧
      (p ≠ .lane → u = th) ∧
      (p = .lane → let wd := fun (k : Nat) => area.getD k 0;
        { u with place := th.place, ns := th.ns, lats := th.lats, tcause := th.tcause, tpc := th.tpc, tpchi := th.tpchi,
                 tinfo := th.tinfo, taddr := th.taddr } = th ∧
        u.ns = (wd 2).truncate 5 ∧ u.tcause = wd 20 &&& 0x1F ∧ u.tpc = wd 21 ∧ u.tpchi = wd 22 &&& 0xFFFFFF ∧
        u.tinfo = wd 23 &&& 0xFFFF007F ∧ u.taddr = wd 24 ∧
        (∀ t : Fin 6, u.tokCount t.val = (wd (4 + t.val)).toNat % 64) ∧
        (∀ n, n < 120 → SMap.get .lane n u.place =
          placeOfCode ((area.getD (12 + n / 16) 0).toNat / 4 ^ (n % 16) % 4)))) ∧
  (∀ (r : SMap Word) (w : Nat) (m : SMap Place), mapOk r w m = true ↔
    countAt m 120 .core ≤ Rec.allotCore r ∧ countAt m 120 .cluster ≤ Rec.allotCluster r ∧
    countAt m 120 .pier ≤ Rec.allotPier r ∧ ∀ n, w ≤ n → n < 120 → SMap.get .lane n m = .lane)

/-! ## Barriers, rings and channels -/

/-- BARINIT makes a free raw pair of words a barrier with phase 0 and the target b, from 1 to 4096; BARARR answers the
phase and counts an arrival, the last of which begins the next phase; BARWAIT goes on when the phase b is complete and else
waits in the barrier's queue, from which the write that completes its phase releases it for good; BARFREE frees a barrier that nobody waits on, and faults with cause 0x09 on one whose phase
somebody still waits for. A failing check of the object is the fault, a held clause and a reserved word are waits, and so are
for BARARR the matrix stores that its thread has in flight (the model's reading: log 102). -/
def Obligations.Barriers : Prop :=
  (∀ (s t : State) (e : Env) (a : Reg) (b : Src) (h : HallRef), openWord s = some e → e.i = 0 →
    1 ≤ (e.src b).toNat → (e.src b).toNat ≤ 4096 → objCheck e.seen (e.reg a).toNat 8 8 false = .ok h →
    (e.reserve [(h.sb + h.rel) / 4, (h.sb + h.rel) / 4 + 1] = .ok t →
      exec (.barinit a b) s = .next (e.afterIn t (fun c => { c with hw := c.hw ++
        [{ objStore (h.sb + h.rel) [0, e.src b] with tag := .object .barrier }] }))) ∧
    (∀ w, e.reserve [(h.sb + h.rel) / 4, (h.sb + h.rel) / 4 + 1] = .error (.wait w t) →
      exec (.barinit a b) s = .next (e.waiting w t))) ∧
  (∀ (s : State) (e : Env) (a : Reg) (b : Src), openWord s = some e → e.i = 0 →
    ((e.src b).toNat = 0 ∨ 4096 < (e.src b).toNat → exec (.barinit a b) s = .next (e.trapped 0x04 0 0)) ∧
    (∀ c x, 1 ≤ (e.src b).toNat → (e.src b).toNat ≤ 4096 → objCheck e.seen (e.reg a).toNat 8 8 false = .error (c, x) →
      exec (.barinit a b) s = .next (e.trapped c x 0))) ∧
  (∀ (s t : State) (e : Env) (d a : Reg) (o : Nat), openWord s = some e → e.i = 0 →
    objAt e.seen .barrier (e.reg a).toNat 8 8 = .ok o →
    (e.storesDone = false → exec (.bararr false d a) s = .next (e.waiting .fence s)) ∧
    (e.storesDone = true → e.reserve [o / 4, o / 4 + 1] = .ok t → exec (.bararr false d a) s = .next (e.afterIn t (fun c =>
      ((c.put d (BitVec.ofNat 32 (phaseOf (e.objWord o)))).store
        (objStore o [arriveWord (e.objWord o) (e.objWord (o + 4))])).act .barrier))) ∧
    (∀ w, e.reserve [o / 4, o / 4 + 1] = .error (.wait w t) →
      (e.storesDone = true → exec (.bararr false d a) s = .next (e.waiting w t)) ∧ exec (.barfree a) s = .next (e.waiting w t))) ∧
  (∀ (s : State) (e : Env) (a : Reg) (b : Src) (o : Nat), openWord s = some e → e.i = 0 →
    objAt e.seen .barrier (e.reg a).toNat 8 8 = .ok o →
    (e.fm.waitDone e.k = false → e.fm.heldByOther e.k o = true →
      exec (.barwait false a b) s = .next (e.waiting .reservation s)) ∧
    (e.fm.waitDone e.k = false → e.fm.heldByOther e.k o = false →
      (phaseDone 16 (phaseOf (e.objWord o)) (e.src b).toNat = true →
        exec (.barwait false a b) s = .next (e.afterIn (s.modForm e.th.form (fun f => { f with
          waiters := f.waiters.filter (fun x => !(x.thread == e.k && decide (x.kind = .barrier))) })) (fun c => c))) ∧
      (phaseDone 16 (phaseOf (e.objWord o)) (e.src b).toNat = false →
        exec (.barwait false a b) s = .next (e.waiting .barrier
          (s.modForm e.th.form (fun f => f.enqueue e.k .barrier [o / 4] e.cl.seq (e.src b).toNat)))))) ∧
  (∀ (s : State) (e : Env) (a : Reg) (b : Src), openWord s = some e → e.i = 0 → e.fm.waitDone e.k = true →
    exec (.barwait false a b) s = .next (e.afterIn (s.modForm e.th.form (fun f => { f with
      waiters := f.waiters.filter (fun x => !(x.thread == e.k && decide (x.kind = .barrier))) })) (fun c => c))) ∧
  (∀ (f : Form) (w : Nat) (x : Waiter), Tab.find? w f.objs = some .barrier → x ∈ f.waiters → x.kind = .barrier →
    w ∈ x.addrs → phaseDone 16 (phaseOf (f.word (4 * w))) x.phase = true →
    { x with done := true } ∈ (f.phased w).waiters ∧ (f.phased w).waitDone x.thread = true) ∧
  (∀ (s t : State) (e : Env) (a : Reg) (o : Nat), openWord s = some e → e.i = 0 →
    objAt e.seen .barrier (e.reg a).toNat 8 8 = .ok o → e.reserve [o / 4, o / 4 + 1] = .ok t →
    let waits := fun (x : Waiter) =>
      x.kind = .barrier ∧ o / 4 ∈ x.addrs ∧ x.done = false ∧ phaseDone 16 (phaseOf (e.fm.word o)) x.phase = false
    ((∀ x ∈ e.fm.waiters, ¬ waits x) → exec (.barfree a) s = .next (e.afterIn t (fun c =>
      { c with hw := c.hw ++ [{ objStore o [0, 0] with tag := .plain }] }))) ∧
    ((∃ x ∈ e.fm.waiters, waits x) → exec (.barfree a) s = .next (e.trapped 0x09 (e.reg a) 0))) ∧
  (∀ (s : State) (e : Env) (d a : Reg) (b : Src), openWord s = some e →
    (e.i ≠ 0 → exec (.barinit a b) s = .next (e.waiting .held s) ∧ exec (.bararr false d a) s = .next (e.waiting .held s) ∧
      exec (.barwait false a b) s = .next (e.waiting .held s) ∧ exec (.barfree a) s = .next (e.waiting .held s)) ∧
    (e.i = 0 → ∀ c x, objAt e.seen .barrier (e.reg a).toNat 8 8 = .error (c, x) →
      exec (.bararr false d a) s = .next (e.trapped c x 0) ∧ exec (.barfree a) s = .next (e.trapped c x 0) ∧
      (e.fm.waitDone e.k = false → exec (.barwait false a b) s = .next (e.trapped c x 0)))) ∧
  (∀ w target : Word, arrivedOf w < target.toNat → target.toNat ≤ 4096 →
    (arrivedOf w + 1 = target.toNat → arrivedOf (arriveWord w target) = 0 ∧
      phaseOf (arriveWord w target) = (phaseOf w + 1) % 65536) ∧
    (arrivedOf w + 1 ≠ target.toNat → arrivedOf (arriveWord w target) = arrivedOf w + 1 ∧
      phaseOf (arriveWord w target) = phaseOf w)) ∧
  (∀ phase b : Nat, phase < 65536 → b < 65536 →
    (phaseDone 16 phase b = true ↔ ∃ k, 1 ≤ k ∧ k < 32768 ∧ (b + k) % 65536 = phase))

/-- A grid barrier counter of the control kernel is created with its phase at 0; BARARR.ch and BARWAIT.ch name it through a
channel; the arrival is performed at commit, the last of a phase begins the next and starts the release, cluster by
cluster in the counter's order, ascending from its start index, which is one cluster later each time, as each cluster's core
order ascends from a start index that is one core later each time;
a release is for the threads that wait for the phase that it released. An arrival waits for the matrix stores that its thread
has in flight (log 102), and while another clause holds the counter for a temporary (log 71). -/
def Obligations.GridBarriers : Prop :=
  (∀ (s : State) (e : Env) (d a : Reg) (id : Nat) (c : Counter), openWord s = some e → e.i = 0 →
    e.counter (e.reg a).toNat = .ok (id, c) →
    (e.storesDone = false → exec (.bararr true d a) s = .next (e.waiting .fence s)) ∧
    (e.storesDone = true → s.counterHeld id e.k = false → exec (.bararr true d a) s = .next (e.after (fun x =>
      let p := BitVec.ofNat 32 (c.phase.toNat +
        (c.arrived + (x.acts.filter (fun y => match y with | .arrive i _ _ _ => i == id | _ => false)).length) / c.target)
      (x.put d p).act (.arrive id x.gw.length (gOf d) (isTemp d))))) ∧
    (e.storesDone = true → s.counterHeld id e.k = true → exec (.bararr true d a) s = .next (e.waiting .channelBarrier s))) ∧
  (∀ (s : State) (e : Env) (a : Reg) (b : Src) (id : Nat) (c : Counter), openWord s = some e → e.i = 0 →
    e.counter (e.reg a).toNat = .ok (id, c) →
    (phaseDone 32 c.phase.toNat (e.src b).toNat = true → (e.cl.wait ≠ .channelBarrier ∨ (e.fm.cluster, e.src b) ∉ c.order) →
      exec (.barwait true a b) s = .next (e.after (fun x => x))) ∧
    ((phaseDone 32 c.phase.toNat (e.src b).toNat = false ∨ (e.cl.wait = .channelBarrier ∧ (e.fm.cluster, e.src b) ∈ c.order)) →
      exec (.barwait true a b) s = .next (e.waiting .channelBarrier s))) ∧
  (∀ (s : State) (e : Env) (d a : Reg) (b : Src), openWord s = some e →
    (e.i ≠ 0 → exec (.bararr true d a) s = .next (e.waiting .held s) ∧
      exec (.barwait true a b) s = .next (e.waiting .held s)) ∧
    (e.i = 0 → capCheck e.fm.rcd (e.reg a).toNat s.counterOk = .error (.fault 0x0A 0 0) →
      exec (.bararr true d a) s = .next (e.trapped 0x0A 0 0) ∧ exec (.barwait true a b) s = .next (e.trapped 0x0A 0 0))) ∧
  (∀ (s : State) (id target : Nat) (ds : List Nat), id < 1024 → 1 ≤ target → target ≤ 2 ^ 24 →
    ∃ t, exec (.counterCreate id target ds) s = .next t ∧ { t with counters := s.counters } = s ∧
      (∃ c, Tab.find? id t.counters = some c ∧ c.phase = 0 ∧ c.arrived = 0 ∧ c.target = target ∧ c.devices = ds) ∧
      ∀ j, j ≠ id → Tab.find? j t.counters = Tab.find? j s.counters) ∧
  (∀ (s : State) (id : Nat) (c : Counter), Tab.find? id s.counters = some c →
    (c.arrived + 1 = c.target → ∃ c', Tab.find? id (s.arriveAt id).counters = some c' ∧ c'.phase = c.phase + 1 ∧
      c'.arrived = 0 ∧ c'.clStart = (c.clStart + 1) % 64 ∧
      ∃ new : List Nat, c'.order = c.order ++ new.map (fun x => (x, c.phase)) ∧
        new.Pairwise (fun x y => (x + 64 - c.clStart % 64) % 64 < (y + 64 - c.clStart % 64) % 64) ∧
        (∀ x, x ∈ new ↔ x < 64 ∧ ∃ y ∈ s.waitingAt id (fun b => b == c.phase.toNat), y.1 = x)) ∧
    (c.arrived + 1 ≠ c.target → ∃ c', Tab.find? id (s.arriveAt id).counters = some c' ∧ c'.phase = c.phase ∧
      c'.arrived = c.arrived + 1 ∧ c'.order = c.order)) ∧
  (∀ (s : State) (id cl : Nat) (c : Counter) (phase : Word) (r : List (Nat × Word)), Tab.find? id s.counters = some c →
    c.order = (cl, phase) :: r → SMap.wf 0 c.coreStart = true →
    ∃ t, exec (.channelBarrierRelease id cl) s = .next t ∧ t.mem = s.mem ∧ t.forms = s.forms ∧
      (∃ c', Tab.find? id t.counters = some c' ∧ c'.order = r ∧ c'.phase = c.phase ∧
        SMap.get 0 cl c'.coreStart = (SMap.get 0 cl c.coreStart + 1) % 8) ∧
      (s.replaying = false →
        let old := (s.cluster cl).reached.map (fun k => if k ∈ s.coresAt id cl c phase then 8 else k)
        (t.cluster cl).reached =
          (if (s.cluster cl).requests = [] then old.filter (fun k => k ≠ 8) else old) ++ s.coresAt id cl c phase)) ∧
  (∀ (s : State) (id cl : Nat) (c : Counter) (phase : Word), let start := SMap.get 0 cl c.coreStart % 8
    (s.coresAt id cl c phase).Pairwise (fun x y => (x + 8 - start) % 8 < (y + 8 - start) % 8)) ∧
  (∀ (s : State) (id cl : Nat) (c : Counter) (phase : Word) (k : Nat), k ∈ s.coresAt id cl c phase ↔
    k < 8 ∧ (cl, k) ∈ s.waitingAt id (fun b => b == phase.toNat))

/-- RINGINIT makes a free raw range a ring with every slot free; RINGACQ takes the next free slot for its producer and
RINGTAKE the next published one for its consumer, oldest waiter first, and answer its number; RINGPUB publishes an
acquired slot and RINGDONE frees a taken one, once the matrix stores that their thread has in flight are performed (the model's
reading: log 102), and at its commit a ring that nobody keeps or waits on is released. Their checks
come in the order of the address, the turn of another clause that holds the ring, the object, its words and the stage. -/
def Obligations.Rings : Prop :=
  (∀ (s t : State) (e : Env) (a : Reg) (b : Src) (h : HallRef), openWord s = some e → e.i = 0 →
    ringOk (e.src b) = true →
    objCheck e.seen (e.reg a).toNat (4 * (4 + 2 * ringSlots (e.src b))) 32 false = .ok h →
    e.reserve ((List.range (4 + 2 * ringSlots (e.src b))).map (· + (h.sb + h.rel) / 4)) = .ok t →
    exec (.ringinit a b) s = .next (e.afterIn t (fun c => { c with hw := c.hw ++
      [{ objStore (h.sb + h.rel) (e.src b :: List.replicate (3 + 2 * ringSlots (e.src b)) 0) with
         tag := .object .ring }] }))) ∧
  (∀ (s : State) (e : Env) (a : Reg) (b : Src), openWord s = some e →
    (e.i ≠ 0 → exec (.ringinit a b) s = .next (e.waiting .held s)) ∧
    (e.i = 0 → ringOk (e.src b) = false → exec (.ringinit a b) s = .next (e.trapped 0x04 0 0)) ∧
    (e.i = 0 → ringOk (e.src b) = true → ∀ c x,
      objCheck e.seen (e.reg a).toNat (4 * (4 + 2 * ringSlots (e.src b))) 32 false = .error (c, x) →
      exec (.ringinit a b) s = .next (e.trapped c x 0))) ∧
  (∀ (e : Env) (a : Reg) (stage : Word → Nat) (q : WaitKind),
    (e.i ≠ 0 → e.ring a stage (some q) = .error (.wait .held e.s)) ∧
    (e.i = 0 →
      (∀ c x, objAddr e.seen (e.reg a).toNat 4 32 = .error (c, x) → e.ring a stage (some q) = .error (.fault c x 0)) ∧
      (∀ o, objAddr e.seen (e.reg a).toNat 4 32 = .ok o →
        (e.fm.heldByOther e.k o = true → e.ring a stage (some q) = .error (.wait .reservation
          (e.s.modForm e.th.form (fun f => f.enqueue e.k q [o / 4] e.cl.seq)))) ∧
        (e.fm.heldByOther e.k o = false →
          (Tab.find? (o / 4) e.seen.objs ≠ some .ring → e.ring a stage (some q) = .error (.fault 0x04 (e.reg a) 0)) ∧
          (Tab.find? (o / 4) e.seen.objs = some .ring →
            (∀ w, w < 4 + 2 * ringSlots (e.objWord o) → e.seen.tag (4 * (w + o / 4)) ≠ .poisoned) →
            (Rec.stage e.fm.rcd e.th.bench ≠ stage (e.objWord o) → e.ring a stage (some q) = .error (.fault 0x0B 0 0)) ∧
            (Rec.stage e.fm.rcd e.th.bench = stage (e.objWord o) →
              e.ring a stage (some q) = .ok { o := o, w0 := e.objWord o })))))) ∧
  (∀ (s t : State) (e : Env) (d a : Reg) (r : RingRef), openWord s = some e →
    e.ring a ringProd (some .ringAcq) = .ok r →
    let acq := (e.objWord (r.o + 4)).toNat % 65536
    let n := acq % ringSlots r.w0
    e.ringServe r .ringAcq (slotState (e.slot r n) == 0) = .ok t →
    exec (.ringacq d a) s = .next (e.afterIn t (fun c =>
      ((c.put d (BitVec.ofNat 32 n)).store (objStore (r.o + 4) [BitVec.ofNat 32 ((acq + 1) % 65536)])).store
        (objStore (r.o + 4 * (4 + 2 * n)) [slotWord (slotSeq (e.slot r n) + 1) 1, BitVec.ofNat 32 e.th.tid])))) ∧
  (∀ (s t : State) (e : Env) (d a : Reg) (r : RingRef), openWord s = some e →
    e.ring a ringCons (some .ringTake) = .ok r →
    let take := (e.objWord (r.o + 8)).toNat % 65536
    let n := take % ringSlots r.w0
    e.ringServe r .ringTake (slotState (e.slot r n) == 2) = .ok t →
    exec (.ringtake d a) s = .next (e.afterIn t (fun c =>
      ((c.put d (BitVec.ofNat 32 n)).store (objStore (r.o + 8) [BitVec.ofNat 32 ((take + 1) % 65536)])).store
        (objStore (r.o + 4 * (4 + 2 * n)) [slotWord (slotSeq (e.slot r n)) 3, BitVec.ofNat 32 e.th.tid])))) ∧
  (∀ (e : Env) (r : RingRef) (q : WaitKind) (ready : Bool),
    ((ready = false ∨ e.fm.firstIs e.k q (r.o / 4) = false) → e.ringServe r q ready = .error (.wait .ring
      (e.s.modForm e.th.form (fun f => f.enqueue e.k q [r.o / 4] e.cl.seq)))) ∧
    (ready = true → e.fm.firstIs e.k q (r.o / 4) = true → (∀ w ∈ r.words, e.fm.heldByOther e.k (4 * w) = false) →
      e.ringServe r q ready = .ok (e.s.modForm e.th.form (fun f => { f with
        resv := f.resv ++ r.words.map (fun w => (w, e.k)),
        waiters := f.waiters.filter (fun x => !(x.thread == e.k && decide (x.kind = .ringAcq ∨ x.kind = .ringTake))) })))) ∧
  (∀ (s t : State) (e : Env) (a : Reg) (b : Src) (r : RingRef), openWord s = some e → e.ring a ringProd none = .ok r →
    let n := (e.src b).toNat
    (n < ringSlots r.w0 → slotState (e.slot r n) = 1 → e.storesDone = false →
      exec (.ringpub a b) s = .next (e.waiting .fence s)) ∧
    (n < ringSlots r.w0 → slotState (e.slot r n) = 1 → e.storesDone = true → e.ringHold r = .ok t →
      exec (.ringpub a b) s = .next (e.afterIn t (fun c => { c with hw := c.hw ++
        [objStore (r.o + 4 * (4 + 2 * n)) [slotWord (slotSeq (e.slot r n)) 2]] }))) ∧
    ((ringSlots r.w0 ≤ n ∨ slotState (e.slot r n) ≠ 1) → exec (.ringpub a b) s = .next (e.trapped 0x04 0 0))) ∧
  (∀ (s t : State) (e : Env) (a : Reg) (b : Src) (r : RingRef), openWord s = some e → e.ring a ringCons none = .ok r →
    let n := (e.src b).toNat
    (n < ringSlots r.w0 → slotState (e.slot r n) = 3 → e.storesDone = false →
      exec (.ringdone a b) s = .next (e.waiting .fence s)) ∧
    (n < ringSlots r.w0 → slotState (e.slot r n) = 3 → e.storesDone = true → e.ringHold r = .ok t →
      exec (.ringdone a b) s = .next (e.afterIn t (fun c => { c with
        hw := c.hw ++ [objStore (r.o + 4 * (4 + 2 * n)) [slotWord (slotSeq (e.slot r n)) 0]],
        acts := c.acts ++ [.ringdone r.o n] }))) ∧
    ((ringSlots r.w0 ≤ n ∨ slotState (e.slot r n) ≠ 3) → exec (.ringdone a b) s = .next (e.trapped 0x04 0 0))) ∧
  (∀ (s : State) (k f o n : Nat) (gw : List (Nat × Word)) (th : Thread) (fm : Form),
    Tab.find? k s.threads = some th → Tab.find? f s.forms = some fm →
    let last := Tab.find? (o / 4) fm.objs = some .ring ∧
      (∀ i, i < ringSlots (fm.word o) → slotState (fm.word (o + 4 * (4 + 2 * i))) = 0) ∧ ringPersist (fm.word o) = false ∧
      ∀ x ∈ fm.waiters, (x.kind = .ringAcq ∨ x.kind = .ringTake) → o / 4 ∉ x.addrs
    (s.doAct k f gw (.ringdone o n)).2 = gw ∧
    (last → Tab.find? f (s.doAct k f gw (.ringdone o n)).1.forms =
      some (fm.write { objStore o (List.replicate (4 + 2 * ringSlots (fm.word o)) 0) with tag := .plain })) ∧
    (¬ last → Tab.find? f (s.doAct k f gw (.ringdone o n)).1.forms = some fm)) ∧
  (∀ (s t : State) (e : Env) (d a : Reg) (r : RingRef) (w : Wait), openWord s = some e →
    (e.ring a ringProd (some .ringAcq) = .ok r → e.ringServe r .ringAcq
      (slotState (e.slot r ((e.objWord (r.o + 4)).toNat % 65536 % ringSlots r.w0)) == 0) = .error (.wait w t) →
      exec (.ringacq d a) s = .next (e.waiting w t)) ∧
    (e.ring a ringCons (some .ringTake) = .ok r → e.ringServe r .ringTake
      (slotState (e.slot r ((e.objWord (r.o + 8)).toNat % 65536 % ringSlots r.w0)) == 2) = .error (.wait w t) →
      exec (.ringtake d a) s = .next (e.waiting w t))) ∧
  (∀ (s : State) (e : Env) (d a : Reg) (c x : Nat) (v : Word), openWord s = some e →
    (e.ring a ringProd (some .ringAcq) = .error (.fault c v x) → exec (.ringacq d a) s = .next (e.trapped c v x)) ∧
    (e.ring a ringCons (some .ringTake) = .error (.fault c v x) → exec (.ringtake d a) s = .next (e.trapped c v x)))

/-- SEND on a channel that may carry a message, with room in its allowance, sends b (or a pair) at commit and else waits;
RECV of the oldest message of its source, with nobody before it, answers its words and takes it at commit, waits while
there is none or another is before it, and faults with cause 0x04 when its width is another; both start only when their
clause is held no longer. A channel number of 64 or more, or a channel with V = 0, of a KIND that carries no messages, or
without the permission, is cause 0x0A. -/
def Obligations.Messages : Prop :=
  (∀ (s : State) (e : Env) (a : Reg) (b : Src) (c : BitVec 64), openWord s = some e → e.i = 0 →
    capCheck e.fm.rcd (e.reg a).toNat (messageOk e.fm.rcd capSend) = .ok c →
    (e.allowed (e.reg a).toNat c 1 = true →
      exec (.send false a b) s = .next (e.after (fun x => { x with acts := x.acts ++ [.send (e.reg a).toNat [e.src b]] }))) ∧
    (e.allowed (e.reg a).toNat c 1 = false → exec (.send false a b) s = .next (e.waiting .channel s)) ∧
    (∀ r, (e.allowed (e.reg a).toNat c 2 = true → exec (.send true a (.reg r)) s = .next (e.after (fun x =>
        { x with acts := x.acts ++ [.send (e.reg a).toNat [e.reg r, e.reg (regSucc r)]] }))) ∧
      (e.allowed (e.reg a).toNat c 2 = false → exec (.send true a (.reg r)) s = .next (e.waiting .channel s)))) ∧
  (∀ (e : Env) (n : Nat) (c : BitVec 64) (len : Nat), let held := e.s.heldActs (fun _ th x => match x with
      | .send m _ => if th.form = e.th.form ∧ m = n then 1 else 0 | _ => 0)
    (e.allowed n c len = true ↔ SMap.get 0 n e.fm.sent + held < capAllow c ∧
      (capKind c = 4 → e.s.mailUsed (mailKey e.fm.fn (capEnd c)) + len + e.s.mailHeld e.fm.fn (capEnd c) ≤ 16))) ∧
  (∀ (s : State) (e : Env) (d a : Reg) (c : BitVec 64), openWord s = some e → e.i = 0 →
    capCheck e.fm.rcd (e.reg a).toNat (messageOk e.fm.rcd capRecv) = .ok c →
    let src := sourceOf e.fm c
    let others := s.heldActs (fun k _ x => if k = e.k then 0 else isRecv src x)
    let mine := (e.cl.acts.map (isRecv src)).sum
    let t : State := { s with chanWait := s.chanWait.filter (fun x => x.thread != e.k) }
    let first := ∀ x, s.chanWait.find? (fun x => x.addrs.contains (sourceKey src)) = some x → x.thread = e.k
    (others = 0 → first →
      (∀ m, (s.messages src)[mine]? = some [m] →
        exec (.recv false d a) s = .next (e.afterIn t (fun x =>
          let y := x.put d m
          { y with acts := y.acts ++ [.recv src.1 src.2] })) ∧
        exec (.recv true d a) s = .next (e.trapped 0x04 0 0)) ∧
      (∀ m n, (s.messages src)[mine]? = some [m, n] →
        exec (.recv true d a) s = .next (e.afterIn t (fun x =>
          let y := (x.put d m).put (regSucc d) n
          { y with acts := y.acts ++ [.recv src.1 src.2] })) ∧
        exec (.recv false d a) s = .next (e.trapped 0x04 0 0))) ∧
    ((others ≠ 0 ∨ ¬ first ∨ (s.messages src)[mine]? = none) → ∀ wide, exec (.recv wide d a) s =
      .next (e.waiting .channel (s.queueRecv e.k src)))) ∧
  (∀ (s : State) (e : Env) (d a : Reg) (b : Src) (wide : Bool), openWord s = some e →
    (e.i ≠ 0 → exec (.send wide a b) s = .next (e.waiting .held s) ∧ exec (.recv wide d a) s = .next (e.waiting .held s)) ∧
    (e.i = 0 → let n := (e.reg a).toNat
      let c := Rec.cap e.fm.rcd n
      let carries := (capKind c = 3 ∧ capEnd c < Rec.forms e.fm.rcd) ∨ (capKind c = 4 ∧ capEnd c < 16)
      ((64 ≤ n ∨ capValid c = false ∨ capSend c = false ∨ ¬ carries) → exec (.send wide a b) s = .next (e.trapped 0x0A 0 0)) ∧
      ((64 ≤ n ∨ capValid c = false ∨ capRecv c = false ∨ ¬ carries) →
        exec (.recv wide d a) s = .next (e.trapped 0x0A 0 0)))) ∧
  (∀ (s : State) (k : Nat) (src : Bool × Nat), (∀ x ∈ s.chanWait, x.thread ≠ k) →
    s.queueRecv k src = { s with chanWait := s.chanWait ++ [{ thread := k, kind := .recv, addrs := [sourceKey src] }] }) ∧
  (∀ (s : State) (k : Nat) (src : Bool × Nat), (∃ x ∈ s.chanWait, x.thread = k) → s.queueRecv k src = s)

/-! ## The COPY and MATRIX classes -/

/-- The first error of some checks made in order, else the answer o. -/
def firstError {α : Type} (l : List (Chk Unit)) (o : α) : Chk α :=
  match l.findSome? (fun c => match c with | .error x => some x | .ok () => none) with
  | some x => .error x
  | none => .ok o

/-- CPY checks its channel (0x0A), the limits of its record (0x04), then the bitmap, the source and the destination row by
row of R113 (0x07, 0x08, 0x09, 0x0F), and the weight store (0x0C); the operation enters the channel's queue at commit, with
every chunk still to do. A copy waits for the matrix operations of its thread that have still to write the hall (log 102,
DEDUCED). -/
def bulkCopies : Prop :=
  (∀ (s : State) (e : Env) (ch : Fin 64) (a : Reg) (r : Fin 384), openWord s = some e → e.i = 0 →
    let rc := e.record r.val
    let p := planOf s e.th.core e.fm rc
    let wstore := (locOf p.dst).isHall = false ∧ s.hitsWeights e.fm.cluster e.fm.ctx p.dst (p.last + 1) = true
    (∀ c, capCheck e.fm.rcd ch.val (copyOk (!(locOf p.src).isHall) (!(locOf p.dst).isHall)) = .ok c →
      ((2 ^ 56 ≤ p.src ∨ 2 ^ 56 ≤ p.dst ∨ p.limits e.fm.rcd = false) → exec (.cpy ch a r) s = .next (e.trapped 0x04 0 0)) ∧
      (p.src < 2 ^ 56 → p.dst < 2 ^ 56 → p.limits e.fm.rcd = true →
        (∀ x v, cpyCheck e.fm p (e.reg a).toNat = .error (x, v) → exec (.cpy ch a r) s = .next (e.trapped x v 0)) ∧
        (∀ bm, cpyCheck e.fm p (e.reg a).toNat = .ok bm →
          (wstore → exec (.cpy ch a r) s = .next (e.trapped 0x0C 0 0)) ∧
          (¬ wstore → e.storesDone = false → exec (.cpy ch a r) s = .next (e.waiting .fence s)) ∧
          (¬ wstore → e.storesDone = true → exec (.cpy ch a r) s = .next (e.after (fun x => { x with
            acts := x.acts ++ [.copy [capEnd c] (.bulk p bm (List.range (p.lastChunk + 1)) none)],
            recs := x.recs ++ rc.zipIdx.map (fun y => (r.val + y.2, y.1)) }))))))) ∧
  (∀ (s : State) (core : Nat) (f : Form) (rc : List Word),
    let w := fun (k : Nat) => (rc.getD k 0).toNat
    let p := planOf s core f rc
    p.src = w 0 + 2 ^ 32 * w 1 ∧ p.dst = w 2 + 2 ^ 32 * w 3 ∧ p.cols = w 4 ∧ p.rows = w 5 ∧ p.sstr = w 6 ∧ p.dstr = w 7) ∧
  (∀ (p : Plan) (r : SMap Word), p.limits r = true ↔
    (1 ≤ p.cols ∧ p.cols < 65536 ∧ 1 ≤ p.rows ∧ p.rows < 65536) ∧
    (p.unit = 1 ∨ p.badSP24 = true ∨ (onBlocks (relOf r p.dst) p.dstr p.rows p.unit = true ∧ p.cols % p.unit = 0)) ∧
    (isSP24 p.df = true → p.sameFmt = true → p.storage (relOf r p.src) = true) ∧ p.last < 131072) ∧
  (∀ (f : Form) (p : Plan) (a : Nat),
    (∀ x, bitmapExtent f a = .error x → cpyCheck f p a = .error x) ∧
    (∀ h, bitmapExtent f a = .ok h → let o := h.sb + h.rel
      cpyCheck f p a = firstError
        [sideCheck f.rcd p.src p.sstr p.rows p.rowLen, sideCheck f.rcd p.dst p.dstr p.rows p.rowLen, bitmapAlign h a,
         chk (slotsOk f.rcd p.sf p.src p.sstr p.rows) 0x08 (hallOr0 p.src),
         chk (!p.badSP24 && slotsOk f.rcd p.df p.dst p.dstr p.rows) 0x08 (hallOr0 p.dst), bitmapKind f a o,
         (match objectInDest f p o with | some x => .error (0x09, BitVec.ofNat 32 x) | none => .ok ()),
         bitmapPoison f a o] o ∧
      bitmapCheck f a = firstError [bitmapAlign h a, bitmapKind f a o, bitmapPoison f a o] o)) ∧
  (∀ (f : Form) (a b : Nat) (h : HallRef), (firstOutside f.rcd a 32 = some b → bitmapExtent f a = .error (0x07, BitVec.ofNat 32 b)) ∧
    ((a % 32 ≠ 0 ∨ h.seg.fmt ≠ 0) → bitmapAlign h a = .error (0x08, BitVec.ofNat 32 a)) ∧
    (a % 32 = 0 → h.seg.fmt = 0 → h.seg.extent < h.rel + 32 →
      bitmapAlign h a = .error (0x08, BitVec.ofNat 32 (h.seg.base + h.seg.extent))) ∧
    (a % 32 = 0 → h.seg.fmt = 0 → h.rel + 32 ≤ h.seg.extent → bitmapAlign h a = .ok ()) ∧
    (∀ o, Tab.find? (o / 4) f.objs = some .bitmap → bitmapKind f a o = .ok ()) ∧
    (∀ o i, i < 32 → f.tag (o + i) = .object → (∀ j, j < i → f.tag (o + j) ≠ .object) →
      Tab.find? (o / 4) f.objs ≠ some .bitmap → bitmapKind f a o = .error (0x09, BitVec.ofNat 32 (a + i))) ∧
    (∀ o i, i < 32 → f.tag (o + i) = .poisoned → (∀ j, j < i → f.tag (o + j) ≠ .poisoned) →
      bitmapPoison f a o = .error (0x0F, BitVec.ofNat 32 (a + i))))

/-- CPYG and CPYS of 8 or 16 bytes: the channel (0x0A), the VA (0x04), the extent of the hall side and of a VA in the hall
window (0x07), alignment and raw segments (0x08), objects (0x09), a weight-store destination (0x0C); a reserved word of
CPYS's hall side waits. -/
def fineCopies : Prop :=
  ∀ (s : State) (e : Env) (wide rd : Bool) (ch : Fin 64) (a : Reg) (b : Fin 120), openWord s = some e → e.i = 0 →
    let n := if wide then 16 else 8
    let va := e.pair b.val
    let h := (e.reg a).toNat
    let out := exec (if rd then .cpyg wide ch a b else .cpys wide ch a b) s
    let far := fun (x : Nat) => x < 2 ^ 23 ∧ ∃ gf off, fineSpan e.fm x n = .ok (gf, off) ∧ gf.fmt = 0 ∧
      ∀ i, i < n → e.fm.tag (off + i) ≠ .object
    ∀ c, capCheck e.fm.rcd ch.val (copyOk rd (!rd)) = .ok c →
    (2 ^ 56 ≤ va → out = .next (e.trapped 0x04 0 0)) ∧
    (va < 2 ^ 56 →
      (∀ x v, fineSpan e.fm h n = .error (x, v) → out = .next (e.trapped x v 0)) ∧
      (∀ g o, fineSpan e.fm h n = .ok (g, o) →
        (∀ x, locOf va = .hall x → 2 ^ 23 ≤ x → out = .next (e.trapped 0x07 (BitVec.ofNat 32 x) 0)) ∧
        (locOf va = .mem va →
          ((h % n ≠ 0 ∨ g.fmt ≠ 0) → out = .next (e.trapped 0x08 (e.reg a) 0)) ∧
          (h % n = 0 → g.fmt = 0 →
            (va % n ≠ 0 → out = .next (e.trapped 0x08 0 0)) ∧
            (va % n = 0 → ∀ i, i < n → e.fm.tag (o + i) = .object → (∀ j, j < i → e.fm.tag (o + j) ≠ .object) →
              out = .next (e.trapped 0x09 (BitVec.ofNat 32 (h + i)) 0)))) ∧
        ((∀ x, locOf va = .hall x → far x) → h % n = 0 → g.fmt = 0 → va % n = 0 →
          (∀ i, i < n → e.fm.tag (o + i) ≠ .object) →
          let wstore := (locOf va).isHall = false ∧ s.hitsWeights e.fm.cluster e.fm.ctx va n = true
          (rd = true → e.storesDone = false → out = .next (e.waiting .fence s)) ∧
          (rd = true → e.storesDone = true →
            out = .next (e.after (fun x => { x with acts := x.acts ++ [.copy [capEnd c] (.gather n o va)] }))) ∧
          (rd = false → wstore → out = .next (e.trapped 0x0C 0 0)) ∧
          (rd = false → ¬ wstore → e.storesDone = false → out = .next (e.waiting .fence s)) ∧
          (rd = false → ¬ wstore → e.storesDone = true →
            ((∃ w ∈ wordsOfSpan o n, e.fm.heldByOther e.k (4 * w) = true) → out = .next (e.waiting .reservation s)) ∧
            ((∀ w ∈ wordsOfSpan o n, e.fm.heldByOther e.k (4 * w) = false) → out = .next (e.after (fun x =>
              { x with acts := x.acts ++ [.scatter (capEnd c) o n va] })))))))

/-- CRED and CGATH: the channel (0x0A), the limits of the record (0x04), the bitmap (0x07, 0x08, 0x09, 0x0F), the weight
store (0x0C); the collective becomes outstanding at commit. A buffer in the hall window is never in HBM nor an FP32 page. -/
def collectives : Prop :=
  (∀ (s : State) (e : Env) (ch : Fin 64) (a : Reg) (r : Fin 384) (bit : Fin 256) (gather : Bool) (c : BitVec 64),
    openWord s = some e → e.i = 0 →
    capCheck e.fm.rcd ch.val (fun c => capKind c == 1 && capCrd c && capCwr c) = .ok c →
    let rc := e.record r.val
    let out := exec (if gather then .cgath ch a r bit else .cred ch a r bit) s
    let wstore := s.collWeights e.fm.cluster e.fm.ctx gather c rc = true
    let paged := s.fp32Pages e.fm.cluster e.fm.ctx (recVA rc 0) (collBytes gather c rc) true = true ∧
      ((gather = true ∨ recTransport rc ≠ 3) ∨ s.fp32Pages e.fm.cluster e.fm.ctx (recVA rc 4) (4 * recN rc) false = true)
    (collLimits gather rc = false → out = .next (e.trapped 0x04 0 0)) ∧
    (collLimits gather rc = true →
      (¬ wstore → ¬ paged → out = .next (e.trapped 0x04 0 0)) ∧
      ((wstore ∨ paged) →
        (∀ x v, bitmapCheck e.fm (e.reg a).toNat = .error (x, v) → out = .next (e.trapped x v 0)) ∧
        (∀ bm, bitmapCheck e.fm (e.reg a).toNat = .ok bm →
          (wstore → out = .next (e.trapped 0x0C 0 0)) ∧
          (¬ wstore →
            let k : Coll := { id := s.serial, thread := e.k, form := e.th.form, node := none, cap := c,
                              gather := gather, rc := rc, bit := some (bm, bit.val), before := [] }
            out = .next (e.afterIn s.fresh (fun x => { x with
            acts := x.acts ++ [.coll k],
            recs := x.recs ++ rc.zipIdx.map (fun y => (r.val + y.2, y.1)) }))))))) ∧
  (∀ (gather : Bool) (rc : List Word), collLimits gather rc = true ↔
    recVA rc 0 < 2 ^ 56 ∧ recVA rc 0 % 64 = 0 ∧ 32 ≤ recN rc ∧ recN rc ≤ 2 ^ 26 ∧ recN rc % 32 = 0 ∧
    (if gather then recTransport rc = 0 ∨ recTransport rc = 1 else recTransport rc = 1 ∨ recTransport rc = 3) ∧
    (if gather = false ∧ recTransport rc = 3 then recVA rc 4 < 2 ^ 56 else recVA rc 4 = 0) ∧ rc.getD 7 0 = 0) ∧
  (∀ (s : State) (cl ctx va n : Nat) (hbm : Bool), 0 < n → (locOf va).isHall = true → s.fp32Pages cl ctx va n hbm = false)

/-- CPY, CPYG and CPYS check their channel, record, addresses, formats and bitmap, and enter the channel's queue at
commit; QFENCE enters the queues of its mask, or with the mask 0 does nothing; CRED and CGATH become outstanding at commit.
A channel number without V, of another KIND, or without the permission that the operation needs is cause 0x0A; each word
starts only when its clause is held no longer, and a copy only once the thread's matrix operations have written the hall
(log 102, DEDUCED). The fates of a unit of SP24 copied in part and of misaligned slots (0x08) are log 38 (DEDUCED), and the
order of CPYG's and CPYS's causes over both sides is log 47 (DEDUCED). -/
def Obligations.CopyAndCollectiveWords : Prop :=
  bulkCopies ∧ fineCopies ∧ collectives ∧
  (∀ (s : State) (e : Env) (ch : Fin 64) (m : Fin 384), openWord s = some e → e.i = 0 →
    let mask := (e.sreg m.val).toNat + 2 ^ 32 * (e.sreg (m.val + 1)).toNat
    let ok := fun (n : Nat) => capValid (Rec.cap e.fm.rcd n) && capKind (Rec.cap e.fm.rcd n) == 0
    let set := (List.range 64).filter (fun n => mask / 2 ^ n % 2 == 1)
    let qs := (set.map (fun n => capEnd (Rec.cap e.fm.rcd n))).dedup
    (ok ch.val = true → mask = 0 → exec (.qfence ch m) s = .next (e.after (fun x => x))) ∧
    (ok ch.val = true → mask ≠ 0 → (∀ n ∈ set, ok n = true) → ch.val ∈ set →
      exec (.qfence ch m) s = .next (e.after (fun x => { x with acts := x.acts ++ [.copy qs (.qfence qs)] }))) ∧
    ((ok ch.val = false ∨ (mask ≠ 0 ∧ ((∃ n ∈ set, ok n = false) ∨ ch.val ∉ set))) →
      exec (.qfence ch m) s = .next (e.trapped 0x0A 0 0))) ∧
  (∀ (s : State) (e : Env) (ch : Fin 64) (a : Reg) (b : Fin 120) (r : Fin 384) (bit : Fin 256) (wide : Bool),
    openWord s = some e →
    (e.i ≠ 0 → exec (.cpy ch a r) s = .next (e.waiting .held s) ∧ exec (.cpyg wide ch a b) s = .next (e.waiting .held s) ∧
      exec (.cpys wide ch a b) s = .next (e.waiting .held s) ∧ exec (.qfence ch r) s = .next (e.waiting .held s) ∧
      exec (.cred ch a r bit) s = .next (e.waiting .held s) ∧ exec (.cgath ch a r bit) s = .next (e.waiting .held s)) ∧
    (e.i = 0 → let c := Rec.cap e.fm.rcd ch.val
      let p := planOf s e.th.core e.fm (e.record r.val)
      ((capValid c = false ∨ capKind c ≠ 0 ∨ ((locOf p.src).isHall = false ∧ capCrd c = false) ∨
        ((locOf p.dst).isHall = false ∧ capCwr c = false)) → exec (.cpy ch a r) s = .next (e.trapped 0x0A 0 0)) ∧
      ((capValid c = false ∨ capKind c ≠ 0 ∨ capCrd c = false) → exec (.cpyg wide ch a b) s = .next (e.trapped 0x0A 0 0)) ∧
      ((capValid c = false ∨ capKind c ≠ 0 ∨ capCwr c = false) → exec (.cpys wide ch a b) s = .next (e.trapped 0x0A 0 0)) ∧
      ((capValid c = false ∨ capKind c ≠ 1 ∨ capCrd c = false ∨ capCwr c = false) →
        exec (.cred ch a r bit) s = .next (e.trapped 0x0A 0 0) ∧ exec (.cgath ch a r bit) s = .next (e.trapped 0x0A 0 0))))

/-- How a roll instruction i signs roll `roll`: a member whose own checks pass and whose key agrees with the round's leaves
its signature and waits; the word is done when the round issues. A thread that has signed waits on; no member is
cause 0x14, a failing check its fault, and another key cause 0x04; a frozen context holds the word. The word of a round
that has issued, executed again with its clause, is done at once: its operation takes the operands of its registers now,
checked again where they have changed (log 69, DEDUCED). -/
def signs (i : Instr) (roll : Fin 16) (a b : Env → Word) (key extra : Env → List Word) (check : Env → Chk Unit) : Prop :=
  ∀ (s : State) (e : Env), openWord s = some e →
    let r := e.ctx.roll roll.val
    let sig : Sig := { thread := e.k, set := e.cl.hdr.set, a := a e, b := b e, extra := extra e, ins := i }
    let signed := s.modForm e.th.form (fun f => f.modCtx e.fc (fun c =>
      c.setRoll roll.val { r with key := some (keyInstr i, key e), sigs := r.sigs ++ [sig] }))
    (∀ op, e.cl.signed.lookup e.idx = some op →
      ((∀ o ∈ e.ctx.ops, o.id ≠ op) → exec i s = .next (e.after (·.sealed op none))) ∧
      (∀ o, e.ctx.ops.find? (fun x => x.id == op) = some o →
        let again := s.modForm e.th.form (fun f => f.modCtx e.fc (fun c =>
          { c with ops := c.ops.map (fun x => if x.id = op then x.resign sig e.fm.hall else x) }))
        ((∀ p ∈ o.rows, p.2 ≠ sig) → ∀ c v, check e = .error (c, v) → exec i s = .next (e.trapped c v 0)) ∧
        (((∃ p ∈ o.rows, p.2 = sig) ∨ check e = .ok ()) →
          exec i s = .next (e.afterIn again (·.sealed op ((o.resign sig e.fm.hall).dOf sig)))))) ∧
    (e.cl.signed.lookup e.idx = none → e.ctx.frozen ≠ none → exec i s = .next (e.waiting .frozen s)) ∧
    (e.cl.signed.lookup e.idx = none → e.ctx.frozen = none →
      ((∃ x ∈ r.sigs, x.thread = e.k) → exec i s = .next (e.waiting .roll s)) ∧
      ((∀ x ∈ r.sigs, x.thread ≠ e.k) →
        (r.has e.th.tid = false → exec i s = .next (e.trapped 0x14 0 0)) ∧
        (r.has e.th.tid = true →
          (∀ c v, check e = .error (c, v) → exec i s = .next (e.trapped c v 0)) ∧
          (check e = .ok () →
            ((r.sigs = [] ∨ r.key = some (keyInstr i, key e)) →
              exec i s = .next (e.waiting .roll (signed.askSlew e.fm.cluster))) ∧
            (r.sigs ≠ [] → r.key ≠ some (keyInstr i, key e) → exec i s = .next (e.trapped 0x04 0 0))))))

/-- The roll instructions sign with their own operands, checks and keys; ROLLDECL declares a set of live or exited threads
of its core once no signature is pending; SGHASH, SPK, MSAVE and MRESTORE hand the matrix unit an operation at commit and
count 1 until it completes. MRESTORE's address is checked before it waits. A row that is written meets an object anywhere in
it first (0x09), then a poisoned word that one of its stores writes only in part (0x0F). SGBKT's own checks are those of
the map extent and, for FN 1 and 2, of the row at D. An MSAVE waits until one uncommitted product at most, and other MSAVEs,
are in flight and what it would save is of committed clauses (log 100, DEDUCED). -/
def Obligations.MatrixWords : Prop :=
  let blank := fun (s : State) (i : Instr) =>
    ({ id := s.serial, ins := i, rows := [], a := [], b := [], words := [], writes := [], grp := 0, nextGroup := 0 } : MOp)
  (∀ z ws x acc roll a b, signs (.mma z ws x acc roll a b) roll (fun e => e.reg a) (fun e => e.src b)
    (fun e => [e.src b]) (fun _ => [])
    (fun e => (rowShape e.fm (e.reg a).toNat).bind (fun _ => e.tileCheck ws (e.src b).toNat))) ∧
  (∀ z ws x acc roll a b r kb, signs (.mmconv z ws x acc roll a b r kb) roll (fun e => e.reg a) (fun e => e.src b)
    (fun e => e.src b :: e.record r.val) (fun e => e.record r.val)
    (fun e => if (convOf (e.record r.val)).ok (e.reg a).toNat kb.toNat = true then
        (convShape e.fm (convOf (e.record r.val))).bind (fun _ => e.tileCheck ws (e.src b).toNat)
      else .error (0x04, 0))) ∧
  (∀ acc roll, signs (.mzero acc roll) roll (fun _ => 0) (fun _ => 0) (fun _ => []) (fun _ => []) (fun _ => .ok ())) ∧
  (∀ acc roll a, signs (.mload acc roll a) roll (fun e => e.reg a) (fun _ => 0) (fun _ => []) (fun _ => [])
    (fun e => (rowShape e.fm (e.reg a).toNat).map (fun _ => ()))) ∧
  (∀ acc roll a b, signs (.mstore acc roll a b) roll (fun e => e.reg a) (fun e => e.src b) (fun _ => []) (fun _ => [])
    (fun e => if (e.src b).toNat < 64 then (rowStore e.fm (e.reg a).toNat (rowUnits e.fm false)).map (fun _ => ()) else .error (0x04, 0))) ∧
  (∀ mean roll a sS gm, signs (.sgsum mean roll a sS gm) roll (fun e => e.reg a) (fun _ => 0) (fun e => [e.sreg sS.val])
    (fun e => [BitVec.ofNat 32 ((e.reg gm).toNat % 256), e.sreg sS.val])
    (fun e => if (e.reg gm).toNat % 256 < 64 then (rowShape e.fm (e.reg a).toNat).bind (fun _ =>
        (rowStore e.fm ((e.sreg sS.val).toNat + 256 * ((e.reg gm).toNat % 256)) (rowUnits e.fm true)).map (fun _ => ()))
      else .error (0x04, 0))) ∧
  (∀ m d roll a b sS sL off, ∃ check : Env → Chk Unit,
    signs (.sgbkt m d roll a b sS sL off) roll (fun e => e.reg a) (fun e => e.src b)
      (fun e => e.src b :: (if m = .first then [] else [e.sreg sS.val]))
      (fun e => [e.reg d, BitVec.ofNat 32 d.code] ++ (if m = .first then [] else [e.sreg sS.val])) check ∧
    ∀ (e : Env), let n := 4 * (e.ctx.roll roll.val).size
      let v := (e.src b).toNat
      (∀ x, firstOutside e.fm.rcd v n = some x → check e = .error (0x07, BitVec.ofNat 32 x)) ∧
      (firstOutside e.fm.rcd v n = none →
        (resolve e.fm.rcd v = none → check e = .error (0x07, e.src b)) ∧
        (∀ h, resolve e.fm.rcd v = some h →
          (h.seg.extent < h.rel + n → check e = .error (0x07, BitVec.ofNat 32 (h.seg.base + h.seg.extent))) ∧
          (h.rel + n ≤ h.seg.extent →
            ((v % 4 ≠ 0 ∨ h.seg.fmt ≠ 0) → check e = .error (0x08, BitVec.ofNat 32 v)) ∧
            (v % 4 = 0 → h.seg.fmt = 0 →
              (∀ w, (wordsOfSpan (h.sb + h.rel) n).find? (fun x => decide (e.fm.tag (4 * x) = .object)) = some w →
                check e = .error (0x09, BitVec.ofNat 32 (v + (4 * w - (h.sb + h.rel))))) ∧
              ((∀ w ∈ wordsOfSpan (h.sb + h.rel) n, e.fm.tag (4 * w) ≠ .object) →
                (m = .first → check e = .ok ()) ∧
                (m ≠ .first → (∀ x, rowShape e.fm (e.reg d).toNat = .error x → check e = .error x) ∧
                  (∀ g, rowShape e.fm (e.reg d).toNat = .ok g → check e = .ok ())))))))) ∧
  (∀ (s : State) (e : Env) (roll : Fin 16) (a : Reg) (sK : Fin 384), openWord s = some e →
    let mask := BitVec.ofNat 64 ((e.sreg sK.val).toNat + 2 ^ 32 * (e.sreg (sK.val + 1)).toNat)
    let base := (e.reg a).toNat
    let members := ∀ j, j < 64 → mask.getLsbD j = true → base + j < Rec.threads e.fm.rcd ∧
      ∃ th, Tab.find? (threadKey e.th.form (base + j)) s.threads = some th ∧ th.core = e.th.core
    (e.ctx.frozen ≠ none → exec (.rolldecl roll a sK) s = .next (e.waiting .frozen s)) ∧
    (e.ctx.frozen = none →
    (mask ≠ 0 → members → (e.ctx.roll roll.val).sigs = [] →
      exec (.rolldecl roll a sK) s = .next (e.afterIn s.fresh (fun c =>
        ((c.act (.rolldecl roll.val base mask)).act (.matrix (blank s (.rolldecl roll a sK)))).putDone .none
          (.matrix s.serial)))) ∧
    ((mask = 0 ∨ ¬ members) → exec (.rolldecl roll a sK) s = .next (e.trapped 0x04 0 0)) ∧
    (mask ≠ 0 → members → (e.ctx.roll roll.val).sigs ≠ [] →
      exec (.rolldecl roll a sK) s = .next (e.waiting .roll s)))) ∧
  (∀ (s : State) (e : Env) (n : Fin 13) (d a : Reg) (b : Src) (h g : HallRef) (hs : Nat → HallRef), openWord s = some e →
    e.ctx.frozen = none → rowRead e.fm (e.reg a).toNat = .ok h →
    firstOutside e.fm.rcd (e.src b).toNat 1 = none → resolve e.fm.rcd (e.src b).toNat = some g →
    g.rel + 256 * n.val ≤ g.seg.extent →
    (∀ i, i < n.val → rowRead e.fm ((e.src b).toNat + 256 * i) = .ok (hs i)) →
    ∃ v : Nat, v < 2 ^ n.val ∧ (∀ i, i < n.val → v.testBit i = hashBit (rowFP e.fm h) (rowFP e.fm (hs i))) ∧
      exec (.sghash n d a b) s = .next (e.afterIn s.fresh (fun c =>
        let c1 := match d with | .t _ => c.put d (BitVec.ofNat 32 v) | _ => c
        let dst := match d with | .g r => LatDst.g r.val | _ => .none
        { c1.act (.matrix (blank s (.sghash n d a b))) with
          lats := c1.lats ++ [{ tok := none, dst := dst, val := BitVec.ofNat 32 v, kind := .matrix s.serial }] }))) ∧
  (∀ (s : State) (e : Env) (n : Fin 13) (d a : Reg) (b : Src), openWord s = some e →
    let out := exec (.sghash n d a b) s
    (e.ctx.frozen ≠ none → out = .next (e.waiting .frozen s)) ∧
    (e.ctx.frozen = none →
      (∀ c v, rowRead e.fm (e.reg a).toNat = .error (c, v) → out = .next (e.trapped c v 0)) ∧
      (∀ h, rowRead e.fm (e.reg a).toNat = .ok h →
        (∀ x, firstOutside e.fm.rcd (e.src b).toNat 1 = some x → out = .next (e.trapped 0x07 (BitVec.ofNat 32 x) 0)) ∧
        (∀ g, firstOutside e.fm.rcd (e.src b).toNat 1 = none → resolve e.fm.rcd (e.src b).toNat = some g →
          (g.seg.extent < g.rel + 256 * n.val →
            out = .next (e.trapped 0x07 (BitVec.ofNat 32 (g.seg.base + g.seg.extent)) 0)) ∧
          (g.rel + 256 * n.val ≤ g.seg.extent → ∀ i c v, i < n.val →
            (∀ j, j < i → ∃ x, rowRead e.fm ((e.src b).toNat + 256 * j) = .ok x) →
            rowRead e.fm ((e.src b).toNat + 256 * i) = .error (c, v) → out = .next (e.trapped c v 0)))))) ∧
  (∀ (s : State) (e : Env) (a : Reg) (b : Src), openWord s = some e →
    (e.ctx.frozen ≠ none → exec (.spk a b) s = .next (e.waiting .frozen s)) ∧
    (e.ctx.frozen = none →
      (∀ c v, denseTile e.fm (e.reg a).toNat = .error (c, v) → exec (.spk a b) s = .next (e.trapped c v 0)) ∧
      (∀ h, denseTile e.fm (e.reg a).toNat = .ok h →
        (∀ c v, sparseTile e.fm h.seg.fmt (e.src b).toNat = .error (c, v) → exec (.spk a b) s = .next (e.trapped c v 0)) ∧
        (∀ g, sparseTile e.fm h.seg.fmt (e.src b).toNat = .ok g →
          let data := (List.range 64).flatMap (fun r => packUnit h.seg.fmt ((List.range 64).map (fun k =>
            leNat ((List.range (elemBytes h.seg.fmt)).map (fun i =>
              e.bytes h ((h.rel / 4 + 64 * r + k) * elemBytes h.seg.fmt + i))))))
          let w : HallW := { addr := g.sb + g.rel / 256 * unitBytes g.seg.fmt 0, bytes := data, tag := .full }
          exec (.spk a b) s = .next (e.afterIn s.fresh (fun c =>
            (c.act (.matrix { blank s (.spk a b) with writes := [w] })).putDone .none (.matrix s.serial))))))) ∧
  (∀ (f : Form) (a : Nat) (h : HallRef), tileShape f a true = .ok h →
    ((h.seg.geom ≠ 0 ∨ (h.seg.fmt ≠ 2 ∧ h.seg.fmt ≠ 3)) → denseTile f a = .error (0x08, BitVec.ofNat 32 a)) ∧
    (h.seg.geom = 0 → (h.seg.fmt = 2 ∨ h.seg.fmt = 3) → (firstPoison f h (List.range 4096) = none → denseTile f a = .ok h) ∧
      (∀ x, firstPoison f h (List.range 4096) = some x → denseTile f a = .error (0x0F, BitVec.ofNat 32 x))) ∧
    (∀ fmt, let paired := (fmt = 3 ∧ h.seg.fmt = 7) ∨ (fmt = 2 ∧ h.seg.fmt = 8)
      let o := h.sb + h.rel / 256 * unitBytes h.seg.fmt 0
      (¬ paired → sparseTile f fmt a = .error (0x08, BitVec.ofNat 32 a)) ∧
      (paired → (∀ i, i < 64 * unitBytes h.seg.fmt 0 → f.tag (o + i) ≠ .object) → sparseTile f fmt a = .ok h))) ∧
  (∀ (s : State) (e : Env) (a : Reg) (h : HallRef), openWord s = some e →
    firstOutside e.fm.rcd (e.reg a).toNat 1 = none → resolve e.fm.rcd (e.reg a).toNat = some h →
    h.rel + 73728 ≤ h.seg.extent → (e.reg a).toNat % 256 = 0 → h.seg.fmt = 0 →
    (∀ w ∈ wordsOfSpan (h.sb + h.rel) 73728, e.fm.tag (4 * w) ≠ .object) →
    let others := e.ctx.others [e.cl]
    let rest := others.filter (fun o => !o.saves)
    let free := e.ctx.frozen ≠ none ∨ (rest.length ≤ 1 ∧ (∀ o ∈ rest, isProduct o.ins = true) ∧
      ∀ o ∈ others, s.uncommitted e.th.form o.id = false ∨ s.heldBack e.th.form o = true)
    (free → exec (.msave a) s = .next (e.afterIn s.fresh (fun c =>
      (c.act (.msave (h.sb + h.rel) s.serial)).putDone .none (.matrix s.serial)))) ∧
    (¬ free → exec (.msave a) s = .next (e.waiting .drain s))) ∧
  (∀ (s : State) (e : Env) (a : Reg), openWord s = some e →
    (∀ c v, restoreAddr e.fm (e.reg a) = .error (c, v) → exec (.mrestore a) s = .next (e.trapped c v 0)) ∧
    (∀ h, restoreAddr e.fm (e.reg a) = .ok h → e.ctx.others [e.cl] ≠ [] →
      exec (.mrestore a) s = .next (e.waiting .drain s)) ∧
    (∀ h, restoreAddr e.fm (e.reg a) = .ok h → e.ctx.others [e.cl] = [] →
      (∀ c v, s.restoreCheck e.th.form e.th.core e.fm (e.reg a) = .error (c, v) →
        exec (.mrestore a) s = .next (e.trapped c v 0)) ∧
      (∀ img, s.restoreCheck e.th.form e.th.core e.fm (e.reg a) = .ok img →
        exec (.mrestore a) s = .next (e.afterIn s.fresh (fun c =>
          (c.act (.mrestore (e.reg a) e.idx s.serial)).putDone .none (.matrix s.serial)))))) ∧
  (∀ (f : Form) (a : Nat) (h : HallRef) (units : HallRef → List (List Nat)), rowShape f a = .ok h →
    (isSP24 h.seg.fmt = true → rowStore f a units = .error (0x08, BitVec.ofNat 32 a)) ∧
    (isSP24 h.seg.fmt = false →
      (∀ u ∈ units h, ∀ o ∈ u, f.tag o = .object → ∃ v, rowStore f a units = .error (0x09, v)) ∧
      ((∀ u ∈ units h, ∀ o ∈ u, f.tag o ≠ .object) →
        (∀ u ∈ units h, ∀ o ∈ u, f.tag o = .poisoned → wholeWord u o = false → ∃ v, rowStore f a units = .error (0x0F, v)) ∧
        ((∀ u ∈ units h, ∀ o ∈ u, f.tag o = .poisoned → wholeWord u o = true) → rowStore f a units = .ok h)))) ∧
  (∀ (f : Form) (a : Word) (h : HallRef), a.toNat < 2 ^ 23 → resolve f.rcd a.toNat = some h →
    (h.seg.extent < h.rel + 73728 → restoreAddr f a = .error (0x07, BitVec.ofNat 32 (h.seg.base + h.seg.extent))) ∧
    (h.rel + 73728 ≤ h.seg.extent → a.toNat % 256 = 0 → h.seg.fmt = 0 → restoreAddr f a = .ok h)) ∧
  (∀ (s : State) (f core : Nat) (fm : Form) (a : Word),
    ((2 ^ 23 ≤ a.toNat ∨ resolve fm.rcd a.toNat = none) → s.restoreCheck f core fm a = .error (0x07, a)) ∧
    (∀ h, a.toNat < 2 ^ 23 → resolve fm.rcd a.toNat = some h →
      let words := wordsOfSpan (h.sb + h.rel) 73728
      let img := words.map (fun w => fm.word (4 * w))
      (h.seg.extent < h.rel + 73728 →
        s.restoreCheck f core fm a = .error (0x07, BitVec.ofNat 32 (h.seg.base + h.seg.extent))) ∧
      (h.rel + 73728 ≤ h.seg.extent →
        ((a.toNat % 256 ≠ 0 ∨ h.seg.fmt ≠ 0) → s.restoreCheck f core fm a = .error (0x08, a)) ∧
        (a.toNat % 256 = 0 → h.seg.fmt = 0 → (∀ w ∈ words, fm.tag (4 * w) ≠ .poisoned) →
          (imgAt img 0 / 65536 ≠ 1 → s.restoreCheck f core fm a = .error (0x12, 0)) ∧
          (imgAt img 0 / 65536 = 1 →
            let sound := (∀ r ∈ (fm.mctx (fm.fcOf core)).rolls, r.2.sigs = []) ∧ s.imgThreads f core fm.rcd img = true ∧
              imgReserved img = true
            (sound → s.restoreCheck f core fm a = .ok img) ∧
            (¬ sound → s.restoreCheck f core fm a = .error (0x04, 0)))))))

/-! ## Events -/

/-- The events of a thread: a SLEEP ends at its cycle; a dispatch puts the fetched clause behind the outstanding ones, with
the next issue number, or raises its first failing check; a result that arrives writes its register and ends its count, an
s register only where no later-issued write has been performed; an asynchronous cause is taken in the order 0x11, 0x10,
0x13, at the next clause once none is outstanding, or at the first outstanding clause where a wait of R27 is inside it (0x13
ends any wait); the watchdog pends 0x13 to every thread of a form that is not shed; the youngest GROW
of a stuck core answers 0; 4 ms after a shed the kernel parks; nothing else changes. Which waits end for a cause where
R27 does not name them is log 89, and the order of s register writes log 88. -/
def Obligations.ThreadEvents : Prop :=
  (∀ (s : State) (t i till : Nat) (th : Thread) (c : Clause), Tab.find? t s.threads = some th → th.clauses[i]? = some c →
    c.wait = .sleep till → (∀ j b u, j < i → th.clauses[j]? = some b → b.wait ≠ .sleep u) →
    till ≤ (s.cluster (th.core / 8)).cyc → happens (.sleepExpire t) s (·.modThread t (·.endWord i id))) ∧
  (∀ (s s1 : State) (t : Nat) (th : Thread) (fm : Form), Tab.find? t s.threads = some th →
    Tab.find? th.form s.forms = some fm → th.mayDispatch fm s.clock = true →
    (∀ c, s.tryDispatch fm th = .go c s1 → happens (.clauseDispatch t) s (fun _ =>
      ((s1.fresh.modForm th.form (fun f => { f with watchdog := 0 })).modCore th.core (fun x => { x with growIdle := 0 })).modThread t
        (fun x => { x with
          clauses := x.clauses ++ [c], pc := c.next, wait := .none, sw := false, age := 0,
          noBreak := if x.noBreak = some c.va then none else x.noBreak }))) ∧
    (∀ w, s.tryDispatch fm th = .wait w s1 →
      happens (.clauseDispatch t) s (fun _ => s1.modThread t (fun x => { x with wait := w }))) ∧
    (∀ c w d p, s.tryDispatch fm th = .fault c w d p s1 → happens (.clauseDispatch t) s (fun _ =>
      s1.raise t th.clauses.length
        { cause := c, pc := th.pc, word := w, place := p, data := d, addr := 0, async := false }))) ∧
  (∀ (s : State) (t j : Nat) (th : Thread) (l : Machine.Lat), Tab.find? t s.threads = some th → th.lats[j]? = some l →
    l.kind = .value → th.pending = none →
    (∀ n, l.dst = .g n → happens (.longLatencyResult t j) s (·.modThread t (fun x =>
      { x with g := SMap.set 0 n l.val x.g, lats := x.lats.eraseIdx j }))) ∧
    (∀ n, l.dst = .s n → happens (.longLatencyResult t j) s (fun s =>
      (s.modForm th.form (·.modBench th.bench (·.put1 l.seq n l.val))).modThread t (fun x => { x with lats := x.lats.eraseIdx j }))) ∧
    (l.dst = .none → happens (.longLatencyResult t j) s (·.modThread t (fun x =>
      { x with lats := x.lats.eraseIdx j })))) ∧
  (∀ (s : State) (t : Nat) (th : Thread) (fm : Form) (c : Nat), Tab.find? t s.threads = some th →
    Tab.find? th.form s.forms = some fm → th.status = .live → th.pending = none → fm.move = none →
    (fm.phase = .running ∨ fm.phase = .yielding) →
    (th.pend11 = true ∧ c = 0x11 ∨ th.pend11 = false ∧ th.trapState = false ∧
      (th.pend10 = true ∧ c = 0x10 ∨ th.pend10 = false ∧ th.pend13 = true ∧ c = 0x13)) →
    let taken := fun (i : Nat) (pc : VAddr) (place : Nat) =>
      happens (.asyncTrapTaken t) s (fun s => (s.modThread t (·.clearPend c)).raise t i
        { cause := c, pc := pc, word := 0, place := place, data := 0, addr := 0, async := true })
    (th.clauses = [] → taken 0 th.pc (s.placeAt fm.cluster fm.ctx th.pc)) ∧
    (∀ x r, th.clauses = x :: r →
      ((x.wait.interruptible = true ∨ (c = 0x13 ∧ x.wait ≠ .none)) → taken 0 x.va (trapPlaceOf x.hdr.cls)) ∧
      (x.wait.interruptible = false → (c = 0x13 → x.wait = .none) → exec (.asyncTrapTaken t) s = .next s))) ∧
  (∀ (s : State) (f : Nat) (fm : Form), Tab.find? f s.forms = some fm → fm.phase = .running → fm.shed = false →
    2 ^ 29 ≤ fm.watchdog → happens (.watchdogExpire f) s (fun s =>
      { s with
        forms := Tab.mod f (fun x => { x with watchdog := 0 }) s.forms,
        threads := s.threads.map (fun p =>
          (p.1, if p.2.form = f ∧ p.2.status ≠ .exited then { p.2 with pend13 := true } else p.2)) })) ∧
  (∀ (s : State) (core since lane row t i k u : Nat) (th : Thread) (c : Clause) (d : Reg) (n : Src)
    (q : List (Nat × Instr)), (since, lane, row, t) ∈ s.growWaits core →
    (∀ y ∈ s.growWaits core, y ≠ (since, lane, row, t) → y.1 < since ∨ (y.1 = since ∧ (y.2.1 < lane ∨
      (y.2.1 = lane ∧ y.2.2.1 < row)))) →
    s.growStuck core = true → 2048 ≤ (s.core core).growIdle → Tab.find? t s.threads = some th →
    th.clauses[i]? = some c → c.wait = .grow u → c.todo = (k, .grow d n) :: q →
    (∀ j b v, j < i → th.clauses[j]? = some b → b.wait ≠ .grow v) →
    happens (.growDeadlock core) s (fun s => (s.modCore core (fun x => { x with growIdle := 0 })).modThread t
      (·.endWord i (·.put d 0)))) ∧
  (∀ (s : State) (t : Nat) (th : Thread) (fm : Form), Tab.find? t s.threads = some th →
    Tab.find? th.form s.forms = some fm → th.status = .live → fm.shed = true → fm.phase = .running → fm.shedTick + 3200000 ≤ s.clock →
    happens (.parkTimeout t) s (·.modThread t (fun x => { x with pend11 := true })))

/-- FORM_ADMIT: the first candidate of its partition goes to the lowest cluster that fits it, at a placement of it: a new
form's staging begins with every thread live at ENTRY, with BODY and the record's pointers as they stand in memory then, and
its node runs; where none fits, the victims of R165 are asked to yield, and what they free is kept for the candidate: in
host-assisted mode those that the kernel names on a cluster of the partition, each by a slot it holds, if it then fits
there. A form that was pre-empted has its node's E, whatever PRIO it has lowered since. E grows a level each millisecond, up to 16. -/
def Obligations.AdmissionEvents : Prop :=
  (∀ (s : State) (f k : Nat) (ks : List Nat) (c : Cand) (n : Node) (seats : List Seat) (img : List Word),
    s.cands.find? (fun c => c.f == f) = some c → s.isFirst c = true → s.fitting c = k :: ks → seatsCluster seats = k →
    s.placedWell (s.needOf c []) k seats = true → Tab.find? f s.forms = none → Tab.find? c.node s.nodes = some n →
    let first := s.nodeState c.node = 1
    let body := if first then s.bodyOf c.node else n.body
    let va := (body.getD 0 0).toNat + 2 ^ 32 * (body.getD 1 0).toNat
    (first → s.nodeBad c.node = false) → s.readHeld n.ctx va 448 = false → s.readRecord n.ctx va = some img →
    ∃ t fm, exec (.formAdmit f seats) s = .next t ∧ Tab.find? f t.forms = some fm ∧
      fm.phase = .staging ∧ fm.cluster = k ∧ fm.node = c.node ∧ fm.lin = c.lin ∧ fm.prio = n.prio ∧ fm.hall = [] ∧
      fm.rcd = admitRecord n.rcd img ∧ fm.benches.map (·.seat) = seats.take (Rec.benches fm.rcd) ∧
      (∀ j, j ≠ f → Tab.find? j t.forms = Tab.find? j s.forms) ∧
      (∀ tid, tid < Rec.threads fm.rcd → ∃ th, Tab.find? (threadKey f tid) t.threads = some th ∧ th.status = .live ∧
        th.pc = BitVec.ofNat 56 (Rec.entry fm.rcd) ∧ th.form = f ∧ th.tid = tid ∧ th.w = Rec.allotLane fm.rcd ∧
        (∀ g, SMap.get 0 g th.g = 0)) ∧
      (∃ m, Tab.find? c.node t.nodes = some m ∧ m.next = n.next + 1 ∧ m.body = body)) ∧
  (∀ (s : State) (f k : Nat) (vs : List (Nat × Form)) (c : Cand) (seats : List Seat),
    s.cands.find? (fun c => c.f == f) = some c → s.isFirst c = true → s.fitting c = [] → s.kernelAdmits = false →
    s.chooseVictims c = some (k, vs) → ∃ t r, exec (.formAdmit f seats) s = .next t ∧
      r ∈ (t.cluster k).reserved ∧ r.form = c.f ∧ (∀ p ∈ vs, p.1 ∈ r.victims) ∧ t.mem = s.mem ∧
      (∀ j fm, Tab.find? j s.forms = some fm → ∃ fm', Tab.find? j t.forms = some fm' ∧
        (j ∉ vs.map (·.1) → fm' = fm) ∧
        (j ∈ vs.map (·.1) → fm.phase = .running → fm'.phase = .yielding ∧ fm'.yieldTick = s.clock ∧ fm'.prio = fm.prio)) ∧
      (∀ p ∈ vs, p.2.prio < c.e)) ∧
  (∀ (s : State) (f : Nat) (c : Cand) (seats : List Seat),
    s.cands.find? (fun c => c.f == f) = some c → s.isFirst c = true → s.fitting c = [] → s.kernelAdmits = true →
    let cl := seatsCluster seats
    let vs := s.namedVictims c cl seats
    (∀ v ∈ vs, ∃ fm, (v, fm) ∈ s.forms ∧ fm.cluster = cl ∧ fm.prio < c.e ∧ s.spokenFor c.f cl v = false ∧
      ∃ b ∈ fm.benches, ∃ x ∈ seats, x.core = b.seat.core ∧ x.row = b.seat.row ∧ b.seat.lane ≤ x.lane ∧
        x.lane < b.seat.lane + Rec.width fm.rcd) ∧
    ((cl ∉ c.part ∨ s.fits (s.needOf c vs) cl = false) → exec (.formAdmit f seats) s = .next s) ∧
    (cl ∈ c.part → s.fits (s.needOf c vs) cl = true → ∃ t r, exec (.formAdmit f seats) s = .next t ∧
      r ∈ (t.cluster cl).reserved ∧ r.form = c.f ∧ (∀ v ∈ vs, v ∈ r.victims) ∧ t.mem = s.mem ∧
      (∀ j fm, Tab.find? j s.forms = some fm → ∃ fm', Tab.find? j t.forms = some fm' ∧ (j ∉ vs → fm' = fm) ∧
        (j ∈ vs → fm.phase = .running → fm'.phase = .yielding ∧ fm'.yieldTick = s.clock ∧ fm'.prio = fm.prio)))) ∧
  (∀ (s : State) (pa : Nat) (n : Node) (c : Cand), c ∈ s.candsOf pa n →
    c.node = pa ∧ c.e = effective n.prio (s.levels n) ∧ c.seq = n.seq ∧ c.part = n.part ∧ n.kind = 0) ∧
  (∀ (s : State) (c : Cand), c ∈ s.cands → s.droop.level ≤ c.prio / 16) ∧
  (∀ a b : Cand, a.before b = true ↔ b.e < a.e ∨ (b.e = a.e ∧ (a.seq < b.seq ∨ (a.seq = b.seq ∧ a.lin < b.lin)))) ∧
  (∀ (s : State) (n : Node) (prio : Nat), prio ≤ 127 → (s.clock - n.readyTick) / 800000 ≤ s.levels n ∧
    prio ≤ effective prio (s.levels n) ∧ effective prio (s.levels n) ≤ 127 ∧ effective prio (s.levels n) ≤ prio + 16) ∧
  (∀ (r : SMap Word) (seats : List Seat), (coresOf r seats).length = Rec.cores r ∧
    (∀ i, i < Rec.cores r → benchesAt r i = [] → (coresOf r seats)[i]? = some (seats.getD i noSeat).core)) ∧
  (∀ (s : State) (f pa : Nat) (n : Node),
    List.find? (fun (p : Nat × Node) => decide (p.2.kind = 0 ∧ p.2.fbase ≤ f ∧ f < p.2.fbase + p.2.forms)) s.nodes =
      some (pa, n) → n.aged < 16 → n.readyTick + 800000 * (n.aged + 1) ≤ s.clock → 1 ≤ s.nodeState pa →
    happens (.effectivePriorityAging f) s (fun s =>
      { s with nodes := Tab.mod pa (fun n => { n with aged := n.aged + 1 }) s.nodes }))

/-- The life of a form: staged regions make its threads eligible, or have it yield if it was asked to meanwhile; a region
that breaks its page ends the launch with 0x09, and one that a replay finds different from its recording with 0x0B; retiring
frees all but the hall and discards the messages that wait for the form, the write-back ends the form and counts at its node;
a yielded form keeps its record and the count of its completed meetings, and restores; a forced save, in host-assisted mode
only with the host's word, keeps every register, each thread in whatever state it is but in the middle of a word, leaves
nothing frozen and resumes where the form stopped; a move, once every clause that can go on has executed, keeps them too,
with the watchdog's count and the rest of each SLEEP, and changes the place. That a form asked to yield while it is being
staged yields once its staging is complete is log 53. -/
def Obligations.FormLifeEvents : Prop :=
  (∀ (s s1 : State) (f : Nat) (fm : Form) (ms : List (Nat × List Move)), Tab.find? f s.forms = some fm → fm.phase = .staging →
    s.regionsWork fm false (regionsOf fm.rcd false) = .go s1 ms → movesHeld s1 fm (allMoves ms) = false →
    (s1.regionsDiffer fm ms = false → happens (.stagingComplete f) s (fun _ =>
      ((ms.foldl (fun t x => t.played (regionItem s1 fm false x)) (s1.keepRegions fm false ms)).perform f (allMoves ms)).modForm f
        (fun x => { x with phase := if x.asked then .yielding else .running, asked := false }))) ∧
    (s1.regionsDiffer fm ms = true → happens (.stagingComplete f) s (fun _ => s1.endLaunch fm.node 0x0B))) ∧
  (∀ (s : State) (f : Nat) (fm : Form), Tab.find? f s.forms = some fm → fm.phase = .staging →
    s.regionsWork fm false (regionsOf fm.rcd false) = .bad →
    happens (.stagingComplete f) s (fun s => (s.note (.region f)).endLaunch fm.node 0x09)) ∧
  (∀ (s : State) (f : Nat) (fm : Form), Tab.find? f s.forms = some fm → (fm.phase = .running ∨ fm.phase = .yielding) →
    (∀ p ∈ s.threads, p.2.form = f → p.2.status = .exited) → s.enginesDone fm.cluster f = true →
    happens (.formRetire f) s (fun s =>
      let t := (s.freed f false).discardMail fm
      { t with
        forms := Tab.mod f (fun x => { x with phase := .writeBack, benches := [], ctxs := [], move := none }) t.forms,
        threads := t.threads.filter (fun p => p.2.form != f) })) ∧
  (∀ (s : State) (fm : Form), (∀ p ∈ (s.discardMail fm).fifos, p ∈ s.fifos ∧
    ¬ (p.1 / 2 ^ 128 = fm.node ∧ p.1 % 2 ^ 64 = fm.lin)) ∧ (s.discardMail fm).threads = s.threads ∧
    (s.discardMail fm).mailOut = s.mailOut) ∧
  (∀ (s s1 : State) (f : Nat) (fm : Form) (ms : List (Nat × List Move)), Tab.find? f s.forms = some fm → fm.phase = .writeBack →
    s.regionsWork fm true (regionsOf fm.rcd true) = .go s1 ms → movesHeld s1 fm (allMoves ms) = false →
    (movesPoison fm (allMoves ms) = false → happens (.writeBackComplete f) s (fun _ =>
      let t := ((s1.keepRegions fm true ms).perform f (allMoves ms)).removeForm f
      { t with nodes := Tab.mod fm.node (fun n => { n with retired := n.retired + 1 }) t.nodes })) ∧
    (movesPoison fm (allMoves ms) = true → happens (.writeBackComplete f) s (fun _ => s1.poisonEnd f fm))) ∧
  (∀ (s : State) (f : Nat) (fm : Form), Tab.find? f s.forms = some fm → fm.phase = .yielding →
    (∀ p ∈ s.threads, p.2.form = f → p.2.status = .exited ∨ p.2.status = .yielded) →
    (∃ p ∈ s.threads, p.2.form = f ∧ p.2.status = .yielded) → s.enginesDone fm.cluster f = true →
    ∃ t fm', exec (.formYielded f) s = .next t ∧ Tab.find? f t.forms = some fm' ∧ fm'.phase = .queued ∧
      fm'.resume = .restore ∧ fm'.rcd = fm.rcd ∧ fm'.prio = fm.prio ∧ fm'.hall = [] ∧ fm'.tags = [] ∧ fm'.objs = [] ∧
      fm'.resv = [] ∧ fm'.waiters = [] ∧ (∀ c ∈ fm'.ctxs, c = MCtx.reset) ∧ t.mem = s.mem ∧
      (∀ b ∈ fm'.benches, b.seat = noSeat ∧ b.s = []) ∧
      fm'.benches.map (·.meets) = fm.benches.map (fun b =>
        (b.meets.filter (·.done)).map (fun a => { a with taken := true, got := [] })) ∧
      (∀ j, j ≠ f → Tab.find? j t.forms = Tab.find? j s.forms)) ∧
  (∀ (s : State) (f : Nat) (host : Bool) (fm : Form), Tab.find? f s.forms = some fm → fm.saveDue s.clock = true →
    (s.modectl.getLsbD 2 = true → host = true) →
    s.allExited f = false → s.enginesDone fm.cluster f = true →
    (∀ c ∈ fm.cores, ∀ l ∈ (s.core c).loads, l.form ≠ f) →
    (∀ c ∈ fm.ctxs, c.ops = [] ∧ ∀ o, c.frozen ≠ some (some o)) →
    (∀ p ∈ s.threads, p.2.form = f → p.2.status ≠ .live ∨ p.2.clauses = [] ∨
      ∃ c r, p.2.clauses = c :: r ∧ c.wait ≠ .none) →
    ∃ t fm', exec (.forcedSave ⟨f, host⟩) s = .next t ∧ Tab.find? f t.forms = some fm' ∧ fm'.phase = .queued ∧
      fm'.resume = .direct ∧ fm'.rcd = fm.rcd ∧ fm'.hall = fm.hall ∧ fm'.tags = fm.tags ∧
      fm'.savedBanks = s.banksOf f fm.cores ∧ (∀ fc, fc < fm.cores.length → (fm'.mctx fc).frozen = none) ∧
      t.mem = s.mem ∧
      (∀ k th, Tab.find? k s.threads = some th → Tab.find? k t.threads =
        some (if th.form = f then { th with
          pc := match th.clauses, th.pending with | c :: _, _ => c.va | [], some p => p.pc | [], none => th.pc
          pending := if th.clauses = [] then th.pending.filter (fun p => decide (p.cause ≠ 0x10)) else none
          clauses := [], wait := .none, pend10 := false, core := 512 } else th))) ∧
  (∀ (s : State) (f cl : Nat) (fm : Form) (seats : List Seat), Tab.find? f s.forms = some fm → fm.move = some (cl, seats) →
    (∀ p ∈ s.threads, p.2.form = f → p.2.pending = none ∧ (∀ c r, p.2.clauses = c :: r → c.wait.interruptible = true ∧
      ∀ i b, p.2.clauses[i]? = some b → p.2.canRun i = false ∨ b.wait ≠ .none)) →
    (∀ c ∈ fm.ctxs, c.ops = []) → s.enginesDone fm.cluster f = true →
    (∀ c ∈ fm.cores, ∀ l ∈ (s.core c).loads, l.form ≠ f) →
    (Rec.wsize fm.rcd ≠ 0 → ∀ x ∈ s.loadsOf (cl / 16), windowHits fm.rcd x.1 x.2 = false) →
    ∃ t fm', exec (.formMigrate f) s = .next t ∧ Tab.find? f t.forms = some fm' ∧ fm'.cluster = cl ∧ fm'.move = none ∧
      fm'.moved = s.clock ∧ fm'.hall = fm.hall ∧ fm'.tags = fm.tags ∧ fm'.ctxs = fm.ctxs ∧ fm'.phase = fm.phase ∧
      fm'.watchdog = fm.watchdog ∧
      t.mem = s.mem ∧
      (∀ k th, Tab.find? k s.threads = some th → ∃ u, Tab.find? k t.threads = some u ∧
        (th.form ≠ f → u = th) ∧ u.g = th.g ∧ u.place = th.place ∧ u.pc = th.pc ∧ u.ns = th.ns ∧
        u.lats = th.lats ∧ u.status = th.status ∧ (th.form = f → u.clauses = th.clauses.map (fun c =>
          c.waits (c.wait.rebase (s.cluster fm.cluster).cyc (s.cluster cl).cyc)))))

/-- The nodes of the timetable: a doorbell writes its slot and offers the image once the windows are open, which waits in the
slot while its page may not be written or an uncorrectable atom holds it; an inserted node stands in its page as the page's
format has it (log 17), the D bit set first; a node starts when it is the next of those ready, and reads its body; a collective's record must keep the limits of R119; a host event waits
for room; a node that is over completes: its STATE is 3 and the PRED of each successor of its list falls, in list order, the last one
making it ready. -/
def Obligations.NodeEvents : Prop :=
  (∀ (s : State) (fn slot ctx : Nat) (part : List Nat) (va : VAddr) (img : List Word),
    Tab.find? fn s.binding = some (part, ctx) → s.booted = true → slot < 511 → img.length = 32 → fn ≤ 16 →
    s.replaying = false →
    let free : State := { s with slots := Tab.del (slotKey fn slot) s.slots }
    let kept : State := { s with slots := Tab.put (slotKey fn slot) (va.toNat, img) s.slots }
    ((Tab.find? (slotKey fn slot) s.slots).isSome = true →
      happens (.doorbell fn slot va img) s (fun s => s.note (.doorbell fn slot))) ∧
    (Tab.find? (slotKey fn slot) s.slots = none → (s.leafSpan ctx va.toNat).any s.isBad = true →
      happens (.doorbell fn slot va img) s (fun _ => kept)) ∧
    (Tab.find? (slotKey fn slot) s.slots = none → (s.leafSpan ctx va.toNat).any s.isBad = false →
      (s.leafAt ctx va.toNat = none → happens (.doorbell fn slot va img) s (fun _ => free.note (.doorbell fn slot))) ∧
      (∀ pte, s.leafAt ctx va.toNat = some pte → let pa := nodeKey pte va.toNat
        ((va.toNat % 128 ≠ 0 ∨ pteType pte ≠ 0 ∨ (Tab.find? pa s.nodes).isSome = true) →
          happens (.doorbell fn slot va img) s (fun _ => free.note (.doorbell fn slot))) ∧
        (va.toNat % 128 = 0 → pteType pte = 0 → Tab.find? pa s.nodes = none →
          (∀ w, s.insertWait ctx va.toNat pte img = some w → happens (.doorbell fn slot va img) s (fun _ =>
            kept.pauseAt ctx w)) ∧
          (s.insertWait ctx va.toNat pte img = none →
            (∀ r, s.insertErr ctx img = (0, r) → happens (.doorbell fn slot va img) s (fun _ =>
              (free.askRecord ctx img).insertNode fn ctx part va.toNat pte img r 127 true)) ∧
            (∀ err r, s.insertErr ctx img = (err, r) → err ≠ 0 → happens (.doorbell fn slot va img) s (fun _ =>
              (free.askRecord ctx img).refuseNode ctx va.toNat pte img err))))))) ∧
  (∀ (s : State) (ctx va : Nat) (pte : BitVec 64) (img : List Word),
    (writable pte = false → s.insertWait ctx va pte img = some (some va)) ∧
    (writable pte = true → (s.putsHeld (s.wordPuts pte va img) = true ∨ s.recordHeld ctx img = true) →
      s.insertWait ctx va pte img = some none) ∧
    (s.insertWait ctx va pte img = none → (s.insertErr ctx img).1 = 0 → (s.writeContext ctx img).isSome = true) ∧
    (pteDirty pte = true → s.writeImage ctx va pte img = s.puts (s.wordPuts pte va img)) ∧
    (pteDirty pte = false → s.writeImage ctx va pte img =
      (s.markDirty ctx va).puts ((s.markDirty ctx va).wordPuts pte va img))) ∧
  (∀ (s : State) (zs : List (Nat × Byte)), s.putsHeld zs = true → s.puts zs = s) ∧
  (∀ (s : State) (fn ctx va cap : Nat) (pte : BitVec 64) (part : List Nat) (img : List Word) (r : SMap Word) (host : Bool),
    ((s.writeImage ctx va pte img).writeContext ctx img).isSome = true →
    let t := s.insertNode fn ctx part va pte img r cap host
    ∃ n, Tab.find? (nodeKey pte va) t.nodes = some n ∧ n.va = va ∧ n.pte = pteSetD pte ∧ n.ctx = ctx ∧
      n.part = part ∧ n.kind = imgKind img ∧ n.prio = min (Rec.prio r) cap ∧ n.succ = s.listed ctx img ∧
      n.next = 0 ∧ n.retired = 0 ∧ (imgPred img = 0 → n.seq = s.readySeq ∧ n.readyTick = s.clock ∧
        t.readySeq = s.readySeq + 1)) ∧
  (∀ (s : State) (img : List Word) (ctx : Nat), (s.insertErr ctx img).1 = 0 ↔ imageOkN img = true ∧
    s.succOk ctx img = true ∧ (imgKind img = 0 → ∃ ws, s.readRecord ctx (imgWord2 img 2) = some ws ∧
      recordErr (recordOf ws) = 0)) ∧
  (∀ (s : State) (pa : Nat) (n : Node), Tab.find? pa s.nodes = some n → s.startsNext pa n = true →
    (n.kind = 1 → s.hitsWeights n.home n.ctx (n.va2 4) (n.word 6) = false →
      happens (.copyNodeStart pa) s (·.startNode pa)) ∧
    (n.kind = 1 → s.hitsWeights n.home n.ctx (n.va2 4) (n.word 6) = true →
      happens (.copyNodeStart pa) s (·.failWith pa 0x0B)) ∧
    (n.kind = 2 → happens (.weightLoadStart pa) s (·.startNode pa))) ∧
  (∀ (s : State) (pa : Nat) (n m : Node), Tab.find? pa s.nodes = some n → n.kind = 3 →
    s.startsNext pa n = true → Tab.find? pa (s.startNode pa).nodes = some m →
    let u := s.startNode pa
    (u.readHeld m.ctx (m.va2 2) 8 = true → happens (.collectiveNodeStart pa) s (fun _ => u)) ∧
    (u.readHeld m.ctx (m.va2 2) 8 = false → u.readWords m.ctx (m.va2 2) 8 = none →
      happens (.collectiveNodeStart pa) s (fun _ => u.pause m.ctx (m.va2 2))) ∧
    (∀ rc, u.readWords m.ctx (m.va2 2) 8 = some rc → u.readHeld m.ctx (m.va2 2) 8 = false → recTransport rc ≠ 1 →
      let t : State := { u.askWords m.ctx (m.va2 2) 8 with draws := u.draws + 1 }
      let gather := recTransport rc == 0
      (t.nodeRecordOk m gather rc = true → happens (.collectiveNodeStart pa) s (fun _ => t.fresh.modCluster m.home (fun c =>
        { c with colls := c.colls ++ [nodeColl t.serial pa (m.word 4) gather rc] }))) ∧
      (t.nodeRecordOk m gather rc = false → happens (.collectiveNodeStart pa) s (fun _ =>
        (t.note (.collective (m.word 4))).failWith pa 0x0B)))) ∧
  (∀ (s : State) (pa : Nat) (n m : Node), Tab.find? pa s.nodes = some n → n.kind = 4 →
    s.startsNext pa n = true → Tab.find? pa (s.startNode pa).nodes = some m →
    let t := s.startNode pa
    let key := mailKey m.fn (m.word 2)
    let posted := fun (u : State) => ({ u with nodes := Tab.mod pa (fun n => { n with retired := 1 }) u.nodes } : State)
    (m.word 2 = 0xFFFFFFFF → happens (.hostEventPost pa) s (fun _ => posted t)) ∧
    let room := t.mailUsed key + t.mailHeld m.fn (m.word 2) + 1 ≤ 16
    (m.word 2 ≠ 0xFFFFFFFF → room → happens (.hostEventPost pa) s (fun _ => posted
      { t with mailOut := Tab.put key (Tab.getD [] key t.mailOut ++
        [{ words := [BitVec.ofNat 32 (m.word 3)], sender := none }]) t.mailOut })) ∧
    (m.word 2 ≠ 0xFFFFFFFF → ¬ room → happens (.hostEventPost pa) s (fun _ => t))) ∧
  (∀ (s : State) (pa : Nat) (n : Node), Tab.find? pa s.nodes = some n → s.nodeState pa = 2 →
    s.walkHeld pa = false → (n.kind = 0 ∧ n.retired = n.forms ∨ (n.kind = 3 ∨ n.kind = 4) ∧ n.retired = 1) →
    let falls := fun (u : State) (p : Nat) =>
      if u.nodeState p ≠ 0 ∨ Tab.find? p u.nodes = none then u
      else if u.nodePred p ≤ 1 then u.makeReady p
      else u.setNode p 0 0 (u.nodePred p - 1)
    happens (.nodeComplete pa) s (fun s => n.succ.foldl falls ((s.setNode pa 3 0 0).dropNode pa))) ∧
  (∀ (s t : State) (pa : Nat) (n : Node), Tab.find? pa s.nodes = some n → s.nodeState pa = 2 → s.walkHeld pa = false →
    (n.kind = 1 ∨ n.kind = 2) →
    s.runTransfer pa n = (t, true) → happens (.nodeComplete pa) s (fun _ => t.completeNode pa))

/-- The copy engines: the operation at the head of a queue starts, once its bits are its own, and a QFENCE that heads every
queue it entered is performed; a copy that learns its formats as it starts takes the bits of the chunks that they add; a copy
with overlapping extents reads every source unit first, and one whose entry forbids it ends the launch; a chunk of a copy whose
pages translate writes the units that it has to, of which some may have been performed before it, and sets its bit, the last
one ends the copy; what a chunk has begun with one translation it ends with it; units that write parts of one poisoned word
are performed together; a started fine-grain copy moves its storage bytes. -/
def copyEngines : Prop :=
  (∀ (s : State) (cl q : Nat) (o : CopyOp) (f : Form), ((s.cluster cl).queue q).head? = some o →
    Tab.find? o.form s.forms = some f → o.started = false →
    (∀ size hall va, o.kind = .gather size hall va →
      happens (.copyOpStart cl q) s (·.modCluster cl (·.modHead q (fun x => { x with started := true })))) ∧
    (∀ data va, o.kind = .scatter data va →
      happens (.copyOpStart cl q) s (·.modCluster cl (·.modHead q (fun x => { x with started := true })))) ∧
    (∀ qs, o.kind = .qfence qs →
      ((∀ x ∈ qs, (((s.cluster cl).queue x).head?).map (fun y => y.id) = some o.id) →
        happens (.copyOpStart cl q) s (·.modCluster cl (·.dropOp o.id))) ∧
      ((∃ x ∈ qs, (((s.cluster cl).queue x).head?).map (fun y => y.id) ≠ some o.id) →
        happens (.copyOpStart cl q) s (fun s => s))) ∧
    (∀ p bm left held, o.kind = .bulk p bm left held →
      (f.ownsFirst o.id bm left = false → happens (.copyOpStart cl q) s (fun s => s)) ∧
      (f.ownsFirst o.id bm left = true → ∀ (t : State) (p' : Plan), s.learn (s.coreOf o.thread f) f p = (t, some p') →
        let set := fun (u : State) (k : CopyKind) (b : Bool) =>
          u.modCluster cl (·.modHead q (fun x => { x with started := b, kind := k }))
        let go := fun (u : State) (h : Option (List (List Byte))) => set (u.modForm o.form (·.giveBits o.id bm p'.skipped))
          (.bulk p' bm (left.filter (fun n => !p'.skipped.contains n)) h) true
        let more := (List.range (p'.lastChunk + 1)).filter (fun c => !left.contains c)
        (p'.mayStart f.rcd = false → happens (.copyOpStart cl q) s (fun _ =>
          (t.note (.translation f.ctx (p'.dst / 65536))).endLaunch f.node 0x0B)) ∧
        (p'.mayStart f.rcd = true → p.known = false → more ≠ [] → happens (.copyOpStart cl q) s (fun _ =>
          set (t.modForm o.form (·.takeBits o.id bm more)) (.bulk p' bm (left ++ more) none) false)) ∧
        (p'.mayStart f.rcd = true → (p.known = true ∨ more = []) →
          (p'.overlaps = false → happens (.copyOpStart cl q) s (fun _ => go t none)) ∧
          (p'.overlaps = true → ∀ (u : State) (es : List TlbEntry) (rs : List (List Byte × List Store)),
            xlatAll (copyXlat (t.coreOf o.thread f) f.ctx) t (srcPages p' p'.units) = (u, some es) →
            p'.units.mapM (fun x => unitRead u f p' (p'.storage (relOf f.rcd p'.src)) es x.1 p'.unit) = some rs →
            let ms := rs.map (fun r => ({ dst := [], bytes := [], reads := r.2 } : Move))
            (movesPoison f ms = true → happens (.copyOpStart cl q) s (fun _ =>
              (u.note (.cause0F o.form)).endLaunch f.node 0x0B)) ∧
            (movesPoison f ms = false → movesHeld u f ms = true → happens (.copyOpStart cl q) s (fun _ => u)) ∧
            (movesPoison f ms = false → movesHeld u f ms = false → happens (.copyOpStart cl q) s (fun _ =>
              go (u.perform o.form ms) (some (rs.map (·.1)))))))))) ∧
  (∀ (s : State) (cl q bm : Nat) (o : CopyOp) (f : Form) (p : Plan) (left : List Nat)
    (held : Option (List (List Byte))), ((s.cluster cl).queue q).head? = some o →
    Tab.find? o.form s.forms = some f → o.started = true → o.kind = .bulk p bm left held →
    let does := s.moveUnits o f p left held (p.units.length + 1)
    let goesOn := fun (rest : List Nat) (us : List (Nat × Nat)) (used : List (Nat × TlbEntry)) (y : CopyOp) =>
      { y with
        kind := .bulk p bm rest held
        moved := y.moved ++ (us.filter (fun x => (p.chunksOf x).all rest.contains)).map (fun x => p.units.findIdx (· == x))
        used := ((y.used ++ used).filter (fun x => rest.contains x.1)).dedup }
    (∀ c, c ∈ left →
      let rest := left.filter (fun n => n != c)
      (∀ t, does (p.dueIn left o.moved c) = (t, none) → happens (.chunkBitSet cl q c) s (fun _ => t)) ∧
      (∀ t us used, does (p.dueIn left o.moved c) = (t, some (us, used)) →
        let u := t.modForm o.form (·.giveBits o.id bm [c])
        (rest = [] → happens (.chunkBitSet cl q c) s (fun _ => u.modCluster cl (·.dropOp o.id))) ∧
        (rest ≠ [] → happens (.chunkBitSet cl q c) s (fun _ => u.modCluster cl (·.modHead q (goesOn rest us used)))))) ∧
    (∀ i x, p.units[i]? = some x → (∀ c ∈ p.chunksOf x, c ∈ left) → i ∉ o.moved →
      (∀ t, does [x] = (t, none) → s.moveUnit cl q i = t) ∧
      (∀ t us used, does [x] = (t, some (us, used)) →
        s.moveUnit cl q i = t.modCluster cl (·.modHead q (goesOn left us used))))) ∧
  (∀ (s t : State) (o : CopyOp) (f : Form) (p : Plan) (left : List Nat) (held : Option (List (List Byte))) (fuel : Nat)
    (us : List (Nat × Nat)) (ms : List Move) (used : List (Nat × TlbEntry)),
    s.movesOf o f p held us (us.map p.chunksOf).dedup = (t, some (ms, used)) →
    let out := s.moveUnits o f p left held (fuel + 1) us
    let more := (sharing f p ms (p.due left o.moved p.units)).filter (fun u => !us.contains u)
    (movesHeld t f ms = true → out = (t, none)) ∧
    (movesHeld t f ms = false →
      (more ≠ [] → out = s.moveUnits o f p left held fuel (us ++ more)) ∧
      (more = [] →
        (movesPoison f ms = true → out = ((t.note (.cause0F o.form)).endLaunch f.node 0x0B, none)) ∧
        (movesPoison f ms = false → out = (t.perform o.form ms, some (us, used)))))) ∧
  (∀ (f : Form) (p : Plan) (ms : List Move) (us : List (Nat × Nat)) (x : Nat × Nat), x ∈ sharing f p ms us ↔
    x ∈ us ∧ ∃ st b, unitPlace f.rcd [] f.ctx p.df p.dg p.e x.2 = some st ∧ Store.hall b ∈ st ∧
      ∃ w ∈ hallBytes ms, w / 4 = b / 4 ∧ f.tag w = .poisoned ∧ wholeWord (hallBytes ms) w = false) ∧
  (∀ (s t : State) (o : CopyOp) (f : Form) (p : Plan) (held : Option (List (List Byte))) (us : List (Nat × Nat))
    (cs : List Nat) (es : List TlbEntry) (ms : List Move), (∀ x ∈ us, p.chunksOf x = cs) →
    xlatAll (keptXlat (o.kept cs) (s.coreOf o.thread f) f.ctx) s
      ((if held.isNone then srcPages p us else []) ++ dstPages p us) = (t, some es) →
    us.mapM (bulkMove t f p held es) = some ms →
    s.movesOf o f p held us [cs] = (t, some (ms, cs.flatMap (fun c => es.map (fun e => (c, e)))))) ∧
  (∀ (o : CopyOp) (cs : List Nat) (e : TlbEntry), e ∈ o.kept cs ↔ ∃ c ∈ cs, (c, e) ∈ o.used) ∧
  (∀ (s : State) (used : List TlbEntry) (core ctx va : Nat) (u : Use),
    (∀ e, used.find? (fun x => x.hits ctx va) = some e → keptXlat used core ctx s va u = s.useEntry ctx va u e) ∧
    ((∀ e ∈ used, e.hits ctx va = false) → keptXlat used core ctx s va u = s.xlat1 core ctx va u)) ∧
  (∀ (p : Plan) (left moved : List Nat) (c : Nat) (u : Nat × Nat), 0 < p.span → p.dst ≤ u.2 →
    (u ∈ p.dueIn left moved c ↔ u ∈ p.units ∧ (u.2 - p.dst) / 512 ≤ c ∧ c ≤ (u.2 - p.dst + p.span - 1) / 512 ∧
      p.units.findIdx (fun x => x == u) ∉ moved ∧
      ∀ k, (u.2 - p.dst) / 512 ≤ k → k ≤ (u.2 - p.dst + p.span - 1) / 512 → k ∈ left)) ∧
  (∀ (s t : State) (cl q : Nat) (o : CopyOp) (f : Form) (es : List TlbEntry) (m : Move),
    ((s.cluster cl).queue q).head? = some o → Tab.find? o.form s.forms = some f → o.started = true →
    ((∃ size hall va, o.kind = .gather size hall va) ∨ (∃ data va, o.kind = .scatter data va)) →
    xlatAll (copyXlat (s.coreOf o.thread f) f.ctx) s (finePages o.kind) = (t, some es) →
    fineMove t f es o.kind = some m → movesHeld t f [m] = false →
    (movesPoison f [m] = false → happens (.fineGrainDone cl q) s (fun _ =>
      (t.perform o.form [m]).modCluster cl (·.dropOp o.id))) ∧
    (movesPoison f [m] = true → happens (.fineGrainDone cl q) s (fun _ =>
      (t.note (.cause0F o.form)).endLaunch f.node 0x0B))) ∧
  (∀ (f : Form) (id bm n : Nat), SMap.wf 0 f.hall = true → n < 256 →
    let g := f.giveBits id bm [n]
    let shared := ∃ o ∈ f.owned, o.1 ≠ id ∧ o.2.1 = bm ∧ o.2.2 = n
    (∀ j, j < 256 → (g.word (bm + 4 * (j / 32))).getLsbD (j % 32) =
      ((decide (j = n) && decide (¬ shared)) || (f.word (bm + 4 * (j / 32))).getLsbD (j % 32))) ∧
    (∀ a, a < bm ∨ bm + 32 ≤ a → g.byte a = f.byte a) ∧
    g.owned = f.owned.filter (fun o => !(o.1 == id && o.2.1 == bm && o.2.2 == n)))

/-- A collective is performed once the operations that its thread issued before it are and it owns its bit, with the arrivals
of the members 0 to the group's size − 1, its own among them: CRED puts the sum of the contributions in arrival order, CGATH
each at its member's index; its residuals are written, its bit set, and its contribution sent to the devices of the other
members. A member whose count, transport or sequence differs is a collective error of the group, and so is a port of the group
that is down; arrivals that are not n elements each perform nothing. In a replay the order is the recorded one. -/
def collectiveEngine : Prop :=
  (∀ (s : State) (cl k : Nat) (c : Coll) (cc : CollCtx) (arrivals : List (List Word)),
    (s.cluster cl).colls[k]? = some c → s.collCtx cl c = some cc →
    let rs := arrivals.map collArrivalOf
    let item := s.collItem c (rs.map (·.member))
    let n := recN c.rc
    let va := recVA c.rc 0
    let res := recVA c.rc 4
    let m := if hasResidual c.gather c.rc then 4 * n else 0
    let total := if c.gather then n * rs.length else n
    (∀ q ∈ (s.cluster cl).queues, ∀ o ∈ q.2, o.id ∉ c.before) → (∀ y ∈ (s.cluster cl).colls, y.id ∉ c.before) →
    (∀ bm b f, c.bit = some (bm, b) → Tab.find? c.form s.forms = some f → f.ownsFirst c.id bm [b] = true) →
    (∀ j, j < rs.length → ∃ a ∈ rs, a.member = j) →
    let forced := s.replaying = true ∧ ∃ y, s.play.find? (sameColl item) = some y ∧ y ≠ item
    s.groupDown (capGroup c.cap) = false →
    (forced → exec (.collectivePerformed cl k arrivals) s = .next s) ∧
    (¬ forced → (∃ a ∈ rs, a.fields ≠ collFields c.rc) →
      happens (.collectivePerformed cl k arrivals) s (·.collectiveError (capGroup c.cap))) ∧
    (¬ forced → (∀ a ∈ rs, a.fields = collFields c.rc) → (∃ a ∈ rs, a.data.length ≠ sentWords (recTransport c.rc) n) →
      exec (.collectivePerformed cl k arrivals) s = .next s) ∧
    (¬ forced → (∀ a ∈ rs, a.fields = collFields c.rc) → (∀ a ∈ rs, a.data.length = sentWords (recTransport c.rc) n) →
      ∀ (t : State) (es : List TlbEntry),
      xlatAll cc.x s ((pagesOf va (4 * total)).map (fun p => (p, Use.write)) ++
        (pagesOf va (4 * n)).map (fun p => (p, Use.read)) ++
        (if m = 0 then [] else (pagesOf res m).flatMap (fun p => [(p, Use.read), (p, Use.write)]))) = (t, some es) →
      collPagesOk cc.ctx es va (4 * total) res m = true →
      let src := pageStores cc.ctx es va (4 * n)
      let resid := pageStores cc.ctx es res m
      let own := contribution (recTransport c.rc) (wordsAt t src) (wordsAt t resid)
      (∃ a ∈ rs, a.member = capMember c.cap ∧ a.data = own.1) →
      let put := fun (a : Nat) (ws : List Word) (reads : List Store) =>
        ({ dst := pageStores cc.ctx es a (4 * ws.length), bytes := ws.flatMap (fun w => leBytes 4 w.toNat), reads := reads } : Move)
      let ms := (collResult c.gather (recTransport c.rc) n (rs.map (fun a => (a.member, a.data)))).map
          (fun r => put (va + 4 * r.1) r.2 []) ++ [put res (if m = 0 then [] else own.2) (src ++ resid)]
      physHeld t ms = false →
      let u := t.perform c.form ms
      let v := match c.bit with | some (bm, b) => u.modForm c.form (·.giveBits c.id bm [b]) | none => u
      let w := (((v.sendOwn c own.1).keep item).played item).modCluster cl (fun x => { x with colls := x.colls.filter (fun y => y.id != c.id) })
      happens (.collectivePerformed cl k arrivals) s (fun _ => match c.node with
        | some p => { w with nodes := Tab.mod p (fun n => { n with retired := 1 }) w.nodes }
        | none => w))) ∧
  (∀ (s : State) (cl k : Nat) (c : Coll) (cc : CollCtx) (arrivals : List (List Word)),
    (s.cluster cl).colls[k]? = some c → s.collCtx cl c = some cc → s.groupDown (capGroup c.cap) = true →
    happens (.collectivePerformed cl k arrivals) s (·.collectiveError (capGroup c.cap))) ∧
  (∀ (s : State) (g : Nat), s.groupDown g = true ↔ ∃ p, p < 16 ∧ (s.port p).up = false ∧ s.groupUses g p = true) ∧
  (∀ (s : State) (g p : Nat), s.groupUses g p = true ↔
    ∃ m ∈ s.members, m.1 = g ∧ m.2 / 4 ≠ Config.deviceId ∧ Config.portTo (m.2 / 4) % 16 = p) ∧
  (∀ (s : State) (c : Coll) (own : List Word) (m : Nat × Nat), s.members.filter (fun m => m.1 == capGroup c.cap) = [m] →
    own ≠ [] → own.length ≤ 56 → s.sendOwn c own = s.emit (m.2 / 4) 2 ((c.rc.getD 6 0).toNat * 2 ^ 32) own) ∧
  (∀ (tr n : Nat), sentWords tr n = if tr = 3 then n / 32 * 33 else n) ∧
  (∀ (tr n : Nat) (arrivals : List (Nat × List Word)), collResult true tr n arrivals = arrivals.map (fun a => (a.1 * n, a.2))) ∧
  (∀ (n : Nat) (a : Nat × List Word) (r : List (Nat × List Word)) (j : Nat), j < n →
    ∃ v w : List Word, collResult false 1 n [] = [(0, List.replicate n 0)] ∧ collResult false 1 n r = [(0, w)] ∧
      collResult false 1 n (r ++ [a]) = [(0, v)] ∧ (j < a.2.length → v[j]? = some (rnAdd (w.getD j 0) (a.2.getD j 0)))) ∧
  (∀ (b : List Word), b.length = 33 → decoded 3 b = b.tail.map (fun q => scaled (b.headD 0).toNat (valOfT8 q.toNat)))

/-- The copy engines and the collectives. A copy whose page's entry or format forbids it when it starts ends its launch (log
45, DEDUCED), poison is judged over all that the copy writes of a word (log 46, DEDUCED), and the form of the arrivals, with when they are complete, is
log 18 (DESIGN CHOICE); the storage bytes of a fine-grain copy that reach a page's end are log 87. -/
def Obligations.CopyEngineEvents : Prop := copyEngines ∧ collectiveEngine

/-- A full round of a granted core issues: its operands are read, its roll is armed again and each signer's word is done; too
many buckets, poison in what it reads or a bad staging row fault every signer, in that order. A round is
ready when every live member has signed and the writes before it are performed, but for those held back by a clause that
itself waits for a round, behind which it keeps the hall of its issue. An operation completes once no earlier one
uses its accumulator rows, no clause holds what it writes, and its signers have committed; a committed MSAVE is performed
once at most one product is ahead of it whose signers have committed (log 100), an MRESTORE once nothing is. -/
def matrixRounds : Prop :=
  (∀ (s : State) (f fc roll : Nat) (fm : Form), Tab.find? f s.forms = some fm →
    (fm.phase = .running ∨ fm.phase = .yielding) → (s.cluster fm.cluster).runOf (fm.coreAt fc % 8) = .stream →
    let r := (fm.mctx fc).roll roll
    let rows := r.signed f
    let ins := insOf rows
    let armed := s.modForm f (·.modCtx fc (fun c => c.setRoll roll { r with key := none, sigs := [] }))
    let ends := fun (t : State) => happens (.rollRoundIssue f fc roll) s (fun _ =>
      (t.modCluster fm.cluster (·.leave (fm.coreAt fc % 8))).endStream (fm.coreAt fc))
    let held := (fm.mctx fc).ops.any (fun o => writesMemory o.ins)
    let seen := if held then fm.view s fc else fm
    s.roundReady f (fm.mctx fc) r = true →
    (bucketsFit ins rows = false → ends (armed.faultSigners rows 0x04 0)) ∧
    (bucketsFit ins rows = true →
      (∀ a, fetchError s seen ins rows = some a → ends (armed.faultSigners rows 0x0F (BitVec.ofNat 32 a))) ∧
      (fetchError s seen ins rows = none →
        (∀ c a, issueOp s seen s.serial r ins rows = .error (c, a) → ends (armed.faultSigners rows c a)) ∧
        (∀ op ds, issueOp s seen s.serial r ins rows = .ok (op, ds) →
          let result := fun (p : Nat × Sig) => match ins with
            | .sgbkt _ _ _ _ _ _ _ _ => some ((p.2.extra.getD 1 0).toNat, (ds.lookup p.1).getD 0)
            | _ => none
          ends (rows.foldl (fun t p => t.signedDone op.id p.2.thread (result p))
            (armed.fresh.modForm f (·.modCtx fc (fun c =>
              { c with ops := c.ops ++ [{ op with base := if held then some fm.hall else none }] })))))))) ∧
  (∀ (s : State) (f : Nat) (c : MCtx) (r : Roll), s.roundReady f c r = true ↔
    (r.sigs ≠ [] ∧ ∀ p ∈ r.ranks, s.liveThread f p.2 = true → ∃ x ∈ r.sigs, x.thread = threadKey f p.2) ∧ c.frozen = none ∧
    ∀ o ∈ c.ops, o.late = none ∧ (writesMemory o.ins = true →
      ∃ p ∈ c.ops.takeWhile (fun p => p.id != o.id) ++ [o], ∃ x ∈ s.threads, x.2.form = f ∧
        ∃ b ∈ x.2.clauses, b.wait = .roll ∧ p.id ∈ opsOf [b])) ∧
  (∀ (s : State) (op k i : Nat) (th : Thread) (c : Clause) (w : Nat × Instr) (q : List (Nat × Instr)),
    Tab.find? k s.threads = some th → th.clauses[i]? = some c → c.wait = .roll → c.todo = w :: q →
    (∀ j b, j < i → th.clauses[j]? = some b → b.wait ≠ .roll) →
    s.signedDone op k none = s.modThread k (·.endWord i (fun y =>
      { y.putDone .none (.matrix op) with signed := y.signed ++ [(w.1, op)] })) ∧
    ∀ (code : Nat) (v : Word), s.signedDone op k (some (code, v)) = s.modThread k (·.endWord i (fun y => { y with
      temps := if 120 ≤ code ∧ code < 124 then SMap.set 0 (code - 120) v y.temps else y.temps,
      signed := y.signed ++ [(w.1, op)],
      lats := y.lats ++ [{ tok := none, dst := if code < 120 then .g code else .none, val := v, kind := .matrix op }] }))) ∧
  (∀ (s : State) (f fc id : Nat) (fm : Form) (op : MOp), Tab.find? f s.forms = some fm →
    (fm.mctx fc).ops.find? (fun o => o.id == id) = some op →
    (op.late = none →
      (s.mayComplete f fm (fm.mctx fc) op = true → happens (.matrixOpComplete f fc id) s (fun s =>
        ((s.completeOp f fc fm op).askSlew fm.cluster).endStream (fm.coreAt fc))) ∧
      (s.mayComplete f fm (fm.mctx fc) op = false → exec (.matrixOpComplete f fc id) s = .next s)) ∧
    (op.late ≠ none → s.lateFree f (fm.mctx fc) op = true →
      happens (.matrixOpComplete f fc id) s (fun s => s.runLate f fc op)) ∧
    (op.late ≠ none → s.lateFree f (fm.mctx fc) op = false → exec (.matrixOpComplete f fc id) s = .next s)) ∧
  (∀ (s : State) (f : Nat) (c : MCtx) (op : MOp),
    let ahead := c.ops.takeWhile (fun o => o.id != op.id)
    let rest := ahead.filter (fun o => !o.saves)
    (∀ a, op.ins = .msave a → (s.lateFree f c op = true ↔ c.frozen ≠ none ∨
      (rest.length ≤ 1 ∧ (∀ o ∈ rest, isProduct o.ins = true) ∧
        ∀ o ∈ ahead, s.uncommitted f o.id = false ∨ s.heldBack f o = true))) ∧
    (∀ a, op.ins = .mrestore a → (s.lateFree f c op = true ↔ ahead = []))) ∧
  (∀ (s : State) (f : Nat) (fm : Form) (c : MCtx) (op : MOp),
    let ahead := c.ops.takeWhile (fun o => o.id != op.id)
    s.mayComplete f fm c op = true ↔
      op.late = none ∧ (∀ o ∈ ahead, ∀ r ∈ o.accRows, r ∉ op.accRows) ∧
      (op.base = none ∨ ∀ o ∈ ahead, writesMemory o.ins = false) ∧
      (∀ w ∈ storeWrites fm c (op.ready s fm), ∀ x ∈ wordsOfSpan w.addr w.bytes.length, fm.held (4 * x) = false) ∧
      ∀ p ∈ s.threads, p.2.form = f → op.id ∉ opsOf p.2.clauses) ∧
  (∀ (s : State) (f : Form) (op : MOp), (op.base = none → op.ready s f = op) ∧
    ∀ h, op.base = some h → op.ready s f = op.fetch s { f with hall := h })

/-- What the operations of the array do: MZERO clears its rows, MLOAD writes them, a product adds its groups one after the
other, each rounded once, to the row of each rank, from the group where a freeze stopped it; MSTORE stores a row; MMCONV's
positions are those of R146, and one that SP24 skips is skipped. -/
def arrayResults : Prop :=
  (∀ (c : MCtx) (op : MOp), SMap.wf 0 c.acc = true → (op.rows.map (·.1)).Nodup → (∀ p ∈ op.rows, p.1 < 64) →
    let rank := fun (n : Nat) => (op.rows.map (·.1)).getD n 64
    let cell := fun (acc n j : Nat) => SMap.get 0 (accKey acc (rank n) j) (c.perform op).1
    (∀ acc roll, op.ins = .mzero acc roll → ∀ a r j, a < 4 → r < 64 → j < 64 →
      SMap.get 0 (accKey a r j) (c.perform op).1 =
        if a = acc.val ∧ (∃ p ∈ op.rows, p.1 = r) then 0 else SMap.get 0 (accKey a r j) c.acc) ∧
    (∀ acc roll ra, op.ins = .mload acc roll ra → op.words.length = op.rows.length → (∀ w ∈ op.words, w.length = 64) →
      ∀ n, n < op.rows.length → ∀ j, j < 64 → cell acc.val n j = (op.words.getD n []).getD j 0) ∧
    (isProduct op.ins = true → op.nextGroup < op.groups → op.a.length = op.rows.length →
      let z := (productOf op.ins).1
      let acc := (productOf op.ins).2.2
      ∀ n, n < op.rows.length → ∀ j, j < 64 →
        let old := if z = true ∧ op.nextGroup = 0 then 0 else SMap.get 0 (accKey acc (rank n) j) c.acc
        cell acc n j = (addGroups op.grp op.nextGroup old (List.zip (op.a.getD n []) (column op.b j))
          (op.groups - op.nextGroup)).1)) ∧
  (∀ (g lo n : Nat) (a : Word) (row : List (MElem × Val)), (addGroups g lo a row 0).1 = a ∧
    (addGroups g lo a row (n + 1)).1 = (roundFP32 .rn ((valOfFP32 (addGroups g lo a row n).1).add false
      (exactSum ((((row.drop (g * (lo + n))).take g).map (fun p => p.1.times p.2)))))).1) ∧
  (∀ (f : Form) (c : MCtx) (op : MOp) (acc : Fin 4) (roll : Fin 16) (ra : Reg) (rb : Src) (p : Nat × Sig) (h : HallRef),
    op.ins = .mstore acc roll ra rb → op.rows = [p] → resolve f.rcd p.2.a.toNat = some h → expanded h.seg.fmt = false →
    let cell := fun (k : Nat) => SMap.get 0 (accKey acc.val p.2.b.toNat 0 + k) c.acc
    storeWrites f c op = (List.range 64).map (fun k =>
      { addr := h.sb + h.rel + 4 * k, bytes := leBytes 4 (cell k).toNat, tag := .full })) ∧
  (∀ (v : Conv) (n oy ox fh fw ch kb kk : Nat), oy < v.oh → ox < v.ow → fh < v.fh → fw < v.fw → ch < v.c →
    64 * kb + kk = (fh * v.fw + fw) * v.c + ch →
    let p := (n * v.oh + oy) * v.ow + ox
    let iy : Int := (oy * v.sy : Nat) - (v.py : Int) + (fh * v.dy : Nat)
    let ix : Int := (ox * v.sx : Nat) - (v.px : Int) + (fw * v.dx : Nat)
    (0 ≤ iy → iy < v.h → 0 ≤ ix → ix < v.w →
      v.at_ p kb kk = .elem (((n * v.h + iy.toNat) * v.w + ix.toNat) * v.c + ch)) ∧
    (iy < 0 ∨ (v.h : Int) ≤ iy ∨ ix < 0 ∨ (v.w : Int) ≤ ix → v.at_ p kb kk = .pad)) ∧
  (∀ (v : Conv) (p kb kk : Nat), v.fh * v.fw * v.c ≤ 64 * kb + kk → v.at_ p kb kk = .skip) ∧
  (∀ (f : Form) (v : Conv) (h : HallRef) (p kb kk i : Nat), kk < 64 → v.at_ p kb kk = .elem i →
    let k := h.rel / 4 + i
    let kept := elemBits h.seg.fmt h.seg.geom (f.bytesAt h) k
    (isSP24 h.seg.fmt = true → kept = none → (convRow f v h p kb)[kk]? = some .skip) ∧
    ((isSP24 h.seg.fmt = false ∨ kept ≠ none) →
      (convRow f v h p kb)[kk]? = some (.val (convElem h.seg.fmt h.seg.geom (f.bytesAt h) k)))) ∧
  (∀ (c : MCtx) (n : Nat) (op : MOp), c.ops = [op] → isProduct op.ins = true → op.nextGroup < op.groups →
    let k := n % (op.groups - op.nextGroup)
    let z := (c.freeze n).1
    z.frozen = some (some { op with nextGroup := op.nextGroup + k }) ∧ z.acc = (op.advance c.acc k).1 ∧ z.ops = [] ∧
    ∀ x ∈ z.rolls, x.2.sigs = [] ∧ x.2.key = none) ∧
  (∀ (s : State) (f fc : Nat) (fm : Form) (c0 : MCtx) (img : List Word) (o : MOp) (i : Instr), Tab.find? f s.forms = some fm →
    fm.ctxs[fc]? = some c0 → imgAt img 4 % 2 = 1 → imgInstr img = some i → ∃ f' c1 id,
    Tab.find? f (s.mrestore f fc img o).forms = some f' ∧ f'.ctxs[fc]? = some c1 ∧ c1.frozen = none ∧
    c1.ops.head? = some (productOp s fm id i (imgRows f i img) (bitsOf (imgAt img 4) 12 8)))

/-- What the signature stage does: SGBKT's buckets are the signers with one value, and each signer's word names its bucket's
index, its representative's rank and its size; the representative is the lowest rank, with the mean of the rows staged, or the
row of the largest norm, staged as it is where the formats agree; the rows are those read at the issue,
and a staging row is checked in the stores that write it; the leader mask goes to every signer's bench; SGSUM writes a bucket's
sum or mean. -/
def stageResults : Prop :=
  (∀ (rows : List (Nat × Sig)) (v : Word), (rows.filter (fun p => p.2.a == v) ≠ [] →
      rows.filter (fun p => p.2.a == v) ∈ buckets rows) ∧
    (∀ b ∈ buckets rows, ∃ w, b = rows.filter (fun p => p.2.a == w) ∧ b ≠ [])) ∧
  (∀ (o : MOp) (m : Rep) (d a : Reg) (roll : Fin 16) (rb : Src) (sS sL : Fin 384) (off : Fin 64) (j : Nat)
    (b : List (Nat × Sig)) (p : Nat × Sig), o.ins = .sgbkt m d roll a rb sS sL off → (o.rows.map (·.1)).Nodup →
    (buckets o.rows)[j]? = some b → p ∈ b →
    o.mapWords.lookup p.1 = some (BitVec.ofNat 32 (off.val + j + o.repOf m b * 256 + b.length * 65536))) ∧
  (∀ (o : MOp) (m : Rep) (b : List (Nat × Sig)), m ≠ .maxnorm → o.repOf m b = (b.map (·.1)).headD 0) ∧
  (∀ (o : MOp) (b : List (Nat × Sig)) (p : Nat × Sig), maxNormOf o b = some p →
    let norm := fun (q : Nat × Sig) => valOfFP32 (normOf (o.wordsOf q.1))
    o.repOf .maxnorm b = p.1 ∧ p ∈ b ∧ (∀ q ∈ b, (norm p).lt (norm q) = false) ∧ (norm p = .nan → ∀ q ∈ b, norm q = .nan)) ∧
  (∀ (f : Form) (o : MOp) (a : Nat) (b : List (Nat × Sig)) (h : HallRef), resolve f.rcd a = some h →
    let sum := fun (k : Nat) => b.foldl (fun s p => rnAdd s ((o.wordsOf p.1).getD k 0)) (0 : Word)
    o.stageRow f .first b a = [] ∧
    o.stageRow f .mean b a = rowBlocks f h ((List.range 64).map (fun k => rnDiv (valOfFP32 (sum k)) b.length)) ∧
    ∀ p, maxNormOf o b = some p →
      (sameFormat f p h = true → o.stageRow f .maxnorm b a = [{ addr := rowAt h, bytes := o.rawOf p.1, tag := .full }]) ∧
      (sameFormat f p h = false → o.stageRow f .maxnorm b a = rowBlocks f h (o.wordsOf p.1))) ∧
  (∀ (f : Form) (o : MOp) (a : Nat) (b : List (Nat × Sig)),
    o.stageCheck f .first b a = .ok () ∧ o.stageCheck f .mean b a = (rowStore f a (rowUnits f true)).map (fun _ => ()) ∧
    ∀ p h, maxNormOf o b = some p → resolve f.rcd a = some h →
      (sameFormat f p h = true → o.stageCheck f .maxnorm b a = (rowStore f a (fun h =>
        [(List.range (rowBytes h.seg.fmt h.seg.geom)).map (· + rowAt h)]) true).map (fun _ => ())) ∧
      (sameFormat f p h = false → o.stageCheck f .maxnorm b a = (rowStore f a (rowUnits f true)).map (fun _ => ()))) ∧
  (∀ (s : State) (f : Form) (o : MOp),
    (∀ m d roll a rb sS sL off, o.ins = .sgbkt m d roll a rb sS sL off → m ≠ .first →
      (o.fetch s f).words = o.rows.map (fun p => fpRow f (p.2.extra.getD 0 0)) ∧
      (o.fetch s f).raw = o.rows.map (fun p => rawRow f (p.2.extra.getD 0 0))) ∧
    (∀ mean roll a sS gm, o.ins = .sgsum mean roll a sS gm → (o.fetch s f).words = o.rows.map (fun p => fpRow f p.2.a))) ∧
  (∀ (o : MOp) (j : Nat) (p : Nat × Sig) (w : List Word) (r : List Byte), (o.rows.map (·.1)).Nodup → o.rows[j]? = some p →
    (o.words[j]? = some w → o.wordsOf p.1 = w) ∧ (o.raw[j]? = some r → o.rawOf p.1 = r)) ∧
  (∀ (f : Form) (o : MOp) (m : Rep) (d a : Reg) (roll : Fin 16) (rb : Src) (sS sL : Fin 384) (off : Fin 64) (p : Nat × Sig)
    (r : List (Nat × Sig)) (h : HallRef), o.ins = .sgbkt m d roll a rb sS sL off → o.rows = p :: r →
    resolve f.rcd p.2.b.toNat = some h → (o.bucketWrites f).head? = some
      { addr := h.sb + h.rel, bytes := (List.range o.set.2).flatMap (fun k => leBytes 4 ((o.mapWords.lookup k).getD 0).toNat),
        tag := .full }) ∧
  (∀ (o : MOp) (i : Nat), i < 64 → (o.rows.map (fun p => p.2.thread % 4096)).Nodup →
    (∀ p ∈ o.rows, o.set.1 ≤ p.2.thread % 4096 ∧ p.2.thread % 4096 < o.set.1 + 64) →
    ((o.leaders.getD (i / 32) 0).getLsbD (i % 32) = true ↔
      ∃ b ∈ buckets o.rows, ∃ p, b.head? = some p ∧ p.2.thread % 4096 = o.set.1 + i)) ∧
  (∀ (s : State) (f : Form) (op : MOp) (m : Rep) (d a : Reg) (roll : Fin 16) (rb : Src) (sS sL : Fin 384) (off : Fin 64)
    (p : Nat × Sig) (th : Thread), op.ins = .sgbkt m d roll a rb sS sL off →
    p ∈ op.rows → Tab.find? p.2.thread s.threads = some th → th.bench < f.benches.length →
    SMap.wf 0 (f.bench th.bench).s = true →
    let b := (f.putMasks s op).bench th.bench
    SMap.get 0 sL.val b.s = op.leaders.getD 0 0 ∧ SMap.get 0 (sL.val + 1) b.s = op.leaders.getD 1 0) ∧
  (∀ (f : Form) (mean : Bool) (o : MOp) (c base : Word) (h : HallRef), o.rows ≠ [] →
    (∀ p ∈ o.rows, p.2.extra = [c, base]) → resolve f.rcd (base.toNat + 256 * c.toNat) = some h →
    let sum := fun (k : Nat) => o.rows.foldl (fun s p => rnAdd s ((o.wordsOf p.1).getD k 0)) (0 : Word)
    o.sums f mean = rowBlocks f h ((List.range 64).map (fun k =>
      if mean then rnDiv (valOfFP32 (sum k)) o.rows.length else sum k)))

/-- The limiter grants the oldest request, of one cycle first the cores that a release has reached in its order and then the
others ascending, while the table permits. A step boundary comes every four cycles; a filler lasts
12 cycles. -/
def limiter : Prop :=
  (∀ (s : State) (cl core tick place : Nat) (r : List (Nat × Nat × Nat)), (s.cluster cl).requests = (tick, place, core) :: r →
    ((s.cluster cl).active < (rampTable (s.cluster cl).ramp).getD (s.cluster cl).rampIdx 0 →
      happens (.slewGrant cl core) s (fun s => (s.modCluster cl (fun c => { c with
        requests := r, reached := c.reached.map (fun x => if x = core then 8 else x),
        run := Tab.put core .stream c.run })).endStream (8 * cl + core))) ∧
    ((rampTable (s.cluster cl).ramp).getD (s.cluster cl).rampIdx 0 ≤ (s.cluster cl).active →
      exec (.slewGrant cl core) s = .next s)) ∧
  (∀ (c : Cluster) (tick core : Nat),
    (core ∈ c.reached → c.reached[c.placeOf core]? = some core) ∧ (core ∉ c.reached → c.placeOf core = 4096 + core) ∧
    (∃ a b, (c.request tick core).requests = a ++ [(tick, c.placeOf core, core)] ++ b ∧
      (∀ p ∈ a, p ∈ c.requests ∧ (p.1 < tick ∨ (p.1 = tick ∧ p.2.1 ≤ c.placeOf core))) ∧
      (∀ p ∈ b, p ∈ c.requests ∧ ¬ (p.1 < tick ∨ (p.1 = tick ∧ p.2.1 ≤ c.placeOf core))))) ∧
  (∀ (c : Cluster) (core x : Nat), x < 8 → x ≠ core → (c.leave core).placeOf x = c.placeOf x) ∧
  (∀ (c : Cluster) (cores : List Nat) (x y : Nat), x < 8 → y < 8 → x ∈ c.reached → x ∉ cores → y ∈ cores →
    (c.reach cores).placeOf x < (c.reach cores).placeOf y) ∧
  (∀ (s : State) (cl : Nat), (s.cluster cl).boundary + 128 ≤ (s.cluster cl).cyc →
    happens (.rampStepBoundary cl) s (·.modCluster cl (·.stepBoundary false))) ∧
  (∀ c : Cluster, c.rampNext = none → (c.stepBoundary false).boundary = c.boundary + 128 ∧
    (c.waitedBefore = true → (c.stepBoundary false).rampIdx = min (c.rampIdx + 1) ((rampTable c.ramp).length - 1))) ∧
  (∀ (s : State) (cl core since : Nat), (s.cluster cl).runOf core = .filler since → since + 384 ≤ (s.cluster cl).cyc →
    happens (.fillerEnd cl core) s (fun s => s.modCluster cl (fun c => { c with
      run := if s.coreReady (8 * cl + core) = true then Tab.put core .stream c.run else Tab.del core c.run })))

/-- The matrix array, the signature stage and the limiter. That an operation completes only once its signers'
clauses have committed is log 77 (DEDUCED), that a core keeps its place from a release until it is granted log 83 (DEDUCED),
and invalid additions of a group log 20. -/
def Obligations.MatrixArrayEvents : Prop := matrixRounds ∧ arrayResults ∧ stageResults ∧ limiter

/-- The control kernel resumes a thread that it holds at the saved PC, or at the clause after it, as RETT would; it ends a
launch with the error codes of R397; the debugger programs comparators and step mode, and each changes that alone.
A miss of translation takes one of 32 walkers, and the leaf it finds enters the L2 TLB, or what met it is paused and the
kernel told; the kernel's entry takes the place of those that its cluster holds for the address, ends the misses and pauses
of its page, and has the insertions that waited made again; an invalidation takes every entry that maps
part of the range out of every TLB and ends the pauses in it; page tables and memory keep what they hold. What an installed
entry replaces and ends, and that an invalidation ends pauses, is log 57 (DEDUCED). -/
def Obligations.KernelAndTranslationEvents : Prop :=
  (∀ (s : State) (t : Nat) (th : Thread), Tab.find? t s.threads = some th → th.status = .kernel →
    happens (.kernelResumeThread t false) s (·.modThread t (fun x =>
      { x with trapState := false, status := .live, pc := th.tpcVA,
               noBreak := if x.tcause = 0x0E then some x.tpcVA else x.noBreak }))) ∧
  (∀ (s : State) (t : Nat) (th : Thread) (fm : Form) (e : BitVec 64), Tab.find? t s.threads = some th →
    th.status = .kernel → Tab.find? th.form s.forms = some fm → s.seek fm.cluster fm.ctx th.tpcVA.toNat = some e →
    happens (.kernelResumeThread t true) s (·.modThread t (fun x =>
      { x with trapState := false, status := .live,
               pc := addWords th.tpcVA (1 + field (s.pageWord e th.tpcVA.toNat) 31 28) }))) ∧
  (∀ (s : State) (n err : Nat) (x : Node), Tab.find? n s.nodes = some x → (s.nodeState n = 1 ∨ s.nodeState n = 2) →
    (err = 0x0B ∨ (x.kind = 0 ∧ (err = 0x09 ∨ err = 0x0C))) →
    happens (.kernelEndLaunch n err) s (·.endLaunch n err)) ∧
  (∀ (s : State) (n err : Nat) (x : Node), Tab.find? n s.nodes = some x → x.succ = [] → (s.forms.map (·.1)).Nodup →
    let t := s.endLaunch n err
    t.log = s.log ++ [.ended n err] ∧ t.mem = (s.setNode n 4 err (s.nodePred n)).mem ∧ t.nodes = Tab.del n s.nodes ∧
      (∀ p ∈ t.forms, p ∈ s.forms ∧ p.2.node ≠ n) ∧
      (∀ p ∈ t.threads, p ∈ s.threads ∧ ∀ q ∈ s.forms, q.2.node = n → p.2.form ≠ q.1)) ∧
  (∀ (s : State) (core idx ctx : Nat) (en : Bool) (va : VAddr), idx < 8 →
    happens (.comparatorProgram core idx en ctx va) s (·.modCore core (fun c =>
      { c with comps := Tab.put idx { en := en, ctx := ctx, word := va.extractLsb' 2 54 } c.comps }))) ∧
  (∀ (s : State) (t : Nat) (on : Bool),
    happens (.stepModeSet t on) s (·.modThread t (fun x => { x with step := on }))) ∧
  (∀ (s : State) (cl ctx : Nat) (va : VAddr), walkOf ctx va.toNat ∈ (s.cluster cl).misses →
    (s.cluster cl).walks.length < 32 → s.modectl.getLsbD 0 = false →
    happens (.tlbMissWalk cl ctx va) s (·.modCluster cl (fun c =>
      { c with misses := c.misses.erase (walkOf ctx va.toNat), walks := c.walks ++ [walkOf ctx va.toNat] }))) ∧
  (∀ (s : State) (cl k : Nat) (w : Walk), (s.cluster cl).walks[k]? = some w →
    let va := w.page * 65536
    let t := (s.requests (s.tableSpan w.ctx va)).modCluster cl (fun c => { c with walks := c.walks.eraseIdx k })
    (s.tableBad w.ctx va = true → exec (.tlbWalkComplete cl k) s = .next s) ∧
    (s.tableBad w.ctx va = false →
      (∀ a e, t.walk w.ctx va = some (a, e) → happens (.tlbWalkComplete cl k) s (fun _ =>
        t.modCluster cl (fun c => { c with l2 := tlbFill2 c.l2 (tlbOf w.ctx va e) }))) ∧
      (t.walk w.ctx va = none → w ∉ t.paused → happens (.tlbWalkComplete cl k) s (fun _ =>
        { t with paused := t.paused ++ [w], log := t.log ++ [.translation w.ctx w.page] })))) ∧
  (∀ (s : State) (ctx va : Nat), s.tableBad ctx va = (s.tableSpan ctx va).any s.isBad) ∧
  (∀ (l : List TlbEntry) (e : TlbEntry), (tlbFill2 l e).head? = some e ∧ (tlbFill2 l e).length ≤ 8192) ∧
  (∀ (s : State) (ctx va a : Nat) (e : BitVec 64), s.walk ctx va = some (a, e) → leafOk 2 e = true ∨ leafOk 3 e = true) ∧
  (∀ (s : State) (cl ctx : Nat) (va : VAddr) (pte : BitVec 64), (leafOk 2 pte = true ∨ leafOk 3 pte = true) →
    ∃ t : State, exec (.installTranslation cl ctx va pte) s = .next t.retrySlots ∧ t.mem = s.mem ∧ t.threads = s.threads ∧
      t.slots = s.slots ∧ (s.slots = [] → t.retrySlots = t) ∧ (t.cluster cl).l2.head? = some (tlbOf ctx va.toNat pte) ∧
      (∀ e ∈ (t.cluster cl).l2.tail, e.hits ctx va.toNat = false) ∧
      (∀ k, k < 8 → ∀ e ∈ (t.core (8 * cl + k)).l1, e ∈ (s.core (8 * cl + k)).l1 ∧ e.hits ctx va.toNat = false) ∧
      (∀ w ∈ t.paused, w ∈ s.paused ∧ (tlbOf ctx va.toNat pte).hits w.ctx (w.page * 65536) = false) ∧
      (∀ w ∈ (t.cluster cl).misses, w ∈ (s.cluster cl).misses ∧
        (tlbOf ctx va.toNat pte).hits w.ctx (w.page * 65536) = false)) ∧
  (∀ (s : State) (ctx lo hi : Nat), s.chunkUses ctx lo hi = true ↔ ∃ c ∈ s.clusters, ∃ q ∈ c.2.queues, ∃ o ∈ q.2,
    ∃ x ∈ o.used, x.2.ctx = ctx ∧ x.2.page * pageBytes x.2.size ≤ hi ∧ lo < x.2.page * pageBytes x.2.size + pageBytes x.2.size) ∧
  (∀ (s : State) (ctx : Nat) (lo hi : VAddr), s.chunkUses ctx lo.toNat hi.toNat = true →
    exec (.tlbInvalidate ctx lo hi) s = .next s) ∧
  (∀ (s : State) (ctx : Nat) (lo hi : VAddr), s.chunkUses ctx lo.toNat hi.toNat = false →
    ∃ t, exec (.tlbInvalidate ctx lo hi) s = .next t ∧ t.mem = s.mem ∧
    t.threads = s.threads ∧ t.forms = s.forms ∧
    (∀ c x, Tab.find? c s.clusters = some x → ∃ y, Tab.find? c t.clusters = some y ∧
      (∀ e, e ∈ y.l2 ↔ e ∈ x.l2 ∧ ¬ (e.ctx = ctx ∧ e.page * pageBytes e.size ≤ hi.toNat ∧
        lo.toNat < e.page * pageBytes e.size + pageBytes e.size))) ∧
    (∀ c x, Tab.find? c s.cores = some x → ∃ y, Tab.find? c t.cores = some y ∧
      (∀ e, e ∈ y.l1 ↔ e ∈ x.l1 ∧ ¬ (e.ctx = ctx ∧ e.page * pageBytes e.size ≤ hi.toNat ∧
        lo.toNat < e.page * pageBytes e.size + pageBytes e.size))) ∧
    (∀ w, w ∈ t.paused ↔ w ∈ s.paused ∧ ¬ (w.ctx = ctx ∧ w.page * 65536 ≤ hi.toNat ∧
      lo.toNat < w.page * 65536 + 65536)))

/-- Main memory: a reply frees its tag, and an error that was corrected is counted; a stack changes its frequency a group of
channels at a time, and begins the next change that was asked for; its refresh follows its heat, falling 2 °C below a
boundary; an uncorrectable error fails its atom and escalates by the page's owner, or as the host chooses; nodes that are ended
together all take ERR 0x0B, none of them a successor's 0x08; a page with a source that is clean, or that the host has chosen,
is good once it is fetched again, and a page counts as dirty where any cached copy of its entry or the table says so; a remap sends an atom to its slot, and its removal writes the bytes back; NRCTL and NRSEED
ignore reserved values; the weight store's windows open and close, the second ones by the temperature at the period's start;
a hall error poisons its word, or is corrected and counted. -/
def Obligations.MainMemoryEvents : Prop :=
  (∀ (s : State) (stack pch tag atom : Nat) (corrected : Bool),
    (s.stack stack).tags.find? (fun x => x.1 == pch && x.2.1 == tag) = some (pch, tag, atom) →
    happens (.hbmReply stack pch ⟨tag, corrected⟩) s (fun s =>
      (if corrected then s.note (.corrected stack atom) else s).modStack stack (fun k =>
        ({ k with tags := k.tags.filter (fun x => !(x.1 == pch && x.2.1 == tag)),
                  lfsr := if k.nrctl.getLsbD 5 then Config.lfsrNext k.lfsr else k.lfsr }).serve pch))) ∧
  (∀ (k : Stack) (pch t : Nat) (x : Nat × Nat), k.freeTag pch = some t → k.paused pch = false →
    k.waiting.find? (fun y => y.1 == pch) = some x →
    k.serve pch = { k with waiting := k.waiting.erase x, tags := k.tags ++ [(pch, t, x.2)] }) ∧
  (∀ (k : Stack) (pch : Nat), (∀ x ∈ k.waiting, x.1 ≠ pch) → k.serve pch = k) ∧
  (∀ (k : Stack) (pch t atom : Nat), k.freeTag pch = some t → k.paused pch = false → (∀ x ∈ k.waiting, x.1 ≠ pch) →
    t < 32 ∧ (∀ x ∈ k.tags, ¬ (x.1 = pch ∧ x.2.1 = t)) ∧
    k.request pch atom = { k with tags := k.tags ++ [(pch, t, atom)] }) ∧
  (∀ (s : State) (stack st : Nat), stack < 12 → st < 4 → (s.stack stack).retrain = none → (s.stack stack).freq ≠ st →
    happens (.hbmFreqChange stack st) s (·.modStack stack (fun k => { k with retrain := some (0, st) }))) ∧
  (∀ (s : State) (stack st g : Nat), (s.stack stack).retrain = some (g, st) →
    (∀ x ∈ (s.stack stack).tags, x.1 / 2 / 8 ≠ g) → (s.stack stack).waiting = [] →
    (g < 3 → happens (.hbmRetrainGroupDone stack) s (·.modStack stack (fun k => { k with retrain := some (g + 1, st) }))) ∧
    (3 ≤ g → (s.stack stack).wanted = [] → happens (.hbmRetrainGroupDone stack) s (·.modStack stack (fun k =>
      { k with freq := st, retrain := none }))) ∧
    (∀ x r, 3 ≤ g → (s.stack stack).wanted = x :: r → x ≠ st → happens (.hbmRetrainGroupDone stack) s (·.modStack stack
      (fun k => { k with freq := st, retrain := some (0, x), wanted := r }))) ∧
    (∀ y r, 3 ≤ g → (s.stack stack).wanted = st :: y :: r → y ≠ st → happens (.hbmRetrainGroupDone stack) s
      (·.modStack stack (fun k => { k with freq := st, retrain := some (0, y), wanted := r })))) ∧
  (∀ (s : State) (stack temp : Nat), stack < 12 →
    happens (.hbmTempChange stack temp) s (·.modStack stack (·.heat temp (!s.modectl.getLsbD 6)))) ∧
  (∀ (k : Stack) (temp : Nat), let warm := { k with temp := temp, refresh := refreshOf k.refresh temp }
    k.heat temp false = warm ∧
    (k.retrain = none → k.wanted = [] →
      (105 < temp → k.dropped = false → k.freq < 3 →
        k.heat temp true = { warm with dropped := true, retrain := some (0, k.freq + 1) }) ∧
      (temp ≤ 100 → k.dropped = true → 1 ≤ k.freq →
        k.heat temp true = { warm with dropped := false, retrain := some (0, k.freq - 1) }) ∧
      (100 < temp → temp ≤ 105 → k.heat temp true = warm))) ∧
  (∀ old temp : Nat, (95 < temp → old ≤ 4 → refreshOf old temp = 4) ∧ (temp ≤ 83 → 1 ≤ old → refreshOf old temp = 1) ∧
    (85 < temp → temp ≤ 93 → refreshOf old temp = 2) ∧ (old = 2 → 83 < temp → temp ≤ 95 → refreshOf old temp = 2) ∧
    (old = 4 → 93 < temp → refreshOf old temp = 4)) ∧
  (∀ (s : State) (stack atom unit choice : Nat), stack < 16 →
    let t := { s with bad := SMap.set false (atomPa stack atom / 32) true s.bad }
    let out := fun (u : State) => happens (.hbmUncorrectable stack atom ⟨unit, choice⟩) s (fun _ => u)
    (12 ≤ stack → out (t.note (.weight atom))) ∧
    (stack < 12 → s.modectl.getLsbD 3 = true → out ((t.note (.hbm stack atom)).hostAction (atomPa stack atom) choice unit)) ∧
    (stack < 12 → s.modectl.getLsbD 3 = false → out ((t.note (.hbm stack atom)).escalate (atomPa stack atom) unit))) ∧
  (∀ (s : State) (pa u choice ctx node : Nat) (part : List Nat),
    (4 ≤ choice → s.hostAction pa choice u = { s with refetch := s.refetch.filter (· != pa / 32) ++ [pa / 32] }) ∧
    (choice < 4 → s.unitOf u = some (ctx, node, part) → s.hostAction pa choice u = s.ownAction choice u ctx node part)) ∧
  (∀ (s : State) (f ctx node : Nat) (part : List Nat),
    s.ownAction 0 (2 * f) ctx node part = (s.note (.cause0F f)).endLaunch node 0x0B ∧
    s.ownAction 1 (2 * f) ctx node part = s.endNodes ((s.nodes.filter (fun p => p.2.ctx == ctx)).map (·.1)) ∧
    s.ownAction 2 (2 * f) ctx node part = (s.endNodes ((s.nodes.filter (fun p =>
      p.2.part == part && s.nodeState p.1 == 2)).map (·.1))).resetClusters part ∧
    s.ownAction 3 (2 * f) ctx node part = s.deviceReset) ∧
  (∀ (s : State) (pas : List Nat),
    let gone := pas.foldl State.dropForms s
    let u := pas.foldl (fun x pa => x.setNode pa 4 0x0B (x.nodePred pa)) gone
    (∀ pa ∈ pas, Tab.find? pa (s.endNodes pas).nodes = none ∧ .ended pa 0x0B ∈ (s.endNodes pas).log) ∧
    ((∀ pa ∈ pas, ∀ n, Tab.find? pa gone.nodes = some n → ∀ p ∈ n.succ, p ∈ pas) → (s.endNodes pas).mem = u.mem)) ∧
  (∀ (s : State) (pa f : Nat) (fm : Form), Tab.find? f s.forms = some fm →
    (s.mapping fm.ctx pa = none → s.escalate pa (2 * f) = s.deviceReset) ∧
    (∀ e, s.mapping fm.ctx pa = some e →
      (pteBits e 55 55 = 1 → pteDirty e = false → s.escalate pa (2 * f) = s) ∧
      ((pteBits e 55 55 ≠ 1 ∨ pteDirty e = true) →
        s.escalate pa (2 * f) = s.ownAction (pteBits e 57 56) (2 * f) fm.ctx fm.node fm.part))) ∧
  (∀ (s : State) (unit : Nat) (e : BitVec 64), s.roots.findSome? (fun p => (s.mapping p.1 (unit * 32)).filter
      (fun e => pteBits e 55 55 == 1 && (!pteDirty e || s.refetch.contains unit))) = some e →
    SMap.get false unit s.bad = true → happens (.pageRefetchComplete unit) s (fun s =>
      let out := fun (a : Nat) => decide (a < pteFrame e / 32 ∨ (pteFrame e + pageBytes (pteSize e)) / 32 ≤ a)
      ({ s with bad := s.bad.filter (fun p => out p.1), refetch := s.refetch.filter out } : State).retrySlots)) ∧
  (∀ (s : State) (ctx pa : Nat) (e : BitVec 64), s.mapping ctx pa = some e →
    (∃ x ∈ s.mappings ctx pa, pteDirty x = true) → pteDirty e = true) ∧
  (∀ (s : State) (stack : Nat) (e : BitVec 64), stack < 12 →
    let atom := bitsOf e.toNat 42 12
    let slot := bitsOf e.toNat 11 0
    (bitsOf e.toNat 63 63 = 1 → bitsOf e.toNat 62 43 = 0 → (∀ p ∈ (s.stack stack).remap, p.1 ≠ atom ∧ p.2 ≠ slot) →
      happens (.remapInstall stack e) s (·.modStack stack (fun k => { k with
        remap := Tab.put atom slot k.remap,
        sram := SMap.setList Config.blankByte (slot * 32) (s.physBytes (stack * 0xC00000000 + atom * 32) 32) k.sram }))) ∧
    ((bitsOf e.toNat 63 63 ≠ 1 ∨ bitsOf e.toNat 62 43 ≠ 0 ∨ ∃ p ∈ (s.stack stack).remap, p.1 = atom ∨ p.2 = slot) →
      happens (.remapInstall stack e) s (·.note .remap))) ∧
  (∀ (s : State) (stack slot atom : Nat),
    List.find? (fun (p : Nat × Nat) => p.2 == slot) (s.stack stack).remap = some (atom, slot) →
    happens (.remapRemove stack slot) s (fun s => (s.modStack stack (fun k => { k with
      remap := Tab.del atom k.remap,
      sram := SMap.setList Config.blankByte (slot * 32) (List.replicate 32 Config.blankByte) k.sram })).setPhysBytes
      (stack * 0xC00000000 + atom * 32) (SMap.getList Config.blankByte (slot * 32) 32 (s.stack stack).sram))) ∧
  (∀ (s : State) (stack : Nat) (w : Word), stack < 12 →
    (6 ≤ w.toNat % 32 → w.toNat % 32 ≤ 16 → happens (.nrctlWrite stack w) s (·.modStack stack (fun k =>
      { k with nrctl := w &&& 0x3F, lfsr := if w.getLsbD 5 then k.nrseed else k.lfsr }))) ∧
    ((w.toNat % 32 < 6 ∨ 16 < w.toNat % 32) → happens (.nrctlWrite stack w) s (·.note .nrctl)) ∧
    (w = 0 → happens (.nrseedWrite stack w) s (·.note .nrseed)) ∧
    (w ≠ 0 → s.replaying = true → (∃ y, s.nextSeed stack = some y ∧ y ≠ .seed stack w) →
      exec (.nrseedWrite stack w) s = .next s) ∧
    (w ≠ 0 → (s.replaying = false ∨ s.nextSeed stack = none ∨ s.nextSeed stack = some (.seed stack w)) →
      happens (.nrseedWrite stack w) s (fun s =>
        ((s.modStack stack (fun k => { k with nrseed := w })).keep (.seed stack w)).played (.seed stack w)))) ∧
  (∀ (clock bank : Nat) (double was : Bool), let t := clock % 40000
    windowOpen clock bank double was = true ↔ (640 * bank ≤ t ∧ t < 640 * bank + 1280) ∨
      (double = true ∧ 20000 + 640 * bank ≤ t ∧ t < 21280 + 640 * bank) ∨
      (was = true ∧ 20000 + 640 * bank ≤ t + 40000 ∧ t + 40000 < 21280 + 640 * bank)) ∧
  (∀ (s : State) (die bank temp : Nat), die < 4 → bank < 32 → bank ∉ (s.die die).openBanks →
    let w := (s.die die).windows s.clock
    ((bank ≠ 0 ∨ 1280 ≤ s.clock % 40000) → windowOpen s.clock bank w.1 w.2 = true →
      happens (.wsRefreshOpen die bank temp) s (·.modDie die (fun d => { d with openBanks := d.openBanks ++ [bank] }))) ∧
    (bank = 0 → s.clock % 40000 < 1280 → s.clock / 40000 ≠ (s.die die).period →
      happens (.wsRefreshOpen die bank temp) s (·.modDie die (fun d =>
        { double := decide (95 < temp), was := d.double, period := s.clock / 40000, openBanks := d.openBanks ++ [bank] })))) ∧
  (∀ (s : State) (die bank : Nat), bank ∈ (s.die die).openBanks →
    windowOpen s.clock bank ((s.die die).windows s.clock).1 ((s.die die).windows s.clock).2 = false →
    happens (.wsRefreshClose die bank) s (·.modDie die (fun d => { d with openBanks := d.openBanks.erase bank }))) ∧
  (∀ (s : State) (f addr : Nat) (fm : Form), Tab.find? f s.forms = some fm →
    happens (.hallScrubError f ⟨addr, true⟩) s (·.note .scrub) ∧
    happens (.hallScrubError f ⟨addr, false⟩) s (fun s => (s.modForm f (fun x =>
      { x with tags := SMap.set .empty (addr / 4) .poisoned x.tags })).note (.hallError f addr)))

/-- Power and heat: a finished step of the sequencer changes the frequency or the voltage by one and chooses the next by the
loop of R188, and so does a raised VF entry that overtakes a voltage step; a configured maximum and threshold, the package's
samples, heat and its 1 ms steps set the demands, whose lowest frequency and highest pass count apply; a hot cluster's youngest
movable form reserves a cooler place and keeps its watchdog's count, and in host-assisted mode the kernel chooses both. That a
raised VF entry lifts the voltage at once and ends the step it overtakes is log 34 (DEDUCED). -/
def Obligations.PowerEvents : Prop :=
  (∀ (s : State) (cl : Nat) (st : SeqStep), (s.cluster cl).stepping = some st →
    ∃ t, exec (.sequencerStepDone cl) s = .next t ∧
      let c := s.cluster cl
      let d := t.cluster cl
      (st = .phiDown → d.phi = c.phi - 1 ∧ d.volt = c.volt) ∧ (st = .voltUp → d.phi = c.phi ∧ d.volt = c.volt + 1) ∧
      (st = .phiUp → d.phi = c.phi + 1 ∧ d.volt = c.volt) ∧ (st = .voltDown → d.phi = c.phi ∧ d.volt = c.volt - 1) ∧
      d.stepping = d.nextStep (t.applied cl).phi ∧ t.threads = s.threads ∧ t.mem = s.mem) ∧
  (∀ (c : Cluster) (t : Nat), c.nextStep t = if t < c.phi then some .phiDown else if c.volt < c.vfAt t then some .voltUp
    else if c.phi < t then some .phiUp else if c.vfAt t < c.volt then some .voltDown else none) ∧
  (∀ (s : State) (cl : Nat), let c := s.cluster cl
    (s.applied cl).phi = min (min (min c.maxPhi s.package.pos.phi) c.thermal.phi) c.group.phi ∧
    (s.applied cl).passes = max (max (max 1 s.package.pos.passes) c.thermal.passes) c.group.passes) ∧
  (∀ (s : State) (cl phi th : Nat), cl < 64 → phi ≤ 24 → 80 ≤ th → th ≤ 104 → happens (.configuredMaximumWrite cl ⟨phi, th⟩) s
    (fun s => (s.modCluster cl (fun c => { c with maxPhi := phi, threshold := th })).retarget cl)) ∧
  (∀ (s : State) (cl phi th : Nat), (64 ≤ cl ∨ 24 < phi ∨ th < 80 ∨ 104 < th) →
    happens (.configuredMaximumWrite cl ⟨phi, th⟩) s (fun s => s)) ∧
  (∀ (s : State) (cl phi code : Nat), cl < 64 → (s.cluster cl).vf.length = 25 →
    ((s.cluster cl).stepping = some .phiUp → (s.cluster cl).phi < 24) →
    let vf := (s.cluster cl).vf.set phi code
    (phi ≤ 24 → code ≤ 95 → Config.fusedVF phi ≤ code → rising vf = true → ∃ t, exec (.vfTableWrite cl phi code) s = .next t ∧
      (t.cluster cl).vf = vf ∧ (t.cluster cl).phi = (s.cluster cl).phi ∧
      (t.cluster cl).vfAt (t.cluster cl).phi ≤ (t.cluster cl).volt ∧ (s.cluster cl).volt ≤ (t.cluster cl).volt ∧
      ((s.cluster cl).stepping = some .voltUp → (s.cluster cl).volt < vf.getD (s.cluster cl).phi 95 →
        (t.cluster cl).volt = vf.getD (s.cluster cl).phi 95 ∧
        (t.cluster cl).stepping = (t.cluster cl).nextStep (t.applied cl).phi)) ∧
    ((24 < phi ∨ 95 < code ∨ code < Config.fusedVF phi ∨ rising vf = false) →
      happens (.vfTableWrite cl phi code) s (·.note .vf))) ∧
  (∀ (s : State) (watts : Nat), ∃ t, exec (.packagePowerSample watts) s = .next t ∧
    (s.droop.ceiling < watts → t.package = { pos := posDown s.packageFrom, low := 0 }) ∧
    (watts ≤ s.droop.ceiling → 95 * s.droop.ceiling ≤ 100 * watts → t.package = { s.package with low := 0 }) ∧
    (watts ≤ s.droop.ceiling → 100 * watts < 95 * s.droop.ceiling →
      (s.package.low = 9 → t.package = { pos := posUp s.package.pos, low := 0 }) ∧
      (s.package.low ≠ 9 → t.package = { s.package with low := s.package.low + 1 })) ∧
    (∀ cl, (t.cluster cl).phi = (s.cluster cl).phi ∧ (t.cluster cl).volt = (s.cluster cl).volt)) ∧
  (∀ n : Nat, n ≤ 26 → posRank (posOf n) = n ∧ (n < 26 → posDown (posOf n) = posOf (n + 1)) ∧
    (0 < n → posUp (posOf n) = posOf (n - 1))) ∧
  (posDown { phi := 0, passes := 4 } = { phi := 0, passes := 4 } ∧ posDown { phi := 0, passes := 1 } = { phi := 0, passes := 2 } ∧
    posDown { phi := 0, passes := 2 } = { phi := 0, passes := 4 } ∧ posUp { phi := 24, passes := 1 } = { phi := 24, passes := 1 }) ∧
  (∀ (s : State) (cl temp : Nat), cl < 64 → ∃ t, exec (.thermalSample cl temp) s = .next t ∧ (t.cluster cl).temp = temp ∧
    (105 ≤ temp → (t.cluster cl).thermal = { phi := 0, passes := 4 }) ∧
    (temp < 105 → (t.cluster cl).thermal = (s.cluster cl).thermal)) ∧
  (∀ (s : State) (cl : Nat), cl < 64 → (s.cluster cl).thermalTick + 800000 ≤ s.clock →
    ∃ t, exec (.thermalDemandStep cl) s = .next t ∧ let c := s.cluster cl
      (t.cluster cl).thermalTick = s.clock ∧
      (c.threshold < c.temp → s.migrating cl = false → (t.cluster cl).thermal = posDown c.thermal) ∧
      (c.temp + 3 ≤ c.threshold → (t.cluster cl).thermal = posUp c.thermal) ∧
      (c.threshold < c.temp + 3 → (c.temp ≤ c.threshold ∨ s.migrating cl = true) →
        (t.cluster cl).thermal = c.thermal)) ∧
  (∀ (s : State) (cl form target f : Nat) (fm : Form) (seats : List Seat), cl < 64 → s.modectl.getLsbD 5 = false →
    (s.cluster cl).migTick + 800000 ≤ s.clock →
    ((s.cluster cl).temp ≤ (s.cluster cl).threshold → happens (.migrationEval cl ⟨form, target⟩ seats) s
      (fun s => s.modCluster cl (fun c => { c with migTick := s.clock }))) ∧
    ((s.cluster cl).threshold < (s.cluster cl).temp → s.movable cl = some (f, fm) →
      s.coolTarget cl f fm = some target → s.placedWell (moveNeed f fm) target seats = true →
      happens (.migrationEval cl ⟨form, target⟩ seats) s (fun s =>
        (s.modForm f (fun x => { x with move := some (target, seats) })).modCluster cl (fun c =>
          { c with migTick := s.clock })))) ∧
  (∀ (s : State) (cl form target : Nat) (fm : Form) (seats : List Seat), cl < 64 → s.modectl.getLsbD 5 = true →
    Tab.find? form s.forms = some fm → fm.cluster = cl → (fm.phase = .staging ∨ fm.phase = .running) → fm.asked = false →
    fm.move = none → target ∈ fm.part → target ≠ cl → s.placedWell (moveNeed form fm) target seats = true →
    happens (.migrationEval cl ⟨form, target⟩ seats) s (·.modForm form (fun x => { x with move := some (target, seats) }))) ∧
  (∀ (s : State) (cl f : Nat) (fm : Form), s.movable cl = some (f, fm) →
    let may := fun (p : Nat × Form) => p ∈ s.forms ∧ p.2.cluster = cl ∧ (p.2.phase = .staging ∨ p.2.phase = .running) ∧
      p.2.asked = false ∧ p.2.move = none ∧ p.2.moved + 16000000 ≤ s.clock ∧
      ¬ (p.2.shed = true ∧ ∀ q ∈ s.threads, q.2.form = p.1 → q.2.status ≠ .live)
    may (f, fm) ∧ ∀ p, may p → p.2.admitted ≤ fm.admitted) ∧
  (∀ (s : State) (cl f t : Nat) (fm : Form), s.coolTarget cl f fm = some t → t < 64 ∧ t ∈ fm.part ∧
    (s.cluster t).temp + 6 ≤ (s.cluster cl).temp ∧ (s.cluster t).temp < (s.cluster t).threshold ∧
    s.fits (moveNeed f fm) t = true)

/-- A sample of the follower (R197 to R200): Δf from the nominal frequency, clamped; the ceiling and L_new of the curve; the
L of a frequency 50 mHz (0.05 Hz) lower joins those of the consecutive samples, of which the last 2,000 count; when all of
them lie below the level, their highest is the level that a boundary may fall to. A gap begins the count again. Of several
samples of one epoch whose L_new is at least the level, the last counts (log 93, DEDUCED). -/
def droopSamples : Prop :=
  (∀ (s : State) (freq vbus : Nat), s.droop.commit = false →
    let d := s.droop
    let df := deviation freq d.nomNext
    let ts := thresholds d.shedt0 d.shedt1
    let hys := shedLevel ts (ceilingPct d.drp (df - 50) vbus)
    let t := s.takeSample freq vbus
    t.droop.pct = ceilingPct d.drp df vbus ∧
    (d.level ≤ shedLevel ts t.droop.pct → t.droop.lnew = shedLevel ts t.droop.pct) ∧
    (shedLevel ts t.droop.pct < d.level → t.droop.lnew = d.lnew) ∧ t.droop.level = d.level ∧
    t.droop.ceiling = d.ceiling ∧ t.droop.lastTick = s.clock ∧ t.droop.gap = false ∧ t.log = s.log ∧
    (s.sampleBroken = true → t.droop.hist = [hys]) ∧
    (s.sampleBroken = false → t.droop.hist = (hys :: d.hist).take 2000) ∧
    ((t.droop.hist.length < 2000 ∨ ∃ x ∈ t.droop.hist, d.level ≤ x) → t.droop.fall = d.fall) ∧
    (t.droop.hist.length = 2000 → (∀ x ∈ t.droop.hist, x < d.level) →
      ∃ m ∈ t.droop.hist, t.droop.fall = some m ∧ ∀ x ∈ t.droop.hist, x ≤ m)) ∧
  (∀ (s : State),
    (s.recctl.toNat % 4 ≠ 2 →
      (s.sampleBroken = true ↔ s.droop.gap = true ∨ s.droop.lastTick + 8000000 ≤ s.clock)) ∧
    (∀ e freq vbus broken, s.recctl.toNat % 4 = 2 → s.nextSample = some (.sample e freq vbus broken) →
      s.sampleBroken = broken)) ∧
  (∀ (freq : Nat) (nom : Bool), deviation freq nom =
    max (-32767) (min 32767 ((freq : Int) - (if nom then 60000 else 50000)))) ∧
  (∀ (drp : List Word) (df vbus : Int), ceilingPct drp df vbus =
    (min (curve df (freqPoints drp)) (curve vbus (voltPoints drp))).toNat) ∧
  (∀ (x xa pa xb pb : Int) (r : List (Int × Int)), (x ≤ xa → curve x ((xa, pa) :: (xb, pb) :: r) = pa) ∧
    (xa < x → x < xb → curve x ((xa, pa) :: (xb, pb) :: r) = (pa * (xb - xa) + (pb - pa) * (x - xa)) / (xb - xa)) ∧
    (xb ≤ x → xa < x → curve x ((xa, pa) :: (xb, pb) :: r) = curve x ((xb, pb) :: r))) ∧
  (∀ (s : State) (freq vbus : Nat), s.recctl.toNat % 4 = 1 →
    (s.takeSample freq vbus).nvme = s.nvme ++ [.sample (s.epoch - s.recFrom) freq vbus s.sampleBroken]) ∧
  (∀ d : Droop, d.commit = true →
    (curveOk d.staged d.staged0 d.staged1 = true → d.adopt.drp = d.staged ∧ d.adopt.shedt0 = d.staged0 ∧
      d.adopt.shedt1 = d.staged1 ∧ d.adopt.refused = false) ∧
    (curveOk d.staged d.staged0 d.staged1 = false → d.adopt.drp = d.drp ∧ d.adopt.shedt0 = d.shedt0 ∧
      d.adopt.shedt1 = d.shedt1 ∧ d.adopt.refused = true))

/-- What a group adopts for an epoch (R195): the highest level and the most restrictive position that its members report; a
member without a report of the epoch counts as (0, 4) with L = 7. A report of another device's member takes the place of that member's
report of the same epoch; a report that it leaves takes it out (log 84, DESIGN CHOICE). The dies of this device are members 0
to 3, and one that came to a group during the epoch counts with its own level (log 63, DESIGN CHOICE). -/
def groupReports : Prop :=
  (∀ (s : State) (g epoch cl : Nat), cl < 64 → g ∈ s.groupsOf cl →
    ∃ r ∈ s.reportsOf epoch, r.group = g ∧ r.member = cl / 16 ∧ r.epoch = epoch) ∧
  (∀ (rs : List Report) (ms : List (Nat × Nat)) (g epoch : Nat),
    ((∃ m ∈ ms, m.1 = g ∧ ∀ r ∈ rs, ¬ (r.group = g ∧ r.member = m.2 ∧ r.epoch = epoch)) →
      adopted rs ms g epoch = ({ phi := 0, passes := 4 }, 7)) ∧
    ((∀ m ∈ ms, m.1 = g → ∃ r ∈ rs, r.group = g ∧ r.member = m.2 ∧ r.epoch = epoch) →
      ∀ r ∈ rs, r.group = g → r.epoch = epoch → r.level ≤ (adopted rs ms g epoch).2 ∧
        posRank r.pos ≤ posRank (adopted rs ms g epoch).1)) ∧
  (∀ (s : State) (group member epoch level : Nat) (pos : Pos), 4 ≤ member → level ≤ 7 →
    let others := s.reports.filter (fun r => !(r.group == group && r.member == member && r.epoch == epoch))
    happens (.throttleReportReceive group member epoch pos (some level)) s (fun s => { s with
      reports := others ++ [{ group := group, member := member, epoch := epoch, pos := pos, level := level }],
      members := s.members.filter (· != (group, member)) ++ [(group, member)] }) ∧
    happens (.throttleReportReceive group member epoch pos none) s (fun s => { s with
      reports := others, members := s.members.filter (· != (group, member)) }))

/-- The droop follower: a sample of the port, or in host-assisted mode a write of SAMPV with what was last written to SAMPF,
is taken as R200 says, in replay only the next one of the recording, which the kernel feeds in its epoch, and no boundary comes
before the recording's samples and nodes of its epoch; 10 ms without one is a gap, in replay where the recording had it; DRPCTL commits what is
staged, and a bad curve is refused; a boundary adopts the ceiling, a higher shed level at once and a lower one that 2,000
samples have earned, MODECTL, and the group's worst report, and the forms' shed flags follow their level, so that threads of
a form that is no longer shed dispatch again; RAMP takes a legal table. -/
def Obligations.DroopEvents : Prop :=
  droopSamples ∧ groupReports ∧
  (∀ (s : State) (freq vbus : Nat), (s.modectl.getLsbD 4 = false ∨ s.recctl.toNat % 4 = 2) → freq < 2 ^ 32 →
    vbus < 2 ^ 16 →
    (s.recctl.toNat % 4 = 2 → ∃ b, s.nextSample = some (.sample (s.epoch - s.recFrom) freq vbus b)) →
    happens (.telemetrySample freq vbus) s (fun s => ({ s with droop := { s.droop with
      sampf := BitVec.ofNat 32 freq, sampv := BitVec.ofNat 32 vbus } }).takeSample freq vbus)) ∧
  (∀ (s : State) (w : Word), s.modectl.getLsbD 4 = true →
    (s.recctl.toNat % 4 = 2 →
      ∃ b, s.nextSample = some (.sample (s.epoch - s.recFrom) s.droop.written.toNat (w.toNat % 65536) b)) →
    happens (.sampvWrite w) s (fun s => ({ s with droop := { s.droop with writtenV := w &&& 0xFFFF } }).takeSample
      s.droop.written.toNat (w.toNat % 65536))) ∧
  (∀ (s : State) (w : Word), s.modectl.getLsbD 4 = false → happens (.sampvWrite w) s (fun s => s)) ∧
  (∀ (s : State) (freq vbus : Nat), s.recctl.toNat % 4 = 2 →
    (∀ b, s.nextSample ≠ some (.sample (s.epoch - s.recFrom) freq vbus b)) → happens (.telemetrySample freq vbus) s (fun s => s)) ∧
  (∀ (s : State) (e freq vbus : Nat) (b : Bool), s.recctl.toNat % 4 = 2 → s.nextSample = some (.sample e freq vbus b) →
    (e = s.epoch - s.recFrom → s.replaySample = some (.telemetrySample freq vbus)) ∧
    (e ≤ s.epoch - s.recFrom → exec .epochBoundary s = .next s)) ∧
  (∀ (s : State), s.recctl.toNat % 4 ≠ 2 → s.droop.gap = false → s.droop.lastTick + 8000000 ≤ s.clock →
    happens .sampleGap s (fun s =>
      { s with droop := { s.droop with gap := true, hist := [] }, log := s.log ++ [.gap] })) ∧
  (∀ (s : State), (s.recctl.toNat % 4 = 2 ∨ s.clock < s.droop.lastTick + 8000000) → exec .sampleGap s = .next s) ∧
  (∀ (s : State) (w : Word), happens (.drpCommit w) s (fun s =>
    { s with droop := { s.droop with nomNext := w.getLsbD 1, commit := s.droop.commit || w.getLsbD 0 } })) ∧
  (∀ (s : State), 80000 * (s.epoch + 1) ≤ s.clock → s.replayOwed = false →
    ∃ t, exec .epochBoundary s = .next t ∧ t.epoch = s.epoch + 1 ∧
    t.modectl = s.modectlNext.getD s.modectl ∧ t.modectlNext = none ∧ t.droop.ceiling = s.droop.pct * 34 ∧
    t.droop.lnew = 0 ∧ (s.droop.level ≤ s.droop.lnew → t.droop.level = s.droop.lnew ∧ t.droop.fall = none) ∧
    (∀ x, s.droop.lnew < s.droop.level → s.droop.fall = some x → t.droop.level = x ∧ t.droop.fall = none) ∧
    (s.droop.lnew < s.droop.level → s.droop.fall = none → t.droop.level = s.droop.level) ∧
    t.droop.hist = s.droop.hist ∧
    (∀ cl, cl < 64 → s.groupsOf cl = [] → t.levelOn cl = t.droop.level) ∧
    (∀ cl, cl < 64 → ∀ g ∈ s.groupsOf cl, (adopted (s.reportsOf s.epoch) s.members g s.epoch).2 ≤ t.levelOn cl ∧
      (t.cluster cl).group.phi ≤ (adopted (s.reportsOf s.epoch) s.members g s.epoch).1.phi ∧
      (adopted (s.reportsOf s.epoch) s.members g s.epoch).1.passes ≤ (t.cluster cl).group.passes) ∧
    (∀ f fm, Tab.find? f s.forms = some fm → ∃ fm', Tab.find? f t.forms = some fm' ∧ fm'.prio = fm.prio ∧
      fm'.shedPrio = fm.prio ∧ ((fm.phase = .staging ∨ fm.phase = .running ∨ fm.phase = .yielding) →
        fm'.level = t.levelOn fm.cluster ∧ fm'.shed = decide (fm.prio / 16 < fm'.level) ∧
        (fm'.shed = true → fm.shed = false → fm'.shedTick = s.clock))) ∧
    (∀ k th, Tab.find? k s.threads = some th → ∃ th', Tab.find? k t.threads = some th' ∧
      (∀ fm fm', Tab.find? th.form s.forms = some fm → Tab.find? th.form t.forms = some fm' → fm.shed = true →
        fm'.shed = false → (th.status = .stopped ∨ th.status = .parked) → th'.status = .live ∧ th'.pend11 = false)) ∧
    t.mem = s.mem) ∧
  (∀ (s : State) (cl : Nat) (w : Word), cl < 64 →
    (rampTable w ≠ [] → (∀ e ∈ rampTable w, e ≤ 8) → rising (rampTable w) = true →
      happens (.rampWrite cl w) s (·.modCluster cl (fun c => { c with rampNext := some w }))) ∧
    ((rampTable w = [] ∨ (∃ e ∈ rampTable w, 8 < e) ∨ rising (rampTable w) = false) →
      happens (.rampWrite cl w) s (·.note (.ramp cl))))

/-- The management registers: MODECTL waits for the next epoch; RECCTL refuses MODE 3 and any write while a node runs, a
recording begins with where the droop follower stands and the seeds of the 12 stacks, and a replay re-imposes them (log 68); the staged droop registers keep their fields,
SAMPF is written in host-assisted mode only, and an offset with no behaviour of its own keeps its word. -/
def managementEvents : Prop :=
  (∀ (s : State) (w : Word), happens (.modectlWrite w) s (fun s => { s with modectlNext := some (w &&& 0x7F) })) ∧
  (∀ (s : State) (w : Word),
    ((w.toNat % 4 = 3 ∨ ∃ p ∈ s.nodes, s.nodeState p.1 = 2) → happens (.recctlWrite w) s (·.note .recctl)) ∧
    (w.toNat % 4 = 0 → (∀ p ∈ s.nodes, s.nodeState p.1 ≠ 2) → happens (.recctlWrite w) s (fun s =>
      { s with recctl := 0, recFrom := s.epoch, play := [] })) ∧
    (w.toNat % 4 = 1 → (∀ p ∈ s.nodes, s.nodeState p.1 ≠ 2) → happens (.recctlWrite w) s (fun s =>
      { s with recctl := 1, recFrom := s.epoch, play := [],
               nvme := .follower { s.droop with lastTick := s.clock - s.droop.lastTick } ::
                 (List.range 12).map (fun k => RecItem.seed k (s.stack k).nrseed) })) ∧
    (w.toNat % 4 = 2 → (∀ p ∈ s.nodes, s.nodeState p.1 ≠ 2) → ∃ t, exec (.recctlWrite w) s = .next t ∧ t.recctl = 2 ∧
      t.recFrom = s.epoch ∧ t.nvme = s.nvme ∧ (∀ x ∈ t.play, x ∈ s.nvme) ∧
      (∀ x ∈ s.nvme, (∀ k v, x ≠ .seed k v) → (∀ d, x ≠ .follower d) → x ∈ t.play) ∧
      (∀ d, s.nvme.head? = some (.follower d) → t.droop.level = d.level ∧ t.droop.hist = d.hist ∧ t.droop.fall = d.fall ∧
        t.droop.lnew = d.lnew ∧ t.droop.lastTick = s.clock - d.lastTick) ∧
      (∀ k v, k < 12 → s.nvme.find? (fun x => match x with | .seed i _ => i == k | _ => false) = some (.seed k v) →
        (t.stack k).nrseed = v))) ∧
  (∀ (s : State) (off : Nat) (w : Word), off % 4 = 0 → off < 2 ^ 24 →
    (0x100 ≤ off → off < 0x140 → happens (.mgmtRegisterWrite off w) s (fun s => { s with
      droop := { s.droop with staged := s.droop.staged.set ((off - 0x100) / 4) (w &&& 0xFFFF007F) } })) ∧
    (off = 0x144 → happens (.mgmtRegisterWrite off w) s (fun s => { s with droop := { s.droop with staged0 := w } })) ∧
    (off = 0x148 → happens (.mgmtRegisterWrite off w) s (fun s =>
      { s with droop := { s.droop with staged1 := w &&& 0xFFFFFF } })) ∧
    (off = 0x14C → s.modectl.getLsbD 4 = true → happens (.mgmtRegisterWrite off w) s (fun s =>
      { s with droop := { s.droop with written := w } })) ∧
    (off = 0x14C → s.modectl.getLsbD 4 = false → happens (.mgmtRegisterWrite off w) s (fun s => s)) ∧
    (0x154 ≤ off → off < 0x1000 → happens (.mgmtRegisterWrite off w) s (fun s =>
      { s with mgmt := SMap.set 0 (off / 4) w s.mgmt })))

/-- The mailboxes of the host: a read at 64n takes the oldest entry, and the last word of a message delivers it; a read at
64n + 4 gives the entries and whether two words stand together; a write of a word at 0x400 + 64n or of two at 8 more enters
at most 16, and a write elsewhere is dropped and logged. -/
def mailboxEvents : Prop :=
  (∀ (s : State) (fn n : Nat), fn ≤ 16 → n < 16 → let key := mailKey fn n
    (Tab.getD [] key s.mailOut = [] → happens (.mailboxHostRead fn (64 * n)) s (fun s =>
      { s with hostRead := 0, log := s.log ++ [.mailbox fn n] })) ∧
    (∀ w r, Tab.getD [] key s.mailOut = { words := [w], sender := none } :: r →
      happens (.mailboxHostRead fn (64 * n)) s (fun s => { s with mailOut := Tab.put key r s.mailOut, hostRead := w })) ∧
    (∀ v w who r, Tab.getD [] key s.mailOut = { words := [v, w], sender := who } :: r →
      happens (.mailboxHostRead fn (64 * n)) s (fun s =>
        { s with mailOut := Tab.put key ({ words := [w], sender := who } :: r) s.mailOut, hostRead := v })) ∧
    (∀ w f cap r, Tab.getD [] key s.mailOut = { words := [w], sender := some (f, cap) } :: r →
      happens (.mailboxHostRead fn (64 * n)) s (fun s =>
        ({ s with mailOut := Tab.put key r s.mailOut, hostRead := w }).modForm f
          (fun x => { x with sent := SMap.set 0 cap (SMap.get 0 cap x.sent - 1) x.sent }))) ∧
    (∀ q, Tab.getD [] key s.mailOut = q → happens (.mailboxHostRead fn (64 * n + 4)) s (fun s =>
      { s with hostRead := BitVec.ofNat 32 ((q.map (·.words.length)).sum +
          (if (q.head?.map (·.words.length)) = some 2 then 256 else 0)) }))) ∧
  (∀ (s : State) (fn off : Nat), fn ≤ 16 → (0x400 ≤ off ∨ (off % 64 ≠ 0 ∧ off % 64 ≠ 4)) →
    happens (.mailboxHostRead fn off) s (fun s =>
      { s with hostRead := BitVec.ofNat 32 (Config.draw s.draws), draws := s.draws + 1 })) ∧
  (∀ (s : State) (fn n : Nat) (v w : Word), fn ≤ 16 → n < 16 →
    let key := mailKey fn n
    let q := Tab.getD [] key s.mailIn
    let used := (q.map List.length).sum
    (used + 1 ≤ 16 → happens (.mailboxHostWriteWord fn ⟨0x400 + 64 * n, 4⟩ v) s (fun s =>
      { s with mailIn := Tab.put key (q ++ [[v]]) s.mailIn })) ∧
    (16 < used + 1 → happens (.mailboxHostWriteWord fn ⟨0x400 + 64 * n, 4⟩ v) s (·.note (.mailbox fn n))) ∧
    (used + 2 ≤ 16 → happens (.mailboxHostWritePair fn (0x408 + 64 * n) v w) s (fun s =>
      { s with mailIn := Tab.put key (q ++ [[v, w]]) s.mailIn })) ∧
    (16 < used + 2 → happens (.mailboxHostWritePair fn (0x408 + 64 * n) v w) s (·.note (.mailbox fn n)))) ∧
  (∀ (s : State) (fn off size : Nat) (v w : Word), fn ≤ 16 →
    ((size ≠ 4 ∨ off < 0x400 ∨ 0x800 ≤ off ∨ off % 64 ≠ 0) →
      happens (.mailboxHostWriteWord fn ⟨off, size⟩ v) s (·.note (.mailbox fn (off % 0x400 / 64)))) ∧
    ((off < 0x400 ∨ 0x800 ≤ off ∨ off % 64 ≠ 8) →
      happens (.mailboxHostWritePair fn off v w) s (·.note (.mailbox fn (off % 0x400 / 64)))))

/-- The ports (R219): a flit for this device that passes its CRC is taken, in order in its class, and classes pass each other;
of one that fails it nothing is known but that it comes again, so that from then on no flit is delivered before one of a lower
SEQ (log 36). What a flit acknowledges is sent no more; a message to another
device waits to be sent, a throttle flit before all others. A port that fails retraining is down, and the collectives that
use it fail. -/
def portEvents : Prop :=
  (∀ (s : State) (port : Nat) (fl : Flit), port < 16 → (s.port port).up = true →
    let p := s.port port
    let mine := 1 ≤ fl.len ∧ fl.len ≤ 56 ∧ fl.cls < 4 ∧ fl.dest = Config.deviceId
    let arrives := (p.delivers fl).filter (fun x => x.cls == 1)
    let busy := ∃ x ∈ arrives, ∃ y ∈ s.threads, y.2.holdsCounter x.tag = true
    (fl.crc ≠ Config.crc64 (flitBytes fl) → happens (.flitReceive port fl) s (fun s =>
      { s with ports := Tab.put port { p with failed := true } s.ports })) ∧
    (fl.crc = Config.crc64 (flitBytes fl) →
      (¬ mine → happens (.flitReceive port fl) s (fun s => s)) ∧
      (mine → ¬ busy → happens (.flitReceive port fl) s (fun s =>
        arrives.foldl (fun s x => s.arriveAt x.tag) { s with ports := Tab.put port (p.take fl) s.ports })) ∧
      (busy → exec (.flitReceive port fl) s = .next s))) ∧
  (∀ (s : State) (port : Nat) (fl : Flit), (s.port port).up = false → happens (.flitReceive port fl) s (fun s => s)) ∧
  (∀ (p : Port) (fl : Flit), fl.crc = Config.crc64 (flitBytes fl) → p.delivers fl = (p.take fl).rx.drop p.rx.length) ∧
  (∀ (p : Port) (fl : Flit), fl.seq < 2 ^ 32 →
    (SMap.get 0 fl.cls p.seqs = 0 → p.inOrder fl = true) ∧
    (∀ n, n < 2 ^ 32 → SMap.get 0 fl.cls p.seqs = n + 1 → (fl.seq = n → p.inOrder fl = false) ∧
      (fl.seq = (n + 1) % 2 ^ 32 → p.inOrder fl = true))) ∧
  (∀ (p : Port) (fl : Flit), SMap.wf 0 p.seqs = true →
    (p.take fl).tx = p.tx.filter (fun x => !seqLe x.seq fl.ack) ∧ (p.take fl).up = p.up ∧ (p.take fl).failed = p.failed ∧
    (p.failed = false → p.held = [] →
      (p.inOrder fl = false → (p.take fl).rx = p.rx ∧ (p.take fl).seqs = p.seqs) ∧
      (p.inOrder fl = true → (p.take fl).rx = p.rx ++ [fl] ∧ SMap.get 0 fl.cls (p.take fl).seqs = fl.seq + 1 ∧
        ∀ c, c ≠ fl.cls → SMap.get 0 c (p.take fl).seqs = SMap.get 0 c p.seqs)) ∧
    (p.failed = true → p.next ∉ p.got → (∀ x ∈ p.held, x.seq ≠ p.next) →
      let known := fl.seq ∈ p.got ∨ ∃ x ∈ p.held, x.seq = fl.seq
      let q := p.take fl
      ((fl.seq ≠ p.next ∧ seqLe fl.seq p.next = true ∨ known) → q.rx = p.rx ∧ q.held = p.held ∧ q.next = p.next) ∧
      (seqLe fl.seq p.next = false → ¬ known → q.rx = p.rx ∧ q.held = p.held ++ [fl] ∧ q.next = p.next) ∧
      (fl.seq = p.next → ¬ known → (p.next + 1) % 2 ^ 32 ∉ p.got → (∀ x ∈ p.held, x.seq ≠ (p.next + 1) % 2 ^ 32) →
        q.rx = p.rx ++ [fl] ∧ q.held = p.held ∧ q.next = (p.next + 1) % 2 ^ 32))) ∧
  (∀ (s : State) (dest cls tag : Nat) (payload : List Word), dest ≠ Config.deviceId →
    let k := Config.portTo dest % 16
    let p := s.port k
    (p.up = false → s.emit dest cls tag payload = s) ∧
    (p.up = true → ∃ fl, fl.cls = cls ∧ fl.dest = dest ∧ fl.tag = tag ∧ fl.payload = payload ∧ fl.seq = p.txSeq ∧
      fl.ack = (p.next + (2 ^ 32 - 1)) % 2 ^ 32 ∧ fl.crc = Config.crc64 (flitBytes fl) ∧
      let q := (s.emit dest cls tag payload).port k
      q.txSeq = (p.txSeq + 1) % 2 ^ 32 ∧ (cls ≠ 0 → q.tx = p.tx ++ [fl]) ∧
      (cls = 0 → q.tx = p.tx.filter (fun x => x.cls == 0) ++ [fl] ++ p.tx.filter (fun x => x.cls != 0)))) ∧
  (∀ (s : State) (port : Nat), port < 16 → (s.port port).up = true →
    ∃ t, exec (.portRetrainFail port) s = .next t ∧ (t.port port).up = false ∧ .port port ∈ t.log ∧
      (∀ g ∈ s.collGroups, s.groupUses g port = true → .collective g ∈ t.log) ∧
      ((∀ g ∈ s.collGroups, s.groupUses g port = false) → t = { s with
        ports := Tab.put port { s.port port with up := false } s.ports, log := s.log ++ [.port port] }))

/-- The boot (R216, R217): core 0 of the control cluster checks the image and loads the kernel from root port 0, or from 1 if
that fails; the kernel fills the cluster's SRAM and its 8 cores run; the functions are bound, the curve and VF have their
defaults, and the windows open. A bad image, or no kernel, leaves them closed. -/
def bootEvents : Prop :=
  (∀ (s : State) (image : List Byte) (crc : Word) (kernels : List (Option (List Byte))) (root : Nat) (kernel : List Byte)
    (binding : List (Nat × List Nat × Nat)) (roots : List (Nat × Nat)) (remaps : List (Nat × BitVec 64)), s.booted = false →
    kernelOf kernels = some (root, kernel) → kernel.length ≤ 2 ^ 23 → Config.crc32 image = crc →
    partitionsOk (binding.map (fun b => b.2.1)) = true → (∀ b ∈ binding, b.1 ≤ 16 ∧ b.2.2 < 65536) →
    (∀ r ∈ roots, r.2 % 8192 = 0) → (∀ r ∈ remaps, r.1 < 12) →
    ∃ t, exec (.powerOnBoot ⟨image, crc, kernels, binding⟩ roots remaps) s = .next t ∧ t.booted = true ∧
      t.mem = s.mem ∧ t.droop.drp = defaultCurve ∧ t.droop.staged = defaultCurve ∧ t.agenda = s.agenda ∧
      t.ctl.rootPort = some root ∧ t.ctl.cores = List.replicate 8 true ∧
      (∀ i b, kernel[i]? = some b → SMap.get Config.blankByte i t.ctl.sram = b) ∧
      (∀ fn part ctx, binding = [(fn, part, ctx)] → t.binding = [(fn, part, ctx)]) ∧
      (∀ ctx root, roots = [(ctx, root)] → t.roots = [(ctx, root)]) ∧
      (∀ c x, Tab.find? c s.clusters = some x → ∃ y, Tab.find? c t.clusters = some y ∧
        y.vf = (List.range 25).map Config.fusedVF)) ∧
  (∀ (k : List Byte) (r : List (Option (List Byte))), kernelOf (some k :: r) = some (0, k) ∧
    kernelOf (none :: some k :: r) = some (1, k) ∧ kernelOf (none :: none :: r) = none) ∧
  (∀ (s : State) (image : List Byte) (crc : Word) (kernels : List (Option (List Byte)))
    (binding : List (Nat × List Nat × Nat)) (roots : List (Nat × Nat)) (remaps : List (Nat × BitVec 64)),
    (s.booted = true ∨ Config.crc32 image ≠ crc ∨ kernelOf kernels = none) →
    happens (.powerOnBoot ⟨image, crc, kernels, binding⟩ roots remaps) s (fun s => s))

/-- What the host, the causeway ports and the power-on do to the device. -/
def Obligations.HostAndLinkEvents : Prop := managementEvents ∧ mailboxEvents ∧ portEvents ∧ bootEvents

/-- Right after reset nothing is inserted and the windows are closed; memory lists nothing and has its canonical form; the
registers have the values of R190 to R213, and every voltage its code. -/
def Obligations.ResetState : Prop :=
  let s := State.reset
  s.memoryWf = true ∧ s.mem = [] ∧ s.booted = false ∧ s.nodes = [] ∧ s.forms = [] ∧ s.threads = [] ∧ s.agenda = [] ∧
  s.modectl = 0 ∧ s.recctl = 0 ∧ s.droop.ceiling = 3400 ∧ s.droop.level = 0 ∧ s.droop.nom = false ∧
  s.droop.shedt0 = 0x3C46505A ∧ s.droop.shedt1 = 0x001E2832 ∧ s.droop.drp = defaultCurve ∧
  curveOk s.droop.drp s.droop.shedt0 s.droop.shedt1 = true ∧
  (∀ c, (s.cluster c).phi = 16 ∧ (s.cluster c).maxPhi = 16 ∧ (s.cluster c).threshold = 98 ∧ (s.cluster c).ramp = 0x00086421 ∧
    (s.applied c).phi = 16 ∧ s.passes c = 1 ∧ (s.cluster c).volt = (s.cluster c).vfAt 16) ∧
  (∀ k, (s.stack k).freq = 0 ∧ (s.stack k).nrctl.toNat % 32 = 10 ∧ (s.stack k).nrseed = 1 ∧ (s.stack k).retrain = none) ∧
  (∀ p, (s.port p).up = true ∧ (s.port p).seqs = [] ∧ (s.port p).next = 0 ∧ (s.port p).tx = []) ∧
  s.ctl.cores = [true, false, false, false, false, false, false, false] ∧ s.ctl.rootPort = none ∧
  s.nvme = [] ∧ s.play = [] ∧ s.droop.fall = none

/-- From every state whose memory has its canonical form, a step that goes on gives one whose memory has it: addresses rise
strictly and no listed byte is what an unlisted one reads as, in the device's memory and in every base die's SRAM. -/
def Obligations.MemoryKeepsItsForm : Prop :=
  ∀ s t : State, s.memoryWf = true → goesTo (step s) t → t.memoryWf = true

/-- The voltage covers the frequency, and the step under way keeps it so, on every cluster whose table is nondecreasing: the
sequencer's steps and the events that set demands keep this. -/
def Obligations.VoltageCoversTheFrequency : Prop :=
  let covers := fun (c : Cluster) => c.vf.length = 25 ∧ rising c.vf = true ∧ c.phi ≤ 24 ∧ c.vfAt c.phi ≤ c.volt ∧
    (c.stepping = some .phiDown → 1 ≤ c.phi) ∧ (c.stepping = some .phiUp → c.phi < 24 ∧ c.vfAt (c.phi + 1) ≤ c.volt) ∧
    (c.stepping = some .voltDown → c.vfAt c.phi < c.volt)
  let inv := fun (s : State) => (∀ cl, covers (s.cluster cl) ∧ (s.cluster cl).maxPhi ≤ 24)
  ∀ s t : State, inv s →
    (∀ cl, exec (.sequencerStepDone cl) s = .next t → inv t) ∧
    (∀ cl phi th, exec (.configuredMaximumWrite cl ⟨phi, th⟩) s = .next t → inv t) ∧
    (∀ cl phi code, exec (.vfTableWrite cl phi code) s = .next t → inv t) ∧
    (∀ watts, exec (.packagePowerSample watts) s = .next t → inv t) ∧
    (∀ cl temp, exec (.thermalSample cl temp) s = .next t → inv t) ∧
    (∀ cl, exec (.thermalDemandStep cl) s = .next t → inv t) ∧
    (exec .epochBoundary s = .next t → inv t)
end

