-- ==== Sys2Proof/Laws/Tables.lean ====
section
/-! SUPPORT. The laws of the two kinds of table: what a read finds after a write, and that writes keep the canonical
form. -/

namespace Sys2Proof.Machine

namespace SMap

variable {α : Type}

@[simp] theorem get_nil (d : α) (k : Nat) : get d k [] = d := rfl
@[simp] theorem wf_nil [DecidableEq α] (d : α) : wf d ([] : SMap α) = true := rfl

theorem wfFrom_mono [DecidableEq α] {d : α} {a b : Nat} {m : SMap α} (hab : b ≤ a) (h : wfFrom d a m = true) :
    wfFrom d b m = true := by
  cases m with
  | nil => rfl
  | cons x r =>
    obtain ⟨j, v⟩ := x
    simp only [wfFrom, Bool.and_eq_true, decide_eq_true_eq] at h ⊢
    exact ⟨⟨by omega, h.1.2⟩, h.2⟩

/-- A key below the first of a canonical table is not listed. -/
theorem get_below [DecidableEq α] {d : α} {lo k : Nat} {m : SMap α} (h : wfFrom d lo m = true) (hk : k < lo) :
    get d k m = d := by
  induction m generalizing lo with
  | nil => rfl
  | cons x r ih =>
    obtain ⟨j, v⟩ := x
    simp only [wfFrom, Bool.and_eq_true, decide_eq_true_eq] at h
    have hj : j ≠ k := by omega
    simp only [get, hj, if_false]
    exact ih h.2 (by omega)

theorem get_set_ne [DecidableEq α] {d v : α} {j k : Nat} (m : SMap α) (h : k ≠ j) :
    get d j (set d k v m) = get d j m := by
  induction m with
  | nil => by_cases hv : v = d <;> simp [set, get, hv, h]
  | cons x r ih =>
    obtain ⟨i, u⟩ := x
    simp only [set]
    split
    · by_cases hv : v = d <;> simp [get, hv, h]
    · split
      · rename_i hik
        subst hik
        by_cases hv : v = d <;> simp [get, hv, h]
      · simp only [get]
        split
        · rfl
        · exact ih

theorem get_set_eq [DecidableEq α] {d v : α} {k lo : Nat} {m : SMap α} (h : wfFrom d lo m = true) :
    get d k (set d k v m) = v := by
  induction m generalizing lo with
  | nil => by_cases hv : v = d <;> simp [set, get, hv]
  | cons x r ih =>
    obtain ⟨j, u⟩ := x
    simp only [wfFrom, Bool.and_eq_true, decide_eq_true_eq] at h
    simp only [set]
    split
    · rename_i hkj
      by_cases hv : v = d
      · subst hv
        have hne : j ≠ k := by omega
        simp only [if_true, get, hne, if_false]
        exact get_below h.2 (by omega)
      · simp [get, hv]
    · split
      · rename_i hjk
        subst hjk
        by_cases hv : v = d
        · subst hv
          simp only [if_true]
          exact get_below h.2 (by omega)
        · simp [get, hv]
      · rename_i hjk
        simp only [get, hjk, if_false]
        exact ih h.2

theorem wfFrom_set [DecidableEq α] {d v : α} {k lo : Nat} {m : SMap α} (h : wfFrom d lo m = true) (hk : lo ≤ k) :
    wfFrom d lo (set d k v m) = true := by
  induction m generalizing lo with
  | nil => by_cases hv : v = d <;> simp [set, wfFrom, hv, hk]
  | cons x r ih =>
    obtain ⟨j, u⟩ := x
    have h' := h
    simp only [wfFrom, Bool.and_eq_true, decide_eq_true_eq] at h
    simp only [set]
    split
    · rename_i hkj
      by_cases hv : v = d
      · simpa [hv] using h'
      · simp only [hv, if_false, wfFrom, Bool.and_eq_true, decide_eq_true_eq]
        exact ⟨⟨hk, hv⟩, ⟨by omega, h.1.2⟩, h.2⟩
    · split
      · rename_i hjk
        subst hjk
        by_cases hv : v = d
        · simp only [hv, if_true]
          exact wfFrom_mono (by omega) h.2
        · simp only [hv, if_false, wfFrom, Bool.and_eq_true, decide_eq_true_eq]
          exact ⟨⟨hk, hv⟩, h.2⟩
      · rename_i hkj hjk
        simp only [wfFrom, Bool.and_eq_true, decide_eq_true_eq]
        exact ⟨h.1, ih h.2 (by omega)⟩

/-- Writing keeps the canonical form. -/
theorem wf_set [DecidableEq α] {d v : α} {k : Nat} {m : SMap α} (h : wf d m = true) : wf d (set d k v m) = true :=
  wfFrom_set h (Nat.zero_le k)

theorem wf_setList [DecidableEq α] {d : α} {k : Nat} (vs : List α) {m : SMap α} (h : wf d m = true) :
    wf d (setList d k vs m) = true := by
  induction vs generalizing k m with
  | nil => exact h
  | cons v vs ih => exact ih (wf_set h)

theorem get_setList_out [DecidableEq α] {d : α} {k j : Nat} (vs : List α) (m : SMap α)
    (h : j < k ∨ k + vs.length ≤ j) : get d j (setList d k vs m) = get d j m := by
  induction vs generalizing k m with
  | nil => rfl
  | cons v vs ih =>
    simp only [List.length_cons] at h
    rw [setList, ih _ (by omega), get_set_ne _ (by omega)]

end SMap

namespace Tab

variable {α : Type}

@[simp] theorem find?_nil (k : Nat) : find? k ([] : Tab α) = none := rfl

@[simp] theorem find?_mod_same (k : Nat) (f : α → α) (m : Tab α) : find? k (mod k f m) = (find? k m).map f := by
  induction m with
  | nil => rfl
  | cons x r ih =>
    obtain ⟨j, u⟩ := x
    by_cases h : j = k <;> simp [mod, find?, h, ih]

theorem find?_mod_ne {j k : Nat} (f : α → α) (m : Tab α) (h : k ≠ j) : find? j (mod k f m) = find? j m := by
  induction m with
  | nil => rfl
  | cons x r ih =>
    obtain ⟨i, u⟩ := x
    by_cases hi : i = k
    · subst hi
      simp [mod, find?, h]
    · rcases eq_or_ne i j with rfl | hj
      · simp [mod, find?, hi]
      · simp [mod, find?, hi, hj, ih]

@[simp] theorem find?_put_same (k : Nat) (v : α) (m : Tab α) : find? k (put k v m) = some v := by
  induction m with
  | nil => simp [put, find?]
  | cons x r ih =>
    obtain ⟨j, u⟩ := x
    simp only [put]
    split
    · simp [find?]
    · split
      · simp [find?]
      · rename_i hjk
        simpa [find?, hjk] using ih

theorem find?_put_ne {j k : Nat} (v : α) (m : Tab α) (h : k ≠ j) : find? j (put k v m) = find? j m := by
  induction m with
  | nil => simp [put, find?, h]
  | cons x r ih =>
    obtain ⟨i, u⟩ := x
    simp only [put]
    split
    · simp [find?, h]
    · split
      · rename_i hik
        subst hik
        simp [find?, h]
      · simp only [find?, ih]

@[simp] theorem getD_put_same (d : α) (k : Nat) (v : α) (m : Tab α) : getD d k (put k v m) = v := by
  simp [getD]

theorem getD_put_ne (d : α) {j k : Nat} (v : α) (m : Tab α) (h : k ≠ j) : getD d j (put k v m) = getD d j m := by
  simp [getD, find?_put_ne v m h]

theorem find?_del_ne {j k : Nat} (m : Tab α) (h : k ≠ j) : find? j (del k m) = find? j m := by
  induction m with
  | nil => rfl
  | cons x r ih =>
    obtain ⟨i, u⟩ := x
    by_cases hi : i = k
    · subst hi
      simp [del, find?, h]
    · rcases eq_or_ne i j with rfl | hj
      · simp [del, find?, hi]
      · simp [del, find?, hi, hj, ih]

/-- What holds of every record holds after a change that keeps it. -/
theorem all_mod {p : Nat × α → Bool} {k : Nat} {f : α → α} {m : Tab α} (h : m.all p = true)
    (hf : ∀ u, p (k, u) = true → p (k, f u) = true) : (mod k f m).all p = true := by
  induction m with
  | nil => rfl
  | cons x r ih =>
    obtain ⟨j, u⟩ := x
    simp only [List.all_cons, Bool.and_eq_true] at h
    simp only [mod]
    split
    · rename_i hj
      subst hj
      simp [hf u h.1, h.2]
    · simp [h.1, ih h.2]

/-- What holds of every record holds after a write of one of which it holds. -/
theorem all_put {p : Nat × α → Bool} {k : Nat} {v : α} {m : Tab α} (h : m.all p = true) (hv : p (k, v) = true) :
    (put k v m).all p = true := by
  induction m with
  | nil => simp [put, hv]
  | cons x r ih =>
    obtain ⟨j, u⟩ := x
    have h' := h
    simp only [List.all_cons, Bool.and_eq_true] at h
    simp only [put]
    split
    · simpa [hv] using h'
    · split
      · simp [hv, h.2]
      · simp [h.1, ih h.2]

/-- The record that a key reads as satisfies what every listed one, and the default, satisfies. -/
theorem getD_all {p : Nat × α → Bool} {d : α} {k : Nat} {m : Tab α} (h : m.all p = true) (hd : p (k, d) = true) :
    p (k, getD d k m) = true := by
  induction m with
  | nil => exact hd
  | cons x r ih =>
    obtain ⟨j, u⟩ := x
    simp only [List.all_cons, Bool.and_eq_true] at h
    by_cases hj : j = k
    · subst hj
      simp [getD, find?, h.1]
    · have := ih h.2
      simpa [getD, find?, hj] using this

end Tab

end Sys2Proof.Machine
end

