-- ==== Sys2Proof/Laws/State.lean ====
section
/-! SUPPORT. One lemma per field per update: what each update of a record writes, and that it leaves every other field
alone. -/

namespace Sys2Proof.Machine

/-! ## Updates of State -/

@[simp] theorem State.modThread_threads (s : State) (k : Nat) (f : Thread → Thread) : (s.modThread k f).threads = Tab.mod k f s.threads := rfl
@[simp] theorem State.modThread_clock (s : State) (k : Nat) (f : Thread → Thread) : (s.modThread k f).clock = s.clock := rfl
@[simp] theorem State.modThread_booted (s : State) (k : Nat) (f : Thread → Thread) : (s.modThread k f).booted = s.booted := rfl
@[simp] theorem State.modThread_mem (s : State) (k : Nat) (f : Thread → Thread) : (s.modThread k f).mem = s.mem := rfl
@[simp] theorem State.modThread_bad (s : State) (k : Nat) (f : Thread → Thread) : (s.modThread k f).bad = s.bad := rfl
@[simp] theorem State.modThread_forms (s : State) (k : Nat) (f : Thread → Thread) : (s.modThread k f).forms = s.forms := rfl
@[simp] theorem State.modThread_nodes (s : State) (k : Nat) (f : Thread → Thread) : (s.modThread k f).nodes = s.nodes := rfl
@[simp] theorem State.modThread_readySeq (s : State) (k : Nat) (f : Thread → Thread) : (s.modThread k f).readySeq = s.readySeq := rfl
@[simp] theorem State.modThread_clusters (s : State) (k : Nat) (f : Thread → Thread) : (s.modThread k f).clusters = s.clusters := rfl
@[simp] theorem State.modThread_cores (s : State) (k : Nat) (f : Thread → Thread) : (s.modThread k f).cores = s.cores := rfl
@[simp] theorem State.modThread_dies (s : State) (k : Nat) (f : Thread → Thread) : (s.modThread k f).dies = s.dies := rfl
@[simp] theorem State.modThread_hbm (s : State) (k : Nat) (f : Thread → Thread) : (s.modThread k f).hbm = s.hbm := rfl
@[simp] theorem State.modThread_counters (s : State) (k : Nat) (f : Thread → Thread) : (s.modThread k f).counters = s.counters := rfl
@[simp] theorem State.modThread_mailOut (s : State) (k : Nat) (f : Thread → Thread) : (s.modThread k f).mailOut = s.mailOut := rfl
@[simp] theorem State.modThread_mailIn (s : State) (k : Nat) (f : Thread → Thread) : (s.modThread k f).mailIn = s.mailIn := rfl
@[simp] theorem State.modThread_fifos (s : State) (k : Nat) (f : Thread → Thread) : (s.modThread k f).fifos = s.fifos := rfl
@[simp] theorem State.modThread_chanWait (s : State) (k : Nat) (f : Thread → Thread) : (s.modThread k f).chanWait = s.chanWait := rfl
@[simp] theorem State.modThread_slots (s : State) (k : Nat) (f : Thread → Thread) : (s.modThread k f).slots = s.slots := rfl
@[simp] theorem State.modThread_roots (s : State) (k : Nat) (f : Thread → Thread) : (s.modThread k f).roots = s.roots := rfl
@[simp] theorem State.modThread_binding (s : State) (k : Nat) (f : Thread → Thread) : (s.modThread k f).binding = s.binding := rfl
@[simp] theorem State.modThread_paused (s : State) (k : Nat) (f : Thread → Thread) : (s.modThread k f).paused = s.paused := rfl
@[simp] theorem State.modThread_log (s : State) (k : Nat) (f : Thread → Thread) : (s.modThread k f).log = s.log := rfl
@[simp] theorem State.modThread_package (s : State) (k : Nat) (f : Thread → Thread) : (s.modThread k f).package = s.package := rfl
@[simp] theorem State.modThread_droop (s : State) (k : Nat) (f : Thread → Thread) : (s.modThread k f).droop = s.droop := rfl
@[simp] theorem State.modThread_modectl (s : State) (k : Nat) (f : Thread → Thread) : (s.modThread k f).modectl = s.modectl := rfl
@[simp] theorem State.modThread_modectlNext (s : State) (k : Nat) (f : Thread → Thread) : (s.modThread k f).modectlNext = s.modectlNext := rfl
@[simp] theorem State.modThread_recctl (s : State) (k : Nat) (f : Thread → Thread) : (s.modThread k f).recctl = s.recctl := rfl
@[simp] theorem State.modThread_mgmt (s : State) (k : Nat) (f : Thread → Thread) : (s.modThread k f).mgmt = s.mgmt := rfl
@[simp] theorem State.modThread_ports (s : State) (k : Nat) (f : Thread → Thread) : (s.modThread k f).ports = s.ports := rfl
@[simp] theorem State.modThread_reports (s : State) (k : Nat) (f : Thread → Thread) : (s.modThread k f).reports = s.reports := rfl
@[simp] theorem State.modThread_epoch (s : State) (k : Nat) (f : Thread → Thread) : (s.modThread k f).epoch = s.epoch := rfl
@[simp] theorem State.modThread_agenda (s : State) (k : Nat) (f : Thread → Thread) : (s.modThread k f).agenda = s.agenda := rfl
@[simp] theorem State.modThread_hostRead (s : State) (k : Nat) (f : Thread → Thread) : (s.modThread k f).hostRead = s.hostRead := rfl
@[simp] theorem State.modThread_refetch (s : State) (k : Nat) (f : Thread → Thread) : (s.modThread k f).refetch = s.refetch := rfl
@[simp] theorem State.modThread_cur (s : State) (k : Nat) (f : Thread → Thread) : (s.modThread k f).cur = s.cur := rfl
@[simp] theorem State.modThread_draws (s : State) (k : Nat) (f : Thread → Thread) : (s.modThread k f).draws = s.draws := rfl
@[simp] theorem State.modThread_serial (s : State) (k : Nat) (f : Thread → Thread) : (s.modThread k f).serial = s.serial := rfl
@[simp] theorem State.modThread_members (s : State) (k : Nat) (f : Thread → Thread) : (s.modThread k f).members = s.members := rfl
@[simp] theorem State.modThread_nvme (s : State) (k : Nat) (f : Thread → Thread) : (s.modThread k f).nvme = s.nvme := rfl
@[simp] theorem State.modThread_play (s : State) (k : Nat) (f : Thread → Thread) : (s.modThread k f).play = s.play := rfl
@[simp] theorem State.modThread_recFrom (s : State) (k : Nat) (f : Thread → Thread) : (s.modThread k f).recFrom = s.recFrom := rfl
@[simp] theorem State.modThread_ctl (s : State) (k : Nat) (f : Thread → Thread) : (s.modThread k f).ctl = s.ctl := rfl
@[simp] theorem State.modThread_curAt (s : State) (k : Nat) (f : Thread → Thread) : (s.modThread k f).curAt = s.curAt := rfl

@[simp] theorem State.modThreadsOf_clock (s : State) (f : Nat) (g : Thread → Thread) : (s.modThreadsOf f g).clock = s.clock := rfl
@[simp] theorem State.modThreadsOf_booted (s : State) (f : Nat) (g : Thread → Thread) : (s.modThreadsOf f g).booted = s.booted := rfl
@[simp] theorem State.modThreadsOf_mem (s : State) (f : Nat) (g : Thread → Thread) : (s.modThreadsOf f g).mem = s.mem := rfl
@[simp] theorem State.modThreadsOf_bad (s : State) (f : Nat) (g : Thread → Thread) : (s.modThreadsOf f g).bad = s.bad := rfl
@[simp] theorem State.modThreadsOf_forms (s : State) (f : Nat) (g : Thread → Thread) : (s.modThreadsOf f g).forms = s.forms := rfl
@[simp] theorem State.modThreadsOf_nodes (s : State) (f : Nat) (g : Thread → Thread) : (s.modThreadsOf f g).nodes = s.nodes := rfl
@[simp] theorem State.modThreadsOf_readySeq (s : State) (f : Nat) (g : Thread → Thread) : (s.modThreadsOf f g).readySeq = s.readySeq := rfl
@[simp] theorem State.modThreadsOf_clusters (s : State) (f : Nat) (g : Thread → Thread) : (s.modThreadsOf f g).clusters = s.clusters := rfl
@[simp] theorem State.modThreadsOf_cores (s : State) (f : Nat) (g : Thread → Thread) : (s.modThreadsOf f g).cores = s.cores := rfl
@[simp] theorem State.modThreadsOf_dies (s : State) (f : Nat) (g : Thread → Thread) : (s.modThreadsOf f g).dies = s.dies := rfl
@[simp] theorem State.modThreadsOf_hbm (s : State) (f : Nat) (g : Thread → Thread) : (s.modThreadsOf f g).hbm = s.hbm := rfl
@[simp] theorem State.modThreadsOf_counters (s : State) (f : Nat) (g : Thread → Thread) : (s.modThreadsOf f g).counters = s.counters := rfl
@[simp] theorem State.modThreadsOf_mailOut (s : State) (f : Nat) (g : Thread → Thread) : (s.modThreadsOf f g).mailOut = s.mailOut := rfl
@[simp] theorem State.modThreadsOf_mailIn (s : State) (f : Nat) (g : Thread → Thread) : (s.modThreadsOf f g).mailIn = s.mailIn := rfl
@[simp] theorem State.modThreadsOf_fifos (s : State) (f : Nat) (g : Thread → Thread) : (s.modThreadsOf f g).fifos = s.fifos := rfl
@[simp] theorem State.modThreadsOf_chanWait (s : State) (f : Nat) (g : Thread → Thread) : (s.modThreadsOf f g).chanWait = s.chanWait := rfl
@[simp] theorem State.modThreadsOf_slots (s : State) (f : Nat) (g : Thread → Thread) : (s.modThreadsOf f g).slots = s.slots := rfl
@[simp] theorem State.modThreadsOf_roots (s : State) (f : Nat) (g : Thread → Thread) : (s.modThreadsOf f g).roots = s.roots := rfl
@[simp] theorem State.modThreadsOf_binding (s : State) (f : Nat) (g : Thread → Thread) : (s.modThreadsOf f g).binding = s.binding := rfl
@[simp] theorem State.modThreadsOf_paused (s : State) (f : Nat) (g : Thread → Thread) : (s.modThreadsOf f g).paused = s.paused := rfl
@[simp] theorem State.modThreadsOf_log (s : State) (f : Nat) (g : Thread → Thread) : (s.modThreadsOf f g).log = s.log := rfl
@[simp] theorem State.modThreadsOf_package (s : State) (f : Nat) (g : Thread → Thread) : (s.modThreadsOf f g).package = s.package := rfl
@[simp] theorem State.modThreadsOf_droop (s : State) (f : Nat) (g : Thread → Thread) : (s.modThreadsOf f g).droop = s.droop := rfl
@[simp] theorem State.modThreadsOf_modectl (s : State) (f : Nat) (g : Thread → Thread) : (s.modThreadsOf f g).modectl = s.modectl := rfl
@[simp] theorem State.modThreadsOf_modectlNext (s : State) (f : Nat) (g : Thread → Thread) : (s.modThreadsOf f g).modectlNext = s.modectlNext := rfl
@[simp] theorem State.modThreadsOf_recctl (s : State) (f : Nat) (g : Thread → Thread) : (s.modThreadsOf f g).recctl = s.recctl := rfl
@[simp] theorem State.modThreadsOf_mgmt (s : State) (f : Nat) (g : Thread → Thread) : (s.modThreadsOf f g).mgmt = s.mgmt := rfl
@[simp] theorem State.modThreadsOf_ports (s : State) (f : Nat) (g : Thread → Thread) : (s.modThreadsOf f g).ports = s.ports := rfl
@[simp] theorem State.modThreadsOf_reports (s : State) (f : Nat) (g : Thread → Thread) : (s.modThreadsOf f g).reports = s.reports := rfl
@[simp] theorem State.modThreadsOf_epoch (s : State) (f : Nat) (g : Thread → Thread) : (s.modThreadsOf f g).epoch = s.epoch := rfl
@[simp] theorem State.modThreadsOf_agenda (s : State) (f : Nat) (g : Thread → Thread) : (s.modThreadsOf f g).agenda = s.agenda := rfl
@[simp] theorem State.modThreadsOf_hostRead (s : State) (f : Nat) (g : Thread → Thread) : (s.modThreadsOf f g).hostRead = s.hostRead := rfl
@[simp] theorem State.modThreadsOf_refetch (s : State) (f : Nat) (g : Thread → Thread) : (s.modThreadsOf f g).refetch = s.refetch := rfl
@[simp] theorem State.modThreadsOf_cur (s : State) (f : Nat) (g : Thread → Thread) : (s.modThreadsOf f g).cur = s.cur := rfl
@[simp] theorem State.modThreadsOf_draws (s : State) (f : Nat) (g : Thread → Thread) : (s.modThreadsOf f g).draws = s.draws := rfl
@[simp] theorem State.modThreadsOf_serial (s : State) (f : Nat) (g : Thread → Thread) : (s.modThreadsOf f g).serial = s.serial := rfl
@[simp] theorem State.modThreadsOf_members (s : State) (f : Nat) (g : Thread → Thread) : (s.modThreadsOf f g).members = s.members := rfl
@[simp] theorem State.modThreadsOf_nvme (s : State) (f : Nat) (g : Thread → Thread) : (s.modThreadsOf f g).nvme = s.nvme := rfl
@[simp] theorem State.modThreadsOf_play (s : State) (f : Nat) (g : Thread → Thread) : (s.modThreadsOf f g).play = s.play := rfl
@[simp] theorem State.modThreadsOf_recFrom (s : State) (f : Nat) (g : Thread → Thread) : (s.modThreadsOf f g).recFrom = s.recFrom := rfl
@[simp] theorem State.modThreadsOf_ctl (s : State) (f : Nat) (g : Thread → Thread) : (s.modThreadsOf f g).ctl = s.ctl := rfl
@[simp] theorem State.modThreadsOf_curAt (s : State) (f : Nat) (g : Thread → Thread) : (s.modThreadsOf f g).curAt = s.curAt := rfl

@[simp] theorem State.modForm_forms (s : State) (k : Nat) (f : Form → Form) : (s.modForm k f).forms = Tab.mod k f s.forms := rfl
@[simp] theorem State.modForm_clock (s : State) (k : Nat) (f : Form → Form) : (s.modForm k f).clock = s.clock := rfl
@[simp] theorem State.modForm_booted (s : State) (k : Nat) (f : Form → Form) : (s.modForm k f).booted = s.booted := rfl
@[simp] theorem State.modForm_mem (s : State) (k : Nat) (f : Form → Form) : (s.modForm k f).mem = s.mem := rfl
@[simp] theorem State.modForm_bad (s : State) (k : Nat) (f : Form → Form) : (s.modForm k f).bad = s.bad := rfl
@[simp] theorem State.modForm_threads (s : State) (k : Nat) (f : Form → Form) : (s.modForm k f).threads = s.threads := rfl
@[simp] theorem State.modForm_nodes (s : State) (k : Nat) (f : Form → Form) : (s.modForm k f).nodes = s.nodes := rfl
@[simp] theorem State.modForm_readySeq (s : State) (k : Nat) (f : Form → Form) : (s.modForm k f).readySeq = s.readySeq := rfl
@[simp] theorem State.modForm_clusters (s : State) (k : Nat) (f : Form → Form) : (s.modForm k f).clusters = s.clusters := rfl
@[simp] theorem State.modForm_cores (s : State) (k : Nat) (f : Form → Form) : (s.modForm k f).cores = s.cores := rfl
@[simp] theorem State.modForm_dies (s : State) (k : Nat) (f : Form → Form) : (s.modForm k f).dies = s.dies := rfl
@[simp] theorem State.modForm_hbm (s : State) (k : Nat) (f : Form → Form) : (s.modForm k f).hbm = s.hbm := rfl
@[simp] theorem State.modForm_counters (s : State) (k : Nat) (f : Form → Form) : (s.modForm k f).counters = s.counters := rfl
@[simp] theorem State.modForm_mailOut (s : State) (k : Nat) (f : Form → Form) : (s.modForm k f).mailOut = s.mailOut := rfl
@[simp] theorem State.modForm_mailIn (s : State) (k : Nat) (f : Form → Form) : (s.modForm k f).mailIn = s.mailIn := rfl
@[simp] theorem State.modForm_fifos (s : State) (k : Nat) (f : Form → Form) : (s.modForm k f).fifos = s.fifos := rfl
@[simp] theorem State.modForm_chanWait (s : State) (k : Nat) (f : Form → Form) : (s.modForm k f).chanWait = s.chanWait := rfl
@[simp] theorem State.modForm_slots (s : State) (k : Nat) (f : Form → Form) : (s.modForm k f).slots = s.slots := rfl
@[simp] theorem State.modForm_roots (s : State) (k : Nat) (f : Form → Form) : (s.modForm k f).roots = s.roots := rfl
@[simp] theorem State.modForm_binding (s : State) (k : Nat) (f : Form → Form) : (s.modForm k f).binding = s.binding := rfl
@[simp] theorem State.modForm_paused (s : State) (k : Nat) (f : Form → Form) : (s.modForm k f).paused = s.paused := rfl
@[simp] theorem State.modForm_log (s : State) (k : Nat) (f : Form → Form) : (s.modForm k f).log = s.log := rfl
@[simp] theorem State.modForm_package (s : State) (k : Nat) (f : Form → Form) : (s.modForm k f).package = s.package := rfl
@[simp] theorem State.modForm_droop (s : State) (k : Nat) (f : Form → Form) : (s.modForm k f).droop = s.droop := rfl
@[simp] theorem State.modForm_modectl (s : State) (k : Nat) (f : Form → Form) : (s.modForm k f).modectl = s.modectl := rfl
@[simp] theorem State.modForm_modectlNext (s : State) (k : Nat) (f : Form → Form) : (s.modForm k f).modectlNext = s.modectlNext := rfl
@[simp] theorem State.modForm_recctl (s : State) (k : Nat) (f : Form → Form) : (s.modForm k f).recctl = s.recctl := rfl
@[simp] theorem State.modForm_mgmt (s : State) (k : Nat) (f : Form → Form) : (s.modForm k f).mgmt = s.mgmt := rfl
@[simp] theorem State.modForm_ports (s : State) (k : Nat) (f : Form → Form) : (s.modForm k f).ports = s.ports := rfl
@[simp] theorem State.modForm_reports (s : State) (k : Nat) (f : Form → Form) : (s.modForm k f).reports = s.reports := rfl
@[simp] theorem State.modForm_epoch (s : State) (k : Nat) (f : Form → Form) : (s.modForm k f).epoch = s.epoch := rfl
@[simp] theorem State.modForm_agenda (s : State) (k : Nat) (f : Form → Form) : (s.modForm k f).agenda = s.agenda := rfl
@[simp] theorem State.modForm_hostRead (s : State) (k : Nat) (f : Form → Form) : (s.modForm k f).hostRead = s.hostRead := rfl
@[simp] theorem State.modForm_refetch (s : State) (k : Nat) (f : Form → Form) : (s.modForm k f).refetch = s.refetch := rfl
@[simp] theorem State.modForm_cur (s : State) (k : Nat) (f : Form → Form) : (s.modForm k f).cur = s.cur := rfl
@[simp] theorem State.modForm_draws (s : State) (k : Nat) (f : Form → Form) : (s.modForm k f).draws = s.draws := rfl
@[simp] theorem State.modForm_serial (s : State) (k : Nat) (f : Form → Form) : (s.modForm k f).serial = s.serial := rfl
@[simp] theorem State.modForm_members (s : State) (k : Nat) (f : Form → Form) : (s.modForm k f).members = s.members := rfl
@[simp] theorem State.modForm_nvme (s : State) (k : Nat) (f : Form → Form) : (s.modForm k f).nvme = s.nvme := rfl
@[simp] theorem State.modForm_play (s : State) (k : Nat) (f : Form → Form) : (s.modForm k f).play = s.play := rfl
@[simp] theorem State.modForm_recFrom (s : State) (k : Nat) (f : Form → Form) : (s.modForm k f).recFrom = s.recFrom := rfl
@[simp] theorem State.modForm_ctl (s : State) (k : Nat) (f : Form → Form) : (s.modForm k f).ctl = s.ctl := rfl
@[simp] theorem State.modForm_curAt (s : State) (k : Nat) (f : Form → Form) : (s.modForm k f).curAt = s.curAt := rfl

@[simp] theorem State.modCluster_clusters (s : State) (k : Nat) (f : Cluster → Cluster) : (s.modCluster k f).clusters = Tab.put k (f (s.cluster k)) s.clusters := rfl
@[simp] theorem State.modCluster_clock (s : State) (k : Nat) (f : Cluster → Cluster) : (s.modCluster k f).clock = s.clock := rfl
@[simp] theorem State.modCluster_booted (s : State) (k : Nat) (f : Cluster → Cluster) : (s.modCluster k f).booted = s.booted := rfl
@[simp] theorem State.modCluster_mem (s : State) (k : Nat) (f : Cluster → Cluster) : (s.modCluster k f).mem = s.mem := rfl
@[simp] theorem State.modCluster_bad (s : State) (k : Nat) (f : Cluster → Cluster) : (s.modCluster k f).bad = s.bad := rfl
@[simp] theorem State.modCluster_threads (s : State) (k : Nat) (f : Cluster → Cluster) : (s.modCluster k f).threads = s.threads := rfl
@[simp] theorem State.modCluster_forms (s : State) (k : Nat) (f : Cluster → Cluster) : (s.modCluster k f).forms = s.forms := rfl
@[simp] theorem State.modCluster_nodes (s : State) (k : Nat) (f : Cluster → Cluster) : (s.modCluster k f).nodes = s.nodes := rfl
@[simp] theorem State.modCluster_readySeq (s : State) (k : Nat) (f : Cluster → Cluster) : (s.modCluster k f).readySeq = s.readySeq := rfl
@[simp] theorem State.modCluster_cores (s : State) (k : Nat) (f : Cluster → Cluster) : (s.modCluster k f).cores = s.cores := rfl
@[simp] theorem State.modCluster_dies (s : State) (k : Nat) (f : Cluster → Cluster) : (s.modCluster k f).dies = s.dies := rfl
@[simp] theorem State.modCluster_hbm (s : State) (k : Nat) (f : Cluster → Cluster) : (s.modCluster k f).hbm = s.hbm := rfl
@[simp] theorem State.modCluster_counters (s : State) (k : Nat) (f : Cluster → Cluster) : (s.modCluster k f).counters = s.counters := rfl
@[simp] theorem State.modCluster_mailOut (s : State) (k : Nat) (f : Cluster → Cluster) : (s.modCluster k f).mailOut = s.mailOut := rfl
@[simp] theorem State.modCluster_mailIn (s : State) (k : Nat) (f : Cluster → Cluster) : (s.modCluster k f).mailIn = s.mailIn := rfl
@[simp] theorem State.modCluster_fifos (s : State) (k : Nat) (f : Cluster → Cluster) : (s.modCluster k f).fifos = s.fifos := rfl
@[simp] theorem State.modCluster_chanWait (s : State) (k : Nat) (f : Cluster → Cluster) : (s.modCluster k f).chanWait = s.chanWait := rfl
@[simp] theorem State.modCluster_slots (s : State) (k : Nat) (f : Cluster → Cluster) : (s.modCluster k f).slots = s.slots := rfl
@[simp] theorem State.modCluster_roots (s : State) (k : Nat) (f : Cluster → Cluster) : (s.modCluster k f).roots = s.roots := rfl
@[simp] theorem State.modCluster_binding (s : State) (k : Nat) (f : Cluster → Cluster) : (s.modCluster k f).binding = s.binding := rfl
@[simp] theorem State.modCluster_paused (s : State) (k : Nat) (f : Cluster → Cluster) : (s.modCluster k f).paused = s.paused := rfl
@[simp] theorem State.modCluster_log (s : State) (k : Nat) (f : Cluster → Cluster) : (s.modCluster k f).log = s.log := rfl
@[simp] theorem State.modCluster_package (s : State) (k : Nat) (f : Cluster → Cluster) : (s.modCluster k f).package = s.package := rfl
@[simp] theorem State.modCluster_droop (s : State) (k : Nat) (f : Cluster → Cluster) : (s.modCluster k f).droop = s.droop := rfl
@[simp] theorem State.modCluster_modectl (s : State) (k : Nat) (f : Cluster → Cluster) : (s.modCluster k f).modectl = s.modectl := rfl
@[simp] theorem State.modCluster_modectlNext (s : State) (k : Nat) (f : Cluster → Cluster) : (s.modCluster k f).modectlNext = s.modectlNext := rfl
@[simp] theorem State.modCluster_recctl (s : State) (k : Nat) (f : Cluster → Cluster) : (s.modCluster k f).recctl = s.recctl := rfl
@[simp] theorem State.modCluster_mgmt (s : State) (k : Nat) (f : Cluster → Cluster) : (s.modCluster k f).mgmt = s.mgmt := rfl
@[simp] theorem State.modCluster_ports (s : State) (k : Nat) (f : Cluster → Cluster) : (s.modCluster k f).ports = s.ports := rfl
@[simp] theorem State.modCluster_reports (s : State) (k : Nat) (f : Cluster → Cluster) : (s.modCluster k f).reports = s.reports := rfl
@[simp] theorem State.modCluster_epoch (s : State) (k : Nat) (f : Cluster → Cluster) : (s.modCluster k f).epoch = s.epoch := rfl
@[simp] theorem State.modCluster_agenda (s : State) (k : Nat) (f : Cluster → Cluster) : (s.modCluster k f).agenda = s.agenda := rfl
@[simp] theorem State.modCluster_hostRead (s : State) (k : Nat) (f : Cluster → Cluster) : (s.modCluster k f).hostRead = s.hostRead := rfl
@[simp] theorem State.modCluster_refetch (s : State) (k : Nat) (f : Cluster → Cluster) : (s.modCluster k f).refetch = s.refetch := rfl
@[simp] theorem State.modCluster_cur (s : State) (k : Nat) (f : Cluster → Cluster) : (s.modCluster k f).cur = s.cur := rfl
@[simp] theorem State.modCluster_draws (s : State) (k : Nat) (f : Cluster → Cluster) : (s.modCluster k f).draws = s.draws := rfl
@[simp] theorem State.modCluster_serial (s : State) (k : Nat) (f : Cluster → Cluster) : (s.modCluster k f).serial = s.serial := rfl
@[simp] theorem State.modCluster_members (s : State) (k : Nat) (f : Cluster → Cluster) : (s.modCluster k f).members = s.members := rfl
@[simp] theorem State.modCluster_nvme (s : State) (k : Nat) (f : Cluster → Cluster) : (s.modCluster k f).nvme = s.nvme := rfl
@[simp] theorem State.modCluster_play (s : State) (k : Nat) (f : Cluster → Cluster) : (s.modCluster k f).play = s.play := rfl
@[simp] theorem State.modCluster_recFrom (s : State) (k : Nat) (f : Cluster → Cluster) : (s.modCluster k f).recFrom = s.recFrom := rfl
@[simp] theorem State.modCluster_ctl (s : State) (k : Nat) (f : Cluster → Cluster) : (s.modCluster k f).ctl = s.ctl := rfl
@[simp] theorem State.modCluster_curAt (s : State) (k : Nat) (f : Cluster → Cluster) : (s.modCluster k f).curAt = s.curAt := rfl

@[simp] theorem State.modCore_cores (s : State) (k : Nat) (f : Core → Core) : (s.modCore k f).cores = Tab.put k (f (s.core k)) s.cores := rfl
@[simp] theorem State.modCore_clock (s : State) (k : Nat) (f : Core → Core) : (s.modCore k f).clock = s.clock := rfl
@[simp] theorem State.modCore_booted (s : State) (k : Nat) (f : Core → Core) : (s.modCore k f).booted = s.booted := rfl
@[simp] theorem State.modCore_mem (s : State) (k : Nat) (f : Core → Core) : (s.modCore k f).mem = s.mem := rfl
@[simp] theorem State.modCore_bad (s : State) (k : Nat) (f : Core → Core) : (s.modCore k f).bad = s.bad := rfl
@[simp] theorem State.modCore_threads (s : State) (k : Nat) (f : Core → Core) : (s.modCore k f).threads = s.threads := rfl
@[simp] theorem State.modCore_forms (s : State) (k : Nat) (f : Core → Core) : (s.modCore k f).forms = s.forms := rfl
@[simp] theorem State.modCore_nodes (s : State) (k : Nat) (f : Core → Core) : (s.modCore k f).nodes = s.nodes := rfl
@[simp] theorem State.modCore_readySeq (s : State) (k : Nat) (f : Core → Core) : (s.modCore k f).readySeq = s.readySeq := rfl
@[simp] theorem State.modCore_clusters (s : State) (k : Nat) (f : Core → Core) : (s.modCore k f).clusters = s.clusters := rfl
@[simp] theorem State.modCore_dies (s : State) (k : Nat) (f : Core → Core) : (s.modCore k f).dies = s.dies := rfl
@[simp] theorem State.modCore_hbm (s : State) (k : Nat) (f : Core → Core) : (s.modCore k f).hbm = s.hbm := rfl
@[simp] theorem State.modCore_counters (s : State) (k : Nat) (f : Core → Core) : (s.modCore k f).counters = s.counters := rfl
@[simp] theorem State.modCore_mailOut (s : State) (k : Nat) (f : Core → Core) : (s.modCore k f).mailOut = s.mailOut := rfl
@[simp] theorem State.modCore_mailIn (s : State) (k : Nat) (f : Core → Core) : (s.modCore k f).mailIn = s.mailIn := rfl
@[simp] theorem State.modCore_fifos (s : State) (k : Nat) (f : Core → Core) : (s.modCore k f).fifos = s.fifos := rfl
@[simp] theorem State.modCore_chanWait (s : State) (k : Nat) (f : Core → Core) : (s.modCore k f).chanWait = s.chanWait := rfl
@[simp] theorem State.modCore_slots (s : State) (k : Nat) (f : Core → Core) : (s.modCore k f).slots = s.slots := rfl
@[simp] theorem State.modCore_roots (s : State) (k : Nat) (f : Core → Core) : (s.modCore k f).roots = s.roots := rfl
@[simp] theorem State.modCore_binding (s : State) (k : Nat) (f : Core → Core) : (s.modCore k f).binding = s.binding := rfl
@[simp] theorem State.modCore_paused (s : State) (k : Nat) (f : Core → Core) : (s.modCore k f).paused = s.paused := rfl
@[simp] theorem State.modCore_log (s : State) (k : Nat) (f : Core → Core) : (s.modCore k f).log = s.log := rfl
@[simp] theorem State.modCore_package (s : State) (k : Nat) (f : Core → Core) : (s.modCore k f).package = s.package := rfl
@[simp] theorem State.modCore_droop (s : State) (k : Nat) (f : Core → Core) : (s.modCore k f).droop = s.droop := rfl
@[simp] theorem State.modCore_modectl (s : State) (k : Nat) (f : Core → Core) : (s.modCore k f).modectl = s.modectl := rfl
@[simp] theorem State.modCore_modectlNext (s : State) (k : Nat) (f : Core → Core) : (s.modCore k f).modectlNext = s.modectlNext := rfl
@[simp] theorem State.modCore_recctl (s : State) (k : Nat) (f : Core → Core) : (s.modCore k f).recctl = s.recctl := rfl
@[simp] theorem State.modCore_mgmt (s : State) (k : Nat) (f : Core → Core) : (s.modCore k f).mgmt = s.mgmt := rfl
@[simp] theorem State.modCore_ports (s : State) (k : Nat) (f : Core → Core) : (s.modCore k f).ports = s.ports := rfl
@[simp] theorem State.modCore_reports (s : State) (k : Nat) (f : Core → Core) : (s.modCore k f).reports = s.reports := rfl
@[simp] theorem State.modCore_epoch (s : State) (k : Nat) (f : Core → Core) : (s.modCore k f).epoch = s.epoch := rfl
@[simp] theorem State.modCore_agenda (s : State) (k : Nat) (f : Core → Core) : (s.modCore k f).agenda = s.agenda := rfl
@[simp] theorem State.modCore_hostRead (s : State) (k : Nat) (f : Core → Core) : (s.modCore k f).hostRead = s.hostRead := rfl
@[simp] theorem State.modCore_refetch (s : State) (k : Nat) (f : Core → Core) : (s.modCore k f).refetch = s.refetch := rfl
@[simp] theorem State.modCore_cur (s : State) (k : Nat) (f : Core → Core) : (s.modCore k f).cur = s.cur := rfl
@[simp] theorem State.modCore_draws (s : State) (k : Nat) (f : Core → Core) : (s.modCore k f).draws = s.draws := rfl
@[simp] theorem State.modCore_serial (s : State) (k : Nat) (f : Core → Core) : (s.modCore k f).serial = s.serial := rfl
@[simp] theorem State.modCore_members (s : State) (k : Nat) (f : Core → Core) : (s.modCore k f).members = s.members := rfl
@[simp] theorem State.modCore_nvme (s : State) (k : Nat) (f : Core → Core) : (s.modCore k f).nvme = s.nvme := rfl
@[simp] theorem State.modCore_play (s : State) (k : Nat) (f : Core → Core) : (s.modCore k f).play = s.play := rfl
@[simp] theorem State.modCore_recFrom (s : State) (k : Nat) (f : Core → Core) : (s.modCore k f).recFrom = s.recFrom := rfl
@[simp] theorem State.modCore_ctl (s : State) (k : Nat) (f : Core → Core) : (s.modCore k f).ctl = s.ctl := rfl
@[simp] theorem State.modCore_curAt (s : State) (k : Nat) (f : Core → Core) : (s.modCore k f).curAt = s.curAt := rfl

@[simp] theorem State.modStack_hbm (s : State) (k : Nat) (f : Stack → Stack) : (s.modStack k f).hbm = Tab.put k (f (s.stack k)) s.hbm := rfl
@[simp] theorem State.modStack_clock (s : State) (k : Nat) (f : Stack → Stack) : (s.modStack k f).clock = s.clock := rfl
@[simp] theorem State.modStack_booted (s : State) (k : Nat) (f : Stack → Stack) : (s.modStack k f).booted = s.booted := rfl
@[simp] theorem State.modStack_mem (s : State) (k : Nat) (f : Stack → Stack) : (s.modStack k f).mem = s.mem := rfl
@[simp] theorem State.modStack_bad (s : State) (k : Nat) (f : Stack → Stack) : (s.modStack k f).bad = s.bad := rfl
@[simp] theorem State.modStack_threads (s : State) (k : Nat) (f : Stack → Stack) : (s.modStack k f).threads = s.threads := rfl
@[simp] theorem State.modStack_forms (s : State) (k : Nat) (f : Stack → Stack) : (s.modStack k f).forms = s.forms := rfl
@[simp] theorem State.modStack_nodes (s : State) (k : Nat) (f : Stack → Stack) : (s.modStack k f).nodes = s.nodes := rfl
@[simp] theorem State.modStack_readySeq (s : State) (k : Nat) (f : Stack → Stack) : (s.modStack k f).readySeq = s.readySeq := rfl
@[simp] theorem State.modStack_clusters (s : State) (k : Nat) (f : Stack → Stack) : (s.modStack k f).clusters = s.clusters := rfl
@[simp] theorem State.modStack_cores (s : State) (k : Nat) (f : Stack → Stack) : (s.modStack k f).cores = s.cores := rfl
@[simp] theorem State.modStack_dies (s : State) (k : Nat) (f : Stack → Stack) : (s.modStack k f).dies = s.dies := rfl
@[simp] theorem State.modStack_counters (s : State) (k : Nat) (f : Stack → Stack) : (s.modStack k f).counters = s.counters := rfl
@[simp] theorem State.modStack_mailOut (s : State) (k : Nat) (f : Stack → Stack) : (s.modStack k f).mailOut = s.mailOut := rfl
@[simp] theorem State.modStack_mailIn (s : State) (k : Nat) (f : Stack → Stack) : (s.modStack k f).mailIn = s.mailIn := rfl
@[simp] theorem State.modStack_fifos (s : State) (k : Nat) (f : Stack → Stack) : (s.modStack k f).fifos = s.fifos := rfl
@[simp] theorem State.modStack_chanWait (s : State) (k : Nat) (f : Stack → Stack) : (s.modStack k f).chanWait = s.chanWait := rfl
@[simp] theorem State.modStack_slots (s : State) (k : Nat) (f : Stack → Stack) : (s.modStack k f).slots = s.slots := rfl
@[simp] theorem State.modStack_roots (s : State) (k : Nat) (f : Stack → Stack) : (s.modStack k f).roots = s.roots := rfl
@[simp] theorem State.modStack_binding (s : State) (k : Nat) (f : Stack → Stack) : (s.modStack k f).binding = s.binding := rfl
@[simp] theorem State.modStack_paused (s : State) (k : Nat) (f : Stack → Stack) : (s.modStack k f).paused = s.paused := rfl
@[simp] theorem State.modStack_log (s : State) (k : Nat) (f : Stack → Stack) : (s.modStack k f).log = s.log := rfl
@[simp] theorem State.modStack_package (s : State) (k : Nat) (f : Stack → Stack) : (s.modStack k f).package = s.package := rfl
@[simp] theorem State.modStack_droop (s : State) (k : Nat) (f : Stack → Stack) : (s.modStack k f).droop = s.droop := rfl
@[simp] theorem State.modStack_modectl (s : State) (k : Nat) (f : Stack → Stack) : (s.modStack k f).modectl = s.modectl := rfl
@[simp] theorem State.modStack_modectlNext (s : State) (k : Nat) (f : Stack → Stack) : (s.modStack k f).modectlNext = s.modectlNext := rfl
@[simp] theorem State.modStack_recctl (s : State) (k : Nat) (f : Stack → Stack) : (s.modStack k f).recctl = s.recctl := rfl
@[simp] theorem State.modStack_mgmt (s : State) (k : Nat) (f : Stack → Stack) : (s.modStack k f).mgmt = s.mgmt := rfl
@[simp] theorem State.modStack_ports (s : State) (k : Nat) (f : Stack → Stack) : (s.modStack k f).ports = s.ports := rfl
@[simp] theorem State.modStack_reports (s : State) (k : Nat) (f : Stack → Stack) : (s.modStack k f).reports = s.reports := rfl
@[simp] theorem State.modStack_epoch (s : State) (k : Nat) (f : Stack → Stack) : (s.modStack k f).epoch = s.epoch := rfl
@[simp] theorem State.modStack_agenda (s : State) (k : Nat) (f : Stack → Stack) : (s.modStack k f).agenda = s.agenda := rfl
@[simp] theorem State.modStack_hostRead (s : State) (k : Nat) (f : Stack → Stack) : (s.modStack k f).hostRead = s.hostRead := rfl
@[simp] theorem State.modStack_refetch (s : State) (k : Nat) (f : Stack → Stack) : (s.modStack k f).refetch = s.refetch := rfl
@[simp] theorem State.modStack_cur (s : State) (k : Nat) (f : Stack → Stack) : (s.modStack k f).cur = s.cur := rfl
@[simp] theorem State.modStack_draws (s : State) (k : Nat) (f : Stack → Stack) : (s.modStack k f).draws = s.draws := rfl
@[simp] theorem State.modStack_serial (s : State) (k : Nat) (f : Stack → Stack) : (s.modStack k f).serial = s.serial := rfl
@[simp] theorem State.modStack_members (s : State) (k : Nat) (f : Stack → Stack) : (s.modStack k f).members = s.members := rfl
@[simp] theorem State.modStack_nvme (s : State) (k : Nat) (f : Stack → Stack) : (s.modStack k f).nvme = s.nvme := rfl
@[simp] theorem State.modStack_play (s : State) (k : Nat) (f : Stack → Stack) : (s.modStack k f).play = s.play := rfl
@[simp] theorem State.modStack_recFrom (s : State) (k : Nat) (f : Stack → Stack) : (s.modStack k f).recFrom = s.recFrom := rfl
@[simp] theorem State.modStack_ctl (s : State) (k : Nat) (f : Stack → Stack) : (s.modStack k f).ctl = s.ctl := rfl
@[simp] theorem State.modStack_curAt (s : State) (k : Nat) (f : Stack → Stack) : (s.modStack k f).curAt = s.curAt := rfl

@[simp] theorem State.modDie_dies (s : State) (k : Nat) (f : Die → Die) : (s.modDie k f).dies = Tab.put k (f (s.die k)) s.dies := rfl
@[simp] theorem State.modDie_clock (s : State) (k : Nat) (f : Die → Die) : (s.modDie k f).clock = s.clock := rfl
@[simp] theorem State.modDie_booted (s : State) (k : Nat) (f : Die → Die) : (s.modDie k f).booted = s.booted := rfl
@[simp] theorem State.modDie_mem (s : State) (k : Nat) (f : Die → Die) : (s.modDie k f).mem = s.mem := rfl
@[simp] theorem State.modDie_bad (s : State) (k : Nat) (f : Die → Die) : (s.modDie k f).bad = s.bad := rfl
@[simp] theorem State.modDie_threads (s : State) (k : Nat) (f : Die → Die) : (s.modDie k f).threads = s.threads := rfl
@[simp] theorem State.modDie_forms (s : State) (k : Nat) (f : Die → Die) : (s.modDie k f).forms = s.forms := rfl
@[simp] theorem State.modDie_nodes (s : State) (k : Nat) (f : Die → Die) : (s.modDie k f).nodes = s.nodes := rfl
@[simp] theorem State.modDie_readySeq (s : State) (k : Nat) (f : Die → Die) : (s.modDie k f).readySeq = s.readySeq := rfl
@[simp] theorem State.modDie_clusters (s : State) (k : Nat) (f : Die → Die) : (s.modDie k f).clusters = s.clusters := rfl
@[simp] theorem State.modDie_cores (s : State) (k : Nat) (f : Die → Die) : (s.modDie k f).cores = s.cores := rfl
@[simp] theorem State.modDie_hbm (s : State) (k : Nat) (f : Die → Die) : (s.modDie k f).hbm = s.hbm := rfl
@[simp] theorem State.modDie_counters (s : State) (k : Nat) (f : Die → Die) : (s.modDie k f).counters = s.counters := rfl
@[simp] theorem State.modDie_mailOut (s : State) (k : Nat) (f : Die → Die) : (s.modDie k f).mailOut = s.mailOut := rfl
@[simp] theorem State.modDie_mailIn (s : State) (k : Nat) (f : Die → Die) : (s.modDie k f).mailIn = s.mailIn := rfl
@[simp] theorem State.modDie_fifos (s : State) (k : Nat) (f : Die → Die) : (s.modDie k f).fifos = s.fifos := rfl
@[simp] theorem State.modDie_chanWait (s : State) (k : Nat) (f : Die → Die) : (s.modDie k f).chanWait = s.chanWait := rfl
@[simp] theorem State.modDie_slots (s : State) (k : Nat) (f : Die → Die) : (s.modDie k f).slots = s.slots := rfl
@[simp] theorem State.modDie_roots (s : State) (k : Nat) (f : Die → Die) : (s.modDie k f).roots = s.roots := rfl
@[simp] theorem State.modDie_binding (s : State) (k : Nat) (f : Die → Die) : (s.modDie k f).binding = s.binding := rfl
@[simp] theorem State.modDie_paused (s : State) (k : Nat) (f : Die → Die) : (s.modDie k f).paused = s.paused := rfl
@[simp] theorem State.modDie_log (s : State) (k : Nat) (f : Die → Die) : (s.modDie k f).log = s.log := rfl
@[simp] theorem State.modDie_package (s : State) (k : Nat) (f : Die → Die) : (s.modDie k f).package = s.package := rfl
@[simp] theorem State.modDie_droop (s : State) (k : Nat) (f : Die → Die) : (s.modDie k f).droop = s.droop := rfl
@[simp] theorem State.modDie_modectl (s : State) (k : Nat) (f : Die → Die) : (s.modDie k f).modectl = s.modectl := rfl
@[simp] theorem State.modDie_modectlNext (s : State) (k : Nat) (f : Die → Die) : (s.modDie k f).modectlNext = s.modectlNext := rfl
@[simp] theorem State.modDie_recctl (s : State) (k : Nat) (f : Die → Die) : (s.modDie k f).recctl = s.recctl := rfl
@[simp] theorem State.modDie_mgmt (s : State) (k : Nat) (f : Die → Die) : (s.modDie k f).mgmt = s.mgmt := rfl
@[simp] theorem State.modDie_ports (s : State) (k : Nat) (f : Die → Die) : (s.modDie k f).ports = s.ports := rfl
@[simp] theorem State.modDie_reports (s : State) (k : Nat) (f : Die → Die) : (s.modDie k f).reports = s.reports := rfl
@[simp] theorem State.modDie_epoch (s : State) (k : Nat) (f : Die → Die) : (s.modDie k f).epoch = s.epoch := rfl
@[simp] theorem State.modDie_agenda (s : State) (k : Nat) (f : Die → Die) : (s.modDie k f).agenda = s.agenda := rfl
@[simp] theorem State.modDie_hostRead (s : State) (k : Nat) (f : Die → Die) : (s.modDie k f).hostRead = s.hostRead := rfl
@[simp] theorem State.modDie_refetch (s : State) (k : Nat) (f : Die → Die) : (s.modDie k f).refetch = s.refetch := rfl
@[simp] theorem State.modDie_cur (s : State) (k : Nat) (f : Die → Die) : (s.modDie k f).cur = s.cur := rfl
@[simp] theorem State.modDie_draws (s : State) (k : Nat) (f : Die → Die) : (s.modDie k f).draws = s.draws := rfl
@[simp] theorem State.modDie_serial (s : State) (k : Nat) (f : Die → Die) : (s.modDie k f).serial = s.serial := rfl
@[simp] theorem State.modDie_members (s : State) (k : Nat) (f : Die → Die) : (s.modDie k f).members = s.members := rfl
@[simp] theorem State.modDie_nvme (s : State) (k : Nat) (f : Die → Die) : (s.modDie k f).nvme = s.nvme := rfl
@[simp] theorem State.modDie_play (s : State) (k : Nat) (f : Die → Die) : (s.modDie k f).play = s.play := rfl
@[simp] theorem State.modDie_recFrom (s : State) (k : Nat) (f : Die → Die) : (s.modDie k f).recFrom = s.recFrom := rfl
@[simp] theorem State.modDie_ctl (s : State) (k : Nat) (f : Die → Die) : (s.modDie k f).ctl = s.ctl := rfl
@[simp] theorem State.modDie_curAt (s : State) (k : Nat) (f : Die → Die) : (s.modDie k f).curAt = s.curAt := rfl

@[simp] theorem State.note_log (s : State) (i : LogItem) : (s.note i).log = s.log ++ [i] := rfl
@[simp] theorem State.note_clock (s : State) (i : LogItem) : (s.note i).clock = s.clock := rfl
@[simp] theorem State.note_booted (s : State) (i : LogItem) : (s.note i).booted = s.booted := rfl
@[simp] theorem State.note_mem (s : State) (i : LogItem) : (s.note i).mem = s.mem := rfl
@[simp] theorem State.note_bad (s : State) (i : LogItem) : (s.note i).bad = s.bad := rfl
@[simp] theorem State.note_threads (s : State) (i : LogItem) : (s.note i).threads = s.threads := rfl
@[simp] theorem State.note_forms (s : State) (i : LogItem) : (s.note i).forms = s.forms := rfl
@[simp] theorem State.note_nodes (s : State) (i : LogItem) : (s.note i).nodes = s.nodes := rfl
@[simp] theorem State.note_readySeq (s : State) (i : LogItem) : (s.note i).readySeq = s.readySeq := rfl
@[simp] theorem State.note_clusters (s : State) (i : LogItem) : (s.note i).clusters = s.clusters := rfl
@[simp] theorem State.note_cores (s : State) (i : LogItem) : (s.note i).cores = s.cores := rfl
@[simp] theorem State.note_dies (s : State) (i : LogItem) : (s.note i).dies = s.dies := rfl
@[simp] theorem State.note_hbm (s : State) (i : LogItem) : (s.note i).hbm = s.hbm := rfl
@[simp] theorem State.note_counters (s : State) (i : LogItem) : (s.note i).counters = s.counters := rfl
@[simp] theorem State.note_mailOut (s : State) (i : LogItem) : (s.note i).mailOut = s.mailOut := rfl
@[simp] theorem State.note_mailIn (s : State) (i : LogItem) : (s.note i).mailIn = s.mailIn := rfl
@[simp] theorem State.note_fifos (s : State) (i : LogItem) : (s.note i).fifos = s.fifos := rfl
@[simp] theorem State.note_chanWait (s : State) (i : LogItem) : (s.note i).chanWait = s.chanWait := rfl
@[simp] theorem State.note_slots (s : State) (i : LogItem) : (s.note i).slots = s.slots := rfl
@[simp] theorem State.note_roots (s : State) (i : LogItem) : (s.note i).roots = s.roots := rfl
@[simp] theorem State.note_binding (s : State) (i : LogItem) : (s.note i).binding = s.binding := rfl
@[simp] theorem State.note_paused (s : State) (i : LogItem) : (s.note i).paused = s.paused := rfl
@[simp] theorem State.note_package (s : State) (i : LogItem) : (s.note i).package = s.package := rfl
@[simp] theorem State.note_droop (s : State) (i : LogItem) : (s.note i).droop = s.droop := rfl
@[simp] theorem State.note_modectl (s : State) (i : LogItem) : (s.note i).modectl = s.modectl := rfl
@[simp] theorem State.note_modectlNext (s : State) (i : LogItem) : (s.note i).modectlNext = s.modectlNext := rfl
@[simp] theorem State.note_recctl (s : State) (i : LogItem) : (s.note i).recctl = s.recctl := rfl
@[simp] theorem State.note_mgmt (s : State) (i : LogItem) : (s.note i).mgmt = s.mgmt := rfl
@[simp] theorem State.note_ports (s : State) (i : LogItem) : (s.note i).ports = s.ports := rfl
@[simp] theorem State.note_reports (s : State) (i : LogItem) : (s.note i).reports = s.reports := rfl
@[simp] theorem State.note_epoch (s : State) (i : LogItem) : (s.note i).epoch = s.epoch := rfl
@[simp] theorem State.note_agenda (s : State) (i : LogItem) : (s.note i).agenda = s.agenda := rfl
@[simp] theorem State.note_hostRead (s : State) (i : LogItem) : (s.note i).hostRead = s.hostRead := rfl
@[simp] theorem State.note_refetch (s : State) (i : LogItem) : (s.note i).refetch = s.refetch := rfl
@[simp] theorem State.note_cur (s : State) (i : LogItem) : (s.note i).cur = s.cur := rfl
@[simp] theorem State.note_draws (s : State) (i : LogItem) : (s.note i).draws = s.draws := rfl
@[simp] theorem State.note_serial (s : State) (i : LogItem) : (s.note i).serial = s.serial := rfl
@[simp] theorem State.note_members (s : State) (i : LogItem) : (s.note i).members = s.members := rfl
@[simp] theorem State.note_nvme (s : State) (i : LogItem) : (s.note i).nvme = s.nvme := rfl
@[simp] theorem State.note_play (s : State) (i : LogItem) : (s.note i).play = s.play := rfl
@[simp] theorem State.note_recFrom (s : State) (i : LogItem) : (s.note i).recFrom = s.recFrom := rfl
@[simp] theorem State.note_ctl (s : State) (i : LogItem) : (s.note i).ctl = s.ctl := rfl
@[simp] theorem State.note_curAt (s : State) (i : LogItem) : (s.note i).curAt = s.curAt := rfl

@[simp] theorem State.fresh_serial (s : State)  : (s.fresh).serial = s.serial + 1 := rfl
@[simp] theorem State.fresh_clock (s : State)  : (s.fresh).clock = s.clock := rfl
@[simp] theorem State.fresh_booted (s : State)  : (s.fresh).booted = s.booted := rfl
@[simp] theorem State.fresh_mem (s : State)  : (s.fresh).mem = s.mem := rfl
@[simp] theorem State.fresh_bad (s : State)  : (s.fresh).bad = s.bad := rfl
@[simp] theorem State.fresh_threads (s : State)  : (s.fresh).threads = s.threads := rfl
@[simp] theorem State.fresh_forms (s : State)  : (s.fresh).forms = s.forms := rfl
@[simp] theorem State.fresh_nodes (s : State)  : (s.fresh).nodes = s.nodes := rfl
@[simp] theorem State.fresh_readySeq (s : State)  : (s.fresh).readySeq = s.readySeq := rfl
@[simp] theorem State.fresh_clusters (s : State)  : (s.fresh).clusters = s.clusters := rfl
@[simp] theorem State.fresh_cores (s : State)  : (s.fresh).cores = s.cores := rfl
@[simp] theorem State.fresh_dies (s : State)  : (s.fresh).dies = s.dies := rfl
@[simp] theorem State.fresh_hbm (s : State)  : (s.fresh).hbm = s.hbm := rfl
@[simp] theorem State.fresh_counters (s : State)  : (s.fresh).counters = s.counters := rfl
@[simp] theorem State.fresh_mailOut (s : State)  : (s.fresh).mailOut = s.mailOut := rfl
@[simp] theorem State.fresh_mailIn (s : State)  : (s.fresh).mailIn = s.mailIn := rfl
@[simp] theorem State.fresh_fifos (s : State)  : (s.fresh).fifos = s.fifos := rfl
@[simp] theorem State.fresh_chanWait (s : State)  : (s.fresh).chanWait = s.chanWait := rfl
@[simp] theorem State.fresh_slots (s : State)  : (s.fresh).slots = s.slots := rfl
@[simp] theorem State.fresh_roots (s : State)  : (s.fresh).roots = s.roots := rfl
@[simp] theorem State.fresh_binding (s : State)  : (s.fresh).binding = s.binding := rfl
@[simp] theorem State.fresh_paused (s : State)  : (s.fresh).paused = s.paused := rfl
@[simp] theorem State.fresh_log (s : State)  : (s.fresh).log = s.log := rfl
@[simp] theorem State.fresh_package (s : State)  : (s.fresh).package = s.package := rfl
@[simp] theorem State.fresh_droop (s : State)  : (s.fresh).droop = s.droop := rfl
@[simp] theorem State.fresh_modectl (s : State)  : (s.fresh).modectl = s.modectl := rfl
@[simp] theorem State.fresh_modectlNext (s : State)  : (s.fresh).modectlNext = s.modectlNext := rfl
@[simp] theorem State.fresh_recctl (s : State)  : (s.fresh).recctl = s.recctl := rfl
@[simp] theorem State.fresh_mgmt (s : State)  : (s.fresh).mgmt = s.mgmt := rfl
@[simp] theorem State.fresh_ports (s : State)  : (s.fresh).ports = s.ports := rfl
@[simp] theorem State.fresh_reports (s : State)  : (s.fresh).reports = s.reports := rfl
@[simp] theorem State.fresh_epoch (s : State)  : (s.fresh).epoch = s.epoch := rfl
@[simp] theorem State.fresh_agenda (s : State)  : (s.fresh).agenda = s.agenda := rfl
@[simp] theorem State.fresh_hostRead (s : State)  : (s.fresh).hostRead = s.hostRead := rfl
@[simp] theorem State.fresh_refetch (s : State)  : (s.fresh).refetch = s.refetch := rfl
@[simp] theorem State.fresh_cur (s : State)  : (s.fresh).cur = s.cur := rfl
@[simp] theorem State.fresh_draws (s : State)  : (s.fresh).draws = s.draws := rfl
@[simp] theorem State.fresh_members (s : State)  : (s.fresh).members = s.members := rfl
@[simp] theorem State.fresh_nvme (s : State)  : (s.fresh).nvme = s.nvme := rfl
@[simp] theorem State.fresh_play (s : State)  : (s.fresh).play = s.play := rfl
@[simp] theorem State.fresh_recFrom (s : State)  : (s.fresh).recFrom = s.recFrom := rfl
@[simp] theorem State.fresh_ctl (s : State)  : (s.fresh).ctl = s.ctl := rfl
@[simp] theorem State.fresh_curAt (s : State)  : (s.fresh).curAt = s.curAt := rfl


/-! ## Writes of physical memory leave every field but memory and the stacks -/

@[simp] theorem State.setPhysByte_clock (s : State) (a : Nat) (b : Byte) : (s.setPhysByte a b).clock = s.clock := by
  unfold State.setPhysByte; split <;> rfl
@[simp] theorem State.setPhysByte_booted (s : State) (a : Nat) (b : Byte) : (s.setPhysByte a b).booted = s.booted := by
  unfold State.setPhysByte; split <;> rfl
@[simp] theorem State.setPhysByte_bad (s : State) (a : Nat) (b : Byte) : (s.setPhysByte a b).bad = s.bad := by
  unfold State.setPhysByte; split <;> rfl
@[simp] theorem State.setPhysByte_threads (s : State) (a : Nat) (b : Byte) : (s.setPhysByte a b).threads = s.threads := by
  unfold State.setPhysByte; split <;> rfl
@[simp] theorem State.setPhysByte_forms (s : State) (a : Nat) (b : Byte) : (s.setPhysByte a b).forms = s.forms := by
  unfold State.setPhysByte; split <;> rfl
@[simp] theorem State.setPhysByte_nodes (s : State) (a : Nat) (b : Byte) : (s.setPhysByte a b).nodes = s.nodes := by
  unfold State.setPhysByte; split <;> rfl
@[simp] theorem State.setPhysByte_readySeq (s : State) (a : Nat) (b : Byte) : (s.setPhysByte a b).readySeq = s.readySeq := by
  unfold State.setPhysByte; split <;> rfl
@[simp] theorem State.setPhysByte_clusters (s : State) (a : Nat) (b : Byte) : (s.setPhysByte a b).clusters = s.clusters := by
  unfold State.setPhysByte; split <;> rfl
@[simp] theorem State.setPhysByte_cores (s : State) (a : Nat) (b : Byte) : (s.setPhysByte a b).cores = s.cores := by
  unfold State.setPhysByte; split <;> rfl
@[simp] theorem State.setPhysByte_dies (s : State) (a : Nat) (b : Byte) : (s.setPhysByte a b).dies = s.dies := by
  unfold State.setPhysByte; split <;> rfl
@[simp] theorem State.setPhysByte_counters (s : State) (a : Nat) (b : Byte) : (s.setPhysByte a b).counters = s.counters := by
  unfold State.setPhysByte; split <;> rfl
@[simp] theorem State.setPhysByte_mailOut (s : State) (a : Nat) (b : Byte) : (s.setPhysByte a b).mailOut = s.mailOut := by
  unfold State.setPhysByte; split <;> rfl
@[simp] theorem State.setPhysByte_mailIn (s : State) (a : Nat) (b : Byte) : (s.setPhysByte a b).mailIn = s.mailIn := by
  unfold State.setPhysByte; split <;> rfl
@[simp] theorem State.setPhysByte_fifos (s : State) (a : Nat) (b : Byte) : (s.setPhysByte a b).fifos = s.fifos := by
  unfold State.setPhysByte; split <;> rfl
@[simp] theorem State.setPhysByte_chanWait (s : State) (a : Nat) (b : Byte) : (s.setPhysByte a b).chanWait = s.chanWait := by
  unfold State.setPhysByte; split <;> rfl
@[simp] theorem State.setPhysByte_slots (s : State) (a : Nat) (b : Byte) : (s.setPhysByte a b).slots = s.slots := by
  unfold State.setPhysByte; split <;> rfl
@[simp] theorem State.setPhysByte_roots (s : State) (a : Nat) (b : Byte) : (s.setPhysByte a b).roots = s.roots := by
  unfold State.setPhysByte; split <;> rfl
@[simp] theorem State.setPhysByte_binding (s : State) (a : Nat) (b : Byte) : (s.setPhysByte a b).binding = s.binding := by
  unfold State.setPhysByte; split <;> rfl
@[simp] theorem State.setPhysByte_paused (s : State) (a : Nat) (b : Byte) : (s.setPhysByte a b).paused = s.paused := by
  unfold State.setPhysByte; split <;> rfl
@[simp] theorem State.setPhysByte_log (s : State) (a : Nat) (b : Byte) : (s.setPhysByte a b).log = s.log := by
  unfold State.setPhysByte; split <;> rfl
@[simp] theorem State.setPhysByte_package (s : State) (a : Nat) (b : Byte) : (s.setPhysByte a b).package = s.package := by
  unfold State.setPhysByte; split <;> rfl
@[simp] theorem State.setPhysByte_droop (s : State) (a : Nat) (b : Byte) : (s.setPhysByte a b).droop = s.droop := by
  unfold State.setPhysByte; split <;> rfl
@[simp] theorem State.setPhysByte_modectl (s : State) (a : Nat) (b : Byte) : (s.setPhysByte a b).modectl = s.modectl := by
  unfold State.setPhysByte; split <;> rfl
@[simp] theorem State.setPhysByte_modectlNext (s : State) (a : Nat) (b : Byte) : (s.setPhysByte a b).modectlNext = s.modectlNext := by
  unfold State.setPhysByte; split <;> rfl
@[simp] theorem State.setPhysByte_recctl (s : State) (a : Nat) (b : Byte) : (s.setPhysByte a b).recctl = s.recctl := by
  unfold State.setPhysByte; split <;> rfl
@[simp] theorem State.setPhysByte_mgmt (s : State) (a : Nat) (b : Byte) : (s.setPhysByte a b).mgmt = s.mgmt := by
  unfold State.setPhysByte; split <;> rfl
@[simp] theorem State.setPhysByte_ports (s : State) (a : Nat) (b : Byte) : (s.setPhysByte a b).ports = s.ports := by
  unfold State.setPhysByte; split <;> rfl
@[simp] theorem State.setPhysByte_reports (s : State) (a : Nat) (b : Byte) : (s.setPhysByte a b).reports = s.reports := by
  unfold State.setPhysByte; split <;> rfl
@[simp] theorem State.setPhysByte_epoch (s : State) (a : Nat) (b : Byte) : (s.setPhysByte a b).epoch = s.epoch := by
  unfold State.setPhysByte; split <;> rfl
@[simp] theorem State.setPhysByte_agenda (s : State) (a : Nat) (b : Byte) : (s.setPhysByte a b).agenda = s.agenda := by
  unfold State.setPhysByte; split <;> rfl
@[simp] theorem State.setPhysByte_hostRead (s : State) (a : Nat) (b : Byte) : (s.setPhysByte a b).hostRead = s.hostRead := by
  unfold State.setPhysByte; split <;> rfl
@[simp] theorem State.setPhysByte_refetch (s : State) (a : Nat) (b : Byte) : (s.setPhysByte a b).refetch = s.refetch := by
  unfold State.setPhysByte; split <;> rfl
@[simp] theorem State.setPhysByte_cur (s : State) (a : Nat) (b : Byte) : (s.setPhysByte a b).cur = s.cur := by
  unfold State.setPhysByte; split <;> rfl
@[simp] theorem State.setPhysByte_draws (s : State) (a : Nat) (b : Byte) : (s.setPhysByte a b).draws = s.draws := by
  unfold State.setPhysByte; split <;> rfl
@[simp] theorem State.setPhysByte_serial (s : State) (a : Nat) (b : Byte) : (s.setPhysByte a b).serial = s.serial := by
  unfold State.setPhysByte; split <;> rfl
@[simp] theorem State.setPhysByte_members (s : State) (a : Nat) (b : Byte) : (s.setPhysByte a b).members = s.members := by
  unfold State.setPhysByte; split <;> rfl
@[simp] theorem State.setPhysByte_nvme (s : State) (a : Nat) (b : Byte) : (s.setPhysByte a b).nvme = s.nvme := by
  unfold State.setPhysByte; split <;> rfl
@[simp] theorem State.setPhysByte_play (s : State) (a : Nat) (b : Byte) : (s.setPhysByte a b).play = s.play := by
  unfold State.setPhysByte; split <;> rfl
@[simp] theorem State.setPhysByte_recFrom (s : State) (a : Nat) (b : Byte) : (s.setPhysByte a b).recFrom = s.recFrom := by
  unfold State.setPhysByte; split <;> rfl
@[simp] theorem State.setPhysByte_ctl (s : State) (a : Nat) (b : Byte) : (s.setPhysByte a b).ctl = s.ctl := by
  unfold State.setPhysByte; split <;> rfl
@[simp] theorem State.setPhysByte_curAt (s : State) (a : Nat) (b : Byte) : (s.setPhysByte a b).curAt = s.curAt := by
  unfold State.setPhysByte; split <;> rfl

@[simp] theorem State.setPhysBytes_clock (s : State) (a : Nat) (bs : List Byte) : (s.setPhysBytes a bs).clock = s.clock := by
  induction bs generalizing s a with
  | nil => rfl
  | cons b r ih => simp [State.setPhysBytes, ih]
@[simp] theorem State.setPhysBytes_booted (s : State) (a : Nat) (bs : List Byte) : (s.setPhysBytes a bs).booted = s.booted := by
  induction bs generalizing s a with
  | nil => rfl
  | cons b r ih => simp [State.setPhysBytes, ih]
@[simp] theorem State.setPhysBytes_bad (s : State) (a : Nat) (bs : List Byte) : (s.setPhysBytes a bs).bad = s.bad := by
  induction bs generalizing s a with
  | nil => rfl
  | cons b r ih => simp [State.setPhysBytes, ih]
@[simp] theorem State.setPhysBytes_threads (s : State) (a : Nat) (bs : List Byte) : (s.setPhysBytes a bs).threads = s.threads := by
  induction bs generalizing s a with
  | nil => rfl
  | cons b r ih => simp [State.setPhysBytes, ih]
@[simp] theorem State.setPhysBytes_forms (s : State) (a : Nat) (bs : List Byte) : (s.setPhysBytes a bs).forms = s.forms := by
  induction bs generalizing s a with
  | nil => rfl
  | cons b r ih => simp [State.setPhysBytes, ih]
@[simp] theorem State.setPhysBytes_nodes (s : State) (a : Nat) (bs : List Byte) : (s.setPhysBytes a bs).nodes = s.nodes := by
  induction bs generalizing s a with
  | nil => rfl
  | cons b r ih => simp [State.setPhysBytes, ih]
@[simp] theorem State.setPhysBytes_readySeq (s : State) (a : Nat) (bs : List Byte) : (s.setPhysBytes a bs).readySeq = s.readySeq := by
  induction bs generalizing s a with
  | nil => rfl
  | cons b r ih => simp [State.setPhysBytes, ih]
@[simp] theorem State.setPhysBytes_clusters (s : State) (a : Nat) (bs : List Byte) : (s.setPhysBytes a bs).clusters = s.clusters := by
  induction bs generalizing s a with
  | nil => rfl
  | cons b r ih => simp [State.setPhysBytes, ih]
@[simp] theorem State.setPhysBytes_cores (s : State) (a : Nat) (bs : List Byte) : (s.setPhysBytes a bs).cores = s.cores := by
  induction bs generalizing s a with
  | nil => rfl
  | cons b r ih => simp [State.setPhysBytes, ih]
@[simp] theorem State.setPhysBytes_dies (s : State) (a : Nat) (bs : List Byte) : (s.setPhysBytes a bs).dies = s.dies := by
  induction bs generalizing s a with
  | nil => rfl
  | cons b r ih => simp [State.setPhysBytes, ih]
@[simp] theorem State.setPhysBytes_counters (s : State) (a : Nat) (bs : List Byte) : (s.setPhysBytes a bs).counters = s.counters := by
  induction bs generalizing s a with
  | nil => rfl
  | cons b r ih => simp [State.setPhysBytes, ih]
@[simp] theorem State.setPhysBytes_mailOut (s : State) (a : Nat) (bs : List Byte) : (s.setPhysBytes a bs).mailOut = s.mailOut := by
  induction bs generalizing s a with
  | nil => rfl
  | cons b r ih => simp [State.setPhysBytes, ih]
@[simp] theorem State.setPhysBytes_mailIn (s : State) (a : Nat) (bs : List Byte) : (s.setPhysBytes a bs).mailIn = s.mailIn := by
  induction bs generalizing s a with
  | nil => rfl
  | cons b r ih => simp [State.setPhysBytes, ih]
@[simp] theorem State.setPhysBytes_fifos (s : State) (a : Nat) (bs : List Byte) : (s.setPhysBytes a bs).fifos = s.fifos := by
  induction bs generalizing s a with
  | nil => rfl
  | cons b r ih => simp [State.setPhysBytes, ih]
@[simp] theorem State.setPhysBytes_chanWait (s : State) (a : Nat) (bs : List Byte) : (s.setPhysBytes a bs).chanWait = s.chanWait := by
  induction bs generalizing s a with
  | nil => rfl
  | cons b r ih => simp [State.setPhysBytes, ih]
@[simp] theorem State.setPhysBytes_slots (s : State) (a : Nat) (bs : List Byte) : (s.setPhysBytes a bs).slots = s.slots := by
  induction bs generalizing s a with
  | nil => rfl
  | cons b r ih => simp [State.setPhysBytes, ih]
@[simp] theorem State.setPhysBytes_roots (s : State) (a : Nat) (bs : List Byte) : (s.setPhysBytes a bs).roots = s.roots := by
  induction bs generalizing s a with
  | nil => rfl
  | cons b r ih => simp [State.setPhysBytes, ih]
@[simp] theorem State.setPhysBytes_binding (s : State) (a : Nat) (bs : List Byte) : (s.setPhysBytes a bs).binding = s.binding := by
  induction bs generalizing s a with
  | nil => rfl
  | cons b r ih => simp [State.setPhysBytes, ih]
@[simp] theorem State.setPhysBytes_paused (s : State) (a : Nat) (bs : List Byte) : (s.setPhysBytes a bs).paused = s.paused := by
  induction bs generalizing s a with
  | nil => rfl
  | cons b r ih => simp [State.setPhysBytes, ih]
@[simp] theorem State.setPhysBytes_log (s : State) (a : Nat) (bs : List Byte) : (s.setPhysBytes a bs).log = s.log := by
  induction bs generalizing s a with
  | nil => rfl
  | cons b r ih => simp [State.setPhysBytes, ih]
@[simp] theorem State.setPhysBytes_package (s : State) (a : Nat) (bs : List Byte) : (s.setPhysBytes a bs).package = s.package := by
  induction bs generalizing s a with
  | nil => rfl
  | cons b r ih => simp [State.setPhysBytes, ih]
@[simp] theorem State.setPhysBytes_droop (s : State) (a : Nat) (bs : List Byte) : (s.setPhysBytes a bs).droop = s.droop := by
  induction bs generalizing s a with
  | nil => rfl
  | cons b r ih => simp [State.setPhysBytes, ih]
@[simp] theorem State.setPhysBytes_modectl (s : State) (a : Nat) (bs : List Byte) : (s.setPhysBytes a bs).modectl = s.modectl := by
  induction bs generalizing s a with
  | nil => rfl
  | cons b r ih => simp [State.setPhysBytes, ih]
@[simp] theorem State.setPhysBytes_modectlNext (s : State) (a : Nat) (bs : List Byte) : (s.setPhysBytes a bs).modectlNext = s.modectlNext := by
  induction bs generalizing s a with
  | nil => rfl
  | cons b r ih => simp [State.setPhysBytes, ih]
@[simp] theorem State.setPhysBytes_recctl (s : State) (a : Nat) (bs : List Byte) : (s.setPhysBytes a bs).recctl = s.recctl := by
  induction bs generalizing s a with
  | nil => rfl
  | cons b r ih => simp [State.setPhysBytes, ih]
@[simp] theorem State.setPhysBytes_mgmt (s : State) (a : Nat) (bs : List Byte) : (s.setPhysBytes a bs).mgmt = s.mgmt := by
  induction bs generalizing s a with
  | nil => rfl
  | cons b r ih => simp [State.setPhysBytes, ih]
@[simp] theorem State.setPhysBytes_ports (s : State) (a : Nat) (bs : List Byte) : (s.setPhysBytes a bs).ports = s.ports := by
  induction bs generalizing s a with
  | nil => rfl
  | cons b r ih => simp [State.setPhysBytes, ih]
@[simp] theorem State.setPhysBytes_reports (s : State) (a : Nat) (bs : List Byte) : (s.setPhysBytes a bs).reports = s.reports := by
  induction bs generalizing s a with
  | nil => rfl
  | cons b r ih => simp [State.setPhysBytes, ih]
@[simp] theorem State.setPhysBytes_epoch (s : State) (a : Nat) (bs : List Byte) : (s.setPhysBytes a bs).epoch = s.epoch := by
  induction bs generalizing s a with
  | nil => rfl
  | cons b r ih => simp [State.setPhysBytes, ih]
@[simp] theorem State.setPhysBytes_agenda (s : State) (a : Nat) (bs : List Byte) : (s.setPhysBytes a bs).agenda = s.agenda := by
  induction bs generalizing s a with
  | nil => rfl
  | cons b r ih => simp [State.setPhysBytes, ih]
@[simp] theorem State.setPhysBytes_hostRead (s : State) (a : Nat) (bs : List Byte) : (s.setPhysBytes a bs).hostRead = s.hostRead := by
  induction bs generalizing s a with
  | nil => rfl
  | cons b r ih => simp [State.setPhysBytes, ih]
@[simp] theorem State.setPhysBytes_refetch (s : State) (a : Nat) (bs : List Byte) : (s.setPhysBytes a bs).refetch = s.refetch := by
  induction bs generalizing s a with
  | nil => rfl
  | cons b r ih => simp [State.setPhysBytes, ih]
@[simp] theorem State.setPhysBytes_cur (s : State) (a : Nat) (bs : List Byte) : (s.setPhysBytes a bs).cur = s.cur := by
  induction bs generalizing s a with
  | nil => rfl
  | cons b r ih => simp [State.setPhysBytes, ih]
@[simp] theorem State.setPhysBytes_draws (s : State) (a : Nat) (bs : List Byte) : (s.setPhysBytes a bs).draws = s.draws := by
  induction bs generalizing s a with
  | nil => rfl
  | cons b r ih => simp [State.setPhysBytes, ih]
@[simp] theorem State.setPhysBytes_serial (s : State) (a : Nat) (bs : List Byte) : (s.setPhysBytes a bs).serial = s.serial := by
  induction bs generalizing s a with
  | nil => rfl
  | cons b r ih => simp [State.setPhysBytes, ih]
@[simp] theorem State.setPhysBytes_members (s : State) (a : Nat) (bs : List Byte) : (s.setPhysBytes a bs).members = s.members := by
  induction bs generalizing s a with
  | nil => rfl
  | cons b r ih => simp [State.setPhysBytes, ih]
@[simp] theorem State.setPhysBytes_nvme (s : State) (a : Nat) (bs : List Byte) : (s.setPhysBytes a bs).nvme = s.nvme := by
  induction bs generalizing s a with
  | nil => rfl
  | cons b r ih => simp [State.setPhysBytes, ih]
@[simp] theorem State.setPhysBytes_play (s : State) (a : Nat) (bs : List Byte) : (s.setPhysBytes a bs).play = s.play := by
  induction bs generalizing s a with
  | nil => rfl
  | cons b r ih => simp [State.setPhysBytes, ih]
@[simp] theorem State.setPhysBytes_recFrom (s : State) (a : Nat) (bs : List Byte) : (s.setPhysBytes a bs).recFrom = s.recFrom := by
  induction bs generalizing s a with
  | nil => rfl
  | cons b r ih => simp [State.setPhysBytes, ih]
@[simp] theorem State.setPhysBytes_ctl (s : State) (a : Nat) (bs : List Byte) : (s.setPhysBytes a bs).ctl = s.ctl := by
  induction bs generalizing s a with
  | nil => rfl
  | cons b r ih => simp [State.setPhysBytes, ih]
@[simp] theorem State.setPhysBytes_curAt (s : State) (a : Nat) (bs : List Byte) : (s.setPhysBytes a bs).curAt = s.curAt := by
  induction bs generalizing s a with
  | nil => rfl
  | cons b r ih => simp [State.setPhysBytes, ih]

@[simp] theorem State.setPhysWord_clock (s : State) (a v : Nat) : (s.setPhysWord a v).clock = s.clock :=
  State.setPhysBytes_clock s a _
@[simp] theorem State.setPhysWord_booted (s : State) (a v : Nat) : (s.setPhysWord a v).booted = s.booted :=
  State.setPhysBytes_booted s a _
@[simp] theorem State.setPhysWord_bad (s : State) (a v : Nat) : (s.setPhysWord a v).bad = s.bad :=
  State.setPhysBytes_bad s a _
@[simp] theorem State.setPhysWord_threads (s : State) (a v : Nat) : (s.setPhysWord a v).threads = s.threads :=
  State.setPhysBytes_threads s a _
@[simp] theorem State.setPhysWord_forms (s : State) (a v : Nat) : (s.setPhysWord a v).forms = s.forms :=
  State.setPhysBytes_forms s a _
@[simp] theorem State.setPhysWord_nodes (s : State) (a v : Nat) : (s.setPhysWord a v).nodes = s.nodes :=
  State.setPhysBytes_nodes s a _
@[simp] theorem State.setPhysWord_readySeq (s : State) (a v : Nat) : (s.setPhysWord a v).readySeq = s.readySeq :=
  State.setPhysBytes_readySeq s a _
@[simp] theorem State.setPhysWord_clusters (s : State) (a v : Nat) : (s.setPhysWord a v).clusters = s.clusters :=
  State.setPhysBytes_clusters s a _
@[simp] theorem State.setPhysWord_cores (s : State) (a v : Nat) : (s.setPhysWord a v).cores = s.cores :=
  State.setPhysBytes_cores s a _
@[simp] theorem State.setPhysWord_dies (s : State) (a v : Nat) : (s.setPhysWord a v).dies = s.dies :=
  State.setPhysBytes_dies s a _
@[simp] theorem State.setPhysWord_counters (s : State) (a v : Nat) : (s.setPhysWord a v).counters = s.counters :=
  State.setPhysBytes_counters s a _
@[simp] theorem State.setPhysWord_mailOut (s : State) (a v : Nat) : (s.setPhysWord a v).mailOut = s.mailOut :=
  State.setPhysBytes_mailOut s a _
@[simp] theorem State.setPhysWord_mailIn (s : State) (a v : Nat) : (s.setPhysWord a v).mailIn = s.mailIn :=
  State.setPhysBytes_mailIn s a _
@[simp] theorem State.setPhysWord_fifos (s : State) (a v : Nat) : (s.setPhysWord a v).fifos = s.fifos :=
  State.setPhysBytes_fifos s a _
@[simp] theorem State.setPhysWord_chanWait (s : State) (a v : Nat) : (s.setPhysWord a v).chanWait = s.chanWait :=
  State.setPhysBytes_chanWait s a _
@[simp] theorem State.setPhysWord_slots (s : State) (a v : Nat) : (s.setPhysWord a v).slots = s.slots :=
  State.setPhysBytes_slots s a _
@[simp] theorem State.setPhysWord_roots (s : State) (a v : Nat) : (s.setPhysWord a v).roots = s.roots :=
  State.setPhysBytes_roots s a _
@[simp] theorem State.setPhysWord_binding (s : State) (a v : Nat) : (s.setPhysWord a v).binding = s.binding :=
  State.setPhysBytes_binding s a _
@[simp] theorem State.setPhysWord_paused (s : State) (a v : Nat) : (s.setPhysWord a v).paused = s.paused :=
  State.setPhysBytes_paused s a _
@[simp] theorem State.setPhysWord_log (s : State) (a v : Nat) : (s.setPhysWord a v).log = s.log :=
  State.setPhysBytes_log s a _
@[simp] theorem State.setPhysWord_package (s : State) (a v : Nat) : (s.setPhysWord a v).package = s.package :=
  State.setPhysBytes_package s a _
@[simp] theorem State.setPhysWord_droop (s : State) (a v : Nat) : (s.setPhysWord a v).droop = s.droop :=
  State.setPhysBytes_droop s a _
@[simp] theorem State.setPhysWord_modectl (s : State) (a v : Nat) : (s.setPhysWord a v).modectl = s.modectl :=
  State.setPhysBytes_modectl s a _
@[simp] theorem State.setPhysWord_modectlNext (s : State) (a v : Nat) : (s.setPhysWord a v).modectlNext = s.modectlNext :=
  State.setPhysBytes_modectlNext s a _
@[simp] theorem State.setPhysWord_recctl (s : State) (a v : Nat) : (s.setPhysWord a v).recctl = s.recctl :=
  State.setPhysBytes_recctl s a _
@[simp] theorem State.setPhysWord_mgmt (s : State) (a v : Nat) : (s.setPhysWord a v).mgmt = s.mgmt :=
  State.setPhysBytes_mgmt s a _
@[simp] theorem State.setPhysWord_ports (s : State) (a v : Nat) : (s.setPhysWord a v).ports = s.ports :=
  State.setPhysBytes_ports s a _
@[simp] theorem State.setPhysWord_reports (s : State) (a v : Nat) : (s.setPhysWord a v).reports = s.reports :=
  State.setPhysBytes_reports s a _
@[simp] theorem State.setPhysWord_epoch (s : State) (a v : Nat) : (s.setPhysWord a v).epoch = s.epoch :=
  State.setPhysBytes_epoch s a _
@[simp] theorem State.setPhysWord_agenda (s : State) (a v : Nat) : (s.setPhysWord a v).agenda = s.agenda :=
  State.setPhysBytes_agenda s a _
@[simp] theorem State.setPhysWord_hostRead (s : State) (a v : Nat) : (s.setPhysWord a v).hostRead = s.hostRead :=
  State.setPhysBytes_hostRead s a _
@[simp] theorem State.setPhysWord_refetch (s : State) (a v : Nat) : (s.setPhysWord a v).refetch = s.refetch :=
  State.setPhysBytes_refetch s a _
@[simp] theorem State.setPhysWord_cur (s : State) (a v : Nat) : (s.setPhysWord a v).cur = s.cur :=
  State.setPhysBytes_cur s a _
@[simp] theorem State.setPhysWord_draws (s : State) (a v : Nat) : (s.setPhysWord a v).draws = s.draws :=
  State.setPhysBytes_draws s a _
@[simp] theorem State.setPhysWord_serial (s : State) (a v : Nat) : (s.setPhysWord a v).serial = s.serial :=
  State.setPhysBytes_serial s a _
@[simp] theorem State.setPhysWord_members (s : State) (a v : Nat) : (s.setPhysWord a v).members = s.members :=
  State.setPhysBytes_members s a _
@[simp] theorem State.setPhysWord_nvme (s : State) (a v : Nat) : (s.setPhysWord a v).nvme = s.nvme :=
  State.setPhysBytes_nvme s a _
@[simp] theorem State.setPhysWord_play (s : State) (a v : Nat) : (s.setPhysWord a v).play = s.play :=
  State.setPhysBytes_play s a _
@[simp] theorem State.setPhysWord_recFrom (s : State) (a v : Nat) : (s.setPhysWord a v).recFrom = s.recFrom :=
  State.setPhysBytes_recFrom s a _
@[simp] theorem State.setPhysWord_ctl (s : State) (a v : Nat) : (s.setPhysWord a v).ctl = s.ctl :=
  State.setPhysBytes_ctl s a _
@[simp] theorem State.setPhysWord_curAt (s : State) (a v : Nat) : (s.setPhysWord a v).curAt = s.curAt :=
  State.setPhysBytes_curAt s a _

/-! ## The executing word -/

@[simp] theorem Env.upd_clock (e : Env) (s : State) (f : Clause → Clause) : (e.upd s f).clock = s.clock := rfl
@[simp] theorem Env.finish_clock (e : Env) (s : State) : (e.finish s).clock = s.clock := rfl
@[simp] theorem Env.upd_booted (e : Env) (s : State) (f : Clause → Clause) : (e.upd s f).booted = s.booted := rfl
@[simp] theorem Env.finish_booted (e : Env) (s : State) : (e.finish s).booted = s.booted := rfl
@[simp] theorem Env.upd_mem (e : Env) (s : State) (f : Clause → Clause) : (e.upd s f).mem = s.mem := rfl
@[simp] theorem Env.finish_mem (e : Env) (s : State) : (e.finish s).mem = s.mem := rfl
@[simp] theorem Env.upd_bad (e : Env) (s : State) (f : Clause → Clause) : (e.upd s f).bad = s.bad := rfl
@[simp] theorem Env.finish_bad (e : Env) (s : State) : (e.finish s).bad = s.bad := rfl
@[simp] theorem Env.upd_forms (e : Env) (s : State) (f : Clause → Clause) : (e.upd s f).forms = s.forms := rfl
@[simp] theorem Env.finish_forms (e : Env) (s : State) : (e.finish s).forms = s.forms := rfl
@[simp] theorem Env.upd_nodes (e : Env) (s : State) (f : Clause → Clause) : (e.upd s f).nodes = s.nodes := rfl
@[simp] theorem Env.finish_nodes (e : Env) (s : State) : (e.finish s).nodes = s.nodes := rfl
@[simp] theorem Env.upd_readySeq (e : Env) (s : State) (f : Clause → Clause) : (e.upd s f).readySeq = s.readySeq := rfl
@[simp] theorem Env.finish_readySeq (e : Env) (s : State) : (e.finish s).readySeq = s.readySeq := rfl
@[simp] theorem Env.upd_clusters (e : Env) (s : State) (f : Clause → Clause) : (e.upd s f).clusters = s.clusters := rfl
@[simp] theorem Env.finish_clusters (e : Env) (s : State) : (e.finish s).clusters = s.clusters := rfl
@[simp] theorem Env.upd_cores (e : Env) (s : State) (f : Clause → Clause) : (e.upd s f).cores = s.cores := rfl
@[simp] theorem Env.finish_cores (e : Env) (s : State) : (e.finish s).cores = s.cores := rfl
@[simp] theorem Env.upd_dies (e : Env) (s : State) (f : Clause → Clause) : (e.upd s f).dies = s.dies := rfl
@[simp] theorem Env.finish_dies (e : Env) (s : State) : (e.finish s).dies = s.dies := rfl
@[simp] theorem Env.upd_hbm (e : Env) (s : State) (f : Clause → Clause) : (e.upd s f).hbm = s.hbm := rfl
@[simp] theorem Env.finish_hbm (e : Env) (s : State) : (e.finish s).hbm = s.hbm := rfl
@[simp] theorem Env.upd_counters (e : Env) (s : State) (f : Clause → Clause) : (e.upd s f).counters = s.counters := rfl
@[simp] theorem Env.finish_counters (e : Env) (s : State) : (e.finish s).counters = s.counters := rfl
@[simp] theorem Env.upd_mailOut (e : Env) (s : State) (f : Clause → Clause) : (e.upd s f).mailOut = s.mailOut := rfl
@[simp] theorem Env.finish_mailOut (e : Env) (s : State) : (e.finish s).mailOut = s.mailOut := rfl
@[simp] theorem Env.upd_mailIn (e : Env) (s : State) (f : Clause → Clause) : (e.upd s f).mailIn = s.mailIn := rfl
@[simp] theorem Env.finish_mailIn (e : Env) (s : State) : (e.finish s).mailIn = s.mailIn := rfl
@[simp] theorem Env.upd_fifos (e : Env) (s : State) (f : Clause → Clause) : (e.upd s f).fifos = s.fifos := rfl
@[simp] theorem Env.finish_fifos (e : Env) (s : State) : (e.finish s).fifos = s.fifos := rfl
@[simp] theorem Env.upd_chanWait (e : Env) (s : State) (f : Clause → Clause) : (e.upd s f).chanWait = s.chanWait := rfl
@[simp] theorem Env.finish_chanWait (e : Env) (s : State) : (e.finish s).chanWait = s.chanWait := rfl
@[simp] theorem Env.upd_slots (e : Env) (s : State) (f : Clause → Clause) : (e.upd s f).slots = s.slots := rfl
@[simp] theorem Env.finish_slots (e : Env) (s : State) : (e.finish s).slots = s.slots := rfl
@[simp] theorem Env.upd_roots (e : Env) (s : State) (f : Clause → Clause) : (e.upd s f).roots = s.roots := rfl
@[simp] theorem Env.finish_roots (e : Env) (s : State) : (e.finish s).roots = s.roots := rfl
@[simp] theorem Env.upd_binding (e : Env) (s : State) (f : Clause → Clause) : (e.upd s f).binding = s.binding := rfl
@[simp] theorem Env.finish_binding (e : Env) (s : State) : (e.finish s).binding = s.binding := rfl
@[simp] theorem Env.upd_paused (e : Env) (s : State) (f : Clause → Clause) : (e.upd s f).paused = s.paused := rfl
@[simp] theorem Env.finish_paused (e : Env) (s : State) : (e.finish s).paused = s.paused := rfl
@[simp] theorem Env.upd_log (e : Env) (s : State) (f : Clause → Clause) : (e.upd s f).log = s.log := rfl
@[simp] theorem Env.finish_log (e : Env) (s : State) : (e.finish s).log = s.log := rfl
@[simp] theorem Env.upd_package (e : Env) (s : State) (f : Clause → Clause) : (e.upd s f).package = s.package := rfl
@[simp] theorem Env.finish_package (e : Env) (s : State) : (e.finish s).package = s.package := rfl
@[simp] theorem Env.upd_droop (e : Env) (s : State) (f : Clause → Clause) : (e.upd s f).droop = s.droop := rfl
@[simp] theorem Env.finish_droop (e : Env) (s : State) : (e.finish s).droop = s.droop := rfl
@[simp] theorem Env.upd_modectl (e : Env) (s : State) (f : Clause → Clause) : (e.upd s f).modectl = s.modectl := rfl
@[simp] theorem Env.finish_modectl (e : Env) (s : State) : (e.finish s).modectl = s.modectl := rfl
@[simp] theorem Env.upd_modectlNext (e : Env) (s : State) (f : Clause → Clause) : (e.upd s f).modectlNext = s.modectlNext := rfl
@[simp] theorem Env.finish_modectlNext (e : Env) (s : State) : (e.finish s).modectlNext = s.modectlNext := rfl
@[simp] theorem Env.upd_recctl (e : Env) (s : State) (f : Clause → Clause) : (e.upd s f).recctl = s.recctl := rfl
@[simp] theorem Env.finish_recctl (e : Env) (s : State) : (e.finish s).recctl = s.recctl := rfl
@[simp] theorem Env.upd_mgmt (e : Env) (s : State) (f : Clause → Clause) : (e.upd s f).mgmt = s.mgmt := rfl
@[simp] theorem Env.finish_mgmt (e : Env) (s : State) : (e.finish s).mgmt = s.mgmt := rfl
@[simp] theorem Env.upd_ports (e : Env) (s : State) (f : Clause → Clause) : (e.upd s f).ports = s.ports := rfl
@[simp] theorem Env.finish_ports (e : Env) (s : State) : (e.finish s).ports = s.ports := rfl
@[simp] theorem Env.upd_reports (e : Env) (s : State) (f : Clause → Clause) : (e.upd s f).reports = s.reports := rfl
@[simp] theorem Env.finish_reports (e : Env) (s : State) : (e.finish s).reports = s.reports := rfl
@[simp] theorem Env.upd_epoch (e : Env) (s : State) (f : Clause → Clause) : (e.upd s f).epoch = s.epoch := rfl
@[simp] theorem Env.finish_epoch (e : Env) (s : State) : (e.finish s).epoch = s.epoch := rfl
@[simp] theorem Env.upd_agenda (e : Env) (s : State) (f : Clause → Clause) : (e.upd s f).agenda = s.agenda := rfl
@[simp] theorem Env.finish_agenda (e : Env) (s : State) : (e.finish s).agenda = s.agenda := rfl
@[simp] theorem Env.upd_hostRead (e : Env) (s : State) (f : Clause → Clause) : (e.upd s f).hostRead = s.hostRead := rfl
@[simp] theorem Env.upd_refetch (e : Env) (s : State) (f : Clause → Clause) : (e.upd s f).refetch = s.refetch := rfl
@[simp] theorem Env.finish_hostRead (e : Env) (s : State) : (e.finish s).hostRead = s.hostRead := rfl
@[simp] theorem Env.finish_refetch (e : Env) (s : State) : (e.finish s).refetch = s.refetch := rfl
@[simp] theorem Env.upd_cur (e : Env) (s : State) (f : Clause → Clause) : (e.upd s f).cur = s.cur := rfl
@[simp] theorem Env.finish_cur (e : Env) (s : State) : (e.finish s).cur = s.cur := rfl
@[simp] theorem Env.upd_draws (e : Env) (s : State) (f : Clause → Clause) : (e.upd s f).draws = s.draws := rfl
@[simp] theorem Env.finish_draws (e : Env) (s : State) : (e.finish s).draws = s.draws := rfl
@[simp] theorem Env.upd_serial (e : Env) (s : State) (f : Clause → Clause) : (e.upd s f).serial = s.serial := rfl
@[simp] theorem Env.upd_members (e : Env) (s : State) (f : Clause → Clause) : (e.upd s f).members = s.members := rfl
@[simp] theorem Env.upd_nvme (e : Env) (s : State) (f : Clause → Clause) : (e.upd s f).nvme = s.nvme := rfl
@[simp] theorem Env.upd_play (e : Env) (s : State) (f : Clause → Clause) : (e.upd s f).play = s.play := rfl
@[simp] theorem Env.upd_recFrom (e : Env) (s : State) (f : Clause → Clause) : (e.upd s f).recFrom = s.recFrom := rfl
@[simp] theorem Env.upd_ctl (e : Env) (s : State) (f : Clause → Clause) : (e.upd s f).ctl = s.ctl := rfl
@[simp] theorem Env.upd_curAt (e : Env) (s : State) (f : Clause → Clause) : (e.upd s f).curAt = s.curAt := rfl
@[simp] theorem Env.finish_serial (e : Env) (s : State) : (e.finish s).serial = s.serial := rfl
@[simp] theorem Env.finish_members (e : Env) (s : State) : (e.finish s).members = s.members := rfl
@[simp] theorem Env.finish_nvme (e : Env) (s : State) : (e.finish s).nvme = s.nvme := rfl
@[simp] theorem Env.finish_play (e : Env) (s : State) : (e.finish s).play = s.play := rfl
@[simp] theorem Env.finish_recFrom (e : Env) (s : State) : (e.finish s).recFrom = s.recFrom := rfl
@[simp] theorem Env.finish_ctl (e : Env) (s : State) : (e.finish s).ctl = s.ctl := rfl
@[simp] theorem Env.finish_curAt (e : Env) (s : State) : (e.finish s).curAt = s.curAt := rfl

/-! ## Updates of a clause -/

@[simp] theorem Clause.pop_todo (c : Clause)  : (c.pop).todo = c.todo.tail := rfl
@[simp] theorem Clause.pop_va (c : Clause)  : (c.pop).va = c.va := rfl
@[simp] theorem Clause.pop_hdr (c : Clause)  : (c.pop).hdr = c.hdr := rfl
@[simp] theorem Clause.pop_temps (c : Clause)  : (c.pop).temps = c.temps := rfl
@[simp] theorem Clause.pop_masks (c : Clause)  : (c.pop).masks = c.masks := rfl
@[simp] theorem Clause.pop_gw (c : Clause)  : (c.pop).gw = c.gw := rfl
@[simp] theorem Clause.pop_sw (c : Clause)  : (c.pop).sw = c.sw := rfl
@[simp] theorem Clause.pop_hw (c : Clause)  : (c.pop).hw = c.hw := rfl
@[simp] theorem Clause.pop_nsOr (c : Clause)  : (c.pop).nsOr = c.nsOr := rfl
@[simp] theorem Clause.pop_lats (c : Clause)  : (c.pop).lats = c.lats := rfl
@[simp] theorem Clause.pop_acts (c : Clause)  : (c.pop).acts = c.acts := rfl
@[simp] theorem Clause.pop_next (c : Clause)  : (c.pop).next = c.next := rfl
@[simp] theorem Clause.pop_fenced (c : Clause)  : (c.pop).fenced = c.fenced := rfl
@[simp] theorem Clause.pop_seq (c : Clause)  : (c.pop).seq = c.seq := rfl
@[simp] theorem Clause.pop_tick (c : Clause)  : (c.pop).tick = c.tick := rfl
@[simp] theorem Clause.pop_signed (c : Clause)  : (c.pop).signed = c.signed := rfl
@[simp] theorem Clause.pop_words (c : Clause)  : (c.pop).words = c.words := rfl
@[simp] theorem Clause.pop_recs (c : Clause)  : (c.pop).recs = c.recs := rfl
@[simp] theorem Clause.pop_wait (c : Clause)  : (c.pop).wait = .none := rfl

@[simp] theorem Clause.restart_va (c : Clause)  : (c.restart).va = c.va := rfl
@[simp] theorem Clause.restart_hdr (c : Clause)  : (c.restart).hdr = c.hdr := rfl
@[simp] theorem Clause.restart_todo (c : Clause)  : (c.restart).todo = c.words := rfl
@[simp] theorem Clause.restart_temps (c : Clause)  : (c.restart).temps = [] := rfl
@[simp] theorem Clause.restart_masks (c : Clause)  : (c.restart).masks = c.masks := rfl
@[simp] theorem Clause.restart_gw (c : Clause)  : (c.restart).gw = [] := rfl
@[simp] theorem Clause.restart_sw (c : Clause)  : (c.restart).sw = [] := rfl
@[simp] theorem Clause.restart_hw (c : Clause)  : (c.restart).hw = [] := rfl
@[simp] theorem Clause.restart_nsOr (c : Clause)  : (c.restart).nsOr = 0 := rfl
@[simp] theorem Clause.restart_lats (c : Clause)  : (c.restart).lats = [] := rfl
@[simp] theorem Clause.restart_acts (c : Clause)  : (c.restart).acts = [] := rfl
@[simp] theorem Clause.restart_next (c : Clause)  : (c.restart).next = c.next := rfl
@[simp] theorem Clause.restart_fenced (c : Clause)  : (c.restart).fenced = c.fenced := rfl
@[simp] theorem Clause.restart_seq (c : Clause)  : (c.restart).seq = c.seq := rfl
@[simp] theorem Clause.restart_tick (c : Clause)  : (c.restart).tick = c.tick := rfl
@[simp] theorem Clause.restart_words (c : Clause)  : (c.restart).words = c.words := rfl
@[simp] theorem Clause.restart_recs (c : Clause)  : (c.restart).recs = [] := rfl
@[simp] theorem Clause.restart_wait (c : Clause)  : (c.restart).wait = .none := rfl
@[simp] theorem Clause.restart_signed (c : Clause)  : (c.restart).signed = c.signed := rfl

@[simp] theorem Clause.waits_va (c : Clause) (w : Wait) : (c.waits w).va = c.va := rfl
@[simp] theorem Clause.waits_hdr (c : Clause) (w : Wait) : (c.waits w).hdr = c.hdr := rfl
@[simp] theorem Clause.waits_todo (c : Clause) (w : Wait) : (c.waits w).todo = c.todo := rfl
@[simp] theorem Clause.waits_temps (c : Clause) (w : Wait) : (c.waits w).temps = c.temps := rfl
@[simp] theorem Clause.waits_masks (c : Clause) (w : Wait) : (c.waits w).masks = c.masks := rfl
@[simp] theorem Clause.waits_gw (c : Clause) (w : Wait) : (c.waits w).gw = c.gw := rfl
@[simp] theorem Clause.waits_sw (c : Clause) (w : Wait) : (c.waits w).sw = c.sw := rfl
@[simp] theorem Clause.waits_hw (c : Clause) (w : Wait) : (c.waits w).hw = c.hw := rfl
@[simp] theorem Clause.waits_nsOr (c : Clause) (w : Wait) : (c.waits w).nsOr = c.nsOr := rfl
@[simp] theorem Clause.waits_lats (c : Clause) (w : Wait) : (c.waits w).lats = c.lats := rfl
@[simp] theorem Clause.waits_acts (c : Clause) (w : Wait) : (c.waits w).acts = c.acts := rfl
@[simp] theorem Clause.waits_next (c : Clause) (w : Wait) : (c.waits w).next = c.next := rfl
@[simp] theorem Clause.waits_fenced (c : Clause) (w : Wait) : (c.waits w).fenced = c.fenced := rfl
@[simp] theorem Clause.waits_seq (c : Clause) (w : Wait) : (c.waits w).seq = c.seq := rfl
@[simp] theorem Clause.waits_tick (c : Clause) (w : Wait) : (c.waits w).tick = c.tick := rfl
@[simp] theorem Clause.waits_signed (c : Clause) (w : Wait) : (c.waits w).signed = c.signed := rfl
@[simp] theorem Clause.waits_words (c : Clause) (w : Wait) : (c.waits w).words = c.words := rfl
@[simp] theorem Clause.waits_recs (c : Clause) (w : Wait) : (c.waits w).recs = c.recs := rfl
@[simp] theorem Clause.waits_wait (c : Clause) (w : Wait) : (c.waits w).wait = w := rfl

@[simp] theorem Clause.putS_sw (c : Clause) (d : Nat) (v : Word) : (c.putS d v).sw = (d, v) :: c.sw := rfl
@[simp] theorem Clause.putS_va (c : Clause) (d : Nat) (v : Word) : (c.putS d v).va = c.va := rfl
@[simp] theorem Clause.putS_wait (c : Clause) (d : Nat) (v : Word) : (c.putS d v).wait = c.wait := rfl
@[simp] theorem Clause.putS_hdr (c : Clause) (d : Nat) (v : Word) : (c.putS d v).hdr = c.hdr := rfl
@[simp] theorem Clause.putS_todo (c : Clause) (d : Nat) (v : Word) : (c.putS d v).todo = c.todo := rfl
@[simp] theorem Clause.putS_temps (c : Clause) (d : Nat) (v : Word) : (c.putS d v).temps = c.temps := rfl
@[simp] theorem Clause.putS_masks (c : Clause) (d : Nat) (v : Word) : (c.putS d v).masks = c.masks := rfl
@[simp] theorem Clause.putS_gw (c : Clause) (d : Nat) (v : Word) : (c.putS d v).gw = c.gw := rfl
@[simp] theorem Clause.putS_hw (c : Clause) (d : Nat) (v : Word) : (c.putS d v).hw = c.hw := rfl
@[simp] theorem Clause.putS_nsOr (c : Clause) (d : Nat) (v : Word) : (c.putS d v).nsOr = c.nsOr := rfl
@[simp] theorem Clause.putS_lats (c : Clause) (d : Nat) (v : Word) : (c.putS d v).lats = c.lats := rfl
@[simp] theorem Clause.putS_acts (c : Clause) (d : Nat) (v : Word) : (c.putS d v).acts = c.acts := rfl
@[simp] theorem Clause.putS_next (c : Clause) (d : Nat) (v : Word) : (c.putS d v).next = c.next := rfl
@[simp] theorem Clause.putS_fenced (c : Clause) (d : Nat) (v : Word) : (c.putS d v).fenced = c.fenced := rfl
@[simp] theorem Clause.putS_seq (c : Clause) (d : Nat) (v : Word) : (c.putS d v).seq = c.seq := rfl
@[simp] theorem Clause.putS_tick (c : Clause) (d : Nat) (v : Word) : (c.putS d v).tick = c.tick := rfl
@[simp] theorem Clause.putS_signed (c : Clause) (d : Nat) (v : Word) : (c.putS d v).signed = c.signed := rfl
@[simp] theorem Clause.putS_words (c : Clause) (d : Nat) (v : Word) : (c.putS d v).words = c.words := rfl
@[simp] theorem Clause.putS_recs (c : Clause) (d : Nat) (v : Word) : (c.putS d v).recs = c.recs := rfl

@[simp] theorem Clause.orNs_nsOr (c : Clause) (f : BitVec 5) : (c.orNs f).nsOr = c.nsOr ||| f := rfl
@[simp] theorem Clause.orNs_va (c : Clause) (f : BitVec 5) : (c.orNs f).va = c.va := rfl
@[simp] theorem Clause.orNs_wait (c : Clause) (f : BitVec 5) : (c.orNs f).wait = c.wait := rfl
@[simp] theorem Clause.orNs_hdr (c : Clause) (f : BitVec 5) : (c.orNs f).hdr = c.hdr := rfl
@[simp] theorem Clause.orNs_todo (c : Clause) (f : BitVec 5) : (c.orNs f).todo = c.todo := rfl
@[simp] theorem Clause.orNs_temps (c : Clause) (f : BitVec 5) : (c.orNs f).temps = c.temps := rfl
@[simp] theorem Clause.orNs_masks (c : Clause) (f : BitVec 5) : (c.orNs f).masks = c.masks := rfl
@[simp] theorem Clause.orNs_gw (c : Clause) (f : BitVec 5) : (c.orNs f).gw = c.gw := rfl
@[simp] theorem Clause.orNs_sw (c : Clause) (f : BitVec 5) : (c.orNs f).sw = c.sw := rfl
@[simp] theorem Clause.orNs_hw (c : Clause) (f : BitVec 5) : (c.orNs f).hw = c.hw := rfl
@[simp] theorem Clause.orNs_lats (c : Clause) (f : BitVec 5) : (c.orNs f).lats = c.lats := rfl
@[simp] theorem Clause.orNs_acts (c : Clause) (f : BitVec 5) : (c.orNs f).acts = c.acts := rfl
@[simp] theorem Clause.orNs_next (c : Clause) (f : BitVec 5) : (c.orNs f).next = c.next := rfl
@[simp] theorem Clause.orNs_fenced (c : Clause) (f : BitVec 5) : (c.orNs f).fenced = c.fenced := rfl
@[simp] theorem Clause.orNs_seq (c : Clause) (f : BitVec 5) : (c.orNs f).seq = c.seq := rfl
@[simp] theorem Clause.orNs_tick (c : Clause) (f : BitVec 5) : (c.orNs f).tick = c.tick := rfl
@[simp] theorem Clause.orNs_signed (c : Clause) (f : BitVec 5) : (c.orNs f).signed = c.signed := rfl
@[simp] theorem Clause.orNs_words (c : Clause) (f : BitVec 5) : (c.orNs f).words = c.words := rfl
@[simp] theorem Clause.orNs_recs (c : Clause) (f : BitVec 5) : (c.orNs f).recs = c.recs := rfl

@[simp] theorem Clause.act_acts (c : Clause) (a : CommitAct) : (c.act a).acts = c.acts ++ [a] := rfl
@[simp] theorem Clause.act_va (c : Clause) (a : CommitAct) : (c.act a).va = c.va := rfl
@[simp] theorem Clause.act_wait (c : Clause) (a : CommitAct) : (c.act a).wait = c.wait := rfl
@[simp] theorem Clause.act_hdr (c : Clause) (a : CommitAct) : (c.act a).hdr = c.hdr := rfl
@[simp] theorem Clause.act_todo (c : Clause) (a : CommitAct) : (c.act a).todo = c.todo := rfl
@[simp] theorem Clause.act_temps (c : Clause) (a : CommitAct) : (c.act a).temps = c.temps := rfl
@[simp] theorem Clause.act_masks (c : Clause) (a : CommitAct) : (c.act a).masks = c.masks := rfl
@[simp] theorem Clause.act_gw (c : Clause) (a : CommitAct) : (c.act a).gw = c.gw := rfl
@[simp] theorem Clause.act_sw (c : Clause) (a : CommitAct) : (c.act a).sw = c.sw := rfl
@[simp] theorem Clause.act_hw (c : Clause) (a : CommitAct) : (c.act a).hw = c.hw := rfl
@[simp] theorem Clause.act_nsOr (c : Clause) (a : CommitAct) : (c.act a).nsOr = c.nsOr := rfl
@[simp] theorem Clause.act_lats (c : Clause) (a : CommitAct) : (c.act a).lats = c.lats := rfl
@[simp] theorem Clause.act_next (c : Clause) (a : CommitAct) : (c.act a).next = c.next := rfl
@[simp] theorem Clause.act_fenced (c : Clause) (a : CommitAct) : (c.act a).fenced = c.fenced := rfl
@[simp] theorem Clause.act_seq (c : Clause) (a : CommitAct) : (c.act a).seq = c.seq := rfl
@[simp] theorem Clause.act_tick (c : Clause) (a : CommitAct) : (c.act a).tick = c.tick := rfl
@[simp] theorem Clause.act_signed (c : Clause) (a : CommitAct) : (c.act a).signed = c.signed := rfl
@[simp] theorem Clause.act_words (c : Clause) (a : CommitAct) : (c.act a).words = c.words := rfl
@[simp] theorem Clause.act_recs (c : Clause) (a : CommitAct) : (c.act a).recs = c.recs := rfl

@[simp] theorem Clause.store_hw (c : Clause) (x : HallW) : (c.store x).hw = c.hw ++ [x] := rfl
@[simp] theorem Clause.store_va (c : Clause) (x : HallW) : (c.store x).va = c.va := rfl
@[simp] theorem Clause.store_wait (c : Clause) (x : HallW) : (c.store x).wait = c.wait := rfl
@[simp] theorem Clause.store_hdr (c : Clause) (x : HallW) : (c.store x).hdr = c.hdr := rfl
@[simp] theorem Clause.store_todo (c : Clause) (x : HallW) : (c.store x).todo = c.todo := rfl
@[simp] theorem Clause.store_temps (c : Clause) (x : HallW) : (c.store x).temps = c.temps := rfl
@[simp] theorem Clause.store_masks (c : Clause) (x : HallW) : (c.store x).masks = c.masks := rfl
@[simp] theorem Clause.store_gw (c : Clause) (x : HallW) : (c.store x).gw = c.gw := rfl
@[simp] theorem Clause.store_sw (c : Clause) (x : HallW) : (c.store x).sw = c.sw := rfl
@[simp] theorem Clause.store_nsOr (c : Clause) (x : HallW) : (c.store x).nsOr = c.nsOr := rfl
@[simp] theorem Clause.store_lats (c : Clause) (x : HallW) : (c.store x).lats = c.lats := rfl
@[simp] theorem Clause.store_acts (c : Clause) (x : HallW) : (c.store x).acts = c.acts := rfl
@[simp] theorem Clause.store_next (c : Clause) (x : HallW) : (c.store x).next = c.next := rfl
@[simp] theorem Clause.store_fenced (c : Clause) (x : HallW) : (c.store x).fenced = c.fenced := rfl
@[simp] theorem Clause.store_seq (c : Clause) (x : HallW) : (c.store x).seq = c.seq := rfl
@[simp] theorem Clause.store_tick (c : Clause) (x : HallW) : (c.store x).tick = c.tick := rfl
@[simp] theorem Clause.store_signed (c : Clause) (x : HallW) : (c.store x).signed = c.signed := rfl
@[simp] theorem Clause.store_words (c : Clause) (x : HallW) : (c.store x).words = c.words := rfl
@[simp] theorem Clause.store_recs (c : Clause) (x : HallW) : (c.store x).recs = c.recs := rfl

@[simp] theorem Clause.goto_next (c : Clause) (t : VAddr) : (c.goto t).next = t := rfl
@[simp] theorem Clause.goto_va (c : Clause) (t : VAddr) : (c.goto t).va = c.va := rfl
@[simp] theorem Clause.goto_wait (c : Clause) (t : VAddr) : (c.goto t).wait = c.wait := rfl
@[simp] theorem Clause.goto_hdr (c : Clause) (t : VAddr) : (c.goto t).hdr = c.hdr := rfl
@[simp] theorem Clause.goto_todo (c : Clause) (t : VAddr) : (c.goto t).todo = c.todo := rfl
@[simp] theorem Clause.goto_temps (c : Clause) (t : VAddr) : (c.goto t).temps = c.temps := rfl
@[simp] theorem Clause.goto_masks (c : Clause) (t : VAddr) : (c.goto t).masks = c.masks := rfl
@[simp] theorem Clause.goto_gw (c : Clause) (t : VAddr) : (c.goto t).gw = c.gw := rfl
@[simp] theorem Clause.goto_sw (c : Clause) (t : VAddr) : (c.goto t).sw = c.sw := rfl
@[simp] theorem Clause.goto_hw (c : Clause) (t : VAddr) : (c.goto t).hw = c.hw := rfl
@[simp] theorem Clause.goto_nsOr (c : Clause) (t : VAddr) : (c.goto t).nsOr = c.nsOr := rfl
@[simp] theorem Clause.goto_lats (c : Clause) (t : VAddr) : (c.goto t).lats = c.lats := rfl
@[simp] theorem Clause.goto_acts (c : Clause) (t : VAddr) : (c.goto t).acts = c.acts := rfl
@[simp] theorem Clause.goto_fenced (c : Clause) (t : VAddr) : (c.goto t).fenced = c.fenced := rfl
@[simp] theorem Clause.goto_seq (c : Clause) (t : VAddr) : (c.goto t).seq = c.seq := rfl
@[simp] theorem Clause.goto_tick (c : Clause) (t : VAddr) : (c.goto t).tick = c.tick := rfl
@[simp] theorem Clause.goto_signed (c : Clause) (t : VAddr) : (c.goto t).signed = c.signed := rfl
@[simp] theorem Clause.goto_words (c : Clause) (t : VAddr) : (c.goto t).words = c.words := rfl
@[simp] theorem Clause.goto_recs (c : Clause) (t : VAddr) : (c.goto t).recs = c.recs := rfl

@[simp] theorem Clause.put_z (c : Clause) (v : Word) : c.put .z v = c := rfl
@[simp] theorem Clause.put_g (c : Clause) (n : Fin 120) (v : Word) : (c.put (.g n) v).gw = (n.val, v) :: c.gw := rfl
@[simp] theorem Clause.put_t (c : Clause) (n : Fin 4) (v : Word) :
    (c.put (.t n) v).temps = SMap.set 0 n.val v c.temps := rfl
@[simp] theorem Clause.put_va (c : Clause) (d : Reg) (v : Word) : (c.put d v).va = c.va := by cases d <;> rfl
@[simp] theorem Clause.put_wait (c : Clause) (d : Reg) (v : Word) : (c.put d v).wait = c.wait := by cases d <;> rfl
@[simp] theorem Clause.put_hdr (c : Clause) (d : Reg) (v : Word) : (c.put d v).hdr = c.hdr := by cases d <;> rfl
@[simp] theorem Clause.put_todo (c : Clause) (d : Reg) (v : Word) : (c.put d v).todo = c.todo := by cases d <;> rfl
@[simp] theorem Clause.put_masks (c : Clause) (d : Reg) (v : Word) : (c.put d v).masks = c.masks := by cases d <;> rfl
@[simp] theorem Clause.put_sw (c : Clause) (d : Reg) (v : Word) : (c.put d v).sw = c.sw := by cases d <;> rfl
@[simp] theorem Clause.put_hw (c : Clause) (d : Reg) (v : Word) : (c.put d v).hw = c.hw := by cases d <;> rfl
@[simp] theorem Clause.put_nsOr (c : Clause) (d : Reg) (v : Word) : (c.put d v).nsOr = c.nsOr := by cases d <;> rfl
@[simp] theorem Clause.put_lats (c : Clause) (d : Reg) (v : Word) : (c.put d v).lats = c.lats := by cases d <;> rfl
@[simp] theorem Clause.put_acts (c : Clause) (d : Reg) (v : Word) : (c.put d v).acts = c.acts := by cases d <;> rfl
@[simp] theorem Clause.put_next (c : Clause) (d : Reg) (v : Word) : (c.put d v).next = c.next := by cases d <;> rfl
@[simp] theorem Clause.put_fenced (c : Clause) (d : Reg) (v : Word) : (c.put d v).fenced = c.fenced := by cases d <;> rfl
@[simp] theorem Clause.put_seq (c : Clause) (d : Reg) (v : Word) : (c.put d v).seq = c.seq := by cases d <;> rfl
@[simp] theorem Clause.put_tick (c : Clause) (d : Reg) (v : Word) : (c.put d v).tick = c.tick := by cases d <;> rfl
@[simp] theorem Clause.put_signed (c : Clause) (d : Reg) (v : Word) : (c.put d v).signed = c.signed := by cases d <;> rfl
@[simp] theorem Clause.put_words (c : Clause) (d : Reg) (v : Word) : (c.put d v).words = c.words := by cases d <;> rfl
@[simp] theorem Clause.put_recs (c : Clause) (d : Reg) (v : Word) : (c.put d v).recs = c.recs := by cases d <;> rfl
@[simp] theorem Clause.putLat_va (c : Clause) (d : Reg) (v : Word) : (c.putLat d v).va = c.va := by cases d <;> rfl
@[simp] theorem Clause.putLat_wait (c : Clause) (d : Reg) (v : Word) : (c.putLat d v).wait = c.wait := by cases d <;> rfl
@[simp] theorem Clause.putLat_hdr (c : Clause) (d : Reg) (v : Word) : (c.putLat d v).hdr = c.hdr := by cases d <;> rfl
@[simp] theorem Clause.putLat_todo (c : Clause) (d : Reg) (v : Word) : (c.putLat d v).todo = c.todo := by cases d <;> rfl
@[simp] theorem Clause.putLat_masks (c : Clause) (d : Reg) (v : Word) : (c.putLat d v).masks = c.masks := by cases d <;> rfl
@[simp] theorem Clause.putLat_gw (c : Clause) (d : Reg) (v : Word) : (c.putLat d v).gw = c.gw := by cases d <;> rfl
@[simp] theorem Clause.putLat_sw (c : Clause) (d : Reg) (v : Word) : (c.putLat d v).sw = c.sw := by cases d <;> rfl
@[simp] theorem Clause.putLat_hw (c : Clause) (d : Reg) (v : Word) : (c.putLat d v).hw = c.hw := by cases d <;> rfl
@[simp] theorem Clause.putLat_nsOr (c : Clause) (d : Reg) (v : Word) : (c.putLat d v).nsOr = c.nsOr := by cases d <;> rfl
@[simp] theorem Clause.putLat_acts (c : Clause) (d : Reg) (v : Word) : (c.putLat d v).acts = c.acts := by cases d <;> rfl
@[simp] theorem Clause.putLat_next (c : Clause) (d : Reg) (v : Word) : (c.putLat d v).next = c.next := by cases d <;> rfl
@[simp] theorem Clause.putLat_fenced (c : Clause) (d : Reg) (v : Word) : (c.putLat d v).fenced = c.fenced := by cases d <;> rfl
@[simp] theorem Clause.putLat_seq (c : Clause) (d : Reg) (v : Word) : (c.putLat d v).seq = c.seq := by cases d <;> rfl
@[simp] theorem Clause.putLat_tick (c : Clause) (d : Reg) (v : Word) : (c.putLat d v).tick = c.tick := by cases d <;> rfl
@[simp] theorem Clause.putLat_signed (c : Clause) (d : Reg) (v : Word) : (c.putLat d v).signed = c.signed := by cases d <;> rfl
@[simp] theorem Clause.putLat_words (c : Clause) (d : Reg) (v : Word) : (c.putLat d v).words = c.words := by cases d <;> rfl
@[simp] theorem Clause.putLat_recs (c : Clause) (d : Reg) (v : Word) : (c.putLat d v).recs = c.recs := by cases d <;> rfl

/-! ## Updates of a thread -/

@[simp] theorem Thread.trapRegs_trapState (th : Thread) (p : Pending) : (th.trapRegs p).trapState = true := rfl
@[simp] theorem Thread.trapRegs_tcause (th : Thread) (p : Pending) : (th.trapRegs p).tcause = BitVec.ofNat 32 p.cause := rfl
@[simp] theorem Thread.trapRegs_tpc (th : Thread) (p : Pending) : (th.trapRegs p).tpc = BitVec.ofNat 32 p.pc.toNat := rfl
@[simp] theorem Thread.trapRegs_tpchi (th : Thread) (p : Pending) : (th.trapRegs p).tpchi = BitVec.ofNat 32 (p.pc.toNat / 2 ^ 32) := rfl
@[simp] theorem Thread.trapRegs_tinfo (th : Thread) (p : Pending) : (th.trapRegs p).tinfo = tinfoOf p := rfl
@[simp] theorem Thread.trapRegs_taddr (th : Thread) (p : Pending) : (th.trapRegs p).taddr = p.addr := rfl
@[simp] theorem Thread.trapRegs_pending (th : Thread) (p : Pending) : (th.trapRegs p).pending = none := rfl
@[simp] theorem Thread.trapRegs_wait (th : Thread) (p : Pending) : (th.trapRegs p).wait = .none := rfl
@[simp] theorem Thread.trapRegs_form (th : Thread) (p : Pending) : (th.trapRegs p).form = th.form := rfl
@[simp] theorem Thread.trapRegs_tid (th : Thread) (p : Pending) : (th.trapRegs p).tid = th.tid := rfl
@[simp] theorem Thread.trapRegs_bench (th : Thread) (p : Pending) : (th.trapRegs p).bench = th.bench := rfl
@[simp] theorem Thread.trapRegs_blane (th : Thread) (p : Pending) : (th.trapRegs p).blane = th.blane := rfl
@[simp] theorem Thread.trapRegs_core (th : Thread) (p : Pending) : (th.trapRegs p).core = th.core := rfl
@[simp] theorem Thread.trapRegs_row (th : Thread) (p : Pending) : (th.trapRegs p).row = th.row := rfl
@[simp] theorem Thread.trapRegs_lane (th : Thread) (p : Pending) : (th.trapRegs p).lane = th.lane := rfl
@[simp] theorem Thread.trapRegs_pc (th : Thread) (p : Pending) : (th.trapRegs p).pc = th.pc := rfl
@[simp] theorem Thread.trapRegs_g (th : Thread) (p : Pending) : (th.trapRegs p).g = th.g := rfl
@[simp] theorem Thread.trapRegs_place (th : Thread) (p : Pending) : (th.trapRegs p).place = th.place := rfl
@[simp] theorem Thread.trapRegs_w (th : Thread) (p : Pending) : (th.trapRegs p).w = th.w := rfl
@[simp] theorem Thread.trapRegs_ns (th : Thread) (p : Pending) : (th.trapRegs p).ns = th.ns := rfl
@[simp] theorem Thread.trapRegs_lats (th : Thread) (p : Pending) : (th.trapRegs p).lats = th.lats := rfl
@[simp] theorem Thread.trapRegs_clauses (th : Thread) (p : Pending) : (th.trapRegs p).clauses = th.clauses := rfl
@[simp] theorem Thread.trapRegs_pend10 (th : Thread) (p : Pending) : (th.trapRegs p).pend10 = th.pend10 := rfl
@[simp] theorem Thread.trapRegs_pend11 (th : Thread) (p : Pending) : (th.trapRegs p).pend11 = th.pend11 := rfl
@[simp] theorem Thread.trapRegs_pend13 (th : Thread) (p : Pending) : (th.trapRegs p).pend13 = th.pend13 := rfl
@[simp] theorem Thread.trapRegs_clk (th : Thread) (p : Pending) : (th.trapRegs p).clk = th.clk := rfl
@[simp] theorem Thread.trapRegs_met (th : Thread) (p : Pending) : (th.trapRegs p).met = th.met := rfl
@[simp] theorem Thread.trapRegs_status (th : Thread) (p : Pending) : (th.trapRegs p).status = th.status := rfl
@[simp] theorem Thread.trapRegs_age (th : Thread) (p : Pending) : (th.trapRegs p).age = th.age := rfl
@[simp] theorem Thread.trapRegs_step (th : Thread) (p : Pending) : (th.trapRegs p).step = th.step := rfl
@[simp] theorem Thread.trapRegs_noBreak (th : Thread) (p : Pending) : (th.trapRegs p).noBreak = th.noBreak := rfl

@[simp] theorem Thread.park_status (th : Thread) (p : Pending) : (th.park p).status = .parked := rfl
@[simp] theorem Thread.park_pc (th : Thread) (p : Pending) : (th.park p).pc = p.pc := rfl
@[simp] theorem Thread.park_pending (th : Thread) (p : Pending) : (th.park p).pending = none := rfl
@[simp] theorem Thread.park_wait (th : Thread) (p : Pending) : (th.park p).wait = .none := rfl
@[simp] theorem Thread.park_form (th : Thread) (p : Pending) : (th.park p).form = th.form := rfl
@[simp] theorem Thread.park_tid (th : Thread) (p : Pending) : (th.park p).tid = th.tid := rfl
@[simp] theorem Thread.park_bench (th : Thread) (p : Pending) : (th.park p).bench = th.bench := rfl
@[simp] theorem Thread.park_blane (th : Thread) (p : Pending) : (th.park p).blane = th.blane := rfl
@[simp] theorem Thread.park_core (th : Thread) (p : Pending) : (th.park p).core = th.core := rfl
@[simp] theorem Thread.park_row (th : Thread) (p : Pending) : (th.park p).row = th.row := rfl
@[simp] theorem Thread.park_lane (th : Thread) (p : Pending) : (th.park p).lane = th.lane := rfl
@[simp] theorem Thread.park_g (th : Thread) (p : Pending) : (th.park p).g = th.g := rfl
@[simp] theorem Thread.park_place (th : Thread) (p : Pending) : (th.park p).place = th.place := rfl
@[simp] theorem Thread.park_w (th : Thread) (p : Pending) : (th.park p).w = th.w := rfl
@[simp] theorem Thread.park_ns (th : Thread) (p : Pending) : (th.park p).ns = th.ns := rfl
@[simp] theorem Thread.park_lats (th : Thread) (p : Pending) : (th.park p).lats = th.lats := rfl
@[simp] theorem Thread.park_clauses (th : Thread) (p : Pending) : (th.park p).clauses = th.clauses := rfl
@[simp] theorem Thread.park_trapState (th : Thread) (p : Pending) : (th.park p).trapState = th.trapState := rfl
@[simp] theorem Thread.park_tcause (th : Thread) (p : Pending) : (th.park p).tcause = th.tcause := rfl
@[simp] theorem Thread.park_tpc (th : Thread) (p : Pending) : (th.park p).tpc = th.tpc := rfl
@[simp] theorem Thread.park_tpchi (th : Thread) (p : Pending) : (th.park p).tpchi = th.tpchi := rfl
@[simp] theorem Thread.park_tinfo (th : Thread) (p : Pending) : (th.park p).tinfo = th.tinfo := rfl
@[simp] theorem Thread.park_taddr (th : Thread) (p : Pending) : (th.park p).taddr = th.taddr := rfl
@[simp] theorem Thread.park_pend10 (th : Thread) (p : Pending) : (th.park p).pend10 = th.pend10 := rfl
@[simp] theorem Thread.park_pend11 (th : Thread) (p : Pending) : (th.park p).pend11 = th.pend11 := rfl
@[simp] theorem Thread.park_pend13 (th : Thread) (p : Pending) : (th.park p).pend13 = th.pend13 := rfl
@[simp] theorem Thread.park_clk (th : Thread) (p : Pending) : (th.park p).clk = th.clk := rfl
@[simp] theorem Thread.park_met (th : Thread) (p : Pending) : (th.park p).met = th.met := rfl
@[simp] theorem Thread.park_sw (th : Thread) (p : Pending) : (th.park p).sw = th.sw := rfl
@[simp] theorem Thread.park_age (th : Thread) (p : Pending) : (th.park p).age = th.age := rfl
@[simp] theorem Thread.park_step (th : Thread) (p : Pending) : (th.park p).step = th.step := rfl
@[simp] theorem Thread.park_noBreak (th : Thread) (p : Pending) : (th.park p).noBreak = th.noBreak := rfl

@[simp] theorem Thread.endWord_form (th : Thread) (i : Nat) (f : Clause → Clause) : (th.endWord i f).form = th.form := rfl
@[simp] theorem Thread.endWord_tid (th : Thread) (i : Nat) (f : Clause → Clause) : (th.endWord i f).tid = th.tid := rfl
@[simp] theorem Thread.endWord_bench (th : Thread) (i : Nat) (f : Clause → Clause) : (th.endWord i f).bench = th.bench := rfl
@[simp] theorem Thread.endWord_blane (th : Thread) (i : Nat) (f : Clause → Clause) : (th.endWord i f).blane = th.blane := rfl
@[simp] theorem Thread.endWord_core (th : Thread) (i : Nat) (f : Clause → Clause) : (th.endWord i f).core = th.core := rfl
@[simp] theorem Thread.endWord_row (th : Thread) (i : Nat) (f : Clause → Clause) : (th.endWord i f).row = th.row := rfl
@[simp] theorem Thread.endWord_lane (th : Thread) (i : Nat) (f : Clause → Clause) : (th.endWord i f).lane = th.lane := rfl
@[simp] theorem Thread.endWord_g (th : Thread) (i : Nat) (f : Clause → Clause) : (th.endWord i f).g = th.g := rfl
@[simp] theorem Thread.endWord_place (th : Thread) (i : Nat) (f : Clause → Clause) : (th.endWord i f).place = th.place := rfl
@[simp] theorem Thread.endWord_w (th : Thread) (i : Nat) (f : Clause → Clause) : (th.endWord i f).w = th.w := rfl
@[simp] theorem Thread.endWord_ns (th : Thread) (i : Nat) (f : Clause → Clause) : (th.endWord i f).ns = th.ns := rfl
@[simp] theorem Thread.endWord_lats (th : Thread) (i : Nat) (f : Clause → Clause) : (th.endWord i f).lats = th.lats := rfl
@[simp] theorem Thread.endWord_trapState (th : Thread) (i : Nat) (f : Clause → Clause) : (th.endWord i f).trapState = th.trapState := rfl
@[simp] theorem Thread.endWord_tcause (th : Thread) (i : Nat) (f : Clause → Clause) : (th.endWord i f).tcause = th.tcause := rfl
@[simp] theorem Thread.endWord_tpc (th : Thread) (i : Nat) (f : Clause → Clause) : (th.endWord i f).tpc = th.tpc := rfl
@[simp] theorem Thread.endWord_tpchi (th : Thread) (i : Nat) (f : Clause → Clause) : (th.endWord i f).tpchi = th.tpchi := rfl
@[simp] theorem Thread.endWord_tinfo (th : Thread) (i : Nat) (f : Clause → Clause) : (th.endWord i f).tinfo = th.tinfo := rfl
@[simp] theorem Thread.endWord_taddr (th : Thread) (i : Nat) (f : Clause → Clause) : (th.endWord i f).taddr = th.taddr := rfl
@[simp] theorem Thread.endWord_pending (th : Thread) (i : Nat) (f : Clause → Clause) : (th.endWord i f).pending = th.pending := rfl
@[simp] theorem Thread.endWord_pend10 (th : Thread) (i : Nat) (f : Clause → Clause) : (th.endWord i f).pend10 = th.pend10 := rfl
@[simp] theorem Thread.endWord_pend11 (th : Thread) (i : Nat) (f : Clause → Clause) : (th.endWord i f).pend11 = th.pend11 := rfl
@[simp] theorem Thread.endWord_pend13 (th : Thread) (i : Nat) (f : Clause → Clause) : (th.endWord i f).pend13 = th.pend13 := rfl
@[simp] theorem Thread.endWord_clk (th : Thread) (i : Nat) (f : Clause → Clause) : (th.endWord i f).clk = th.clk := rfl
@[simp] theorem Thread.endWord_met (th : Thread) (i : Nat) (f : Clause → Clause) : (th.endWord i f).met = th.met := rfl
@[simp] theorem Thread.endWord_status (th : Thread) (i : Nat) (f : Clause → Clause) : (th.endWord i f).status = th.status := rfl
@[simp] theorem Thread.endWord_wait (th : Thread) (i : Nat) (f : Clause → Clause) : (th.endWord i f).wait = th.wait := rfl
@[simp] theorem Thread.endWord_sw (th : Thread) (i : Nat) (f : Clause → Clause) : (th.endWord i f).sw = th.sw := rfl
@[simp] theorem Thread.endWord_age (th : Thread) (i : Nat) (f : Clause → Clause) : (th.endWord i f).age = th.age := rfl
@[simp] theorem Thread.endWord_step (th : Thread) (i : Nat) (f : Clause → Clause) : (th.endWord i f).step = th.step := rfl
@[simp] theorem Thread.endWord_noBreak (th : Thread) (i : Nat) (f : Clause → Clause) : (th.endWord i f).noBreak = th.noBreak := rfl
@[simp] theorem Thread.endWord_clauses (th : Thread) (i : Nat) (f : Clause → Clause) : (th.endWord i f).clauses = th.clauses.modify i (fun c => (f c).pop) := rfl

@[simp] theorem Thread.retire_clauses (th : Thread) (c : Clause) (gw : List (Nat × Word)) : (th.retire c gw).clauses = th.clauses.tail := rfl
@[simp] theorem Thread.retire_g (th : Thread) (c : Clause) (gw : List (Nat × Word)) : (th.retire c gw).g = gw.foldr (fun p g => SMap.set 0 p.1 p.2 g) th.g := rfl
@[simp] theorem Thread.retire_ns (th : Thread) (c : Clause) (gw : List (Nat × Word)) : (th.retire c gw).ns = th.ns ||| c.nsOr := rfl
@[simp] theorem Thread.retire_wait (th : Thread) (c : Clause) (gw : List (Nat × Word)) : (th.retire c gw).wait = th.wait := rfl
@[simp] theorem Thread.retire_pc (th : Thread) (c : Clause) (gw : List (Nat × Word)) : (th.retire c gw).pc = th.pc := rfl
@[simp] theorem Thread.retire_form (th : Thread) (c : Clause) (gw : List (Nat × Word)) : (th.retire c gw).form = th.form := rfl
@[simp] theorem Thread.retire_tid (th : Thread) (c : Clause) (gw : List (Nat × Word)) : (th.retire c gw).tid = th.tid := rfl
@[simp] theorem Thread.retire_bench (th : Thread) (c : Clause) (gw : List (Nat × Word)) : (th.retire c gw).bench = th.bench := rfl
@[simp] theorem Thread.retire_blane (th : Thread) (c : Clause) (gw : List (Nat × Word)) : (th.retire c gw).blane = th.blane := rfl
@[simp] theorem Thread.retire_core (th : Thread) (c : Clause) (gw : List (Nat × Word)) : (th.retire c gw).core = th.core := rfl
@[simp] theorem Thread.retire_row (th : Thread) (c : Clause) (gw : List (Nat × Word)) : (th.retire c gw).row = th.row := rfl
@[simp] theorem Thread.retire_lane (th : Thread) (c : Clause) (gw : List (Nat × Word)) : (th.retire c gw).lane = th.lane := rfl
@[simp] theorem Thread.retire_place (th : Thread) (c : Clause) (gw : List (Nat × Word)) : (th.retire c gw).place = th.place := rfl
@[simp] theorem Thread.retire_w (th : Thread) (c : Clause) (gw : List (Nat × Word)) : (th.retire c gw).w = th.w := rfl
@[simp] theorem Thread.retire_trapState (th : Thread) (c : Clause) (gw : List (Nat × Word)) : (th.retire c gw).trapState = th.trapState := rfl
@[simp] theorem Thread.retire_tcause (th : Thread) (c : Clause) (gw : List (Nat × Word)) : (th.retire c gw).tcause = th.tcause := rfl
@[simp] theorem Thread.retire_tpc (th : Thread) (c : Clause) (gw : List (Nat × Word)) : (th.retire c gw).tpc = th.tpc := rfl
@[simp] theorem Thread.retire_tpchi (th : Thread) (c : Clause) (gw : List (Nat × Word)) : (th.retire c gw).tpchi = th.tpchi := rfl
@[simp] theorem Thread.retire_tinfo (th : Thread) (c : Clause) (gw : List (Nat × Word)) : (th.retire c gw).tinfo = th.tinfo := rfl
@[simp] theorem Thread.retire_taddr (th : Thread) (c : Clause) (gw : List (Nat × Word)) : (th.retire c gw).taddr = th.taddr := rfl
@[simp] theorem Thread.retire_pending (th : Thread) (c : Clause) (gw : List (Nat × Word)) : (th.retire c gw).pending = th.pending := rfl
@[simp] theorem Thread.retire_pend10 (th : Thread) (c : Clause) (gw : List (Nat × Word)) : (th.retire c gw).pend10 = th.pend10 := rfl
@[simp] theorem Thread.retire_pend11 (th : Thread) (c : Clause) (gw : List (Nat × Word)) : (th.retire c gw).pend11 = th.pend11 := rfl
@[simp] theorem Thread.retire_pend13 (th : Thread) (c : Clause) (gw : List (Nat × Word)) : (th.retire c gw).pend13 = th.pend13 := rfl
@[simp] theorem Thread.retire_clk (th : Thread) (c : Clause) (gw : List (Nat × Word)) : (th.retire c gw).clk = th.clk := rfl
@[simp] theorem Thread.retire_met (th : Thread) (c : Clause) (gw : List (Nat × Word)) : (th.retire c gw).met = th.met := rfl
@[simp] theorem Thread.retire_status (th : Thread) (c : Clause) (gw : List (Nat × Word)) : (th.retire c gw).status = th.status := rfl
@[simp] theorem Thread.retire_age (th : Thread) (c : Clause) (gw : List (Nat × Word)) : (th.retire c gw).age = th.age := rfl
@[simp] theorem Thread.retire_step (th : Thread) (c : Clause) (gw : List (Nat × Word)) : (th.retire c gw).step = th.step := rfl
@[simp] theorem Thread.retire_noBreak (th : Thread) (c : Clause) (gw : List (Nat × Word)) : (th.retire c gw).noBreak = th.noBreak := rfl


/-! ## Writes of a form -/

@[simp] theorem Form.retag_node (f : Form) (x : TagFx) (w : Nat) : (f.retag x w).node = f.node := by cases x <;> rfl
@[simp] theorem Form.retag_lin (f : Form) (x : TagFx) (w : Nat) : (f.retag x w).lin = f.lin := by cases x <;> rfl
@[simp] theorem Form.retag_rcd (f : Form) (x : TagFx) (w : Nat) : (f.retag x w).rcd = f.rcd := by cases x <;> rfl
@[simp] theorem Form.retag_fn (f : Form) (x : TagFx) (w : Nat) : (f.retag x w).fn = f.fn := by cases x <;> rfl
@[simp] theorem Form.retag_ctx (f : Form) (x : TagFx) (w : Nat) : (f.retag x w).ctx = f.ctx := by cases x <;> rfl
@[simp] theorem Form.retag_part (f : Form) (x : TagFx) (w : Nat) : (f.retag x w).part = f.part := by cases x <;> rfl
@[simp] theorem Form.retag_phase (f : Form) (x : TagFx) (w : Nat) : (f.retag x w).phase = f.phase := by cases x <;> rfl
@[simp] theorem Form.retag_prio (f : Form) (x : TagFx) (w : Nat) : (f.retag x w).prio = f.prio := by cases x <;> rfl
@[simp] theorem Form.retag_cluster (f : Form) (x : TagFx) (w : Nat) : (f.retag x w).cluster = f.cluster := by cases x <;> rfl
@[simp] theorem Form.retag_cores (f : Form) (x : TagFx) (w : Nat) : (f.retag x w).cores = f.cores := by cases x <;> rfl
@[simp] theorem Form.retag_admitted (f : Form) (x : TagFx) (w : Nat) : (f.retag x w).admitted = f.admitted := by cases x <;> rfl
@[simp] theorem Form.retag_moved (f : Form) (x : TagFx) (w : Nat) : (f.retag x w).moved = f.moved := by cases x <;> rfl
@[simp] theorem Form.retag_benches (f : Form) (x : TagFx) (w : Nat) : (f.retag x w).benches = f.benches := by cases x <;> rfl
@[simp] theorem Form.retag_binds (f : Form) (x : TagFx) (w : Nat) : (f.retag x w).binds = f.binds := by cases x <;> rfl
@[simp] theorem Form.retag_resv (f : Form) (x : TagFx) (w : Nat) : (f.retag x w).resv = f.resv := by cases x <;> rfl
@[simp] theorem Form.retag_waiters (f : Form) (x : TagFx) (w : Nat) : (f.retag x w).waiters = f.waiters := by cases x <;> rfl
@[simp] theorem Form.retag_owned (f : Form) (x : TagFx) (w : Nat) : (f.retag x w).owned = f.owned := by cases x <;> rfl
@[simp] theorem Form.retag_ctxs (f : Form) (x : TagFx) (w : Nat) : (f.retag x w).ctxs = f.ctxs := by cases x <;> rfl
@[simp] theorem Form.retag_sent (f : Form) (x : TagFx) (w : Nat) : (f.retag x w).sent = f.sent := by cases x <;> rfl
@[simp] theorem Form.retag_shed (f : Form) (x : TagFx) (w : Nat) : (f.retag x w).shed = f.shed := by cases x <;> rfl
@[simp] theorem Form.retag_shedPrio (f : Form) (x : TagFx) (w : Nat) : (f.retag x w).shedPrio = f.shedPrio := by cases x <;> rfl
@[simp] theorem Form.retag_shedTick (f : Form) (x : TagFx) (w : Nat) : (f.retag x w).shedTick = f.shedTick := by cases x <;> rfl
@[simp] theorem Form.retag_level (f : Form) (x : TagFx) (w : Nat) : (f.retag x w).level = f.level := by cases x <;> rfl
@[simp] theorem Form.retag_watchdog (f : Form) (x : TagFx) (w : Nat) : (f.retag x w).watchdog = f.watchdog := by cases x <;> rfl
@[simp] theorem Form.retag_yieldTick (f : Form) (x : TagFx) (w : Nat) : (f.retag x w).yieldTick = f.yieldTick := by cases x <;> rfl
@[simp] theorem Form.retag_resume (f : Form) (x : TagFx) (w : Nat) : (f.retag x w).resume = f.resume := by cases x <;> rfl
@[simp] theorem Form.retag_savedBanks (f : Form) (x : TagFx) (w : Nat) : (f.retag x w).savedBanks = f.savedBanks := by cases x <;> rfl
@[simp] theorem Form.retag_move (f : Form) (x : TagFx) (w : Nat) : (f.retag x w).move = f.move := by cases x <;> rfl
@[simp] theorem Form.retag_asked (f : Form) (x : TagFx) (w : Nat) : (f.retag x w).asked = f.asked := by cases x <;> rfl

end Sys2Proof.Machine
end

