-- ==== Sys2Proof/Laws/Ops.lean ====
section
/-! SUPPORT. What each shared operation can do, said once: executing a word, events, taking a trap. -/

namespace Sys2Proof.Machine

/-! ## The open word -/

/-- The open word is the current thread's, in its form, the next word of the clause that the state points at, or of the first
unfinished one. -/
theorem openWord_spec {s : State} {e : Env} (h : openWord s = some e) :
    e.s = s ∧ e.k = s.cur ∧ Tab.find? s.cur s.threads = some e.th ∧ Tab.find? e.th.form s.forms = some e.fm ∧
      pickOpen e.th.clauses s.curAt = some (e.i, e.cl, e.idx) := by
  unfold openWord at h
  split at h
  · cases h
  · rename_i th hth
    split at h
    · cases h
    · rename_i fm hfm
      split at h
      · cases h
      · rename_i i cl idx hcl
        cases h
        exact ⟨rfl, rfl, hth, hfm, hcl⟩

theorem findOpen_spec {cs : List Clause} {i j idx : Nat} {c : Clause} (h : findOpen cs i = some (j, c, idx)) :
    i ≤ j ∧ cs[j - i]? = some c ∧ ∃ ins r, c.todo = (idx, ins) :: r := by
  induction cs generalizing i with
  | nil => simp [findOpen] at h
  | cons x r ih =>
    simp only [findOpen] at h
    split at h
    · obtain ⟨h1, h2, h3⟩ := ih h
      refine ⟨by omega, ?_, h3⟩
      have : j - i = (j - (i + 1)) + 1 := by omega
      rw [this]
      simpa using h2
    · rename_i ix ins q hx
      simp only [Option.some.injEq, Prod.mk.injEq] at h
      obtain ⟨rfl, rfl, rfl⟩ := h
      exact ⟨Nat.le_refl _, by simp, ins, q, hx⟩

theorem pickOpen_spec {cs : List Clause} {at_ : Option Nat} {i idx : Nat} {c : Clause}
    (h : pickOpen cs at_ = some (i, c, idx)) : cs[i]? = some c ∧ ∃ ins r, c.todo = (idx, ins) :: r := by
  cases at_ with
  | none =>
    obtain ⟨_, h2, h3⟩ := findOpen_spec (show findOpen cs 0 = _ from h)
    exact ⟨by simpa using h2, h3⟩
  | some j =>
    simp only [pickOpen, openAt] at h
    split at h
    · cases h
    · rename_i x hx
      split at h
      · cases h
      · rename_i ix ins q hq
        simp only [Option.some.injEq, Prod.mk.injEq] at h
        obtain ⟨rfl, rfl, rfl⟩ := h
        exact ⟨hx, ins, q, hq⟩

/-- The open word's clause stands at its position and holds the word. -/
theorem openWord_clause {s : State} {e : Env} (h : openWord s = some e) :
    e.th.clauses[e.i]? = some e.cl ∧ ∃ ins r, e.cl.todo = (e.idx, ins) :: r := by
  obtain ⟨_, _, _, _, hc⟩ := openWord_spec h
  exact pickOpen_spec hc

/-! ## Executing a word -/

theorem runWord_none {s : State} {f : Env → WordOut} (h : openWord s = none) : runWord s f = .fault .noClause := by
  simp [runWord, h]

theorem runWord_done {s t : State} {e : Env} {f : Env → WordOut} (h : openWord s = some e) (hf : f e = .done t) :
    runWord s f = .next (e.finish t) := by
  simp [runWord, h, hf]

theorem runWord_wait {s t : State} {e : Env} {f : Env → WordOut} {w : Wait} (h : openWord s = some e)
    (hf : f e = .wait w t) : runWord s f = .next (e.upd t (·.waits w)) := by
  simp [runWord, h, hf]

theorem runWord_fault {s : State} {e : Env} {f : Env → WordOut} {c : Nat} {a : Word} {d : Nat}
    (h : openWord s = some e) (hf : f e = .fault c a d) :
    runWord s f = .next (s.raise e.k e.i (e.trap c a d)) := by
  have := (openWord_spec h).1
  simp [runWord, h, hf, this]

/-- A word ends in one of four ways. -/
theorem runWord_cases (s : State) (f : Env → WordOut) :
    (openWord s = none ∧ runWord s f = .fault .noClause) ∨
    (∃ e t, openWord s = some e ∧ f e = .done t ∧ runWord s f = .next (e.finish t)) ∨
    (∃ e w t, openWord s = some e ∧ f e = .wait w t ∧
      runWord s f = .next (e.upd t (·.waits w))) ∨
    (∃ e c a d, openWord s = some e ∧ f e = .fault c a d ∧
      runWord s f = .next (s.raise e.k e.i (e.trap c a d))) := by
  cases ho : openWord s with
  | none => exact .inl ⟨rfl, runWord_none ho⟩
  | some e =>
    cases hf : f e with
    | done t => exact .inr (.inl ⟨e, t, rfl, hf, runWord_done ho hf⟩)
    | wait w t => exact .inr (.inr (.inl ⟨e, w, t, rfl, hf, runWord_wait ho hf⟩))
    | fault c a d => exact .inr (.inr (.inr ⟨e, c, a, d, rfl, hf, runWord_fault ho hf⟩))

/-- A word that only changes its clause. -/
theorem runWord_result {s : State} {e : Env} {f : Env → WordOut} {g : Clause → Clause} (h : openWord s = some e)
    (hf : f e = e.result g) : runWord s f = .next (e.finish (e.upd s g)) := by
  have hs := (openWord_spec h).1
  exact runWord_done h (by rw [hf, Env.result, hs])

/-- The executing thread after its word is done, with one change to its clause. -/
theorem finish_upd_self {s : State} {e : Env} (g : Clause → Clause) (h : openWord s = some e) :
    Tab.find? s.cur (e.finish (e.upd s g)).threads =
      some (({ e.th with clauses := e.th.clauses.modify e.i g } : Thread).endWord e.i id) := by
  obtain ⟨_, hk, hth, _, _⟩ := openWord_spec h
  simp [Env.finish, Env.upd, hk, hth]

/-- Every other thread is as it was. -/
theorem finish_upd_other {s : State} {e : Env} (g : Clause → Clause) (h : openWord s = some e) {k : Nat}
    (hk : k ≠ s.cur) : Tab.find? k (e.finish (e.upd s g)).threads = Tab.find? k s.threads := by
  obtain ⟨_, hc, _, _, _⟩ := openWord_spec h
  simp only [Env.finish, Env.upd, hc, State.modThread_threads]
  rw [Tab.find?_mod_ne _ _ (Ne.symm hk), Tab.find?_mod_ne _ _ (Ne.symm hk)]

/-! ## Events -/

@[simp] theorem runEvent_true (s : State) (f : State → State) : runEvent s true f = .next (f s) := rfl
@[simp] theorem runEvent_false (s : State) (f : State → State) : runEvent s false f = .next s := rfl

theorem runEvent_next (s : State) (b : Bool) (f : State → State) : ∃ t, runEvent s b f = .next t := ⟨_, rfl⟩

/-! ## Taking a trap -/

/-- A trap routed to its handler (R169, R170). -/
theorem enterTrap_user {s : State} {k : Nat} {p : Pending} {th : Thread} {fm : Form}
    (h : Tab.find? k s.threads = some th) (hf : Tab.find? th.form s.forms = some fm) (h11 : p.cause ≠ 0x11)
    (h10 : p.cause ≠ 0x10) (hst : (th.trapState && !p.async) = false) (hu : Rec.trapUser fm.rcd p.cause = true) :
    s.enterTrap k p = (s.modThread k (·.trapRegs p)).modThread k
      (fun th => { th with pc := BitVec.ofNat 56 (Rec.trapVA fm.rcd p.cause) }) := by
  simp [State.enterTrap, h, hf, h11, h10, hst, hu, State.routeTrap]

/-- A trap routed to the control kernel stops its thread and is logged (R174). -/
theorem enterTrap_kernel {s : State} {k : Nat} {p : Pending} {th : Thread} {fm : Form}
    (h : Tab.find? k s.threads = some th) (hf : Tab.find? th.form s.forms = some fm) (h11 : p.cause ≠ 0x11)
    (h10 : p.cause ≠ 0x10) (hst : (th.trapState && !p.async) = false) (hu : Rec.trapUser fm.rcd p.cause = false) :
    s.enterTrap k p = ((s.modThread k (·.trapRegs p)).modThread k
      (fun th => { th with status := .kernel })).note (.trap k p.regs) := by
  simp [State.enterTrap, h, hf, h11, h10, hst, hu, State.routeTrap]

/-- A synchronous fault in trap state ends the launch (R173). -/
theorem enterTrap_double {s : State} {k : Nat} {p : Pending} {th : Thread} {fm : Form}
    (h : Tab.find? k s.threads = some th) (hf : Tab.find? th.form s.forms = some fm) (h11 : p.cause ≠ 0x11)
    (hst : th.trapState = true) (ha : p.async = false) : s.enterTrap k p = (s.note (.trap k p.regs)).endLaunch fm.node 0x0C := by
  simp [State.enterTrap, h, hf, h11, hst, ha]

end Sys2Proof.Machine
end

