-- ==== Sys2Proof/Laws/Words.lean ====
section
/-! SUPPORT. How to show that an instruction completes: from the mould that its meaning calls to the claims' moulds. -/

namespace Sys2Proof.Machine

/-- A word whose meaning only changes its clause. -/
theorem runWord_after {s : State} {e : Env} {f : Env → WordOut} (g : Clause → Clause) (h : openWord s = some e)
    (hf : f e = e.result g) : runWord s f = .next (e.after g) := by
  have hs := (openWord_spec h).1
  subst hs
  exact runWord_result h hf

/-- A word that changes its clause and the rest of the state. -/
theorem runWord_afterIn {s t : State} {e : Env} {f : Env → WordOut} (g : Clause → Clause) (h : openWord s = some e)
    (hf : f e = .done (e.upd t g)) : runWord s f = .next (e.afterIn t g) := runWord_done h hf

/-- A word that faults. -/
theorem runWord_trapped {s : State} {e : Env} {f : Env → WordOut} {c : Nat} {a : Word} {d : Nat}
    (h : openWord s = some e) (hf : f e = .fault c a d) : runWord s f = .next (e.trapped c a d) := by
  have hs := (openWord_spec h).1
  subst hs
  exact runWord_fault h hf

/-- A word that waits. -/
theorem runWord_waiting {s t : State} {e : Env} {f : Env → WordOut} {w : Wait} (h : openWord s = some e)
    (hf : f e = .wait w t) : runWord s f = .next (e.waiting w t) := runWord_wait h hf

theorem completes_of {i : Instr} {g : Env → Clause → Clause}
    (h : ∀ s, exec i s = runWord s (fun e => e.result (g e))) : completes i g := by
  intro s e he
  rw [h]
  exact runWord_after _ he rfl

theorem givesUn_of {mk : Reg → Src → Instr} {f f' : Word → Word} (h : ∀ d b s, exec (mk d b) s = unary d b f' s)
    (hf : f' = f) : givesUn mk f := by
  subst hf
  exact fun d b => completes_of (h d b)

theorem givesBin_of {mk : Reg → Reg → Src → Instr} {f f' : Word → Word → Word}
    (h : ∀ d a b s, exec (mk d a b) s = binary d a b f' s) (hf : f' = f) : givesBin mk f := by
  subst hf
  exact fun d a b => completes_of (h d a b)

theorem givesTern_of {mk : Reg → Reg → Src → Instr} {f f' : Word → Word → Word → Word}
    (h : ∀ d a b s, exec (mk d a b) s = ternary d a b f' s) (hf : f' = f) : givesTern mk f := by
  subst hf
  exact fun d a b => completes_of (h d a b)

theorem givesScalar_of {mk : Fin 384 → SSrc → Instr} {f f' : Word → Word → Word}
    (h : ∀ d a s, exec (mk d a) s = scalar d a f' s) (hf : f' = f) : givesScalar mk f := by
  subst hf
  exact fun d a => completes_of (h d a)

theorem givesShift_of {mk : Reg → Reg → Amt → Instr} {f f' : Word → Nat → Word}
    (h : ∀ d a n s, exec (mk d a n) s = shift d a n f' s) (hf : f' = f) : givesShift mk f := by
  subst hf
  exact ⟨fun d a n => completes_of (h d a (.imm n)), fun d a b => completes_of (h d a (.src b))⟩

end Sys2Proof.Machine
end

