-- ==== Sys2Proof/Laws/Checks.lean ====
section
/-! SUPPORT. The laws of the checks and waits that a word passes through before it acts: what a condition that holds, or
that fails, does to the rest of the word. -/

namespace Sys2Proof.Machine

/-! ## Ends of a word -/

@[simp] theorem flat_ok (x : WordOut) : flat (.ok x) = x := rfl
@[simp] theorem flat_error (x : WordOut) : flat (.error x) = x := rfl
@[simp] theorem flat_pure (x : WordOut) : flat (pure x) = x := rfl

/-! ## Conditions in a row -/

@[simp] theorem ok_bind {ε α β : Type} (a : α) (f : α → Except ε β) : ((Except.ok a : Except ε α) >>= f) = f a := rfl
@[simp] theorem error_bind {ε α β : Type} (x : ε) (f : α → Except ε β) : ((Except.error x : Except ε α) >>= f) = .error x := rfl
@[simp] theorem pure_bind_except {ε α β : Type} (a : α) (f : α → Except ε β) : ((pure a : Except ε α) >>= f) = f a := rfl
@[simp] theorem ok_map {ε α β : Type} (f : α → β) (a : α) : f <$> (Except.ok a : Except ε α) = .ok (f a) := rfl
@[simp] theorem error_map {ε α β : Type} (f : α → β) (x : ε) : f <$> (Except.error x : Except ε α) = .error x := rfl

/-! ## Conditions -/

@[simp] theorem need_true : need true = .ok () := rfl
@[simp] theorem need_false : need false = .error (.fault 0x04 0 0) := rfl
@[simp] theorem needCause_true (c : Nat) (a : Word) : needCause true c a = .ok () := rfl
@[simp] theorem needCause_false (c : Nat) (a : Word) : needCause false c a = .error (.fault c a 0) := rfl
@[simp] theorem chk_true (c a : Nat) : chk true c a = .ok () := rfl
@[simp] theorem chk_false (c a : Nat) : chk false c a = .error (c, BitVec.ofNat 32 a) := rfl
@[simp] theorem liftChk_ok {α : Type} (x : α) : liftChk (.ok x) = .ok x := rfl
@[simp] theorem liftChk_error {α : Type} (c : Nat) (a : Word) : (liftChk (.error (c, a)) : Except WordOut α) = .error (.fault c a 0) := rfl

/-! ## Waits -/

@[simp] theorem Env.waitUnless_true (e : Env) (w : Wait) : e.waitUnless true w = .ok () := rfl
@[simp] theorem Env.waitUnless_false (e : Env) (w : Wait) : e.waitUnless false w = .error (.wait w e.s) := rfl
theorem Env.notHeld_first {e : Env} (h : e.i = 0) : e.notHeld = .ok () := by simp [Env.notHeld, h]
theorem Env.notHeld_behind {e : Env} (h : e.i ≠ 0) : e.notHeld = .error (.wait .held e.s) := by
  simp [Env.notHeld, beq_eq_false_iff_ne.mpr h]

/-! ## The open word's machine -/

theorem openWord_state {s : State} {e : Env} (h : openWord s = some e) : e.s = s := (openWord_spec h).1

/-! ## Clauses -/

theorem Clause.act_eq (c : Clause) (a : CommitAct) : c.act a = { c with acts := c.acts ++ [a] } := rfl
theorem Clause.store_eq (c : Clause) (x : HallW) : c.store x = { c with hw := c.hw ++ [x] } := rfl

end Sys2Proof.Machine
end

