-- ==== Sys2Proof/Laws/Encoding.lean ====
section
/-! SUPPORT. The fields of encoded words, and what decoding a list of words comes to for each format (R224 to R230). -/

namespace Sys2Proof

/-! ## Fields of words -/

theorem field_ofNat {n : Nat} (h : n < 2 ^ 32) (hi lo : Nat) :
    field (BitVec.ofNat 32 n) hi lo = n / 2 ^ lo % 2 ^ (hi + 1 - lo) := by
  rw [field, BitVec.toNat_ofNat, Nat.mod_eq_of_lt h]

theorem encA_fields {op fn d a b : Nat} (ho : op < 64) (hf : fn < 32) (hd : d < 128) (ha : a < 128) (hb : b < 128) :
    field (encA op fn d a b) 31 26 = op ∧ field (encA op fn d a b) 25 21 = fn ∧ field (encA op fn d a b) 20 14 = d ∧
    field (encA op fn d a b) 13 7 = a ∧ field (encA op fn d a b) 6 0 = b := by
  have h : op * 2 ^ 26 + fn * 2 ^ 21 + d * 2 ^ 14 + a * 2 ^ 7 + b < 2 ^ 32 := by omega
  simp only [encA, field_ofNat h]
  refine ⟨?_, ?_, ?_, ?_, ?_⟩ <;> omega

theorem encIM_fields {op fn d a off : Nat} (ho : op < 64) (hf : fn < 8) (hd : d < 128) (ha : a < 128) (hb : off < 512) :
    field (encIM op fn d a off) 31 26 = op ∧ field (encIM op fn d a off) 25 23 = fn ∧
    field (encIM op fn d a off) 22 16 = d ∧ field (encIM op fn d a off) 15 9 = a ∧
    field (encIM op fn d a off) 8 0 = off := by
  have h : op * 2 ^ 26 + fn * 2 ^ 23 + d * 2 ^ 16 + a * 2 ^ 9 + off < 2 ^ 32 := by omega
  simp only [encIM, field_ofNat h]
  refine ⟨?_, ?_, ?_, ?_, ?_⟩ <;> omega

theorem encSS_fields {op fn d a : Nat} (ho : op < 64) (hf : fn < 32) (hd : d < 512) (ha : a < 512) :
    field (encSS op fn d a) 31 26 = op ∧ field (encSS op fn d a) 25 21 = fn ∧ field (encSS op fn d a) 20 12 = d ∧
    field (encSS op fn d a) 11 3 = a ∧ field (encSS op fn d a) 2 0 = 0 := by
  have h : op * 2 ^ 26 + fn * 2 ^ 21 + d * 2 ^ 12 + a * 2 ^ 3 < 2 ^ 32 := by omega
  simp only [encSS, field_ofNat h]
  refine ⟨?_, ?_, ?_, ?_, ?_⟩ <;> omega

theorem encB_fields {op a off : Nat} (ho : op < 64) (ha : a < 128) (hb : off < 2 ^ 19) :
    field (encB op a off) 31 26 = op ∧ field (encB op a off) 25 19 = a ∧ field (encB op a off) 18 0 = off := by
  have h : op * 2 ^ 26 + a * 2 ^ 19 + off < 2 ^ 32 := by omega
  simp only [encB, field_ofNat h]
  refine ⟨?_, ?_, ?_⟩ <;> omega

theorem encW1_fields {s o imm : Nat} (hs : s < 512) (ho : o < 128) (hi : imm < 2 ^ 16) :
    field (encW1 s o imm) 31 23 = s ∧ field (encW1 s o imm) 22 16 = o ∧ field (encW1 s o imm) 15 0 = imm := by
  have h : s * 2 ^ 23 + o * 2 ^ 16 + imm < 2 ^ 32 := by omega
  simp only [encW1, field_ofNat h]
  refine ⟨?_, ?_, ?_⟩ <;> omega

/-- The lower fields of word 1 that BIND and SGBKT split further. -/
theorem encW1_low {s o imm : Nat} (hs : s < 512) (ho : o < 128) (hi : imm < 2 ^ 16) (p q : Nat) (hp : p ≤ 15) :
    field (encW1 s o imm) p q = imm / 2 ^ q % 2 ^ (p + 1 - q) := by
  have h : s * 2 ^ 23 + o * 2 ^ 16 + imm < 2 ^ 32 := by omega
  rw [encW1, field_ofNat h]
  have key : ∀ m, m ≤ 16 → (s * 2 ^ 23 + o * 2 ^ 16 + imm) % 2 ^ m = imm % 2 ^ m := by
    intro m hm
    have e : s * 2 ^ 23 + o * 2 ^ 16 + imm = imm + 2 ^ m * (2 ^ (16 - m) * (s * 2 ^ 7 + o)) := by
      have : (2 : Nat) ^ m * 2 ^ (16 - m) = 2 ^ 16 := by rw [← Nat.pow_add]; congr 1; omega
      rw [← Nat.mul_assoc, this]; omega
    rw [e, Nat.add_mul_mod_self_left]
  by_cases hq : q ≤ p + 1
  · have hmod : ∀ x : Nat, x / 2 ^ q % 2 ^ (p + 1 - q) = x % 2 ^ (p + 1) / 2 ^ q := by
      intro x
      have : (2 : Nat) ^ (p + 1) = 2 ^ q * 2 ^ (p + 1 - q) := by rw [← Nat.pow_add]; congr 1; omega
      rw [this, Nat.mod_mul_right_div_self]
    rw [hmod, hmod, key _ (by omega)]
  · have : p + 1 - q = 0 := by omega
    simp [this, Nat.mod_one]

theorem encM_fields {op fn acc roll a b : Nat} (ho : op < 64) (hf : fn < 32) (hc : acc < 4) (hr : roll < 16)
    (ha : a < 128) (hb : b < 128) :
    field (encM op fn acc roll a b) 31 26 = op ∧ field (encM op fn acc roll a b) 25 21 = fn ∧
    field (encM op fn acc roll a b) 20 19 = acc ∧ field (encM op fn acc roll a b) 18 15 = roll ∧
    field (encM op fn acc roll a b) 14 14 = 0 ∧ field (encM op fn acc roll a b) 13 7 = a ∧
    field (encM op fn acc roll a b) 6 0 = b := by
  have h : op * 2 ^ 26 + fn * 2 ^ 21 + acc * 2 ^ 19 + roll * 2 ^ 15 + a * 2 ^ 7 + b < 2 ^ 32 := by omega
  simp only [encM, field_ofNat h]
  refine ⟨?_, ?_, ?_, ?_, ?_, ?_, ?_⟩ <;> omega

/-! ## Operand codes -/

@[simp] theorem regOf_code (r : Reg) : regOf r.code = .ok r := by
  cases r with
  | g n => simp [Reg.code, regOf]
  | t n =>
    have h1 : ¬ (120 + n.val < 120) := by omega
    have h2 : 120 + n.val < 124 := by omega
    simp [Reg.code, regOf, h2]
  | z => rfl

theorem Reg.code_lt (r : Reg) : r.code < 125 := by
  cases r <;> simp [Reg.code] <;> omega

theorem Src.code_lt (b : Src) : b.code < 127 := by
  cases b with
  | reg r => have := r.code_lt; simp only [Src.code]; omega
  | _ => simp [Src.code]

theorem SSrc.code_lt (a : SSrc) : a.code < 512 := by
  cases a <;> simp only [SSrc.code] <;> omega

@[simp] theorem finOf_val {k : Nat} (n : Fin k) : finOf k n.val = .ok n := by simp [finOf]
@[simp] theorem fnOf_val {k : Nat} (n : Fin k) : fnOf k n.val = .ok n := by simp [fnOf]

/-- An s register's extension word is itself. -/
theorem sregExt_ofNat (n : Fin 384) : sregExt (BitVec.ofNat 32 n.val) = .ok n := by
  have h : n.val % 4294967296 = n.val := by omega
  simp [sregExt, h]

/-- Decoding a B operand from its code and its extension word, 0 where it has none. -/
@[simp] theorem srcOf_code (b : Src) : srcOf b.code (b.ext.headD 0#32) = .ok b := by
  cases b with
  | reg r =>
    have := r.code_lt
    have h1 : r.code ≠ 125 := by omega
    have h2 : r.code ≠ 126 := by omega
    simp [Src.code, srcOf, h1, h2, Except.map]
  | sreg n => simp [Src.code, Src.ext, srcOf, sregExt_ofNat, Except.map]
  | lit w => simp [Src.code, Src.ext, srcOf]

@[simp] theorem ssrcOf_code (a : SSrc) : ssrcOf a.code (a.ext.headD 0#32) = .ok a := by
  cases a with
  | s n => simp [SSrc.code, ssrcOf]
  | lit w => simp [SSrc.code, SSrc.ext, ssrcOf]
  | g n =>
    have h : n.val % 4294967296 = n.val := by omega
    simp [SSrc.code, SSrc.ext, ssrcOf, h]
  | z => rfl

/-! ## The first instruction of a list of words -/

/-- An instruction of one word and the extension that its B field calls for. -/
theorem decodeWords_A {c : Class} {w : Word} {b : Src} {i : Instr} (rest : List Word)
    (hf : fmtOf c (field w 31 26) = some .a) (hi : immShift c w = false) (hb : field w 6 0 = b.code)
    (hd : decodeItem c { idx := 0, w0 := w, w1 := 0#32, ext := b.ext.headD 0#32, listed := true } = .ok i) :
    decodeWords c (w :: b.ext ++ rest) = .ok (i, rest) := by
  cases b with
  | reg r =>
    have := r.code_lt
    have h1 : (r.code == 125) = false := by simp; omega
    have h2 : (r.code == 126) = false := by simp; omega
    simp only [Src.code] at hb
    simp only [Src.ext, List.headD_nil] at hd
    simp [Src.ext, decodeWords, wordLen, hf, wantsExt, hi, hb, h1, h2, cutWords, hd, Except.map]
  | sreg n =>
    simp only [Src.code] at hb
    simp only [Src.ext, List.headD_cons] at hd
    simp [Src.ext, decodeWords, wordLen, hf, wantsExt, hi, hb, cutWords, hd, Except.map]
  | lit x =>
    simp only [Src.code] at hb
    simp only [Src.ext, List.headD_cons] at hd
    simp [Src.ext, decodeWords, wordLen, hf, wantsExt, hi, hb, cutWords, hd, Except.map]

/-- An instruction of format W2: two words, and the extension that its B field calls for. -/
theorem decodeWords_W2 {c : Class} {w v : Word} {b : Src} {i : Instr} (rest : List Word)
    (hf : fmtOf c (field w 31 26) = some .w2) (hi : immShift c w = false) (hb : field w 6 0 = b.code)
    (hd : decodeItem c { idx := 0, w0 := w, w1 := v, ext := b.ext.headD 0#32, listed := true } = .ok i) :
    decodeWords c (w :: v :: b.ext ++ rest) = .ok (i, rest) := by
  cases b with
  | reg r =>
    have := r.code_lt
    have h1 : (r.code == 125) = false := by simp; omega
    have h2 : (r.code == 126) = false := by simp; omega
    simp only [Src.code] at hb
    simp only [Src.ext, List.headD_nil] at hd
    simp [Src.ext, decodeWords, wordLen, hf, wantsExt, hi, hb, h1, h2, cutWords, hd, Except.map]
  | sreg n =>
    simp only [Src.code] at hb
    simp only [Src.ext, List.headD_cons] at hd
    simp [Src.ext, decodeWords, wordLen, hf, wantsExt, hi, hb, cutWords, hd, Except.map]
  | lit x =>
    simp only [Src.code] at hb
    simp only [Src.ext, List.headD_cons] at hd
    simp [Src.ext, decodeWords, wordLen, hf, wantsExt, hi, hb, cutWords, hd, Except.map]

/-- An instruction of one word with no extension: formats IM and B, and immediate shift amounts. -/
theorem decodeWords_one {c : Class} {w : Word} {f : Fmt} {i : Instr} (rest : List Word)
    (hf : fmtOf c (field w 31 26) = some f) (h2 : f ≠ .w2) (he : wantsExt c f w = false)
    (hd : decodeItem c { idx := 0, w0 := w, w1 := 0#32, ext := 0#32, listed := true } = .ok i) :
    decodeWords c (w :: rest) = .ok (i, rest) := by
  cases f <;> simp_all [decodeWords, wordLen, cutWords, Except.map]

/-- An instruction of format SS. -/
theorem decodeWords_SS {w : Word} {a : SSrc} {i : Instr} (rest : List Word)
    (hf : fmtOf .scalar (field w 31 26) = some .ss) (ha : field w 11 3 = a.code)
    (hd : decodeItem .scalar { idx := 0, w0 := w, w1 := 0#32, ext := a.ext.headD 0#32, listed := true } = .ok i) :
    decodeWords .scalar (w :: a.ext ++ rest) = .ok (i, rest) := by
  cases a with
  | s n =>
    have h1 : (n.val == 510) = false := by simp; omega
    have h2 : (n.val == 511) = false := by simp; omega
    simp only [SSrc.code] at ha
    simp only [SSrc.ext, List.headD_nil] at hd
    simp [SSrc.ext, decodeWords, wordLen, hf, wantsExt, ha, h1, h2, cutWords, hd, Except.map]
  | lit x =>
    simp only [SSrc.code] at ha
    simp only [SSrc.ext, List.headD_cons] at hd
    simp [SSrc.ext, decodeWords, wordLen, hf, wantsExt, ha, cutWords, hd, Except.map]
  | g n =>
    simp only [SSrc.code] at ha
    simp only [SSrc.ext, List.headD_cons] at hd
    simp [SSrc.ext, decodeWords, wordLen, hf, wantsExt, ha, cutWords, hd, Except.map]
  | z =>
    simp only [SSrc.code] at ha
    simp only [SSrc.ext, List.headD_cons] at hd
    rw [show (124 : Word) = 124#32 from rfl] at hd
    simp [SSrc.ext, decodeWords, wordLen, hf, wantsExt, ha, cutWords, hd, Except.map]

/-! ## FN codes -/

@[simp] theorem satModeOf_fn (m : SatMode) : satModeOf m.fn = .ok m := by cases m <;> rfl
@[simp] theorem satOf_fn (m : Sat) : satOf m.fn = .ok m := by cases m <;> rfl
@[simp] theorem signOf_fn (m : Sign) : signOf m.fn = .ok m := by cases m <;> rfl
@[simp] theorem flagOf_toNat (b : Bool) : flagOf b.toNat = .ok b := by cases b <;> rfl
@[simp] theorem cmpRelOf_fn (r : CmpRel) : cmpRelOf r.fn = .ok r := by cases r <;> rfl
@[simp] theorem fRelOf_fn (r : FRel) : fRelOf r.fn = .ok r := by cases r <;> rfl
@[simp] theorem fModeOf_fn (m : FMode) : fModeOf m.fn = .ok m := by cases m <;> rfl
@[simp] theorem rndOf_fn (m : Rnd) : rndOf m.fn = .ok m := by cases m <;> rfl
@[simp] theorem cvtOf_fn (c : Cvt) : cvtOf c.fn = .ok c := by
  cases c with
  | fBf b => cases b <;> rfl
  | iH b => cases b <;> rfl
  | t8 k => fin_cases k <;> rfl
  | fT8 k => fin_cases k <;> rfl
  | t6 k => fin_cases k <;> rfl
  | fT6 k => fin_cases k <;> rfl
  | _ => rfl
@[simp] theorem ldwOf_fn (k : LdW) : ldwOf k.fn = .ok k := by cases k <;> rfl
@[simp] theorem stwOf_fn (k : StW) : stwOf k.fn = .ok k := by cases k <;> rfl
@[simp] theorem atomOf_fn (o : AtomOp) : atomOf o.fn = .ok o := by cases o <;> rfl
@[simp] theorem repOf_fn (m : Rep) : repOf m.fn = .ok m := by cases m <;> rfl
@[simp] theorem placeOf_code (p : Place) : placeOf p.code = .ok p := by cases p <;> rfl
@[simp] theorem gkindOf_code (k : GKind) : gkindOf k.code = .ok k := by cases k <;> rfl
@[simp] theorem scopeOf_code (s : Scope) : scopeOf s.code = .ok s := by cases s <;> rfl
@[simp] theorem orderOf_code (o : Order) : orderOf o.code = o := by cases o <;> rfl
@[simp] theorem wsrOf_fn (r : WSr) : wsrOf r.fn = .ok r := by cases r <;> rfl

end Sys2Proof
end

