-- ==== Sys2Proof/Laws/Memory.lean ====
section
/-! SUPPORT. The laws of memory: a read after a write, other bytes left alone, and the canonical form kept by every
memory operation (log 5, log 23). -/

namespace Sys2Proof.Machine

theorem State.memoryWf_iff (s : State) :
    s.memoryWf = true ↔ SMap.wf Config.blankByte s.mem = true ∧
      s.hbm.all (fun (p : Nat × Stack) => Memory.wf p.2.sram) = true := by
  simp only [State.memoryWf, sramsWf, Bool.and_eq_true]
  exact Iff.rfl

/-- Memory's form depends on memory and on the stacks alone. -/
theorem State.memoryWf_congr {s t : State} (hm : t.mem = s.mem) (hh : t.hbm = s.hbm) : t.memoryWf = s.memoryWf := by
  simp [State.memoryWf, sramsWf, hm, hh]

theorem State.stack_wf {s : State} (h : s.memoryWf = true) (k : Nat) : Memory.wf (s.stack k).sram = true :=
  Tab.getD_all (p := fun (x : Nat × Stack) => Memory.wf x.2.sram) (s.memoryWf_iff.1 h).2 rfl

/-- Changing a stack's other registers keeps memory's form. -/
theorem State.memoryWf_modStack {s : State} {k : Nat} {f : Stack → Stack} (h : s.memoryWf = true)
    (hf : Memory.wf (f (s.stack k)).sram = true) : (s.modStack k f).memoryWf = true := by
  rw [State.memoryWf_iff] at h ⊢
  exact ⟨h.1, Tab.all_put h.2 hf⟩

/-- The write of one byte keeps memory's form. -/
theorem State.memoryWf_setPhysByte {s : State} (h : s.memoryWf = true) (a : Nat) (b : Byte) :
    (s.setPhysByte a b).memoryWf = true := by
  unfold State.setPhysByte
  split
  · exact State.memoryWf_modStack h (SMap.wf_set (State.stack_wf h _))
  · rw [State.memoryWf_iff] at h ⊢
    exact ⟨SMap.wf_set h.1, h.2⟩

theorem State.memoryWf_setPhysBytes {s : State} (h : s.memoryWf = true) (a : Nat) (bs : List Byte) :
    (s.setPhysBytes a bs).memoryWf = true := by
  induction bs generalizing s a with
  | nil => exact h
  | cons b r ih => exact ih (State.memoryWf_setPhysByte h a b) _

theorem State.memoryWf_setPhysWord {s : State} (h : s.memoryWf = true) (a v : Nat) :
    (s.setPhysWord a v).memoryWf = true := State.memoryWf_setPhysBytes h a _

/-- A request leaves the base die's SRAM alone. -/
@[simp] theorem Stack.request_sram (k : Stack) (pch atom : Nat) : (k.request pch atom).sram = k.sram := by
  unfold Stack.request
  split
  · split <;> rfl
  · rfl

theorem State.memoryWf_requests {s : State} (h : s.memoryWf = true) (pas : List Nat) : (s.requests pas).memoryWf = true := by
  unfold State.requests
  induction ((pas.filter inHbm).map (· / 32)).dedup generalizing s with
  | nil => exact h
  | cons a r ih =>
    refine ih (State.memoryWf_modStack h ?_)
    rw [Stack.request_sram]
    exact State.stack_wf h _

theorem State.memoryWf_putEach {s : State} (h : s.memoryWf = true) (zs : List (Nat × Byte)) :
    (zs.foldl (fun s (z : Nat × Byte) => s.setPhysByte z.1 z.2) s).memoryWf = true := by
  induction zs generalizing s with
  | nil => exact h
  | cons z r ih => exact ih (State.memoryWf_setPhysByte h z.1 z.2)

/-- What the kernel or the walker writes keeps memory's form. -/
theorem State.memoryWf_puts {s : State} (h : s.memoryWf = true) (zs : List (Nat × Byte)) : (s.puts zs).memoryWf = true := by
  unfold State.puts
  split
  · exact h
  · refine State.memoryWf_requests (Eq.trans ?_ (State.memoryWf_putEach h zs)) _
    exact State.memoryWf_congr rfl rfl

theorem State.memoryWf_setNode {s : State} (h : s.memoryWf = true) (pa st err pred : Nat) :
    (s.setNode pa st err pred).memoryWf = true := by
  unfold State.setNode
  split
  · exact State.memoryWf_puts h _
  · exact h

/-- Where the atom is not redirected the byte goes to memory itself. -/
theorem State.setPhysByte_plain {s : State} {a : Nat} (b : Byte) (h : s.slotOf a = none) :
    s.setPhysByte a b = { s with mem := SMap.set Config.blankByte a b s.mem } := by
  simp only [State.setPhysByte, h]

theorem State.physByte_plain {s : State} {a : Nat} (h : s.slotOf a = none) :
    s.physByte a = SMap.get Config.blankByte a s.mem := by
  simp only [State.physByte, h]

/-- Redirection depends on the stacks alone. -/
theorem State.slotOf_congr {s t : State} (h : t.hbm = s.hbm) (a : Nat) : t.slotOf a = s.slotOf a := by
  simp only [State.slotOf, State.stack, h]

/-- Where no atom is redirected a byte reads as it was last written. -/
theorem State.physByte_setPhysByte {s : State} (h : s.memoryWf = true) (a : Nat) (b : Byte)
    (hr : s.slotOf a = none) : (s.setPhysByte a b).physByte a = b := by
  have ht : ({ s with mem := SMap.set Config.blankByte a b s.mem } : State).slotOf a = none :=
    (State.slotOf_congr rfl a).trans hr
  rw [State.setPhysByte_plain b hr, State.physByte_plain ht]
  exact SMap.get_set_eq (s.memoryWf_iff.1 h).1

/-- Another byte reads as before, where neither atom is redirected. -/
theorem State.physByte_setPhysByte_ne (s : State) {a c : Nat} (b : Byte) (hac : a ≠ c) (ha : s.slotOf a = none)
    (hc : s.slotOf c = none) : (s.setPhysByte a b).physByte c = s.physByte c := by
  have ht : ({ s with mem := SMap.set Config.blankByte a b s.mem } : State).slotOf c = none :=
    (State.slotOf_congr rfl c).trans hc
  rw [State.setPhysByte_plain b ha, State.physByte_plain ht, State.physByte_plain hc]
  exact SMap.get_set_ne _ hac

/-! ## Hall storage -/

/-- What a write performs has the length of what it buffered. -/
@[simp] theorem HallW.data_length (x : HallW) (f : Form) : (x.data f).length = x.bytes.length := by
  unfold HallW.data
  split <;> simp

/-- A raw write performs its bytes. -/
theorem HallW.data_raw {x : HallW} (f : Form) (h : x.conv = none) : x.data f = x.bytes := by
  simp only [HallW.data, h]

theorem Form.byte_write_out (f : Form) (x : HallW) {a : Nat} (h : a < x.addr ∨ x.addr + x.bytes.length ≤ a) :
    (f.write x).byte a = f.byte a := by
  have hret : ∀ (ws : List Nat) (g : Form), (ws.foldl (fun f w => f.retag x.tag w) g).hall = g.hall := by
    intro ws
    induction ws with
    | nil => intro g; rfl
    | cons w ws ih => intro g; rw [List.foldl_cons, ih]; cases x.tag <;> rfl
  have hh : (f.write x).hall = SMap.setList 0 x.addr (x.data f) f.hall := by
    simp only [Form.write]
    cases hx : x.tag <;> simp only [hx] at hret ⊢ <;> exact hret _ _
  simp only [Form.byte, hh]
  exact SMap.get_setList_out _ _ (by rwa [HallW.data_length])

theorem Form.byte_writes_out (xs : List HallW) (f : Form) {a : Nat}
    (h : ∀ x ∈ xs, a < x.addr ∨ x.addr + x.bytes.length ≤ a) : (f.writes xs).byte a = f.byte a := by
  induction xs generalizing f with
  | nil => rfl
  | cons x r ih =>
    rw [Form.writes, ih _ (fun y hy => h y (List.mem_cons_of_mem _ hy)),
      Form.byte_write_out f x (h x (List.mem_cons_self ..))]

end Sys2Proof.Machine
end

