-- ==== Sys2Proof/Tests/Slice0.lean ====
section
/-! SUPPORT. Tests of the model: the checks of WellFormed, the words that the spec prints, a witness for the hypotheses of
each statement, and single steps whose results are the spec's own numbers. -/

namespace Sys2Proof.Tests
open Sys2Proof Sys2Proof.Machine

set_option Elab.async false

/-! ## Well-formedness: one ill-formed term for each check -/

theorem test_wf_pairs :
    [Instr.ld .d (.g 5) (.g 6) 0, .ldw .d (.t 1) (.g 6) 0, .st .d (.g 7) (.g 6) 0, .ldScalar .d 3 (.s 4), .stScalar .d 5 (.s 4),
     .send true (.g 6) (.reg (.g 7)), .send true (.g 6) (.lit 0), .recv true (.g 9) (.g 6), .vote .bal (.g 5) (.g 6) 2,
     .call 41 48, .ret 41, .launch (.g 5) (.g 6) 9, .cpyg true 2 (.g 6) 11, .cpys false 2 (.g 6) 11].all (fun i => !i.wf) = true := by
  decide

theorem test_wf_masks :
    [Instr.bcast (.g 1) (.g 2) (.reg .z) 1 .z, .xmatch (.g 1) (.g 2) 3, .rank (.g 1) (.g 2) 5, .redx .fadd (.g 1) (.g 2) 7,
     .shfl (.g 1) (.g 2) (.lit 1) 9 .z, .slide .upW (.g 1) (.g 2) (.lit 1) 11 .z, .xshfl (.g 1) (.g 2) (.lit 1) 13 .z,
     .vote .any (.g 4) (.g 6) 383, .qfence 3 21, .rolldecl 2 (.g 7) 3, .sgbkt .first (.g 20) 1 (.g 18) (.lit 0) 4 3 0].all
      (fun i => !i.wf) = true := by decide

theorem test_wf_records :
    [Instr.cpy 0 (.g 6) 378, .cpy 0 (.g 6) 9, .cred 1 (.g 6) 377 3, .cgath 1 (.g 6) 382 3,
     .mmconv true false false 0 1 (.g 5) (.lit 0) 377 3, .sghash 3 (.g 20) (.g 16) (.lit 0), .fcvt .fI (.g 5) (.g 6) (.reg (.g 4))].all
      (fun i => !i.wf) = true := by decide

theorem test_wf_events :
    [Instr.comparatorProgram 0 8 true 0 0, .comparatorProgram 0 7 true 0 2, .hbmFreqChange 12 0, .hbmFreqChange 11 4,
     .configuredMaximumWrite 64 ⟨0, 98⟩, .configuredMaximumWrite 63 ⟨25, 98⟩, .configuredMaximumWrite 63 ⟨24, 79⟩,
     .configuredMaximumWrite 63 ⟨24, 105⟩, .vfTableWrite 0 24 96, .vfTableWrite 64 0 0,
     .counterCreate 1024 1 [], .counterCreate 1023 0 [], .counterCreate 0 16777217 [], .wsRefreshOpen 4 0 0, .wsRefreshOpen 0 32 0,
     .wsRefreshClose 4 0, .wsRefreshClose 0 32].all (fun i => !i.wf) = true := by decide

theorem test_wf_good :
    [Instr.ld .d (.g 4) (.g 6) 0, .st .d (.t 2) (.g 6) 0, .ldScalar .d 2 (.s 4), .vote .bal (.g 4) (.g 6) 2, .cpy 0 (.g 6) 376,
     .sghash 4 (.g 20) (.g 16) (.lit 0), .fcvt .bf2 (.g 5) (.g 6) (.reg (.g 4)), .comparatorProgram 0 7 true 0 4,
     .hbmFreqChange 11 3, .counterCreate 1023 16777216 [], .wsRefreshOpen 3 31 0].all (·.wf) = true := by decide

/-! ## Decoding: the words that the spec prints -/

/-- The words decode, in the class, to the instruction and nothing is left over. -/
def reads (c : Sys2Proof.Class) (ws : List Word) (i : Instr) : Bool :=
  match decodeWords c ws with
  | .ok (j, rest) => decide (j = i) && rest.isEmpty
  | .error _ => false

/-- The words are refused with this error. -/
def refuses (c : Sys2Proof.Class) (ws : List Word) (e : DecErr) : Bool :=
  match decodeWords c ws with
  | .ok _ => false
  | .error x => decide (x = e)

theorem test_decode_integer :
    (reads .lane [0x4C217E06] (.abs .sat (.g 5) (.reg (.g 6))) && reads .lane [0x04214307] (.add .satI (.g 5) (.g 6) (.reg (.g 7))) &&
     reads .scalar [0x04002FF0, 1] (.addScalar .wrap 2 (.lit 1)) && reads .lane [0x18014307] (.and (.g 5) (.g 6) (.reg (.g 7))) &&
     reads .scalar [0x18002018] (.andScalar 2 (.s 3)) && reads .lane [0x4000C205] (.bfi (.g 3) (.g 4) (.reg (.g 5))) &&
     reads .scalar [0x40002018] (.bfiScalar 2 (.s 3)) && reads .lane [0x3C20C205] (.bfx .n (.g 3) (.g 4) (.reg (.g 5))) &&
     reads .scalar [0x3C202018] (.bfxScalar .n 2 (.s 3)) && reads .core [0x3400BE03] (.clz (.g 2) (.reg (.g 3))) &&
     reads .scalar [0x34002018] (.clzScalar 2 (.s 3)) && reads .lane [0x5487C205] (.cmp .ltN (.g 31) (.g 4) (.reg (.g 5))) &&
     reads .scalar [0x54202018] (.cmpScalar .ne 2 (.s 3)) && reads .lane [0x5C7E0200] (.lea 3 (.t 0) (.g 4) (.reg (.g 0))) &&
     reads .scalar [0x5C402018] (.leaScalar 2 2 (.s 3)) && reads .lane [0x14014307] (.mad (.g 5) (.g 6) (.reg (.g 7)))) = true := by decide

theorem test_decode_integer2 :
    (reads .lane [0x48014307] (.max .i (.g 5) (.g 6) (.reg (.g 7))) && reads .scalar [0x48202018] (.maxScalar .n 2 (.s 3)) &&
     reads .lane [0x44214307] (.min .n (.g 5) (.g 6) (.reg (.g 7))) && reads .scalar [0x44202018] (.minScalar .n 2 (.s 3)) &&
     reads .lane [0x6000BE7E, 0x40400000] (.mov (.g 2) (.lit 0x40400000)) && reads .scalar [0x60000FF0, 0xFF] (.movScalar 0 (.lit 0xFF)) &&
     reads .lane [0x0C1E007E, 3] (.mul (.t 0) (.g 0) (.lit 3)) && reads .scalar [0x0C002018] (.mulScalar 2 (.s 3)) &&
     reads .core [0x10214307] (.mulh .n (.g 5) (.g 6) (.reg (.g 7))) && reads .scalar [0x10202018] (.mulhScalar .n 2 (.s 3)) &&
     reads .lane [0x501E3E02] (.neg .wrap (.t 0) (.reg (.g 2))) && reads .lane [0x1C014307] (.or (.g 5) (.g 6) (.reg (.g 7))) &&
     reads .scalar [0x1C002018] (.orScalar 2 (.s 3)) && reads .lane [0x3800BE03] (.popc (.g 2) (.reg (.g 3))) &&
     reads .scalar [0x38002018] (.popcScalar 2 (.s 3))) = true := by decide

theorem test_decode_integer3 :
    (reads .lane [0x2C414308] (.rot (.g 5) (.g 6) (.imm 8)) && reads .scalar [0x2C002018] (.rotScalar 2 (.s 3)) &&
     reads .lane [0x58014307] (.sel (.g 5) (.g 6) (.reg (.g 7))) && reads .scalar [0x58002018] (.selScalar 2 (.s 3)) &&
     reads .lane [0x24014307] (.shl (.g 5) (.g 6) (.src (.reg (.g 7)))) && reads .lane [0x245E4002] (.shl (.t 1) (.g 0) (.imm 2)) &&
     reads .scalar [0x24002018] (.shlScalar 2 (.s 3)) && reads .lane [0x28620401] (.shr .n (.g 8) (.g 8) (.imm 1)) &&
     reads .lane [0x28414304] (.shr .i (.g 5) (.g 6) (.imm 4)) && reads .scalar [0x28202018] (.shrScalar .n 2 (.s 3)) &&
     reads .lane [0x305E3C0F] (.shrr (.t 0) (.t 0) (.imm 15)) && reads .lane [0x08414307] (.sub .satN (.g 5) (.g 6) (.reg (.g 7))) &&
     reads .lane [0x080040FE, 1] (.sub .wrap (.g 1) (.g 1) (.lit 1)) && reads .scalar [0x08002018] (.subScalar .wrap 2 (.s 3)) &&
     reads .lane [0x20014307] (.xor (.g 5) (.g 6) (.reg (.g 7))) && reads .scalar [0x20002018] (.xorScalar 2 (.s 3)) &&
     reads .lane [0x703EFCF8] (.pack true (.t 3) (.t 1) (.reg (.t 0))) && reads .lane [0x64214307] (.padd .sat (.g 5) (.g 6) (.reg (.g 7))) &&
     reads .lane [0x6C3E0514] (.pdot2 true (.t 0) (.g 10) (.reg (.g 20))) &&
     reads .core [0x68014307] (.psub .wrap (.g 5) (.g 6) (.reg (.g 7)))) = true := by decide

theorem test_decode_floating_point :
    (reads .lane [0x74214307] (.fadd .rz (.g 5) (.g 6) (.reg (.g 7))) && reads .lane [0x781E7E79] (.fsub .rn (.t 1) .z (.reg (.t 1))) &&
     reads .lane [0x7C83050B] (.fmul .t (.g 12) (.g 10) (.reg (.g 11))) && reads .lane [0x80014307] (.ffma .rn (.g 5) (.g 6) (.reg (.g 7))) &&
     reads .lane [0x8C47C205] (.fcmp .lt (.g 31) (.g 4) (.reg (.g 5))) && reads .lane [0x91217E04] (.fcvt (.t8 2) (.g 5) .z (.reg (.g 4))) &&
     reads .core [0x90814307] (.fcvt .bf2 (.g 5) (.g 6) (.reg (.g 7))) && reads .lane [0x88014307] (.fmax (.g 5) (.g 6) (.reg (.g 7))) &&
     reads .lane [0x84014307] (.fmin (.g 5) (.g 6) (.reg (.g 7))) && reads .lane [0x94617E06] (.frnd .rd (.g 5) (.reg (.g 6))) &&
     reads .pier [0xDC0A14AA] (.bfma false (.g 40) (.g 41) (.reg (.g 42)))) = true := by decide

theorem test_decode_sfu :
    (reads .core [0xB0053E1C] (.cospi (.g 20) (.reg (.g 28))) && reads .core [0xA4053E15] (.ex2 (.g 20) (.reg (.g 21))) &&
     reads .core [0xA8053E15] (.lg2 (.g 20) (.reg (.g 21))) && reads .core [0x9806BE1D] (.rcp (.g 26) (.reg (.g 29))) &&
     reads .core [0x9C053E15] (.rsq (.g 20) (.reg (.g 21))) && reads .core [0xAC057E1C] (.sinpi (.g 21) (.reg (.g 28))) &&
     reads .core [0xA0053E15] (.sqrt (.g 20) (.reg (.g 21))) && reads .core [0xB4053E15] (.tanh (.g 20) (.reg (.g 21))) &&
     reads .core [0xB8253E15] (.act 1 (.g 20) (.reg (.g 21))) && reads .core [0xBC5F037C] (.actld 2 (.g 6))) = true := by decide

theorem test_decode_memory :
    (reads .lane [0xC20A0400] (.ld .w (.g 10) (.g 2) 0) && reads .scalar [0xC0804030] (.ldScalar .w 4 (.s 6)) &&
     reads .lane [0xC678F200] (.st .w (.t 0) (.t 1) 0) && reads .lane [0xC68A0401] (.st .d (.g 10) (.g 2) 1) &&
     reads .scalar [0xC4804030] (.stScalar .w 4 (.s 6)) && reads .lane [0xCA080E00] (.ldfe (.g 8) (.g 7) 0) &&
     reads .lane [0xCE010E00] (.stfe (.g 1) (.g 7) 0) && reads .lane [0xD20A0410] (.ldw .w (.g 10) (.g 2) 16) &&
     reads .lane [0xD4014307] (.atom .addI (.g 5) (.g 6) (.reg (.g 7))) && reads .lane [0xD53F0307] (.atom .fadd .z (.g 6) (.reg (.g 7))) &&
     reads .lane [0xD8014307] (.cas (.g 5) (.g 6) (.reg (.g 7)))) = true := by decide

theorem test_decode_cross_lane :
    (reads .lane [0xE0DEC6FC, 0x007C0000] (.bcast (.t 3) (.g 13) (.reg .z) 0 .z) && reads .lane [0xE141437C, 0x007C0000] (.xmatch (.g 5) (.g 6) 0) &&
     reads .lane [0xE161437C, 0x007C0000] (.rank (.g 5) (.g 6) 0) && reads .lane [0xE1E244FC, 0x007C0000] (.redx .fadd (.g 9) (.g 9) 0) &&
     reads .lane [0xE01E017D, 0x00090000, 7] (.shfl (.t 0) (.g 2) (.sreg 7) 0 (.g 9)) &&
     reads .lane [0xE041437E, 0x007C0000, 1] (.slide .dnW (.g 5) (.g 6) (.lit 1) 0 .z) &&
     reads .lane [0xE07E8889, 0x00120000] (.slide .upH (.t 2) (.g 17) (.reg (.g 9)) 0 (.g 18)) &&
     reads .lane [0xE121037C, 0x017C0000] (.vote .bal (.g 4) (.g 6) 2) &&
     reads .lane [0xE0BE0104, 0x007C0000] (.xshfl (.t 0) (.g 2) (.reg (.g 4)) 0 .z)) = true := by decide

theorem test_decode_control :
    (reads .control [0x07E7FFE4] (.bra (-28)) && reads .control [0x08300007] (.brz (.g 6) 7) && reads .control [0x0C0FFFFC] (.brnz (.g 1) (-4)) &&
     reads .control [0x101F3E09] (.brx (.reg (.g 9))) && reads .control [0x15400030] (.call 40 48) && reads .control [0x181F3E28] (.ret 40) &&
     reads .control [0x1C1F3E7C] .join && reads .control [0x201F3E7C] .exit && reads .control [0x281F3E7E, 5] (.trap (.lit 5)) &&
     reads .control [0x2C1F3E7C] (.rett false) && reads .control [0x2C3F3E7C] (.rett true) && reads .control [0x301F3E7C] .yield &&
     reads .control [0x341F3E7E, 0xFA0] (.sleep (.lit 0xFA0)) && reads .control [0x38053E7E, 0x10] (.grow (.g 20) (.lit 16)) &&
     reads .control [0x3C1F3E7E, 0x10] (.shrink (.lit 16)) && reads .control [0x40223E7C] (.place 8 .core) &&
     reads .control [0x44003E7C] (.rdsr (.g 0) 0) && reads .control [0x45A23E7C] (.rdsr (.g 8) 13) &&
     reads .control [0x4A1F3E7C] (.wrsr .ns (.reg .z)) && reads .control [0x4AFF3E05] (.wrsr .prio (.reg (.g 5))) &&
     reads .control [0x941F3E7C] .nop) = true := by decide

theorem test_decode_control2 :
    (reads .control [0x4C1F0307] (.send false (.g 6) (.reg (.g 7))) && reads .control [0x5022037C] (.recv true (.g 8) (.g 6)) &&
     reads .control [0x54014308] (.launch (.g 5) (.g 6) 8) && reads .control [0x581F0307] (.cwait 0 (.g 6) (.reg (.g 7))) &&
     reads .control [0x5C014307] (.ctest 0 (.g 5) (.g 6) (.reg (.g 7))) && reads .control [0x60BF3E7C] (.fence .rel .form) &&
     reads .control [0x641F050B, 0x000C8001] (.bind (.g 10) (.reg (.g 11)) (.g 12) .ring 1) &&
     reads .control [0x681F0301] (.barinit (.g 6) (.reg (.g 1))) && reads .control [0x6C01C37C] (.bararr false (.g 7) (.g 6)) &&
     reads .control [0x701F0307] (.barwait false (.g 6) (.reg (.g 7))) && reads .control [0x741F037C] (.barfree (.g 6)) &&
     reads .control [0x781F057E, 0x210] (.ringinit (.g 10) (.lit 0x210)) && reads .control [0x7C03457C] (.ringacq (.g 13) (.g 10)) &&
     reads .control [0x801F0597] (.ringpub (.g 11) (.reg (.g 23))) && reads .control [0x8403457C] (.ringtake (.g 13) (.g 10)) &&
     reads .control [0x881F050D] (.ringdone (.g 10) (.reg (.g 13))) && reads .control [0x8C3F12FC] (.savep .core (.g 37)) &&
     reads .control [0x903F12FC] (.loadp .core (.g 37))) = true := by decide

theorem test_decode_copy :
    (reads .copy [0x0400037C, 0x047C0000] (.cpy 0 (.g 6) 8) && reads .copy [0x0820830A] (.cpyg true 2 (.g 6) 10) &&
     reads .copy [0x0C20830A] (.cpys true 2 (.g 6) 10) && reads .copy [0x1000FE7D, 0x14] (.qfence 3 20) &&
     reads .copy [0x1400437C, 0x087C0003] (.cred 1 (.g 6) 16 3) && reads .copy [0x1800437C, 0x087C0003] (.cgath 1 (.g 6) 16 3)) = true := by
  decide

theorem test_decode_matrix :
    (reads .matrix [0x0420827D, 2] (.mma true false false 0 1 (.g 4) (.sreg 2)) &&
     reads .matrix [0x04F90809] (.mma true true true 3 2 (.g 16) (.reg (.g 9))) &&
     reads .matrix [0x082082FD, 0x147C0003, 2] (.mmconv true false false 0 1 (.g 5) (.sreg 2) 40 3) &&
     reads .matrix [0x0C083E7C] (.mzero 1 0) && reads .matrix [0x1008087C] (.mload 1 0 (.g 16)) &&
     reads .matrix [0x14008896] (.mstore 0 1 (.g 17) (.reg (.g 22))) && reads .matrix [0x1800037C] (.msave (.g 6)) &&
     reads .matrix [0x1C00037C] (.mrestore (.g 6)) && reads .matrix [0x20000307] (.spk (.g 6) (.reg (.g 7))) &&
     reads .matrix [0x2485087E, 0x1000] (.sghash 4 (.g 20) (.g 16) (.lit 0x1000)) &&
     reads .matrix [0x28008A12, 0x02150002] (.sgbkt .first (.g 21) 1 (.g 20) (.reg (.g 18)) 4 2 0) &&
     reads .matrix [0x2C20887C, 0x02150000] (.sgsum true 1 (.g 16) 4 (.g 21)) &&
     reads .matrix [0x300103FD, 2] (.rolldecl 2 (.g 7) 2)) = true := by decide

/-- Encodings outside the tables (R238): a unary A operand, a reserved FN, an immediate amount of 127, an odd pair, a low bit in
SS, an OP that the class lacks. -/
theorem test_decode_refused :
    (refuses .lane [0x60014086] .illegalOperand && refuses .lane [0xC3000000] .illegalOpcode &&
     refuses .lane [0x245E407F] .illegalOperand && refuses .lane [0xE21E017D, 0, 0] .illegalOpcode &&
     refuses .scalar [0x60000C01] .illegalOperand && refuses .control [0x241F3E7C] .illegalOpcode &&
     refuses .lane [0xC28B0400] .illegalOperand) = true := by decide

/-! ## Small states -/

/-- Whether a check or an operation succeeds. -/
def isOk {ε α : Type} (x : Except ε α) : Bool := match x with | .ok _ => true | .error _ => false

/-- Whether it is the fault of this cause. -/
def faultsWith {α : Type} (x : Except WordOut α) (c : Nat) : Bool :=
  match x with | .error (.fault k _ _) => k == c | _ => false

/-- Whether it is this wait. -/
def waitsFor {α : Type} (x : Except WordOut α) (w : Wait) : Bool :=
  match x with | .error (.wait v _) => decide (v = w) | _ => false

/-- Whether a check fails with this cause. -/
def failsWith {α : Type} (x : Chk α) (c : Nat) : Bool := match x with | .error (k, _) => k == c | .ok _ => false

/-- A launch record: one thread in a bench of width 8, W 120, a raw segment at 0, a T8 segment at 0x2000, user handlers for
causes 0x01 and 0x0D, and capabilities: 0 a mailbox, 1 a queue, 2 a group, 3 a barrier counter. -/
def testRecord : SMap Word :=
  [(7, 1), (8, 0x80000000), (16, 0x78402010), (17, 384), (20, 0x7000), (64, 0x80000000), (65, 0x2000), (68, 0x80002000),
   (69, 0x200), (70, 0x18000000), (256, 0), (257, 0xC01C0000), (258, 3), (259, 0x80030000), (260, 5), (261, 0x90030000),
   (262, 9), (263, 0xA0008000), (386, 0x5000), (387, 0x80000000), (410, 0x6000), (411, 0x80000000)]

/-- A form of that record, running on core 0 of cluster 0. -/
def testForm : Form := { loadForm with rcd := testRecord }

/-- A clause with these words left. -/
def testClause (c : Sys2Proof.Class) (todo : List (Nat × Instr)) : Clause :=
  { va := 0x100, hdr := { loadHeader c todo.length with set := 1 }, todo := todo, temps := [], masks := [], gw := [], sw := [],
    hw := [], nsOr := 0, lats := [], acts := [], next := 0x104, fenced := false, words := todo }

/-- A thread with these g registers and outstanding clauses. -/
def testThread (g : SMap Word) (cs : List Clause) : Thread := { loadThread .lane [] with g := g, clauses := cs }

/-- The machine after reset with that form and that thread. -/
def world (f : Form) (th : Thread) : State := { State.reset with forms := [(0, f)], threads := [(0, th)] }

/-- The machine in which the first thread executes one word of a class next. -/
def inWord (c : Sys2Proof.Class) (i : Instr) (g : SMap Word) : State := world testForm (testThread g [testClause c [(0, i)]])

/-- One thread in a bench of width 64, W 8, and no hall. -/
def smallRecord : SMap Word := [(7, 0x30001), (8, 0x80000000), (16, 0x08000000)]

/-- A launch node of one form, numbered 1. -/
def testNode : Node :=
  { va := 0, fn := 0, ctx := 0, part := [0], kind := 0, body := [0x10000, 0], seq := 0, readyTick := 0, prio := 3, succ := [],
    rcd := smallRecord, forms := 1, fbase := 1, next := 0, retired := 0, aged := 0, pte := 0xF030000000000000 }

/-- A signature of a thread. -/
def sigOf (k : Nat) : Sig := { thread := k, set := 1, a := 0, b := 0, extra := [], ins := .mzero 0 1 }

/-- An MZERO of no rows. -/
def idleOp : MOp :=
  { id := 0, ins := .mzero 0 0, rows := [], a := [], b := [], words := [], writes := [], grp := 0, nextGroup := 0 }

/-- The environment of that word meets a condition. -/
def opened (s : State) (p : Env → Bool) : Bool := (openWord s).any p

/-! ## Witnesses: encoding, steps and commits -/

/-- Any word is open in some state: the hypothesis of the statements that `completes` makes. -/
theorem witness_open_word : opened (inWord .lane .nop []) (fun e => e.i == 0 && e.idx == 0) = true := by decide

theorem witness_HeadersAndWordsAreTheirEncoding :
    (decodeHeader 0x6000009E).isSome = true ∧ (decodeHeader 0xF006009E).isSome = true ∧ decodeHeader 0x0000009E = none ∧
    decodeHeader 0x6007009E = none ∧ decodeHeader 0x6000019E = none ∧ decodeHeader 0x6000009F = none ∧
    isOk (decodeWords .lane [0x0C1E007E, 3, 5]) = true := by decide

theorem witness_Encoded :
    (Instr.wf (.ld .d (.g 118) (.g 119) (-256)) && (classesOf (.ld .d (.g 118) (.g 119) (-256))).contains .pier &&
     Instr.wf (.cpy 63 .z 376) && (classesOf (.cpy 63 .z 376)).contains .copy && Instr.wf (.leaScalar 4 383 (.lit 0)) &&
     (classesOf (.leaScalar 4 383 (.lit 0))).contains .scalar) = true := by decide

/-- A word of a clause alone. -/
def itemOf (c : Sys2Proof.Class) (ws : List Word) : Item :=
  match cutWords c 1 0 ws with
  | some (x :: _) => x
  | _ => { idx := 0, w0 := 0, w1 := 0, ext := 0, listed := false }

theorem witness_IllegalWordsAreRefused :
    ((itemOf .lane [0x00000000]).listed = false ∧ (itemOf .lane [0xE4000000]).listed = false ∧
     field (0xE4000000 : Word) 31 26 = 0x39) ∧
    ((itemOf .lane [0x60414086]).listed = true ∧ field (itemOf .lane [0x60414086]).w0 25 21 = 2 ∧
     field (itemOf .lane [0x60014086]).w0 13 7 = 1 ∧ field (itemOf .lane [0x18214307]).w0 25 21 = 1) ∧
    (Rec.scalars testRecord = 384 ∧ namesS (.movScalar 383 (.s 3)) = [383, 3] ∧ namesG (.mov (.g 119) (.reg (.g 8))) = [119, 8] ∧
     destG (.mov (.g 119) (.reg (.g 8))) = [119]) := by decide

theorem witness_IllegalWordsAreRefused_operands :
    let few := { testForm with rcd := [(17, 3)] }
    let th := { testThread [] [] with w := 8, place := [(5, .core)] }
    let fate := fun (c : Sys2Proof.Class) (ws : List Word) =>
      match wordCheck few th c (itemOf c ws) with | .error x => some x | .ok _ => none
    isOk (decodeItem .scalar (itemOf .scalar [0x60000018])) = true ∧ fate .scalar [0x60000018] = some (0, 0x04) ∧
    fate .lane [0x60003E08] = some (0, 0x06) ∧ fate .lane [0x60017E07] = some (0, 0x05) ∧ fate .lane [0x60013E07] = none ∧
    fate .lane [0xE07E8202, 0x00120000] = some (1, 0x06) ∧
    fate .matrix [0x28000101, 0x00040000] = some (1, 0x05) ∧ fate .matrix [0x28000101, 0x00080000] = some (1, 0x06) := by decide

theorem witness_StepFollowsTheAgenda :
    (let s := inWord .lane (.mov (.g 4) (.reg (.g 5))) []
     s.asyncTrap 0 = none ∧ s.canCommit 0 = false ∧ (∀ th, (testThread [] [testClause .lane [(0, .nop)]] = th) → th.canRun 0 = true) ∧
     opened { s with curAt := some 0 } (fun e => e.i == 0 && e.idx == 0 && e.cl.todo.length == 1) = true) ∧
    isEvent .epochBoundary = true ∧ State.reset.agenda = [] := by
  refine ⟨⟨by decide, by decide, fun th h => ?_, by decide⟩, by decide, by decide⟩
  subst h; decide

/-- A clause of the lanes behind one of a pier with words left: both may run, but not where it names a register of the pier. -/
theorem witness_StepFollowsTheAgenda_places :
    let th := fun (i : Instr) => { testThread [] [testClause .pier [(0, .nop)], testClause .lane [(0, i)]] with place := [(9, .pier)] }
    (th (.mov (.g 4) (.reg (.g 5)))).canRun 1 = true ∧ (th (.mov (.g 4) (.reg (.g 9)))).canRun 1 = false := by decide

/-- Of three eligible threads, two in one lane, the issue stage takes the older of those and the other. -/
theorem witness_StepFollowsTheAgenda_rounds :
    let th := fun (age lane : Nat) => { testThread [] [] with age := age, lane := lane }
    let es := [(0, th 5 0), (1, th 9 0), (2, th 1 3)]
    (oldestOf es).map (·.1) = some 1 ∧ (issueRounds es 4 []).map (·.1) = [1, 2] := by decide +kernel

theorem witness_StepFollowsTheAgenda_issues :
    (State.reset.withFetchWord 32 0x04214307).issues = [0] ∧ (State.reset.withFetchWord 32 0x04214307).clock % 2 = 0 := by decide +kernel

/-- What a dispatch finds: the words of the clause, the checks of their operands, and nothing that holds it back. -/
def dispatches (s : State) : Bool :=
  match Tab.find? 0 s.threads with
  | none => false
  | some th =>
    match Tab.find? th.form s.forms with
    | none => false
    | some fm =>
      match s.fetch th.core fm.ctx th.pc.toNat 1 with
      | (s1, some [hw]) =>
        match decodeHeader hw with
        | none => false
        | some h =>
          match s1.fetch th.core fm.ctx (addWords th.pc 1).toNat h.count with
          | (s2, some ws) =>
            match cutClause h ws with
            | none => false
            | some items =>
              match wordChecks fm th h.cls items with
              | .ok l => th.clauses.isEmpty && th.mayDispatch fm s.clock && !th.parkedBySw && (s.asyncTrap 0).isNone &&
                  roleAllows (Rec.role fm.rcd th.bench) h.cls && (s2.breakAt th fm.ctx h.count).isNone &&
                  (dispatchWait th h l).isNone && !l.isEmpty
              | .error _ => false
          | _ => false
      | _ => false

theorem witness_StepRunsTheDecodedInstruction : dispatches (State.reset.withFetchWord 32 0x04214307) = true := by decide

theorem witness_ResultsAreBuffered :
    let c := { testClause .lane [] with gw := [(5, 7)], temps := [(1, 9)] }
    let th := testThread [(5, 1)] [c, testClause .lane []]
    SMap.wf 0 c.temps = true ∧ th.clauses[0]? = some c ∧ c.gw.lookup 5 = some 7 ∧ c.gw.lookup 6 = none ∧ SMap.wf 0 th.g = true := by
  decide

/-- A clause whose words have all executed. -/
def executed : Clause :=
  { testClause .lane [] with gw := [(5, 7)], hw := [{ addr := 8, bytes := [1, 2, 3, 4], tag := .full }] }

theorem witness_ClauseCommitsTogether :
    let s := world testForm (testThread [] [executed])
    (Tab.find? 0 s.threads).any (fun th => decide (th.status = .live) && !th.step && th.pending.isNone &&
      ((world testForm th).commitWait 0 th testForm executed).isNone && executed.recsHold testForm th && executed.acts.isEmpty && decide (executed.hdr.cls ≠ .copy)) = true := by decide

/-- A store to a word that another thread holds reserved; two writes of an s register of a bench, of which the second was
issued later; a record register that has changed; and a barrier whose phase a store completes, with a thread that waits. -/
theorem witness_ClauseCommitsTogether_waits :
    let th := testThread [] [executed]
    let f := { testForm with resv := [(2, 1)] }
    (executed.hw.any (fun x => (wordsOfSpan x.addr x.bytes.length).any (fun w => f.heldByOther 0 (4 * w)))) = true ∧
    (let b := { testForm.bench 0 with last := [(4, 1)] }
     SMap.wf 0 b.s = true ∧ SMap.wf 0 b.last = true ∧ SMap.get 0 4 b.last ≤ 2 ∧ ((b.put1 3 4 9).put1 2 4 7).s = [(4, 9)]) ∧
    ({ executed with recs := [(8, 1)] } : Clause).recsHold testForm th = false ∧
    (let w := { thread := 0, kind := .barrier, addrs := [8], done := true }
     ({ testForm with waiters := [w] } : Form).waitDone 0 = true ∧ testForm.waitDone 0 = false) := by decide

/-- A clause of SCALAR stores, of a CPYG and of a CPYS, behind the same clause of a thread with a lower bench-lane. -/
theorem witness_ClauseCommitsTogether_bundle :
    let store := { testClause .scalar [] with hw := [{ addr := 8, bytes := [1, 2, 3, 4], tag := .full }] }
    let copy := fun (a : CommitAct) => { testClause .copy [] with acts := [a] }
    [store, copy (.copy [0] (.gather 8 8 16)), copy (.scatter 0 8 8 16)].all (fun c =>
      let th := { testThread [] [c] with blane := 1, lane := 1 }
      let s := { world testForm th with threads := [(0, th), (1, { testThread [] [c] with tid := 1 })] }
      s.bundleHeld th c && !s.bundleHeld (testThread [] [c]) c && c.recsHold testForm th) = true ∧
    store.acts = [] ∧ testForm.resv = [] := by decide +kernel

theorem witness_ControlActsAtCommit :
    let th := testThread [(5, 1)] []
    Tab.find? 0 (world testForm th).threads = some th ∧ Tab.find? 0 (world testForm th).forms = some testForm ∧
    SMap.wf 0 th.g = true ∧ SMap.wf .lane th.place = true ∧ testForm.phase ≠ .yielding ∧
    ({ testForm with phase := .yielding } : Form).phase = .yielding := by decide

/-! ## Witnesses: traps -/

/-- A peer that runs and one that has retired; messages that wait; a counter; an image that may be inserted and one that may
not. -/
theorem witness_ControlActsAtCommit_channels :
    let node : Node := { testNode with forms := 2, fbase := 0, next := 2, retired := 1 }
    let s := { world { testForm with node := 5 } (testThread [] []) with nodes := [(5, node)] }
    capKind (Rec.cap [(257, 0xB01C0000)] 0) = 3 ∧ capKind (Rec.cap testForm.rcd 0) = 4 ∧
    s.peerRetired 5 1 = true ∧ s.peerRetired 5 0 = false ∧
    Tab.getD [] 3 [(3, [({ words := [7], sender := some (0, 1) } : Msg)])] = { words := [7], sender := some (0, 1) } :: [] := by
  decide +kernel

/-- The words of CPYS are poisoned, or are not; a context without operations; a core with one. -/
theorem witness_ControlActsAtCommit_engines :
    let th := testThread [] []
    (∃ w ∈ wordsOfSpan 8 8, ({ testForm with tags := [(3, .poisoned)] } : Form).tag (4 * w) = .poisoned) ∧
    (∀ w ∈ wordsOfSpan 8 8, testForm.tag (4 * w) ≠ .poisoned) ∧
    testForm.ctxs[testForm.fcOf th.core]? = some MCtx.reset ∧ MCtx.reset.ops = [] ∧ MCtx.reset.frozen = none ∧ [3, 4].Nodup := by
  decide

theorem witness_TrapEntry :
    let th := testThread [] []
    Tab.find? 0 (world testForm th).threads = some th ∧ Tab.find? 0 (world testForm th).forms = some testForm ∧
    th.trapState = false ∧ ({ th with trapState := true } : Thread).trapState = true ∧ Rec.trapUser testForm.rcd 0x01 = true ∧
    Rec.trapUser testForm.rcd 0x07 = false := by decide

theorem witness_FaultDiscardsTheClause :
    let th := testThread [] [executed, testClause .lane [(0, .nop)]]
    Tab.find? 0 (world testForm th).threads = some th ∧ Tab.find? th.form (world testForm th).forms = some testForm ∧
    th.clauses.take 1 ≠ [] ∧ th.clauses.take 0 = [] ∧ (∀ c ∈ th.clauses, c.fenced = false ∧ ∀ w ∈ c.words, meets w.2 = false) ∧
    ({ testClause .lane [(0, .ldfe (.g 8) (.g 7) 0)] with fenced := true } : Clause).fenced = true ∧ meets .join = true ∧
    (let o := { idleOp with ins := .mma true false false 0 1 .z (.reg .z), rows := [(0, sigOf 0), (1, sigOf 1)], words := [[1], [2]] }
     o.words.length = o.rows.length ∧ isProduct o.ins = true ∧ (o.without 0).words = [[2]]) := by decide

/-- The discarded clause of one signer, and the clause of another that holds its map word in a temporary. -/
theorem witness_FaultDiscardsTheClause_signers :
    let gone := { testClause .matrix [] with fenced := true, lats := [{ tok := none, dst := .none, val := 0, kind := .matrix 5 }] }
    let kept := { testClause .matrix [(0, .sgbkt .first (.t 0) 1 (.g 6) (.lit 8) 4 2 0)] with signed := [(0, 5)] }
    gone.fenced = true ∧ opsOf [gone] = [5] ∧ kept.keepsMap [5] = true ∧ kept.keepsMap [6] = false := by decide

theorem witness_TrapInstructionAndReturn :
    opened (inWord .control (.trap (.lit 5)) []) (fun e => e.i == 0 && e.th.lats.isEmpty && !e.th.trapState &&
      Rec.trapUser e.fm.rcd 0x0D) = true ∧
    opened (world testForm { testThread [] [testClause .control [(0, .rett false)]] with trapState := true })
      (fun e => e.th.trapState) = true := by decide

theorem witness_TrapReturnNext :
    let s0 := State.reset.withFetchWord 32 0x941F3E7C
    let s := { s0 with threads := [(0, { testThread [] [testClause .control [(0, .rett true)]] with trapState := true })] }
    opened s (fun e => e.th.trapState && (match s.fetch e.th.core e.fm.ctx e.th.tpcVA.toNat 1 with
      | (_, some [_]) => true | _ => false)) = true := by decide

/-! ## Witnesses: values and memory -/

/-- The word's clause is the second outstanding one. -/
def behind (c : Sys2Proof.Class) (i : Instr) (g : SMap Word) : State :=
  world testForm (testThread g [testClause .lane [], testClause c [(0, i)]])

theorem witness_FloatingPointArithmetic :
    let v := fun (x y : Word) => fpAdd .rn x y
    ((v 0x3F800000 0x40000000).2.getLsbD 0 = false ∧ (v 0x3F800000 0x40000000).2.getLsbD 1 = false) ∧
    (v 0x7F800000 0xFF800000).2.getLsbD 0 = true ∧ (v 0x7F7FFFFF 0x7F7FFFFF).2.getLsbD 1 = true := by decide

theorem witness_FloatingPointSelection :
    isNaN 0x3F800000 = false ∧ isNaN 0x7FC00001 = true ∧ (0x7F800000 : Word).toNat % 2 ^ 31 = 0x7F800000 ∧
    (match valOfFP32 0x3F000000 with | .fin s m e => roundToInt .rn s m e == 0 | _ => false) = true ∧
    (match valOfFP32 0x3FC00000 with | .fin s m e => roundToInt .rn s m e == 2 | _ => false) = true := by decide

theorem witness_HallOperandsAndWeightWindow :
    opened (inWord .pier (.bfma false (.g 40) (.g 41) (.reg (.g 42))) [(41, 0x2000)]) (fun e =>
      isOk (e.hall .load (e.reg (.g 41)) 4) && faultsWith (e.hall .load 0x1FFE 4) 0x08 && faultsWith (e.hall .load 0x2800 4) 0x07) = true ∧
    (let f := { testForm with rcd := [(24, 1)] }
     isOk (windowCheck (world f (testThread [] [])) f 0xFFFC 4) = true ∧
     failsWith (windowCheck (world f (testThread [] [])) f 0xFFFA 4) 0x08 = true ∧
     failsWith (windowCheck (world f (testThread [] [])) f 0xFFFE 4) 0x07 = true ∧
     failsWith (windowCheck (world f (testThread [] [])) f 0x10000 4) 0x07 = true ∧ windowExtent f = 0x10000 ∧
     Rec.wformat f.rcd = 0) := by decide

/-- BFMA's word is reserved for another; a weight window of T8 with geometry 1: an access of another width, and an element
whose scale byte alone lies in a failed unit. -/
theorem witness_HallOperandsAndWeightWindow_waits :
    opened (world { testForm with resv := [(2, 1)] } (testThread [(41, 8)] [testClause .pier [(0, .bfma false (.g 40) (.g 41) (.reg (.g 42)))]]))
      (fun e => match hallCheck e.fm .load 8 4 with
        | .ok h => (h.span e.fm .load 4).any (fun o => e.fm.heldByOther e.k o) | _ => false) = true ∧
    (let f := { testForm with rcd := [(24, 0x19000001)] }
     let s := world f (testThread [] [])
     2 ≤ Rec.wformat f.rcd ∧ Rec.wgeom f.rcd ≠ 0 ∧ failsWith (windowCheck s f 0 2) 0x08 = true ∧ isOk (windowCheck s f 0x7C 4) = true ∧
     failsWith (windowCheck { s with bad := [(2 ^ 51 / 32, true)] } f 0x7C 4) 0x0F = true ∧
     elemReads 3 (Rec.wgeom f.rcd) (windowBytes s f) 31 = [33, 17]) := by decide +kernel

theorem witness_SpecialFunctions :
    isNaN 0x7FC00000 = true ∧ isNaN 0x3F800000 = false ∧ rcpList 0x40000000 ≠ [] ∧
    (match valOfFP32 0x00800000 with | .fin _ m e => decide (m = 2 ^ 23 ∧ e = -149) | _ => false) = true := by decide

theorem witness_ActivationTableLoad :
    opened (inWord .core (.actld 2 (.g 6)) [(6, 0x20)]) (fun e => isOk (e.rawImage (e.reg (.g 6)) 2064 16 true) &&
      faultsWith (e.rawImage 0x28 2064 16 true) 0x08) = true ∧
    imageOk 0x3F800000 64 = true ∧ imageOk 0x7F800000 0 = false ∧ imageOk 0 65 = false := by decide +kernel

theorem witness_ActivationTableLoad_completes :
    let l : BankLoad := { op := 0, bank := 1, image := [], form := 0 }
    let s := { State.reset with cores := [(0, { Core.reset with loads := [l] })] }
    (s.core 0).loads = [l] := by decide

/-- A load behind an ACTLD that issued before it and has not committed. -/
theorem witness_ActivationTableLoad_waits :
    let l : BankLoad := { op := 0, bank := 1, image := [], form := 0, seq := 1 }
    let s := fun (n : Nat) => world testForm (testThread [] [{ testClause .core [(0, .actld 2 (.g 6))] with seq := n }])
    (s 0).loadBehind 0 l = true ∧ (s 2).loadBehind 0 l = false := by decide

theorem witness_LoadsFromTheHall :
    opened (inWord .lane (.ld .w (.g 5) (.g 6) 0) [(6, 0x1FFC)]) (fun e =>
      isOk (e.hall .load (effAddr (e.reg (.g 6)) 0 4) 4) && isOk (e.hall .load (e.ssrc (.lit 8)) 8) &&
      faultsWith (e.hall .load (effAddr 0x2700 64 4) 4) 0x07) = true ∧
    opened (world { testForm with resv := [(2, 1)] } (testThread [(6, 8)] [testClause .lane [(0, .ld .w (.g 5) (.g 6) 0)]]))
      (fun e => waitsFor (e.hall .load (effAddr (e.reg (.g 6)) 0 4) 4) .reservation) = true := by decide

/-- The same of a SCALAR load, and a view of tapered elements. -/
theorem witness_LoadsFromTheHall_scalar :
    opened (world { testForm with resv := [(2, 1)] } (testThread [] [testClause .scalar [(0, .ldScalar .w 5 (.lit 8))]])) (fun e =>
      waitsFor (e.hall .load (e.ssrc (.lit 8)) 4) .reservation && faultsWith (e.hall .load (e.ssrc (.lit 0x1FFE)) 4) 0x08 &&
      failsWith (hallCheck e.fm .load 0x1FFE 4) 0x08 && isOk (e.hall .load 0x2000 4) &&
      (resolve e.fm.rcd 0x2000).any (fun h => expanded h.seg.fmt)) = true ∧
    spKept 0 0 1 = none ∧ SMap.wf 0 testForm.hall = true ∧ SMap.wf .empty testForm.tags = true := by decide

theorem witness_HallAccessChecks :
    let f := { testForm with tags := [(2, .object), (3, .poisoned)] }
    firstOutside f.rcd 0x2000 4 = none ∧ firstOutside f.rcd 0x27FE 4 = some 0x2800 ∧ (resolve f.rcd 0x2000).isSome = true ∧
    failsWith (hallCheck f .load 6 4) 0x08 = true ∧ failsWith (hallCheck f .atomic 0x2000 4) 0x08 = true ∧
    failsWith (hallCheck f .store 8 4) 0x09 = true ∧ isOk (hallCheck f .load 8 4) = true ∧
    failsWith (hallCheck f .load 12 4) 0x0F = true ∧ failsWith (hallCheck f .store 12 2) 0x0F = true ∧
    isOk (hallCheck f .store 12 4) = true ∧ isOk (hallCheck f .load 0x27FC 4) = true := by decide

theorem witness_StoresToTheHall :
    opened (inWord .lane (.st .w (.g 5) (.g 6) 0) [(6, 0x1FFC)]) (fun e =>
      (match e.hall .store (effAddr (e.reg (.g 6)) 0 4) 4 with | .ok h => !expanded h.seg.fmt | _ => false) &&
      isOk (e.hall .store (e.ssrc (.lit 0x2004)) 4) && faultsWith (e.hall .store (effAddr (e.reg (.g 6)) 0 2) 8) 0x08) = true ∧
    opened (world { testForm with resv := [(2, 1)] } (testThread [(6, 8)] [testClause .lane [(0, .st .w (.g 5) (.g 6) 0)]])) (fun e =>
      (match hallCheck e.fm .store 8 4 with
       | .ok h => (h.span e.fm .store 4).any (fun o => e.fm.heldByOther e.k o) | _ => false) &&
      (resolve e.fm.rcd 0x2000).any (fun h => expanded h.seg.fmt)) = true ∧
    (match valOfFP32 0x3F800000 with | .fin s _ _ => !s | _ => false) = true := by decide

theorem witness_FullEmptyAccesses :
    opened (inWord .lane (.stfe (.g 5) (.g 6) 0) [(6, 8)]) (fun e => e.i == 0 &&
      isOk (hallCheck e.fm .atomic (effAddr (e.reg (.g 6)) 0 4).toNat 4) && e.fm.waiters.isEmpty && e.fm.resv.isEmpty &&
      decide (e.fm.tag 8 = .empty) && failsWith (hallCheck e.fm .atomic (effAddr (e.reg (.g 6)) 1 3).toNat 4) 0x08) = true ∧
    ({ testForm with tags := [(2, .full)] } : Form).tag 8 = .full := by decide

/-- A word that is full: with this thread first in its queue, behind another, reserved for it, and reserved for another. -/
theorem witness_FullEmptyAccesses_queue :
    let w := fun (t : Nat) => ({ thread := t, kind := .ldfe, addrs := [2] } : Waiter)
    let f := fun (ws : List Waiter) (r : List (Nat × Nat)) => { testForm with tags := [(2, .full)], waiters := ws, resv := r }
    let at_ := fun (g : Form) (p : Env → Bool) =>
      opened (world g (testThread [(6, 8)] [testClause .lane [(0, .ldfe (.g 5) (.g 6) 0)]])) (fun e => e.i == 0 && p e)
    at_ (f [w 0] []) (fun e => e.fm.waiters.all (fun x => x.addrs.contains 2 == (x.thread == e.k)) && e.fm.resv.isEmpty) = true ∧
    at_ (f [w 1] []) (fun e => (e.fm.waiters.find? (fun x => decide (x.kind = .ldfe) && x.addrs.contains 2)).any (fun x => x.thread != e.k)) =
      true ∧
    at_ (f [] [(2, 0)]) (fun e => e.fm.resv.contains (2, e.k)) = true ∧
    at_ (f [] [(2, 1)]) (fun e => e.fm.resv.any (fun r => r.1 == 2) && !e.fm.resv.contains (2, e.k)) = true ∧
    opened (behind .lane (.ldfe (.g 5) (.g 6) 0) []) (fun e => e.i != 0) = true := by decide

theorem witness_AtomicReadModifyWrite :
    opened (inWord .lane (.atom .addI (.g 5) (.g 6) (.reg (.g 7))) [(6, 8)]) (fun e => e.i == 0 &&
      isOk (hallCheck e.fm .atomic (e.reg (.g 6)).toNat 4) && isOk (e.reserve [2]) &&
      failsWith (hallCheck e.fm .atomic 0x2000 4) 0x08) = true ∧
    opened (world { testForm with resv := [(2, 1)] } (testThread [] [testClause .lane [(0, .cas (.g 5) (.g 6) (.reg (.g 7)))]]))
      (fun e => waitsFor (e.reserve [2]) .reservation) = true ∧
    opened (world { testForm with waiters := [{ thread := 1, kind := .reserve, addrs := [2] }] }
      (testThread [] [{ testClause .lane [(0, .cas (.g 5) (.g 6) (.reg (.g 7)))] with seq := 1 }]))
      (fun e => e.fm.waiters.any (fun x => x.thread != e.k && decide (x.seq < e.cl.seq) && x.addrs.contains 2)) = true ∧
    resvReg (.atom .addI (.g 5) (.g 6) (.reg (.g 7))) = some (.g 6) ∧ resvReg .nop = none ∧
    Reg.t 0 ∈ [Instr.mov (.t 0) (.reg (.g 6))].flatMap destRegs := by decide

/-- An address of a later ATOM that a LEA computes from registers, and one that the first ATOM's answer gives. -/
theorem witness_AtomicReadModifyWrite_hoists :
    let at_ := fun (d : Reg) => world testForm (testThread [(6, 8)] [testClause .lane
      [(0, .atom .addI d (.g 6) (.reg (.g 7))), (1, .mov (.t 0) (.reg (.g 8))), (2, .atom .addI (.g 5) (.t 0) (.reg (.g 7)))]])
    opened (at_ (.g 5)) (fun e => e.hoist.isSome) = true ∧ opened (at_ (.t 0)) (fun e => e.hoist.isNone) = true ∧
    opened (inWord .lane (.atom .addI (.g 5) (.g 6) (.reg (.g 7))) []) (fun e => e.hoist.isNone &&
      e.cl.todo.tail.all (fun x => !computes x.2)) = true := by decide

/-- A bench of one live thread whose s0 holds a mask. -/
def masked (m : Word) (i : Instr) : State :=
  world { testForm with benches := [{ seat := { core := 0, row := 0, lane := 0 }, s := [(0, m)], meets := [] }] }
    (testThread [(6, 9)] [testClause .lane [(0, i)]])

theorem witness_CrossLaneResults :
    opened (masked 1 (.xmatch (.g 5) (.g 6) 0)) (fun e0 => let e := e0.keepMasks
      maskOk (Rec.width e.fm.rcd) e.th.blane (e.mask 0) &&
      (match e.meeting .cross (e.mask 0) (e.reg (.g 6)) with
       | .ok (_, got) => got == [(0, 9)] && (got.lookup e.th.blane).getD 0 == 9 | _ => false)) = true ∧
    [((0 : Nat), (9 : Word))].Pairwise (fun p q => p.1 < q.1) := by decide

theorem witness_MeetingsAndMasks :
    opened (masked 0x100 (.xmatch (.g 5) (.g 6) 0)) (fun e0 => decide (2 ^ Rec.width e0.fm.rcd ≤ (e0.keepMasks.mask 0).toNat)) = true ∧
    opened (masked 0x80 (.xmatch (.g 5) (.g 6) 0)) (fun e0 => !(e0.keepMasks.mask 0).getLsbD e0.th.blane) = true ∧
    opened (inWord .control .join []) (fun e =>
      (match e.meeting .join (BitVec.ofNat 64 (2 ^ Rec.width e.fm.rcd - 1)) 0 with | .ok _ => true | _ => false)) = true := by decide

theorem witness_MeetingsAndMasks_waits :
    let th := testThread [] [testClause .control [(0, .join)]]
    let s := { world { testForm with rcd := (7, 2) :: testRecord } th with
      threads := [(0, th), (1, { th with tid := 1, blane := 1, lane := 1, clauses := [] })] }
    opened s (fun e => waitsFor (e.meeting .join (BitVec.ofNat 64 (2 ^ Rec.width e.fm.rcd - 1)) 0) .join &&
      s.laneLive e.th.form e.fm 0 1) = true := by decide

/-! ## Witnesses: control -/

theorem witness_WaitingAndLeaving :
    opened (inWord .control .exit []) (fun e => e.i == 0 && e.th.lats.isEmpty && decide (e.th.wait = .none)) = true ∧
    opened (behind .control .exit []) (fun e => e.i != 0) = true ∧
    ({ testThread [] [] with lats := [{ tok := some 0, dst := .g 1, val := 0, kind := .value }] } : Thread).lats ≠ [] ∧
    (State.reset.cluster 0).cyc = 0 ∧
    opened (world testForm (testThread [] [{ testClause .control [(0, .sleep (.lit 1))] with wait := .sleep 0 }]))
      (fun e => decide (e.cl.wait = .sleep 0)) = true := by decide

/-- A load outstanding before a FENCE that acquires, and an MSTORE before one that releases. -/
theorem witness_WaitingAndLeaving_fences :
    let lat := fun (k : LatKind) => ({ tok := some 0, dst := .none, val := 0, kind := k } : Machine.Lat)
    let op := { idleOp with ins := .mstore 0 1 (.g 4) (.lit 0) }
    let at_ := fun (k : LatKind) => world { testForm with ctxs := [{ MCtx.reset with ops := [op] }] }
      { testThread [] [testClause .control [(0, .fence .acqRel .form)]] with lats := [lat k] }
    opened (at_ .value) (fun e => e.i == 0 && e.th.lats.any (fun l => decide (l.kind = .value))) = true ∧
    opened (at_ (.matrix 0)) (fun e => e.i == 0 && e.th.lats.all (fun l => decide (l.kind ≠ .value)) &&
      e.fm.ctxs.any (fun c => c.ops.any (fun x => storesMemory x.ins && e.th.lats.any (fun l => decide (l.kind = .matrix x.id))))) = true := by
  decide

/-- The same machine whose first thread has an MSTORE in flight. -/
def storing (s : State) : State :=
  (s.modForm 0 (fun f => { f with ctxs := [{ MCtx.reset with ops := [{ idleOp with ins := .mstore 0 1 (.g 4) (.lit 0) }] }] })).modThread 0
    (fun th => { th with lats := [{ tok := some 0, dst := .none, val := 0, kind := .matrix 0 }] })

/-- An STFE of an empty word that waits for it. -/
theorem witness_FullEmptyAccesses_storing :
    opened (storing (inWord .lane (.stfe (.g 5) (.g 6) 0) [(6, 8)])) (fun e => e.i == 0 && !e.storesDone &&
      isOk (hallCheck e.fm .atomic (effAddr (e.reg (.g 6)) 0 4).toNat 4)) = true ∧
    opened (inWord .lane (.stfe (.g 5) (.g 6) 0) [(6, 8)]) (·.storesDone) = true := by decide

theorem witness_RegisterWindow :
    opened (inWord .control (.place 8 .core) []) (fun e => e.i == 0 && decide (pendingMap e.th e.cl.acts = ([], 120)) &&
      e.th.quiet 8 9 && decide (countAt [] 120 .core < allotOf e.fm.rcd .core) && e.th.quiet 112 120 &&
      decide (e.s.laneUsed e.th.core e.th.lane ≤ 1792)) = true ∧
    opened (world testForm { testThread [] [testClause .control [(0, .grow (.g 5) (.lit 8))]] with w := 8 }) (fun e =>
      decide (pendingMap e.th e.cl.acts = ([], 8)) && decide (e.s.laneUsed e.th.core e.th.lane + 112 ≤ 1792) &&
      !e.s.olderGrow e.th.core e.th.lane e.s.clock e.k) = true ∧
    allotOf [(16, 0x78002010)] .core ≤ countAt [] 120 .core := by decide

theorem witness_RegisterWindow_full_lane :
    let th := { testThread [] [testClause .control [(0, .grow (.g 5) (.lit 112))]] with w := 8 }
    let other := { testThread [] [] with form := 1, clauses := [] }
    let s := { world testForm th with
      forms := [(0, testForm), (1, testForm)],
      threads := (0, th) :: (List.range 15).map (fun n => (4096 + n, { other with tid := n })) }
    opened s (fun e => decide (1792 < e.s.laneUsed e.th.core e.th.lane + 112)) = true := by decide

/-- A result outstanding in the register to be placed, and a GROW that waits behind an older one of its lane. -/
theorem witness_RegisterWindow_waits :
    let busy := { testThread [] [] with lats := [{ tok := some 0, dst := .g 8, val := 0, kind := .value }] }
    busy.quiet 8 9 = false ∧ busy.quiet 112 120 = true ∧ opened (behind .control (.place 8 .core) []) (fun e => e.i != 0) = true ∧
    (let th := fun (n : Nat) =>
       { testThread [] [{ testClause .control [(0, .grow (.g 5) (.lit 8))] with wait := .grow n }] with w := 8 }
     let s := { world testForm (th 4) with threads := [(0, th 4), (1, { th 3 with row := 1, tid := 1 })] }
     opened s (fun e => decide (e.cl.wait = .grow 4) && s.olderGrow e.th.core e.th.lane 4 e.k) = true) := by decide

theorem witness_SpecialRegisters :
    opened (inWord .control (.wrsr .prio (.lit 127)) []) (fun e => decide ((e.src (.lit 127)).toNat < 128) &&
      decide (128 ≤ (e.src (.lit 128)).toNat) && e.i == 0) = true ∧ opened (behind .control (.rdsr (.g 5) 0) []) (fun e => e.i != 0) = true := by
  decide

theorem witness_LaunchBindAndChunks :
    opened (inWord .control (.bind (.g 10) (.reg (.g 11)) (.g 12) .ring 1) [(10, 8), (11, 0x1FF8), (12, 16), (13, 3)]) (fun e =>
      (findSeg e.fm.rcd (e.reg (.g 10)).toNat).any (fun g => decide ((e.reg (.g 10)).toNat + (e.src (.reg (.g 11))).toNat ≤ g.base + g.extent)) &&
      (findSeg e.fm.rcd (e.reg (.g 12)).toNat).isSome) = true ∧
    isOk (objAt { testForm with tags := (List.range 8).map (fun n => (n, Tag.object)), objs := [(0, .bitmap)] } .bitmap 0 32 32) = true ∧
    failsWith (objAt testForm .bitmap 0 32 32) 0x04 = true := by decide

/-- BIND of no bytes, of a range outside every segment, past one, and misaligned; a guard without a counter. -/
theorem witness_LaunchBindAndChunks_faults :
    findSeg testRecord 0x700000 = none ∧ (findSeg testRecord 0x1FFC).any (fun g => decide (g.base + g.extent < 0x1FFC + 8)) = true ∧
    (findSeg testRecord 0x1FF6).any (fun g => decide (0x1FF6 + 8 ≤ g.base + g.extent)) = true ∧
    faultsWith (capCheck testRecord 0 State.reset.counterOk) 0x0A = true ∧
    (GKind.ring ≠ .none ∧ GKind.ring ≠ .chbar) ∧ (findSeg testRecord 0x12).isSome = true ∧ 0x12 % 4 ≠ 0 ∧
    failsWith (objCheck testForm 0x1FC0 128 128 false) 0x08 = true ∧ failsWith (objAt testForm .bitmap 0 32 32 true) 0x04 = true := by decide

/-- A LAUNCH whose image another clause holds, whose copies are not done, and whose translation misses. -/
theorem witness_LaunchBindAndChunks_launch_waits :
    let th := testThread [(6, 0x80), (8, 0x100)] [testClause .control [(0, .launch (.g 5) (.g 6) 8)]]
    let s := world { testForm with resv := [(0x20, 1)] } th
    opened s (fun e => e.i == 0 && isOk (objCheck e.fm 0x80 128 128 false) && e.fm.heldByOther e.k 0x80 && s.copiesDone 0 e.k &&
      (match s.xlat1 e.th.core e.fm.ctx 0x100 .probe with | (_, none) => true | _ => false)) = true ∧
    ((s.modCluster 0 (fun c => { c with queues := [(0, [{ id := 0, thread := 0, form := 0, started := false, kind := .qfence [0] }])] })).copiesDone
      0 0) = false := by decide

theorem witness_LaunchBindAndChunks_counter :
    let s := { inWord .control (.bind (.g 10) (.reg (.g 11)) (.g 12) .chbar 1) [(12, 3)] with
      counters := [(9, { target := 1, phase := 0, arrived := 0, devices := [], clStart := 0, coreStart := [], order := [] })] }
    opened s (fun e => isOk (capCheck e.fm.rcd (e.reg (.g 12)).toNat s.counterOk)) = true := by decide

theorem witness_LaunchBindAndChunks_launch :
    let s := { State.reset.withFetchWord 32 0x941F3E7C with
      forms := [(0, testForm)], threads := [(0, testThread [(6, 0x80), (8, 0x100)] [testClause .control [(0, .launch (.g 5) (.g 6) 8)]])] }
    opened s (fun e => e.i == 0 && isOk (objCheck e.fm (e.reg (.g 6)).toNat 128 128 false) && s.copiesDone e.fm.cluster e.k &&
      (List.range 32).all (fun i => !e.fm.heldByOther e.k (0x80 + 4 * i)) && e.pair 8 % 2 ^ 64 % 128 == 0 &&
      imgKind (List.replicate 32 0) != 2 && imgKind (2 :: List.replicate 31 0) == 0 &&
      (match s.xlat1 e.th.core e.fm.ctx 0x100 .probe with
       | (_, some p) => pteType p.pte == 0 && !pteWr p.pte | _ => false)) = true := by decide

/-! ## Witnesses: barriers, rings and channels -/

/-- The test form with an object of a kind at hall address 32, whose words hold these values. -/
def withObject (k : ObjKind) (ws : List Word) : Form :=
  (testForm.write { addr := 32, bytes := ws.flatMap bytesOfWord, tag := .object k })

/-- One word of a class in a form with that object; g6 is the object's address. -/
def atObject (k : ObjKind) (ws : List Word) (i : Instr) (g : SMap Word) : State :=
  world (withObject k ws) (testThread ((6, 32) :: g) [testClause .control [(0, i)]])

theorem witness_Barriers :
    opened (inWord .control (.barinit (.g 6) (.lit 1)) [(6, 8)]) (fun e => e.i == 0 && isOk (objCheck e.seen (e.reg (.g 6)).toNat 8 8 false) &&
      isOk (e.reserve [2, 3])) = true ∧
    opened (atObject .barrier [0, 1] (.bararr false (.g 5) (.g 6)) []) (fun e =>
      isOk (objAt e.seen .barrier (e.reg (.g 6)).toNat 8 8) && isOk (e.reserve [8, 9]) && !e.fm.heldByOther e.k 32 &&
      phaseDone 16 (phaseOf (e.objWord 32)) 0xFFFF && !phaseDone 16 (phaseOf (e.objWord 32)) 0 && e.fm.waiters.isEmpty) = true ∧
    (arrivedOf 0 + 1 = (1 : Word).toNat ∧ arrivedOf 0 + 1 ≠ (4096 : Word).toNat ∧ arrivedOf 0 < (1 : Word).toNat) := by decide

theorem witness_Barriers_waited :
    opened (world { withObject .barrier [0, 1] with waiters := [{ thread := 1, kind := .barrier, addrs := [8] }] }
      (testThread [(6, 32)] [testClause .control [(0, .barfree (.g 6))]])) (fun e =>
      isOk (objAt e.seen .barrier (e.reg (.g 6)).toNat 8 8) && isOk (e.reserve [8, 9]) &&
      e.fm.waiters.any (fun x => decide (x.kind = .barrier) && x.addrs.contains 8)) = true := by decide

/-- A barrier that another clause holds, and none at the address. -/
theorem witness_Barriers_waits :
    opened (world { withObject .barrier [0, 1] with resv := [(8, 1), (9, 1)] } (testThread [(6, 32)] [testClause .control [(0, .barfree (.g 6))]]))
      (fun e => e.i == 0 && isOk (objAt e.seen .barrier 32 8 8) && e.fm.heldByOther e.k 32 &&
        waitsFor (e.reserve [8, 9]) .reservation && failsWith (objAt e.seen .barrier 64 8 8) 0x04) = true ∧
    opened (behind .control (.barfree (.g 6)) []) (fun e => e.i != 0) = true := by decide

/-- An arrival, a RINGPUB and a RINGDONE that wait for the MSTORE of their thread. -/
theorem witness_Barriers_storing :
    opened (storing (atObject .barrier [0, 1] (.bararr false (.g 5) (.g 6)) [])) (fun e => !e.storesDone &&
      isOk (objAt e.seen .barrier (e.reg (.g 6)).toNat 8 8)) = true ∧
    opened (storing (atObject .ring [0x110, 1, 0, 0, 1, 0] (.ringpub (.g 6) (.lit 0)) [])) (fun e => !e.storesDone &&
      (match e.ring (.g 6) ringProd none with | .ok r => slotState (e.slot r 0) == 1 | _ => false)) = true ∧
    opened (storing (atObject .ring [0x201, 1, 1, 0, 3, 0, 2, 0] (.ringdone (.g 6) (.lit 0)) [])) (fun e => !e.storesDone &&
      (match e.ring (.g 6) ringCons none with | .ok r => slotState (e.slot r 0) == 3 | _ => false)) = true := by decide

/-- A grid barrier counter with this target and release order. -/
def testCounter (target : Nat) (order : List (Nat × Word)) : Counter :=
  { target := target, phase := 0, arrived := 0, devices := [], clStart := 0, coreStart := [], order := order }

theorem witness_GridBarriers :
    let s := { inWord .control (.bararr true (.g 5) (.g 12)) [(12, 3)] with counters := [(9, testCounter 1 [(0, 7)])] }
    opened s (fun e => e.i == 0 && e.storesDone && isOk (e.counter (e.reg (.g 12)).toNat) && !phaseDone 32 0 0 && phaseDone 32 0 0xFFFFFFFF &&
      faultsWith (capCheck e.fm.rcd 64 s.counterOk) 0x0A && faultsWith (capCheck e.fm.rcd 0 s.counterOk) 0x0A) = true ∧
    (testCounter 1 []).arrived + 1 = (testCounter 1 []).target ∧ (testCounter 2 []).arrived + 1 ≠ (testCounter 2 []).target ∧
    SMap.wf 0 (testCounter 1 []).coreStart = true := by
  decide

/-- A counter that another thread's clause holds for a temporary, a thread that a release has to reach, and its cores. -/
theorem witness_GridBarriers_release :
    let holder := { testThread [] [{ testClause .control [] with acts := [.arrive 9 0 none true] }] with tid := 1 }
    let th := testThread [(12, 3)]
      [{ testClause .control [(0, .barwait true (.g 12) (.lit 0xFFFFFFFF))] with wait := .channelBarrier }]
    let s := { world testForm th with threads := [(0, th), (1, holder)], counters := [(9, testCounter 1 [(0, 0xFFFFFFFF)])] }
    s.counterHeld 9 0 = true ∧ s.counterHeld 9 1 = false ∧ s.replaying = false ∧ Tab.find? 9 s.counters = some (testCounter 1 [(0, 0xFFFFFFFF)]) ∧
    s.waitingAt 9 (fun b => b == 0xFFFFFFFF) = [(0, 0)] ∧ s.coresAt 9 0 (testCounter 1 []) 0xFFFFFFFF = [0] ∧
    opened s (fun e => decide (e.cl.wait = .channelBarrier) && decide (e.fm.cluster = 0) && phaseDone 32 0 (e.src (.lit 0xFFFFFFFF)).toNat) =
      true := by decide +kernel

theorem witness_GridBarriers_storing :
    opened (storing { inWord .control (.bararr true (.g 5) (.g 12)) [(12, 3)] with counters := [(9, testCounter 1 [])] }) (fun e =>
      !e.storesDone && isOk (e.counter (e.reg (.g 12)).toNat)) = true := by decide

theorem witness_Rings_init :
    opened (inWord .control (.ringinit (.g 10) (.lit 0x110)) [(10, 32)]) (fun e => e.i == 0 && ringOk 0x110 && ringOk 0x1C77 && !ringOk 0xD10 &&
      !ringOk 0x10 && isOk (objCheck e.seen (e.reg (.g 10)).toNat (4 * (4 + 2 * ringSlots 0x110)) 32 false) &&
      isOk (e.reserve ((List.range 6).map (· + 8)))) = true := by decide

theorem witness_Rings_producer :
    opened (atObject .ring [0x110, 0, 0, 0, 0, 0] (.ringacq (.g 5) (.g 6)) []) (fun e =>
      match e.ring (.g 6) ringProd (some .ringAcq) with
      | .ok r => slotState (e.slot r 0) == 0 && isOk (e.ringServe r .ringAcq true)
      | _ => false) = true ∧
    opened (atObject .ring [0x110, 1, 0, 0, 1, 0] (.ringpub (.g 6) (.lit 0)) []) (fun e =>
      match e.ring (.g 6) ringProd none with
      | .ok r => slotState (e.slot r 0) == 1 && isOk (e.ringHold r) && waitsFor (e.ringServe r .ringAcq false) .ring
      | _ => false) = true := by decide

theorem witness_Rings_consumer :
    opened (atObject .ring [0x101, 1, 0, 0, 2, 0] (.ringtake (.g 5) (.g 6)) []) (fun e =>
      match e.ring (.g 6) ringCons (some .ringTake) with
      | .ok r => slotState (e.slot r 0) == 2 && isOk (e.ringServe r .ringTake true) && !ringPersist r.w0
      | _ => false) = true ∧
    opened (atObject .ring [0x201, 1, 1, 0, 3, 0, 2, 0] (.ringdone (.g 6) (.lit 0)) []) (fun e =>
      match e.ring (.g 6) ringCons none with
      | .ok r => slotState (e.slot r 0) == 3 && slotState (e.slot r 1) == 2 && isOk (e.ringHold r)
      | _ => false) = true := by decide

/-- A ring that another clause holds, none, one with a poisoned word, one of another stage, and one that waits. -/
theorem witness_Rings_checks :
    let at_ := fun (f : Form) => world f (testThread [(6, 32)] [testClause .control [(0, .ringacq (.g 5) (.g 6))]])
    let ring := withObject .ring [0x110, 0, 0, 0, 0, 0]
    opened (at_ { ring with resv := [(8, 1)] }) (fun e => e.i == 0 && isOk (objAddr e.seen 32 4 32) && e.fm.heldByOther e.k 32) = true ∧
    opened (at_ testForm) (fun e => isOk (objAddr e.seen 32 4 32) && (Tab.find? 8 e.seen.objs).isNone && failsWith (objAddr e.seen 33 4 32) 0x08) =
      true ∧
    opened (at_ (withObject .ring [0x111, 0, 0, 0, 0, 0])) (fun e => faultsWith (e.ring (.g 6) ringProd (some .ringAcq)) 0x0B &&
      Rec.stage e.fm.rcd e.th.bench != ringProd (e.objWord 32)) = true ∧
    opened (at_ (withObject .ring [0x110, 1, 0, 0, 1, 0])) (fun e =>
      (match e.ring (.g 6) ringProd (some .ringAcq) with
       | .ok r => waitsFor (e.ringServe r .ringAcq (slotState (e.slot r 0) == 0)) .ring && r.words.all (fun w => !e.fm.heldByOther e.k (4 * w))
       | _ => false)) = true ∧
    ringOk 0 = false := by decide

/-- RINGDONE of the last slot releases the ring, and of another it does not. -/
theorem witness_Rings_done :
    let last := withObject .ring [0x101, 1, 1, 0, 0, 0]
    Tab.find? (32 / 4) last.objs = some .ring ∧ ringSlots (last.word 32) = 1 ∧ slotState (last.word 48) = 0 ∧ ringPersist (last.word 32) = false ∧
    last.waiters = [] ∧ slotState ((withObject .ring [0x101, 1, 1, 0, 2, 0]).word 48) = 2 := by decide

theorem witness_Messages :
    opened (inWord .control (.send false (.g 6) (.reg (.g 7))) []) (fun e => e.i == 0 &&
      (match capCheck e.fm.rcd 0 (messageOk e.fm.rcd capSend) with
       | .ok c => e.allowed 0 c 1 && e.allowed 0 c 2 | _ => false)) = true ∧
    opened (world { testForm with sent := [(0, 1)] } (testThread [] [testClause .control [(0, .send false (.g 6) (.reg (.g 7)))]]))
      (fun e => (match capCheck e.fm.rcd 0 (messageOk e.fm.rcd capSend) with | .ok c => !e.allowed 0 c 1 | _ => false)) = true ∧
    (64 : Word).toNat = 64 := by decide

theorem witness_Messages_receive :
    let s := inWord .control (.recv false (.g 5) (.g 6)) []
    let held := fun (n : Nat) => { s with mailIn := [(mailKey 0 0, if n = 0 then [] else [List.replicate n 7])] }
    [0, 1, 2].all (fun n => opened (held n) (fun e => e.i == 0 && e.cl.acts.isEmpty && (held n).chanWait.isEmpty &&
      (match capCheck e.fm.rcd 0 (messageOk e.fm.rcd capRecv) with
       | .ok c => (((held n).messages (sourceOf e.fm c))[0]?).map List.length == (if n = 0 then none else some n) &&
           (held n).heldActs (fun k _ x => if k = e.k then 0 else isRecv (sourceOf e.fm c) x) == 0
       | _ => false))) = true := by decide

/-- Another thread waits for the channel before this one; a channel without V, of KIND 0, and without a permission. -/
theorem witness_Messages_waits :
    let s := { inWord .control (.recv false (.g 5) (.g 6)) [] with chanWait := [{ thread := 1, kind := .recv, addrs := [sourceKey (false, mailKey 0 0)] }] }
    (s.chanWait.find? (fun x => x.addrs.contains (sourceKey (false, mailKey 0 0)))).any (fun x => x.thread != 0) = true ∧
    opened s (fun e => (match capCheck e.fm.rcd 0 (messageOk e.fm.rcd capRecv) with
      | .ok c => decide (sourceOf e.fm c = (false, mailKey 0 0)) | _ => false)) = true ∧
    capValid (Rec.cap testRecord 63) = false ∧ capKind (Rec.cap testRecord 1) = 0 ∧ capSend (Rec.cap [(257, 0xC0000000)] 0) = false := by
  decide

/-! ## Witnesses: the COPY and MATRIX classes -/

/-- A page 0 at VA 0 of context 0 in core 0's L1 TLB and cluster 0's L2 TLB: raw, readable, writable and dirty. -/
def mapped (s : State) : State :=
  (s.modCore 0 (fun c => { c with l1 := [tlbOf 0 0 0xC070000000000000] })).modCluster 0 (fun c =>
    { c with l2 := [tlbOf 0 0 0xC070000000000000] })

/-- s8 to s15 of the bench. -/
def withScalars (s : SMap Word) (f : Form) : Form :=
  { f with benches := [{ seat := { core := 0, row := 0, lane := 0 }, s := s, meets := [] }] }

theorem witness_CopyAndCollectiveWords_fine :
    opened (inWord .copy (.cpyg false 1 (.g 6) 10) [(6, 8), (10, 16)]) (fun e => e.i == 0 &&
      isOk (capCheck e.fm.rcd 1 (copyOk true false)) && isOk (capCheck e.fm.rcd 1 (copyOk false true)) &&
      decide (locOf (e.pair 10) = .mem 16) && isOk (fineSpan e.fm 8 8) && (wordsOfSpan 8 8).all (fun w => decide (e.fm.tag (4 * w) ≠ .object)) &&
      !e.s.hitsWeights e.fm.cluster e.fm.ctx 16 8 && (wordsOfSpan 8 8).all (fun w => !e.fm.heldByOther e.k (4 * w)) &&
      !capValid (Rec.cap e.fm.rcd 63)) = true ∧ opened (behind .copy (.cpy 1 (.g 6) 8) []) (fun e => e.i != 0) = true := by decide

theorem witness_CopyAndCollectiveWords_fence :
    opened (world (withScalars [(20, 2)] testForm) (testThread [] [testClause .copy [(0, .qfence 1 20)]])) (fun e =>
      e.sreg 20 == 2 && capValid (Rec.cap e.fm.rcd 1) && capKind (Rec.cap e.fm.rcd 1) == 0 && e.sreg 22 == 0 &&
      capKind (Rec.cap e.fm.rcd 2) != 0) = true := by decide

/-- A copy of one row of four words from VA 16 to hall address 64, bitmap at 32. -/
theorem witness_CopyAndCollectiveWords_bulk :
    let s := mapped (world (withScalars [(8, 16), (10, 64), (11, 0x00FE0000), (12, 4), (13, 1)] testForm)
      (testThread [(6, 32)] [testClause .copy [(0, .cpy 1 (.g 6) 8)]]))
    opened s (fun e => e.i == 0 &&
      (let p := planOf s e.th.core e.fm (e.record 8)
       isOk (capCheck e.fm.rcd 1 (copyOk (!(locOf p.src).isHall) (!(locOf p.dst).isHall))) && p.limits e.fm.rcd && p.unit == 1 &&
       isOk (cpyCheck e.fm p 32) && isOk (bitmapExtent e.fm 32) && (locOf p.dst).isHall && decide (p.src < 2 ^ 56) && decide (p.dst < 2 ^ 56) &&
       failsWith (cpyCheck e.fm p 0x27F0) 0x07 && failsWith (cpyCheck e.fm p 0x1FF0) 0x08)) = true := by decide

/-- A bitmap of another kind and a poisoned one; a record that breaks its limits; the faults of CPYG's hall side; a reserved
word of CPYS's; a hall address of the window; the channel's checks. -/
theorem witness_CopyAndCollectiveWords_checks :
    let f := { testForm with tags := [(8, .object), (17, .poisoned)] }
    failsWith (bitmapKind f 32 32) 0x09 = true ∧ failsWith (bitmapPoison f 64 64) 0x0F = true ∧
    (planOf State.reset 0 testForm (List.replicate 8 0)).limits testRecord = false ∧
    failsWith (fineSpan testForm 0x27FC 8) 0x07 = true ∧ isOk (fineSpan testForm 12 8) = true ∧ 12 % 8 ≠ 0 ∧
    (wordsOfSpan 8 8).any (fun w => ({ testForm with resv := [(2, 1)] } : Form).heldByOther 0 (4 * w)) = true ∧
    (match locOf 0x00FE000000000008 with | .hall x => decide (x < 2 ^ 23) | _ => false) = true ∧
    (match locOf 0x00FE000000800000 with | .hall x => decide (2 ^ 23 ≤ x) | _ => false) = true ∧
    capKind (Rec.cap testRecord 2) ≠ 0 ∧ capCrd (Rec.cap [(257, 0x80000000)] 0) = false ∧ capCwr (Rec.cap [(257, 0x80000000)] 0) = false ∧
    collLimits false (List.replicate 8 0) = false := by decide

/-- A bitmap that runs on past its segment, and copies whose thread has an MSTORE in flight. -/
theorem witness_CopyAndCollectiveWords_more :
    (resolve [(64, 0x80000000), (65, 0x10)] 0).any (fun h => h.seg.fmt == 0 && decide (h.seg.extent < h.rel + 32)) = true ∧
    opened (storing (inWord .copy (.cpyg false 1 (.g 6) 10) [(6, 8), (10, 16)])) (fun e => e.i == 0 && !e.storesDone &&
      isOk (fineSpan e.fm 8 8) && isOk (capCheck e.fm.rcd 1 (copyOk true false)) && isOk (capCheck e.fm.rcd 1 (copyOk false true)) &&
      !e.s.hitsWeights e.fm.cluster e.fm.ctx 16 8) = true ∧
    opened (inWord .copy (.cpyg false 1 (.g 6) 10) []) (·.storesDone) = true := by decide

/-- The same of a CPY of one row of four words to hall address 64. -/
theorem witness_CopyAndCollectiveWords_storing :
    let s := storing (mapped (world (withScalars [(8, 16), (10, 64), (11, 0x00FE0000), (12, 4), (13, 1)] testForm)
      (testThread [(6, 32)] [testClause .copy [(0, .cpy 1 (.g 6) 8)]])))
    opened s (fun e => e.i == 0 && !e.storesDone && (let p := planOf s e.th.core e.fm (e.record 8)
      p.limits e.fm.rcd && isOk (cpyCheck e.fm p 32) && (locOf p.dst).isHall)) = true := by decide

/-- FP32 pages at VA 0 for a collective of 32 elements, transport 3, bit 255. -/
theorem witness_CopyAndCollectiveWords_collectives :
    let s := world (withScalars [(10, 32), (11, 3)] testForm) (testThread [(6, 32)] [testClause .copy [(0, .cred 2 (.g 6) 8 255)]])
    let t := world (withScalars [(10, 32), (11, 1)] testForm) (testThread [(6, 32)] [testClause .copy [(0, .cgath 2 (.g 6) 8 255)]])
    [(false, s), (true, t)].all (fun p => opened p.2 (fun e =>
      isOk (capCheck e.fm.rcd 2 (fun c => capKind c == 1 && capCrd c && capCwr c)) && collLimits p.1 (e.record 8) &&
      !e.s.hitsWeights 0 0 (recVA (e.record 8) 0) 128 && e.s.fp32Pages 0 0 (recVA (e.record 8) 0) 128 true &&
      e.s.fp32Pages 0 0 (recVA (e.record 8) 4) 128 false && isOk (bitmapCheck e.fm 32))) = true := by decide

/-- A form whose roll 1 has this signer set and signatures. -/
def withRoll (mask : BitVec 64) (key : Option (Instr × List Word)) (sigs : List Sig) : Form :=
  { testForm with ctxs := [MCtx.reset.setRoll 1 { base := 0, mask := mask, key := key, sigs := sigs }] }

theorem witness_MatrixWords_signs :
    let at1 := fun (f : Form) (i : Instr) => world f (testThread [(4, 0x100)] [testClause .matrix [(0, i)]])
    opened (at1 (withRoll 1 none []) (.mzero 0 1)) (fun e => e.ctx.frozen.isNone && (e.ctx.roll 1).has e.th.tid &&
      (e.ctx.roll 1).sigs.isEmpty && isOk (rowShape e.fm (e.reg (.g 4)).toNat) && failsWith (rowShape e.fm 0x1FFC) 0x07) = true ∧
    opened (at1 (withRoll 2 none []) (.mzero 0 1)) (fun e => !(e.ctx.roll 1).has e.th.tid) = true ∧
    opened (at1 (withRoll 3 (some (.mzero 0 1, [])) [sigOf 1]) (.mzero 1 1)) (fun e => (e.ctx.roll 1).sigs.all (fun x => x.thread != e.k) &&
      !(e.ctx.roll 1).sigs.isEmpty && decide ((e.ctx.roll 1).key ≠ some (keyInstr (.mzero 1 1), [])) &&
      decide ((e.ctx.roll 1).key = some (keyInstr (.mzero 0 1), []))) = true ∧
    opened (at1 (withRoll 1 (some (.mzero 0 1, [])) [sigOf 0]) (.mzero 0 1)) (fun e => (e.ctx.roll 1).sigs.any (fun x => x.thread == e.k)) = true ∧
    ({ MCtx.reset with frozen := some none } : MCtx).frozen ≠ none := by decide

/-- A word that has signed operation 5, executed again: with the row of that operation as before, with another row whose
address fails, and with the operation gone. -/
theorem witness_MatrixWords_signs_again :
    let sig := { sigOf 0 with a := 0x1FFC, ins := .mload 0 1 (.g 4) }
    let at_ := fun (ops : List MOp) => world { testForm with ctxs := [{ MCtx.reset with ops := ops }] }
      (testThread [(4, 0x1FFC)] [{ testClause .matrix [(0, .mload 0 1 (.g 4))] with signed := [(0, 5)] }])
    let op := { idleOp with id := 5, ins := .mload 0 1 (.g 4) }
    opened (at_ []) (fun e => e.cl.signed.lookup e.idx == some 5 && e.ctx.ops.isEmpty) = true ∧
    opened (at_ [{ op with rows := [(0, sig)] }]) (fun e => (e.ctx.ops.find? (fun o => o.id == 5)).any (fun o => o.rows.any (fun p => p.2 == sig))) =
      true ∧
    opened (at_ [{ op with rows := [(0, sigOf 0)] }]) (fun e => (e.ctx.ops.find? (fun o => o.id == 5)).any (fun o => o.rows.all (fun p => p.2 != sig)) &&
      failsWith (rowShape e.fm (e.reg (.g 4)).toNat) 0x07) = true ∧
    opened (inWord .matrix (.mload 0 1 (.g 4)) []) (fun e => (e.cl.signed.lookup e.idx).isNone) = true := by decide

/-- A context that is frozen, with a ROLLDECL or an SGHASH to execute. -/
theorem witness_MatrixWords_frozen :
    [Instr.rolldecl 1 (.g 7) 2, .sghash 12 (.g 20) (.g 16) (.lit 0x1000)].all (fun i =>
      opened (world { testForm with ctxs := [{ MCtx.reset with frozen := some none }] } (testThread [] [testClause .matrix [(0, i)]]))
        (fun e => e.ctx.frozen.isSome)) = true := by decide

theorem witness_MatrixWords_rolldecl :
    opened (world (withScalars [(2, 1)] testForm) (testThread [] [testClause .matrix [(0, .rolldecl 1 (.g 7) 2)]])) (fun e =>
      e.ctx.frozen.isNone && e.sreg 2 == 1 && decide (0 < Rec.threads e.fm.rcd) && (Tab.find? 0 e.s.threads).any (fun th => th.core == e.th.core) &&
      (e.ctx.roll 1).sigs.isEmpty && e.sreg 4 == 0) = true ∧
    (Tab.find? (threadKey 0 63) (world testForm (testThread [] [])).threads).isNone = true ∧
    ((withRoll 3 none [sigOf 1]).mctx 0).roll 1 = { base := 0, mask := 3, key := none, sigs := [sigOf 1] } := by decide

/-- A record with a raw segment of 128 KiB at 0, a T8 tile at 0x100000 and an SP24 tile at 0x200000. -/
def tileRecord : SMap Word :=
  [(7, 1), (8, 0x80000000), (16, 0x78402010), (17, 384), (64, 0x80000000), (65, 0x20000), (68, 0x80100000), (69, 0x1000),
   (70, 0x18000000), (72, 0x80200000), (73, 0xA00), (74, 0x38000000)]

theorem witness_MatrixWords_hash :
    opened (inWord .matrix (.sghash 12 (.g 20) (.g 16) (.lit 0x1000)) [(16, 0x100)]) (fun e => e.ctx.frozen.isNone &&
      isOk (rowRead e.fm (e.reg (.g 16)).toNat) && (firstOutside e.fm.rcd 0x1000 1).isNone &&
      (resolve e.fm.rcd 0x1000).any (fun g => decide (g.rel + 256 * 12 ≤ g.seg.extent)) &&
      (List.range 12).all (fun i => isOk (rowRead e.fm (0x1000 + 256 * i)))) = true := by decide +kernel

/-- SGHASH's row past its segment, its planes outside every segment and past one, and a plane with a poisoned word. -/
theorem witness_MatrixWords_hash_faults :
    opened (inWord .matrix (.sghash 12 (.g 20) (.g 16) (.lit 0x1F00)) [(16, 0x1FFC)]) (fun e => e.ctx.frozen.isNone &&
      failsWith (rowRead e.fm (e.reg (.g 16)).toNat) 0x07 && isOk (rowRead e.fm 0x100) &&
      firstOutside e.fm.rcd 0x700000 1 == some 0x700000 && (firstOutside e.fm.rcd 0x1F00 1).isNone &&
      (resolve e.fm.rcd 0x1F00).any (fun g => decide (g.seg.extent < g.rel + 256 * 12)) &&
      (let f := { e.fm with tags := [(0x1104 / 4, .poisoned)] }
       isOk (rowRead f 0x1000) && failsWith (rowRead f 0x1100) 0x0F)) = true := by decide +kernel

theorem witness_MatrixWords_bucket :
    opened (inWord .matrix (.sgbkt .mean (.g 21) 1 (.g 20) (.lit 8) 4 2 0) [(21, 0x100)]) (fun e =>
      (firstOutside e.fm.rcd 8 0).isNone && (resolve e.fm.rcd 8).any (fun h => decide (h.rel + 256 ≤ h.seg.extent) && h.seg.fmt == 0) &&
      (wordsOfSpan 8 256).all (fun w => decide (e.fm.tag (4 * w) ≠ .object)) && isOk (rowShape e.fm (e.reg (.g 21)).toNat)) = true := by
  decide +kernel

/-- SGBKT's map outside every segment (of no member, and of some), over two segments, misaligned, and over an object; its row
past its segment. -/
theorem witness_MatrixWords_bucket_faults :
    firstOutside testRecord 0x27FC 256 = some 0x2800 ∧ firstOutside testRecord 0x700000 0 = none ∧ resolve testRecord 0x700000 = none ∧
    (let r : SMap Word := [(64, 0x80000000), (65, 0x80), (68, 0x80000080), (69, 0x200)]
     firstOutside r 0 256 = none ∧ (resolve r 0).any (fun h => decide (h.seg.extent < h.rel + 256)) = true) ∧
    (firstOutside testRecord 6 256 = none ∧ 6 % 4 ≠ 0) ∧
    ((wordsOfSpan 8 256).find? (fun w => decide (({ testForm with tags := [(3, .object)] } : Form).tag (4 * w) = .object))) = some 3 ∧
    failsWith (rowShape testForm 0x1FFC) 0x07 = true := by decide +kernel

theorem witness_MatrixWords_pack :
    let f := { testForm with rcd := tileRecord }
    isOk (tileShape f 0x100000 true) = true ∧ isOk (tileShape f 0x200000 true) = true ∧
    (resolve f.rcd 0x100000).any (fun h => h.seg.fmt == 3 && h.seg.geom == 0 && (firstPoison f h (List.range 4096)).isNone) = true ∧
    (resolve f.rcd 0x200000).any (fun h => h.seg.fmt == 7) = true := by decide +kernel

theorem witness_MatrixWords_save :
    let f := { testForm with rcd := tileRecord }
    (firstOutside f.rcd 0x100 1).isNone = true ∧ (resolve f.rcd 0x100).any (fun h => decide (h.rel + 73728 ≤ h.seg.extent) && h.seg.fmt == 0) = true ∧
    (∀ w, f.tag (4 * w) ≠ .object ∧ f.tag (4 * w) ≠ .poisoned) ∧ mayFreeze (MCtx.reset.others []) = true ∧
    mayFreeze (({ MCtx.reset with ops := [idleOp] } : MCtx).others []) = false ∧
    (world f (testThread [] [])).sealedOps 0 [idleOp] = true ∧
    ({ MCtx.reset with ops := [idleOp] } : MCtx).others [{ testClause .matrix [] with lats := [{ tok := none, dst := .none, val := 0, kind := .matrix 0 }] }] = [] ∧ (f.mctx 0).ops = [] := by
  refine ⟨by decide, by decide, fun w => ?_, by decide, by decide, by decide, by decide, by decide⟩
  exact ⟨(by decide : Tag.empty ≠ .object), (by decide : Tag.empty ≠ .poisoned)⟩

/-- An image of version 1 and zeros elsewhere, at hall address 0: VERSION is its byte 2. -/
def imageForm : Form := { testForm with rcd := tileRecord, hall := [(2, 1)] }

/-- The words of that image. -/
def image : List Word := (wordsOfSpan 0 73728).map (fun w => imageForm.word (4 * w))

theorem imageForm_word (w : Nat) (h : w ≠ 0) : imageForm.word (4 * w) = 0 := by
  have h0 : ∀ k, 2 < k → SMap.get (0 : Byte) k [(2, 1)] = 0 := fun k hk => by simp [SMap.get]; omega
  show BitVec.ofNat 32 (leNat [SMap.get 0 (4 * w) [(2, 1)], SMap.get 0 (4 * w + 1) [(2, 1)], SMap.get 0 (4 * w + 1 + 1) [(2, 1)],
    SMap.get 0 (4 * w + 1 + 1 + 1) [(2, 1)]]) = 0
  rw [h0 _ (by omega), h0 _ (by omega), h0 _ (by omega), h0 _ (by omega)]
  rfl

theorem image_at (off : Nat) (h : 4 ≤ off) : imgAt image off = 0 := by
  have hw : off / 4 ≠ 0 := by omega
  simp only [imgAt, image, wordsOfSpan, List.getD_eq_getElem?_getD, List.getElem?_map]
  rcases Nat.lt_or_ge (off / 4) ((0 + (73728 - 1)) / 4 + 1 - 0 / 4) with hl | hl
  · simp only [List.getElem?_range hl, Option.map_some, Option.getD_some, Nat.zero_div, Nat.add_zero]
    rw [imageForm_word _ hw]; rfl
  · rw [List.getElem?_eq_none (by simpa using hl)]; rfl

theorem image_version : imgAt image 0 = 65536 := by decide +kernel

/-- A row that is written: to SP24, with an object, with a poisoned byte that a store writes only in part, and as it may. -/
theorem witness_MatrixWords_rows :
    let f := { testForm with rcd := tileRecord }
    let at_ := fun (t : SMap Tag) (a : Nat) => rowStore { f with tags := t } a (rowUnits f true)
    failsWith (at_ [] 0x200000) 0x08 = true ∧ failsWith (at_ [(64, .poisoned), (65, .object)] 0x100) 0x09 = true ∧
    isOk (at_ [(64, .poisoned)] 0x100) = true ∧ failsWith (at_ [(0x40000, .poisoned)] 0x100000) 0x0F = true ∧
    (resolve f.rcd 0x100).any (fun h => (rowUnits f true h).all (fun u => u.all (wholeWord u))) = true := by decide +kernel

/-- MRESTORE with another operation in flight, and at addresses that its checks refuse or accept. -/
theorem witness_MatrixWords_restore_checks :
    let f := { testForm with rcd := tileRecord }
    failsWith (restoreAddr f 0x800000) 0x07 = true ∧ failsWith (restoreAddr f 0x1F000) 0x07 = true ∧ failsWith (restoreAddr f 0x80) 0x08 = true ∧
    isOk (restoreAddr f 0x100) = true ∧ ({ MCtx.reset with ops := [idleOp] } : MCtx).others [testClause .matrix []] ≠ [] := by decide +kernel

theorem witness_MatrixWords_restore :
    let s := world imageForm (testThread [] [testClause .matrix [(0, .mrestore (.g 6))]])
    opened s (fun e => (resolve e.fm.rcd (e.reg (.g 6)).toNat).any (fun h => h.sb + h.rel == 0 && decide (73728 ≤ h.seg.extent) && h.seg.fmt == 0) &&
      (e.ctx.others [e.cl]).isEmpty && e.ctx.rolls.isEmpty) = true ∧ imgAt image 0 / 65536 = 1 ∧ imgReserved image = true ∧
    (∀ w, imageForm.tag (4 * w) ≠ .poisoned) ∧ (∀ (s : State) (f core : Nat), s.imgThreads f core tileRecord image = true) := by
  refine ⟨by decide, by rw [image_version], ?_, fun w => by exact (by decide : Tag.empty ≠ .poisoned), ?_⟩
  · have hz : ∀ lo hi, 4 ≤ lo → (List.range ((hi - lo) / 4)).all (fun i => imgAt image (lo + 4 * i) == 0) = true := by
      intro lo hi h
      rw [List.all_eq_true]; intro i _
      rw [image_at _ (by omega)]; rfl
    have hm : ∀ r ∈ List.range 64, (imgAt image (0x300 + 4 * r) / 2 ^ 28 == 0 &&
        bitsOf (imgAt image (0x300 + 4 * r)) 15 3 == 0) = true := by
      intro r _; rw [image_at _ (by omega)]; decide
    simp only [imgReserved, hz _ _ (by decide : 4 ≤ 0x18), hz _ _ (by decide : 4 ≤ 0x10424), List.all_eq_true.mpr hm]
    simp [image_at]
  · intro s f core
    have hr : ∀ b, (Roll.ranks { base := b, mask := BitVec.ofNat 64 0, key := none, sigs := [] }) = [] := fun b => by
      have : (List.range 64).filter (fun i => (BitVec.ofNat 64 0).getLsbD i) = [] := by decide
      simp only [Roll.ranks, this]; rfl
    have h4 : imgAt image 4 = 0 := image_at _ (by decide)
    have hb : ∀ r k, 4 ≤ k → imgAt image (k + 16 * r) = 0 := fun r k h => image_at _ (by omega)
    simp only [State.imgThreads, hb _ 0x104 (by decide), hb _ 0x108 (by decide), h4, Nat.mul_zero, Nat.add_zero, hr]
    simp

/-! ## Witnesses: events of threads, forms and nodes -/

/-- A dispatch as it ends. -/
def dispatchKind (d : DispatchOut) : Nat := match d with | .go _ _ => 0 | .wait _ _ => 1 | .fault _ _ _ _ _ => 2

theorem witness_ThreadEvents_sleep :
    let th := testThread [] [{ testClause .control [(0, .sleep (.lit 1))] with wait := .sleep 0 }]
    th.clauses[0]?.map (·.wait) = some (.sleep 0) ∧ 0 ≤ (State.reset.cluster (th.core / 8)).cyc ∧
    ({ th with lats := [{ tok := some 0, dst := .g 119, val := 1, kind := .value }] } : Thread).lats[0]? =
      some { tok := some 0, dst := .g 119, val := 1, kind := .value } ∧ th.pending = none := by decide

theorem witness_ThreadEvents_dispatch :
    [(0x04214307, 0), (0x00000000, 2)].all (fun p =>
      let s := State.reset.withFetchWord 32 p.1
      match Tab.find? 0 s.threads with
      | some th => th.mayDispatch loadForm s.clock && dispatchKind (s.tryDispatch loadForm th) == p.2
      | none => false) = true ∧
    dispatchKind ((world testForm (testThread [] [])).tryDispatch testForm (testThread [] [])) = 1 := by decide

theorem witness_ThreadEvents_asynchronous :
    let th := { testThread [] [] with pend11 := true, pend10 := true, pend13 := true }
    th.status = .live ∧ th.pending = none ∧ testForm.move = none ∧ testForm.phase = .running ∧ th.clauses = [] ∧
    th.trapState = false ∧ ({ testForm with watchdog := 2 ^ 29 } : Form).watchdog = 2 ^ 29 ∧ testForm.shed = false ∧
    ({ testForm with shed := true } : Form).shedTick + 3200000 ≤ 3200000 ∧
    Wait.interruptible .cross = true ∧ Wait.interruptible .none = false ∧ Wait.interruptible .drain = false ∧ Wait.drain ≠ .none := by decide

theorem witness_ThreadEvents_grow :
    let th := testThread [] [{ testClause .control [(0, .grow (.g 5) (.lit 8))] with wait := .grow 0 }]
    let s := { world testForm th with cores := [(0, { Core.reset with growIdle := 2048 })] }
    s.growWaits 0 = [(0, 0, 0, 0)] ∧ s.growStuck 0 = true ∧ 2048 ≤ (s.core 0).growIdle ∧
    th.clauses[0]?.map (fun x => (x.wait, x.todo)) = some (.grow 0, [(0, .grow (.g 5) (.lit 8))]) := by decide

/-- Memory with page tables that map the first GiB of context 0 to itself, and one byte of a node at 0. -/
def pagedMem (b : Byte) : Memory :=
  [(3, b), (0x2001, 0x40), (0x2007, 0x80), (0x4001, 0x60), (0x4007, 0x80), (0x6006, 0x30), (0x6007, 0xF0)]

/-- A machine with those tables and the node at 0 in a STATE. -/
def paged (st : Byte) : State := { State.reset with mem := pagedMem st, roots := [(0, 0x2000)], booted := true, binding := [(0, [0], 0)] }

/-- The first candidate of the first partition. -/
def testCand : Cand := { f := 1, node := 0, lin := 0, e := 3, seq := 0, prio := 3, part := [0], queued := false }

theorem witness_AdmissionEvents_admit :
    let s := { paged 1 with nodes := [(0, testNode)] }
    s.cands = [testCand] ∧ s.isFirst testCand = true ∧ s.fitting testCand = [0] ∧
    seatsCluster [{ core := 7, row := 15, lane := 0 }] = 0 ∧
    s.placedWell (s.needOf testCand []) 0 [{ core := 7, row := 15, lane := 0 }] = true ∧ s.nodeState 0 = 1 ∧
    s.nodeBad 0 = false ∧ s.readHeld 0 0x10000 448 = false ∧
    Tab.find? 0 s.nodes = some testNode := by decide +kernel

theorem paged_walk (va : Nat) (h : va < 2 ^ 26) : (paged 1).walk 0 va = some (0x6000, 0xF030000000000000) := by
  have step : ∀ (s : State) (fuel lvl tbl : Nat), s.walkFrom va (fuel + 1) lvl tbl =
      (let at_ := tbl + 8 * (va / 2 ^ (46 - 10 * lvl) % 1024)
       let e := BitVec.ofNat 64 (leNat (s.physBytes at_ 8))
       if leafOk lvl e then some (at_, e)
       else if pointerOk e && decide (lvl < 3) then s.walkFrom va fuel (lvl + 1) (pteBits e 51 13 * 8192) else none) :=
    fun _ _ _ _ => rfl
  have i0 : 0x2000 + 8 * (va / 2 ^ (46 - 10 * 0) % 1024) = 0x2000 := by omega
  have i1 : 0x4000 + 8 * (va / 2 ^ (46 - 10 * 1) % 1024) = 0x4000 := by omega
  have i2 : 0x6000 + 8 * (va / 2 ^ (46 - 10 * 2) % 1024) = 0x6000 := by omega
  have b0 : BitVec.ofNat 64 (leNat ((paged 1).physBytes 0x2000 8)) = 0x8000000000004000 := by decide +kernel
  have b1 : BitVec.ofNat 64 (leNat ((paged 1).physBytes 0x4000 8)) = 0x8000000000006000 := by decide +kernel
  have b2 : BitVec.ofNat 64 (leNat ((paged 1).physBytes 0x6000 8)) = 0xF030000000000000 := by decide +kernel
  have l0 : leafOk 0 0x8000000000004000 = false ∧ pointerOk 0x8000000000004000 = true ∧
      pteBits 0x8000000000004000 51 13 * 8192 = 0x4000 := by decide
  have l1 : leafOk 1 0x8000000000006000 = false ∧ pointerOk 0x8000000000006000 = true ∧
      pteBits 0x8000000000006000 51 13 * 8192 = 0x6000 := by decide
  have l2 : leafOk 2 0xF030000000000000 = true := by decide
  show (paged 1).walkFrom va (3 + 1) 0 0x2000 = _
  rw [step, i0]; dsimp only; rw [b0]
  simp only [l0.1, l0.2.1, l0.2.2]
  show (paged 1).walkFrom va (2 + 1) (0 + 1) 0x4000 = _
  rw [step, i1]; dsimp only; rw [b1]
  simp only [l1.1, l1.2.1, l1.2.2]
  show (paged 1).walkFrom va (1 + 1) (1 + 1) 0x6000 = _
  rw [step, i2]; dsimp only; rw [b2]
  simp only [l2]
  rfl

theorem paged_reads (ok : BitVec 64 → Bool) (hok : ok 0xF030000000000000 = true) (n va : Nat) (h : va + 4 * n ≤ 2 ^ 26) :
    ((paged 1).readIf ok 0 va n).isSome = true := by
  induction n generalizing va with
  | zero => rfl
  | succ n ih =>
    obtain ⟨w, hr⟩ := Option.isSome_iff_exists.mp (ih (va + 4) (by omega))
    have hp : (paged 1).leafAt 0 va = some 0xF030000000000000 := by
      show ((paged 1).walk 0 va).map (·.2) = _
      rw [paged_walk va (by omega)]; rfl
    show (match (paged 1).leafAt 0 va, (paged 1).readIf ok 0 (va + 4) n with
      | some e, some ws => if ok e then some ((paged 1).pageWord e va :: ws) else none | _, _ => none).isSome = true
    rw [hp, hr]
    show (if ok 0xF030000000000000 then some _ else none).isSome = true
    rw [if_pos hok]; rfl

/-- The record of that node, and any other words of those pages, can be read. -/
theorem witness_AdmissionEvents_record :
    ((paged 1).readRecord 0 0x10000).isSome = true ∧ ((paged 1).readWords 0 0x100 8).isSome = true ∧ (paged 1).isBad 0 = false :=
  ⟨paged_reads _ (by decide) 448 0x10000 (by decide), paged_reads _ (by decide) 8 0x100 (by decide), rfl⟩

/-- A form of 514 threads with 255 words each of the cluster file runs on cluster 0 at priority 0, and a node offers one
of priority 3 that needs 3 more of them. -/
def contested : State :=
  let s := paged 1
  { s with nodes := [(0, { testNode with rcd := [(7, 0x30001), (8, 0x80000000), (16, 0x08000300)] })], forms := [(5, { loadForm with rcd := [(7, 0x30202), (16, 0x0800FF00)] })] }

theorem witness_AdmissionEvents_victims :
    contested.kernelAdmits = false ∧ contested.cands.map (·.f) = [1] ∧ contested.fitting testCand = [] ∧
    (contested.chooseVictims testCand).any (fun x => x.1 == 0 && x.2.length == 1) = true := by decide +kernel

/-- A kernel that names victims: the form at a seat that the candidate then fits, and none, where it does not. -/
theorem witness_AdmissionEvents_named :
    let s := { contested with modectl := 2 }
    s.namedVictims testCand 0 [{ core := 0, row := 0, lane := 0 }] = [5] ∧ s.namedVictims testCand 0 [{ core := 1, row := 0, lane := 0 }] = [] ∧
    s.kernelAdmits = true ∧ s.fitting testCand = [] ∧ s.fits (s.needOf testCand []) 0 = false ∧ 1 ∉ testCand.part ∧ 0 ∈ testCand.part ∧
    s.fits (s.needOf testCand [5]) 0 = true := by decide +kernel

theorem witness_AdmissionEvents_aging :
    (List.find? (fun (p : Nat × Node) => decide (p.2.kind = 0 ∧ p.2.fbase ≤ 1 ∧ 1 < p.2.fbase + p.2.forms)) [(0, testNode)]).isSome = true ∧
    testNode.aged < 16 ∧ testNode.readyTick + 800000 * (testNode.aged + 1) ≤ 800000 ∧ 1 ≤ (paged 1).nodeState 0 ∧
    effective 127 16 = 127 ∧ effective 0 17 = 16 := by decide +kernel

theorem witness_FormLifeEvents_staging :
    let f := { testForm with phase := .staging }
    (match (world f (testThread [] [])).regionsWork f false (regionsOf f.rcd false) with
     | .go s1 ms => !movesHeld s1 f (allMoves ms) && !s1.regionsDiffer f ms | _ => false) = true ∧
    (match (world f (testThread [] [])).regionsWork f true (regionsOf f.rcd true) with
     | .go s1 ms => !movesHeld s1 f (allMoves ms) && !movesPoison f (allMoves ms) | _ => false) = true := by decide +kernel

/-- Of two recorded checksums of a region one differs from what a replay finds. -/
theorem witness_FormLifeEvents_differ :
    let f := { testForm with phase := .staging }
    let s := fun (w : Word) => { world f (testThread [] []) with recctl := 2, play := [.region f.node f.lin 0 false w] }
    ∃ w, (s w).regionsDiffer f [(0, [])] = true := by
  intro f s
  refine ⟨Config.crc32 [] + 1, ?_⟩
  have h : Config.crc32 [] + 1 ≠ Config.crc32 [] := fun h => by bv_omega
  have d : (s (Config.crc32 [] + 1)).dueRegion f 0 = some (.region f.node f.lin 0 false (Config.crc32 [] + 1)) := by
    simp [State.dueRegion, s]
  have r : (s (Config.crc32 [] + 1)).replaying = true := by decide
  have i : regionItem (s (Config.crc32 [] + 1)) f false (0, []) = .region f.node f.lin 0 false (Config.crc32 []) := rfl
  simp only [State.regionsDiffer, List.any_cons, List.any_nil, d, i, r]
  simp [h]

/-- A region of FP32 format on a raw page breaks its page. -/
theorem witness_FormLifeEvents_bad_region :
    let f := { testForm with phase := .staging, rcd := testRecord.take 8 ++ [(130, 64), (131, 0xE1000000)] }
    let s := { world f (testThread [] []) with clusters := [(0, { Cluster.reset with l2 := [tlbOf 0 0 0xC010000000000000] })] }
    (match s.regionsWork f false (regionsOf f.rcd false) with | .bad => true | _ => false) = true := by decide +kernel

theorem witness_FormLifeEvents_ends :
    let th := { testThread [] [] with status := .exited }
    let s := world testForm th
    s.enginesDone testForm.cluster 0 = true ∧ th.status = .exited ∧ testForm.phase = .running ∧
    ({ th with status := .yielded } : Thread).status = .yielded := by decide

theorem witness_FormLifeEvents_saved :
    let f := { testForm with phase := .yielding, yieldTick := 0 }
    let th := testThread [] [{ testClause .lane [(0, .nop)] with fenced := true, wait := .cross }]
    let s := { world f th with clock := 1000000 }
    f.saveDue s.clock = true ∧ s.allExited 0 = false ∧ s.enginesDone f.cluster 0 = true ∧
    (∀ c ∈ f.ctxs, c.ops = [] ∧ ∀ o, c.frozen ≠ some (some o)) ∧
    (∃ c r, th.clauses = c :: r ∧ c.wait ≠ .none) ∧ s.modectl.getLsbD 2 = false := by
  refine ⟨by decide, by decide, by decide, ?_, ⟨_, _, rfl, by decide⟩, by decide⟩
  intro c h
  rw [List.mem_singleton.mp h]
  exact ⟨rfl, fun o h => nomatch h⟩

theorem witness_FormLifeEvents_moves :
    let f := { testForm with move := some (1, [{ core := 8, row := 0, lane := 0 }]) }
    let th := testThread [] [{ testClause .lane [(0, .nop)] with wait := .cross }]
    th.pending = none ∧ th.still = true ∧ Wait.rebase 100 7 (.sleep 150) = .sleep 57 ∧ (∀ c ∈ f.ctxs, c.ops = []) ∧
    (world f th).enginesDone f.cluster 0 = true ∧ (∀ c ∈ f.cores, ∀ l ∈ ((world f th).core c).loads, l.form ≠ 0) := by decide

theorem witness_NodeEvents_doorbell :
    let s := paged 0
    Tab.find? 0 s.binding = some ([0], 0) ∧ s.booted = true ∧ (s.walk 0 0x80).any (fun x => pteType x.2 == 0 && paOf x.2 0x80 == 0x80) = true ∧
    Tab.find? 0x80 s.nodes = none ∧ (s.insertErr 0 (0x70000000 :: List.replicate 31 0)).1 ≠ 0 ∧
    (s.insertErr 0 (0x40000000 :: 0 :: 0xFFFFFFFF :: List.replicate 29 0)).1 = 0 ∧ (List.replicate 32 (0 : Word)).length = 32 := by
  decide +kernel

/-- A slot that holds an image whose record's page may not be written yet, and a VA whose tables end. -/
theorem witness_NodeEvents_waits :
    let s := { paged 0 with slots := [(slotKey 0 3, (0x80, []))] }
    (Tab.find? (slotKey 0 3) s.slots).isSome = true ∧ s.leafAt 0 (2 ^ 52) = none ∧ s.replaying = false ∧
    s.writeContext 0 (0 :: 0 :: 0 :: 0x100000 :: List.replicate 28 0) = none ∧
    (let img : List Word := 0x70000000 :: List.replicate 31 0
     (paged 0).insertWait 0 0x80 0xF030000000000000 img = none ∧ (paged 0).insertWait 0 0x80 0xF010000000000000 img = some (some 0x80) ∧
     (let t := { paged 0 with bad := [(4, true)] }
      t.putsHeld (t.wordPuts 0xF030000000000000 0x80 [0]) = true ∧ t.insertWait 0 0x80 0xF030000000000000 [0] = some none) ∧
     pteDirty 0xF030000000000000 = false ∧ pteDirty 0xF070000000000000 = true) := by decide +kernel

/-- A doorbell, and a collective's record, with an uncorrectable atom in the tables that lead there, and without; a record whose
page has no entry. -/
theorem witness_NodeEvents_tables :
    let bad := { paged 1 with bad := [(0x2000 / 32, true)], nodes := [(0, { testNode with kind := 3, rcd := [] })] }
    let far := { paged 1 with mem := (3, 1) :: (14, 0x10) :: (pagedMem 1).tail, nodes := [(0, { testNode with kind := 3, rcd := [] })] }
    (bad.leafSpan 0 0x80).any bad.isBad = true ∧ (((paged 0).leafSpan 0 0x80).any (paged 0).isBad) = false ∧
    (bad.readHeld 0 0x10000 8) = true ∧
    (far.startsNext 0 ((Tab.find? 0 far.nodes).getD testNode)) = true ∧
    (let u := far.startNode 0
     (Tab.find? 0 u.nodes).any (fun m => !u.readHeld m.ctx (m.va2 2) 8 && (u.readWords m.ctx (m.va2 2) 8).isNone)) = true := by
  decide +kernel

/-- An image that may not be inserted and whose record is not held, and one whose page may not be written. -/
theorem witness_LaunchBindAndChunks_held :
    (paged 0).recordHeld 0 (3 :: List.replicate 31 0) = false ∧ (paged 0).launchable 0 (3 :: List.replicate 31 0) = false ∧
    (paged 0).launchable 0 (0x40000000 :: 0 :: 0xFFFFFFFF :: List.replicate 29 0) = true ∧
    (paged 0).recordHeld 0 (0x40000000 :: 0 :: 0xFFFFFFFF :: List.replicate 29 0) = false ∧
    writable 0xF030000000000000 = true ∧ writable 0xF010000000000000 = false := by decide +kernel

theorem witness_NodeEvents_starts :
    [1, 2, 3, 4].all (fun k => let n := { testNode with kind := k, rcd := [] }
      ({ paged 1 with nodes := [(0, n)] } : State).startsNext 0 n) = true := by decide +kernel

theorem witness_NodeEvents_completes :
    (paged 2).nodeState 0 = 2 ∧ ({ testNode with retired := 1 } : Node).retired = testNode.forms ∧
    (let t := (({ paged 2 with nodes := [(0, testNode), (0x80, { testNode with va := 0x80 })] } : State).setNode 0 3 0 0).dropNode 0
     t.nodeState 0x80 = 0 ∧ (Tab.find? 0x80 t.nodes).isSome = true ∧ t.nodePred 0x80 ≤ 1) := by decide +kernel

/-! ## Witnesses: copy engines, the matrix array, the kernel and translation -/

/-- A machine whose cluster 0 has one operation at the head of queue 3, with a page at VA 0. -/
def queued (started : Bool) (k : CopyKind) : State :=
  mapped { world testForm (testThread [] []) with
    clusters := [(0, { Cluster.reset with queues := [(3, [{ id := 7, thread := 0, form := 0, started := started, kind := k }])] })] }

/-- The plan of a copy of four bytes from hall address 64 to this hall address. -/
def hallCopy (dst : Nat) : Plan :=
  { planOf State.reset 0 testForm [64, 0x00FE0000, BitVec.ofNat 32 dst, 0x00FE0000, 4, 1, 0, 0] with known := true }

theorem witness_CopyEngineEvents_start :
    ((((queued false (.gather 8 8 16)).cluster 0).queue 3).head?).map (fun o => (o.started, o.form)) = some (false, 0) ∧
    ((((queued false (.qfence [3])).cluster 0).queue 3).head?).map (fun y => y.id) = some 7 ∧
    ((((queued false (.qfence [3, 4])).cluster 0).queue 4).head?).map (fun y => y.id) ≠ some 7 ∧
    testForm.ownsFirst 7 32 [0] = true ∧ ({ testForm with owned := [(6, 32, 0)] } : Form).ownsFirst 7 32 [0] = false ∧
    [(128, false), (66, true)].all (fun x =>
      match (queued false (.bulk (hallCopy x.1) 32 [0] none)).learn 0 testForm (hallCopy x.1) with
      | (t, some p) => p.mayStart testForm.rcd && p.overlaps == x.2 &&
          (match p.units.mapM (fun u => unitRead t testForm p (p.storage (relOf testForm.rcd p.src)) [] u.1 p.unit) with
           | some rs => let ms := rs.map (fun r => ({ dst := [], bytes := [], reads := r.2 } : Move))
             !movesHeld t testForm ms && !movesPoison testForm ms && movesPoison { testForm with tags := [(16, .poisoned)] } ms
           | none => false)
      | _ => false) = true ∧
    ({ hallCopy 128 with cols := 0 } : Plan).mayStart testForm.rcd = false ∧
    ({ hallCopy 128 with cols := 256, rows := 2, dstr := 4 } : Plan).lastChunk = 0 ∧
    (let p := { hallCopy 128 with known := false, cols := 300 }
     p.known = false ∧ (List.range (p.lastChunk + 1)).filter (fun c => !([] : List Nat).contains c) ≠ []) := by decide +kernel

theorem witness_CopyEngineEvents_chunk :
    let p := hallCopy 128
    let s := queued true (.bulk p 32 [0] none)
    let op : CopyOp := { id := 7, thread := 0, form := 0, started := true, kind := .bulk p 32 [0] none }
    let does := fun (f : Form) => s.moveUnits op f p [0] none (p.units.length + 1)
    let due := p.dueIn [0] [] 0
    ((s.cluster 0).queue 3).head? = some op ∧
    ((does testForm due).2.any (fun x => x.1 == due && x.2.isEmpty)) = true ∧
    (does { testForm with tags := [(16, .poisoned)] } due).2 = none ∧ (does { testForm with resv := [(32, 1)] } due).2 = none ∧
    (match s.movesOf op testForm p none due ((due.map p.chunksOf).dedup) with
     | (t, some (ms, _)) => !movesHeld t testForm ms && !movesPoison testForm ms && !ms.isEmpty &&
         movesPoison { testForm with tags := [(16, .poisoned)] } ms && movesHeld t { testForm with resv := [(32, 1)] } ms
     | _ => false) = true ∧
    0 < p.span ∧ p.dst ≤ p.dst ∧ due.all (fun x => p.chunksOf x == [0]) = true ∧
    (p.units[0]?).any (fun x => (p.chunksOf x).all (fun c => [0].contains c)) = true ∧ p.dueIn [0] [0, 1, 2, 3] 0 = [] := by decide +kernel

/-- One byte of a poisoned word, whose other bytes the same copy writes; and an entry that a chunk has used already. -/
theorem witness_CopyEngineEvents_together :
    let p := hallCopy 128
    let s := queued true (.bulk p 32 [0] none)
    let op : CopyOp := { id := 7, thread := 0, form := 0, started := true, kind := .bulk p 32 [0] none }
    let f := { testForm with tags := [(32, .poisoned)] }
    let us := p.units.take 1
    (match s.movesOf op f p none us ((us.map p.chunksOf).dedup) with
     | (t, some (ms, _)) => !movesHeld t f ms && movesPoison f ms &&
         ((sharing f p ms (p.due [0] [] p.units)).filter (fun u => !us.contains u)).length == 3
     | _ => false) = true ∧
    ((s.moveUnits op f p [0] none 5 us).2.any (fun x => x.1.length == 4)) = true ∧
    (let e := tlbOf 0 0 0xC070000000000000
     ([e].find? (fun x => x.hits 0 16)) = some e ∧ e.hits 1 16 = false) := by decide +kernel

theorem witness_CopyEngineEvents_fine :
    [CopyKind.gather 8 8 16, .scatter [1, 2, 3, 4, 5, 6, 7, 8] 16].all (fun k => let s := queued true k
      match xlatAll (copyXlat (s.coreOf 0 testForm) testForm.ctx) s (finePages k) with
      | (t, some es) => (fineMove t testForm es k).any (fun m => !movesHeld t testForm [m] && !movesPoison testForm [m])
      | _ => false) = true := by decide +kernel

theorem witness_CopyEngineEvents_bits : SMap.wf 0 testForm.hall = true ∧ (255 : Nat) < 256 := by decide

/-- A gather of 32 elements at VA 0, transport 0, outstanding at cluster 0. -/
def gathering : State :=
  let s := (world testForm (testThread [] [])).modCore 0 (fun c => { c with l1 := [tlbOf 0 0 0xC070000000000800] })
  s.modCluster 0 (fun c => { c with colls := [{ id := 7, thread := 0, form := 0, node := none, cap := 0, gather := true, rc := [0, 0, 32, 0, 0, 0, 0, 0], bit := some (32, 255), before := [] }] })

theorem witness_CopyEngineEvents_collective :
    (((gathering.cluster 0).colls[0]?).bind (gathering.collCtx 0)).any (fun cc =>
      match xlatAll cc.x gathering ((pagesOf 0 128).map (fun p => (p, Use.write)) ++ (pagesOf 0 128).map (fun p => (p, Use.read))) with
      | (t, some es) => collPagesOk cc.ctx es 0 128 0 0 &&
          decide ((contribution 0 (wordsAt t (pageStores cc.ctx es 0 128)) []).1 = List.replicate 32 0) &&
          !physHeld t [{ dst := pageStores cc.ctx es 0 128, bytes := List.replicate 128 0, reads := [] }]
      | _ => false) = true ∧
    (∀ q ∈ (gathering.cluster 0).queues, q.2 = []) ∧ gathering.replaying = false ∧
    ((gathering.cluster 0).colls[0]?).map (fun c => (c.before, capMember c.cap, collFields c.rc)) = some ([], 0, [32, 0, 0]) ∧
    collFields [0, 0, 31, 0, 0, 0, 0, 0] ≠ [32, 0, 0] ∧ gathering.groupDown 0 = false ∧ sentWords 0 32 ≠ [(0 : Word)].length ∧
    ({ gathering with members := [(0, 5)] } : State).members.filter (fun m => m.1 == 0) = [(0, 5)] := by decide +kernel

/-- A group with a member of another device is down with the port that leads there. -/
theorem witness_CopyEngineEvents_down :
    ∃ s : State, s.groupDown 0 = true := by
  let d := Config.deviceId + 1
  let p := Config.portTo d % 16
  have hp : p < 16 := Nat.mod_lt _ (by decide)
  refine ⟨{ gathering with members := [(0, 4 * d)], ports := [(p, { Port.reset with up := false })] }, ?_⟩
  have hd : 4 * d / 4 = d := Nat.mul_div_cancel_left d (by decide)
  simp only [State.groupDown, List.any_eq_true]
  refine ⟨p, List.mem_range.mpr hp, ?_⟩
  have hu : (State.port { gathering with members := [(0, 4 * d)], ports := [(p, { Port.reset with up := false })] } p).up = false := by
    simp [State.port, Tab.getD, Tab.find?]
  rw [hu]
  have hn : d ≠ Config.deviceId := by omega
  simp [State.groupUses, hd, hn, p]

/-- A recorded order that the arrivals of a replay do not keep. -/
theorem witness_CopyEngineEvents_replay :
    let s := { gathering with recctl := 2, play := [.arrivals 0 0 0 0 [32, 0, 0] [1, 0]] }
    s.replaying = true ∧ sameColl (.arrivals 0 0 0 0 [32, 0, 0] [0, 1]) (.arrivals 0 0 0 0 [32, 0, 0] [1, 0]) = true := by decide +kernel

/-- A form whose one thread has signed an MZERO on roll 1, on a core that the limiter has granted. -/
def signedState : State :=
  let s := world (withRoll 1 (some (.mzero 0 1, [])) [sigOf 0]) (testThread [] [testClause .matrix [(0, .mzero 0 1)]])
  s.modCluster 0 (fun c => { c with run := [(0, .stream)] })

theorem witness_MatrixArrayEvents_issue :
    let f := withRoll 1 (some (.mzero 0 1, [])) [sigOf 0]
    let r := (f.mctx 0).roll 1
    (signedState.cluster 0).runOf (f.coreAt 0 % 8) = .stream ∧ signedState.roundReady 0 (f.mctx 0) r = true ∧
    r.key = some (.mzero 0 1, []) := by decide

theorem witness_MatrixArrayEvents_issued :
    let rows := ((withRoll 1 (some (.mzero 0 1, [])) [sigOf 0]).mctx 0).roll 1 |>.signed 0
    let f := withRoll 1 (some (.mzero 0 1, [])) [sigOf 0]
    rows = [(0, sigOf 0)] ∧ bucketsFit (insOf rows) rows = true ∧ fetchError signedState f (insOf rows) rows = none ∧
    isOk (issueOp signedState f 0 ((f.mctx 0).roll 1) (insOf rows) rows) = true ∧
    fetchError signedState { f with tags := [(64, .poisoned)] } (.mload 0 1 (.g 6)) [(0, { sigOf 0 with a := 0x100 })] = some 0x100 ∧
    bucketsFit (.sgbkt .first (.g 5) 1 (.g 6) (.lit 8) 4 2 63) [(0, sigOf 0), (1, { sigOf 1 with a := 1 })] = false ∧
    ((testThread [] [{ testClause .matrix [(0, .mzero 0 1)] with wait := .roll }]).clauses[0]?).map (fun c => (c.wait, c.todo)) =
      some (.roll, [(0, .mzero 0 1)]) := by decide +kernel

/-- A round behind an MSTORE of a clause that waits for a round itself, and behind one whose clause does not wait. -/
theorem witness_MatrixArrayEvents_behind :
    let op := { idleOp with ins := .mstore 0 1 (.g 4) (.lit 0) }
    let c := { (withRoll 1 (some (.mzero 0 1, [])) [sigOf 0]).mctx 0 with ops := [op] }
    let s := fun (w : Wait) => world testForm (testThread [] [{ testClause .matrix [(0, .mzero 0 1)] with
      lats := [{ tok := none, dst := .none, val := 0, kind := .matrix 0 }], wait := w }])
    writesMemory op.ins = true ∧ (s .roll).roundReady 0 c (c.roll 1) = true ∧ (s .token).roundReady 0 c (c.roll 1) = false ∧
    ({ op with base := some [] } : MOp).base = some [] := by decide +kernel

/-- SGBKT whose staging row is not a row of memory (its extent ends before it). -/
theorem witness_MatrixArrayEvents_staging :
    failsWith (issueOp signedState testForm 0 { base := 0, mask := 1, key := none, sigs := [] }
      (.sgbkt .mean (.g 5) 1 (.g 6) (.lit 8) 4 2 0) [(0, { sigOf 0 with b := 8, extra := [0x100, 5, 0x1FFC] })]) 0x07 = true := by
  decide +kernel

theorem witness_MatrixArrayEvents_completes :
    let f := { testForm with ctxs := [{ MCtx.reset with ops := [idleOp] }] }
    ((f.mctx 0).ops.find? (fun o => o.id == 0)) = some idleOp ∧ idleOp.late = none ∧
    (world f (testThread [] [])).mayComplete 0 f (f.mctx 0) idleOp = true ∧
    (let s := world f (testThread [] [{ testClause .matrix [] with lats := [{ tok := none, dst := .none, val := 0, kind := .matrix 0 }] }])
     s.mayComplete 0 f (f.mctx 0) idleOp = false) ∧
    (let op := { idleOp with ins := .msave (.g 6), late := some (0, []) }
     op.late ≠ none ∧ (world f (testThread [] [])).lateFree 0 { MCtx.reset with ops := [op] } op = true ∧
     (world f (testThread [] [])).lateFree 0 { MCtx.reset with ops := [idleOp, { op with id := 1 }] } { op with id := 1 } = false) ∧
    SMap.wf 0 (f.mctx 0).acc = true ∧ idleOp.ins = .mzero 0 0 := by decide +kernel

theorem witness_MatrixArrayEvents_loads_and_stores :
    let op := { idleOp with ins := .mload 0 1 (.g 6), rows := [(0, sigOf 0)], words := [List.replicate 64 0] }
    op.words.length = op.rows.length ∧ (∀ w ∈ op.words, w.length = 64) ∧ (op.rows.map (·.1)).Nodup ∧ (∀ p ∈ op.rows, p.1 < 64) ∧
    (resolve testForm.rcd 0x100).any (fun h => !expanded h.seg.fmt) = true := by decide +kernel

theorem witness_MatrixArrayEvents_convolution :
    let v := convOf [0x10001, 0x10001, 0x10001, 0x10001, 0x10001, 0, 0, 0x100]
    0 < v.oh ∧ 0 < v.ow ∧ 0 < v.fh ∧ 0 < v.fw ∧ 0 < v.c ∧ v.fh * v.fw * v.c ≤ 64 * 0 + 1 ∧ (v.h : Int) ≤ 1 := by decide

theorem witness_MatrixArrayEvents_freeze :
    let op := { idleOp with ins := .mma true false false 0 1 .z (.reg .z), rows := [(63, sigOf 0)], a := [[.skip]], b := [[.nan]], grp := 8 }
    ({ MCtx.reset with ops := [op] } : MCtx).ops = [op] ∧ isProduct op.ins = true ∧ op.nextGroup < op.groups := by decide +kernel

/-- An image whose flag says that an operation is frozen, with the word of an MMA (R235). -/
theorem witness_MatrixArrayEvents_restores :
    imgAt [0, 1] 4 % 2 = 1 ∧ (imgInstr [0x10001, 1, 0x0420827C, 0x100]).isSome = true := by decide +kernel

theorem witness_MatrixArrayEvents_stage :
    let rows := [(0, sigOf 0), (1, { sigOf 1 with a := 1 }), (2, sigOf 2)]
    (rows.map (·.1)).Nodup ∧ (buckets rows)[0]? = some [(0, sigOf 0), (2, sigOf 2)] ∧ rows.filter (fun p => p.2.a == 1) ≠ [] ∧
    isOk (rowStore testForm 0x100 (rowUnits testForm true)) = true ∧ isOk (rowShape testForm 0x100) = true ∧
    ((rows.map (fun p => p.2.thread % 4096)).Nodup ∧ ∀ p ∈ rows, 0 ≤ p.2.thread % 4096 ∧ p.2.thread % 4096 < 0 + 64) ∧
    (maxNormOf idleOp [(0, { sigOf 0 with extra := [0x100, 5, 0x200] })]).isSome = true ∧
    (resolve testForm.rcd 0x200).any (fun h => sameFormat testForm (0, { sigOf 0 with extra := [0x100, 5, 0x200] }) h &&
      !sameFormat testForm (0, { sigOf 0 with extra := [0x2000, 5, 0x200] }) h) = true ∧
    SMap.wf 0 ((testForm.bench 0).s) = true := by
  refine ⟨by decide, by decide +kernel, by decide, by decide +kernel, by decide, by decide, by decide +kernel, by decide +kernel, by decide⟩

theorem witness_MatrixArrayEvents_product :
    let op := { idleOp with ins := .mma true false false 0 1 .z (.reg .z), rows := [(63, sigOf 0)], a := [[.skip]], b := [[.nan]], grp := 8 }
    op.nextGroup = 0 ∧ 0 < op.groups ∧ op.a.length = op.rows.length ∧ (op.rows.map (·.1)).Nodup := by decide +kernel

theorem witness_MatrixArrayEvents_limiter :
    let c := { Cluster.reset with requests := [(0, 4096, 0)], cyc := 384, run := [(1, .filler 0)], reached := [3] }
    Cluster.reset.placeOf 0 = 4096 ∧ c.placeOf 3 = 0 ∧ 3 ∈ c.reached ∧ 3 ∉ [4] ∧
    ({ c with run := [] } : Cluster).active < (rampTable c.ramp).getD c.rampIdx 0 ∧ c.boundary + 128 ≤ c.cyc ∧ c.rampNext = none ∧
    c.runOf 1 = .filler 0 ∧ 0 + 384 ≤ c.cyc ∧ ({ c with waitedBefore := true } : Cluster).waitedBefore = true := by decide

theorem witness_KernelAndTranslationEvents_kernel :
    let th := { testThread [] [] with status := .kernel, trapState := true }
    th.status = .kernel ∧ ((mapped (world testForm th)).seek 0 0 th.tpcVA.toNat).isSome = true ∧
    (paged 2).nodeState 0 = 2 ∧ testNode.succ = [] ∧ testNode.kind = 0 ∧ ((world testForm th).forms.map (·.1)).Nodup := by
  decide +kernel

theorem witness_KernelAndTranslationEvents_walks :
    let s := (paged 0).modCluster 0 (fun c => { c with misses := [walkOf 0 0], walks := [walkOf 0 0, walkOf 1 0] })
    walkOf 0 (0 : VAddr).toNat ∈ (s.cluster 0).misses ∧ (s.cluster 0).walks.length < 32 ∧ s.modectl.getLsbD 0 = false ∧
    (s.walk 0 0).isSome = true ∧ s.walk 1 0 = none ∧ (∀ w ∈ s.paused, w ≠ walkOf 1 0) ∧ s.tableBad 0 0 = false ∧ s.tableBad 1 0 = false ∧
    (let t := (s.requests (s.tableSpan 0 0)).modCluster 0 (fun c => { c with walks := c.walks.eraseIdx 0 })
     (t.walk 0 0).isSome = true) ∧ ({ s with bad := [(0x2000 / 32, true)] } : State).tableBad 0 0 = true ∧
    leafOk 3 0xC010000000000000 = true ∧ leafOk 2 0xF030000000000000 = true := by decide +kernel

/-- A chunk that has begun with a page's entry, and no such chunk. -/
theorem witness_KernelAndTranslationEvents_chunks :
    let s := fun (used : List (Nat × TlbEntry)) => State.reset.modCluster 0 (fun c => { c with
      queues := [(3, [{ id := 7, thread := 0, form := 0, started := true, kind := .qfence [], used := used }])] })
    (s [(0, tlbOf 0 0 0xC070000000000000)]).chunkUses 0 0xFFFF 0xFFFF = true ∧
    (s [(0, tlbOf 0 0 0xC070000000000000)]).chunkUses 0 0x10000 0x10000 = false ∧ (s []).chunkUses 0 0 0 = false := by decide +kernel

/-! ## Witnesses: main memory, power, the droop follower, the host -/

theorem witness_MainMemoryEvents_tags :
    let k := { Stack.reset with tags := [(0, 0, 5)], waiting := [(1, 9)] }
    (0, 0, 5) ∈ k.tags ∧ k.freeTag 1 = some 0 ∧ k.paused 1 = false ∧ k.waiting.find? (fun y => y.1 == 1) = some (1, 9) ∧
    (∀ x ∈ k.waiting, x.1 ≠ 0) ∧ k.freeTag 0 = some 1 ∧ k.paused 0 = false := by decide +kernel

theorem witness_MainMemoryEvents_frequency :
    Stack.reset.retrain = none ∧ Stack.reset.freq ≠ 3 ∧ Stack.reset.wanted = [] ∧ Stack.reset.dropped = false ∧ Stack.reset.freq < 3 ∧
    (let k := { Stack.reset with retrain := some (3, 1), tags := [(0, 0, 5)] }
     (∀ x ∈ k.tags, x.1 / 2 / 8 ≠ 3) ∧ k.waiting = [] ∧ k.wanted = []) ∧
    ({ Stack.reset with dropped := true, freq := 1 } : Stack).dropped = true := by decide

theorem witness_MainMemoryEvents_boundaries :
    refreshOf 1 96 = 4 ∧ refreshOf 4 94 = 4 ∧ refreshOf 4 93 = 2 ∧ refreshOf 2 95 = 2 ∧ refreshOf 1 86 = 2 ∧ refreshOf 2 84 = 2 ∧
    refreshOf 2 83 = 1 := by decide

/-- A clean page with a source (bit 55) and a dirty one, of each escalation class, in an L2 TLB. -/
theorem witness_MainMemoryEvents_errors :
    let tlb := fun (p : BitVec 64) => { world testForm (testThread [] []) with clusters := [(0, { Cluster.reset with l2 := [tlbOf 0 0 p] })], roots := [(0, 0)] }
    [0xC090000000000000, 0xC0D0000000000000, 0xC150000000000000, 0xC250000000000000, 0xC350000000000000].all (fun p =>
      (tlb p).mapping 0 0 == some p) = true ∧
    pteBits 0xC090000000000000 55 55 = 1 ∧ pteDirty 0xC090000000000000 = false ∧ pteDirty 0xC0D0000000000000 = true ∧
    [0xC0D0000000000000, 0xC150000000000000, 0xC250000000000000, 0xC350000000000000].map (fun p => pteBits p 57 56) = [0, 1, 2, 3] ∧
    SMap.get false 0 [(0, true)] = true ∧ State.reset.mapping 0 0 = none ∧
    (tlb 0xC090000000000000).unitOf 0 = some (testForm.ctx, testForm.node, testForm.part) := by decide +kernel

/-- A page whose entry is dirty in one cluster's L2 TLB only. -/
theorem witness_MainMemoryEvents_dirty :
    let l2 := fun (p : BitVec 64) => { Cluster.reset with l2 := [tlbOf 0 0 p] }
    let s := { world testForm (testThread [] []) with clusters := [(0, l2 0xC090000000000000), (1, l2 0xC0D0000000000000)] }
    s.mapping 0 0 = some 0xC0D0000000000000 ∧ (s.mappings 0 0).any pteDirty = true := by decide +kernel

/-- A dirty page with a source is fetched again where the host has chosen it; two nodes that are ended together, the one a
successor of the other. -/
theorem witness_MainMemoryEvents_choices :
    let s := { world testForm (testThread [] []) with
      roots := [(0, 0)], refetch := [0],
      clusters := [(0, { Cluster.reset with l2 := [tlbOf 0 0 0xC0D0000000000000] })] }
    s.refetchable 0 = some 0xC0D0000000000000 ∧ ({ s with refetch := [] } : State).refetchable 0 = none ∧
    (let t := { paged 2 with nodes := [(0, { testNode with succ := [0x80] }), (0x80, { testNode with va := 0x80 })] }
     (∀ p ∈ ([0x80] : List Nat), p ∈ [0, 0x80]) ∧ ((t.endNodes [0, 0x80]).nodes.map (·.1)) = []) := by decide +kernel

theorem witness_MainMemoryEvents_registers :
    bitsOf (0x8000000000001FFF : BitVec 64).toNat 63 63 = 1 ∧ bitsOf (0x8000000000001FFF : BitVec 64).toNat 62 43 = 0 ∧
    (State.reset.stack 0).remap = [] ∧ (6 ≤ (0x26 : Word).toNat % 32 ∧ (0x30 : Word).toNat % 32 ≤ 16) ∧
    List.find? (fun (p : Nat × Nat) => p.2 == 5) [(9, 5)] = some (9, 5) ∧ State.reset.modectl.getLsbD 3 = false ∧
    (0x8 : Word).getLsbD 3 = true ∧
    (let s := { State.reset with recctl := 2, play := [.seed 0 5] }
     s.replaying = true ∧ s.nextSeed 0 = some (.seed 0 5) ∧ s.nextSeed 1 = none) := by decide

theorem witness_MainMemoryEvents_windows :
    31 ∉ (State.reset.die 3).openBanks ∧ State.reset.clock % 40000 < 1280 ∧ windowOpen 1280 1 false false = true ∧
    windowOpen 0 1 false false = false ∧ windowOpen 0 0 false false = true ∧ windowOpen 1119 31 false true = true ∧
    windowOpen 1120 31 false true = false ∧ windowOpen 40000 31 true false = false ∧
    (40000 : Nat) / 40000 ≠ (State.reset.die 3).period := by decide

theorem witness_PowerEvents :
    let c := { Cluster.reset with stepping := some .phiUp, phi := 15, temp := 99, vf := List.replicate 25 0 }
    c.stepping = some .phiUp ∧ c.phi < 24 ∧ c.vf.length = 25 ∧ rising c.vf = true ∧ rising (c.vf.set 3 95) = false ∧
    c.threshold < c.temp ∧ c.thermalTick + 800000 ≤ 800000 ∧ c.migTick + 800000 ≤ 800000 ∧
    (State.reset.cluster 63).temp + 3 ≤ (State.reset.cluster 63).threshold ∧
    ({ c with stepping := some .voltUp, volt := 3, phi := 24 } : Cluster).volt < (c.vf.set 24 9).getD 24 95 ∧
    rising (c.vf.set 24 9) = true := by decide +kernel

theorem witness_PowerEvents_curve :
    rising ((List.range 25).map (fun n => n)) = true ∧ State.reset.package.low ≠ 9 ∧ ({ State.reset.package with low := 9 } : Package).low = 9 ∧
    (95 * State.reset.droop.ceiling ≤ 100 * 3230 ∧ 100 * 3229 < 95 * State.reset.droop.ceiling) := by decide

/-- A form that may move from hot cluster 0 to cluster 1. -/
def hot : State :=
  let f := { testForm with part := [0, 1], rcd := smallRecord }
  { world f (testThread [] []) with clock := 16000000, clusters := [(0, { Cluster.reset with temp := 104 })] }

theorem witness_PowerEvents_moves :
    (hot.movable 0).map (fun x => x.1) = some 0 ∧ hot.modectl.getLsbD 5 = false ∧ (hot.cluster 0).migTick + 800000 ≤ hot.clock ∧
    (hot.cluster 0).threshold < (hot.cluster 0).temp := by decide +kernel

theorem witness_PowerEvents_target :
    let f := { testForm with part := [0, 1], rcd := smallRecord }
    let seats := [{ core := 8, row := 0, lane := 0 }]
    hot.coolTarget 0 0 f = some 1 ∧ hot.placedWell (moveNeed 0 f) 1 seats = true ∧
    (0x20 : Word).getLsbD 5 = true ∧ Tab.find? 0 hot.forms = some f ∧ f.cluster = 0 ∧ f.phase = .running ∧ f.asked = false ∧
    f.move = none ∧ 1 ∈ f.part := by decide +kernel

theorem witness_DroopEvents :
    State.reset.modectl.getLsbD 4 = false ∧ (0x10 : Word).getLsbD 4 = true ∧ State.reset.droop.commit = false ∧ State.reset.droop.gap = false ∧
    State.reset.droop.lastTick + 8000000 ≤ 8000000 ∧ State.reset.clock < State.reset.droop.lastTick + 8000000 ∧
    ({ State.reset.droop with commit := true } : Droop).commit = true ∧
    curveOk defaultCurve State.reset.droop.shedt0 State.reset.droop.shedt1 = true ∧
    curveOk [127] State.reset.droop.shedt0 State.reset.droop.shedt1 = false ∧
    80000 * (State.reset.epoch + 1) ≤ 80000 ∧ State.reset.replayOwed = false ∧ State.reset.droop.level ≤ State.reset.droop.lnew := by decide +kernel

/-- A level of 3 with a lower new one, which the last 2,000 samples have earned or not. -/
theorem witness_DroopEvents_fall :
    let d := { State.reset.droop with level := 3, lnew := 0, hist := List.replicate 1999 0, fall := some 2 }
    d.lnew < d.level ∧ d.fall = some 2 ∧ State.reset.droop.fall = none ∧ d.hist.length = 1999 ∧
    ((0 :: d.hist).take 2000).length = 2000 ∧ (∀ x ∈ (0 :: d.hist).take 2000, x < d.level) := by
  refine ⟨by decide, rfl, by decide, by rw [List.length_replicate], by rw [List.length_take, List.length_cons, List.length_replicate]; rfl, ?_⟩
  intro x h
  have h : x ∈ List.replicate 2000 0 := List.mem_of_mem_take h
  rw [List.eq_of_mem_replicate h]; decide

theorem witness_DroopEvents_replay :
    let s := { State.reset with recctl := 2, play := [.sample 0 50000 400 true] }
    s.recctl.toNat % 4 = 2 ∧ s.nextSample = some (.sample (s.epoch - s.recFrom) 50000 400 true) ∧ s.sampleBroken = true ∧
    s.replaySample = some (.telemetrySample 50000 400) ∧ State.reset.recctl.toNat % 4 ≠ 2 ∧ State.reset.sampleBroken = false ∧
    (∀ b, s.nextSample ≠ some (.sample (s.epoch - s.recFrom) 60000 400 b)) ∧ State.reset.nextSample = none := by decide +kernel

theorem witness_DroopEvents_own :
    let s := world testForm (testThread [] [])
    0 ∈ s.groupsOf 0 ∧ ((s.reportsOf 0).any (fun r => r.group == 0 && r.member == 0 && r.epoch == 0)) = true := by decide +kernel

theorem witness_DroopEvents_groups :
    let r : Report := { group := 5, member := 4, epoch := 0, pos := { phi := 3, passes := 1 }, level := 2 }
    ((5, 4) ∈ [(5, 4)] ∧ (∀ x ∈ [r], ¬ (x.group = 5 ∧ x.member = 4 ∧ x.epoch = 1))) ∧
    (∀ m ∈ [(5, 4)], m.1 = 5 → ∃ x ∈ [r], x.group = 5 ∧ x.member = m.2 ∧ x.epoch = 0) := by decide

theorem witness_DroopEvents_forms :
    testForm.phase = .running ∧ (world testForm (testThread [] [])).groupsOf 1 = [] ∧ rampTable 0x00086421 = [1, 2, 4, 6, 8] ∧
    rampTable 0x00086420 = [] ∧ rising (rampTable 0x12) = false ∧ rampTable 0x9 = [9] := by decide +kernel

theorem witness_HostAndLinkEvents :
    (3 : Word).toNat % 4 = 3 ∧ (4 : Word).toNat % 4 = 0 ∧ (1 : Word).toNat % 4 = 1 ∧ (2 : Word).toNat % 4 = 2 ∧
    (∀ p ∈ State.reset.nodes, State.reset.nodeState p.1 ≠ 2) ∧ RecItem.region 0 0 0 false 0 ∈ [RecItem.region 0 0 0 false 0] ∧
    State.reset.booted = false ∧ (paged 0).booted = true ∧ kernelOf [none, some [7]] = some (1, [7]) ∧
    partitionsOk [[0], [1, 2]] = true ∧ (0x2000 : Nat) % 8192 = 0 ∧
    (0x10 : Word).getLsbD 4 = true ∧ State.reset.modectl.getLsbD 4 = false := by decide +kernel

theorem witness_HostAndLinkEvents_mail :
    let key := mailKey 16 15
    [[], [({ words := [7], sender := none } : Msg)], [{ words := [7, 8], sender := none }], [{ words := [7], sender := some (0, 0) }]].all
      (fun q => Tab.getD [] key [(key, q)] == q) = true ∧
    ((List.replicate 15 [(0 : Word)]).map List.length).sum + 1 = 16 ∧ ((List.replicate 16 [(0 : Word)]).map List.length).sum + 1 = 17 ∧
    ((List.replicate 14 [(0 : Word)]).map List.length).sum + 2 = 16 := by
  decide

/-- A recording that begins with the follower and a seed of the stack 3. -/
theorem witness_HostAndLinkEvents_replay :
    let d := { State.reset.droop with level := 3 }
    let s := { State.reset with nvme := [.follower d, .seed 3 7] }
    s.nvme.head? = some (.follower d) ∧
    s.nvme.find? (fun x => match x with | .seed i _ => i == 3 | _ => false) = some (.seed 3 7) ∧ RecItem.follower d ≠ .seed 3 7 := by
  decide +kernel

/-- A flit for this device whose CRC is right, and the same with another. -/
theorem witness_HostAndLinkEvents_flits :
    let fl : Flit := { cls := 1, len := 56, dest := Config.deviceId, seq := 0, tag := 3, payload := [], ack := 0, crc := 0 }
    let good := { fl with crc := Config.crc64 (flitBytes fl) }
    let bad := { fl with crc := Config.crc64 (flitBytes fl) + 1 }
    good.dest = Config.deviceId ∧ good.crc = Config.crc64 (flitBytes good) ∧ bad.crc ≠ Config.crc64 (flitBytes bad) ∧
    (State.reset.port 15).up = true ∧ (State.reset.port 15).inOrder good = true ∧ State.reset.threads = [] ∧
    (State.reset.port 15).failed = false ∧ (State.reset.port 15).held = [] ∧ SMap.wf 0 (State.reset.port 15).seqs = true ∧
    ((State.reset.port 15).take good).rx = [good] ∧ (∃ d, d ≠ Config.deviceId) ∧ State.reset.collGroups = [] := by
  refine ⟨rfl, rfl, ?_, by decide, by decide, rfl, rfl, rfl, by decide, rfl, ⟨Config.deviceId + 1, by omega⟩, by decide⟩
  show Config.crc64 _ + 1 ≠ Config.crc64 _
  intro h
  have := congrArg (fun x => x - Config.crc64 (flitBytes { cls := 1, len := 56, dest := Config.deviceId, seq := 0, tag := 3, payload := [], ack := 0, crc := 0 })) h
  simp only [flitBytes] at this
  bv_omega

/-- After a failed flit: one that is not the next waits, the next is delivered, and one that came before is dropped. -/
theorem witness_HostAndLinkEvents_failed :
    let fl := fun (n : Nat) => ({ cls := 1, len := 56, dest := 0, seq := n, tag := 3, payload := [], ack := 0, crc := 0 } : Flit)
    let p := { Port.reset with failed := true, next := 1, seqs := [(1, 1)] }
    seqLe 2 1 = false ∧ (p.take (fl 2)).held = [fl 2] ∧ (p.take (fl 1)).rx = [fl 1] ∧ (p.take (fl 0)).rx = [] ∧ seqLe 0 1 = true ∧
    ((p.take (fl 2)).take (fl 1)).rx = [fl 1, fl 2] ∧
    (world testForm (testThread [] [{ testClause .control [] with acts := [.arrive 3 0 none true] }])).threads.any
      (fun y => y.2.holdsCounter 3) = true := by decide

/-! ## Witnesses: the invariants -/

theorem witness_MemoryKeepsItsForm :
    State.reset.memoryWf = true ∧ (match step State.reset with | .next t => t.memoryWf | _ => false) = true := by decide +kernel

/-- The condition of the voltage on one cluster. -/
theorem witness_VoltageCoversTheFrequency :
    let c := { Cluster.reset with vf := List.range 25, volt := 24, phi := 24, stepping := none }
    c.vf.length = 25 ∧ rising c.vf = true ∧ c.phi ≤ 24 ∧ c.vfAt c.phi ≤ c.volt ∧ c.maxPhi ≤ 24 ∧
    ({ c with phi := 23, stepping := some .phiUp } : Cluster).vfAt 24 ≤ c.volt ∧
    ({ c with phi := 23 } : Cluster).vfAt 23 < c.volt := by decide +kernel

/-! ## Single steps: the results that the spec prints -/

/-- What one word of a class leaves in g5 of its clause's buffer, from these g registers. -/
def g5After (c : Sys2Proof.Class) (i : Instr) (g : SMap Word) : Option Word :=
  match exec i (inWord c i g) with
  | .next s => (Tab.find? 0 s.threads).bind (fun th => (th.clauses[0]?).bind (fun x => x.gw.lookup 5))
  | _ => none

/-- The same in the LANE class with g6 and g7 as the operands. -/
def lane (i : Reg → Reg → Src → Instr) (a b : Word) : Option Word :=
  g5After .lane (i (.g 5) (.g 6) (.reg (.g 7))) [(6, a), (7, b)]

/-- The same for a destructive form, with g5 before. -/
def laneD (i : Reg → Reg → Src → Instr) (d a b : Word) : Option Word :=
  g5After .lane (i (.g 5) (.g 6) (.reg (.g 7))) [(5, d), (6, a), (7, b)]

/-- The numeric status that the clause will OR into NS. -/
def nsAfter (c : Sys2Proof.Class) (i : Instr) (g : SMap Word) : Option (BitVec 5) :=
  match exec i (inWord c i g) with
  | .next s => (Tab.find? 0 s.threads).bind (fun th => (th.clauses[0]?).map (fun x => x.nsOr))
  | _ => none

/-- R389's, R352's and MAD's numbers. -/
theorem test_arithmetic :
    [lane (Instr.sub .satN) 3 5, lane (Instr.sub .satI) 0x80000000 1, lane (Instr.mulh .i) 0xFFFFFFFF 2,
     lane (Instr.mulh .n) 0xFFFFFFFF 2, laneD Instr.mad 0xFFFFFFFF 2 3].map (fun x => x.getD 77) =
    [0, 0x80000000, 0xFFFFFFFF, 1, 5] := by decide +kernel

/-- R354's and ABS's most negative number, and MAX and MIN of 0xFFFFFFFF and 1. -/
theorem test_extremes :
    [lane (fun d _ b => .neg .wrap d b) 0 0x80000000, lane (fun d _ b => .neg .sat d b) 0 0x80000000,
     lane (Instr.max .i) 0xFFFFFFFF 1, lane (Instr.max .n) 0xFFFFFFFF 1, lane (Instr.min .i) 0xFFFFFFFF 1,
     lane (Instr.min .n) 0xFFFFFFFF 1, lane (fun d _ b => .clz d b) 1 0].map (fun x => x.getD 77) =
    [0x80000000, 0x7FFFFFFF, 1, 0xFFFFFFFF, 0xFFFFFFFF, 1, 32] := by decide +kernel

/-- Bit fields (R318) and shifts (R382, R383). -/
theorem test_shifts :
    [lane (Instr.bfx .n) 0xF00 0x408, lane (Instr.bfx .i) 0xF00 0x408, lane (Instr.bfx .n) 0xA0000000 0x81C,
     lane (fun d a b => .shl d a (.src b)) 1 40, lane (fun d a b => .shr .i d a (.src b)) 0xFFFFFFFB 1,
     lane (fun d a b => .shr .i d a (.src b)) 0x80000000 32, lane (fun d a b => .shrr d a (.src b)) 0x80000000 32,
     lane (fun d a b => .shrr d a (.src b)) 0x7FFFFFFF 1].map (fun x => x.getD 77) =
    [0xF, 0xFFFFFFFF, 0xA, 0, 0xFFFFFFFD, 0xFFFFFFFF, 0, 0x40000000] := by decide +kernel

/-- R357's table, and SAT of its .x forms. -/
theorem test_packed :
    [lane (Instr.pack true) 40000 0xFFFFFFFB, lane (Instr.padd .wrap) 0x7FFF0001 0x0001FFFF,
     lane (Instr.padd .sat) 0x7FFF0001 0x0001FFFF, lane (Instr.psub .sat) 0x8000 1,
     laneD (Instr.pdot2 true) 0 0x80008000 0x80008000].map (fun x => x.getD 77) =
    [0xFFFB7FFF, 0x80000000, 0x7FFF0000, 0x8000, 0x7FFFFFFF] ∧
    nsAfter .lane (.pack true (.g 5) (.g 6) (.reg (.g 7))) [(6, 40000), (7, 1)] =
      nsAfter .lane (.pdot2 true (.g 5) (.g 6) (.reg (.g 7))) [(6, 0x80008000), (7, 0x80008000)] ∧
    nsAfter .lane (.pack true (.g 5) (.g 6) (.reg (.g 7))) [(6, 40000), (7, 1)] ≠ some 0 ∧
    nsAfter .lane (.pack false (.g 5) (.g 6) (.reg (.g 7))) [(6, 40000), (7, 1)] = some 0 := by decide +kernel

/-- R331's table of conversions. -/
theorem test_conversions :
    [lane (fun d _ b => .fcvt .iRz d .z b) 0 0xC02CCCCD, lane (fun d _ b => .fcvt .iRz d .z b) 0 0x4F32D05E,
     lane (fun d _ b => .fcvt .iRz d .z b) 0 0xFF800000, lane (fun d _ b => .fcvt .iRn d .z b) 0 0x40200000,
     lane (fun d _ b => .fcvt .iRn d .z b) 77 0x7FC00000, lane (fun d _ b => .fcvt .fI d .z b) 0 0x7FFFFFFF,
     lane (fun d _ b => .fcvt .fN d .z b) 0 0xFFFFFFFF, laneD (fun d _ b => .fcvt (.t8 0) d .z b) 0xAABBCCDD 0 0x40400000,
     lane (fun d _ b => .fcvt (.fT8 1) d .z b) 0 0x0000B400].map (fun x => x.getD 77) =
    [0xFFFFFFFE, 0x7FFFFFFF, 0x80000000, 2, 0, 0x4F000000, 0x4F800000, 0xAABBCC58, 0xBF200000] := by decide +kernel

/-- FFMA rounds once; FMUL and FADD round twice (R334's note); FSUB of equal values (its note). -/
theorem test_floating_point :
    [laneD (Instr.ffma .rn) 0x3F800000 0x3F800800 0xBF800800, lane (Instr.fmul .rn) 0x3F800800 0xBF800800,
     lane (Instr.fadd .rn) 0x3F800000 0xBF801000, lane (Instr.fsub .rn) 0x3F800000 0x3F800000,
     lane (Instr.fsub .rd) 0x3F800000 0x3F800000].map (fun x => x.getD 77) =
    [0xBA000400, 0xBF801000, 0xBA000000, 0, 0x80000000] := by decide +kernel

/-- The values of the SFU that leave no choice (R76, COSPI's note, R360, R387). -/
theorem test_special_functions :
    cospiList 0x3F800000 = [0xBF800000] ∧ cospiList 0x3F000000 = [0] ∧ rcpList 0x40000000 = [0x3F000000] ∧
    sqrtVal 0x80000000 = 0x80000000 ∧ sqrtVal 0xBF800000 = 0x7FC00000 ∧ sqrtVal 0x40800000 = 0x40000000 := by decide +kernel

/-- The worked encodings of R63. -/
theorem test_tapered :
    [(0x3F800000, 0x40), (0xC0000000, 0xD0), (0x40400000, 0x58), (0x42C80000, 0x79), (0x3E99999A, 0x23), (0x45200000, 0x7E),
     (0x459C4000, 0x7F), (0x358637BD, 0x01), (0x7FC00000, 0x80)].all
      (fun (p : Word × Nat) => encodeT8 (valOfFP32 p.1) == p.2) = true ∧
    [(0x3F800000, 0x10), (0x40400000, 0x16), (0x7FC00000, 0x20)].all (fun (p : Word × Nat) => encodeT6 (valOfFP32 p.1) == p.2) = true := by
  decide +kernel

/-- What the members of the bench of R381's note give each other: lanes 0, 1, 2, 4 and 5, each 10 + BLANE. -/
def shared : List (Nat × Word) := [(0, 10), (1, 11), (2, 12), (4, 14), (5, 15)]

/-- The table of R381's note. -/
theorem test_exchanges :
    [0, 1, 2, 4, 5].map (fun k => slideVal .upW 8 k shared 99 1) = [99, 10, 11, 99, 14] ∧
    [0, 1, 2, 4, 5].map (fun k => slideVal .dnW 8 k shared 99 1) = [11, 12, 99, 15, 99] ∧
    srcLane 8 shared 99 ((9 % 8 : Nat) : Int) = 11 ∧ srcLane 8 shared 99 9 = 99 ∧ srcLane 8 shared 99 3 = 99 ∧
    ballot shared = 0x37 := by decide

/-- R74's worked example: four products of 2^−25 round once with 1.0. -/
theorem test_group_rounds_once :
    (addGroup 0x3F800000 (List.replicate 4 (.val (valOfBF16 0x3980), valOfBF16 0x3900))).1 = 0x3F800001 := by decide +kernel

/-- The step after withFetchWord dispatches and runs the word: `add g5, g6, g7` (R232) of registers that hold 0. -/
theorem test_fetch_word_runs :
    (match step (State.reset.withFetchWord 32 0x04014307) with
     | .next s => (Tab.find? 0 s.threads).bind (fun th => (th.clauses[0]?).bind (fun x => x.gw.lookup 5))
     | _ => none) = some 0 := by decide +kernel

/-- The machine's own next act (the agenda is empty): nothing at reset, the epoch boundary when its time has come. -/
theorem witness_own_acts :
    State.reset.nextActs = [] ∧ ({ State.reset with clock := 80000 } : State).nextActs.head? = some (.event .epochBoundary) := by
  decide +kernel

/-- A form with a save area of the core place of one register at hall address 256, with this identification byte. -/
def savedForm (word0 : Word) : Form := { testForm with hall := SMap.setList 0 256 (leBytes 4 word0.toNat) [] }

theorem witness_SaveAndRestoreAreas :
    opened (world testForm { testThread [(6, 256)] [testClause .control [(0, .savep .core (.g 6))]] with place := [(5, .core)] }) (fun e =>
      e.i == 0 && e.th.lats.isEmpty &&
      isOk (objCheck e.fm (e.reg (.g 6)).toNat (128 + 4 * (regsAt e.th.place e.th.w .core).length) 4 false)) = true ∧
    [((0x00010101 : Word), 1, 1), (0x00010201, 1, 2), (0x00020101, 2, 1)].all (fun (x : Word × Nat × Nat) =>
      opened (world (savedForm x.1) { testThread [(6, 256)] [testClause .control [(0, .loadp .core (.g 6))]] with place := [(5, .core)] })
        (fun e => e.i == 0 &&
          (match e.rawImage (e.reg (.g 6)) 128 4 false, e.rawImage (e.reg (.g 6)) 132 4 false with
           | .ok hd, .ok area => (hd.getD 0 0).toNat % 256 == (regsAt e.th.place e.th.w .core).length &&
               (area.getD 0 0).toNat / 65536 == x.2.1 && (area.getD 0 0).toNat / 256 % 256 == x.2.2 && Place.core.code == 1
           | _, _ => false))) = true ∧
    mapOk testRecord 8 (areaPlaces []) = true ∧
    mapOk testRecord 8 (areaPlaces (List.replicate 12 0 ++ List.replicate 8 (0x55555555 : Word))) = false := by decide +kernel

/-- A save area whose word is poisoned, and one that another thread's clause holds reserved. -/
theorem witness_SaveAndRestoreAreas_stops :
    opened (inWord .control (.loadp .core (.g 6)) [(6, 256)]) (fun e =>
      faultsWith (({ e with fm := { e.fm with tags := [(64, .poisoned)] } } : Env).rawImage (e.reg (.g 6)) 128 4 false) 0x0F &&
      waitsFor (({ e with fm := { e.fm with resv := [(64, 9)] } } : Env).rawImage (e.reg (.g 6)) 128 4 false)
        .reservation) = true := by decide +kernel

/-- Words with a reserved FN, with an A that must be 124 but is not, and with an immediate amount above 31. -/
theorem witness_ReservedFunctions :
    [(0x04614307 : Word), 0x08614307, 0x0C214307, 0x18214307].map (fun w => field (itemOf .lane [w]).w0 25 21) = [3, 3, 1, 1] ∧
    ((itemOf .lane [0x38014307]).listed = true ∧ field (0x38014307 : Word) 31 26 = 0x0E ∧ field (0x38014307 : Word) 25 21 = 0 ∧
     field (0x38014307 : Word) 13 7 ≠ 124) ∧
    ((itemOf .lane [0x24414320]).listed = true ∧ field (0x24414320 : Word) 31 26 = 0x09 ∧ field (0x24414320 : Word) 25 21 = 2 ∧
     32 ≤ field (0x24414320 : Word) 6 0) := by decide +kernel

end Sys2Proof.Tests
end

namespace Sys2Proof.FirstPrograms
open Sys2Proof Sys2Proof.Machine

/-- What decodes to an instruction and the words after it, as an optional value. -/
theorem toOption_decodeWords_of_ok {c : Sys2Proof.Class} {ws rest : List Word} {i : Instr}
    (h : decodeWords c ws = .ok (i, rest)) : (decodeWords c ws).toOption = some (i, rest) :=
  congrArg Except.toOption h

/-- Settles O1. Each printed word is read through the law of its format (R224 to R230); what is left of each, the format of
its OP, its operand code and the item's decoding, is computed. -/
theorem printedWordsDecode : Obligations.PrintedWordsDecode := by
  unfold Obligations.PrintedWordsDecode
  refine ⟨?mul, ?add, ?shl, ?st, ?tanh, ?xshfl, ?movScalar, ?brnz, ?trap, ?cpy, ?sghash⟩ <;>
    apply toOption_decodeWords_of_ok
  case mul => exact decodeWords_A (b := .lit 3) [] rfl rfl rfl rfl
  case add => exact decodeWords_A (b := .lit 7) [] rfl rfl rfl rfl
  case shl => exact decodeWords_one [] (f := .a) rfl (by decide) rfl rfl
  case st => exact decodeWords_one [] (f := .im) rfl (by decide) rfl rfl
  case tanh => exact decodeWords_A (b := .reg (.g 21)) [] rfl rfl rfl rfl
  case xshfl => exact decodeWords_W2 (b := .reg (.g 4)) [] rfl rfl rfl rfl
  case movScalar => exact decodeWords_SS (a := .lit 0xFF) [] rfl rfl rfl
  case brnz => exact decodeWords_one [] (f := .b) rfl (by decide) rfl rfl
  case trap => exact decodeWords_A (b := .lit 5) [] rfl rfl rfl rfl
  case cpy => exact decodeWords_W2 (b := .reg .z) [] rfl rfl rfl rfl
  case sghash => exact decodeWords_A (b := .lit 0x1000) [] rfl rfl rfl rfl

end Sys2Proof.FirstPrograms

namespace Sys2Proof.WorkAndItsShape
open Sys2Proof Sys2Proof.Machine

/-! ## The best of a list, kept while the list is walked -/

section Best
variable {α : Type} {r : α → α → Prop} [DecidableRel r]

/-- The better of the one kept so far and the next. -/
def better (r : α → α → Prop) [DecidableRel r] (m z : α) : α := if r z m then z else m

/-- What is not better than the one kept is not better than any kept later. -/
theorem not_better_foldl (trans : ∀ a b c, r a b → r b c → r a c) {x y : α} (h : ¬ r y x) (l : List α) :
    ¬ r y (l.foldl (better r) x) := by
  induction l generalizing x with
  | nil => exact h
  | cons z l ih =>
    refine ih ?_
    unfold better
    split
    next hz => exact fun hy => h (trans _ _ _ hy hz)
    next => exact h

/-- Keeping the better of two along a list ends at a member than which no member is better, for a strict order. -/
theorem foldl_better (irrefl : ∀ a, ¬ r a a) (trans : ∀ a b c, r a b → r b c → r a c) (l : List α) (x : α) :
    l.foldl (better r) x ∈ x :: l ∧ ∀ y ∈ x :: l, ¬ r y (l.foldl (better r) x) := by
  induction l generalizing x with
  | nil => simp [irrefl]
  | cons z l ih =>
    obtain ⟨hmem, hbest⟩ := ih (better r x z)
    rw [List.foldl_cons]
    by_cases hz : r z x
    · have hx : ¬ r x z := fun hx => irrefl _ (trans _ _ _ hx hz)
      rw [show better r x z = z from if_pos hz] at hmem hbest ⊢
      exact ⟨List.mem_cons_of_mem _ hmem, List.forall_mem_cons.2 ⟨not_better_foldl trans hx l, hbest⟩⟩
    · rw [show better r x z = x from if_neg hz] at hmem hbest ⊢
      obtain ⟨hxbest, hlbest⟩ := List.forall_mem_cons.1 hbest
      exact ⟨List.mem_cons.2 ((List.mem_cons.1 hmem).imp id (List.mem_cons_of_mem _)),
        List.forall_mem_cons.2 ⟨hxbest, List.forall_mem_cons.2 ⟨not_better_foldl trans hz l, hlbest⟩⟩⟩

end Best
end Sys2Proof.WorkAndItsShape

namespace Sys2Proof.WorkAndItsShape
open Sys2Proof Sys2Proof.Machine

/-! ## NOP, YIELD, EXIT, FENCE and SLEEP (R28, R122, R129, R135, R179, R328, R332, R355, R385) -/

/-- No matrix write of the thread is in flight: what a release waits for, read off the form's outstanding operations. -/
theorem storesDone_iff (e : Env) : e.storesDone = true ↔
    ∀ c ∈ e.fm.ctxs, ∀ x ∈ c.ops, storesMemory x.ins = true → ∀ l ∈ e.th.lats, l.kind ≠ .matrix x.id := by
  simp [Env.storesDone, or_iff_not_imp_left]

theorem readsDone_iff (th : Thread) : th.readsDone = true ↔ ∀ l ∈ th.lats, l.kind ≠ .value := by
  simp [Thread.readsDone]

theorem acquires_eq_false_iff (o : Order) : acquires o = false ↔ o = .rel := by cases o <;> simp [acquires]

theorem releases_eq_false_iff (o : Order) : releases o = false ↔ o = .acq := by cases o <;> simp [releases]

/-- What a FENCE that acquires waits for is done, or the FENCE does not acquire. -/
theorem fenceReads_iff (o : Order) (th : Thread) :
    (!acquires o || th.readsDone) = true ↔ o = .rel ∨ ∀ l ∈ th.lats, l.kind ≠ .value := by
  simp [readsDone_iff, acquires_eq_false_iff]

/-- What a FENCE that releases waits for is done, or the FENCE does not release. -/
theorem fenceStores_iff (o : Order) (e : Env) :
    (!releases o || e.storesDone) = true ↔ o = .acq ∨
      ∀ c ∈ e.fm.ctxs, ∀ x ∈ c.ops, storesMemory x.ins = true → ∀ l ∈ e.th.lats, l.kind ≠ .matrix x.id := by
  simp [storesDone_iff, releases_eq_false_iff]

section Words
variable {s : State} {e : Env} (h : openWord s = some e)
include h

theorem exec_fence_of_done (hi : e.i = 0) (o : Order) (sc : Scope) (hr : (!acquires o || e.th.readsDone) = true)
    (hs : (!releases o || e.storesDone) = true) : exec (.fence o sc) s = .next (e.after (fun c => c)) :=
  runWord_after _ h (by simp [Env.notHeld_first hi, hr, hs, Function.id_def])

/-- A FENCE waits as long as what its order names is not done, whichever of the two it is. -/
theorem exec_fence_waits (hi : e.i = 0) (o : Order) (sc : Scope)
    (hw : (!acquires o || e.th.readsDone) = false ∨ (!releases o || e.storesDone) = false) :
    exec (.fence o sc) s = .next (e.waiting .fence s) := by
  refine runWord_waiting h ?_
  cases hr : (!acquires o || e.th.readsDone)
  · simp [Env.notHeld_first hi, openWord_state h]
  · simp [Env.notHeld_first hi, hw.resolve_left (by simp [hr]), openWord_state h]

theorem exec_fence_held (hi : e.i ≠ 0) (o : Order) (sc : Scope) : exec (.fence o sc) s = .next (e.waiting .held s) :=
  runWord_waiting h (by simp [Env.notHeld_behind hi, openWord_state h])

theorem exec_exit_held (hi : e.i ≠ 0) : exec .exit s = .next (e.waiting .held s) :=
  runWord_waiting h (by simp [Env.notHeld_behind hi, openWord_state h])

theorem exec_exit_of_quiet (hi : e.i = 0) (hl : e.th.lats = []) :
    exec .exit s = .next (e.after (fun c => { c with acts := c.acts ++ [.exit] })) :=
  runWord_after _ h (by simp [Env.notHeld_first hi, hl, Clause.act_eq])

theorem exec_exit_drains (hi : e.i = 0) (hl : e.th.lats ≠ []) : exec .exit s = .next (e.waiting .drain s) :=
  runWord_waiting h (by simp [Env.notHeld_first hi, List.isEmpty_eq_false_iff.2 hl, openWord_state h])

/-- A SLEEP that has begun ends at its cycle. -/
theorem exec_sleep_again {till : Nat} (hw : e.cl.wait = .sleep till) (b : Src) :
    exec (.sleep b) s = if till ≤ (s.cluster e.fm.cluster).cyc then .next (e.after (fun c => c))
      else .next (e.waiting (.sleep till) s) := by
  split
  · exact runWord_after _ h (by simp [*, openWord_state h, Function.id_def])
  · exact runWord_waiting h (by simp [*, openWord_state h])

/-- A SLEEP that begins waits for its count of cycles, or not at all where that is 0. -/
theorem exec_sleep_first (hw : ∀ till, e.cl.wait ≠ .sleep till) (b : Src) :
    exec (.sleep b) s = if e.src b = 0 then .next (e.after (fun c => c))
      else .next (e.waiting (.sleep ((s.cluster e.fm.cluster).cyc + 32 * (e.src b).toNat)) s) := by
  split
  next h0 => exact runWord_after _ h (by simp [h0, Function.id_def])
  next h0 =>
    have hne : e.src b ≠ 0#32 := h0
    exact runWord_waiting h (by simp [hne, openWord_state h])

end Words

/-- Settles O36. Each word's meaning is a row of conditions, so that each clause of the statement is the lemma about
the condition that holds or fails. -/
theorem waitingAndLeaving : Obligations.WaitingAndLeaving := by
  unfold Obligations.WaitingAndLeaving
  refine ⟨completes_of fun _ => rfl, completes_of fun _ => rfl, storesDone_iff, fun s e h => ⟨?done, ?acquiring, ?releasing,
    fun hi => ⟨exec_fence_held h hi, exec_exit_held h hi⟩, exec_exit_of_quiet h, exec_exit_drains h, fun b => ?sleep⟩⟩
  case done =>
    exact fun hi o sc hr hs => exec_fence_of_done h hi o sc ((fenceReads_iff o e.th).2 hr) ((fenceStores_iff o e).2 hs)
  case acquiring =>
    rintro hi o sc ho ⟨l, hl, hk⟩
    refine exec_fence_waits h hi o sc (.inl (Bool.eq_false_iff.2 fun hr => ?_))
    exact ((fenceReads_iff o e.th).1 hr).elim ho fun hall => hall l hl hk
  case releasing =>
    rintro hi o sc ho ⟨c, hc, x, hx, hst, l, hl, hk⟩
    refine exec_fence_waits h hi o sc (.inr (Bool.eq_false_iff.2 fun hs => ?_))
    exact ((fenceStores_iff o e).1 hs).elim ho fun hall => hall c hc x hx hst l hl hk
  case sleep =>
    refine ⟨fun till hw ht => ?_, fun till hw ht => ?_, fun hw h0 => ?_, fun hw h0 => ?_⟩
    · rw [exec_sleep_again h hw, if_pos ht]
    · rw [exec_sleep_again h hw, if_neg (by omega)]
    · rw [exec_sleep_first h hw, if_pos h0]
    · rw [exec_sleep_first h hw, if_neg h0]

end Sys2Proof.WorkAndItsShape

namespace Sys2Proof.WorkAndItsShape
open Sys2Proof Sys2Proof.Machine

/-! ## RDSR and WRSR (R19, R60, R171, R203, R361 to R363, R392) -/

section Words
variable {s : State} {e : Env} (h : openWord s = some e)
include h

theorem exec_rdsr_first (d : Reg) (r : Fin 26) (hi : e.i = 0) :
    exec (.rdsr d r) s = .next (e.after (fun c =>
      let c1 := c.put d (e.special r.val)
      if r.val = 13 then { c1 with acts := c1.acts ++ [.clk (BitVec.ofNat 64 s.clock)] } else c1)) :=
  runWord_after _ h (by simp [Env.notHeld_first hi, openWord_state h, Clause.act_eq])

theorem exec_rdsr_held (d : Reg) (r : Fin 26) (hi : e.i ≠ 0) : exec (.rdsr d r) s = .next (e.waiting .held s) :=
  runWord_waiting h (by simp [Env.notHeld_behind hi, openWord_state h])

theorem exec_wrsr_ns (b : Src) : exec (.wrsr .ns b) s =
    .next (e.after (fun c => { c with acts := c.acts ++ [.wrNs ((e.src b).truncate 5)] })) :=
  Eq.trans (b := execWrsr .ns b s) rfl (by unfold execWrsr; exact runWord_after _ h rfl)

theorem exec_wrsr_prio (b : Src) (hb : (e.src b).toNat < 128) : exec (.wrsr .prio b) s =
    .next (e.after (fun c => { c with acts := c.acts ++ [.wrPrio (e.src b).toNat] })) :=
  runWord_after _ h (by simp [hb, Clause.act_eq])

theorem exec_wrsr_prio_fault (b : Src) (hb : 128 ≤ (e.src b).toNat) :
    exec (.wrsr .prio b) s = .next (e.trapped 0x04 0 0) :=
  runWord_trapped h (by simp [Nat.not_lt.2 hb])

end Words


/-! ### The next refresh window (R96, R97) -/

/-- The ticks from a tick until a moment of each period of 40,000 ticks: at least 1. -/
def untilNext (clock o : Nat) : Nat :=
  let d := (o + 40000 - clock % 40000) % 40000
  if d = 0 then 40000 else d

/-- The refresh windows of a die, each by the ticks until it opens and its bank, as `wsrsOf` lists them (R96, R97). -/
def windowsAhead (clock : Nat) (double : Bool) : List (Nat × Nat) :=
  (List.range 32).map (fun b => (untilNext clock (640 * b), b)) ++
    (if double then (List.range 32).map (fun b => (untilNext clock ((20000 + 640 * b) % 40000), b)) else [])

/-- The first of them to open. -/
def nextWindow (clock : Nat) (double : Bool) : Nat × Nat :=
  (windowsAhead clock double).foldl (better (fun a b => a.1 < b.1)) ((windowsAhead clock double).headD (0, 0))

theorem wsrsOf_eq (clock : Nat) (double : Bool) : wsrsOf clock double =
    BitVec.ofNat 32 ((nextWindow clock double).2 * 2 ^ 27 + (if double then 2 ^ 26 else 0) + (nextWindow clock double).1) := rfl

theorem untilNext_spec {o : Nat} (ho : o < 40000) (clock : Nat) :
    1 ≤ untilNext clock o ∧ untilNext clock o ≤ 40000 ∧ (clock + untilNext clock o) % 40000 = o ∧
      ∀ k, 1 ≤ k → (clock + k) % 40000 = o → untilNext clock o ≤ k := by
  unfold untilNext
  dsimp only
  split
  · exact ⟨by omega, by omega, by omega, by omega⟩
  · exact ⟨by omega, by omega, by omega, by omega⟩

/-- Whether a window of bank b opens at a tick (R96). -/
def opensAt (double : Bool) (b t : Nat) : Prop :=
  t % 40000 = 640 * b ∨ (double = true ∧ t % 40000 = (20000 + 640 * b) % 40000)

theorem mem_windowsAhead {clock : Nat} {double : Bool} {x : Nat × Nat} : x ∈ windowsAhead clock double ↔
    x.2 < 32 ∧ (x.1 = untilNext clock (640 * x.2) ∨ (double = true ∧ x.1 = untilNext clock ((20000 + 640 * x.2) % 40000))) := by
  obtain ⟨n, b⟩ := x
  cases double <;> simp [windowsAhead, Prod.ext_iff] <;> grind

theorem nextWindow_spec (clock : Nat) (double : Bool) : nextWindow clock double ∈ windowsAhead clock double ∧
    ∀ y ∈ windowsAhead clock double, (nextWindow clock double).1 ≤ y.1 := by
  have hne : windowsAhead clock double ≠ [] := by simp [windowsAhead]
  obtain ⟨w, ws, hw⟩ := List.exists_cons_of_ne_nil hne
  obtain ⟨hmem, hbest⟩ := foldl_better (r := fun a b : Nat × Nat => a.1 < b.1) (fun _ => Nat.lt_irrefl _)
    (fun _ _ _ => Nat.lt_trans) (w :: ws) w
  rw [nextWindow, hw]
  exact ⟨by simpa using hmem, fun y hy => Nat.le_of_not_lt (hbest y (List.mem_cons_of_mem _ hy))⟩

theorem opensAt_of_mem {clock : Nat} {double : Bool} {x : Nat × Nat} (h : x ∈ windowsAhead clock double) :
    opensAt double x.2 (clock + x.1) := by
  obtain ⟨hb, hx | ⟨hd, hx⟩⟩ := mem_windowsAhead.1 h
  · exact .inl (hx ▸ (untilNext_spec (by omega) clock).2.2.1)
  · exact .inr ⟨hd, hx ▸ (untilNext_spec (Nat.mod_lt _ (by decide)) clock).2.2.1⟩

theorem bounds_of_mem {clock : Nat} {double : Bool} {x : Nat × Nat} (h : x ∈ windowsAhead clock double) :
    x.2 < 32 ∧ 1 ≤ x.1 ∧ x.1 ≤ 40000 := by
  obtain ⟨hb, hx | ⟨-, hx⟩⟩ := mem_windowsAhead.1 h
  · obtain ⟨h1, h2, -, -⟩ := untilNext_spec (o := 640 * x.2) (by omega) clock
    exact ⟨hb, hx ▸ h1, hx ▸ h2⟩
  · obtain ⟨h1, h2, -, -⟩ := untilNext_spec (o := (20000 + 640 * x.2) % 40000) (Nat.mod_lt _ (by decide)) clock
    exact ⟨hb, hx ▸ h1, hx ▸ h2⟩

/-- No window opens before the first of them. -/
theorem nextWindow_first {clock k b : Nat} {double : Bool} (hk : 1 ≤ k) (hb : b < 32)
    (ho : opensAt double b (clock + k)) : (nextWindow clock double).1 ≤ k := by
  obtain h | ⟨hd, h⟩ := ho
  · exact ((nextWindow_spec clock double).2 (_, b) (mem_windowsAhead.2 ⟨hb, .inl rfl⟩)).trans
      ((untilNext_spec (by omega) clock).2.2.2 k hk h)
  · exact ((nextWindow_spec clock double).2 (_, b) (mem_windowsAhead.2 ⟨hb, .inr ⟨hd, rfl⟩⟩)).trans
      ((untilNext_spec (Nat.mod_lt _ (by decide)) clock).2.2.2 k hk h)

/-- The fields of WSRS (R97). -/
theorem wsrsOf_toNat (clock : Nat) (double : Bool) : (wsrsOf clock double).toNat =
    (nextWindow clock double).2 * 2 ^ 27 + (if double then 2 ^ 26 else 0) + (nextWindow clock double).1 := by
  obtain ⟨hb, -, hn⟩ := bounds_of_mem (nextWindow_spec clock double).1
  rw [wsrsOf_eq, BitVec.toNat_ofNat, Nat.mod_eq_of_lt]
  split <;> omega

theorem wsrs_spec (clock : Nat) (double : Bool) :
    (wsrsOf clock double).toNat % 2 ^ 16 = (nextWindow clock double).1 ∧
    (wsrsOf clock double).toNat / 2 ^ 27 = (nextWindow clock double).2 ∧
    (wsrsOf clock double).toNat / 2 ^ 26 % 2 = (if double then 1 else 0) ∧
    (wsrsOf clock double).toNat / 2 ^ 16 % 2 ^ 10 = 0 := by
  obtain ⟨hb, -, hn⟩ := bounds_of_mem (nextWindow_spec clock double).1
  rw [wsrsOf_toNat]
  cases double <;> simp <;> omega

/-! ### What RDSR reads -/

theorem capture_none {e : Env} (h : ∀ a ∈ e.cl.acts, ∀ v, a ≠ .clk v) : e.capture = e.th.clk := by
  rw [Env.capture, List.findSome?_eq_none_iff.2, Option.getD_none]
  intro a ha
  split
  next v => exact absurd rfl (h _ (List.mem_reverse.1 ha) v)
  next => rfl

theorem capture_last {e : Env} {xs ys : List CommitAct} {v : BitVec 64} (h : e.cl.acts = xs ++ .clk v :: ys)
    (hy : ∀ a ∈ ys, ∀ u, a ≠ .clk u) : e.capture = v := by
  rw [Env.capture, h, List.reverse_append, List.reverse_cons, List.append_assoc, List.findSome?_append,
    List.findSome?_eq_none_iff.2]
  · rfl
  · intro a ha
    split
    next u => exact absurd rfl (hy _ (List.mem_reverse.1 ha) u)
    next => rfl

theorem shedWord_toNat {fm : Form} (hp : fm.prio < 128) (hl : fm.level < 8) :
    (shedWord fm).toNat = (if fm.shed then 128 else 0) + fm.prio / 16 * 16 + fm.level := by
  rw [shedWord, BitVec.toNat_ofNat, Nat.mod_eq_of_lt]
  split <;> omega

theorem bitsOf_lt (v hi lo : Nat) : bitsOf v hi lo < 2 ^ (hi + 1 - lo) := Nat.mod_lt _ (by positivity)

theorem allotWord_toNat {w : Nat} (r : SMap Word) (hw : w ≤ 120) : (allotWord w r).toNat =
    w * 2 ^ 24 + Rec.allotCore r * 2 ^ 16 + Rec.allotCluster r * 2 ^ 8 + Rec.allotPier r := by
  have hcore : Rec.allotCore r < 2 ^ 8 := bitsOf_lt _ _ _
  have hcluster : Rec.allotCluster r < 2 ^ 8 := bitsOf_lt _ _ _
  have hpier : Rec.allotPier r < 2 ^ 8 := bitsOf_lt _ _ _
  rw [allotWord, BitVec.toNat_ofNat, Nat.mod_eq_of_lt (by omega)]

/-- Settles O38. RDSR and WRSR by their conditions; each register's value by its definition, but for CLOCKHI, WSRS, SHED
and ALLOT, whose words the lemmas above take apart. -/
theorem specialRegisters : Obligations.SpecialRegisters := by
  unfold Obligations.SpecialRegisters
  refine ⟨fun s e d r h => exec_rdsr_first h d r, fun s e d r h => exec_rdsr_held h d r,
    fun s e b h => ⟨exec_wrsr_ns h b, exec_wrsr_prio h b, exec_wrsr_prio_fault h b⟩, fun e => ?values, ?window⟩
  case values =>
    have clockhi : e.special 14 = BitVec.ofNat 32 (e.capture.toNat / 2 ^ 32) := rfl
    refine ⟨rfl, rfl, rfl, rfl, rfl, rfl, rfl, rfl, rfl, rfl, fun h => ?_, fun xs ys v h hy => ?_, rfl, rfl, rfl, rfl, rfl,
      shedWord_toNat, allotWord_toNat e.fm.rcd⟩
    · rw [clockhi, capture_none h]
    · rw [clockhi, capture_last h hy]
  case window =>
    intro clock double
    obtain ⟨hn, hb, hdouble, hzero⟩ := wsrs_spec clock double
    have hmem := (nextWindow_spec clock double).1
    obtain ⟨hb32, hn1, hn2⟩ := bounds_of_mem hmem
    dsimp only
    rw [hn, hb]
    exact ⟨hdouble, hzero, hn1, hn2, hb32, opensAt_of_mem hmem,
      fun k c hk hlt hc ho => absurd (nextWindow_first hk hc ho) (Nat.not_le.2 hlt)⟩

end Sys2Proof.WorkAndItsShape

namespace Sys2Proof.WorkAndItsShape
open Sys2Proof Sys2Proof.Machine

/-! ## Steps and the issue stage (R22 to R24, R32, R51; log 1, log 7, log 91) -/

/-! ### The word of a thread -/

theorem runs_of {s : State} {th : Thread} {fm : Form} (hf : Tab.find? th.form s.forms = some fm)
    (hl : th.status = .live) (hp : fm.phase = .running ∨ fm.phase = .yielding) : s.runs th = true := by
  simp [State.runs, hf, hl, hp]

theorem execNext_of_open {s : State} {e : Env} {ins : Instr} {idx : Nat} {q : List (Nat × Instr)}
    (h : openWord s = some e) (ht : e.cl.todo = (idx, ins) :: q) : s.execNext = exec ins s := by
  simp [State.execNext, h, ht]

/-- The open word of a thread whose words execute is executed when its turn comes. -/
theorem runAt_of_open {s : State} {t i : Nat} {th : Thread} {e : Env} {ins : Instr} {q : List (Nat × Instr)}
    (ht : Tab.find? t s.threads = some th) (hr : s.runs th = true) (hc : th.canRun i = true)
    (h : openWord { s with cur := t, curAt := some i } = some e) (hq : e.cl.todo = (e.idx, ins) :: q) :
    s.runAt t i = exec ins { s with cur := t, curAt := some i } := by
  simp [State.runAt, ht, hr, hc, execNext_of_open h hq]

theorem lt_length_of_canRun {th : Thread} {i : Nat} (h : th.canRun i = true) : i < th.clauses.length := by
  by_contra hi
  simp [Thread.canRun, List.getElem?_eq_none (Nat.le_of_not_lt hi)] at h

theorem find?_range_first {n i : Nat} {p : Nat → Bool} (hi : i < n) (hp : p i = true) (hlt : ∀ j, j < i → p j = false) :
    (List.range n).find? p = some i :=
  List.find?_range_eq_some.2 ⟨hp, List.mem_range.2 hi, fun j hj => by simp [hlt j hj]⟩

/-- A thread with no trap due and nothing to commit executes the first word that may execute. -/
theorem actThread_of_first {s : State} {t i : Nat} {th : Thread} (ht : Tab.find? t s.threads = some th)
    (ha : s.asyncTrap t = none) (hcom : s.canCommit t = false) (hc : th.canRun i = true)
    (hfirst : ∀ j, j < i → th.canRun j = false) : s.actThread t = s.runAt t i := by
  simp [State.actThread, ha, hcom, ht, find?_range_first (lt_length_of_canRun hc) hc hfirst]

/-- When a word may execute (R32, R45, R51). -/
theorem canRun_iff {th : Thread} {i : Nat} {c : Clause} (hc : th.clauses[i]? = some c) :
    th.canRun i = true ↔ c.todo ≠ [] ∧
       ∀ b ∈ th.clauses.take i, b.todo ≠ [] → placeOfClass b.hdr.cls ≠ placeOfClass c.hdr.cls ∧
         ∀ w ∈ c.words, (∀ n ∈ namesG w.2, SMap.get .lane n th.place ≠ placeOfClass b.hdr.cls) ∧
           (namesS w.2 ≠ [] → placeOfClass b.hdr.cls ≠ .core) := by
  simp [Thread.canRun, hc]
  grind


/-! ### The tick (log 7) -/

theorem find?_map {α β : Type} (k : Nat) (f : Nat × α → β) (m : Tab α) :
    Tab.find? k (m.map (fun p => (p.1, f p))) = (Tab.find? k m).map (fun v => f (k, v)) := by
  induction m with
  | nil => rfl
  | cons x m ih =>
    obtain ⟨j, v⟩ := x
    by_cases h : j = k
    · subst h; simp [Tab.find?]
    · simpa [Tab.find?, h] using ih

theorem cluster_of_find? {s : State} {c : Nat} {x : Cluster} (h : Tab.find? c s.clusters = some x) : s.cluster c = x := by
  simp [State.cluster, Tab.getD, h]

/-- What the end of streams leaves as it is: all but the clusters, and of these all but their runs. -/
structure SameButRuns (s t : State) : Prop where
  clock : t.clock = s.clock
  mem : t.mem = s.mem
  threads : t.threads = s.threads
  cyc : ∀ {c : Nat} {x : Cluster}, Tab.find? c s.clusters = some x → ∃ y, Tab.find? c t.clusters = some y ∧ y.cyc = x.cyc

theorem SameButRuns.refl (s : State) : SameButRuns s s := ⟨rfl, rfl, rfl, fun h => ⟨_, h, rfl⟩⟩

theorem SameButRuns.trans {s t u : State} (h : SameButRuns s t) (g : SameButRuns t u) : SameButRuns s u where
  clock := g.clock.trans h.clock
  mem := g.mem.trans h.mem
  threads := g.threads.trans h.threads
  cyc hx := by
    obtain ⟨y, hy, hyx⟩ := h.cyc hx
    obtain ⟨z, hz, hzy⟩ := g.cyc hy
    exact ⟨z, hz, hzy.trans hyx⟩

theorem endStream_same (s : State) (core : Nat) : SameButRuns s (s.endStream core) := by
  unfold State.endStream
  dsimp only
  split
  next =>
    refine ⟨rfl, rfl, rfl, fun {c x} hx => ?_⟩
    by_cases hc : core / 8 = c
    · subst hc
      exact ⟨_, Tab.find?_put_same _ _ _, by rw [cluster_of_find? hx]⟩
    · exact ⟨x, (Tab.find?_put_ne _ _ hc).trans hx, rfl⟩
  next => exact SameButRuns.refl s

theorem endStreams_same (s : State) : SameButRuns s s.endStreams :=
  List.foldlRecOn _ _ (SameButRuns.refl s) fun t ht c _ => ht.trans (endStream_same t c)

theorem tick_clock (s : State) : s.tick.clock = s.clock + 1 := (endStreams_same _).clock

theorem tick_mem (s : State) : s.tick.mem = s.mem := (endStreams_same _).mem

/-- In a tick a thread only ages. -/
theorem find?_tick_threads (s : State) (k : Nat) : Tab.find? k s.tick.threads = (Tab.find? k s.threads).map (fun th =>
    { th with age := if s.eligible (k, th) then th.age + 16 + (s.cluster (th.core / 8)).phi else 0 }) := by
  rw [show s.tick.threads = _ from (endStreams_same _).threads]
  exact find?_map k s.grown s.threads

theorem find?_tick_clusters {s : State} {c : Nat} {x : Cluster} (h : Tab.find? c s.clusters = some x) :
    ∃ y, Tab.find? c s.tick.clusters = some y ∧ y.cyc = x.cyc + 16 + x.phi := by
  refine (endStreams_same _).cyc (x := { x with cyc := x.cyc + 16 + x.phi, waitedBefore := !x.requests.isEmpty }) ?_
  exact (find?_map c _ s.clusters).trans (by rw [h]; rfl)

/-! ### The issue stage (R22, R23) -/

theorem olderThread_iff (a b : Nat × Thread) : olderThread a b = true ↔
    b.2.age < a.2.age ∨ (b.2.age = a.2.age ∧ (a.2.row < b.2.row ∨ (a.2.row = b.2.row ∧
      (a.2.lane < b.2.lane ∨ (a.2.lane = b.2.lane ∧ a.1 < b.1))))) := by
  simp [olderThread]

/-- One thread is older than another: a strict order, in which two threads that neither precedes are alike to any third. -/
abbrev Older (a b : Nat × Thread) : Prop := olderThread a b = true

theorem Older.irrefl (a : Nat × Thread) : ¬ Older a a := by
  simp only [olderThread_iff]; omega

theorem Older.trans (a b c : Nat × Thread) (h : Older a b) (g : Older b c) : Older a c := by
  simp only [olderThread_iff] at *; omega

theorem Older.weak (a b c : Nat × Thread) (h : Older a b) (g : ¬ Older c b) : Older a c := by
  simp only [olderThread_iff] at *; omega

theorem oldestOf_cons (x : Nat × Thread) (l : List (Nat × Thread)) :
    oldestOf (x :: l) = some (l.foldl (better Older) x) := rfl

/-- The oldest of some threads is one of them, and none is older. -/
theorem oldestOf_spec {es : List (Nat × Thread)} {x : Nat × Thread} (h : oldestOf es = some x) :
    x ∈ es ∧ ∀ y ∈ es, olderThread y x = false := by
  cases es with
  | nil => simp [oldestOf] at h
  | cons z l =>
    rw [oldestOf_cons, Option.some.injEq] at h
    obtain ⟨hmem, hbest⟩ := foldl_better Older.irrefl Older.trans l z
    subst h
    exact ⟨hmem, fun y hy => Bool.eq_false_iff.2 (hbest y hy)⟩


/-- Where the oldest stands in its list: every thread before it is younger, and none behind it is older. -/
theorem foldl_better_older_split (l : List (Nat × Thread)) (x : Nat × Thread) :
    ∃ l₁ l₂, x :: l = l₁ ++ l.foldl (better Older) x :: l₂ ∧ (∀ y ∈ l₁, Older (l.foldl (better Older) x) y) ∧
      ∀ y ∈ l₂, ¬ Older y (l.foldl (better Older) x) := by
  induction l generalizing x with
  | nil => exact ⟨[], [], rfl, by simp, by simp⟩
  | cons z l ih =>
    rw [List.foldl_cons]
    by_cases hz : Older z x
    · rw [show better Older x z = z from if_pos hz]
      obtain ⟨l₁, l₂, hsplit, hbefore, hbehind⟩ := ih z
      refine ⟨x :: l₁, l₂, by rw [hsplit, List.cons_append], List.forall_mem_cons.2 ⟨?_, hbefore⟩, hbehind⟩
      cases l₁ with
      | nil => rwa [← (List.cons.inj hsplit).1]
      | cons w l₁ => exact Older.trans _ _ _ ((List.cons.inj hsplit).1 ▸ hbefore w List.mem_cons_self) hz
    · rw [show better Older x z = x from if_neg hz]
      obtain ⟨l₁, l₂, hsplit, hbefore, hbehind⟩ := ih x
      cases l₁ with
      | nil =>
        obtain ⟨hx, rfl⟩ := List.cons.inj hsplit
        exact ⟨[], z :: l, by rw [← hx]; rfl, by simp, List.forall_mem_cons.2 ⟨by rwa [← hx], hbehind⟩⟩
      | cons w l₁ =>
        obtain ⟨rfl, hl⟩ := List.cons.inj hsplit
        have hx := hbefore x List.mem_cons_self
        have hz' := Older.weak _ _ _ hx hz
        exact ⟨x :: z :: l₁, l₂, congrArg (x :: z :: ·) hl, List.forall_mem_cons.2 ⟨hx, List.forall_mem_cons.2 ⟨hz',
          fun y hy => hbefore y (List.mem_cons_of_mem _ hy)⟩⟩, hbehind⟩

theorem foldl_better_of_split {m : Nat × Thread} {l : List (Nat × Thread)} (h : ∀ y ∈ l, ¬ Older y m) :
    l.foldl (better Older) m = m := by
  induction l with
  | nil => rfl
  | cons z l ih =>
    obtain ⟨hz, hl⟩ := List.forall_mem_cons.1 h
    rw [List.foldl_cons, show better Older m z = m from if_neg hz, ih hl]

theorem oldestOf_of_split {m : Nat × Thread} {l₁ l₂ : List (Nat × Thread)} (hbefore : ∀ y ∈ l₁, Older m y)
    (hbehind : ∀ y ∈ l₂, ¬ Older y m) : oldestOf (l₁ ++ m :: l₂) = some m := by
  cases l₁ with
  | nil => rw [List.nil_append, oldestOf_cons, foldl_better_of_split hbehind]
  | cons x l =>
    have hm := (foldl_better (r := Older) Older.irrefl Older.trans l x).1
    rw [List.cons_append, oldestOf_cons, List.foldl_append, List.foldl_cons,
      show better Older (l.foldl (better Older) x) m = m from if_pos (hbefore _ hm), foldl_better_of_split hbehind]

/-- A part of the threads that keeps the oldest has the same oldest. -/
theorem oldestOf_filter {es : List (Nat × Thread)} {x : Nat × Thread} {p : Nat × Thread → Bool}
    (h : oldestOf es = some x) (hp : p x = true) : oldestOf (es.filter p) = some x := by
  cases es with
  | nil => simp [oldestOf] at h
  | cons z l =>
    rw [oldestOf_cons, Option.some.injEq] at h
    obtain ⟨l₁, l₂, hsplit, hbefore, hbehind⟩ := foldl_better_older_split l z
    rw [h] at hsplit hbefore hbehind
    rw [hsplit, List.filter_append, List.filter_cons_of_pos hp]
    exact oldestOf_of_split (fun y hy => hbefore y (List.mem_of_mem_filter hy)) fun y hy => hbehind y (List.mem_of_mem_filter hy)

/-! ### The rounds of the issue stage -/

/-- The threads that a round may still choose: those whose lane has given none. -/
def freeLanes (es chosen : List (Nat × Thread)) : List (Nat × Thread) :=
  es.filter (fun p => !chosen.any (fun q => q.2.lane == p.2.lane))

/-- What a round chooses: from each lane its oldest thread at the lead's address. -/
def roundAt (free : List (Nat × Thread)) (lead : Nat × Thread) : List (Nat × Thread) :=
  (List.range 64).filterMap (fun l => oldestOf (free.filter (fun p => p.2.lane == l && p.2.pc == lead.2.pc)))

theorem issueRounds_succ (es : List (Nat × Thread)) (n : Nat) (chosen : List (Nat × Thread)) :
    issueRounds es (n + 1) chosen = match oldestOf (freeLanes es chosen) with
      | none => chosen
      | some lead => issueRounds es n (chosen ++ roundAt (freeLanes es chosen) lead) := rfl

/-- What holds of the chosen threads and every round keeps, holds of the threads that a core issues. -/
theorem issueRounds_induct {es : List (Nat × Thread)} (P : Nat → List (Nat × Thread) → Prop)
    (hskip : ∀ n chosen, P (n + 1) chosen → P 0 chosen)
    (hround : ∀ n chosen lead, oldestOf (freeLanes es chosen) = some lead → P (n + 1) chosen →
      P n (chosen ++ roundAt (freeLanes es chosen) lead)) (n : Nat) (chosen : List (Nat × Thread)) (h : P n chosen) :
    P 0 (issueRounds es n chosen) := by
  induction n generalizing chosen with
  | zero => exact h
  | succ n ih =>
    rw [issueRounds_succ]
    split
    next => exact hskip _ _ h
    next lead hlead => exact ih _ (hround _ _ _ hlead h)

/-- A thread that a round chooses is free and stands at the lead's address. -/
theorem mem_roundAt {free : List (Nat × Thread)} {lead p : Nat × Thread} (h : p ∈ roundAt free lead) :
    p ∈ free ∧ p.2.pc = lead.2.pc := by
  obtain ⟨l, -, hl⟩ := List.mem_filterMap.1 h
  obtain ⟨hmem, hlane⟩ := List.mem_filter.1 (oldestOf_spec hl).1
  simp only [Bool.and_eq_true, beq_iff_eq] at hlane
  exact ⟨hmem, hlane.2⟩

theorem mem_freeLanes {es chosen : List (Nat × Thread)} {p : Nat × Thread} :
    p ∈ freeLanes es chosen ↔ p ∈ es ∧ ∀ q ∈ chosen, q.2.lane ≠ p.2.lane := by
  simp [freeLanes]

theorem roundAt_lanes (free : List (Nat × Thread)) (lead : Nat × Thread) :
    (roundAt free lead).Pairwise (fun p q => p.2.lane ≠ q.2.lane) := by
  have lane_eq : ∀ {l p}, oldestOf (free.filter (fun p => p.2.lane == l && p.2.pc == lead.2.pc)) = some p → p.2.lane = l := by
    intro l p hp
    have := (List.mem_filter.1 (oldestOf_spec hp).1).2
    simp only [Bool.and_eq_true, beq_iff_eq] at this
    exact this.1
  refine List.Pairwise.filterMap _ (fun l k hlk p hp q hq => ?_) List.nodup_range
  rwa [lane_eq hp, lane_eq hq]

theorem issueRounds_subset (es : List (Nat × Thread)) (n : Nat) : ∀ p ∈ issueRounds es n [], p ∈ es :=
  issueRounds_induct (fun _ chosen => ∀ p ∈ chosen, p ∈ es) (fun _ _ h => h)
    (fun _ _ _ _ h p hp => (List.mem_append.1 hp).elim (h p) fun hr => (mem_freeLanes.1 (mem_roundAt hr).1).1) n [] (by simp)

theorem issueRounds_lanes (es : List (Nat × Thread)) (n : Nat) :
    (issueRounds es n []).Pairwise (fun p q => p.2.lane ≠ q.2.lane) :=
  issueRounds_induct (fun _ chosen => chosen.Pairwise (fun (p q : Nat × Thread) => p.2.lane ≠ q.2.lane)) (fun _ _ h => h)
    (fun _ chosen lead _ h => List.pairwise_append.2 ⟨h, roundAt_lanes _ lead, fun p hp _ hq =>
      (mem_freeLanes.1 (mem_roundAt hq).1).2 p hp⟩) n [] (by simp)

/-- Each round adds at most one address. -/
theorem issueRounds_addresses (es : List (Nat × Thread)) (n : Nat) :
    ((issueRounds es n []).map (·.2.pc)).dedup.length ≤ n := by
  have key := issueRounds_induct (es := es) (fun k chosen => ((chosen.map (·.2.pc)).toFinset).card + k ≤ n)
    (fun _ _ h => by omega) (fun k chosen lead _ h => ?_) n [] (by simp)
  · simpa [List.card_toFinset] using key
  · have hsub : ((chosen ++ roundAt (freeLanes es chosen) lead).map (·.2.pc)).toFinset ⊆
        insert lead.2.pc (chosen.map (·.2.pc)).toFinset := by
      intro a ha
      simp only [List.map_append, List.toFinset_append, Finset.mem_union, List.mem_toFinset, Finset.mem_insert] at ha ⊢
      rcases ha with ha | ha
      · exact .inr ha
      · obtain ⟨p, hp, rfl⟩ := List.mem_map.1 ha
        exact .inl (mem_roundAt hp).2
    have := (Finset.card_le_card hsub).trans (Finset.card_insert_le _ _)
    omega

theorem subset_issueRounds (es : List (Nat × Thread)) (n : Nat) {p : Nat × Thread} {chosen : List (Nat × Thread)}
    (h : p ∈ chosen) : p ∈ issueRounds es n chosen :=
  issueRounds_induct (fun _ chosen => p ∈ chosen) (fun _ _ h => h) (fun _ _ _ _ h => List.mem_append_left _ h) n chosen h

/-- The oldest eligible thread of a core leads the first round, and its lane gives it. -/
theorem oldest_mem_issueRounds {es : List (Nat × Thread)} {x : Nat × Thread} (h : oldestOf es = some x)
    (hl : x.2.lane < 64) (n : Nat) : x ∈ issueRounds es (n + 1) [] := by
  have hfree : freeLanes es [] = es := by simp [freeLanes]
  rw [issueRounds_succ, hfree, h]
  refine subset_issueRounds es n ?_
  exact List.mem_filterMap.2 ⟨x.2.lane, List.mem_range.2 hl, oldestOf_filter h (by simp)⟩

theorem issueRounds_nil (n : Nat) : issueRounds [] n [] = [] :=
  List.eq_nil_iff_forall_not_mem.2 fun p hp => absurd (issueRounds_subset [] n p hp) (by simp)

/-! ### What the model does when the agenda is empty -/

/-- A thread that the device issues is one that its core's issue stage has chosen among the core's eligible threads. -/
theorem mem_issues {s : State} {t : Nat} : t ∈ s.issues ↔ ∃ (c : Nat) (th : Thread),
    (t, th) ∈ issueRounds (s.threads.filter (fun p => s.eligible p && p.2.core == c)) 4 [] := by
  have hfilter : ∀ c, (s.threads.filter s.eligible).filter (fun p => p.2.core == c) =
      s.threads.filter (fun p => s.eligible p && p.2.core == c) := fun c => by
    rw [List.filter_filter]
    exact List.filter_congr fun p _ => Bool.and_comm _ _
  simp only [State.issues, issueStage, List.mem_flatMap, List.mem_dedup, List.mem_map, hfilter, Prod.exists, exists_and_right,
    exists_eq_right]
  constructor
  · rintro ⟨c, -, th, h⟩
    exact ⟨c, th, h⟩
  · rintro ⟨c, th, h⟩
    have hmem := issueRounds_subset _ _ _ h
    rw [← hfilter] at hmem
    obtain ⟨hel, hcore⟩ := List.mem_filter.1 hmem
    exact ⟨c, ⟨t, th, hel, beq_iff_eq.1 hcore⟩, th, h⟩

/-- When a thread is eligible (R22, R24; log 91). -/
theorem eligible_iff (s : State) (p : Nat × Thread) : s.eligible p = true ↔ ∃ fm, Tab.find? p.2.form s.forms = some fm ∧
    p.2.mayDispatch fm s.clock = true ∧ ∀ w s', s.tryDispatch fm p.2 ≠ .wait w s' := by
  unfold State.eligible State.blocked
  cases hf : Tab.find? p.2.form s.forms with
  | none => simp
  | some fm =>
    cases hm : p.2.mayDispatch fm s.clock with
    | false => simp [hm]
    | true => cases ht : s.tryDispatch fm p.2 <;> simp [hm, ht]

theorem nextActs_even {s : State} (hc : s.clock % 2 = 0) (hi : s.issues ≠ []) : s.nextActs = s.issues.map Act.issue := by
  simp [State.nextActs, hc, hi]

/-! ### One step -/

theorem step_of_agenda {s : State} {a : Act} {r : List Act} (h : s.agenda = a :: r) :
    step s = ({ s with agenda := r } : State).perform1 a := by
  simp [step, h]

theorem step_of_nextActs {s : State} {a : Act} {r : List Act} (h : s.agenda = []) (hn : s.nextActs = a :: r) :
    step s = ({ s.tick with agenda := r } : State).perform1 a := by
  simp [step, h, State.ownAct, hn]

theorem step_idle {s : State} (h : s.agenda = []) (hn : s.nextActs = []) : step s = .next s.tick := by
  simp [step, h, State.ownAct, hn]

theorem perform1_event {e : Instr} (h : isEvent e = true) (s : State) : s.perform1 (.event e) = exec e s := by
  simp [State.perform1, h]

/-- Settles O6. A step is the head of the agenda, or of the model's own acts after a tick; a word's turn ends in `exec` of
the open word; the issue stage's bounds are invariants of its rounds. -/
theorem stepFollowsTheAgenda : Obligations.StepFollowsTheAgenda := by
  unfold Obligations.StepFollowsTheAgenda
  refine ⟨?word, fun th i c hc => canRun_iff hc, ⟨?event, ?ownEvent, fun s a r => step_of_nextActs, fun s => step_idle,
    fun s => ⟨tick_clock s, tick_mem s, find?_tick_threads s, fun c x => find?_tick_clusters⟩⟩, ?stage,
    fun s t => mem_issues, eligible_iff, fun s => nextActs_even⟩
  case word =>
    intro s t i r th fm e ins q ht hf hl hp hc ho hq
    have hrun : ({ s with agenda := r } : State).runAt t i = exec ins { s with agenda := r, cur := t, curAt := some i } :=
      runAt_of_open ht (runs_of hf hl hp) hc ho hq
    refine ⟨fun ha => (step_of_agenda ha).trans hrun, fun ha hasync hcom hfirst => ?_⟩
    exact (step_of_agenda ha).trans ((actThread_of_first (s := { s with agenda := r }) ht hasync hcom hc hfirst).trans hrun)
  case event => exact fun s e r ha he => (step_of_agenda ha).trans (perform1_event he _)
  case ownEvent => exact fun s e r ha hn he => (step_of_nextActs ha hn).trans (perform1_event he _)
  case stage =>
    exact fun es => ⟨issueRounds_subset es 4, issueRounds_lanes es 4, issueRounds_addresses es 4, fun x hx =>
      ⟨(oldestOf_spec hx).2, fun hl => oldest_mem_issueRounds hx hl 3⟩⟩

end Sys2Proof.WorkAndItsShape

namespace Sys2Proof.WorkAndItsShape
open Sys2Proof Sys2Proof.Machine

/-! ## The clause that a dispatch puts behind the outstanding ones (R23, R43) -/

/-- The checks of a dispatch make a clause that has no issue tick yet: its issue stamps it with the clock. -/
theorem checkClause_go_tick {s s1 : State} {fm : Form} {th : Thread} {h : Header} {ws : List Word} {c : Clause}
    (hgo : s.checkClause fm th h ws = .go c s1) : c.tick = 0 := by
  unfold State.checkClause at hgo
  dsimp only at hgo
  repeat' split at hgo
  all_goals cases hgo
  rfl

theorem tryDispatch_go_tick {s s1 : State} {fm : Form} {th : Thread} {c : Clause}
    (hgo : s.tryDispatch fm th = .go c s1) : c.tick = 0 := by
  unfold State.tryDispatch at hgo
  split at hgo
  · cases hgo
  split at hgo
  · cases hgo
  split at hgo
  · cases hgo
  split at hgo
  · cases hgo
  split at hgo
  · cases hgo
  · exact checkClause_go_tick hgo

/-- A thread whose clause is `MUL t0 ← g0, 3`, one tick after reset. -/
def loadedLater : State := { State.reset.withFetchWord 32 0x04214307 with clock := 1 }

/-- The ticks at which the outstanding clauses of thread 0 issued. -/
def issueTicks (s : State) : Option (List Nat) := (Tab.find? 0 s.threads).map (fun th => th.clauses.map (·.tick))

def DispatchOut.goes : DispatchOut → Bool
  | .go _ _ => true
  | _ => false

theorem goes_iff {d : DispatchOut} : DispatchOut.goes d = true ↔ ∃ c s, d = .go c s := by
  cases d <;> simp [DispatchOut.goes]

theorem loadedLater_dispatches :
    (Tab.find? 0 loadedLater.threads).any (fun th => (Tab.find? th.form loadedLater.forms).any (fun fm =>
      th.mayDispatch fm loadedLater.clock && DispatchOut.goes (loadedLater.tryDispatch fm th))) = true ∧
    issueTicks (loadedLater.dispatch 0) = some [1] := by decide

/-- Refutes O47: its second clause leaves out the tick at which a clause issues. The dispatch of the first clause of a
thread at clock 1 puts the clause behind the outstanding ones with the issue tick 1 (R23), where the statement puts the
clause as the checks made it, whose issue tick is 0. -/
theorem not_threadEvents : ¬ Obligations.ThreadEvents := by
  unfold Obligations.ThreadEvents
  rintro ⟨-, hdispatch, -⟩
  obtain ⟨hcan, hticks⟩ := loadedLater_dispatches
  simp only [Option.any_eq_true, Bool.and_eq_true, goes_iff] at hcan
  obtain ⟨th, hth, fm, hfm, hmay, c, s1, hgo⟩ := hcan
  obtain ⟨hclaim, -, -⟩ := hdispatch loadedLater s1 0 th fm hth hfm hmay
  have hnext : loadedLater.dispatch 0 = _ := Host.Outcome.next.inj (hclaim c hgo)
  rw [hnext] at hticks
  simp only [issueTicks, State.modThread_threads, Tab.find?_mod_same, Option.map_map, Option.map_eq_some_iff] at hticks
  obtain ⟨x, -, hx⟩ := hticks
  have hlast := congrArg List.getLast? hx
  simp [tryDispatch_go_tick hgo] at hlast

end Sys2Proof.WorkAndItsShape

namespace Sys2Proof.WorkAndItsShape
open Sys2Proof Sys2Proof.Machine

/-! ## Admission where the clusters' table is not in its canonical form (R104, R164, R239) -/

/-- A running launch of one form, its record at 0x10000 of context 0. -/
def oneFormNode : Node :=
  { va := 0, fn := 0, ctx := 0, part := [0], kind := 0, body := [0x10000, 0], seq := 0, readyTick := 0, prio := 3, succ := [],
    rcd := loadRecord, forms := 1, fbase := 1, next := 0, retired := 0, aged := 0, pte := loadPte }

/-- A cluster whose L2 TLB maps the record's page by an entry. -/
def mapsRecord (pte : BitVec 64) : Cluster := { Cluster.reset with l2 := [tlbOf 0 0x10000 pte] }

/-- The launch waits to be admitted. Cluster 1, which the table of clusters lists before cluster 0, maps the record's page
by an entry that permits reading, and cluster 0 by one that does not. -/
def unsortedClusters : State :=
  { State.reset with mem := [(3, 2)], nodes := [(0, oneFormNode)],
                     clusters := [(1, mapsRecord loadPte), (0, mapsRecord 0xC000000000000000)] }

def oneSeat : List Seat := [{ core := 0, row := 0, lane := 0 }]

def oneFormCand : Cand := { f := 1, node := 0, lin := 0, e := 3, seq := 0, prio := 3, part := [0], queued := false }

/-- Whether the machine goes on without form f. -/
def goesWithout (f : Nat) (o : Out State) : Bool :=
  match o with
  | .next t => (Tab.find? f t.forms).isNone
  | _ => false

theorem unsortedClusters_running : unsortedClusters.nodeState 0 ≠ 1 := by decide +kernel

theorem unsortedClusters_candidate :
    unsortedClusters.cands.find? (fun c => c.f == 1) = some oneFormCand ∧ unsortedClusters.isFirst oneFormCand = true ∧
    unsortedClusters.fitting oneFormCand = [0] ∧
    unsortedClusters.placedWell (unsortedClusters.needOf oneFormCand []) 0 oneSeat = true := by decide +kernel

/-- The record can be read, by cluster 1's entry. -/
theorem unsortedClusters_record : (unsortedClusters.readRecord 0 0x10000).isSome = true ∧
    unsortedClusters.readHeld 0 0x10000 448 = false := by decide +kernel

/-- The form comes to cluster 0, whose instruction cache is invalidated for its launch: the cluster's record is written at
the front of the table, so that its entry is met first, by which the record cannot be read. -/
theorem unsortedClusters_declines : goesWithout 1 (exec (.formAdmit 1 oneSeat) unsortedClusters) = true := by decide +kernel

/-- Refutes O48: its first clause takes what the L2 TLBs hold from the state before the admission, in any order of the table
of clusters. In `unsortedClusters` the invalidation of cluster 0's instruction cache (R239) brings that cluster's record to
the front of the table; the launch record, which could be read before, then reads as unmapped, and no form is admitted. -/
theorem not_admissionEvents : ¬ Obligations.AdmissionEvents := by
  unfold Obligations.AdmissionEvents
  rintro ⟨hadmit, -⟩
  obtain ⟨hfind, hfirst, hfit, hplaced⟩ := unsortedClusters_candidate
  obtain ⟨hrecord, hheld⟩ := unsortedClusters_record
  obtain ⟨img, himg⟩ := Option.isSome_iff_exists.1 hrecord
  have hstate : ¬ unsortedClusters.nodeState oneFormCand.node = 1 := unsortedClusters_running
  have hclaim := hadmit unsortedClusters 1 0 [] oneFormCand oneFormNode oneSeat img hfind hfirst hfit rfl hplaced rfl rfl
  dsimp only at hclaim
  rw [if_neg hstate] at hclaim
  obtain ⟨t, fm, ht, hfm, -⟩ := hclaim (fun h => absurd h hstate) hheld himg
  have hwithout := unsortedClusters_declines
  rw [ht] at hwithout
  simp [goesWithout, hfm] at hwithout

end Sys2Proof.WorkAndItsShape

namespace Sys2Proof.WorkAndItsShape
open Sys2Proof Sys2Proof.Machine

/-! ## The life of a form (R17, R29, R94, R177, R182, R183, R194) -/

/-! ### What an operation of the kernel leaves as it is -/

/-- All but the clusters is as it was. -/
def ClustersOnly (s t : State) : Prop := ∃ cs, t = { s with clusters := cs }

/-- All but the cores is as it was. -/
def CoresOnly (s t : State) : Prop := ∃ cs, t = { s with cores := cs }

theorem ClustersOnly.refl (s : State) : ClustersOnly s s := ⟨s.clusters, rfl⟩
theorem CoresOnly.refl (s : State) : CoresOnly s s := ⟨s.cores, rfl⟩

theorem ClustersOnly.trans {s t u : State} : ClustersOnly s t → ClustersOnly t u → ClustersOnly s u := by
  rintro ⟨cs, rfl⟩ ⟨ds, rfl⟩
  exact ⟨ds, rfl⟩

theorem CoresOnly.trans {s t u : State} : CoresOnly s t → CoresOnly t u → CoresOnly s u := by
  rintro ⟨cs, rfl⟩ ⟨ds, rfl⟩
  exact ⟨ds, rfl⟩

section ClustersOnly
variable {s t : State} (h : ClustersOnly s t)
include h
theorem ClustersOnly.forms : t.forms = s.forms := by obtain ⟨cs, rfl⟩ := h; rfl
theorem ClustersOnly.threads : t.threads = s.threads := by obtain ⟨cs, rfl⟩ := h; rfl
theorem ClustersOnly.cores : t.cores = s.cores := by obtain ⟨cs, rfl⟩ := h; rfl
theorem ClustersOnly.mem : t.mem = s.mem := by obtain ⟨cs, rfl⟩ := h; rfl
theorem ClustersOnly.clock : t.clock = s.clock := by obtain ⟨cs, rfl⟩ := h; rfl
end ClustersOnly

section CoresOnly
variable {s t : State} (h : CoresOnly s t)
include h
theorem CoresOnly.forms : t.forms = s.forms := by obtain ⟨cs, rfl⟩ := h; rfl
theorem CoresOnly.threads : t.threads = s.threads := by obtain ⟨cs, rfl⟩ := h; rfl
theorem CoresOnly.mem : t.mem = s.mem := by obtain ⟨cs, rfl⟩ := h; rfl
end CoresOnly

/-! ### Staging and write-back -/

section Regions
variable {s s1 : State} {f : Nat} {fm : Form} {ms : List (Nat × List Move)} (hf : Tab.find? f s.forms = some fm)
include hf

theorem exec_stagingComplete (hp : fm.phase = .staging)
    (hw : s.regionsWork fm false (regionsOf fm.rcd false) = .go s1 ms) (hm : movesHeld s1 fm (allMoves ms) = false)
    (hd : s1.regionsDiffer fm ms = false) : exec (.stagingComplete f) s = .next
      (((ms.foldl (fun t x => t.played (regionItem s1 fm false x)) (s1.keepRegions fm false ms)).perform f (allMoves ms)).modForm f
        (fun x => { x with phase := if x.asked then .yielding else .running, asked := false })) := by
  show execStagingComplete f s = _
  simp only [execStagingComplete, hf, hp, hw, hm, hd, decide_true, runEvent_true, Bool.false_eq_true, if_false]

theorem exec_stagingComplete_differs (hp : fm.phase = .staging)
    (hw : s.regionsWork fm false (regionsOf fm.rcd false) = .go s1 ms) (hm : movesHeld s1 fm (allMoves ms) = false)
    (hd : s1.regionsDiffer fm ms = true) : exec (.stagingComplete f) s = .next (s1.endLaunch fm.node 0x0B) := by
  show execStagingComplete f s = _
  simp only [execStagingComplete, hf, hp, hw, hm, hd, decide_true, runEvent_true, Bool.false_eq_true, if_false, if_true]

theorem exec_stagingComplete_bad (hp : fm.phase = .staging)
    (hw : s.regionsWork fm false (regionsOf fm.rcd false) = .bad) :
    exec (.stagingComplete f) s = .next ((s.note (.region f)).endLaunch fm.node 0x09) := by
  show execStagingComplete f s = _
  simp only [execStagingComplete, hf, hp, hw, decide_true, runEvent_true, State.regionError]

theorem exec_writeBackComplete (hp : fm.phase = .writeBack)
    (hw : s.regionsWork fm true (regionsOf fm.rcd true) = .go s1 ms) (hm : movesHeld s1 fm (allMoves ms) = false)
    (hd : movesPoison fm (allMoves ms) = false) : exec (.writeBackComplete f) s = .next
      (let t := ((s1.keepRegions fm true ms).perform f (allMoves ms)).removeForm f
       { t with nodes := Tab.mod fm.node (fun n => { n with retired := n.retired + 1 }) t.nodes }) := by
  show execWriteBackComplete f s = _
  simp only [execWriteBackComplete, hf, hp, hw, hm, hd, decide_true, runEvent_true, Bool.false_eq_true, if_false]

theorem exec_writeBackComplete_poison (hp : fm.phase = .writeBack)
    (hw : s.regionsWork fm true (regionsOf fm.rcd true) = .go s1 ms) (hm : movesHeld s1 fm (allMoves ms) = false)
    (hd : movesPoison fm (allMoves ms) = true) : exec (.writeBackComplete f) s = .next (s1.poisonEnd f fm) := by
  show execWriteBackComplete f s = _
  simp only [execWriteBackComplete, hf, hp, hw, hm, hd, decide_true, runEvent_true, Bool.false_eq_true, if_false, if_true]

end Regions

/-! ### Retirement -/

theorem allExited_iff {s : State} {f : Nat} :
    s.allExited f = true ↔ ∀ p ∈ s.threads, p.2.form = f → p.2.status = .exited := by
  simp [State.allExited, State.threadsOf, imp_iff_not_or]

theorem exec_formRetire {s : State} {f : Nat} {fm : Form} (hf : Tab.find? f s.forms = some fm)
    (hp : fm.phase = .running ∨ fm.phase = .yielding) (hx : s.allExited f = true)
    (he : s.enginesDone fm.cluster f = true) : exec (.formRetire f) s = .next
      (let t := (s.freed f false).discardMail fm
       { t with
         forms := Tab.mod f (fun x => { x with phase := .writeBack, benches := [], ctxs := [], move := none }) t.forms,
         threads := t.threads.filter (fun p => p.2.form != f) }) := by
  show execFormRetire f s = _
  simp only [execFormRetire, hf, hp, hx, he, decide_true, Bool.and_self, runEvent_true]
  rfl

/-- What the count of delivered messages leaves as it is. -/
theorem foldl_delivered (ms : List Msg) (s : State) : (ms.foldl State.delivered s).fifos = s.fifos ∧
    (ms.foldl State.delivered s).threads = s.threads ∧ (ms.foldl State.delivered s).mailOut = s.mailOut := by
  induction ms generalizing s with
  | nil => exact ⟨rfl, rfl, rfl⟩
  | cons m ms ih =>
    have hm : (s.delivered m).fifos = s.fifos ∧ (s.delivered m).threads = s.threads ∧
        (s.delivered m).mailOut = s.mailOut := by
      unfold State.delivered
      split <;> exact ⟨rfl, rfl, rfl⟩
    obtain ⟨h1, h2, h3⟩ := ih (s.delivered m)
    exact ⟨h1.trans hm.1, h2.trans hm.2.1, h3.trans hm.2.2⟩

theorem mem_fifos_discardMail {s : State} {fm : Form} {p : Nat × List Msg} : p ∈ (s.discardMail fm).fifos ↔
    p ∈ s.fifos ∧ ¬ (p.1 / 2 ^ 128 = fm.node ∧ p.1 % 2 ^ 64 = fm.lin) := by
  simp only [State.discardMail, List.mem_filter, (foldl_delivered _ s).1]
  simp [imp_iff_not_or]

theorem discardMail_threads (s : State) (fm : Form) : (s.discardMail fm).threads = s.threads := (foldl_delivered _ s).2.1

theorem discardMail_mailOut (s : State) (fm : Form) : (s.discardMail fm).mailOut = s.mailOut := (foldl_delivered _ s).2.2

/-! ### Yielding -/

/-- Freeing a form's place changes reservations of clusters alone (R165). -/
theorem freed_clusters (s : State) (f : Nat) (hall : Bool) : ClustersOnly s (s.freed f hall) := by
  unfold State.freed
  split
  · exact .refl s
  split
  · exact .refl s
  · exact ⟨_, rfl⟩

/-- A form that has yielded (R177, R182). -/
def yieldedForm (fm : Form) : Form :=
  { fm with
    phase := .queued, resume := .restore, hall := [], tags := [], objs := [], binds := initialBinds fm.rcd,
    resv := [], waiters := [], owned := [], ctxs := fm.ctxs.map (fun _ => MCtx.reset), benches := fm.benches.map Bench.yield }

theorem exec_formYielded {s : State} {f : Nat} {fm : Form} (hf : Tab.find? f s.forms = some fm)
    (hp : fm.phase = .yielding) (hx : s.allExited f = false) (he : s.enginesDone fm.cluster f = true)
    (hy : ∀ p ∈ s.threads, p.2.form = f → p.2.status = .exited ∨ p.2.status = .yielded) :
    exec (.formYielded f) s = .next (((s.freed f true).modForm f yieldedForm).modThreadsOf f Thread.unseat) := by
  have hall : (s.threadsOf f).all (fun p => decide (p.2.status = .exited ∨ p.2.status = .yielded)) = true := by
    simpa only [State.threadsOf, List.all_eq_true, List.mem_filter, beq_iff_eq, decide_eq_true_eq, and_imp] using hy
  show execFormYielded f s = _
  simp only [execFormYielded, hf, hp, hx, he, hall, decide_true, Bool.not_false, Bool.and_self, runEvent_true]
  rfl

theorem yieldedForm_benches {fm : Form} : ∀ b ∈ (yieldedForm fm).benches, b.seat = noSeat ∧ b.s = [] := by
  intro b hb
  obtain ⟨a, -, rfl⟩ := List.mem_map.1 hb
  exact ⟨rfl, rfl⟩

theorem yieldedForm_ctxs {fm : Form} : ∀ c ∈ (yieldedForm fm).ctxs, c = MCtx.reset := by
  intro c hc
  obtain ⟨a, -, rfl⟩ := List.mem_map.1 hc
  rfl

theorem yieldedForm_meets (fm : Form) : (yieldedForm fm).benches.map (·.meets) = fm.benches.map (fun b =>
    (b.meets.filter (·.done)).map (fun a => { a with taken := true, got := [] })) := by
  simp only [yieldedForm, List.map_map]
  rfl

theorem formYielded_forms (s : State) (f : Nat) :
    (((s.freed f true).modForm f yieldedForm).modThreadsOf f Thread.unseat).forms = Tab.mod f yieldedForm s.forms := by
  rw [State.modThreadsOf_forms, State.modForm_forms, (freed_clusters s f true).forms]

/-! ### Moves -/

/-- A form that stands still for its move (R194). -/
theorem still_of {th : Thread} (hp : th.pending = none) (h : ∀ c r, th.clauses = c :: r → c.wait.interruptible = true ∧
    ∀ i b, th.clauses[i]? = some b → th.canRun i = false ∨ b.wait ≠ .none) : th.still = true := by
  unfold Thread.still
  cases hc : th.clauses with
  | nil => simp [hp]
  | cons c r =>
    obtain ⟨hw, hrun⟩ := h c r hc
    rw [hc] at hrun
    simp only [hp, hw, Option.isNone_none, Bool.true_and, List.all_eq_true]
    rintro ⟨b, i⟩ hb
    have := hrun i b (List.mk_mem_zipIdx_iff_getElem?.1 hb)
    simpa [or_comm] using this

theorem codeFor_clusters (s : State) (cl node : Nat) : ClustersOnly s (s.codeFor cl node) := by
  unfold State.codeFor
  split
  · exact .refl s
  split
  · exact .refl s
  · exact ⟨_, rfl⟩

/-- An invalidated instruction cache does not stop the cluster's clock. -/
theorem codeFor_cyc (s : State) (cl node c : Nat) : ((s.codeFor cl node).cluster c).cyc = (s.cluster c).cyc := by
  unfold State.codeFor
  split
  · rfl
  split
  · rfl
  · rw [State.cluster, State.modCluster_clusters]
    by_cases hc : cl = c
    · subst hc
      rw [Tab.getD_put_same]
    · rw [Tab.getD_put_ne _ _ _ hc]
      rfl

theorem moveComps_cores (s : State) (ctx : Nat) (old new : List Nat) : CoresOnly s (s.moveComps ctx old new) :=
  List.foldlRecOn _ _ (.refl s) fun _ ht _ _ => ht.trans ⟨_, rfl⟩

theorem putBanks_cores (s : State) (f : Nat) (cores : List Nat) (banks : List (Nat × Nat × Bank)) :
    CoresOnly s (s.putBanks f cores banks) :=
  List.foldlRecOn _ _ (.refl s) fun _ ht _ _ => ht.trans ⟨_, rfl⟩

theorem askSlew_clusters (s : State) (cl : Nat) : ClustersOnly s (s.askSlew cl) := by
  refine List.foldlRecOn _ _ (.refl s) fun t ht k _ => ht.trans ?_
  dsimp only
  split
  · exact ⟨_, rfl⟩
  · exact .refl t

/-- A thread in the seat that its form has moved to: a SLEEP keeps its rest on the new cluster's clock (R194, R385). -/
def movedThread (r : SMap Word) (seats : List Seat) (old new : Nat) (th : Thread) : Thread :=
  { th.seat r seats with clauses := th.clauses.map (fun c => c.waits (c.wait.rebase old new)) }

/-- A form in the place that it has moved to. -/
def movedForm (cl : Nat) (seats : List Seat) (clock : Nat) (fm : Form) : Form :=
  { fm.settleAt cl seats with move := none, moved := clock }

/-- The state after a form has moved. -/
def migrated (s : State) (f : Nat) (fm : Form) (cl : Nat) (seats : List Seat) : State :=
  let t := s.codeFor cl fm.node
  let t1 := { t with threads := t.threads.map (fun (p : Nat × Thread) => (p.1, if p.2.form = f
    then movedThread fm.rcd seats (t.cluster fm.cluster).cyc (t.cluster cl).cyc p.2 else p.2)) }
  let t2 := (t1.modForm f (movedForm cl seats t.clock)).moveComps fm.ctx fm.cores (coresOf fm.rcd seats)
  (t2.putBanks f (coresOf fm.rcd seats) (s.banksOf f fm.cores)).askSlew cl

theorem exec_formMigrate {s : State} {f cl : Nat} {fm : Form} {seats : List Seat} (hf : Tab.find? f s.forms = some fm)
    (hm : fm.move = some (cl, seats)) (hs : ∀ p ∈ s.threads, p.2.form = f → p.2.still = true)
    (ho : ∀ c ∈ fm.ctxs, c.ops = []) (he : s.enginesDone fm.cluster f = true)
    (hl : ∀ c ∈ fm.cores, ∀ l ∈ (s.core c).loads, l.form ≠ f)
    (hw : Rec.wsize fm.rcd ≠ 0 → ∀ x ∈ s.loadsOf (cl / 16), windowHits fm.rcd x.1 x.2 = false) :
    exec (.formMigrate f) s = .next (migrated s f fm cl seats) := by
  have hstill : (s.threadsOf f).all (fun p => p.2.still) = true := by
    simpa only [State.threadsOf, List.all_eq_true, List.mem_filter, beq_iff_eq, and_imp] using hs
  have hops : fm.ctxs.all (fun c => c.ops.isEmpty) = true := by simpa using ho
  have hloads : fm.cores.all (fun c => (s.core c).loads.all (fun l => l.form != f)) = true := by simpa using hl
  have hwin : (Rec.wsize fm.rcd == 0 || (s.loadsOf (cl / 16)).all (fun x => !windowHits fm.rcd x.1 x.2)) = true := by
    simpa [or_iff_not_imp_left] using hw
  show execFormMigrate f s = _
  simp only [execFormMigrate, hf, hm, hstill, hops, he, hloads, hwin, Bool.and_self, runEvent_true]
  rfl

section Migrated
variable (s : State) (f : Nat) (fm : Form) (cl : Nat) (seats : List Seat)

theorem migrated_forms : (migrated s f fm cl seats).forms = Tab.mod f (movedForm cl seats s.clock) s.forms := by
  have h := codeFor_clusters s cl fm.node
  simp only [migrated, (askSlew_clusters _ _).forms, (putBanks_cores _ _ _ _).forms, (moveComps_cores _ _ _ _).forms,
    State.modForm_forms, h.forms, h.clock]

theorem migrated_mem : (migrated s f fm cl seats).mem = s.mem := by
  simp only [migrated, (askSlew_clusters _ _).mem, (putBanks_cores _ _ _ _).mem, (moveComps_cores _ _ _ _).mem,
    State.modForm_mem, (codeFor_clusters s cl fm.node).mem]

theorem migrated_threads : (migrated s f fm cl seats).threads = s.threads.map (fun p => (p.1, if p.2.form = f
    then movedThread fm.rcd seats (s.cluster fm.cluster).cyc (s.cluster cl).cyc p.2 else p.2)) := by
  simp only [migrated, (askSlew_clusters _ _).threads, (putBanks_cores _ _ _ _).threads, (moveComps_cores _ _ _ _).threads,
    State.modForm_threads, (codeFor_clusters s cl fm.node).threads, codeFor_cyc]

theorem find?_migrated_threads (k : Nat) : Tab.find? k (migrated s f fm cl seats).threads = (Tab.find? k s.threads).map
    (fun th => if th.form = f
      then movedThread fm.rcd seats (s.cluster fm.cluster).cyc (s.cluster cl).cyc th else th) := by
  rw [migrated_threads]
  exact find?_map k _ s.threads

end Migrated

/-! ### Forced saves -/

/-- No operation of the form is under way, and none stands in a frozen context. -/
def QuietForm (fm : Form) : Prop := ∀ c ∈ fm.ctxs, c.ops = [] ∧ ∀ o, c.frozen ≠ some (some o)

/-- What stopping a form's threads keeps of the form: its record, its hall and tags, and that its contexts are quiet. -/
structure FormKept (a b : Form) : Prop where
  rcd : b.rcd = a.rcd
  hall : b.hall = a.hall
  tags : b.tags = a.tags
  quiet : QuietForm a → QuietForm b

theorem FormKept.refl (a : Form) : FormKept a a := ⟨rfl, rfl, rfl, id⟩

theorem FormKept.trans {a b c : Form} (h : FormKept a b) (g : FormKept b c) : FormKept a c :=
  ⟨g.rcd.trans h.rcd, g.hall.trans h.hall, g.tags.trans h.tags, g.quiet ∘ h.quiet⟩

/-- Of the same form but for its queues, benches and contexts, where what happens to a context keeps it quiet. -/
theorem FormKept.of_ctxs {a b : Form} {g : MCtx → MCtx} (hr : b.rcd = a.rcd) (hh : b.hall = a.hall) (ht : b.tags = a.tags)
    (hc : b.ctxs = a.ctxs.map g) (hg : ∀ c, (c.ops = [] ∧ ∀ o, c.frozen ≠ some (some o)) →
      (g c).ops = [] ∧ ∀ o, (g c).frozen ≠ some (some o)) : FormKept a b := by
  refine ⟨hr, hh, ht, fun hq c hmem => ?_⟩
  rw [hc] at hmem
  obtain ⟨x, hx, rfl⟩ := List.mem_map.1 hmem
  exact hg x (hq x hx)

/-- What stopping the threads of form f keeps of the machine: what its threads are saved as, and the form. -/
structure Stops (f : Nat) (s t : State) : Prop where
  mem : t.mem = s.mem
  cores : t.cores = s.cores
  saved : (t.modThreadsOf f Thread.saved).threads = (s.modThreadsOf f Thread.saved).threads
  form : ∀ {fm}, Tab.find? f s.forms = some fm → ∃ fm', Tab.find? f t.forms = some fm' ∧ FormKept fm fm'

theorem Stops.refl (f : Nat) (s : State) : Stops f s s := ⟨rfl, rfl, rfl, fun h => ⟨_, h, .refl _⟩⟩

theorem Stops.trans {f : Nat} {s t u : State} (h : Stops f s t) (g : Stops f t u) : Stops f s u where
  mem := g.mem.trans h.mem
  cores := g.cores.trans h.cores
  saved := g.saved.trans h.saved
  form hf := by
    obtain ⟨fm', hf', hk⟩ := h.form hf
    obtain ⟨fm'', hf'', hk'⟩ := g.form hf'
    exact ⟨fm'', hf'', hk.trans hk'⟩

theorem stops_modForm (s : State) (f : Nat) {g : Form → Form} (hg : ∀ fm, FormKept fm (g fm)) : Stops f s (s.modForm f g) :=
  ⟨rfl, rfl, rfl, fun {fm} hf => ⟨g fm, by simp [hf], hg fm⟩⟩

theorem stops_of_clusters {f : Nat} {s t : State} (h : ClustersOnly s t) : Stops f s t := by
  obtain ⟨cs, rfl⟩ := h
  exact ⟨rfl, rfl, rfl, fun hf => ⟨_, hf, .refl _⟩⟩

theorem foldl_serve_kept (ws : List Nat) (fm : Form) : ∃ rs, ws.foldl Form.serve fm = { fm with resv := rs } := by
  induction ws generalizing fm with
  | nil => exact ⟨fm.resv, rfl⟩
  | cons w ws ih =>
    have hw : ∃ rs, fm.serve w = { fm with resv := rs } := by
      unfold Form.serve
      dsimp only
      repeat' split
      all_goals exact ⟨_, rfl⟩
    obtain ⟨rs, h⟩ := hw
    obtain ⟨rs', h'⟩ := ih (fm.serve w)
    exact ⟨rs', by rw [List.foldl_cons, h', h]⟩

theorem release_kept (fm : Form) (k : Nat) : ∃ rs ws, fm.release k = { fm with resv := rs, waiters := ws } := by
  obtain ⟨rs, h⟩ := foldl_serve_kept ((fm.resv.filter (·.2 == k)).map (·.1))
    { fm with resv := fm.resv.filter (·.2 != k), waiters := fm.waiters.filter (·.thread != k) }
  exact ⟨rs, _, h⟩

theorem unsign_quiet {c : MCtx} (k : Nat) (h : c.ops = [] ∧ ∀ o, c.frozen ≠ some (some o)) :
    (c.unsign k).ops = [] ∧ ∀ o, (c.unsign k).frozen ≠ some (some o) := h

theorem foldl_unsign_quiet (ps : List (Nat × Thread)) {c : MCtx} (h : c.ops = [] ∧ ∀ o, c.frozen ≠ some (some o)) :
    (ps.foldl (fun c p => c.unsign p.1) c).ops = [] ∧ ∀ o, (ps.foldl (fun c p => c.unsign p.1) c).frozen ≠ some (some o) :=
  List.foldlRecOn (motive := fun c : MCtx => c.ops = [] ∧ ∀ o, c.frozen ≠ some (some o)) ps _ h
    fun _ hc p _ => unsign_quiet p.1 hc

theorem withdraw_quiet {c : MCtx} (k : Nat) (ids : List Nat) (h : c.ops = [] ∧ ∀ o, c.frozen ≠ some (some o)) :
    (c.withdraw k ids).ops = [] ∧ ∀ o, (c.withdraw k ids).frozen ≠ some (some o) := by
  obtain ⟨hops, hfr⟩ := h
  refine ⟨by simp [MCtx.withdraw, hops], fun o => ?_⟩
  simp only [MCtx.withdraw]
  cases hc : c.frozen with
  | none => simp
  | some x =>
    cases x with
    | none => simp
    | some o' => exact absurd hc (hfr o')

/-- A clause that is executed again stands at its address: its thread is saved there all the same. -/
theorem saved_rework (th : Thread) (ids : List Nat) : (th.rework ids).saved = th.saved := by
  cases hc : th.clauses with
  | nil => simp [Thread.saved, Thread.rework, hc]
  | cons c r =>
    have hva : (if c.keepsMap ids then c.restart else c).va = c.va := by split <;> rfl
    simp [Thread.saved, Thread.rework, hc, hva]

theorem stops_rework (s : State) (k f : Nat) (ids : List Nat) : Stops f s (s.rework k f ids) := by
  unfold State.rework
  dsimp only
  split
  · exact .refl f s
  · refine Stops.trans (t := { s with threads := s.threads.map (fun (p : Nat × Thread) =>
        (p.1, if p.1 ≠ k ∧ p.2.form = f then p.2.rework ids else p.2)) }) ⟨rfl, rfl, ?_, fun hf => ⟨_, hf, .refl _⟩⟩
      (stops_modForm _ f fun fm => .of_ctxs rfl rfl rfl rfl fun c => foldl_unsign_quiet _)
    simp only [State.modThreadsOf, List.map_map]
    refine List.map_congr_left fun p _ => ?_
    dsimp only [Function.comp_apply]
    split
    next h =>
      rw [if_pos h.2, show (p.2.rework ids).form = f from h.2, if_pos rfl, saved_rework]
    next => rfl

/-- Ending what some clauses of a form's thread hold outside themselves (R53). -/
theorem stops_letGo (s : State) (k : Nat) (th : Thread) (cs : List Clause) : Stops th.form s (s.letGo k th cs) := by
  have hfenced : Stops th.form s (if cs.any (·.fenced) then
      (({ s with chanWait := s.chanWait.filter (·.thread != k) }).modForm th.form (fun f =>
        let f := f.release k
        { f with ctxs := f.ctxs.map (fun (c : MCtx) => (c.unsign k).withdraw k (opsOf cs)) })).rework k th.form (opsOf cs)
      else s) := by
    split
    · refine Stops.trans (t := { s with chanWait := s.chanWait.filter (·.thread != k) })
        ⟨rfl, rfl, rfl, fun hf => ⟨_, hf, .refl _⟩⟩ ((stops_modForm _ _ fun fm => ?_).trans (stops_rework _ _ _ _))
      obtain ⟨rs, ws, h⟩ := release_kept fm k
      dsimp only
      rw [h]
      exact .of_ctxs rfl rfl rfl rfl fun c hc => withdraw_quiet k _ (unsign_quiet k hc)
    · exact .refl _ s
  unfold State.letGo
  dsimp only
  split
  · exact hfenced.trans (stops_modForm _ _ fun fm => ⟨rfl, rfl, rfl, id⟩)
  · exact hfenced

theorem stops_foldl_letGo (s : State) (f : Nat) (ps : List (Nat × Thread)) (h : ∀ p ∈ ps, p.2.form = f) :
    Stops f s (ps.foldl (fun s p => s.letGo p.1 p.2 p.2.clauses) s) :=
  List.foldlRecOn ps _ (.refl f s) fun _ ht p hp => ht.trans (h p hp ▸ stops_letGo _ _ _ _)

/-! A quiet context has nothing to complete: it only thaws. -/

theorem thaw_frozen (c : MCtx) : c.thaw.frozen = none := by
  unfold MCtx.thaw
  split <;> rfl

theorem thaw_ops {c : MCtx} (h : c.ops = [] ∧ ∀ o, c.frozen ≠ some (some o)) : c.thaw.ops = [] := by
  unfold MCtx.thaw
  split
  next o ho => exact absurd ho (h.2 o)
  next => exact h.1

theorem mctx_modCtx_same (fm : Form) (fc : Nat) (g : MCtx → MCtx) (hg : g MCtx.reset = MCtx.reset) :
    (fm.modCtx fc g).mctx fc = g (fm.mctx fc) := by
  simp only [Form.mctx, Form.modCtx, List.getD_eq_getElem?_getD, List.getElem?_modify_eq]
  cases fm.ctxs[fc]? <;> simp [hg]

theorem mctx_modCtx_ne (fm : Form) {fc k : Nat} (h : fc ≠ k) (g : MCtx → MCtx) : (fm.modCtx fc g).mctx k = fm.mctx k := by
  simp only [Form.mctx, Form.modCtx, List.getD_eq_getElem?_getD, List.getElem?_modify_ne g _ h]

theorem modCtx_thaw_kept (fm : Form) (fc : Nat) : FormKept fm (fm.modCtx fc MCtx.thaw) := by
  refine ⟨rfl, rfl, rfl, fun hq c hc => ?_⟩
  obtain ⟨i, hi⟩ := List.mem_iff_getElem?.1 hc
  simp only [Form.modCtx, List.getElem?_modify, Option.map_eq_map, Option.map_eq_some_iff] at hi
  obtain ⟨x, hx, rfl⟩ := hi
  have hxq := hq x (List.mem_of_getElem? hx)
  split
  · exact ⟨thaw_ops hxq, by simp [thaw_frozen]⟩
  · exact hxq

theorem mctx_quiet {fm : Form} (h : QuietForm fm) (fc : Nat) : (fm.mctx fc).ops = [] := by
  simp only [Form.mctx, List.getD_eq_getElem?_getD]
  cases hx : fm.ctxs[fc]? with
  | none => rfl
  | some x => exact (h x (List.mem_of_getElem? hx)).1

theorem finishCtx_quiet {s : State} {f : Nat} {fm : Form} (hf : Tab.find? f s.forms = some fm) (hq : QuietForm fm)
    (fc : Nat) : s.finishCtx f fc =
      (s.modForm f (fun x => x.modCtx fc MCtx.thaw)).modForm f (fun x => x.modCtx fc MCtx.thaw) := by
  have hf1 : Tab.find? f (s.modForm f (fun x => x.modCtx fc MCtx.thaw)).forms = some (fm.modCtx fc MCtx.thaw) := by simp [hf]
  simp only [State.finishCtx, hf1, mctx_quiet ((modCtx_thaw_kept fm fc).quiet hq) fc, List.length_nil, Nat.mul_zero,
    State.finishOps]

/-- After the kernel has gone through a quiet form's contexts none of them is frozen (R156). -/
theorem foldl_finishCtx (n : Nat) {s : State} {f : Nat} {fm : Form} (hf : Tab.find? f s.forms = some fm)
    (hq : QuietForm fm) : Stops f s ((List.range n).foldl (fun s fc => s.finishCtx f fc) s) ∧
      ∀ fm', Tab.find? f ((List.range n).foldl (fun s fc => s.finishCtx f fc) s).forms = some fm' →
        ∀ fc, fc < n → (fm'.mctx fc).frozen = none := by
  induction n with
  | zero => exact ⟨.refl f s, fun _ _ fc h => absurd h (Nat.not_lt_zero fc)⟩
  | succ n ih =>
    obtain ⟨hstops, hthawed⟩ := ih
    obtain ⟨fm1, hf1, hk⟩ := hstops.form hf
    rw [List.range_succ, List.foldl_append, List.foldl_cons, List.foldl_nil, finishCtx_quiet hf1 (hk.quiet hq)]
    have hmod := fun t : State => stops_modForm t f fun fm => modCtx_thaw_kept fm n
    refine ⟨hstops.trans ((hmod _).trans (hmod _)), fun fm' hf' fc hfc => ?_⟩
    simp only [State.modForm_forms, Tab.find?_mod_same, hf1, Option.map_some, Option.some.injEq] at hf'
    subst hf'
    by_cases h : n = fc
    · subst h
      rw [mctx_modCtx_same _ _ _ rfl, thaw_frozen]
    · rw [mctx_modCtx_ne _ h, mctx_modCtx_ne _ h]
      exact hthawed fm1 hf1 fc (by omega)

theorem endStream_clusters (s : State) (core : Nat) : ClustersOnly s (s.endStream core) := by
  unfold State.endStream
  dsimp only
  split
  · exact ⟨_, rfl⟩
  · exact .refl s

theorem quiesce_spec {s : State} {f : Nat} {fm : Form} (hf : Tab.find? f s.forms = some fm) (hq : QuietForm fm) :
    Stops f s (s.quiesce f fm) ∧ ∀ fm', Tab.find? f (s.quiesce f fm).forms = some fm' →
      ∀ fc, fc < fm.cores.length → (fm'.mctx fc).frozen = none := by
  have hlet := stops_foldl_letGo s f ((s.threadsOf f).filter (fun p => !p.2.clauses.isEmpty)) fun p hp => by
    simpa [State.threadsOf] using (List.mem_filter.1 (List.mem_filter.1 hp).1).2
  obtain ⟨fm1, hf1, hk⟩ := hlet.form hf
  obtain ⟨hfin, hthawed⟩ := foldl_finishCtx fm.cores.length hf1 (hk.quiet hq)
  have hend : ∀ t : State, ClustersOnly t (fm.cores.foldl State.endStream t) := fun t =>
    List.foldlRecOn _ _ (.refl t) fun _ ht c _ => ht.trans (endStream_clusters _ c)
  refine ⟨hlet.trans (hfin.trans (stops_of_clusters (hend _))), fun fm' hf' => hthawed fm' ?_⟩
  rwa [State.quiesce, (hend _).forms] at hf'

/-- A form that the kernel has saved (R183). -/
def savedForm (banks : List (Nat × Nat × Bank)) (fm : Form) : Form :=
  { fm with phase := .queued, resume := .direct, savedBanks := banks, benches := fm.benches.map Bench.unseat }

/-- The state after a form has been saved. -/
def forceSaved (s : State) (f : Nat) (fm : Form) : State :=
  let t := (s.quiesce f fm).freed f true
  (t.modForm f (savedForm (t.banksOf f fm.cores))).modThreadsOf f Thread.saved

theorem exec_forcedSave {s : State} {f : Nat} {host : Bool} {fm : Form} (hf : Tab.find? f s.forms = some fm)
    (hd : fm.saveDue s.clock = true) (hh : s.modectl.getLsbD 2 = true → host = true) (hx : s.allExited f = false)
    (he : s.enginesDone fm.cluster f = true) (hl : ∀ c ∈ fm.cores, ∀ l ∈ (s.core c).loads, l.form ≠ f)
    (ht : ∀ p ∈ s.threads, p.2.form = f → p.2.savable = true) :
    exec (.forcedSave ⟨f, host⟩) s = .next (forceSaved s f fm) := by
  have hhost : (!s.modectl.getLsbD 2 || host) = true := by
    cases hb : s.modectl.getLsbD 2 <;> simp [hb] at hh ⊢
    exact hh
  have hloads : fm.cores.all (fun c => (s.core c).loads.all (fun l => l.form != f)) = true := by simpa using hl
  have hsavable : (s.threadsOf f).all (fun p => p.2.savable) = true := by
    simpa only [State.threadsOf, List.all_eq_true, List.mem_filter, beq_iff_eq, and_imp] using ht
  show execForcedSave ⟨f, host⟩ s = _
  simp only [execForcedSave, hf, hhost, hd, hx, he, hloads, hsavable, Bool.not_false, Bool.and_self, runEvent_true]
  rfl

theorem savable_of {th : Thread} (h : th.status ≠ .live ∨ th.clauses = [] ∨
    ∃ c r, th.clauses = c :: r ∧ c.wait ≠ .none) : th.savable = true := by
  unfold Thread.savable
  rcases h with h | h | ⟨c, r, hc, hw⟩
  · simp [h]
  · simp [h]
  · simp [hc, hw]

/-- What a forced save keeps, and what the form and its threads are saved as. -/
theorem forceSaved_spec {s : State} {f : Nat} {fm : Form} (hf : Tab.find? f s.forms = some fm) (hq : QuietForm fm) :
    (forceSaved s f fm).mem = s.mem ∧
    (forceSaved s f fm).threads = (s.modThreadsOf f Thread.saved).threads ∧
    ∃ fm1, Tab.find? f (forceSaved s f fm).forms = some (savedForm (s.banksOf f fm.cores) fm1) ∧ FormKept fm fm1 ∧
      ∀ fc, fc < fm.cores.length → (fm1.mctx fc).frozen = none := by
  obtain ⟨hstops, hthawed⟩ := quiesce_spec hf hq
  obtain ⟨cs, hcs⟩ := freed_clusters (s.quiesce f fm) f true
  obtain ⟨fm1, hf1, hk⟩ := hstops.form hf
  have hbanks : ((s.quiesce f fm).freed f true).banksOf f fm.cores = s.banksOf f fm.cores := by
    rw [hcs]
    simp only [State.banksOf, State.core, hstops.cores]
  refine ⟨?_, ?_, fm1, ?_, hk, hthawed fm1 hf1⟩
  · simp only [forceSaved, hcs, State.modThreadsOf_mem, State.modForm_mem, hstops.mem]
  · rw [forceSaved, hcs]
    exact hstops.saved
  · rw [forceSaved, hbanks, hcs]
    simp [hf1]

/-- A thread of the saved form, read back. -/
theorem find?_modThreadsOf (s : State) (f k : Nat) (g : Thread → Thread) : Tab.find? k (s.modThreadsOf f g).threads =
    (Tab.find? k s.threads).map (fun th => if th.form = f then g th else th) :=
  find?_map k (fun p : Nat × Thread => if p.2.form = f then g p.2 else p.2) s.threads

theorem saved_of_clause {th : Thread} {c : Clause} {r : List Clause} (hc : th.clauses = c :: r) : th.saved =
    { th with pc := c.va, pending := none, clauses := [], wait := .none, pend10 := false, core := 512 } := by
  simp [Thread.saved, hc]

theorem saved_of_trap {th : Thread} {p : Pending} (hc : th.clauses = []) (hp : th.pending = some p) : th.saved =
    { th with
      pc := p.pc, pending := th.pending.filter (fun p => decide (p.cause ≠ 0x10)), clauses := [], wait := .none,
      pend10 := false, core := 512 } := by
  simp [Thread.saved, hc, hp]

theorem saved_of_idle {th : Thread} (hc : th.clauses = []) (hp : th.pending = none) : th.saved =
    { th with
      pending := th.pending.filter (fun p => decide (p.cause ≠ 0x10)), clauses := [], wait := .none,
      pend10 := false, core := 512 } := by
  simp [Thread.saved, hc, hp]

/-! ### The obligation -/

/-- Settles O49. Each event is its equation; what it keeps is what its parts keep: a region's moves and a retirement are the
statement's own, a forced save completes nothing where every context is quiet, and a move changes places alone. -/
theorem formLifeEvents : Obligations.FormLifeEvents := by
  unfold Obligations.FormLifeEvents
  refine ⟨fun s s1 f fm ms hf hp hw hm => ⟨exec_stagingComplete hf hp hw hm, exec_stagingComplete_differs hf hp hw hm⟩,
    fun s f fm hf hp hw => exec_stagingComplete_bad hf hp hw,
    fun s f fm hf hp hx he => exec_formRetire hf hp (allExited_iff.2 hx) he,
    fun s fm => ⟨fun p => mem_fifos_discardMail.1, discardMail_threads s fm, discardMail_mailOut s fm⟩,
    fun s s1 f fm ms hf hp hw hm => ⟨exec_writeBackComplete hf hp hw hm, exec_writeBackComplete_poison hf hp hw hm⟩,
    ?yield, ?save, ?move⟩
  case yield =>
    rintro s f fm hf hp hy ⟨p, hmem, hpf, hpy⟩ he
    have hx : s.allExited f = false :=
      Bool.eq_false_iff.2 fun h => by simpa [hpy] using allExited_iff.1 h p hmem hpf
    have hforms := formYielded_forms s f
    have hfm' : Tab.find? f _ = some (yieldedForm fm) :=
      (congrArg (Tab.find? f) hforms).trans (by rw [Tab.find?_mod_same, hf]; rfl)
    refine ⟨_, yieldedForm fm, exec_formYielded hf hp hx he hy, hfm', rfl, rfl, rfl, rfl, rfl, rfl, rfl, rfl, rfl, yieldedForm_ctxs, (freed_clusters s f true).mem, yieldedForm_benches, yieldedForm_meets fm, fun j hj => ?_⟩
    rw [hforms, Tab.find?_mod_ne _ _ hj.symm]
  case save =>
    intro s f host fm hf hd hh hx he hl hq ht
    obtain ⟨hmem, hthreads, fm1, hf1, hk, hthawed⟩ := forceSaved_spec hf hq
    refine ⟨_, _, exec_forcedSave hf hd hh hx he hl fun p hp hpf => savable_of (ht p hp hpf), hf1, rfl, rfl, hk.rcd, hk.hall,
      hk.tags, rfl, hthawed, hmem, fun k th hth => ?_⟩
    rw [hthreads, find?_modThreadsOf, hth, Option.map_some]
    by_cases hform : th.form = f
    · rw [if_pos hform, if_pos hform]
      cases hc : th.clauses with
      | cons c r => rw [saved_of_clause hc]; simp
      | nil =>
        cases hp : th.pending with
        | some p => rw [saved_of_trap hc hp]; simp [hp]
        | none => rw [saved_of_idle hc hp]; simp [hp]
    · rw [if_neg hform, if_neg hform]
  case move =>
    intro s f cl fm seats hf hm hs ho he hl hw
    refine ⟨_, movedForm cl seats s.clock fm, exec_formMigrate hf hm (fun p hp hpf => still_of (hs p hp hpf).1 (hs p hp hpf).2)
      ho he hl hw, by simp [migrated_forms, hf], rfl, rfl, rfl, rfl, rfl, rfl, rfl, rfl, migrated_mem s f fm cl seats,
      fun k th hth => ?_⟩
    have hu := find?_migrated_threads s f fm cl seats k
    rw [hth, Option.map_some] at hu
    by_cases hform : th.form = f
    · rw [if_pos hform] at hu
      exact ⟨_, hu, fun h => absurd hform h, rfl, rfl, rfl, rfl, rfl, rfl, fun _ => rfl⟩
    · rw [if_neg hform] at hu
      exact ⟨_, hu, fun _ => rfl, rfl, rfl, rfl, rfl, rfl, rfl, fun h => absurd h hform⟩

end Sys2Proof.WorkAndItsShape

namespace Sys2Proof.PlacesAndClauses
open Sys2Proof Sys2Proof.Machine

/-! ## Buffered results (R34, R35, R45, R51, R52) -/

theorem lookup_put_g_same (c : Clause) (n : Fin 120) (v : Word) : (c.put (.g n) v).gw.lookup n.val = some v :=
  List.lookup_cons_self

theorem lookup_put_g_ne (c : Clause) (n : Fin 120) (v : Word) {k : Nat} (h : k ≠ n.val) :
    (c.put (.g n) v).gw.lookup k = c.gw.lookup k := by
  rw [show (c.put (.g n) v).gw = (n.val, v) :: c.gw from rfl, List.lookup_cons, beq_false_of_ne h]

/-- What the clause behind the one at position i reads in gn: the latest write of that clause, else what it reads itself. -/
theorem gRead_succ {th : Thread} {i : Nat} {c : Clause} (hc : th.clauses[i]? = some c) (n : Nat) :
    gRead th (i + 1) n = (c.gw.lookup n).getD (gRead th i n) := by
  rw [gRead, List.take_add_one, hc, Option.toList_some, List.reverse_append, List.reverse_singleton, List.singleton_append,
    List.findSome?_cons]
  cases c.gw.lookup n <;> rfl

/-- Settles O8. The two tables answer by their laws of reading after a write; the clauses before position i + 1 are those
before i and the one at i, whose writes are met first. -/
theorem resultsAreBuffered : Obligations.ResultsAreBuffered := by
  unfold Obligations.ResultsAreBuffered
  refine ⟨fun c v => rfl, fun c n v => ⟨lookup_put_g_same c n v, fun k => lookup_put_g_ne c n v, rfl⟩,
    fun c n v hwf => ⟨SMap.get_set_eq hwf, fun k hk => SMap.get_set_ne _ hk.symm, rfl⟩,
    fun th i n c v hc hv => ?_, fun th i n c hc hv => ?_, fun th n => rfl⟩
  · rw [gRead_succ hc, hv, Option.getD_some]
  · rw [gRead_succ hc, hv, Option.getD_none]

end Sys2Proof.PlacesAndClauses

namespace Sys2Proof.PlacesAndClauses
open Sys2Proof Sys2Proof.Machine

/-! ## PLACE, GROW and SHRINK (R37 to R41) -/

theorem quiet_iff (th : Thread) (lo hi : Nat) :
    th.quiet lo hi = true ↔ ∀ l ∈ th.lats, ∀ n, l.dst = .g n → n < lo ∨ hi ≤ n := by
  unfold Thread.quiet
  rw [List.all_eq_true]
  refine forall₂_congr fun l _ => ?_
  cases l.dst <;> simp

/-! ### What a SHRINK loses (R41) -/

theorem lose_gw (lo hi : Nat) (c : Clause) :
    (c.lose lo hi).gw = c.gw.map (fun p => (p.1, if lo ≤ p.1 ∧ p.1 < hi then 0 else p.2)) := by
  refine List.map_congr_left fun p _ => ?_
  split <;> rfl

theorem filter_kept (lo hi n : Nat) : (some n).filter (fun n => decide (n < lo ∨ hi ≤ n)) =
    if lo ≤ n ∧ n < hi then none else some n := by
  rw [Option.filter_some]
  by_cases h : lo ≤ n ∧ n < hi
  · rw [if_pos h, if_neg (by simp; omega)]
  · rw [if_neg h, if_pos (by simp; omega)]

theorem lose_arrive (lo hi id slot n : Nat) (held : Bool) : (CommitAct.arrive id slot (some n) held).lose lo hi =
    .arrive id slot (if lo ≤ n ∧ n < hi then none else some n) held := by
  rw [← filter_kept]; rfl

theorem lose_launch (lo hi slot n va : Nat) (img : List Word) (pte : BitVec 64) :
    (CommitAct.launch img va pte slot (some n)).lose lo hi =
      .launch img va pte slot (if lo ≤ n ∧ n < hi then none else some n) := by
  rw [← filter_kept]; rfl

section Words
variable {s : State} {e : Env} {m : SMap Place} {w : Nat} (h : openWord s = some e)
  (hm : pendingMap e.th e.cl.acts = (m, w))
include h hm

/-! ### PLACE -/

theorem exec_place (g : Fin 120) (p : Place) (hi : e.i = 0) (hg : g.val < w) (hq : e.th.quiet g.val (g.val + 1) = true)
    (hroom : SMap.get .lane g.val m = p ∨ p = .lane ∨ countAt m w p < allotOf e.fm.rcd p) :
    exec (.place g p) s = .next (e.after (fun c => { c with acts := c.acts ++ [.place g.val p] })) :=
  runWord_after _ h (by simp [hm, hg, Env.notHeld_first hi, hq, hroom, Clause.act_eq])

theorem exec_place_beyond (g : Fin 120) (p : Place) (hg : w ≤ g.val) : exec (.place g p) s = .next (e.trapped 0x06 0 0) :=
  runWord_trapped h (by simp [hm, Nat.not_lt.2 hg])

theorem exec_place_full (g : Fin 120) (p : Place) (hi : e.i = 0) (hg : g.val < w)
    (hq : e.th.quiet g.val (g.val + 1) = true) (hroom : ¬ (SMap.get .lane g.val m = p ∨ p = .lane ∨
      countAt m w p < allotOf e.fm.rcd p)) : exec (.place g p) s = .next (e.trapped 0x06 0 0) :=
  runWord_trapped h (by simp [hm, hg, Env.notHeld_first hi, hq, hroom])

theorem exec_place_held (g : Fin 120) (p : Place) (hg : g.val < w) (hi : e.i ≠ 0) :
    exec (.place g p) s = .next (e.waiting .held s) :=
  runWord_waiting h (by simp [hm, hg, Env.notHeld_behind hi, openWord_state h])

theorem exec_place_drains (g : Fin 120) (p : Place) (hg : g.val < w) (hi : e.i = 0)
    (hq : e.th.quiet g.val (g.val + 1) = false) : exec (.place g p) s = .next (e.waiting .drain s) :=
  runWord_waiting h (by simp [hm, hg, Env.notHeld_first hi, hq, openWord_state h])

/-! ### GROW -/

theorem exec_grow_fault (d : Reg) (n : Src)
    (hb : ¬ ((e.src n).toNat ≠ 0 ∧ (e.src n).toNat % 8 = 0 ∧ w + (e.src n).toNat ≤ 120)) :
    exec (.grow d n) s = .next (e.trapped 0x04 0 0) :=
  runWord_trapped h (by simp [hm, hb])

/-- A GROW by an amount that its rules allow, whose wait began at a tick or begins now: it acts where its lane has room for
it and none older waits, and waits otherwise. -/
theorem exec_grow (d : Reg) (n : Src) {since : Nat}
    (hs : e.cl.wait = .grow since ∨ ((∀ t, e.cl.wait ≠ .grow t) ∧ since = s.clock))
    (hb : (e.src n).toNat ≠ 0 ∧ (e.src n).toNat % 8 = 0 ∧ w + (e.src n).toNat ≤ 120) :
    exec (.grow d n) s =
      if s.laneUsed e.th.core e.th.lane + (e.src n).toNat ≤ 1792 ∧ s.olderGrow e.th.core e.th.lane since e.k = false then
        .next (e.after (fun c =>
          let c1 := c.put d (BitVec.ofNat 32 (w + (e.src n).toNat))
          { c1 with acts := c1.acts ++ [.grow (e.src n).toNat] }))
      else .next (e.waiting (.grow since) s) := by
  split
  next hroom =>
    refine runWord_after _ h ?_
    rcases hs with hwait | ⟨hwait, rfl⟩ <;> simp [hm, hb, hroom, hwait, openWord_state h, Clause.act_eq]
  next hroom =>
    have hno : (decide (s.laneUsed e.th.core e.th.lane + (e.src n).toNat ≤ 1792) &&
        !s.olderGrow e.th.core e.th.lane since e.k) = false := by simpa using hroom
    refine runWord_waiting h ?_
    rcases hs with hwait | ⟨hwait, rfl⟩ <;> simp [hm, hb, hno, hwait, openWord_state h]

/-! ### SHRINK -/

theorem exec_shrink (n : Src) (hb : (e.src n).toNat ≠ 0 ∧ (e.src n).toNat % 8 = 0 ∧ 8 + (e.src n).toNat ≤ w) (hi : e.i = 0)
    (hq : e.th.quiet (w - (e.src n).toNat) w = true) : exec (.shrink n) s = .next (e.after (fun c =>
      let c1 := c.lose (w - (e.src n).toNat) w
      { c1 with acts := c1.acts ++ [.shrink (e.src n).toNat] })) :=
  runWord_after _ h (by simp [hm, hb, Env.notHeld_first hi, hq, Clause.act_eq])

theorem exec_shrink_fault (n : Src)
    (hb : ¬ ((e.src n).toNat ≠ 0 ∧ (e.src n).toNat % 8 = 0 ∧ 8 + (e.src n).toNat ≤ w)) :
    exec (.shrink n) s = .next (e.trapped 0x04 0 0) :=
  runWord_trapped h (by simp [hm, hb])

theorem exec_shrink_held (n : Src) (hb : (e.src n).toNat ≠ 0 ∧ (e.src n).toNat % 8 = 0 ∧ 8 + (e.src n).toNat ≤ w)
    (hi : e.i ≠ 0) : exec (.shrink n) s = .next (e.waiting .held s) :=
  runWord_waiting h (by simp [hm, hb, Env.notHeld_behind hi, openWord_state h])

theorem exec_shrink_drains (n : Src) (hb : (e.src n).toNat ≠ 0 ∧ (e.src n).toNat % 8 = 0 ∧ 8 + (e.src n).toNat ≤ w)
    (hi : e.i = 0) (hq : e.th.quiet (w - (e.src n).toNat) w = false) : exec (.shrink n) s = .next (e.waiting .drain s) :=
  runWord_waiting h (by simp [hm, hb, Env.notHeld_first hi, hq, openWord_state h])

end Words

/-- Settles O37. Each of the three words is a row of conditions; a clause of the statement is the lemma about the one that
holds or fails, and for GROW the tick from which it waits is told apart first. -/
theorem registerWindow : Obligations.RegisterWindow := by
  unfold Obligations.RegisterWindow
  intro s e m w h hm
  refine ⟨exec_place h hm, exec_place_beyond h hm, ?full, ?grows, ?noRoom, ?growFault,
    fun n h0 h8 hw hi hq => exec_shrink h hm n ⟨h0, h8, hw⟩ hi hq, fun lo hi c => ⟨rfl, lose_gw lo hi c, rfl⟩,
    fun lo hi id slot n va held img pte => ⟨lose_arrive lo hi id slot n held, lose_launch lo hi slot n va img pte⟩,
    ?shrinkFault, exec_place_held h hm, exec_place_drains h hm,
    fun n h0 h8 hw => ⟨exec_shrink_held h hm n ⟨h0, h8, hw⟩, exec_shrink_drains h hm n ⟨h0, h8, hw⟩⟩, ?growsOn, quiet_iff e.th⟩
  case full =>
    intro g p hi hg hq hp hl ha
    exact exec_place_full h hm g p hi hg hq (by simp [hp, hl, ha])
  case grows =>
    intro d n b h0 h8 hw hlane hold hnew
    by_cases hwait : ∃ since, e.cl.wait = .grow since
    · obtain ⟨since, hwait⟩ := hwait
      rw [exec_grow h hm d n (.inl hwait) ⟨h0, h8, hw⟩, if_pos ⟨hlane, hold since hwait⟩]
    · have hnone : ∀ t, e.cl.wait ≠ .grow t := fun t ht => hwait ⟨t, ht⟩
      rw [exec_grow h hm d n (.inr ⟨hnone, rfl⟩) ⟨h0, h8, hw⟩, if_pos ⟨hlane, hnew hnone⟩]
  case noRoom =>
    intro d n b h0 h8 hw hlane hnone
    rw [exec_grow h hm d n (.inr ⟨hnone, rfl⟩) ⟨h0, h8, hw⟩, if_neg fun hroom => absurd hroom.1 (Nat.not_le.2 hlane)]
  case growFault => exact fun d n hb => exec_grow_fault h hm d n (by omega)
  case shrinkFault => exact fun n hb => exec_shrink_fault h hm n (by omega)
  case growsOn =>
    intro d n since b h0 h8 hw hwait hstop
    rw [exec_grow h hm d n (.inl hwait) ⟨h0, h8, hw⟩, if_neg]
    rintro ⟨hlane, hold⟩
    exact hstop.elim (Nat.not_lt.2 hlane) (by simp [hold])

end Sys2Proof.PlacesAndClauses

namespace Sys2Proof.PlacesAndClauses
open Sys2Proof Sys2Proof.Machine Sys2Proof.WorkAndItsShape

/-! ## What an access to memory leaves as it is (R99 to R106, R205, R239) -/

/-- Threads, forms, nodes and the clock are as they were. -/
structure WorkKept (s t : State) : Prop where
  threads : t.threads = s.threads
  forms : t.forms = s.forms
  nodes : t.nodes = s.nodes
  clock : t.clock = s.clock

theorem WorkKept.refl (s : State) : WorkKept s s := ⟨rfl, rfl, rfl, rfl⟩

theorem WorkKept.trans {s t u : State} (h : WorkKept s t) (g : WorkKept t u) : WorkKept s u :=
  ⟨g.threads.trans h.threads, g.forms.trans h.forms, g.nodes.trans h.nodes, g.clock.trans h.clock⟩

/-- Requests change the stacks' queues and tags alone. -/
theorem requests_eq (s : State) (pas : List Nat) : ∃ k, s.requests pas = { s with hbm := k } := by
  unfold State.requests
  refine List.foldlRecOn (motive := fun t : State => ∃ k, t = { s with hbm := k }) _ _ ⟨s.hbm, rfl⟩ ?_
  rintro t ⟨k, rfl⟩ _ _
  exact ⟨_, rfl⟩

theorem requests_kept (s : State) (pas : List Nat) : WorkKept s (s.requests pas) := by
  obtain ⟨k, hk⟩ := requests_eq s pas
  rw [hk]
  exact ⟨rfl, rfl, rfl, rfl⟩

theorem modCluster_kept (s : State) (c : Nat) (f : Cluster → Cluster) : WorkKept s (s.modCluster c f) := ⟨rfl, rfl, rfl, rfl⟩

theorem modCore_kept (s : State) (c : Nat) (f : Core → Core) : WorkKept s (s.modCore c f) := ⟨rfl, rfl, rfl, rfl⟩

theorem puts_kept (s : State) (zs : List (Nat × Byte)) : WorkKept s (s.puts zs) := by
  have hbytes : WorkKept s (zs.foldl (fun s z => s.setPhysByte z.1 z.2) s) :=
    List.foldlRecOn _ _ (.refl s) fun t ht z _ => ht.trans ⟨by simp, by simp, by simp, by simp⟩
  unfold State.puts
  split
  · exact .refl s
  · refine WorkKept.trans ?_ (requests_kept _ _)
    exact hbytes.trans ⟨rfl, rfl, rfl, rfl⟩

theorem markDirty_kept (s : State) (ctx va : Nat) : WorkKept s (s.markDirty ctx va) :=
  (puts_kept s _).trans ⟨rfl, rfl, rfl, rfl⟩

theorem pause_kept (s : State) (ctx va : Nat) : WorkKept s (s.pause ctx va) := by
  unfold State.pause
  dsimp only
  split
  · exact .refl s
  · exact ⟨rfl, rfl, rfl, rfl⟩

theorem miss_kept (s : State) (cl ctx va : Nat) : WorkKept s (s.miss cl ctx va) := by
  unfold State.miss
  dsimp only
  split
  · exact .refl s
  · exact ⟨rfl, rfl, rfl, rfl⟩

theorem useEntry_kept (s : State) (ctx va : Nat) (u : Use) (e : TlbEntry) : WorkKept s (s.useEntry ctx va u e).1 := by
  unfold State.useEntry
  split
  · exact pause_kept _ _ _
  split
  · split
    · exact .refl s
    split
    · exact .refl s
    · exact markDirty_kept _ _ _
  · exact .refl s

theorem xlat2_kept (s : State) (cl ctx va : Nat) (u : Use) : WorkKept s (s.xlat2 cl ctx va u).1 := by
  unfold State.xlat2
  split
  · exact (modCluster_kept _ _ _).trans (useEntry_kept _ _ _ _ _)
  · exact miss_kept _ _ _ _

theorem xlat1_kept (s : State) (core ctx va : Nat) (u : Use) : WorkKept s (s.xlat1 core ctx va u).1 := by
  have h2 := xlat2_kept s (core / 8) ctx va u
  unfold State.xlat1
  split
  · exact (modCore_kept _ _ _).trans (useEntry_kept _ _ _ _ _)
  · split
    next s1 e hx => rw [hx] at h2; exact WorkKept.trans (t := s1) h2 ⟨rfl, rfl, rfl, rfl⟩
    next => exact h2

theorem fetchWord_kept (s : State) (core : Nat) (pte : BitVec 64) (va : Nat) : WorkKept s (s.fetchWord core pte va).1 := by
  unfold State.fetchWord
  dsimp only
  repeat' split
  case h_2.isFalse => exact (modCluster_kept _ _ _).trans (requests_kept _ _)
  all_goals exact ⟨rfl, rfl, rfl, rfl⟩

theorem fetch_kept (core ctx n : Nat) (s : State) (va : Nat) : WorkKept s (s.fetch core ctx va n).1 := by
  induction n generalizing s va with
  | zero => exact .refl s
  | succ n ih =>
    have hx := xlat1_kept s core ctx va .read
    unfold State.fetch
    split
    next h => rwa [h] at hx
    next s1 e h =>
      rw [h] at hx
      have hw := fetchWord_kept s1 core e.pte va
      split
      next h1 => rw [h1] at hw; exact hx.trans hw
      next s2 w h1 =>
        rw [h1] at hw
        have hr := ih s2 ((va + 4) % 2 ^ 56)
        split
        next h2 => rw [h2] at hr; exact (hx.trans hw).trans hr
        next h2 => rw [h2] at hr; exact (hx.trans hw).trans hr

theorem fetch_kept_of {s t : State} {core ctx va n : Nat} {r : Option (List Word)} (h : s.fetch core ctx va n = (t, r)) :
    WorkKept s t := by
  simpa only [h] using fetch_kept core ctx n s va

/-! ## The issue of a thread's next clause (R22, R43, R49, R172) -/

section Dispatch
variable {s s1 s2 : State} {th : Thread} {fm : Form} {hw : Word} {h : Header} {ws : List Word} {items : List Item}
  {todo : List (Nat × Instr)}

/-- A legal clause that nothing holds back passes the checks of its dispatch. -/
theorem checkClause_go (hcut : cutClause h ws = some items) (hrole : roleAllows (Rec.role fm.rcd th.bench) h.cls = true)
    (hbreak : s.breakAt th fm.ctx h.count = none) (hchecks : wordChecks fm th h.cls items = .ok todo)
    (hwait : dispatchWait th h todo = none) : s.checkClause fm th h ws = .go (newClause fm th h todo s.serial) s := by
  simp [State.checkClause, hcut, hrole, hbreak, hchecks, hwait]

theorem afterControl_nil (hc : th.clauses = []) : th.afterControl = false := by simp [Thread.afterControl, hc]

/-- With no clause outstanding and no SW wait a dispatch goes on to what it has fetched. -/
theorem tryDispatch_eq_checkClause (hc : th.clauses = []) (hsw : th.parkedBySw = false)
    (hhdr : s.fetch th.core fm.ctx th.pc.toNat 1 = (s1, some [hw])) (hdec : decodeHeader hw = some h)
    (hws : s1.fetch th.core fm.ctx (addWords th.pc 1).toNat h.count = (s2, some ws)) :
    s.tryDispatch fm th = s2.checkClause fm th h ws := by
  simp [State.tryDispatch, afterControl_nil hc, hc, hsw, hhdr, hdec, hws]

end Dispatch

theorem dispatch_go {s s1 : State} {t : Nat} {th : Thread} {fm : Form} {c : Clause}
    (ht : Tab.find? t s.threads = some th) (hf : Tab.find? th.form s.forms = some fm)
    (hmay : th.mayDispatch fm s.clock = true) (hgo : s.tryDispatch fm th = .go c s1) :
    s.dispatch t = s1.issueClause t th c := by
  simp [State.dispatch, ht, hf, hmay, hgo]

/-- The thread as the issue of its clause leaves it. -/
def issued (th : Thread) (c : Clause) (now : Nat) : Thread :=
  { th with
    clauses := th.clauses ++ [{ c with tick := now }], pc := c.next, wait := .none, sw := false, age := 0,
    noBreak := if th.noBreak = some c.va then none else th.noBreak }

theorem find?_issueClause {s : State} {t : Nat} {th : Thread} (ht : Tab.find? t s.threads = some th) (c : Clause) :
    Tab.find? t (s.issueClause t th c).threads = some (issued th c s.clock) := by
  simp [State.issueClause, ht, issued]

theorem find?_issueClause_forms {s : State} {th : Thread} {fm : Form} (hf : Tab.find? th.form s.forms = some fm) (t : Nat)
    (c : Clause) : Tab.find? th.form (s.issueClause t th c).forms = some { fm with watchdog := 0 } := by
  simp [State.issueClause, hf]

theorem live_of_mayDispatch {th : Thread} {fm : Form} {now : Nat} (h : th.mayDispatch fm now = true) :
    th.status = .live ∧ (fm.phase = .running ∨ fm.phase = .yielding) := by
  simp only [Thread.mayDispatch, Bool.and_eq_true, decide_eq_true_eq] at h
  obtain ⟨⟨⟨⟨⟨⟨hlive, hphase⟩, -⟩, -⟩, -⟩, -⟩, -⟩ := h
  exact ⟨hlive, hphase⟩

/-- The clause that an issue puts first is the one whose word may execute. -/
theorem canRun_issued {th : Thread} {c : Clause} {now : Nat} (hc : th.clauses = []) (hq : c.todo ≠ []) :
    (issued th c now).canRun 0 = true := by
  rw [canRun_iff (c := { c with tick := now }) (by simp [issued, hc])]
  simp [hq]

/-- A thread with no clause outstanding that dispatches a clause executes the clause's first word. -/
theorem issueThread_go {s s1 : State} {t idx : Nat} {th : Thread} {fm : Form} {c : Clause} {i : Instr}
    {q : List (Nat × Instr)} (ht : Tab.find? t s.threads = some th) (hf : Tab.find? th.form s.forms = some fm)
    (hc : th.clauses = []) (hmay : th.mayDispatch fm s.clock = true) (hgo : s.tryDispatch fm th = .go c s1)
    (hk : WorkKept s s1) (hq : c.todo = (idx, i) :: q) :
    s.issueThread t = exec i { s1.issueClause t th c with cur := t, curAt := some 0 } := by
  obtain ⟨hlive, hphase⟩ := live_of_mayDispatch hmay
  have hd := dispatch_go ht hf hmay hgo
  have hth : Tab.find? t (s1.issueClause t th c).threads = some (issued th c s1.clock) :=
    find?_issueClause (by rw [hk.threads, ht]) c
  have hfm : Tab.find? th.form (s1.issueClause t th c).forms = some { fm with watchdog := 0 } :=
    find?_issueClause_forms (by rw [hk.forms, hf]) t c
  have hfirst : (issued th c s1.clock).clauses[0]? = some { c with tick := s1.clock } := by simp [issued, hc]
  have hout : s.outstanding t = 0 := by simp [State.outstanding, ht, hc]
  have hout1 : (s1.issueClause t th c).outstanding t = 1 := by simp [State.outstanding, hth, issued, hc]
  have hopen : openWord { s1.issueClause t th c with cur := t, curAt := some 0 } = some
      { s := { s1.issueClause t th c with cur := t, curAt := some 0 }, k := t, th := issued th c s1.clock,
        fm := { fm with watchdog := 0 }, i := 0, cl := { c with tick := s1.clock }, idx := idx } := by
    simp [openWord, hth, show (issued th c s1.clock).form = th.form from rfl, hfm, pickOpen, openAt, hfirst, hq]
  have hrun := runAt_of_open hth (runs_of (th := issued th c s1.clock) hfm hlive hphase) (canRun_issued hc (by simp [hq])) hopen hq
  simp [State.issueThread, hd, hout, hout1, hrun]

/-- Settles O7. The fetches keep threads and forms, so that the clause that the dispatch makes becomes the thread's only one,
and its first word is the open one. -/
theorem stepRunsTheDecodedInstruction : Obligations.StepRunsTheDecodedInstruction := by
  unfold Obligations.StepRunsTheDecodedInstruction
  intro s s1 s2 t r th fm hw h ws items idx i q ha ht hf hc hmay hsw hhdr hdec hws hcut hrole hbreak hchecks hwait
  have hgo := (tryDispatch_eq_checkClause hc hsw hhdr hdec hws).trans (checkClause_go hcut hrole hbreak hchecks hwait)
  have hk := (fetch_kept_of hhdr).trans (fetch_kept_of hws)
  exact (step_of_agenda ha).trans (issueThread_go (s := { s with agenda := r }) ht hf hc hmay hgo hk rfl)

end Sys2Proof.PlacesAndClauses

namespace Sys2Proof.PlacesAndClauses
open Sys2Proof Sys2Proof.Machine Sys2Proof.WorkAndItsShape

/-! ## Commit (R36, R46, R47, R51, R52, R61, R111, R118, R297, R388) -/

/-! ### The register effects of a clause -/

theorem wf_foldr_set {g : SMap Word} (hwf : SMap.wf 0 g = true) (gw : List (Nat × Word)) :
    SMap.wf 0 (gw.foldr (fun p g => SMap.set 0 p.1 p.2 g) g) = true := by
  induction gw with
  | nil => exact hwf
  | cons p gw ih => exact SMap.wf_set ih

/-- Performing buffered writes, latest first, leaves each register with what was written to it last. -/
theorem get_foldr_set {g : SMap Word} (hwf : SMap.wf 0 g = true) (gw : List (Nat × Word)) (n : Nat) :
    SMap.get 0 n (gw.foldr (fun p g => SMap.set 0 p.1 p.2 g) g) = (gw.lookup n).getD (SMap.get 0 n g) := by
  induction gw with
  | nil => rfl
  | cons p gw ih =>
    obtain ⟨k, v⟩ := p
    rw [List.foldr_cons, List.lookup_cons]
    by_cases h : n = k
    · subst h
      rw [SMap.get_set_eq (wf_foldr_set hwf gw), beq_self_eq_true]
      rfl
    · rw [SMap.get_set_ne _ (Ne.symm h), ih, beq_false_of_ne h]

/-! ### The end of a word -/

theorem endWord_pc {th : Thread} {i : Nat} {c : Clause} {g : Clause → Clause} (hc : th.clauses[i]? = some c)
    (hhdr : (g c).hdr = c.hdr) (htodo : (g c).todo = c.todo) :
    (th.endWord i g).pc = if c.hdr.cls = .control ∧ c.todo.length ≤ 1 then (g c).next else th.pc := by
  have hlast : c.todo.tail = [] ↔ c.todo.length ≤ 1 := by
    rw [← List.length_eq_zero_iff, List.length_tail]; omega
  simp [Thread.endWord, hc, Clause.pcAfter, hhdr, htodo, hlast]

theorem endWord_clause {th : Thread} {i : Nat} {c : Clause} {g : Clause → Clause} (hc : th.clauses[i]? = some c)
    (htodo : (g c).todo = c.todo) : (th.endWord i g).clauses[i]? = some { g c with todo := c.todo.tail, wait := .none } := by
  simp [hc, Clause.pop, htodo]

theorem endWord_clause_ne (th : Thread) {i j : Nat} (g : Clause → Clause) (h : j ≠ i) :
    (th.endWord i g).clauses[j]? = th.clauses[j]? := by
  rw [Thread.endWord_clauses, List.getElem?_modify_ne _ _ h.symm]

/-! ### Scalar registers (R36, log 88) -/

theorem put1_of_le {b : Bench} {q n : Nat} (v : Word) (h : SMap.get 0 n b.last ≤ q) :
    b.put1 q n v = { b with s := SMap.set 0 n v b.s, last := SMap.set 0 n q b.last } := if_neg (Nat.not_lt.2 h)

theorem put1_of_lt {b : Bench} {q n : Nat} (v : Word) (h : q < SMap.get 0 n b.last) : b.put1 q n v = b := if_pos h

theorem put1_s {b : Bench} {q n : Nat} (hs : SMap.wf 0 b.s = true) (v : Word) (h : SMap.get 0 n b.last ≤ q) :
    SMap.get 0 n (b.put1 q n v).s = v := by
  rw [put1_of_le v h]; exact SMap.get_set_eq hs

theorem put1_s_ne {b : Bench} {q n m : Nat} (v : Word) (h : SMap.get 0 n b.last ≤ q) (hm : m ≠ n) :
    SMap.get 0 m (b.put1 q n v).s = SMap.get 0 m b.s := by
  rw [put1_of_le v h]; exact SMap.get_set_ne _ hm.symm

theorem put1_last {b : Bench} {q n : Nat} (hl : SMap.wf 0 b.last = true) (v : Word) (h : SMap.get 0 n b.last ≤ q) :
    SMap.get 0 n (b.put1 q n v).last = q := by
  rw [put1_of_le v h]; exact SMap.get_set_eq hl

theorem put1_wf {b : Bench} {q n : Nat} (hs : SMap.wf 0 b.s = true) (v : Word) (h : SMap.get 0 n b.last ≤ q) :
    SMap.wf 0 (b.put1 q n v).s = true := by
  rw [put1_of_le v h]; exact SMap.wf_set hs

/-! ### What a clause waits for before it commits -/

theorem inBundleOrder_iff (c : Clause) : c.inBundleOrder = true ↔
    (c.hdr.cls = .scalar ∧ c.hw ≠ []) ∨ (c.hdr.cls = .copy ∧ ∃ a ∈ c.acts,
      (∃ qs n o va, a = .copy qs (.gather n o va)) ∨ ∃ q o n va, a = .scatter q o n va) := by
  simp only [Clause.inBundleOrder, Bool.or_eq_true, Bool.and_eq_true, decide_eq_true_eq, Bool.not_eq_true',
    List.isEmpty_eq_false_iff, List.any_eq_true]
  refine or_congr_right (and_congr_right fun _ => exists_congr fun a => and_congr_right fun _ => ?_)
  split
  next qs n o va => simp
  next q o n va => simp
  next hg hs => exact ⟨nofun, fun h => h.elim (fun ⟨qs, n, o, va, h⟩ => absurd h (hg qs n o va))
      fun ⟨q, o, n, va, h⟩ => absurd h (hs q o n va)⟩

theorem bundleHeld_iff (s : State) (th : Thread) (c : Clause) : s.bundleHeld th c = true ↔
    ((c.hdr.cls = .scalar ∧ c.hw ≠ []) ∨ (c.hdr.cls = .copy ∧ ∃ a ∈ c.acts,
      (∃ qs n o va, a = .copy qs (.gather n o va)) ∨ ∃ q o n va, a = .scatter q o n va)) ∧
    ∃ p ∈ s.threads, p.2.core = th.core ∧ (p.2.blane < th.blane ∨ (p.2.blane = th.blane ∧ p.2.lane < th.lane)) ∧
      ∃ d ∈ p.2.clauses, d.va = c.va ∧ d.tick = c.tick := by
  rw [← inBundleOrder_iff]
  simp [State.bundleHeld, and_assoc]

theorem commitWait_of_held {s : State} {t : Nat} {th : Thread} {fm : Form} {c : Clause}
    (h : ∃ x ∈ c.hw, ∃ w ∈ wordsOfSpan x.addr x.bytes.length, fm.heldByOther t (4 * w) = true) :
    s.commitWait t th fm c = some .reservation :=
  if_pos (by simpa using h)

theorem commitWait_of_bundle {s : State} {t : Nat} {th : Thread} {fm : Form} {c : Clause} (ha : c.acts = [])
    (h : ∀ x ∈ c.hw, ∀ w ∈ wordsOfSpan x.addr x.bytes.length, fm.heldByOther t (4 * w) = false)
    (hb : s.bundleHeld th c = true) : s.commitWait t th fm c = some .held := by
  have hfree : ¬ (c.hw.any fun x => (wordsOfSpan x.addr x.bytes.length).any fun w => fm.heldByOther t (4 * w)) = true := by
    simpa using h
  simp only [State.commitWait, ha, List.any_nil, Bool.false_and, Bool.false_eq_true, if_false, if_neg hfree, hb, if_true]

/-! ### The wake of threads whose barrier's phase is complete (R27, R309) -/

/-- A thread as the wake of a form leaves it. -/
def woken (f : Nat) (fm : Form) (j : Nat) (u : Thread) : Thread :=
  if u.form = f ∧ fm.waitDone j then
    { u with clauses := u.clauses.map (fun c => if c.wait = .barrier then c.waits .none else c) }
  else u

theorem wake_eq {s : State} {f : Nat} {fm : Form} (hf : Tab.find? f s.forms = some fm) :
    s.wake f = { s with threads := s.threads.map (fun p => (p.1, woken f fm p.1 p.2)) } := by
  simp only [State.wake, hf]
  rfl

theorem find?_wake {s : State} {f : Nat} {fm : Form} (hf : Tab.find? f s.forms = some fm) (j : Nat) :
    Tab.find? j (s.wake f).threads = (Tab.find? j s.threads).map (woken f fm j) := by
  rw [wake_eq hf]
  exact find?_map j (fun p => woken f fm p.1 p.2) s.threads

theorem woken_same (f : Nat) (fm : Form) (j : Nat) (u : Thread) :
    (woken f fm j u).step = u.step ∧ (woken f fm j u).pending = u.pending ∧ (woken f fm j u).status = u.status := by
  unfold woken
  split <;> exact ⟨rfl, rfl, rfl⟩

/-! ### The commit of the first clause -/

/-- A commit that leaves its thread live, out of step mode and with no trap waiting does nothing after it, but for the stop of
a shed form at a barrier. -/
theorem afterCommit_quiet {s : State} {k : Nat} {th : Thread} (f : Nat) {c : Clause}
    (ht : Tab.find? k s.threads = some th) (hstep : th.step = false) (hp : th.pending = none) (hl : th.status = .live)
    (ha : c.arrives = false) : s.afterCommit k f c = s := by
  unfold State.afterCommit
  rw [ht]
  cases Tab.find? f s.forms with
  | none => rfl
  | some fm => simp [hstep, ha, hl, State.settle, ht, hp]

section Commit
variable {s : State} {t : Nat} {th : Thread} {fm : Form} {c : Clause} {r : List Clause}
  (ht : Tab.find? t s.threads = some th) (hf : Tab.find? th.form s.forms = some fm) (hc : th.clauses = c :: r)
  (hq : c.todo = [])
include ht hf hc hq

omit hf in
theorem exec_clauseCommit (hl : th.status = .live) : exec (.clauseCommit t) s = .next (s.commit t) := by
  have hcan : s.canCommit t = true := by simp [State.canCommit, ht, hc, hq, hl]
  show runEvent s (s.canCommit t) (·.commit t) = _
  rw [hcan, runEvent_true]

theorem commit_restarts (hrec : c.recsHold fm th = false) :
    s.commit t = s.modThread t (fun u => { u with clauses := u.clauses.modify 0 Clause.restart }) := by
  simp [State.commit, ht, hf, hc, hq, hrec]

theorem commit_waits {w : Wait} (hrec : c.recsHold fm th = true) (hw : s.commitWait t th fm c = some w) :
    s.commit t = s.waitCommit t w := by
  simp [State.commit, ht, hf, hc, hq, hrec, hw]

/-- A clause without acts that nothing holds back performs its writes together. -/
theorem commit_performs (hstep : th.step = false) (hp : th.pending = none) (hl : th.status = .live)
    (hcls : c.hdr.cls ≠ .copy) (ha : c.acts = []) (hrec : c.recsHold fm th = true) (hw : s.commitWait t th fm c = none) :
    s.commit t = (((s.modForm th.form (·.writes c.hw)).modThread t (·.retire c c.gw)).modForm th.form
      (fun x => ((x.modBench th.bench (·.putS c.seq c.sw)).release t).serveAll c.hw)).wake th.form := by
  have hfin : s.commit t = s.finishClause t th.form c := by
    simp [State.commit, ht, hf, hc, hq, hrec, hw, State.commitFault, ha, hcls]
  have hret : Tab.find? t ((s.modForm th.form (·.writes c.hw)).modThread t (·.retire c c.gw)).threads =
      some (th.retire c c.gw) := by simp [ht]
  rw [hfin]
  simp only [State.finishClause, ha, State.doActs, hret, Thread.retire_bench]
  obtain ⟨hstep', hp', hl'⟩ := woken_same th.form
    (((((fm.writes c.hw).modBench th.bench (·.putS c.seq c.sw)).release t).serveAll c.hw)) t (th.retire c c.gw)
  refine afterCommit_quiet th.form ((find?_wake (by simp [hf]; rfl) t).trans (by simp [ht])) (hstep'.trans hstep)
    (hp'.trans hp) (hl'.trans hl) (by simp [Clause.arrives, ha])

end Commit

/-- Settles O10. The registers by the laws of reading after a list of writes, the events by the equations of `State.commit`
for a clause that starts again, waits or is performed, the wake by what it does to one thread. -/
theorem clauseCommitsTogether : Obligations.ClauseCommitsTogether := by
  unfold Obligations.ClauseCommitsTogether
  refine ⟨fun th c hwf => ⟨get_foldr_set hwf c.gw, rfl, rfl, rfl, rfl⟩,
    fun th i c g hc hhdr htodo => ⟨endWord_pc hc hhdr htodo, endWord_clause hc htodo, fun j => endWord_clause_ne th g, rfl⟩,
    ?commit, ?wake, ?scalar⟩
  case commit =>
    intro s t th fm c r ht hf hc hq hl
    have hexec := exec_clauseCommit ht hc hq hl
    refine ⟨fun hstep hp hcls ha hrec hw => ?_, fun hrec hheld => ?_, fun hrec ha hfree hb => ?_, bundleHeld_iff s th c,
      fun hrec => ?_, fun w => rfl⟩
    · rw [hexec, commit_performs ht hf hc hq hstep hp hl hcls ha hrec hw]
    · rw [hexec, commit_waits ht hf hc hq hrec (commitWait_of_held hheld)]
    · rw [hexec, commit_waits ht hf hc hq hrec (commitWait_of_bundle ha hfree hb)]
    · rw [hexec, commit_restarts ht hf hc hq hrec]
      rfl
  case wake =>
    intro s f fm hf
    refine ⟨by rw [wake_eq hf], fun j u hu => ⟨fun hno => ?_, fun hform hdone => ?_⟩⟩
    · rw [find?_wake hf, hu, Option.map_some, woken, if_neg]
      rintro ⟨hform, hdone⟩
      exact hno.elim (· hform) (by simp [hdone])
    · rw [find?_wake hf, hu, Option.map_some, woken, if_pos ⟨hform, hdone⟩]
      rfl
  case scalar =>
    intro b q r n m v w hs hlast hqr hq hm
    have hr : SMap.get 0 n b.last ≤ r := by omega
    have hthen : SMap.get 0 n (b.put1 q n v).last ≤ r := by rw [put1_last hlast v hq]; omega
    have hafter : q < SMap.get 0 n (b.put1 r n w).last := by rwa [put1_last hlast w hr]
    refine ⟨put1_s hs v hq, put1_s_ne v hq hm, put1_s (put1_wf hs v hq) w hthen, ?_⟩
    rw [put1_of_lt v hafter, put1_s hs w hr]

end Sys2Proof.PlacesAndClauses

namespace Sys2Proof.PlacesAndClauses
open Sys2Proof Sys2Proof.Machine Sys2Proof.WorkAndItsShape

/-! ## What a discarded clause lets go of (R53, R134, R139, R310; log 69) -/

theorem mem_of_find? {α : Type} {k : Nat} {v : α} {m : Tab α} (h : Tab.find? k m = some v) : (k, v) ∈ m := by
  induction m with
  | nil => simp at h
  | cons x m ih =>
    obtain ⟨j, u⟩ := x
    by_cases hj : j = k
    · subst hj
      simp [Tab.find?] at h
      simp [h]
    · simp only [Tab.find?, hj, if_false] at h
      exact List.mem_cons_of_mem _ (ih h)

theorem mod_mod {α : Type} (k : Nat) (f g : α → α) (m : Tab α) : Tab.mod k f (Tab.mod k g m) = Tab.mod k (f ∘ g) m := by
  induction m with
  | nil => rfl
  | cons x m ih =>
    by_cases h : x.1 = k <;> simp [Tab.mod, h, ih]

theorem mod_id {α : Type} (k : Nat) {f : α → α} (hf : ∀ x, f x = x) (m : Tab α) : Tab.mod k f m = m := by
  induction m with
  | nil => rfl
  | cons x m ih => simp [Tab.mod, hf, ih]

/-! ### Places in queues and reservations -/

/-- Thread k neither waits on the form's words nor holds one. -/
def FreeOf (k : Nat) (f : Form) : Prop := (∀ x ∈ f.waiters, x.thread ≠ k) ∧ ∀ x ∈ f.resv, x.2 ≠ k

/-- A word is given to one that waits for it. -/
theorem FreeOf.serve {k : Nat} {f : Form} (h : FreeOf k f) (w : Nat) : FreeOf k (f.serve w) := by
  unfold Form.serve
  dsimp only
  split
  · exact h
  split
  · exact h
  split
  next x hx =>
    refine ⟨h.1, fun y hy => ?_⟩
    obtain hy | hy := List.mem_append.1 hy
    · exact h.2 y hy
    · rw [List.mem_singleton.1 hy]
      exact h.1 x (List.mem_of_find?_eq_some hx)
  · exact h

theorem freeOf_release (f : Form) (k : Nat) : FreeOf k (f.release k) :=
  List.foldlRecOn (motive := FreeOf k) _ _ ⟨by simp, by simp⟩ fun _ h w _ => h.serve w

/-! ### Signatures and operations -/

/-- No signature of thread j waits in a context. -/
def Unsigned (j : Nat) (c : MCtx) : Prop := ∀ x ∈ c.rolls, ∀ g ∈ x.2.sigs, g.thread ≠ j

theorem unsigned_unsign (c : MCtx) (j : Nat) : Unsigned j (c.unsign j) := by
  intro x hx g hg
  simp only [MCtx.unsign, List.mem_map] at hx
  obtain ⟨y, -, rfl⟩ := hx
  simpa using (List.mem_filter.1 hg).2

theorem Unsigned.unsign {j : Nat} {c : MCtx} (h : Unsigned j c) (k : Nat) : Unsigned j (c.unsign k) := by
  intro x hx g hg
  simp only [MCtx.unsign, List.mem_map] at hx
  obtain ⟨y, hy, rfl⟩ := hx
  exact h y hy g (List.mem_of_mem_filter hg)

theorem Unsigned.withdraw {j : Nat} {c : MCtx} (h : Unsigned j c) (k : Nat) (ids : List Nat) : Unsigned j (c.withdraw k ids) := h

/-- The signatures of some threads dropped from a context. -/
def unsignAll (hit : List (Nat × Thread)) (c : MCtx) : MCtx := hit.foldl (fun c p => c.unsign p.1) c

theorem Unsigned.unsignAll {j : Nat} {c : MCtx} (h : Unsigned j c) (hit : List (Nat × Thread)) : Unsigned j (unsignAll hit c) :=
  List.foldlRecOn (motive := Unsigned j) _ _ h fun _ hc p _ => hc.unsign p.1

theorem unsigned_unsignAll {hit : List (Nat × Thread)} {p : Nat × Thread} (hp : p ∈ hit) (c : MCtx) :
    Unsigned p.1 (unsignAll hit c) := by
  induction hit generalizing c with
  | nil => simp at hp
  | cons q hit ih =>
    obtain rfl | hp := List.mem_cons.1 hp
    · exact (unsigned_unsign c p.1).unsignAll hit
    · exact ih hp (c.unsign q.1)

theorem unsignAll_ops (hit : List (Nat × Thread)) (c : MCtx) : (unsignAll hit c).ops = c.ops :=
  List.foldlRecOn (motive := fun d : MCtx => d.ops = c.ops) _ _ rfl fun _ h _ _ => h

/-- What is left of the operations that a withdrawn thread had signed. -/
theorem withdraw_ops {c : MCtx} {k : Nat} {ids : List Nat} {o : MOp} (ho : o ∈ (c.withdraw k ids).ops) (hid : o.id ∈ ids) :
    o.rows ≠ [] ∧ ∀ x ∈ o.rows, x.2.thread ≠ k := by
  simp only [MCtx.withdraw, List.mem_filter, List.mem_map] at ho
  obtain ⟨⟨x, -, rfl⟩, hleft⟩ := ho
  have hx : ids.contains x.id = true := by
    split at hid
    · assumption
    · simpa using hid
  rw [if_pos hx] at hleft hid ⊢
  refine ⟨by simpa [hid] using hleft, fun y hy => ?_⟩
  simpa using (List.mem_filter.1 hy).2

theorem bne_iff_decide (a b : Nat) : (a != b) = decide (a ≠ b) := by
  rw [Bool.eq_iff_iff, bne_iff_ne, decide_eq_true_iff]

/-- An operation without a signer loses the signer's rows, and the words that stand beside them. -/
theorem without_words {o : MOp} (k : Nat) (h : o.words.length = o.rows.length) :
    (o.without k).words = ((o.words.zip o.rows).filter (fun p => p.2.2.thread ≠ k)).map (·.1) := by
  simp only [MOp.without, if_pos h]
  congr 2
  funext p
  exact bne_iff_decide _ _

theorem without_rows (o : MOp) (k : Nat) : (o.without k).rows = o.rows.filter (fun p => p.2.thread ≠ k) := by
  simp only [MOp.without]
  congr 1
  funext p
  exact bne_iff_decide _ _

theorem keepsMap_iff (c : Clause) (ids : List Nat) : c.keepsMap ids = true ↔ ∃ x ∈ c.signed, x.2 ∈ ids ∧
    ∃ m n roll a b sS sL off, c.words.lookup x.1 = some (.sgbkt m (.t n) roll a b sS sL off) := by
  simp only [Clause.keepsMap, List.any_eq_true, Bool.and_eq_true, List.contains_iff_mem]
  refine exists_congr fun x => and_congr_right fun _ => and_congr_right fun _ => ?_
  split
  next m n roll a b sS sL off h => simp [h]
  next h => exact ⟨nofun, fun ⟨m, n, roll, a, b, sS, sL, off, hw⟩ => absurd hw (h m n roll a b sS sL off)⟩

theorem isMatrix_iff (l : Sys2Proof.Machine.Lat) : l.isMatrix = true ↔ l.kind = .restored ∨ ∃ id, l.kind = .matrix id := by
  unfold Lat.isMatrix
  cases l.kind <;> simp

/-! ### Meetings -/

theorem withdraw_meets {b : Bench} {blane : Nat} {a : Arrival} (ha : a ∈ (b.withdraw blane).meets) (hb : a.blane = blane) :
    a.done = true ∧ a.taken = true := by
  simp only [Bench.withdraw, List.mem_map, List.mem_filter] at ha
  obtain ⟨x, ⟨-, hx⟩, rfl⟩ := ha
  by_cases h : x.blane = blane
  · simp only [Arrival.passed, if_pos h]
    simpa [h] using hx
  · rw [Arrival.passed, if_neg h] at hb
    exact absurd hb h

/-! ### The other signers of a discarded clause's operations -/

/-- The threads that hold a map word of some operations, thread k excepted. -/
def reworked (s : State) (k f : Nat) (ids : List Nat) : List (Nat × Thread) :=
  (s.threadsOf f).filter (fun p => p.1 != k && p.2.keepsMap ids)

theorem mem_reworked {s : State} {k f : Nat} {ids : List Nat} {p : Nat × Thread} :
    p ∈ reworked s k f ids ↔ p ∈ s.threads ∧ p.2.form = f ∧ p.1 ≠ k ∧ p.2.keepsMap ids = true := by
  simp [reworked, State.threadsOf]
  tauto

/-- A thread after those clauses are executed again. -/
def reworkThread (k f : Nat) (ids : List Nat) (p : Nat × Thread) : Thread :=
  if p.1 ≠ k ∧ p.2.form = f then p.2.rework ids else p.2

theorem rework_of_not_keepsMap {th : Thread} {ids : List Nat} (h : th.keepsMap ids = false) : th.rework ids = th := by
  have hmap : th.clauses.map (fun c => if c.keepsMap ids then c.restart else c) = th.clauses := by
    refine (List.map_congr_left fun c hc => if_neg ?_).trans (List.map_id' _)
    exact List.any_eq_false.1 h c hc
  rw [Thread.rework, hmap]

/-- Executing clauses again, in one equation, whether there are any or not. -/
theorem rework_eq (s : State) (k f : Nat) (ids : List Nat) : s.rework k f ids =
    ({ s with threads := s.threads.map (fun p => (p.1, reworkThread k f ids p)) } : State).modForm f (fun x =>
      { x with ctxs := x.ctxs.map (unsignAll (reworked s k f ids)) }) := by
  by_cases hit : reworked s k f ids = []
  · have hsame : ∀ p ∈ s.threads, reworkThread k f ids p = p.2 := fun p hp => by
      unfold reworkThread
      split
      next h =>
        refine rework_of_not_keepsMap (Bool.eq_false_iff.2 fun hkeep => ?_)
        exact List.not_mem_nil (hit ▸ mem_reworked.2 ⟨hp, h.2, h.1, hkeep⟩)
      next => rfl
    have hthreads : s.threads.map (fun p => (p.1, reworkThread k f ids p)) = s.threads :=
      (List.map_congr_left fun p hp => by rw [hsame p hp]).trans (List.map_id' _)
    have hform : ∀ x : Form, { x with ctxs := x.ctxs.map (unsignAll (reworked s k f ids)) } = x := fun x => by
      rw [hit, show unsignAll [] = id from rfl, List.map_id]
    rw [hthreads, State.modForm, mod_id f hform]
    exact if_pos (List.isEmpty_iff.2 hit)
  · exact if_neg (by rwa [List.isEmpty_iff])

/-! ### Letting go -/

/-- Whether a clause of some has a word that meets other threads. -/
def anyMeets (cs : List Clause) : Bool := cs.any (fun c => c.words.any (fun w => meets w.2))

theorem anyMeets_iff (cs : List Clause) : anyMeets cs = true ↔ ∃ c ∈ cs, ∃ w ∈ c.words, meets w.2 = true := by
  simp [anyMeets]

theorem anyFenced_iff (cs : List Clause) : cs.any (·.fenced) = true ↔ ∃ c ∈ cs, c.fenced = true := List.any_eq_true

/-- The form of a thread that lets go of what its fenced clauses hold. -/
def unfenced (s : State) (k : Nat) (th : Thread) (cs : List Clause) (f : Form) : Form :=
  let f1 := f.release k
  { f1 with ctxs := f1.ctxs.map (fun c =>
      unsignAll (reworked s k th.form (opsOf cs)) ((c.unsign k).withdraw k (opsOf cs))) }

/-- The form of a thread that lets go of what some clauses hold. -/
def letGoForm (s : State) (k : Nat) (th : Thread) (cs : List Clause) (f : Form) : Form :=
  let f1 := if cs.any (·.fenced) then unfenced s k th cs f else f
  if anyMeets cs then f1.modBench th.bench (·.withdraw th.blane) else f1

/-- A machine whose thread has let go of what its fenced clauses hold. -/
theorem rework_release (s : State) (k : Nat) (th : Thread) (cs : List Clause) :
    (({ s with chanWait := s.chanWait.filter (·.thread != k) } : State).modForm th.form (fun f =>
      let f := f.release k
      { f with ctxs := f.ctxs.map (fun (c : MCtx) => (c.unsign k).withdraw k (opsOf cs)) })).rework k th.form (opsOf cs) =
    ({ s with chanWait := s.chanWait.filter (·.thread != k),
              threads := s.threads.map (fun p => (p.1, reworkThread k th.form (opsOf cs) p)) } : State).modForm th.form
      (unfenced s k th cs) := by
  have hform : ∀ x : Form, unfenced s k th cs x = { x.release k with
      ctxs := ((x.release k).ctxs.map (fun (c : MCtx) => (c.unsign k).withdraw k (opsOf cs))).map
        (unsignAll (reworked s k th.form (opsOf cs))) } := by
    intro x
    rw [List.map_map]
    rfl
  rw [rework_eq]
  simp only [State.modForm, mod_mod]
  congr 2
  funext x
  rw [hform]
  rfl

/-- Letting go changes the queues of channels, the threads that execute again and the thread's form alone. -/
theorem letGo_eq (s : State) (k : Nat) (th : Thread) (cs : List Clause) : s.letGo k th cs =
    ({ s with
        chanWait := if cs.any (·.fenced) then s.chanWait.filter (·.thread != k) else s.chanWait,
        threads := if cs.any (·.fenced) then s.threads.map (fun p => (p.1, reworkThread k th.form (opsOf cs) p))
          else s.threads } : State).modForm th.form (letGoForm s k th cs) := by
  unfold State.letGo
  dsimp only
  rw [rework_release]
  change (if anyMeets cs then _ else _) = _
  cases hf : cs.any (·.fenced) <;> cases hm : anyMeets cs <;> simp only [Bool.false_eq_true, if_false, if_true]
  case false.false => rw [State.modForm, mod_id th.form fun x => by simp [letGoForm, hf, hm]]
  case false.true => exact congrArg (State.modForm s th.form) (funext fun f => by simp [letGoForm, hf, hm])
  case true.false => exact congrArg (State.modForm _ th.form) (funext fun f => by simp [letGoForm, hf, hm])
  case true.true =>
    rw [State.modForm, State.modForm, State.modForm, mod_mod]
    congr 2
    funext f
    simp [letGoForm, hf, hm]

/-! ### What is left in the form -/

section Form
variable {s : State} {k : Nat} {th : Thread} {cs : List Clause} (fm : Form)

theorem unfenced_hall : (unfenced s k th cs fm).hall = fm.hall ∧ (unfenced s k th cs fm).tags = fm.tags := by
  obtain ⟨rs, ws, h⟩ := release_kept fm k
  simp [unfenced, h]

theorem letGoForm_hall : (letGoForm s k th cs fm).hall = fm.hall ∧ (letGoForm s k th cs fm).tags = fm.tags := by
  have hfirst : ∀ b : Bool, (if b then unfenced s k th cs fm else fm).hall = fm.hall ∧
      (if b then unfenced s k th cs fm else fm).tags = fm.tags
    | true => unfenced_hall fm
    | false => ⟨rfl, rfl⟩
  unfold letGoForm
  cases anyMeets cs <;> exact hfirst _

/-- The contexts, waiters and reservations of the form are those that a fenced clause leaves. -/
theorem letGoForm_fenced (hf : cs.any (·.fenced) = true) :
    (letGoForm s k th cs fm).ctxs = (unfenced s k th cs fm).ctxs ∧
    (letGoForm s k th cs fm).waiters = (fm.release k).waiters ∧ (letGoForm s k th cs fm).resv = (fm.release k).resv := by
  unfold letGoForm
  rw [if_pos hf]
  cases anyMeets cs <;> exact ⟨rfl, rfl, rfl⟩

/-- A context of a form that lets go of a fenced clause. -/
theorem mem_letGoForm_ctxs (hf : cs.any (·.fenced) = true) {c : MCtx} (hc : c ∈ (letGoForm s k th cs fm).ctxs) :
    ∃ x : MCtx, c = unsignAll (reworked s k th.form (opsOf cs)) ((x.unsign k).withdraw k (opsOf cs)) := by
  rw [(letGoForm_fenced fm hf).1] at hc
  obtain ⟨x, -, hx⟩ := List.mem_map.1 hc
  exact ⟨x, hx.symm⟩

theorem letGoForm_meets (hm : anyMeets cs = true) {b : Bench} (hb : (letGoForm s k th cs fm).benches[th.bench]? = some b) :
    ∃ x, b = Bench.withdraw x th.blane := by
  unfold letGoForm at hb
  rw [if_pos hm] at hb
  simp only [Form.modBench, List.getElem?_modify_eq, Option.map_eq_map, Option.map_eq_some_iff] at hb
  obtain ⟨x, -, hx⟩ := hb
  exact ⟨x, hx.symm⟩

end Form

/-! ### The fault (R53) -/

/-- A machine with a trap pending that its thread cannot enter yet, or has just got. -/
def faulted (s : State) (k i : Nat) (p : Pending) (th : Thread) : State :=
  (s.letGo k th (th.clauses.drop i)).modThread k (fun th =>
    { th with clauses := th.clauses.take i, pending := some p, wait := .none })

theorem drained_iff (th : Thread) (p : Pending) : th.drained p = true ↔
    th.clauses = [] ∧ ∀ l ∈ th.lats, (p.cause = 0x10 ∨ p.cause = 0x13) ∧ l.isMatrix = true := by
  unfold Thread.drained
  split
  next h => simp [h]
  next h => simp [h, List.eq_nil_iff_forall_not_mem]

section Fault
variable {s : State} {k i : Nat} {p : Pending} {th : Thread}

/-- What the other threads are after a fault: those that hold a map word of an operation which the thread's fenced clauses
signed execute its clauses again. -/
theorem find?_letGo_threads (s : State) (k : Nat) (th : Thread) (cs : List Clause) (j : Nat) :
    Tab.find? j (s.letGo k th cs).threads = (Tab.find? j s.threads).map (fun u =>
      if cs.any (·.fenced) = true then reworkThread k th.form (opsOf cs) (j, u) else u) := by
  rw [letGo_eq]
  simp only [State.modForm_threads]
  split
  · exact find?_map j (reworkThread k th.form (opsOf cs)) s.threads
  · simp

theorem find?_faulted (ht : Tab.find? k s.threads = some th) : Tab.find? k (faulted s k i p th).threads =
    some { th with clauses := th.clauses.take i, pending := some p, wait := .none } := by
  simp [faulted, find?_letGo_threads, ht, reworkThread]

theorem find?_faulted_ne {j : Nat} (hj : j ≠ k) : Tab.find? j (faulted s k i p th).threads =
    (Tab.find? j s.threads).map (fun u =>
      if (∃ c ∈ th.clauses.drop i, c.fenced = true) ∧ u.form = th.form then
        { u with clauses := u.clauses.map (fun c => if c.keepsMap (opsOf (th.clauses.drop i)) then c.restart else c) }
      else u) := by
  rw [faulted, State.modThread_threads, Tab.find?_mod_ne _ _ hj.symm, find?_letGo_threads]
  congr 1
  funext u
  simp only [anyFenced_iff]
  by_cases hf : ∃ c ∈ th.clauses.drop i, c.fenced = true <;> simp [hf, reworkThread, hj, Thread.rework]

theorem find?_faulted_forms {fm : Form} (hf : Tab.find? th.form s.forms = some fm) :
    Tab.find? th.form (faulted s k i p th).forms = some (letGoForm s k th (th.clauses.drop i) fm) := by
  simp [faulted, letGo_eq, hf]

theorem raise_eq (ht : Tab.find? k s.threads = some th) : s.raise k i p =
    if th.clauses.take i = [] ∧ (∀ l ∈ th.lats, (p.cause = 0x10 ∨ p.cause = 0x13) ∧ l.isMatrix = true)
    then (faulted s k i p th).enterTrap k p else faulted s k i p th := by
  have hraise : s.raise k i p = (faulted s k i p th).settle k := by simp [State.raise, ht, faulted]
  have hdrained := drained_iff { th with clauses := th.clauses.take i, pending := some p, wait := .none } p
  rw [hraise, State.settle, find?_faulted ht]
  simp only [hdrained]

/-- A fault of clauses that are not fenced and meet nobody changes nothing but its thread. -/
theorem faulted_plain (h : ∀ c ∈ th.clauses.drop i, c.fenced = false ∧ ∀ w ∈ c.words, meets w.2 = false) :
    { faulted s k i p th with threads := s.threads } = s := by
  have hf : (th.clauses.drop i).any (·.fenced) = false := by
    rw [List.any_eq_false]
    exact fun c hc => by simp [(h c hc).1]
  have hm : anyMeets (th.clauses.drop i) = false := by
    rw [← Bool.not_eq_true, anyMeets_iff]
    rintro ⟨c, hc, w, hw, hmeet⟩
    simp [(h c hc).2 w hw] at hmeet
  have hform : ∀ x, letGoForm s k th (th.clauses.drop i) x = x := fun x => by simp [letGoForm, hf, hm]
  simp [faulted, letGo_eq, hf, State.modForm, mod_id th.form hform, State.modThread]

end Fault

/-- Settles O13. A fault is its letting go and the thread cut short, then the trap if it may be entered; what a fenced clause
leaves in the form's queues, contexts and benches is what `release`, `unsign`, `withdraw` leave there. -/
theorem faultDiscardsTheClause : Obligations.FaultDiscardsTheClause := by
  unfold Obligations.FaultDiscardsTheClause
  refine ⟨fun s k i p th fm ht hf => ?_, fun c ids => ⟨keepsMap_iff c ids, rfl⟩,
    fun o k h => ⟨without_rows o k, without_words k h⟩, isMatrix_iff⟩
  refine ⟨faulted s k i p th, letGoForm s k th (th.clauses.drop i) fm, raise_eq ht, find?_faulted ht,
    fun j hj => find?_faulted_ne hj, ?signers, ?mem, find?_faulted_forms hf, (letGoForm_hall fm).1, (letGoForm_hall fm).2,
    faulted_plain, ?fenced, ?meetings⟩
  case signers =>
    rintro hfenced j u hj hu hform ⟨b, hb, hkeep⟩ c hc
    obtain ⟨x, rfl⟩ := mem_letGoForm_ctxs fm ((anyFenced_iff _).2 hfenced) hc
    refine unsigned_unsignAll (p := (j, u)) (mem_reworked.2 ⟨mem_of_find? hu, hform, hj, ?_⟩) _
    exact List.any_eq_true.2 ⟨b, hb, hkeep⟩
  case mem => simp [faulted, letGo_eq]
  case fenced =>
    intro hfenced
    have hany := (anyFenced_iff _).2 hfenced
    obtain ⟨-, hwaiters, hresv⟩ := letGoForm_fenced (s := s) (k := k) (th := th) fm hany
    obtain ⟨hfreeWaiters, hfreeResv⟩ := freeOf_release fm k
    refine ⟨?_, by rwa [hwaiters], by rwa [hresv], fun c hc => ?_, fun c hc o ho hid => ?_⟩
    · simp only [faulted, letGo_eq, State.modThread_chanWait, State.modForm_chanWait, hany, if_true]
      exact fun x hx => by simpa using (List.mem_filter.1 hx).2
    · obtain ⟨x, rfl⟩ := mem_letGoForm_ctxs fm hany hc
      exact ((unsigned_unsign x k).withdraw k _).unsignAll _
    · obtain ⟨x, rfl⟩ := mem_letGoForm_ctxs fm hany hc
      rw [unsignAll_ops] at ho
      exact withdraw_ops ho hid
  case meetings =>
    intro hmeets b hb a ha hblane
    obtain ⟨x, rfl⟩ := letGoForm_meets fm ((anyMeets_iff _).2 hmeets) hb
    exact withdraw_meets ha hblane

end Sys2Proof.PlacesAndClauses

namespace Sys2Proof.PlacesAndClauses
open Sys2Proof Sys2Proof.Machine Sys2Proof.WorkAndItsShape

/-! ## The acts of a commit: CONTROL (R39 to R41, R123, R138, R176, R179, R328, R392) -/

/-- One register cleared, and back at the lane. -/
def clearReg (a : Nat) (t : Thread) (i : Nat) : Thread :=
  { t with g := SMap.set 0 (a + i) 0 t.g, place := SMap.set .lane (a + i) .lane t.place }

theorem grow_eq (th : Thread) (n : Nat) : th.grow n = (List.range n).foldl (clearReg th.w) { th with w := th.w + n } := rfl

theorem shrink_eq (th : Thread) (n : Nat) :
    th.shrink n = (List.range n).foldl (clearReg (th.w - n)) { th with w := th.w - n } := rfl

theorem foldl_clearReg_w (a n : Nat) (t : Thread) : ((List.range n).foldl (clearReg a) t).w = t.w :=
  List.foldlRecOn (motive := fun u : Thread => u.w = t.w) _ _ rfl fun _ h _ _ => h

theorem w_grow (th : Thread) (n : Nat) : (th.grow n).w = th.w + n := by rw [grow_eq, foldl_clearReg_w]

theorem w_shrink (th : Thread) (n : Nat) : (th.shrink n).w = th.w - n := by rw [shrink_eq, foldl_clearReg_w]

/-- A table after one entry is set to its default. -/
theorem get_set_default {α : Type} [DecidableEq α] {d : α} {m : SMap α} (hwf : SMap.wf d m = true) (k j : Nat) :
    SMap.get d j (SMap.set d k d m) = if j = k then d else SMap.get d j m := by
  split
  next h => subst h; exact SMap.get_set_eq hwf
  next h => exact SMap.get_set_ne m (Ne.symm h)

/-- Registers a to a + n − 1 cleared: they read 0 and stand at the lane, and the others are as they were. -/
theorem foldl_clearReg_get (a n : Nat) {t : Thread} (hg : SMap.wf 0 t.g = true) (hp : SMap.wf .lane t.place = true) :
    SMap.wf 0 ((List.range n).foldl (clearReg a) t).g = true ∧
    SMap.wf .lane ((List.range n).foldl (clearReg a) t).place = true ∧ ∀ j,
      SMap.get 0 j ((List.range n).foldl (clearReg a) t).g = (if a ≤ j ∧ j < a + n then 0 else SMap.get 0 j t.g) ∧
      SMap.get .lane j ((List.range n).foldl (clearReg a) t).place =
        (if a ≤ j ∧ j < a + n then .lane else SMap.get .lane j t.place) := by
  induction n with
  | zero =>
    have hno : ∀ j, ¬ (a ≤ j ∧ j < a + 0) := fun j => by omega
    exact ⟨hg, hp, fun j => ⟨(if_neg (hno j)).symm, (if_neg (hno j)).symm⟩⟩
  | succ n ih =>
    obtain ⟨hg', hp', hget⟩ := ih
    rw [List.range_succ, List.foldl_append, List.foldl_cons, List.foldl_nil]
    refine ⟨SMap.wf_set hg', SMap.wf_set hp', fun j => ?_⟩
    obtain ⟨hgj, hpj⟩ := hget j
    simp only [clearReg, get_set_default hg', get_set_default hp', hgj, hpj]
    by_cases hj : j = a + n
    · subst hj
      simp
    · have hiff : (a ≤ j ∧ j < a + (n + 1)) ↔ (a ≤ j ∧ j < a + n) := by omega
      simp only [hj, if_false, hiff, and_self]

section Acts
variable {s : State} {k f : Nat} {gw : List (Nat × Word)} {th : Thread} {fm : Form}
  (ht : Tab.find? k s.threads = some th) (hf : Tab.find? f s.forms = some fm)
include ht hf

theorem doAct_yield_leaving (hp : fm.phase = .yielding) :
    s.doAct k f gw .yield = (s.modThread k (fun x => { x with status := .yielded }), gw) := by
  simp [State.doAct, ht, hf, hp]

theorem doAct_yield_staying (hp : fm.phase ≠ .yielding) :
    s.doAct k f gw .yield = (s.modThread k (fun x => { x with age := 0 }), gw) := by
  simp [State.doAct, ht, hf, hp]

end Acts

/-- Each act is one update of the thread or of the form; of a GROW and a SHRINK the registers that they clear are followed. -/
theorem controlActs_hold : controlActs := by
  intro s k f gw th fm ht hf
  refine ⟨fun n p => ?place, fun n => ⟨th.grow n, ?grow, rfl, w_grow th n, fun hg hp j => ?grown⟩,
    fun n => ⟨?shrink, w_shrink th n⟩, fun v => ?wrNs, fun v => ?wrPrio, fun v => ?clk, ?exit,
    doAct_yield_leaving ht hf, doAct_yield_staying ht hf, fun nxt => ⟨?rett, rfl⟩, fun b => ?bind, fun roll b m => ?rolldecl⟩
  case grown =>
    rw [grow_eq]
    exact (foldl_clearReg_get th.w n (t := { th with w := th.w + n }) hg hp).2.2 j
  all_goals simp only [State.doAct, ht, hf] <;> rfl

end Sys2Proof.PlacesAndClauses

namespace Sys2Proof.PlacesAndClauses
open Sys2Proof Sys2Proof.Machine Sys2Proof.WorkAndItsShape

/-! ## The acts of a commit: channels and nodes (R157, R159, R164, R166, R168, R306, R364, R377) -/

/-! ### Messages -/

section Messages
variable {s : State} {k f : Nat} {gw : List (Nat × Word)} {th : Thread} {fm : Form}
  (ht : Tab.find? k s.threads = some th) (hf : Tab.find? f s.forms = some fm)
include ht hf

/-- A message to a peer is dropped where the peer has retired, and is the last of its FIFO otherwise (R364). -/
theorem doAct_send_peer {cap : Nat} (msg : List Word) (hk : capKind (Rec.cap fm.rcd cap) = 3) :
    s.doAct k f gw (.send cap msg) =
      if s.peerRetired fm.node (capEnd (Rec.cap fm.rcd cap)) then (s, gw)
      else
        let key := fifoKey fm.node fm.lin (capEnd (Rec.cap fm.rcd cap))
        (({ s with fifos := Tab.put key (Tab.getD [] key s.fifos ++ [{ words := msg, sender := some (f, cap) }]) s.fifos }
          : State).modForm f (fun x => { x with sent := SMap.set 0 cap (SMap.get 0 cap x.sent + 1) x.sent }), gw) := by
  simp only [State.doAct, ht, hf, State.sendMsg, hk, if_true]
  split <;> rfl

theorem doAct_send_mailbox {cap : Nat} (msg : List Word) (hk : capKind (Rec.cap fm.rcd cap) = 4) :
    s.doAct k f gw (.send cap msg) =
      let key := mailKey fm.fn (capEnd (Rec.cap fm.rcd cap))
      (({ s with mailOut := Tab.put key (Tab.getD [] key s.mailOut ++ [{ words := msg, sender := some (f, cap) }]) s.mailOut }
        : State).modForm f (fun x => { x with sent := SMap.set 0 cap (SMap.get 0 cap x.sent + 1) x.sent }), gw) := by
  have hne : ¬ capKind (Rec.cap fm.rcd cap) = 3 := by omega
  simp only [State.doAct, ht, hf, State.sendMsg, if_neg hne]
  rfl

theorem doAct_recv_peer {key g cap : Nat} {ws : List Word} {r : List Msg}
    (hq : Tab.getD [] key s.fifos = { words := ws, sender := some (g, cap) } :: r) :
    s.doAct k f gw (.recv true key) = (({ s with fifos := Tab.put key r s.fifos } : State).modForm g (fun x =>
      { x with sent := SMap.set 0 cap (SMap.get 0 cap x.sent - 1) x.sent }), gw) := by
  simp only [State.doAct, ht, hf, State.recvMsg, hq, if_true]
  rfl

theorem doAct_recv_mailbox (key : Nat) : s.doAct k f gw (.recv false key) =
    ({ s with mailIn := Tab.put key (Tab.getD [] key s.mailIn).tail s.mailIn }, gw) := by
  simp only [State.doAct, ht, hf]
  rfl

end Messages

/-! ### Counters -/

/-- What is sent to other devices changes the ports alone. -/
theorem foldl_emit_eq (ds : List Nat) (cls tag : Nat) (payload : List Word) (s : State) :
    ∃ ps, ds.foldl (fun s d => s.emit d cls tag payload) s = { s with ports := ps } := by
  refine List.foldlRecOn (motive := fun t : State => ∃ ps, t = { s with ports := ps }) _ _ ⟨s.ports, rfl⟩ ?_
  rintro t ⟨ps, rfl⟩ d _
  unfold State.emit
  dsimp only
  split <;> exact ⟨_, rfl⟩

/-- A counter after one more arrival: the next phase begins, or one more has arrived (R168). -/
theorem arriveAt_spec {s : State} {id : Nat} {c : Counter} (hc : Tab.find? id s.counters = some c) : ∃ c',
    Tab.find? id (s.arriveAt id).counters = some c' ∧ c'.target = c.target ∧
    c'.phase = (if c.arrived + 1 = c.target then c.phase + 1 else c.phase) ∧
    c'.arrived = (if c.arrived + 1 = c.target then 0 else c.arrived + 1) ∧
    (s.arriveAt id).threads = s.threads ∧ (s.arriveAt id).forms = s.forms := by
  simp only [State.arriveAt, hc]
  split
  · exact ⟨_, Tab.find?_put_same _ _ _, rfl, rfl, rfl, rfl, rfl⟩
  · exact ⟨_, Tab.find?_put_same _ _ _, rfl, rfl, rfl, rfl, rfl⟩

theorem arriveHere_eq {s : State} {id : Nat} {c : Counter} (hc : Tab.find? id s.counters = some c) :
    ∃ ps, s.arriveHere id = { s.arriveAt id with ports := ps } := by
  simp only [State.arriveHere, hc]
  exact foldl_emit_eq _ _ _ _ _

/-- The status that is known only at commit takes the place of the one that stood there. -/
theorem patchG_middle (a b : List (Nat × Word)) (n : Nat) (old v : Word) :
    patchG (a ++ (n, old) :: b) b.length (some n) v = a ++ (n, v) :: b := by
  have hslot : (a ++ (n, old) :: b).length - 1 - b.length = a.length := by simp
  simp [patchG]

/-! ### The insertion of a node -/

theorem writeImage_kept (s : State) (ctx va : Nat) (pte : BitVec 64) (img : List Word) :
    WorkKept s (s.writeImage ctx va pte img) := by
  unfold State.writeImage
  dsimp only
  split
  · exact puts_kept _ _
  · exact (markDirty_kept _ _ _).trans (puts_kept _ _)

theorem writeContext_kept {s t : State} {ctx : Nat} {img : List Word} (h : s.writeContext ctx img = some t) :
    WorkKept s t := by
  unfold State.writeContext State.writeWord at h
  split at h
  · split at h
    · cases h
    split at h
    · cases h
    split at h
    · cases h
    · dsimp only at h
      cases h
      split
      · exact puts_kept _ _
      · exact (markDirty_kept _ _ _).trans (puts_kept _ _)
  · cases h
    exact .refl s

theorem setNode_kept (s : State) (pa st err pred : Nat) : WorkKept s (s.setNode pa st err pred) := by
  unfold State.setNode
  dsimp only
  split
  · exact puts_kept _ _
  · exact .refl s

theorem keep_kept (s : State) (x : RecItem) : WorkKept s (s.keep x) := by
  unfold State.keep
  split
  · exact ⟨rfl, rfl, rfl, rfl⟩
  · exact .refl s

/-- A node that becomes ready keeps all but its place in the order of the ready ones. -/
theorem makeReady_spec (s : State) (pa : Nat) : (s.makeReady pa).threads = s.threads ∧
    (s.makeReady pa).nodes = Tab.mod pa (fun n => { n with seq := (s.setNode pa 1 0 0).readySeq, readyTick := s.clock }) s.nodes := by
  have h := setNode_kept s pa 1 0 0
  refine ⟨h.threads, ?_⟩
  show Tab.mod pa _ (s.setNode pa 1 0 0).nodes = _
  rw [h.nodes, h.clock]

/-- A node as it is inserted, before it becomes ready (R157, R159). -/
def insertedNode (s : State) (fn ctx : Nat) (part : List Nat) (va : Nat) (pte : BitVec 64) (img : List Word) (r : SMap Word)
    (cap : Nat) : Node :=
  { va := va, fn := fn, ctx := ctx, part := part, kind := imgKind img, body := (img.drop 2).take 6, seq := 0, readyTick := 0,
    prio := min (Rec.prio r) cap, succ := s.listed ctx img, rcd := SMap.set 0 1 (BitVec.ofNat 32 ctx) r,
    forms := if imgKind img = 0 then Rec.forms r else 0, fbase := s.serial, next := 0, retired := 0, aged := 0,
    pte := pteSetD pte }

section Insertion
variable {s : State} {fn ctx va cap : Nat} {part : List Nat} {pte : BitVec 64} {img : List Word} {r : SMap Word} {host : Bool}
  (h : ((s.writeImage ctx va pte img).writeContext ctx img).isSome = true)
include h

/-- The insertion of a node whose writes nothing holds, before the node becomes ready. -/
theorem insertNode_inserts : ∃ s3, s.insertNode fn ctx part va pte img r cap host =
      (if imgPred img = 0 then s3.makeReady (nodeKey pte va) else s3) ∧ s3.threads = s.threads ∧ s3.clock = s.clock ∧
    Tab.find? (nodeKey pte va) s3.nodes = some (insertedNode s fn ctx part va pte img r cap) := by
  obtain ⟨s2, h2⟩ := Option.isSome_iff_exists.1 h
  have hk := (writeImage_kept s ctx va pte img).trans (writeContext_kept h2)
  simp only [State.insertNode, h2]
  refine ⟨_, rfl, (keep_kept _ _).threads.trans hk.threads, (keep_kept _ _).clock.trans hk.clock, ?_⟩
  exact (congrArg _ (keep_kept _ _).nodes).trans (Tab.find?_put_same _ _ _)

/-- What the insertion of a node puts in the timetable (R157, R159, R164, R166). -/
theorem insertNode_spec : ∃ nd,
    Tab.find? (nodeKey pte va) (s.insertNode fn ctx part va pte img r cap host).nodes = some nd ∧
    (s.insertNode fn ctx part va pte img r cap host).threads = s.threads ∧
    nd.fn = fn ∧ nd.ctx = ctx ∧ nd.part = part ∧ nd.kind = imgKind img ∧ nd.body = (img.drop 2).take 6 ∧ nd.va = va ∧
    nd.pte = pteSetD pte ∧ nd.prio = min (Rec.prio r) cap ∧ nd.retired = 0 ∧ (imgPred img = 0 → nd.readyTick = s.clock) := by
  obtain ⟨s3, heq, hthreads, hclock, hnode⟩ := insertNode_inserts (fn := fn) (part := part) (r := r) (cap := cap) (host := host) h
  rw [heq]
  split
  next hpred =>
    obtain ⟨hthreads', hnodes⟩ := makeReady_spec s3 (nodeKey pte va)
    rw [hnodes, hthreads', Tab.find?_mod_same, hnode]
    exact ⟨_, rfl, hthreads, rfl, rfl, rfl, rfl, rfl, rfl, rfl, rfl, rfl, fun _ => hclock⟩
  next hpred =>
    exact ⟨_, hnode, hthreads, rfl, rfl, rfl, rfl, rfl, rfl, rfl, rfl, rfl, fun h0 => absurd h0 hpred⟩

end Insertion

/-- Reading the successors and the record changes the stacks' queues and tags alone (R205). -/
theorem askRecord_eq (s : State) (ctx : Nat) (img : List Word) : ∃ k, s.askRecord ctx img = { s with hbm := k } := by
  obtain ⟨k, hk⟩ := requests_eq s (s.succSpan ctx img)
  unfold State.askRecord
  dsimp only
  rw [hk]
  split
  · exact requests_eq { s with hbm := k } _
  · exact ⟨k, rfl⟩

section Launch
variable {s : State} {k f : Nat} {gw : List (Nat × Word)} {th : Thread} {fm : Form}
  (ht : Tab.find? k s.threads = some th) (hf : Tab.find? f s.forms = some fm)
include ht hf

theorem doAct_launch_refused {img : List Word} (va : Nat) (pte : BitVec 64) (slot : Nat) (d : Option Nat)
    (hl : s.launchable fm.ctx img = false) :
    s.doAct k f gw (.launch img va pte slot d) = (s.askRecord fm.ctx img, patchG gw slot d 0) := by
  simp only [State.doAct, ht, hf, State.launchNode, hl]
  rfl

theorem doAct_launch {img : List Word} (va : Nat) (pte : BitVec 64) (slot : Nat) (d : Option Nat)
    (hl : s.launchable fm.ctx img = true) : s.doAct k f gw (.launch img va pte slot d) =
      ((s.askRecord fm.ctx img).insertNode fm.fn fm.ctx fm.part va pte img (s.insertErr fm.ctx img).2 fm.prio false,
        patchG gw slot d 1) := by
  simp only [State.doAct, ht, hf, State.launchNode, hl]
  rfl

theorem doAct_arrive {id : Nat} {c : Counter} (slot : Nat) (d : Option Nat) (held : Bool)
    (hc : Tab.find? id s.counters = some c) :
    s.doAct k f gw (.arrive id slot d held) = (s.arriveHere id, patchG gw slot d c.phase) := by
  simp only [State.doAct, ht, hf, hc]

end Launch

/-- Each act by its equation; an arrival and an insertion by what they leave in the tables of counters and nodes. -/
theorem channelActs_hold : channelActs := by
  intro s k f gw th fm ht hf
  refine ⟨fun cap msg hk => ⟨fun hr => ?dropped, fun hr => ?sent⟩, fun cap msg hk => doAct_send_mailbox ht hf msg hk,
    fun key ws g cap r hq => doAct_recv_peer ht hf hq, doAct_recv_mailbox ht hf, ?arrive, patchG_middle,
    fun img va pte slot d hl => doAct_launch_refused ht hf va pte slot d hl, ?reads, ?launch⟩
  case dropped => rw [doAct_send_peer ht hf msg hk, hr, if_pos rfl]
  case sent =>
    rw [doAct_send_peer ht hf msg hk, hr]
    rfl
  case arrive =>
    intro id slot d held c hc
    obtain ⟨c', hc', hspec⟩ := arriveAt_spec hc
    obtain ⟨ps, hps⟩ := arriveHere_eq hc
    rw [doAct_arrive ht hf slot d held hc, hps]
    exact ⟨c', rfl, hc', hspec⟩
  case reads =>
    intro img
    obtain ⟨k, hk⟩ := askRecord_eq s fm.ctx img
    rw [hk]
  case launch =>
    intro img va pte slot d hl hw
    obtain ⟨nd, hnode, hthreads, hfields⟩ := insertNode_spec (fn := fm.fn) (part := fm.part) (r := (s.insertErr fm.ctx img).2)
      (cap := fm.prio) (host := false) hw
    obtain ⟨h, hh⟩ := askRecord_eq s fm.ctx img
    rw [doAct_launch ht hf va pte slot d hl]
    rw [hh] at hnode hthreads hfields ⊢
    exact ⟨nd, rfl, hnode, hthreads, hfields⟩

end Sys2Proof.PlacesAndClauses

namespace Sys2Proof.PlacesAndClauses
open Sys2Proof Sys2Proof.Machine Sys2Proof.WorkAndItsShape

/-! ## The acts of a commit: copies, gathers, scatters and collectives (R89, R114, R116, R118, R119) -/

/-! ### The end of a queue (R116) -/

theorem passes_iff (x y : CopyOp) : x.passes y = true ↔ x.tick = y.tick ∧ y.started = false ∧ x.pos < y.pos ∧
    (x.bundle = none ∨ x.bundle ≠ y.bundle) := by
  simp [CopyOp.passes, and_assoc]

/-- An operation enters a queue before the ones at its end that it passes, and behind the first from the end that it does
not. -/
theorem joinQueue_split (op : CopyOp) (q : List CopyOp) : ∃ a b, q = a ++ b ∧ joinQueue op q = a ++ op :: b ∧
    (∀ x ∈ b, op.passes x = true) ∧ ∀ x, a.getLast? = some x → op.passes x = false := by
  refine ⟨(q.reverse.dropWhile op.passes).reverse, (q.reverse.takeWhile op.passes).reverse, ?_, rfl, fun x hx => ?_,
    fun x hx => ?_⟩
  · rw [← List.reverse_append, List.takeWhile_append_dropWhile, List.reverse_reverse]
  · exact List.mem_takeWhile_imp (List.mem_reverse.1 hx)
  · rw [List.getLast?_reverse] at hx
    simpa [hx] using List.head?_dropWhile_not op.passes q.reverse

/-- One step at each of some queues, no two of them the same. -/
theorem getD_foldl_put {α : Type} (d : α) (g : α → α) (q : Nat) {qs : List Nat} (hqs : qs.Nodup) (m : Tab α) :
    Tab.getD d q (qs.foldl (fun t q => Tab.put q (g (Tab.getD d q t)) t) m) =
      if q ∈ qs then g (Tab.getD d q m) else Tab.getD d q m := by
  induction qs generalizing m with
  | nil => rfl
  | cons p qs ih =>
    obtain ⟨hp, hqs⟩ := List.nodup_cons.1 hqs
    rw [List.foldl_cons, ih hqs]
    by_cases hq : q = p
    · subst hq
      simp [hp]
    · simp [hq, Tab.getD_put_ne d _ m (Ne.symm hq)]

theorem cluster_modCluster (s : State) (c : Nat) (f : Cluster → Cluster) : (s.modCluster c f).cluster c = f (s.cluster c) :=
  Tab.getD_put_same _ _ _ _

theorem queue_enqueue (s : State) (k f : Nat) (fm : Form) {qs : List Nat} (hqs : qs.Nodup) (kind : CopyKind) (q : Nat) :
    ((s.enqueue k f fm qs kind).cluster fm.cluster).queue q =
      if q ∈ qs then joinQueue (s.newOp k f kind) ((s.cluster fm.cluster).queue q) else (s.cluster fm.cluster).queue q := by
  rw [State.enqueue, cluster_modCluster]
  exact getD_foldl_put [] (joinQueue (s.newOp k f kind)) q hqs _

theorem newOp_eq {s : State} {k : Nat} {th : Thread} (ht : Tab.find? k s.threads = some th) (f : Nat) (kind : CopyKind) :
    s.newOp k f kind =
      { id := s.serial, thread := k, form := f, started := false, kind := kind, moved := [], tick := s.clock, pos := th.pos,
        used := [], bundle := th.bundleOf kind } := by
  simp only [State.newOp, ht]

/-! ### Chunk bits (R114) -/

theorem write_owned (f : Form) (x : HallW) : (f.write x).owned = f.owned := by
  have hret : ∀ (ws : List Nat) (g : Form), (ws.foldl (fun f w => f.retag x.tag w) g).owned = g.owned := fun ws g =>
    List.foldlRecOn (motive := fun h : Form => h.owned = g.owned) _ _ rfl fun _ h w _ => (Form.retag_owned _ _ _).trans h
  unfold Form.write
  dsimp only
  split <;> exact hret _ _

theorem takeBits_owned (f : Form) (id bm : Nat) (bits : List Nat) :
    (f.takeBits id bm bits).owned = f.owned ++ bits.map (fun n => (id, bm, n)) := by
  have hbits : ∀ g : Form, (bits.foldl (fun f n => f.setBit bm n false) g).owned = g.owned := fun g =>
    List.foldlRecOn (motive := fun h : Form => h.owned = g.owned) _ _ rfl fun _ h n _ => (write_owned _ _).trans h
  unfold Form.takeBits
  dsimp only
  rw [hbits]
  split
  · rfl
  · rw [write_owned]

/-! ### What each act starts -/

section Acts
variable {s : State} {k f : Nat} {gw : List (Nat × Word)} {th : Thread} {fm : Form}
  (ht : Tab.find? k s.threads = some th) (hf : Tab.find? f s.forms = some fm)
include ht hf

theorem doAct_copy (qs : List Nat) (kind : CopyKind) : ∃ fs,
    s.doAct k f gw (.copy qs kind) = (({ s with forms := fs } : State).enqueue k f fm qs kind, gw) := by
  simp only [State.doAct, ht, hf, State.startCopy]
  split <;> exact ⟨_, rfl⟩

theorem doAct_copy_bulk (qs : List Nat) (p : Plan) (bm : Nat) (left : List Nat) (h : Option (List (List Byte))) :
    s.doAct k f gw (.copy qs (.bulk p bm left h)) =
      ((s.modForm f (·.takeBits s.serial bm left)).enqueue k f fm qs (.bulk p bm left h), gw) := by
  simp only [State.doAct, ht, hf, State.startCopy]
  rfl

theorem doAct_scatter_poisoned {o size : Nat} (q va : Nat) (h : ∃ w ∈ wordsOfSpan o size, fm.tag (4 * w) = .poisoned) :
    s.doAct k f gw (.scatter q o size va) = ((s.note (.cause0F f)).endLaunch fm.node 0x0B, gw) := by
  have hany : (wordsOfSpan o size).any (fun w => decide (fm.tag (4 * w) = .poisoned)) = true := by simpa using h
  simp only [State.doAct, ht, hf, State.startCopy, hany, if_true]

theorem doAct_scatter {o size : Nat} (q va : Nat) (h : ∀ w ∈ wordsOfSpan o size, fm.tag (4 * w) ≠ .poisoned) :
    s.doAct k f gw (.scatter q o size va) =
      (s.enqueue k f fm [q] (.scatter ((List.range size).map (fun i => fm.byte (o + i))) va), gw) := by
  have hany : (wordsOfSpan o size).any (fun w => decide (fm.tag (4 * w) = .poisoned)) = false := by simpa using h
  simp only [State.doAct, ht, hf, State.startCopy, hany, Bool.false_eq_true, if_false]

theorem doAct_coll (c : Coll) : ((s.doAct k f gw (.coll c)).1.cluster fm.cluster).colls =
    (s.cluster fm.cluster).colls ++ [{ c with before := (s.cluster fm.cluster).copiesOf k }] := by
  simp only [State.doAct, ht, hf, State.startCopy, cluster_modCluster]
  split <;> rfl

theorem doAct_actld {c : Clause} {r : List Clause} (hc : th.clauses = c :: r) (bank : Nat) (image : List Word) (op : Nat) :
    s.doAct k f gw (.actld bank image op) = (s.modCore th.core (·.load
      { op := op, bank := bank, image := image, form := f, seq := c.seq }), gw) := by
  simp only [State.doAct, ht, hf, hc, List.head?_cons]

theorem doAct_msave (addr op : Nat) : s.doAct k f gw (.msave addr op) =
    (s.startLate f (fm.fcOf th.core) { MOp.thread op (.msave .z) with late := some (addr, []) }, gw) := by
  simp only [State.doAct, ht, hf]

theorem doAct_mrestore {a : Word} {img : List Word} (hr : s.restoreCheck f th.core fm a = .ok img) (idx op : Nat) :
    s.doAct k f gw (.mrestore a idx op) =
      (s.startLate f (fm.fcOf th.core) { MOp.thread op (.mrestore .z) with late := some (0, img) }, gw) := by
  simp only [State.doAct, ht, hf, hr]

end Acts

/-! ### Loads of an activation table (R79, R300) -/

theorem mem_load (c : Core) (l x : BankLoad) : x ∈ (c.load l).loads ↔ x = l ∨ x ∈ c.loads := by
  simp only [Core.load, List.mem_append, List.mem_cons, List.mem_filter, decide_eq_true_eq]
  have := Nat.lt_or_ge l.seq x.seq
  tauto

theorem load_sorted (c : Core) (l : BankLoad) (h : c.loads.Pairwise (fun x y => x.seq ≤ y.seq)) :
    (c.load l).loads.Pairwise (fun x y => x.seq ≤ y.seq) := by
  refine List.pairwise_append.2 ⟨h.filter _, List.pairwise_cons.2 ⟨fun y hy => ?_, h.filter _⟩, fun x hx y hy => ?_⟩
  · simp only [List.mem_filter, decide_eq_true_eq] at hy
    omega
  · simp only [List.mem_filter, List.mem_cons, decide_eq_true_eq] at hx hy
    rcases hy with rfl | hy <;> omega

end Sys2Proof.PlacesAndClauses

namespace Sys2Proof.PlacesAndClauses
open Sys2Proof Sys2Proof.Machine Sys2Proof.WorkAndItsShape

/-! ## The acts of a commit: MSAVE and MRESTORE (R153 to R155) -/

/-! ### Runs of a table -/

theorem getList_length {α : Type} (d : α) (k n : Nat) (m : SMap α) : (SMap.getList d k n m).length = n := by
  induction n generalizing k with
  | zero => rfl
  | succ n ih => rw [SMap.getList, List.length_cons, ih]

theorem getElem?_getList {α : Type} (d : α) (m : SMap α) {n i : Nat} (k : Nat) (h : i < n) :
    (SMap.getList d k n m)[i]? = some (SMap.get d (k + i) m) := by
  induction n generalizing k i with
  | zero => omega
  | succ n ih =>
    rw [SMap.getList]
    cases i with
    | zero => rfl
    | succ i => rw [List.getElem?_cons_succ, ih (k + 1) (by omega), Nat.add_right_comm, Nat.add_assoc]

/-- A run of values written from key k on, read back. -/
theorem get_setList_in {α : Type} [DecidableEq α] {d : α} {m : SMap α} (hwf : SMap.wf d m = true) (vs : List α) {i : Nat}
    (k : Nat) (h : i < vs.length) : SMap.get d (k + i) (SMap.setList d k vs m) = vs[i] := by
  induction vs generalizing k m i with
  | nil => simp at h
  | cons v vs ih =>
    rw [SMap.setList]
    cases i with
    | zero =>
      rw [SMap.get_setList_out _ _ (by omega)]
      exact SMap.get_set_eq hwf
    | succ i =>
      rw [show k + (i + 1) = k + 1 + i by omega, ih (SMap.wf_set hwf) (k + 1) (by simpa using h)]
      rfl

/-- A table of a run of values alone reads as the run does. -/
theorem get_setList_nil (vs : List Word) (i : Nat) : SMap.get 0 i (SMap.setList 0 0 vs []) = vs.getD i 0 := by
  by_cases h : i < vs.length
  · have hin := get_setList_in (SMap.wf_nil (0 : Word)) vs 0 h
    rw [Nat.zero_add] at hin
    rw [hin, List.getD_eq_getElem _ _ h]
  · rw [SMap.get_setList_out _ _ (by omega), List.getD_eq_default _ _ (by omega)]
    rfl

theorem find?_map_range {α : Type} (g : Nat → α) {n r : Nat} (h : r < n) :
    Tab.find? r ((List.range n).map (fun r => (r, g r))) = some (g r) := by
  have hlist : ∀ l : List Nat, r ∈ l → Tab.find? r (l.map (fun r => (r, g r))) = some (g r) := by
    intro l hl
    induction l with
    | nil => simp at hl
    | cons x l ih =>
      by_cases hx : x = r
      · simp [Tab.find?, hx]
      · simpa [Tab.find?, hx] using ih ((List.mem_cons.1 hl).resolve_left (Ne.symm hx))
  exact hlist _ (List.mem_range.2 h)

/-! ### The image (R154) -/

/-- The words of an image that hold the rolls. -/
def rollWords (c : MCtx) : List Word :=
  (List.range 16).flatMap (fun r =>
    [BitVec.ofNat 32 (c.roll r).base, BitVec.ofNat 32 ((c.roll r).mask.toNat % 2 ^ 32),
      BitVec.ofNat 32 ((c.roll r).mask.toNat / 2 ^ 32), 0])

theorem rollWords_length (c : MCtx) : (rollWords c).length = 64 := rfl

theorem rollWords_base (c : MCtx) {r : Nat} (h : r < 16) : (rollWords c)[4 * r]? = some (BitVec.ofNat 32 (c.roll r).base) := by
  interval_cases r <;> rfl

/-- The words of an image, in the five parts that its readers tell apart. -/
theorem five_parts {w1 w2 w3 w4 w5 : Word} {f g : Nat → Word} {shape : List Word} (hs : shape.length = 9)
    (rolls acc : List Word) : ∃ hd mid tl : List Word, hd.length = 64 ∧ hd[0]? = some 0x00010007 ∧
    mid.length = 128 ∧ tl.length = 1792 ∧
    [0x00010007, w1, w2, w3, w4, w5] ++ List.replicate 58 0 ++ rolls ++ (List.range 64).map f ++ (List.range 64).map g ++ acc ++
      shape ++ List.replicate 1783 0 = hd ++ (rolls ++ (mid ++ (acc ++ tl))) := by
  refine ⟨[0x00010007, w1, w2, w3, w4, w5] ++ List.replicate 58 0, (List.range 64).map f ++ (List.range 64).map g,
    shape ++ List.replicate 1783 0, ?_, rfl, ?_, ?_, ?_⟩
  · rw [List.length_append, List.length_replicate]; rfl
  · rw [List.length_append, List.length_map, List.length_map, List.length_range]
  · rw [List.length_append, List.length_replicate, hs]
  · simp only [List.append_assoc]

/-- The parts of an image: its head, the rolls, the signers' words, the accumulators and the rest. -/
theorem image_parts (c : MCtx) (op : Option MOp) : ∃ hd mid tl : List Word, hd.length = 64 ∧ hd[0]? = some 0x00010007 ∧
    mid.length = 128 ∧ tl.length = 1792 ∧
    c.image op = hd ++ (rollWords c ++ (mid ++ (SMap.getList 0 0 16384 c.acc ++ tl))) := by
  refine five_parts ?_ (rollWords c) (SMap.getList 0 0 16384 c.acc)
  cases op with
  | none => rfl
  | some o =>
    dsimp only
    cases o.rows <;> rfl

theorem image_length (c : MCtx) (op : Option MOp) : (c.image op).length = 18432 := by
  obtain ⟨hd, mid, tl, hhd, -, hmid, htl, h⟩ := image_parts c op
  rw [h]
  simp only [List.length_append, hhd, rollWords_length, hmid, getList_length, htl]

theorem image_version (c : MCtx) (op : Option MOp) : (c.image op).getD 0 0 = 0x00010007 := by
  obtain ⟨hd, mid, tl, hhd, h0, hmid, htl, h⟩ := image_parts c op
  rw [h, List.getD_eq_getElem?_getD, List.getElem?_append_left (by omega), h0, Option.getD_some]

theorem image_roll (c : MCtx) (op : Option MOp) {r : Nat} (hr : r < 16) :
    (c.image op).getD (64 + 4 * r) 0 = BitVec.ofNat 32 (c.roll r).base := by
  obtain ⟨hd, mid, tl, hhd, h0, hmid, htl, h⟩ := image_parts c op
  have hlen := rollWords_length c
  rw [h, List.getD_eq_getElem?_getD, List.getElem?_append_right (by omega), hhd, Nat.add_sub_cancel_left,
    List.getElem?_append_left (by omega), rollWords_base c hr, Option.getD_some]

theorem image_acc (c : MCtx) (op : Option MOp) {i : Nat} (hi : i < 16384) :
    (c.image op).getD (256 + i) 0 = SMap.get 0 i c.acc := by
  obtain ⟨hd, mid, tl, hhd, h0, hmid, htl, h⟩ := image_parts c op
  have hlen := rollWords_length c
  have hacc := getList_length (0 : Word) 0 16384 c.acc
  rw [h, List.getD_eq_getElem?_getD, List.getElem?_append_right (by omega), List.getElem?_append_right (by omega),
    List.getElem?_append_right (by omega), List.getElem?_append_left (by omega),
    show 256 + i - hd.length - (rollWords c).length - mid.length = i by omega, getElem?_getList 0 c.acc 0 hi, Nat.zero_add,
    Option.getD_some]

/-! ### Freezing and loading (R153, R155) -/

/-- The machine with a late operation at the end of a context's operations. -/
def withLate (s : State) (f fc : Nat) (o : MOp) : State :=
  s.modForm f (fun x => x.modCtx fc (fun c => { c with ops := c.ops ++ [o] }))

/-- A context that has stood without operations after an MSAVE to an address (R153). -/
def savedCtx (c0 : MCtx) (addr : Nat) (o : MOp) : MCtx :=
  let c : MCtx := { c0 with rolls := c0.rolls.map (fun p => (p.1, { p.2 with key := none, sigs := [] })), frozen := some none }
  { c with ops := [{ o with
      writes := [{ addr := addr, bytes := (c.image none).flatMap (fun w => leBytes 4 w.toNat), tag := .full }], late := none }] }

/-- A context that has stood without operations after an MRESTORE of an image without a frozen operation (R155). -/
def restoredCtx (img : List Word) (o : MOp) : MCtx :=
  { acc := SMap.setList 0 0 ((img.drop 256).take 16384) [], rolls := imgRolls img, ops := [{ o with late := none }],
    frozen := none }

/-- An operation that stands alone in its context may be performed (R153, R348). -/
theorem lateReady_alone (c0 : MCtx) (o : MOp) :
    ({ c0 with ops := [o] } : MCtx).ahead o.id = [] ∧ ({ c0 with ops := [o] } : MCtx).lateReady o = true := by
  have hahead : ({ c0 with ops := [o] } : MCtx).ahead o.id = [] := by simp [MCtx.ahead]
  refine ⟨hahead, ?_⟩
  unfold MCtx.lateReady
  rw [hahead]
  split
  · exact Bool.or_true _
  · rfl

section Late
variable {s : State} {f fc : Nat} {fm : Form} {c0 : MCtx} (hf : Tab.find? f s.forms = some fm)
  (hc : fm.ctxs[fc]? = some c0) (hops : c0.ops = [])

include hc in
theorem lt_ctxs_withLate (o : MOp) : fc < (fm.modCtx fc (fun c => { c with ops := c.ops ++ [o] })).ctxs.length := by
  obtain ⟨h, -⟩ := List.getElem?_eq_some_iff.1 hc
  simpa [Form.modCtx] using h

include hf in
theorem find?_withLate (o : MOp) : Tab.find? f (withLate s f fc o).forms =
    some (fm.modCtx fc (fun c => { c with ops := c.ops ++ [o] })) := by
  simp [withLate, hf]

include hc hops in
theorem mctx_withLate (o : MOp) :
    (fm.modCtx fc (fun c => { c with ops := c.ops ++ [o] })).mctx fc = { c0 with ops := [o] } := by
  simp [Form.mctx, Form.modCtx, hc, hops]

/-- A context that is given, in a form that has it. -/
theorem find?_modCtx_const {t : State} {fm1 : Form} (h1 : Tab.find? f t.forms = some fm1) (hlen : fc < fm1.ctxs.length)
    (c1 : MCtx) : ∃ f', Tab.find? f (t.modForm f (fun x => x.modCtx fc (fun _ => c1))).forms = some f' ∧
      f'.ctxs[fc]? = some c1 := by
  refine ⟨fm1.modCtx fc (fun _ => c1), by simp [h1], ?_⟩
  simp [Form.modCtx, hlen]

include hf hc hops

theorem startLate_alone (o : MOp) : s.startLate f fc o = (withLate s f fc o).runLate f fc o := by
  obtain ⟨hahead, hready⟩ := lateReady_alone c0 o
  have hfree : (withLate s f fc o).lateFree f { c0 with ops := [o] } o = true := by
    simp [State.lateFree, hready, hahead, State.sealedOps]
  have hf1 := find?_withLate (fc := fc) hf o
  unfold withLate at hf1 hfree
  simp only [State.startLate, hf1, mctx_withLate hc hops o, hfree, if_true]
  rfl

theorem runLate_alone {o : MOp} {addr : Nat} {img : List Word} (hl : o.late = some (addr, img)) :
    (withLate s f fc o).runLate f fc o = match o.ins with
      | .msave _ => (withLate s f fc o).msave f fc addr o
      | _ => (withLate s f fc o).mrestore f fc img o := by
  have hready := (lateReady_alone c0 o).2
  simp only [State.runLate, hl, find?_withLate hf, mctx_withLate hc hops, hready, Bool.not_true, Bool.false_eq_true,
    if_false] <;> rfl

/-- MSAVE freezes its context and writes its image (R153). -/
theorem msave_alone {o : MOp} (hp : isProduct o.ins = false) (hfr : c0.frozen = none) (addr : Nat) :
    (withLate s f fc o).msave f fc addr o = ({ withLate s f fc o with draws := s.draws + 1 } : State).modForm f
      (fun x => x.modCtx fc (fun _ => savedCtx c0 addr o)) := by
  have hnone : [o].find? (fun o => isProduct o.ins) = none := by simp [hp]
  simp only [State.msave, find?_withLate hf, mctx_withLate hc hops, hfr, MCtx.freeze, hnone, List.map_cons, List.map_nil, if_true]
  rfl

/-- MRESTORE loads the accumulators and the rolls, and thaws (R155). -/
theorem mrestore_alone {img : List Word} (himg : imgAt img 4 % 2 = 0) (o : MOp) :
    (withLate s f fc o).mrestore f fc img o =
      (withLate s f fc o).fresh.modForm f (fun x => x.modCtx fc (fun _ => restoredCtx img o)) := by
  have hno : ¬ imgAt img 4 % 2 = 1 := by omega
  simp only [State.mrestore, find?_withLate hf, mctx_withLate hc hops, if_neg hno, List.map_cons, List.map_nil, if_true]
  rfl

end Late

theorem restoredCtx_acc (img : List Word) (o : MOp) {i : Nat} (h : i < 16384) :
    SMap.get 0 i (restoredCtx img o).acc = img.getD (256 + i) 0 := by
  show SMap.get 0 i (SMap.setList 0 0 ((img.drop 256).take 16384) []) = _
  rw [get_setList_nil, List.getD_eq_getElem?_getD, List.getElem?_take_of_lt h, List.getElem?_drop, List.getD_eq_getElem?_getD]

theorem restoredCtx_roll (img : List Word) (o : MOp) {r : Nat} (h : r < 16) :
    ((restoredCtx img o).roll r).base = imgAt img (0x100 + 16 * r) ∧ ((restoredCtx img o).roll r).sigs = [] := by
  have hroll : (restoredCtx img o).roll r = _ := congrArg (·.getD Roll.reset) (find?_map_range _ h)
  rw [hroll]
  exact ⟨rfl, rfl⟩

end Sys2Proof.PlacesAndClauses

namespace Sys2Proof.PlacesAndClauses
open Sys2Proof Sys2Proof.Machine Sys2Proof.WorkAndItsShape

/-! ### What the acts of the engines leave -/

section Engine
variable {s : State} {k f : Nat} {gw : List (Nat × Word)} {th : Thread} {fm : Form}
  (ht : Tab.find? k s.threads = some th) (hf : Tab.find? f s.forms = some fm)
include ht hf

theorem queue_doAct_copy {qs : List Nat} (hqs : qs.Nodup) (kind : CopyKind) (q : Nat) :
    ((s.doAct k f gw (.copy qs kind)).1.cluster fm.cluster).queue q =
      (if q ∈ qs then joinQueue (s.newOp k f kind) ((s.cluster fm.cluster).queue q) else (s.cluster fm.cluster).queue q) ∧
    (s.doAct k f gw (.copy qs kind)).2 = gw ∧ (s.doAct k f gw (.copy qs kind)).1.threads = s.threads := by
  obtain ⟨fs, h⟩ := doAct_copy (gw := gw) ht hf qs kind
  rw [h]
  exact ⟨queue_enqueue _ k f fm hqs kind q, rfl, rfl⟩

theorem owned_doAct_bulk (qs : List Nat) (p : Plan) (bm : Nat) (left : List Nat) (h : Option (List (List Byte))) :
    ∃ f', Tab.find? f (s.doAct k f gw (.copy qs (.bulk p bm left h))).1.forms = some f' ∧
      f'.owned = fm.owned ++ left.map (fun n => (s.serial, bm, n)) := by
  rw [doAct_copy_bulk ht hf]
  refine ⟨fm.takeBits s.serial bm left, ?_, takeBits_owned _ _ _ _⟩
  show Tab.find? f (s.modForm f (·.takeBits s.serial bm left)).forms = _
  simp [hf]

theorem queue_doAct_scatter {o size : Nat} (q va : Nat) (h : ∀ w ∈ wordsOfSpan o size, fm.tag (4 * w) ≠ .poisoned) :
    ((s.doAct k f gw (.scatter q o size va)).1.cluster fm.cluster).queue q =
      joinQueue (s.newOp k f (.scatter ((List.range size).map (fun i => fm.byte (o + i))) va))
        ((s.cluster fm.cluster).queue q) := by
  rw [doAct_scatter ht hf q va h, queue_enqueue _ k f fm (List.nodup_singleton q), if_pos (List.mem_singleton_self q)]

theorem ctx_doAct_msave (addr op : Nat) {c0 : MCtx} (hc : fm.ctxs[fm.fcOf th.core]? = some c0) (hops : c0.ops = [])
    (hfr : c0.frozen = none) : ∃ f', Tab.find? f (s.doAct k f gw (.msave addr op)).1.forms = some f' ∧
      f'.ctxs[fm.fcOf th.core]? = some (savedCtx c0 addr { MOp.thread op (.msave .z) with late := some (addr, []) }) := by
  rw [doAct_msave ht hf, startLate_alone hf hc hops, runLate_alone hf hc hops rfl]
  dsimp only [MOp.thread]
  rw [msave_alone hf hc hops rfl hfr]
  exact find?_modCtx_const (find?_withLate hf _) (lt_ctxs_withLate hc _) _

theorem ctx_doAct_mrestore {a : Word} {img : List Word} (hr : s.restoreCheck f th.core fm a = .ok img) (idx op : Nat)
    {c0 : MCtx} (hc : fm.ctxs[fm.fcOf th.core]? = some c0) (hops : c0.ops = []) (himg : imgAt img 4 % 2 = 0) :
    ∃ f', Tab.find? f (s.doAct k f gw (.mrestore a idx op)).1.forms = some f' ∧
      f'.ctxs[fm.fcOf th.core]? = some (restoredCtx img { MOp.thread op (.mrestore .z) with late := some (0, img) }) := by
  rw [doAct_mrestore ht hf hr, startLate_alone hf hc hops, runLate_alone hf hc hops rfl]
  dsimp only [MOp.thread]
  rw [mrestore_alone hf hc hops himg]
  exact find?_modCtx_const (find?_withLate hf _) (lt_ctxs_withLate hc _) _

end Engine

theorem savedCtx_rolls (c0 : MCtx) (addr : Nat) (o : MOp) : ∀ x ∈ (savedCtx c0 addr o).rolls, x.2.sigs = [] := by
  intro x hx
  obtain ⟨p, -, rfl⟩ := List.mem_map.1 hx
  rfl

theorem engineActs_hold : engineActs := by
  intro s k f gw th fm ht hf
  refine ⟨fun qs kind q hqs => queue_doAct_copy ht hf hqs kind q, owned_doAct_bulk ht hf,
    fun q o size va h => doAct_scatter_poisoned ht hf q va h, fun q o size va h => queue_doAct_scatter ht hf q va h,
    newOp_eq ht f, joinQueue_split, passes_iff, doAct_coll ht hf,
    fun bank image op c r hc => doAct_actld ht hf hc bank image op,
    fun c l => ⟨rfl, mem_load c l, load_sorted c l⟩, ?save, ?restore,
    fun c op => ⟨image_length c op, image_version c op, fun i hi => image_acc c op hi, fun r hr => image_roll c op hr⟩⟩
  case save =>
    intro addr op c0 hc hops hfr
    obtain ⟨f', hf', hc'⟩ := ctx_doAct_msave (gw := gw) ht hf addr op hc hops hfr
    exact ⟨f', _, hf', hc', rfl, rfl, savedCtx_rolls _ _ _, rfl⟩
  case restore =>
    intro a idx op c0 img hc hops hr himg
    obtain ⟨f', hf', hc'⟩ := ctx_doAct_mrestore (gw := gw) ht hf hr idx op hc hops himg
    exact ⟨f', _, hf', hc', rfl, fun i hi => restoredCtx_acc img _ hi, fun r hr => restoredCtx_roll img _ hr, rfl⟩

/-- Settles O11: the acts of CONTROL, of channels and nodes and of the engines, each by its own lemmas. -/
theorem controlActsAtCommit : Obligations.ControlActsAtCommit := by
  unfold Obligations.ControlActsAtCommit
  exact ⟨controlActs_hold, channelActs_hold, engineActs_hold⟩

end Sys2Proof.PlacesAndClauses

namespace Sys2Proof.Numbers
open Sys2Proof Sys2Proof.Machine

/-! ## The one rounding function (R59, R81) -/

/-- The exponent of the last place that a rounding to p fraction bits keeps. -/
def lastPlace (p num den : Nat) (e : Int) : Int := max (log2Rat num den + e - p) (-126 - p)

/-- A quotient rounded to a natural. -/
def roundNat (mode : Rnd) (neg : Bool) (q : Nat × Nat) : Nat :=
  if roundUp mode neg (q.1 / q.2) (q.1 % q.2) q.2 then q.1 / q.2 + 1 else q.1 / q.2

/-- The magnitude in units of the last place, rounded. -/
def keptBits (mode : Rnd) (p : Nat) (neg : Bool) (num den : Nat) (e : Int) : Nat :=
  roundNat mode neg (shiftRat num den (e - lastPlace p num den e))

/-- The code that a rounding comes to where the exponent is unbounded. -/
def unboundedCode (mode : Rnd) (p : Nat) (neg : Bool) (num den : Nat) (e : Int) : Nat :=
  (lastPlace p num den e + p + 126).toNat * 2 ^ p + keptBits mode p neg num den e

/-- The magnitude's code of an overflow: the infinity's, or the largest finite one. -/
def overflowCode (mode : Rnd) (p : Nat) (neg : Bool) : Nat :=
  match mode with
  | .rn => 255 * 2 ^ p
  | .rz => 255 * 2 ^ p - 1
  | .ru => if neg then 255 * 2 ^ p - 1 else 255 * 2 ^ p
  | .rd => if neg then 255 * 2 ^ p else 255 * 2 ^ p - 1

/-- A rounding that fits raises UF and NX at most. -/
theorem and_fOF_of_fits (exact tiny : Prop) [Decidable exact] [Decidable tiny] :
    fOF &&& (if exact then 0 else if tiny then fUF ||| fNX else fNX) = 0 := by
  split_ifs <;> rfl

section Codes
variable (mode : Rnd) (p : Nat) (neg : Bool) {num : Nat} (den : Nat) (e : Int)

@[simp] theorem roundCode_zero : roundCode mode p neg 0 den e = (0, 0) := by simp [roundCode]

theorem roundCode_fst (h : num ≠ 0) : (roundCode mode p neg num den e).1 =
    if 255 * 2 ^ p ≤ unboundedCode mode p neg num den e then overflowCode mode p neg
    else unboundedCode mode p neg num den e := by
  simp only [roundCode, if_neg h, apply_ite Prod.fst]
  rfl

/-- OF is the flag of the codes that an 8-bit exponent does not hold (R59). -/
theorem roundCode_overflows (h : num ≠ 0) :
    fOF &&& (roundCode mode p neg num den e).2 ≠ 0 ↔ 255 * 2 ^ p ≤ unboundedCode mode p neg num den e := by
  simp only [roundCode, if_neg h, apply_ite Prod.snd]
  change fOF &&& (if 255 * 2 ^ p ≤ unboundedCode mode p neg num den e then _ else _) ≠ 0 ↔ _
  split
  next hc => simp [hc, fOF, fNX]
  next hc =>
    simp only [hc, iff_false, ne_eq, not_not]
    exact and_fOF_of_fits _ _

theorem overflowCode_le : overflowCode mode p neg ≤ 255 * 2 ^ p := by
  cases mode <;> cases neg <;> simp [overflowCode]

/-- A rounded magnitude is at most the code of the infinity. -/
theorem roundCode_le : (roundCode mode p neg num den e).1 ≤ 255 * 2 ^ p := by
  rcases eq_or_ne num 0 with rfl | h
  · simp
  · rw [roundCode_fst mode p neg den e h]
    split
    · exact overflowCode_le mode p neg
    · omega

end Codes
end Sys2Proof.Numbers

namespace Sys2Proof.Numbers
open Sys2Proof Sys2Proof.Machine

/-! ## FADD, FSUB, FMUL and FFMA (R56, R58, R59, R329) -/

/-- The mould of R329 in one line: NaN operands, invalid operations, and one rounding. -/
theorem fpResult_eq (r : Rnd) (nan : Bool) (x : Val) :
    fpResult r nan x = if nan then (0x7FC00000, 0) else if x = .nan then (0x7FC00000, 1) else roundFP32 r x := by
  cases nan <;> cases x <;> simp [fpResult, qNaN, fNV]

/-- A trapping opcode traps on NV or on OF. -/
theorem traps_iff (f : BitVec 5) : traps f = true ↔ f.getLsbD 0 = true ∨ f.getLsbD 1 = true := by
  decide +revert

theorem traps_eq_false_iff (f : BitVec 5) : traps f = false ↔ f.getLsbD 0 = false ∧ f.getLsbD 1 = false := by
  rw [← Bool.not_eq_true, traps_iff]
  simp

section Words
variable {s : State} {e : Env} {d : Reg} {r : Word × BitVec 5}

theorem fpEnd_trap_quiet (h : traps r.2 = false) : e.fpEnd .t d r = e.result (·.put d r.1) := by
  simp [Env.fpEnd, h]

theorem fpEnd_trap_fault (h : traps r.2 = true) : e.fpEnd .t d r = .fault 0x01 0 0 := by
  simp [Env.fpEnd, h]

end Words

/-- An instruction that ends by `Env.fpEnd` with the result f of its rounding mode does under each FN what R58 says. -/
theorem fpEnd_gives {mk : FMode → Instr} {f : Rnd → Env → Word × BitVec 5} {d : Reg}
    (h : ∀ m s, exec (mk m) s = runWord s (fun e => e.fpEnd m d (f (fmodeRnd m) e))) :
    completes (mk .rn) (fun e c => c.put d (f .rn e).1) ∧ completes (mk .rz) (fun e c => c.put d (f .rz e).1) ∧
    completes (mk .ru) (fun e c => c.put d (f .ru e).1) ∧ completes (mk .rd) (fun e c => c.put d (f .rd e).1) ∧
    completes (mk .x) (fun e c => (c.put d (f .rn e).1).orNs (f .rn e).2) ∧
    (∀ s e, openWord s = some e → (f .rn e).2.getLsbD 0 = false → (f .rn e).2.getLsbD 1 = false →
      exec (mk .t) s = .next (e.after (fun c => c.put d (f .rn e).1))) ∧
    (∀ s e, openWord s = some e → ((f .rn e).2.getLsbD 0 = true ∨ (f .rn e).2.getLsbD 1 = true) →
      exec (mk .t) s = .next (e.trapped 0x01 0 0)) := by
  refine ⟨completes_of (h .rn), completes_of (h .rz), completes_of (h .ru), completes_of (h .rd), completes_of (h .x),
    fun s e he h0 h1 => ?quiet, fun s e he hf => ?fault⟩
  case quiet =>
    rw [h]
    exact runWord_after _ he (fpEnd_trap_quiet ((traps_eq_false_iff _).2 ⟨h0, h1⟩))
  case fault =>
    rw [h]
    exact runWord_trapped he (fpEnd_trap_fault ((traps_iff _).2 hf))

/-- Settles O22: the four instructions end alike, each with its own exact result. -/
theorem floatingPointArithmetic : Obligations.FloatingPointArithmetic := by
  unfold Obligations.FloatingPointArithmetic
  simp only [← fpResult_eq]
  exact ⟨fun d a b => fpEnd_gives (mk := (.fadd · d a b)) (f := fun r e => fpAdd r (e.reg a) (e.src b)) fun _ _ => rfl,
    fun d a b => fpEnd_gives (mk := (.fsub · d a b)) (f := fun r e => fpSub r (e.reg a) (e.src b)) fun _ _ => rfl,
    fun d a b => fpEnd_gives (mk := (.fmul · d a b)) (f := fun r e => fpMul r (e.reg a) (e.src b)) fun _ _ => rfl,
    fun d a b => fpEnd_gives (mk := (.ffma · d a b)) (f := fun r e => fpFma r (e.reg d) (e.reg a) (e.src b)) fun _ _ => rfl⟩

end Sys2Proof.Numbers

namespace Sys2Proof.Numbers
open Sys2Proof Sys2Proof.Machine

/-! ## FCVT (R67, R68, R331) -/

theorem isNaN_iff (b : Word) : isNaN b = true ↔ valOfFP32 b = .nan := by simp [isNaN]

/-! ### Ranges of codes -/

theorem rnBF16_lt (v : Val) : rnBF16 v < 65536 := by
  cases v with
  | nan => decide
  | inf s => cases s <;> decide
  | fin s m e =>
    have := roundCode_le (num := m) .rn 7 s 1 e
    cases s <;> simp only [rnBF16, Bool.false_eq_true, if_true, if_false] <;> omega

theorem taperFloor_le (n : Nat) (x : Val) (top : Nat) : taperFloor n x top ≤ top := by
  induction top with
  | zero => exact Nat.le_refl 0
  | succ b ih =>
    simp only [taperFloor]
    split
    · omega
    · exact Nat.le_refl _

/-- A tapered code has one bit more than its body (R62, R63). -/
theorem encodeTaper_lt {n : Nat} (hn : 0 < n) (v : Val) : encodeTaper n v < 2 ^ (n + 1) := by
  have h2 : 2 ^ n * 2 = 2 ^ (n + 1) := (pow_succ 2 n).symm
  have h1 : 2 ≤ 2 ^ n := by simpa using Nat.pow_le_pow_right (n := 2) (by decide) hn
  cases v with
  | nan => simp only [encodeTaper]; omega
  | inf s => simp only [encodeTaper]; omega
  | fin s m e =>
    have hlo := taperFloor_le n (.fin false m e) (2 ^ n - 1)
    simp only [encodeTaper]
    repeat' split
    all_goals omega

/-! ### Bytes of words -/

/-- Byte k of a word, as bits. -/
theorem testBit_byte (w : Word) (k i : Nat) (hi : i < 8) :
    (w.toNat / 256 ^ k % 256).testBit i = w.getLsbD (8 * k + i) := by
  rw [show (256 : Nat) ^ k = 2 ^ (8 * k) from (pow_mul 2 8 k).symm, show (256 : Nat) = 2 ^ 8 from rfl,
    Nat.testBit_mod_two_pow, Nat.testBit_div_two_pow]
  simp [hi, BitVec.getLsbD, Nat.add_comm]

theorem byte_ext {x y : Nat} (hx : x < 256) (hy : y < 256) (h : ∀ i < 8, x.testBit i = y.testBit i) : x = y := by
  refine Nat.eq_of_testBit_eq fun i => ?_
  by_cases hi : i < 8
  · exact h i hi
  · have hle : 2 ^ 8 ≤ 2 ^ i := Nat.pow_le_pow_right (by decide) (by omega)
    rw [Nat.testBit_lt_two_pow (by omega), Nat.testBit_lt_two_pow (by omega)]

/-- The bits of a word with one byte replaced. -/
theorem getLsbD_setByte (d : Word) {k v j : Nat} (hv : v < 256) (hj : j < 32) :
    (setByte d k v).getLsbD j = if 8 * k ≤ j ∧ j < 8 * k + 8 then v.testBit (j - 8 * k) else d.getLsbD j := by
  have hmask : (255 : Nat).testBit (j - 8 * k) = decide (j - 8 * k < 8) := Nat.testBit_two_pow_sub_one 8 _
  simp only [setByte, BitVec.getLsbD_or, BitVec.getLsbD_and, BitVec.getLsbD_not, BitVec.getLsbD_ofNat, hj,
    Nat.mod_eq_of_lt hv, Nat.testBit_mul_two_pow, hmask]
  split
  next h => simp [h.1, show j - 8 * k < 8 by omega]
  next h =>
    by_cases hk : 8 * k ≤ j
    · have h8 : ¬ j - 8 * k < 8 := by omega
      have hle : 2 ^ 8 ≤ 2 ^ (j - 8 * k) := Nat.pow_le_pow_right (by decide) (by omega)
      simp [h8, Nat.testBit_lt_two_pow (show v < 2 ^ (j - 8 * k) by omega)]
    · simp [hk]

theorem byte_setByte_same (d : Word) {k v : Nat} (hv : v < 256) (hk : k < 4) :
    (setByte d k v).toNat / 256 ^ k % 256 = v := by
  refine byte_ext (Nat.mod_lt _ (by decide)) hv fun i hi => ?_
  rw [testBit_byte _ _ _ hi, getLsbD_setByte d hv (by omega), if_pos ⟨by omega, by omega⟩, Nat.add_sub_cancel_left]

theorem byte_setByte_other (d : Word) {k v j : Nat} (hv : v < 256) (hj : j < 4) (hne : j ≠ k) :
    (setByte d k v).toNat / 256 ^ j % 256 = d.toNat / 256 ^ j % 256 := by
  refine byte_ext (Nat.mod_lt _ (by decide)) (Nat.mod_lt _ (by decide)) fun i hi => ?_
  rw [testBit_byte _ _ _ hi, testBit_byte _ _ _ hi, getLsbD_setByte d hv (by omega), if_neg (by omega)]

/-! ### The results -/

theorem byteOf_eq (b : Word) (k : Nat) : byteOf b k = b.toNat / 256 ^ k % 256 := by
  rw [byteOf, pow_mul]; rfl

/-- BF16 patterns are read from the low half alone (R57). -/
theorem valOfBF16_mod (h : Nat) : valOfBF16 (h % 65536) = valOfBF16 h := by simp [valOfBF16]

theorem toNat_cvt_bf2 (d a b : Word) :
    (cvtVal .bf2 d a b).toNat = rnBF16 (valOfFP32 a) + 65536 * rnBF16 (valOfFP32 b) := by
  have ha := rnBF16_lt (valOfFP32 a)
  have hb := rnBF16_lt (valOfFP32 b)
  rw [cvtVal, BitVec.toNat_ofNat, Nat.mod_eq_of_lt (by omega)]

/-- A half-word sign-extended keeps its value. -/
theorem toInt_cvt_iH (hi : Bool) (d a b : Word) :
    (cvtVal (.iH hi) d a b).toInt = (b.extractLsb' (if hi then 16 else 0) 16).toInt :=
  BitVec.toInt_signExtend_of_le (by decide)

/-- Settles O24: what each FN gives, read off the model's conversions. -/
theorem conversions : Obligations.Conversions := by
  unfold Obligations.Conversions
  refine ⟨cvtVal, fun c => givesTern_of (fun _ _ _ _ => rfl) rfl, fun d a b => ⟨rfl, rfl, ?nan⟩, fun d a b => ⟨rfl, rfl⟩,
    fun d a b => ?bf2, fun d a b => ?fBf, fun d a b k => ?bytes, fun d a b => ⟨?low, ?high⟩⟩
  case nan =>
    intro h
    simp [cvtVal, (isNaN_iff b).1 h, satInt]
  case bf2 =>
    have ha := rnBF16_lt (valOfFP32 a)
    rw [toNat_cvt_bf2]
    omega
  case fBf =>
    have hb := b.isLt
    refine ⟨?_, ?_⟩
    · simp [cvtVal, valOfBF16_mod]
    · simp [cvtVal]
  case bytes =>
    have h8 : encodeT8 (valOfFP32 b) < 256 := encodeTaper_lt (by decide) _
    have h6 : encodeT6 (valOfFP32 b) < 256 := Nat.lt_of_lt_of_le (encodeTaper_lt (by decide) _) (by decide)
    refine ⟨byte_setByte_same d h8 k.isLt, byte_setByte_same d h6 k.isLt,
      fun j hj hne => ⟨byte_setByte_other d h8 hj hne, byte_setByte_other d h6 hj hne⟩, ?_, ?_⟩
    · rw [cvtVal, byteOf_eq]
    · rw [cvtVal, byteOf_eq]
  case low => exact toInt_cvt_iH false d a b
  case high => exact toInt_cvt_iH true d a b

end Sys2Proof.Numbers

namespace Sys2Proof.Numbers
open Sys2Proof Sys2Proof.Machine Sys2Proof.PlacesAndClauses

/-! ## ACTLD (R77, R79, R300) -/

/-! ### The image -/

/-- A pattern is finite where its exponent field is not all ones (R56). -/
theorem isFinite_iff (w : Word) : (∃ s m e, valOfFP32 w = .fin s m e) ↔ w.toNat % 2 ^ 31 < 0x7F800000 := by
  have hfield : w.toNat / 2 ^ 23 % 256 = 255 ↔ ¬ w.toNat % 2 ^ 31 < 0x7F800000 := by omega
  simp only [valOfFP32]
  split
  next h => split <;> simpa using hfield.1 h
  next h => split <;> simpa using not_not.1 (mt hfield.2 h)

theorem imageOk_iff (l q : Word) :
    imageOk l q = true ↔ l.toNat % 2 ^ 31 < 0x7F800000 ∧ -64 ≤ q.toInt ∧ q.toInt ≤ 64 := by
  rw [← isFinite_iff, imageOk]
  cases valOfFP32 l <;> simp

section Words
variable {s : State} {e : Env} (h : openWord s = some e) (n : Fin 4) (a : Reg)
include h

theorem exec_actld_ok {img : List Word} (hi : e.rawImage (e.reg a) 2064 16 true = .ok img)
    (hok : imageOk (img.getD 0 0) (img.getD 1 0) = true) : exec (.actld n a) s =
      .next (e.afterIn s.fresh (fun c => (c.act (.actld n.val img s.serial)).putDone .none (.actld s.serial))) :=
  runWord_afterIn _ h (by rw [hi, ok_bind, hok, need_true, ok_bind, flat_pure, openWord_state h])

theorem exec_actld_bad {img : List Word} (hi : e.rawImage (e.reg a) 2064 16 true = .ok img)
    (hbad : imageOk (img.getD 0 0) (img.getD 1 0) = false) : exec (.actld n a) s = .next (e.trapped 0x04 0 0) :=
  runWord_trapped h (by rw [hi, ok_bind, hbad, need_false, error_bind, flat_error])

theorem exec_actld_fault {c d : Nat} {x : Word} (hi : e.rawImage (e.reg a) 2064 16 true = .error (.fault c x d)) :
    exec (.actld n a) s = .next (e.trapped c x d) :=
  runWord_trapped h (by rw [hi, error_bind, flat_error])

end Words

/-! ### What a trap and the end of a launch leave: the cores (R53, R169, R397) -/

@[simp] theorem requests_cores (s : State) (pas : List Nat) : (s.requests pas).cores = s.cores := by
  obtain ⟨k, h⟩ := requests_eq s pas
  rw [h]

@[simp] theorem puts_cores (s : State) (zs : List (Nat × Byte)) : (s.puts zs).cores = s.cores := by
  have hbytes : (zs.foldl (fun s z => s.setPhysByte z.1 z.2) s).cores = s.cores :=
    List.foldlRecOn (motive := fun t : State => t.cores = s.cores) _ _ rfl fun t ht z _ => by simp [ht]
  unfold State.puts
  split
  · rfl
  · simpa using hbytes

@[simp] theorem setNode_cores (s : State) (pa st err pred : Nat) : (s.setNode pa st err pred).cores = s.cores := by
  simp only [State.setNode]
  split
  · simp
  · rfl

theorem failNode_cores (fuel : Nat) (s : State) (pa err : Nat) : (s.failNode fuel pa err).cores = s.cores := by
  induction fuel generalizing s pa err with
  | zero => rfl
  | succ fuel ih =>
    simp only [State.failNode]
    split
    · rfl
    · refine List.foldlRecOn (motive := fun t : State => t.cores = s.cores) _ _ (setNode_cores s _ _ _ _) fun t ht p _ => ?_
      split
      · rw [ih, ht]
      · exact ht

theorem freed_cores (s : State) (f : Nat) (hall : Bool) : (s.freed f hall).cores = s.cores := by
  unfold State.freed
  split
  · rfl
  · split <;> rfl

theorem removeForm_cores (s : State) (f : Nat) : (s.removeForm f).cores = s.cores := freed_cores s f true

theorem dropForms_cores (s : State) (node : Nat) : (s.dropForms node).cores = s.cores :=
  List.foldlRecOn (motive := fun t : State => t.cores = s.cores) _ _ rfl fun t ht f _ => (removeForm_cores t f).trans ht

theorem endLaunch_cores (s : State) (node err : Nat) : (s.endLaunch node err).cores = s.cores :=
  (failNode_cores _ _ _ _).trans (dropForms_cores s node)

theorem routeTrap_cores (s : State) (k : Nat) (r : SMap Word) (p : Pending) : (s.routeTrap k r p).cores = s.cores := by
  unfold State.routeTrap
  repeat' split
  all_goals rfl

theorem enterTrap_cores (s : State) (k : Nat) (p : Pending) : (s.enterTrap k p).cores = s.cores := by
  unfold State.enterTrap
  split
  · rfl
  split
  · rfl
  split
  · rfl
  split
  · exact endLaunch_cores _ _ _
  · exact routeTrap_cores _ _ _ _

theorem settle_cores (s : State) (k : Nat) : (s.settle k).cores = s.cores := by
  unfold State.settle
  repeat' split
  case isTrue => exact enterTrap_cores _ _ _
  all_goals rfl

theorem land_cores (s : State) (k : Nat) (l : Machine.Lat) : (s.land k l).cores = s.cores := by
  unfold State.land
  repeat' split
  all_goals rfl

theorem arrive_cores (s : State) (k j : Nat) (l : Machine.Lat) : (s.arrive k j l).cores = s.cores :=
  (settle_cores _ k).trans (land_cores s k l)

theorem completeKind_cores (s : State) (k : Nat) (kind : LatKind) : (s.completeKind k kind).cores = s.cores := by
  unfold State.completeKind
  split
  · rfl
  split
  · exact arrive_cores _ _ _ _
  · rfl

theorem core_foldl_completeKind {α : Type} (g : α → Nat) (kind : LatKind) (ps : List α) (s : State) (core : Nat) :
    (ps.foldl (fun s p => s.completeKind (g p) kind) s).core core = s.core core :=
  congrArg (Tab.getD Core.reset core) (List.foldlRecOn (motive := fun t : State => t.cores = s.cores) _ _ rfl
    fun t ht _ _ => (completeKind_cores t _ _).trans ht)

/-! ### Completion (R79) -/

theorem loadBehind_iff (s : State) (core : Nat) (l : BankLoad) : s.loadBehind core l = true ↔
    ∃ p ∈ s.threads, p.2.core = core ∧ ∃ c ∈ p.2.clauses, c.seq < l.seq ∧ ∃ w ∈ c.words, ∃ n a, w.2 = .actld n a := by
  simp only [State.loadBehind, List.any_eq_true, Bool.and_eq_true, beq_iff_eq, decide_eq_true_eq]
  refine exists_congr fun p => and_congr_right fun _ => and_congr_right fun _ => exists_congr fun c =>
    and_congr_right fun _ => and_congr_right fun _ => exists_congr fun w => and_congr_right fun _ => ?_
  cases w.2 <;> simp

section Completion
variable {s : State} {core : Nat} {l : BankLoad} {r : List BankLoad} (hl : (s.core core).loads = l :: r)
include hl

theorem exec_actldComplete_behind (hb : s.loadBehind core l = true) : exec (.actldComplete core) s = .next s := by
  show execActldComplete core s = .next s
  simp [execActldComplete, hl, hb]

theorem exec_actldComplete (hb : s.loadBehind core l = false) : ∃ t, exec (.actldComplete core) s = .next t ∧
    t.core core = { s.core core with loads := r, banks := Tab.put l.bank (bankOf l.image l.form) (s.core core).banks } := by
  show ∃ t, execActldComplete core s = .next t ∧ _
  simp only [execActldComplete, hl, hb, Bool.not_false, runEvent_true]
  refine ⟨_, rfl, ?_⟩
  rw [core_foldl_completeKind]
  exact Tab.getD_put_same _ _ _ s.cores

end Completion

/-- Settles O27: the ends of the word by its conditions, and the completion, after which nothing else touches the core. -/
theorem activationTableLoad : Obligations.ActivationTableLoad := by
  unfold Obligations.ActivationTableLoad
  refine ⟨fun s e n a img h => exec_actld_ok h n a, fun s e n a img h => exec_actld_bad h n a,
    fun s e n a c d x h => exec_actld_fault h n a, imageOk_iff,
    fun s core l r hl => ⟨loadBehind_iff s core l, exec_actldComplete_behind hl⟩, fun s core l r hl hb => ?complete⟩
  case complete =>
    obtain ⟨t, ht, hc⟩ := exec_actldComplete hl hb
    refine ⟨t, ht, ?_, ?_, fun n hn => ?_⟩
    · rw [hc]
    · rw [hc]
      exact Tab.getD_put_same _ _ _ _
    · rw [hc]
      exact Tab.getD_put_ne _ _ _ (Ne.symm hn)

end Sys2Proof.Numbers

namespace Sys2Proof.Numbers
open Sys2Proof Sys2Proof.Machine Sys2Proof.PlacesAndClauses

/-! ## ST (R66, R71, R72, R83, R388) -/

/-! ### The word -/

/-- A checked access whose storage another thread has reserved waits (R297). -/
theorem hall_waits {e : Env} {acc : Access} {a : Word} {n : Nat} {h : HallRef}
    (hc : hallCheck e.fm acc a.toNat n = .ok h) (hr : ∃ o ∈ h.span e.fm acc n, e.fm.heldByOther e.k o = true) :
    e.hall acc a n = .error (.wait .reservation e.s) := by
  have hfree : (h.span e.fm acc n).all (fun o => !e.fm.heldByOther e.k o) = false := by simpa using hr
  simp [Env.hall, hc, hfree]

section Words
variable {s : State} {e : Env} (he : openWord s = some e) (k : StW)
include he

theorem exec_st (d a : Reg) (off : BitVec 9) {h : HallRef}
    (hh : e.hall .store (effAddr (e.reg a) off (stWidth k)) (stWidth k) = .ok h) :
    exec (.st k d a off) s =
      .next (e.after (·.store (e.storeW h (stWidth k) (pairVal (e.reg d) (e.reg (regSucc d)))))) :=
  runWord_after _ he (by rw [hh, ok_bind, flat_pure])

theorem exec_stScalar (d : Fin 384) (a : SSrc) {h : HallRef} (hh : e.hall .store (e.ssrc a) (stWidth k) = .ok h) :
    exec (.stScalar k d a) s =
      .next (e.after (·.store (e.storeW h (stWidth k) (pairVal (e.sreg d.val) (e.sreg (d.val + 1)))))) :=
  runWord_after _ he (by rw [hh, ok_bind, flat_pure])

theorem exec_st_fault (d a : Reg) (off : BitVec 9) {c x : Nat} {v : Word}
    (hh : e.hall .store (effAddr (e.reg a) off (stWidth k)) (stWidth k) = .error (.fault c v x)) :
    exec (.st k d a off) s = .next (e.trapped c v x) :=
  runWord_trapped he (by rw [hh, error_bind, flat_error])

theorem exec_stScalar_fault (d : Fin 384) (a : SSrc) {c x : Nat} {v : Word}
    (hh : e.hall .store (e.ssrc a) (stWidth k) = .error (.fault c v x)) :
    exec (.stScalar k d a) s = .next (e.trapped c v x) :=
  runWord_trapped he (by rw [hh, error_bind, flat_error])

theorem exec_st_waits (d a : Reg) (off : BitVec 9) {h : HallRef}
    (hc : hallCheck e.fm .store (effAddr (e.reg a) off (stWidth k)).toNat (stWidth k) = .ok h)
    (hr : ∃ o ∈ h.span e.fm .store (stWidth k), e.fm.heldByOther e.k o = true) :
    exec (.st k d a off) s = .next (e.waiting .reservation s) :=
  runWord_waiting he (by rw [hall_waits hc hr, error_bind, flat_error, openWord_state he])

theorem exec_stScalar_waits (d : Fin 384) (a : SSrc) {h : HallRef}
    (hc : hallCheck e.fm .store (e.ssrc a).toNat (stWidth k) = .ok h)
    (hr : ∃ o ∈ h.span e.fm .store (stWidth k), e.fm.heldByOther e.k o = true) :
    exec (.stScalar k d a) s = .next (e.waiting .reservation s) :=
  runWord_waiting he (by rw [hall_waits hc hr, error_bind, flat_error, openWord_state he])

end Words

/-! ### Bytes of a number -/

@[simp] theorem leBytes_length (n v : Nat) : (leBytes n v).length = n := by
  induction n generalizing v with
  | zero => rfl
  | succ n ih => rw [leBytes, List.length_cons, ih]

theorem getElem?_leBytes {n i : Nat} (v : Nat) (hi : i < n) :
    (leBytes n v)[i]? = some (BitVec.ofNat 8 (v / 256 ^ i)) := by
  induction n generalizing v i with
  | zero => omega
  | succ n ih =>
    rw [leBytes]
    cases i with
    | zero => simp
    | succ i => rw [List.getElem?_cons_succ, ih _ (by omega), Nat.div_div_eq_div_mul, Nat.pow_succ']

/-! ### Stored elements (R66, R71) -/

theorem clampInt_eq {lo hi : Int} (h : lo ≤ hi) (x : Int) : clampInt lo hi x = max lo (min hi x) := by
  unfold clampInt
  split_ifs <;> omega

theorem sat8_eq (x : Int) : sat8 x = max (-128) (min 127 x) := clampInt_eq (by decide) x
theorem sat16_eq (x : Int) : sat16 x = max (-32768) (min 32767 x) := clampInt_eq (by decide) x

theorem elemStore_int8 (geom : Nat) (rd : Bytes) (i : Nat) (w : Word) :
    (elemStore 5 geom rd i w).2 = leBytes 1 (BitVec.ofInt 8 (max (-128) (min 127 w.toInt))).toNat := by
  rw [← sat8_eq]; rfl

theorem elemStore_int16 (geom : Nat) (rd : Bytes) (i : Nat) (w : Word) :
    (elemStore 6 geom rd i w).2 = leBytes 2 (BitVec.ofInt 16 (max (-32768) (min 32767 w.toInt))).toNat := by
  rw [← sat16_eq]; rfl

@[simp] theorem elemStore_fst (fmt geom : Nat) (rd : Bytes) (i : Nat) (w : Word) :
    (elemStore fmt geom rd i w).1 = elemOff fmt geom i := rfl

@[simp] theorem elemStore_length (fmt geom : Nat) (rd : Bytes) (i : Nat) (w : Word) :
    (elemStore fmt geom rd i w).2.length = elemBytes fmt := leBytes_length _ _

theorem unscaled_fin {scale : Nat} (h : scale ≠ 255) (s : Bool) (m : Nat) (k : Int) :
    unscaled scale (.fin s m k) = .fin s m (k + (127 - (scale : Int))) := by simp [unscaled, h, Val.scale]

theorem unscaled_127_fin (s : Bool) (m : Nat) (k : Int) : unscaled 127 (.fin s m k) = .fin s m k := by
  simpa using unscaled_fin (by decide : 127 ≠ 255) s m k

theorem elemStore_bf16_fin (rd : Bytes) (i : Nat) {w : Word} {s : Bool} {m : Nat} {x : Int}
    (hv : valOfFP32 w = .fin s m x) : (elemStore 2 0 rd i w).2 = leBytes 2 (rnBF16 (.fin s m x)) := by
  show leBytes 2 (rnBF16 (unscaled 127 (valOfFP32 w))) = _
  rw [hv, unscaled_127_fin]

/-- Where a block has a scale the scale byte stands first, and the element behind those before it. -/
theorem elemStore_scaled {g : Nat} (hg : g ≠ 0) (rd : Bytes) (i : Nat) (w : Word) :
    let n := unitElems 3 g
    let scale := (rd (i / n * (n + 1))).toNat
    (elemStore 3 g rd i w).2 = leBytes 1 (encodeT8 (unscaled scale (valOfFP32 w))) ∧
    (elemStore 4 g rd i w).2 = leBytes 1 (encodeT6 (unscaled scale (valOfFP32 w))) ∧
    (elemStore 3 g rd i w).1 = i / n * (n + 1) + 1 + i % n ∧ (elemStore 4 g rd i w).1 = i / n * (n + 1) + 1 + i % n := by
  have hs : scaleOf g rd i = (rd (i / unitElems 3 g * (unitElems 3 g + 1))).toNat := by rw [scaleOf, if_neg hg]; rfl
  have ho3 : elemOff 3 g i = i / unitElems 3 g * (unitElems 3 g + 1) + 1 + i % unitElems 3 g := by rw [elemOff, if_neg hg]
  have ho4 : elemOff 4 g i = i / unitElems 3 g * (unitElems 3 g + 1) + 1 + i % unitElems 3 g := by
    rw [elemOff, if_neg hg]; rfl
  refine ⟨?_, ?_, ho3, ho4⟩ <;> rw [← hs] <;> rfl

/-! ### The buffered write -/

section StoreW
variable (e : Env) {h : HallRef} (n v : Nat)

theorem storeW_raw (hx : expanded h.seg.fmt = false) :
    e.storeW h n v = { addr := h.sb + h.rel, bytes := leBytes n v, tag := .full } := by simp [Env.storeW, hx]

/-- The write of an element: what it is to be converted to at its commit, and what its clause reads back. -/
theorem storeW_expanded (hx : expanded h.seg.fmt = true) : e.storeW h n v =
    { addr := h.sb + elemOff h.seg.fmt h.seg.geom (h.rel / 4),
      bytes := (elemStore h.seg.fmt h.seg.geom (fun o => seenByte e.fm e.cl.hw (h.sb + o)) (h.rel / 4) (BitVec.ofNat 32 v)).2,
      tag := .full,
      conv := some { fmt := h.seg.fmt, geom := h.seg.geom, sb := h.sb, idx := h.rel / 4, val := BitVec.ofNat 32 v } } := by
  simp only [Env.storeW, hx, if_true, elemStore_fst]
  rfl

end StoreW

/-- A list by its positions, each with what stands at its place in a list of the same length, is that list. -/
theorem map_zipIdx_getD {α : Type} {xs ys : List α} (h : ys.length = xs.length) :
    xs.zipIdx.map (fun p => ys.getD p.2 p.1) = ys := by
  refine List.ext_getElem (by simp [h]) fun i h1 h2 => ?_
  simp [List.getElem?_eq_getElem h2]

/-- A converting write performs the element as its block stands then (log 82). -/
theorem data_of_conv {x : HallW} (c : ElemConv) (hc : x.conv = some c) (hlen : x.bytes.length = elemBytes c.fmt) (f : Form) :
    x.data f = (elemStore c.fmt c.geom (fun o => f.byte (c.sb + o)) c.idx c.val).2 := by
  simp only [HallW.data, hc]
  exact map_zipIdx_getD (by simp [hlen])

/-! ### The write performed -/

theorem mem_wordsOfSpan {a n i : Nat} (h : i < n) : (a + i) / 4 ∈ wordsOfSpan a n := by
  refine List.mem_map.2 ⟨(a + i) / 4 - a / 4, List.mem_range.2 ?_, ?_⟩ <;> omega

/-- Words retagged full: each of them is full, the table stays canonical, and the bytes are as they were. -/
theorem foldl_retag_full (ws : List Nat) (f : Form) (h : SMap.wf .empty f.tags = true) :
    (ws.foldl (fun f w => f.retag .full w) f).hall = f.hall ∧
    ∀ w, w ∈ ws ∨ SMap.get .empty w f.tags = .full →
      SMap.get .empty w (ws.foldl (fun f w => f.retag .full w) f).tags = .full := by
  induction ws generalizing f with
  | nil => exact ⟨rfl, fun w hw => by simpa using hw⟩
  | cons x ws ih =>
    have htags : (f.retag .full x).tags = SMap.set .empty x .full f.tags := rfl
    obtain ⟨hhall, htag⟩ := ih (f.retag .full x) (htags ▸ SMap.wf_set h)
    refine ⟨hhall, fun w hw => htag w ?_⟩
    rw [htags]
    by_cases hx : w = x
    · subst hx
      exact .inr (SMap.get_set_eq h)
    · rw [SMap.get_set_ne _ (Ne.symm hx)]
      exact hw.imp_left fun hm => (List.mem_cons.1 hm).resolve_left hx

/-- After a store's write its bytes stand in the hall, and their words are full. -/
theorem write_full (f : Form) {x : HallW} {i : Nat} (hh : SMap.wf 0 f.hall = true) (ht : SMap.wf .empty f.tags = true)
    (hx : x.tag = .full) (hi : i < x.bytes.length) :
    some ((f.write x).byte (x.addr + i)) = (x.data f)[i]? ∧ (f.write x).tag (x.addr + i) = .full := by
  have hi' : i < (x.data f).length := by rwa [HallW.data_length]
  obtain ⟨hhall, htag⟩ := foldl_retag_full (wordsOfSpan x.addr x.bytes.length)
    { f with hall := SMap.setList 0 x.addr (x.data f) f.hall } ht
  have hw : f.write x = (wordsOfSpan x.addr x.bytes.length).foldl (fun f w => f.retag .full w)
      { f with hall := SMap.setList 0 x.addr (x.data f) f.hall } := by
    simp only [Form.write, hx]
  refine ⟨?_, ?_⟩
  · rw [hw, Form.byte, hhall, get_setList_in hh _ _ hi', List.getElem?_eq_getElem hi']
  · rw [hw]
    exact htag _ (.inl (mem_wordsOfSpan hi))

/-- Settles O30: the word by its conditions, the buffered write by its view, and what performing it does to the hall. -/
theorem storesToTheHall : Obligations.StoresToTheHall := by
  unfold Obligations.StoresToTheHall
  refine ⟨fun s e k d a off h he hh => exec_st he k d a off hh, fun s e k d a h he hh => exec_stScalar he k d a hh,
    fun s e k c x v he => ⟨fun d a off hh => exec_st_fault he k d a off hh, fun d a hh => exec_stScalar_fault he k d a hh⟩,
    fun s e k he => ⟨fun d a off h hc hr => exec_st_waits he k d a off hc hr,
      fun d a h hc hr => exec_stScalar_waits he k d a hc hr⟩, ?raw, ?element,
    fun rd i w => ⟨elemStore_int8 0 rd i w, elemStore_int16 0 rd i w, rfl, rfl, rfl, fun g hg => elemStore_scaled hg rd i w⟩,
    ?scales, fun f x i hh ht hx hi => write_full f hh ht hx hi, fun f e h n v a => Form.byte_write_out f _⟩
  case raw =>
    intro e h n v hx
    rw [storeW_raw e n v hx]
    exact ⟨rfl, leBytes_length n v, rfl, fun i hi => getElem?_leBytes v hi, fun f => HallW.data_raw f rfl⟩
  case element =>
    intro e h n v hx
    rw [storeW_expanded e n v hx]
    refine ⟨rfl, elemStore_length _ _ _ _ _, rfl, fun h5 => ?_, fun h6 => ?_, fun h2 hg s m x hv => ?_, rfl,
      fun f => data_of_conv ⟨_, _, h.sb, h.rel / 4, BitVec.ofNat 32 v⟩ rfl (elemStore_length _ _ _ _ _) f⟩
    · simp only [h5]
      exact elemStore_int8 _ _ _ _
    · simp only [h6]
      exact elemStore_int16 _ _ _ _
    · simp only [h2, hg]
      exact elemStore_bf16_fin _ _ hv
  case scales =>
    refine fun scale x => ⟨fun h => by rw [unscaled, if_pos h], fun h s m k hx => ?_⟩
    rw [hx, unscaled_fin h]

end Sys2Proof.Numbers

namespace Sys2Proof.Numbers
open Sys2Proof Sys2Proof.Machine

/-! ## Patterns and rounding in rational numbers (R55, R56, R59, R75, R81) -/

/-! ### Powers of two -/

theorem two_pow_toNat {k : Int} (h : 0 ≤ k) : (2 : ℚ) ^ k.toNat = 2 ^ k := by
  rw [← zpow_natCast, Int.toNat_of_nonneg h]

theorem two_zpow_pos (k : Int) : (0 : ℚ) < 2 ^ k := by positivity

theorem two_zpow_add (j k : Int) : (2 : ℚ) ^ (j + k) = 2 ^ j * 2 ^ k := zpow_add₀ (by norm_num) j k

theorem two_zpow_sub (j k : Int) : (2 : ℚ) ^ (j - k) = 2 ^ j / 2 ^ k := zpow_sub₀ (by norm_num) j k

theorem two_zpow_le {j k : Int} : (2 : ℚ) ^ j ≤ 2 ^ k ↔ j ≤ k := zpow_le_zpow_iff_right₀ (by norm_num)

theorem two_zpow_lt {j k : Int} : (2 : ℚ) ^ j < 2 ^ k ↔ j < k := zpow_lt_zpow_iff_right₀ (by norm_num)

/-- The binade of a number is one. -/
theorem binade_unique {x : ℚ} {j k : Int} (hj : 2 ^ j ≤ x) (hj' : x < 2 ^ (j + 1)) (hk : 2 ^ k ≤ x) (hk' : x < 2 ^ (k + 1)) :
    j = k := by
  have h1 := two_zpow_lt.1 (hj.trans_lt hk')
  have h2 := two_zpow_lt.1 (hk.trans_lt hj')
  omega

theorem log2_binade {n : Nat} (h : n ≠ 0) : (2 : ℚ) ^ (n.log2 : Int) ≤ n ∧ (n : ℚ) < 2 ^ ((n.log2 : Int) + 1) := by
  rw [show (n.log2 : Int) + 1 = ((n.log2 + 1 : Nat) : Int) by push_cast; rfl, zpow_natCast, zpow_natCast]
  exact ⟨by exact_mod_cast Nat.log2_self_le h, by exact_mod_cast Nat.lt_log2_self⟩

/-! ### The value of a code -/

/-- The magnitude that a code stands for, as a number; past the infinity's as with a wider exponent. -/
def codeQ (c : Nat) : ℚ := ((codeMag c).1 : ℚ) * 2 ^ (codeMag c).2

theorem codeQ_nonneg (c : Nat) : 0 ≤ codeQ c := by unfold codeQ; positivity

theorem codeMag_exp_ge (c : Nat) : -149 ≤ (codeMag c).2 := by
  unfold codeMag
  dsimp only
  split <;> omega

theorem codeMag_fst_lt (c : Nat) : (codeMag c).1 < 2 ^ 24 := by
  unfold codeMag
  dsimp only
  split <;> omega

theorem codeQ_subnormal {c : Nat} (h : c < 2 ^ 23) : codeQ c = c * 2 ^ (-149 : Int) := by
  have h0 : c / 2 ^ 23 = 0 := by omega
  have h1 : c % 2 ^ 23 = c := by omega
  simp only [codeQ, codeMag, h0, h1, if_true]

theorem codeQ_normal {c : Nat} (h : 2 ^ 23 ≤ c) :
    codeQ c = ((c % 2 ^ 23 + 2 ^ 23 : Nat) : ℚ) * 2 ^ (((c / 2 ^ 23 : Nat) : Int) - 150) := by
  have h0 : c / 2 ^ 23 ≠ 0 := by omega
  simp only [codeQ, codeMag, if_neg h0]

/-- A significand above a last place is read back from its code, also where it carries into the next binade. -/
theorem codeQ_of_lastPlace {q : Int} {r : Nat} (hq : -149 ≤ q) (hr : r ≤ 2 ^ 24) (hn : q = -149 ∨ 2 ^ 23 ≤ r) :
    codeQ ((q + 149).toNat * 2 ^ 23 + r) = r * 2 ^ q := by
  obtain ⟨n, rfl⟩ : ∃ n : Nat, q = (n : Int) - 149 := ⟨(q + 149).toNat, by omega⟩
  rw [show ((n : Int) - 149 + 149).toNat = n by omega]
  rcases Nat.lt_or_ge r (2 ^ 23) with h | h
  · obtain rfl : n = 0 := by omega
    rw [codeQ_subnormal (by omega)]
    norm_num
  · rw [codeQ_normal (by omega)]
    rcases Nat.eq_or_lt_of_le hr with rfl | hr
    · rw [show (n * 2 ^ 23 + 2 ^ 24) % 2 ^ 23 + 2 ^ 23 = 2 ^ 23 by omega, show (n * 2 ^ 23 + 2 ^ 24) / 2 ^ 23 = n + 2 by omega,
        show (((n + 2 : Nat) : Int)) - 150 = 1 + ((n : Int) - 149) by push_cast; ring, two_zpow_add, ← mul_assoc]
      norm_num
    · rw [show (n * 2 ^ 23 + r) % 2 ^ 23 + 2 ^ 23 = r by omega, show (n * 2 ^ 23 + r) / 2 ^ 23 = n + 1 by omega,
        show (((n + 1 : Nat) : Int)) - 150 = (n : Int) - 149 by push_cast; ring]

/-- The next code stands one unit of its last place above. -/
theorem codeQ_succ (c : Nat) : codeQ (c + 1) = codeQ c + 2 ^ (codeMag c).2 := by
  have key : ∀ (q : Int) (r : Nat), -149 ≤ q → r < 2 ^ 24 → (q = -149 ∨ 2 ^ 23 ≤ r) →
      c = (q + 149).toNat * 2 ^ 23 + r → codeMag c = (r, q) → codeQ (c + 1) = codeQ c + 2 ^ (codeMag c).2 := by
    intro q r hq hr hn hc hm
    have h1 := codeQ_of_lastPlace hq (show r + 1 ≤ 2 ^ 24 by omega) (by omega)
    rw [hm, hc, Nat.add_assoc, h1, codeQ_of_lastPlace hq hr.le hn]
    push_cast
    ring
  rcases Nat.lt_or_ge c (2 ^ 23) with h | h
  · have h0 : c / 2 ^ 23 = 0 := by omega
    refine key (-149) c (by omega) (by omega) (.inl rfl) (by omega) ?_
    simp only [codeMag, h0, if_true, Nat.mod_eq_of_lt h]
  · have h0 : c / 2 ^ 23 ≠ 0 := by omega
    refine key (((c / 2 ^ 23 : Nat) : Int) - 150) (c % 2 ^ 23 + 2 ^ 23) (by omega) (by omega) (by omega) (by omega) ?_
    simp only [codeMag, if_neg h0]

theorem codeQ_strictMono : StrictMono codeQ :=
  strictMono_nat_of_lt_succ fun c => by rw [codeQ_succ]; linarith [two_zpow_pos (codeMag c).2]

theorem codeQ_inf : codeQ (255 * 2 ^ 23) = 2 ^ (128 : Int) := by
  rw [codeQ_normal (by norm_num)]
  norm_num

theorem codeQ_one : codeQ (127 * 2 ^ 23) = 1 := by
  rw [codeQ_normal (by norm_num)]
  norm_num

/-! ### Patterns -/

theorem magQ_eq (w : Word) : magQ w = codeQ (w.toNat % 2 ^ 31) := rfl

section Signed
variable (neg : Bool) {c : Nat} (h : c ≤ 255 * 2 ^ 23)
include h

theorem toNat_signed : (signed neg c).toNat = (if neg then 2 ^ 31 else 0) + c := by
  rw [signed, BitVec.toNat_ofNat, Nat.mod_eq_of_lt (by split <;> omega)]

theorem sign_signed : decide (2 ^ 31 ≤ (signed neg c).toNat) = neg := by
  rw [toNat_signed neg h]
  cases neg <;> simp only [Bool.false_eq_true, if_true, if_false, decide_eq_true_eq, decide_eq_false_iff_not] <;> omega

@[simp] theorem magQ_signed : magQ (signed neg c) = codeQ c := by
  rw [magQ_eq, toNat_signed neg h]
  congr 1
  split <;> omega

end Signed

/-- A finite pattern is its sign and its code, and the code its significand and exponent (R56). -/
theorem valOfFP32_fin {b : Word} {s : Bool} {m : Nat} {e : Int} (h : valOfFP32 b = .fin s m e) :
    s = decide (2 ^ 31 ≤ b.toNat) ∧ codeMag (b.toNat % 2 ^ 31) = (m, e) ∧ b.toNat % 2 ^ 31 < 255 * 2 ^ 23 := by
  have hexp : b.toNat % 2 ^ 31 / 2 ^ 23 = b.toNat / 2 ^ 23 % 256 := by omega
  have hfrac : b.toNat % 2 ^ 31 % 2 ^ 23 = b.toNat % 2 ^ 23 := by omega
  simp only [codeMag, hexp, hfrac]
  simp only [valOfFP32] at h
  split at h
  · split at h <;> cases h
  · split at h
    next h0 =>
      cases h
      exact ⟨rfl, by rw [if_pos h0], by omega⟩
    next h0 =>
      cases h
      exact ⟨rfl, by rw [if_neg h0], by omega⟩

/-- Significand and exponent of a finite pattern are in range, and the significand is normal or the exponent least. -/
theorem fin_range {b : Word} {s : Bool} {m : Nat} {e : Int} (h : valOfFP32 b = .fin s m e) :
    m < 2 ^ 24 ∧ -149 ≤ e ∧ e ≤ 104 ∧ (e = -149 ∨ 2 ^ 23 ≤ m) := by
  obtain ⟨-, hc, hlt⟩ := valOfFP32_fin h
  simp only [codeMag] at hc
  split at hc <;> cases hc <;> omega

/-! ### Quotients -/

theorem shiftRat_snd_pos (num : Nat) {den : Nat} (h : 0 < den) (k : Int) : 0 < (shiftRat num den k).2 := by
  unfold shiftRat
  split
  · exact h
  · positivity

theorem shiftRat_div (num : Nat) {den : Nat} (h : 0 < den) (k : Int) :
    ((shiftRat num den k).1 : ℚ) / (shiftRat num den k).2 = num / den * 2 ^ k := by
  have hd : (den : ℚ) ≠ 0 := by positivity
  unfold shiftRat
  split
  next hk =>
    push_cast
    rw [two_pow_toNat hk]
    ring
  next hk =>
    push_cast
    rw [two_pow_toNat (show 0 ≤ -k by omega), zpow_neg]
    field_simp

theorem log2Rat_binade {num den : Nat} (hn : num ≠ 0) (hd : den ≠ 0) :
    (2 : ℚ) ^ log2Rat num den ≤ num / den ∧ (num : ℚ) / den < 2 ^ (log2Rat num den + 1) := by
  obtain ⟨hn1, hn2⟩ := log2_binade hn
  obtain ⟨hd1, hd2⟩ := log2_binade hd
  have hdpos : (0 : ℚ) < den := by positivity
  have hl : log2Rat num den = if (2 : ℚ) ^ ((num.log2 : Int) - den.log2) ≤ num / den then (num.log2 : Int) - den.log2
      else (num.log2 : Int) - den.log2 - 1 := by
    simp only [log2Rat, le_div_iff₀ hdpos]
    split
    next h =>
      refine if_congr ?_ rfl rfl
      rw [← Nat.cast_le (α := ℚ)]
      push_cast
      rw [two_pow_toNat (by omega), zpow_neg, mul_comm ((2 : ℚ) ^ _), ← div_eq_mul_inv, le_div_iff₀ (two_zpow_pos _)]
    next h =>
      refine if_congr ?_ rfl rfl
      rw [← Nat.cast_le (α := ℚ)]
      push_cast
      rw [two_pow_toNat (by omega), mul_comm]
  rw [hl]
  split
  next h =>
    refine ⟨h, (div_lt_iff₀ hdpos).2 (hn2.trans_le ?_)⟩
    rw [show (num.log2 : Int) + 1 = (num.log2 : Int) - den.log2 + 1 + den.log2 by ring, two_zpow_add]
    gcongr
  next h =>
    refine ⟨(le_div_iff₀ hdpos).2 ?_, by simpa using h⟩
    calc (2 : ℚ) ^ ((num.log2 : Int) - den.log2 - 1) * den
        ≤ 2 ^ ((num.log2 : Int) - den.log2 - 1) * 2 ^ ((den.log2 : Int) + 1) :=
          mul_le_mul_of_nonneg_left hd2.le (two_zpow_pos _).le
      _ = 2 ^ (num.log2 : Int) := by rw [← two_zpow_add]; congr 1; ring
      _ ≤ num := hn1

end Sys2Proof.Numbers

namespace Sys2Proof.Numbers
open Sys2Proof Sys2Proof.Machine

/-! ### A quotient rounded to a natural -/

section RoundNat
variable (mode : Rnd) (neg : Bool) {q : Nat × Nat} (hq : 0 < q.2)
include hq

/-- A rounded quotient is the quotient's floor or the natural above. -/
theorem roundNat_floor : (roundNat mode neg q : ℚ) = (q.1 / q.2 : Nat) ∨
    (roundNat mode neg q : ℚ) = (q.1 / q.2 : Nat) + 1 ∧ q.1 % q.2 ≠ 0 := by
  unfold roundNat
  split
  next h =>
    refine .inr ⟨by push_cast; ring, fun h0 => ?_⟩
    rw [h0] at h
    cases mode <;> simp [roundUp, hq.ne] at h
  next => exact .inl rfl

theorem div_floor : ((q.1 / q.2 : Nat) : ℚ) ≤ (q.1 : ℚ) / q.2 ∧ (q.1 : ℚ) / q.2 < (q.1 / q.2 : Nat) + 1 := by
  have hpos : (0 : ℚ) < q.2 := by exact_mod_cast hq
  refine ⟨Nat.cast_div_le, (div_lt_iff₀ hpos).2 ?_⟩
  exact_mod_cast Nat.lt_mul_of_div_lt (Nat.lt_succ_self _) hq

theorem roundNat_exact {k : Nat} (h : (q.1 : ℚ) / q.2 = k) : roundNat mode neg q = k := by
  have hpos : (q.2 : ℚ) ≠ 0 := by exact_mod_cast hq.ne'
  have hk : q.1 = k * q.2 := by exact_mod_cast (div_eq_iff hpos).1 h
  have hdiv : q.1 / q.2 = k := by rw [hk, Nat.mul_div_cancel _ hq]
  rcases roundNat_floor mode neg hq with hr | ⟨-, hr⟩
  · rw [hdiv] at hr
    exact_mod_cast hr
  · exact absurd (by rw [hk, Nat.mul_mod_left]) hr

omit hq in
theorem roundNat_rz : roundNat .rz neg q = q.1 / q.2 := by simp [roundNat, roundUp]

/-- Rounding to nearest is off by half a unit at most. -/
theorem roundNat_rn : |(roundNat .rn neg q : ℚ) - (q.1 : ℚ) / q.2| ≤ 1 / 2 := by
  have hpos : (0 : ℚ) < q.2 := by exact_mod_cast hq
  have hdiv : (q.1 : ℚ) / q.2 = (q.1 / q.2 : Nat) + ((q.1 % q.2 : Nat) : ℚ) / q.2 := by
    have hmod : (q.1 : ℚ) = q.2 * (q.1 / q.2 : Nat) + (q.1 % q.2 : Nat) := by exact_mod_cast (Nat.div_add_mod q.1 q.2).symm
    rw [div_eq_iff hpos.ne', add_mul, div_mul_cancel₀ _ hpos.ne', mul_comm]
    exact hmod
  have hlt : ((q.1 % q.2 : Nat) : ℚ) / q.2 ≤ 1 := by
    rw [div_le_one hpos]
    exact_mod_cast (Nat.mod_lt _ hq).le
  have hnonneg : (0 : ℚ) ≤ ((q.1 % q.2 : Nat) : ℚ) / q.2 := by positivity
  rw [hdiv, roundNat]
  split
  next h =>
    have hhalf : (1 : ℚ) / 2 ≤ ((q.1 % q.2 : Nat) : ℚ) / q.2 := by
      rw [div_le_div_iff₀ two_pos hpos, one_mul]
      simp only [roundUp, Bool.or_eq_true, Bool.and_eq_true, decide_eq_true_eq] at h
      exact_mod_cast (show q.2 ≤ q.1 % q.2 * 2 by omega)
    push_cast
    rw [abs_le]
    constructor <;> linarith
  next h =>
    have hhalf : ((q.1 % q.2 : Nat) : ℚ) / q.2 ≤ 1 / 2 := by
      rw [div_le_div_iff₀ hpos two_pos, one_mul]
      simp only [roundUp, Bool.or_eq_true, Bool.and_eq_true, decide_eq_true_eq] at h
      exact_mod_cast (show q.1 % q.2 * 2 ≤ q.2 by omega)
    rw [abs_le]
    constructor <;> linarith

end RoundNat

/-! ### Rounding to FP32 -/

section FP32
variable {num den : Nat} (hn : num ≠ 0) (hd : den ≠ 0) (e : Int)
include hn hd

theorem value_binade : (2 : ℚ) ^ (log2Rat num den + e) ≤ num / den * 2 ^ e ∧
    (num : ℚ) / den * 2 ^ e < 2 ^ (log2Rat num den + e + 1) := by
  obtain ⟨h1, h2⟩ := log2Rat_binade hn hd
  rw [show log2Rat num den + e + 1 = log2Rat num den + 1 + e by ring, two_zpow_add, two_zpow_add]
  constructor <;> gcongr

/-- The last place kept is that of the value's binade, or of the subnormals. -/
theorem lastPlace_of_binade {l : Int} (h1 : (2 : ℚ) ^ l ≤ num / den * 2 ^ e) (h2 : (num : ℚ) / den * 2 ^ e < 2 ^ (l + 1)) :
    lastPlace 23 num den e = max (l - 23) (-149) := by
  obtain ⟨h3, h4⟩ := value_binade hn hd e
  rw [lastPlace, binade_unique h1 h2 h3 h4]
  rfl

omit hn in
theorem scaled_value : ((shiftRat num den (e - lastPlace 23 num den e)).1 : ℚ) /
    (shiftRat num den (e - lastPlace 23 num den e)).2 = num / den * 2 ^ e / 2 ^ lastPlace 23 num den e := by
  rw [shiftRat_div num (Nat.pos_of_ne_zero hd), two_zpow_sub, mul_div_assoc]

/-- The kept significand has 24 bits, or is subnormal, or carries. -/
theorem keptBits_range (mode : Rnd) (neg : Bool) : keptBits mode 23 neg num den e ≤ 2 ^ 24 ∧
    (lastPlace 23 num den e = -149 ∨ 2 ^ 23 ≤ keptBits mode 23 neg num den e) := by
  obtain ⟨h1, h2⟩ := value_binade hn hd e
  have hq := shiftRat_snd_pos num (Nat.pos_of_ne_zero hd) (e - lastPlace 23 num den e)
  obtain ⟨hf1, hf2⟩ := div_floor hq
  rw [scaled_value hd e] at hf1 hf2
  have hplace : lastPlace 23 num den e = max (log2Rat num den + e - 23) (-149) := lastPlace_of_binade hn hd e h1 h2
  have hlt : (num : ℚ) / den * 2 ^ e / 2 ^ lastPlace 23 num den e < 2 ^ 24 := by
    rw [div_lt_iff₀ (two_zpow_pos _)]
    refine h2.trans_le ?_
    rw [← zpow_natCast, ← two_zpow_add, two_zpow_le, hplace]
    omega
  have hfloor : ((shiftRat num den (e - lastPlace 23 num den e)).1 / (shiftRat num den (e - lastPlace 23 num den e)).2) < 2 ^ 24 := by
    exact_mod_cast hf1.trans_lt hlt
  have hcases := roundNat_floor mode neg hq
  refine ⟨?_, or_iff_not_imp_left.2 fun hne => ?_⟩
  · rcases hcases with h | ⟨h, -⟩
    · exact (Nat.cast_injective (R := ℚ) h).le.trans hfloor.le
    · exact (Nat.cast_injective (R := ℚ) (h.trans (Nat.cast_succ _).symm)).le.trans hfloor
  · have hge : (2 : ℚ) ^ 23 ≤ num / den * 2 ^ e / 2 ^ lastPlace 23 num den e := by
      rw [le_div_iff₀ (two_zpow_pos _), ← zpow_natCast, ← two_zpow_add]
      refine le_trans (two_zpow_le.2 ?_) h1
      rw [hplace] at hne ⊢
      omega
    have hfloor' : 2 ^ 23 ≤ (shiftRat num den (e - lastPlace 23 num den e)).1 / (shiftRat num den (e - lastPlace 23 num den e)).2 := by
      exact_mod_cast Nat.lt_succ_iff.1 (by exact_mod_cast hge.trans_lt hf2)
    rcases hcases with h | ⟨h, -⟩
    · exact hfloor'.trans (Nat.cast_injective (R := ℚ) h).ge
    · exact (hfloor'.trans (Nat.le_succ _)).trans (Nat.cast_injective (R := ℚ) (h.trans (Nat.cast_succ _).symm)).ge

/-- The code of a rounding stands for what it kept. -/
theorem codeQ_unboundedCode (mode : Rnd) (neg : Bool) : codeQ (unboundedCode mode 23 neg num den e) =
    keptBits mode 23 neg num den e * 2 ^ lastPlace 23 num den e := by
  obtain ⟨h1, h2⟩ := keptBits_range hn hd e mode neg
  have hplace : -149 ≤ lastPlace 23 num den e := le_max_right _ _
  rw [← codeQ_of_lastPlace hplace h1 h2, unboundedCode]
  congr 3
  omega

theorem codeQ_roundCode_of_fits {mode : Rnd} {neg : Bool}
    (h : (keptBits mode 23 neg num den e : ℚ) * 2 ^ lastPlace 23 num den e < 2 ^ (128 : Int)) :
    (roundCode mode 23 neg num den e).1 = unboundedCode mode 23 neg num den e ∧
      codeQ (roundCode mode 23 neg num den e).1 = keptBits mode 23 neg num den e * 2 ^ lastPlace 23 num den e := by
  rw [← codeQ_unboundedCode hn hd e mode neg, ← codeQ_inf, codeQ_strictMono.lt_iff_lt] at h
  have hc : (roundCode mode 23 neg num den e).1 = unboundedCode mode 23 neg num den e := by
    rw [roundCode_fst mode 23 neg den e hn, if_neg (by omega)]
  exact ⟨hc, by rw [hc, codeQ_unboundedCode hn hd e mode neg]⟩

/-- A value that a pattern stands for is rounded to it in every mode. -/
theorem codeQ_roundCode_exact (mode : Rnd) (neg : Bool) {k : Nat} (h : (num : ℚ) / den * 2 ^ e < 2 ^ (128 : Int))
    (hk : (num : ℚ) / den * 2 ^ e = k * 2 ^ lastPlace 23 num den e) :
    codeQ (roundCode mode 23 neg num den e).1 = num / den * 2 ^ e := by
  have hkept : keptBits mode 23 neg num den e = k := by
    refine roundNat_exact mode neg (shiftRat_snd_pos num (Nat.pos_of_ne_zero hd) _) ?_
    rw [scaled_value hd e, hk, mul_div_cancel_right₀ _ (two_zpow_pos _).ne']
  rw [hk] at h ⊢
  rw [← hkept] at h ⊢
  exact (codeQ_roundCode_of_fits hn hd e h).2

/-- A power of two in range is rounded to itself. -/
theorem codeQ_roundCode_two_zpow (mode : Rnd) (neg : Bool) {n : Int} (h1 : -149 ≤ n) (h2 : n ≤ 127)
    (hv : (num : ℚ) / den * 2 ^ e = 2 ^ n) : codeQ (roundCode mode 23 neg num den e).1 = 2 ^ n := by
  have hplace : lastPlace 23 num den e = max (n - 23) (-149) :=
    lastPlace_of_binade hn hd e hv.ge (by rw [hv, two_zpow_lt]; omega)
  rw [← hv]
  refine codeQ_roundCode_exact hn hd e mode neg (k := 2 ^ (n - lastPlace 23 num den e).toNat) ?_ ?_
  · rw [hv, two_zpow_lt]
    omega
  · push_cast
    rw [two_pow_toNat (by omega), ← two_zpow_add, hv]
    congr 1
    ring

omit hn in
/-- Rounding toward zero keeps what stands below, by less than a unit of the last place. -/
theorem keptBits_rz (neg : Bool) : (keptBits .rz 23 neg num den e : ℚ) * 2 ^ lastPlace 23 num den e ≤ num / den * 2 ^ e ∧
    (num : ℚ) / den * 2 ^ e <
      keptBits .rz 23 neg num den e * 2 ^ lastPlace 23 num den e + 2 ^ lastPlace 23 num den e := by
  obtain ⟨hf1, hf2⟩ := div_floor (shiftRat_snd_pos num (Nat.pos_of_ne_zero hd) (e - lastPlace 23 num den e))
  rw [scaled_value hd e, ← roundNat_rz neg] at hf1 hf2
  refine ⟨(le_div_iff₀ (two_zpow_pos _)).1 hf1, ((div_lt_iff₀ (two_zpow_pos _)).1 hf2).trans_eq ?_⟩
  rw [add_mul, one_mul]
  rfl

omit hn in
theorem keptBits_rn (neg : Bool) : |(keptBits .rn 23 neg num den e : ℚ) * 2 ^ lastPlace 23 num den e - num / den * 2 ^ e| ≤
    2 ^ lastPlace 23 num den e / 2 := by
  have h := roundNat_rn neg (shiftRat_snd_pos num (Nat.pos_of_ne_zero hd) (e - lastPlace 23 num den e))
  rw [scaled_value hd e] at h
  have hpos := two_zpow_pos (lastPlace 23 num den e)
  calc |(keptBits .rn 23 neg num den e : ℚ) * 2 ^ lastPlace 23 num den e - num / den * 2 ^ e|
      = |(keptBits .rn 23 neg num den e : ℚ) - num / den * 2 ^ e / 2 ^ lastPlace 23 num den e| *
          2 ^ lastPlace 23 num den e := by
        rw [← abs_of_pos hpos, ← abs_mul, abs_of_pos hpos, sub_mul, div_mul_cancel₀ _ hpos.ne']
    _ ≤ 1 / 2 * 2 ^ lastPlace 23 num den e := mul_le_mul_of_nonneg_right h hpos.le
    _ = 2 ^ lastPlace 23 num den e / 2 := by ring

/-- A value below the midpoint between the largest pattern and 2^128 does not round to an infinity. -/
theorem keptBits_rn_fits (neg : Bool) (h : (num : ℚ) / den * 2 ^ e < 2 ^ (128 : Int) - 2 ^ (103 : Int)) :
    (keptBits .rn 23 neg num den e : ℚ) * 2 ^ lastPlace 23 num den e < 2 ^ (128 : Int) := by
  obtain ⟨h1, h2⟩ := value_binade hn hd e
  have hl : log2Rat num den + e < 128 := two_zpow_lt.1 (h1.trans_lt (h.trans (by norm_num)))
  have hplace : lastPlace 23 num den e ≤ 104 := by
    rw [lastPlace_of_binade hn hd e h1 h2]
    omega
  have hhalf : (2 : ℚ) ^ lastPlace 23 num den e / 2 ≤ 2 ^ (103 : Int) := by
    have := two_zpow_le.2 hplace
    norm_num at this ⊢
    linarith
  have := (abs_le.1 (keptBits_rn (num := num) hd e neg)).2
  linarith

/-- Rounding to nearest is off by half a unit of the last place at most. -/
theorem codeQ_roundCode_rn (neg : Bool) (h : (num : ℚ) / den * 2 ^ e < 2 ^ (128 : Int) - 2 ^ (103 : Int)) :
    |codeQ (roundCode .rn 23 neg num den e).1 - num / den * 2 ^ e| ≤ 2 ^ lastPlace 23 num den e / 2 := by
  rw [(codeQ_roundCode_of_fits hn hd e (keptBits_rn_fits hn hd e neg h)).2]
  exact keptBits_rn hd e neg

theorem roundCode_rn_fits (neg : Bool) (h : (num : ℚ) / den * 2 ^ e < 2 ^ (128 : Int) - 2 ^ (103 : Int)) :
    fOF &&& (roundCode .rn 23 neg num den e).2 = 0 := by
  have hfits := keptBits_rn_fits hn hd e neg h
  rw [← codeQ_unboundedCode hn hd e .rn neg, ← codeQ_inf, codeQ_strictMono.lt_iff_lt] at hfits
  exact not_not.1 (mt (roundCode_overflows .rn 23 neg den e hn).1 (by omega))

/-- A value from 2^128 on rounds to an infinity or the largest pattern, with OF. -/
theorem lt_of_roundCode_fits (mode : Rnd) (neg : Bool) (h : fOF &&& (roundCode mode 23 neg num den e).2 = 0) :
    (num : ℚ) / den * 2 ^ e < 2 ^ (128 : Int) := by
  refine lt_of_not_ge fun hge => (roundCode_overflows mode 23 neg den e hn).2 ?_ h
  obtain ⟨h1, h2⟩ := value_binade hn hd e
  have hl : 128 ≤ log2Rat num den + e := by
    have := two_zpow_lt.1 (hge.trans_lt h2)
    omega
  have hplace : lastPlace 23 num den e = log2Rat num den + e - 23 := by
    rw [lastPlace_of_binade hn hd e h1 h2]
    omega
  have hkept : 2 ^ 23 ≤ keptBits mode 23 neg num den e :=
    (keptBits_range hn hd e mode neg).2.resolve_left (by omega)
  rw [← codeQ_strictMono.le_iff_le, codeQ_inf, codeQ_unboundedCode hn hd e mode neg, hplace]
  calc (2 : ℚ) ^ (128 : Int) ≤ 2 ^ (23 + (log2Rat num den + e - 23)) := two_zpow_le.2 (by omega)
    _ = 2 ^ (23 : Int) * 2 ^ (log2Rat num den + e - 23) := two_zpow_add _ _
    _ ≤ keptBits mode 23 neg num den e * 2 ^ (log2Rat num den + e - 23) :=
      mul_le_mul_of_nonneg_right (by exact_mod_cast hkept) (two_zpow_pos _).le

end FP32
end Sys2Proof.Numbers

namespace Sys2Proof.Numbers
open Sys2Proof Sys2Proof.Machine

/-! ## The codes near an enclosed value (R75) -/

/-- A significand brought to a lower exponent is the same number. -/
theorem shifted_eq {k e0 : Int} (h : e0 ≤ k) (x : Nat) : ((x * 2 ^ (k - e0).toNat : Nat) : ℚ) * 2 ^ e0 = x * 2 ^ k := by
  push_cast
  rw [two_pow_toNat (by omega), mul_assoc, ← two_zpow_add, sub_add_cancel]

/-- The candidates of `within`: those up to three codes from the lower end, rounded toward zero. -/
def nearCodes (lo : Nat) (e : Int) : List Nat :=
  (((List.range 7).map (fun i => (roundCode .rz 23 false lo 1 e).1 + i)).filter (fun c => decide (3 ≤ c))).map (· - 3)

theorem self_mem_nearCodes (lo : Nat) (e : Int) : (roundCode .rz 23 false lo 1 e).1 ∈ nearCodes lo e := by
  refine List.mem_map.2 ⟨(roundCode .rz 23 false lo 1 e).1 + 3, List.mem_filter.2 ⟨?_, by simp⟩, by simp⟩
  exact List.mem_map.2 ⟨3, by simp, rfl⟩

/-- The codes of `within` are the candidates in range that stand within the bound of the enclosure. -/
theorem mem_within {b2 lo hi : Nat} {e : Int} {c : Nat} : c ∈ within b2 lo hi e ↔ c ∈ nearCodes lo e ∧ c ≤ 255 * 2 ^ 23 ∧
    (lo : ℚ) * 2 ^ e - b2 * 2 ^ (ulpExp lo e - 1) ≤ codeQ c ∧ codeQ c ≤ hi * 2 ^ e + b2 * 2 ^ (ulpExp lo e - 1) := by
  set e0 := min (min e (ulpExp lo e - 1)) (codeMag c).2 with he0
  have hlo := shifted_eq (show e0 ≤ e by omega) lo
  have hhi := shifted_eq (show e0 ≤ e by omega) hi
  have hb := shifted_eq (show e0 ≤ ulpExp lo e - 1 by omega) b2
  have hc : ((_ : Nat) : ℚ) * _ = codeQ c := shifted_eq (show e0 ≤ (codeMag c).2 by omega) (codeMag c).1
  rw [← hlo, ← hhi, ← hb, ← hc, ← sub_mul, ← add_mul, mul_le_mul_iff_left₀ (two_zpow_pos e0),
    mul_le_mul_iff_left₀ (two_zpow_pos e0)]
  simp only [within, List.mem_filter, Bool.and_eq_true, decide_eq_true_eq]
  refine and_congr Iff.rfl (and_congr_right fun _ => and_congr ?_ ?_)
  · rw [← Int.cast_le (R := ℚ)]
    push_cast
    rfl
  · rw [← Int.cast_le (R := ℚ)]
    push_cast
    rfl

theorem within_le {b2 lo hi : Nat} {e : Int} {c : Nat} (h : c ∈ within b2 lo hi e) : c ≤ 255 * 2 ^ 23 := (mem_within.1 h).2.1

theorem lastPlace_nat {lo : Nat} (h0 : lo ≠ 0) (e : Int) : lastPlace 23 lo 1 e = ulpExp lo e := by
  obtain ⟨h1, h2⟩ := log2_binade h0
  refine lastPlace_of_binade h0 one_ne_zero e (l := lo.log2 + e) ?_ ?_
  · rw [two_zpow_add, Nat.cast_one, div_one]
    gcongr
  · rw [show (lo.log2 : Int) + e + 1 = lo.log2 + 1 + e by ring, two_zpow_add, Nat.cast_one, div_one]
    gcongr

/-- The lower end rounded toward zero is a multiple of the ulp, below the lower end by less than an ulp. -/
theorem lowCode_bounds {lo : Nat} {e : Int} (h : (lo : ℚ) * 2 ^ e < 2 ^ (128 : Int)) : ∃ k : Nat,
    codeQ (roundCode .rz 23 false lo 1 e).1 = k * 2 ^ ulpExp lo e ∧ (k : ℚ) * 2 ^ ulpExp lo e ≤ lo * 2 ^ e ∧
    (lo : ℚ) * 2 ^ e < k * 2 ^ ulpExp lo e + 2 ^ ulpExp lo e := by
  rcases eq_or_ne lo 0 with rfl | h0
  · refine ⟨0, ?_, ?_, ?_⟩
    · norm_num [codeQ, codeMag]
    · norm_num
    · norm_num
      positivity
  · have hv : (lo : ℚ) / (1 : Nat) * 2 ^ e = lo * 2 ^ e := by simp
    obtain ⟨hle, hlt⟩ := keptBits_rz (num := lo) one_ne_zero e false
    have hcode := (codeQ_roundCode_of_fits h0 one_ne_zero e (hle.trans_lt (by rwa [hv]))).2
    rw [hv, lastPlace_nat h0] at hle hlt
    rw [lastPlace_nat h0] at hcode
    exact ⟨_, hcode, hle, hlt⟩

/-- Where the enclosure is finer than the ulp, its upper end one unit above stays within the ulp. -/
theorem lowCode_gap {lo : Nat} {e : Int} (h : (lo : ℚ) * 2 ^ e < 2 ^ (128 : Int)) (he : e ≤ ulpExp lo e) :
    ((lo : ℚ) + 1) * 2 ^ e ≤ codeQ (roundCode .rz 23 false lo 1 e).1 + 2 ^ ulpExp lo e := by
  obtain ⟨k, hk, -, hlt⟩ := lowCode_bounds h
  have hscale := shifted_eq he (k + 1)
  have hsplit : (k : ℚ) * 2 ^ ulpExp lo e + 2 ^ ulpExp lo e = ((k + 1 : Nat) : ℚ) * 2 ^ ulpExp lo e := by push_cast; ring
  rw [hk, hsplit, ← hscale]
  rw [hsplit, ← hscale] at hlt
  refine mul_le_mul_of_nonneg_right ?_ (two_zpow_pos e).le
  exact_mod_cast (mul_lt_mul_iff_left₀ (two_zpow_pos e)).1 hlt

/-- An enclosure in range has a code near it. -/
theorem lowCode_mem_within {b2 lo hi : Nat} {e : Int} (hb : 2 ≤ b2) (hle : lo ≤ hi) (h : (lo : ℚ) * 2 ^ e < 2 ^ (128 : Int)) :
    (roundCode .rz 23 false lo 1 e).1 ∈ within b2 lo hi e := by
  obtain ⟨k, hk, h1, h2⟩ := lowCode_bounds h
  have hulp : (2 : ℚ) ^ ulpExp lo e ≤ b2 * 2 ^ (ulpExp lo e - 1) := by
    rw [two_zpow_sub, zpow_one, mul_div_assoc', le_div_iff₀ two_pos, mul_comm]
    gcongr
    exact_mod_cast hb
  have hhi : (lo : ℚ) * 2 ^ e ≤ hi * 2 ^ e := by gcongr
  have hpos := two_zpow_pos (ulpExp lo e)
  exact mem_within.2 ⟨self_mem_nearCodes lo e, roundCode_le .rz 23 false 1 e, by rw [hk]; linarith, by rw [hk]; linarith⟩

theorem within_ne_nil {b2 lo hi : Nat} {e : Int} (hb : 2 ≤ b2) (hle : lo ≤ hi) (h : (lo : ℚ) * 2 ^ e < 2 ^ (128 : Int)) :
    within b2 lo hi e ≠ [] := List.ne_nil_of_mem (lowCode_mem_within hb hle h)

/-- The ulp at the lower end is at most the one at the binade of a number that is not below it. -/
theorem two_zpow_ulpExp_le {lo : Nat} {e l : Int} (h0 : lo ≠ 0) (h : (lo : ℚ) * 2 ^ e < 2 ^ (l + 1)) :
    (2 : ℚ) ^ ulpExp lo e ≤ ulpQ l := by
  have hl : (lo.log2 : Int) + e < l + 1 := by
    refine two_zpow_lt.1 (lt_of_le_of_lt ?_ h)
    rw [two_zpow_add]
    exact mul_le_mul_of_nonneg_right (log2_binade h0).1 (two_zpow_pos e).le
  refine two_zpow_le.2 ?_
  rw [ulpExp]
  omega

end Sys2Proof.Numbers

namespace Sys2Proof.Numbers
open Sys2Proof Sys2Proof.Machine

/-! ## RCP (R75, R76, R360) -/

/-! ### The answer among the allowed patterns (log 8) -/

theorem pick_mem (op : Nat) (key : Word) {l : List Word} (h : l ≠ []) : pick op key l ∈ l := by
  have hlt : Config.sfuChoice op key % l.length < l.length := Nat.mod_lt _ (List.length_pos_of_ne_nil h)
  rw [pick, List.getD_eq_getElem _ _ hlt]
  exact List.getElem_mem hlt

@[simp] theorem pick_singleton (op : Nat) (key w : Word) : pick op key [w] = w :=
  List.mem_singleton.1 (pick_mem op key (List.cons_ne_nil w []))

/-! ### Numbers at a scale of 2^1000 -/

theorem atScale_eq (n : Nat) {x : Int} (h : -1000 ≤ x) : (atScale n x : ℚ) = n * 2 ^ x * 2 ^ (1000 : Int) := by
  rw [atScale]
  push_cast
  rw [two_pow_toNat (by omega), two_zpow_add, mul_assoc]

theorem atScale_le_iff {n k : Nat} {x y : Int} (hx : -1000 ≤ x) (hy : -1000 ≤ y) :
    atScale n x ≤ atScale k y ↔ (n : ℚ) * 2 ^ x ≤ k * 2 ^ y := by
  rw [← Nat.cast_le (α := ℚ), atScale_eq n hx, atScale_eq k hy, mul_le_mul_iff_left₀ (two_zpow_pos _)]

/-- A code passes where it is within an ulp of the reciprocal. -/
theorem recipOk_iff {m : Nat} (hm : m ≠ 0) {e q : Int} (c : Nat) (he : -500 ≤ e) (hq : -500 ≤ q) :
    recipOk m e q c = true ↔ |codeQ c - 1 / ((m : ℚ) * 2 ^ e)| ≤ 2 ^ q := by
  have hx : (0 : ℚ) < (m : ℚ) * 2 ^ e := by positivity
  have hc := codeMag_exp_ge c
  have hp : (atScale ((codeMag c).1 * m) ((codeMag c).2 + e) : ℚ) = codeQ c * (m * 2 ^ e) * 2 ^ (1000 : Int) := by
    rw [atScale_eq _ (by omega), two_zpow_add, codeQ]
    push_cast
    ring
  have hu : (atScale m (q + e) : ℚ) = 2 ^ q * (m * 2 ^ e) * 2 ^ (1000 : Int) := by
    rw [atScale_eq _ (by omega), two_zpow_add]
    ring
  have h1 : (atScale 1 0 : ℚ) = 1 * 2 ^ (1000 : Int) := by rw [atScale_eq 1 (by omega)]; norm_num
  rw [recipOk, decide_eq_true_eq, ← Nat.cast_le (α := ℚ), ← Nat.cast_le (α := ℚ), Nat.cast_add, Nat.cast_add, hp, hu, h1,
    ← add_mul, ← add_mul, mul_le_mul_iff_left₀ (two_zpow_pos _), mul_le_mul_iff_left₀ (two_zpow_pos _), abs_le,
    neg_le_sub_iff_le_add, sub_le_iff_le_add, div_le_iff₀ hx, add_mul, and_comm]
  refine and_congr Iff.rfl ?_
  rw [← mul_le_mul_iff_left₀ hx (b := codeQ c), add_mul, div_mul_cancel₀ _ hx.ne', add_comm 1]

theorem one_div_scaled (m : Nat) (e : Int) : ((1 : Nat) : ℚ) / m * 2 ^ (-e) = 1 / ((m : ℚ) * 2 ^ e) := by
  rw [zpow_neg, Nat.cast_one, ← one_div, ← one_div_mul_one_div]

section Fin
variable {b : Word} {s : Bool} {m : Nat} {e : Int} (hb : valOfFP32 b = .fin s m e) (hm : m ≠ 0)
include hb hm

/-- An operand's exponent field is 0 where its significand is below the normal ones. -/
theorem expField_ne_zero_iff : b.toNat / 2 ^ 23 % 256 ≠ 0 ↔ 2 ^ 23 ≤ m := by
  obtain ⟨-, hc, -⟩ := valOfFP32_fin hb
  have hexp : b.toNat % 2 ^ 31 / 2 ^ 23 = b.toNat / 2 ^ 23 % 256 := by omega
  simp only [codeMag, hexp] at hc
  split at hc <;> cases hc <;> omega

theorem rcpList_fin : rcpList b =
    if (2 ^ m.log2 = m ∧ b.toNat / 2 ^ 23 % 256 ≠ 0) ∨ fOF &&& (roundCode .rn 23 s 1 m (-e)).2 ≠ 0 then
      [signed s (roundCode .rn 23 s 1 m (-e)).1]
    else ((within 2 (2 ^ 400 / m) (2 ^ 400 / m + 1) (-e - 400)).filter
      (recipOk m e (ulpExp (2 ^ 400 / m) (-e - 400)))).map (signed s) := by
  simp only [rcpList, hb, if_neg hm]

/-- Every answer of RCP is a code with the operand's sign. -/
theorem rcpList_signed {w : Word} (hw : w ∈ rcpList b) : ∃ c, c ≤ 255 * 2 ^ 23 ∧ w = signed s c := by
  rw [rcpList_fin hb hm] at hw
  split at hw
  · exact ⟨_, roundCode_le _ _ _ _ _, List.mem_singleton.1 hw⟩
  · obtain ⟨c, hc, rfl⟩ := List.mem_map.1 hw
    exact ⟨c, within_le (List.mem_filter.1 hc).1, rfl⟩

omit hb hm in
/-- A power of two has a power of two for its significand. -/
theorem sig_of_two_zpow {k : Int} (hk : (m : ℚ) * 2 ^ e = 2 ^ k) : ∃ j : Nat, m = 2 ^ j ∧ k = j + e := by
  have hmk : (m : ℚ) = 2 ^ (k - e) := by rw [two_zpow_sub, eq_div_iff (two_zpow_pos e).ne', hk]
  have hm1 : (1 : ℚ) ≤ m := by
    rcases Nat.eq_zero_or_pos m with rfl | h
    · exact absurd hmk (by simpa using (two_zpow_pos (k - e)).ne)
    · exact_mod_cast h
  have hle : 0 ≤ k - e := by
    rw [hmk, ← zpow_zero (2 : ℚ), two_zpow_le] at hm1
    exact hm1
  refine ⟨(k - e).toNat, ?_, by omega⟩
  rw [← two_pow_toNat hle] at hmk
  exact_mod_cast hmk

omit hb in
/-- The reciprocal of a power of two in range is exact. -/
theorem codeQ_rcp_two_zpow {k : Int} (h1 : k ≤ 149) (h2 : -127 ≤ k) (hk : (m : ℚ) * 2 ^ e = 2 ^ k) :
    codeQ (roundCode .rn 23 s 1 m (-e)).1 = 2 ^ (-k) := by
  refine codeQ_roundCode_two_zpow one_ne_zero hm _ _ _ (by omega) (by omega) ?_
  rw [one_div_scaled, hk, zpow_neg, one_div]

theorem rcp_normal_two_zpow {k : Int} (h1 : k ≤ 127) (h2 : -126 ≤ k) (hk : (m : ℚ) * 2 ^ e = 2 ^ k) :
    magQ (rcpVal b) = 2 ^ (-k) := by
  obtain ⟨j, rfl, hj⟩ := sig_of_two_zpow hk
  obtain ⟨-, he1, -, hnorm⟩ := fin_range hb
  have hnormal : b.toNat / 2 ^ 23 % 256 ≠ 0 := by
    refine (expField_ne_zero_iff hb hm).2 ?_
    rcases hnorm with rfl | hnorm
    · exact Nat.pow_le_pow_right two_pos (by omega)
    · exact hnorm
  rw [rcpVal, rcpList_fin hb hm, if_pos (.inl ⟨by rw [Nat.log2_two_pow], hnormal⟩), pick_singleton,
    magQ_signed s (roundCode_le _ _ _ _ _), codeQ_rcp_two_zpow hm (by omega) (by omega) hk]

/-- The fixed-point quotient encloses the reciprocal, and has more bits than a significand. -/
theorem rcp_enclosed : (((2 ^ 400 / m : Nat) : ℚ)) * 2 ^ (-e - 400) ≤ 1 / ((m : ℚ) * 2 ^ e) ∧
    1 / ((m : ℚ) * 2 ^ e) < (((2 ^ 400 / m : Nat) : ℚ) + 1) * 2 ^ (-e - 400) ∧ 2 ^ 23 ≤ 2 ^ 400 / m := by
  have hpos : 0 < m := Nat.pos_of_ne_zero hm
  have hm24 := (fin_range hb).1
  obtain ⟨h1, h2⟩ := div_floor (q := (2 ^ 400, m)) hpos
  have hrec : 1 / ((m : ℚ) * 2 ^ e) = ((2 ^ 400 : Nat) : ℚ) / m * 2 ^ (-e - 400) := by
    rw [two_zpow_sub, zpow_neg, Nat.cast_pow, Nat.cast_ofNat, ← zpow_natCast]
    have h400 := (two_zpow_pos 400).ne'
    have he := (two_zpow_pos e).ne'
    have hm' : (m : ℚ) ≠ 0 := by exact_mod_cast hm
    push_cast
    field_simp
  rw [hrec]
  refine ⟨mul_le_mul_of_nonneg_right h1 (two_zpow_pos _).le, mul_lt_mul_of_pos_right h2 (two_zpow_pos _), ?_⟩
  rw [Nat.le_div_iff_mul_le hpos]
  calc 2 ^ 23 * m ≤ 2 ^ 23 * 2 ^ 24 := Nat.mul_le_mul_left _ hm24.le
    _ = 2 ^ 47 := by norm_num
    _ ≤ 2 ^ 400 := Nat.pow_le_pow_right two_pos (by omega)

/-- RCP is within one ulp of the reciprocal, where that does not round to an infinity (R75). -/
theorem rcp_within {w : Word} (hw : w ∈ rcpList b) (hfit : 1 / ((m : ℚ) * 2 ^ e) < 2 ^ (128 : Int) - 2 ^ (103 : Int))
    {l : Int} (hl : 1 / ((m : ℚ) * 2 ^ e) < 2 ^ (l + 1)) : |magQ w - 1 / ((m : ℚ) * 2 ^ e)| ≤ ulpQ l := by
  obtain ⟨hm24, he1, he2, -⟩ := fin_range hb
  rw [rcpList_fin hb hm] at hw
  split at hw
  next hexact =>
    have hnofit : fOF &&& (roundCode .rn 23 s 1 m (-e)).2 = 0 :=
      roundCode_rn_fits one_ne_zero hm (-e) s (by rwa [one_div_scaled])
    obtain ⟨hpow, hnormal⟩ := hexact.resolve_right (not_not.2 hnofit)
    have h23 := (expField_ne_zero_iff hb hm).1 hnormal
    have hlog : m.log2 = 23 := (Nat.log2_eq_iff hm).2 ⟨h23, hm24⟩
    have hk : (m : ℚ) * 2 ^ e = 2 ^ (23 + e) := by rw [two_zpow_add, ← hpow, hlog]; norm_num
    rw [List.mem_singleton.1 hw, magQ_signed s (roundCode_le _ _ _ _ _), codeQ_rcp_two_zpow hm (by omega) (by omega) hk, hk,
      zpow_neg, one_div, sub_self, abs_zero]
    exact (two_zpow_pos _).le
  next =>
    obtain ⟨c, hc, rfl⟩ := List.mem_map.1 hw
    obtain ⟨hin, hok⟩ := List.mem_filter.1 hc
    obtain ⟨hlo, -, h23⟩ := rcp_enclosed hb hm
    rw [magQ_signed s (within_le hin)]
    refine ((recipOk_iff hm c (by omega) (by unfold ulpExp; omega)).1 hok).trans ?_
    exact two_zpow_ulpExp_le (by omega) (hlo.trans_lt hl)

theorem rcpList_fin_ne_nil : rcpList b ≠ [] := by
  obtain ⟨-, he1, he2, -⟩ := fin_range hb
  rw [rcpList_fin hb hm]
  split
  · exact List.cons_ne_nil _ _
  next hexact =>
    obtain ⟨hlo, hhi, h23⟩ := rcp_enclosed hb hm
    have h0 : 2 ^ 400 / m ≠ 0 := by omega
    have hlog : 23 ≤ (2 ^ 400 / m).log2 := (Nat.le_log2 h0).2 h23
    have hnofit := not_not.1 (mt Or.inr hexact)
    have hlt := lt_of_roundCode_fits one_ne_zero hm (-e) .rn s hnofit
    rw [one_div_scaled] at hlt
    have hfit : ((2 ^ 400 / m : Nat) : ℚ) * 2 ^ (-e - 400) < 2 ^ (128 : Int) := hlo.trans_lt hlt
    obtain ⟨k, hk, hle, -⟩ := lowCode_bounds hfit
    have hgap := lowCode_gap hfit (by unfold ulpExp; omega)
    refine List.map_eq_nil_iff.not.2 (List.ne_nil_of_mem (List.mem_filter.2
      ⟨lowCode_mem_within le_rfl (Nat.le_succ _) hfit, ?_⟩))
    rw [recipOk_iff hm _ (by omega) (by unfold ulpExp; omega), abs_le]
    have hpos := two_zpow_pos (ulpExp (2 ^ 400 / m) (-e - 400))
    constructor <;> linarith

/-- A finite operand other than 0 is between the least subnormal and 2^128. -/
theorem fin_bounds :
    (2 : ℚ) ^ (-149 : Int) ≤ (m : ℚ) * 2 ^ e ∧ (m : ℚ) * 2 ^ e < 2 ^ (128 : Int) := by
  obtain ⟨hm24, he1, he2, -⟩ := fin_range hb
  have h1 : (1 : ℚ) ≤ m := by exact_mod_cast Nat.pos_of_ne_zero hm
  have h2 : (m : ℚ) < 2 ^ (24 : Int) := by exact_mod_cast hm24
  constructor
  · calc (2 : ℚ) ^ (-149 : Int) ≤ 2 ^ e := two_zpow_le.2 he1
      _ ≤ m * 2 ^ e := le_mul_of_one_le_left (two_zpow_pos e).le h1
  · calc (m : ℚ) * 2 ^ e < 2 ^ (24 : Int) * 2 ^ e := mul_lt_mul_of_pos_right h2 (two_zpow_pos e)
      _ = 2 ^ (24 + e) := (two_zpow_add _ _).symm
      _ ≤ 2 ^ (128 : Int) := two_zpow_le.2 (by omega)

end Fin
end Sys2Proof.Numbers

namespace Sys2Proof.Numbers
open Sys2Proof Sys2Proof.Machine

/-! ## RSQ and SQRT (R75, R76, R375, R387) -/

/-! ### The integer root -/

/-- Bit by bit, a root that is right down to bit b is right down to the last. -/
theorem isqrtBits_spec (n b r : Nat) (h1 : r * r ≤ n) (h2 : n < (r + 2 ^ b) * (r + 2 ^ b)) :
    isqrtBits n b r * isqrtBits n b r ≤ n ∧ n < (isqrtBits n b r + 1) * (isqrtBits n b r + 1) := by
  induction b generalizing r with
  | zero => exact ⟨h1, h2⟩
  | succ b ih =>
    rw [isqrtBits]
    split
    next h => exact ih _ h (by rwa [Nat.add_assoc, ← Nat.two_mul, ← Nat.pow_succ'])
    next h => exact ih _ h1 (not_le.1 h)

theorem isqrt_eq (n : Nat) : isqrt n = n.sqrt := by
  have hn : n < 2 ^ (n.log2 / 2 + 1) * 2 ^ (n.log2 / 2 + 1) := by
    rw [← Nat.pow_add]
    exact Nat.lt_log2_self.trans_le (Nat.pow_le_pow_right two_pos (by omega))
  obtain ⟨h1, h2⟩ := isqrtBits_spec n (n.log2 / 2 + 1) 0 (Nat.zero_le n) (by simpa using hn)
  exact (Nat.eq_sqrt).2 ⟨h1, h2⟩

/-! ### An operand with an even exponent -/

def evenSig (m : Nat) (e : Int) : Nat := if e % 2 = 0 then m else 2 * m
def evenExp (e : Int) : Int := if e % 2 = 0 then e else e - 1

theorem evenExp_half (e : Int) : evenExp e = 2 * (evenExp e / 2) := by
  unfold evenExp
  split <;> omega

/-- The operand at its even exponent is the operand. -/
theorem evenSig_scaled (m : Nat) (e : Int) : (evenSig m e : ℚ) * 2 ^ (2 * (evenExp e / 2)) = m * 2 ^ e := by
  rw [← evenExp_half, evenSig, evenExp]
  split
  · rfl
  · rw [two_zpow_sub]
    push_cast
    ring

section Fin
variable {b : Word} {m : Nat} {e : Int} (hb : valOfFP32 b = .fin false m e) (hm : m ≠ 0)
include hb hm

theorem evenSig_range : evenSig m e ≠ 0 ∧ evenSig m e < 2 ^ 25 ∧ -75 ≤ evenExp e / 2 ∧ evenExp e / 2 ≤ 52 := by
  obtain ⟨hm24, he1, he2, -⟩ := fin_range hb
  unfold evenSig evenExp
  split <;> omega

/-! ### RSQ -/

/-- The root of the reciprocal in fixed point. -/
def rsqRoot (m : Nat) (e : Int) : Nat := (2 ^ 400 / evenSig m e).sqrt

theorem rsqList_fin : rsqList b =
    if rsqRoot m e * rsqRoot m e * evenSig m e = 2 ^ 400 then
      [signed false (roundCode .rn 23 false (rsqRoot m e) 1 (-200 - evenExp e / 2)).1]
    else ((within 2 (rsqRoot m e) (rsqRoot m e + 1) (-200 - evenExp e / 2)).filter
      (rsqOk (evenSig m e) (2 * (evenExp e / 2)) (ulpExp (rsqRoot m e) (-200 - evenExp e / 2)))).map (signed false) := by
  rw [← evenExp_half]
  simp only [rsqList, hb, if_neg hm, isqrt_eq]
  rfl

end Fin

/-- The code's distance in ulps, squared and scaled by the operand. -/
theorem rsqOk_iff {m : Nat} {h q : Int} (c : Nat) (hh : -200 ≤ h) (hq : -149 ≤ q) :
    rsqOk m (2 * h) q c = true ↔ (max 0 (codeQ c - 2 ^ q)) ^ 2 * ((m : ℚ) * 2 ^ (2 * h)) ≤ 1 ∧
      1 ≤ (codeQ c + 2 ^ q) ^ 2 * ((m : ℚ) * 2 ^ (2 * h)) := by
  have hc := codeMag_exp_ge c
  set g := min (codeMag c).2 q with hg
  have hk := shifted_eq (show g ≤ (codeMag c).2 by omega) (codeMag c).1
  have hu := shifted_eq (show g ≤ q by omega) 1
  set k := (codeMag c).1 * 2 ^ ((codeMag c).2 - g).toNat with hkdef
  rw [one_mul, Nat.cast_one, one_mul] at hu
  have hat : ∀ n : Nat, (atScale (n * n * m) (2 * g + 2 * h) : ℚ) =
      ((n : ℚ) * 2 ^ g) ^ 2 * (m * 2 ^ (2 * h)) * 2 ^ (1000 : Int) := by
    intro n
    have hsq : (2 : ℚ) ^ (2 * g) = (2 ^ g) ^ 2 := by rw [two_mul, two_zpow_add, sq]
    rw [atScale_eq _ (by omega), two_zpow_add, hsq, Nat.cast_mul, Nat.cast_mul]
    ring
  have h1 : (atScale 1 0 : ℚ) = 1 * 2 ^ (1000 : Int) := by rw [atScale_eq 1 (by omega)]; norm_num
  have hsub : (((k - 2 ^ (q - g).toNat : Nat) : ℚ)) * 2 ^ g = max 0 (codeQ c - 2 ^ q) := by
    rw [codeQ, ← hk, ← hu, ← sub_mul]
    rcases le_total (2 ^ (q - g).toNat) k with hle | hle
    · have hcast : ((2 ^ (q - g).toNat : Nat) : ℚ) ≤ k := by exact_mod_cast hle
      rw [Nat.cast_sub hle, max_eq_right (mul_nonneg (sub_nonneg.2 hcast) (two_zpow_pos g).le)]
    · have hcast : (k : ℚ) ≤ (2 ^ (q - g).toNat : Nat) := by exact_mod_cast hle
      rw [Nat.sub_eq_zero_of_le hle, Nat.cast_zero, zero_mul,
        max_eq_left (mul_nonpos_of_nonpos_of_nonneg (sub_nonpos.2 hcast) (two_zpow_pos g).le)]
  have hadd : (((k + 2 ^ (q - g).toNat : Nat) : ℚ)) * 2 ^ g = codeQ c + 2 ^ q := by
    rw [codeQ, ← hk, ← hu, Nat.cast_add, add_mul]
  rw [rsqOk, decide_eq_true_eq, ← Nat.cast_le (α := ℚ), ← Nat.cast_le (α := ℚ)]
  dsimp only
  rw [← hg, ← hkdef, hat, hat, h1, hsub, hadd, mul_le_mul_iff_left₀ (two_zpow_pos _), mul_le_mul_iff_left₀ (two_zpow_pos _)]

/-- What is near a root by an ulp is near it by a larger one, which the root is not below. -/
theorem near_root {c u v x : ℚ} (hc : 0 ≤ c) (hx : 0 ≤ x) (hv : 0 ≤ v) (hvu : v ≤ u) (hu : u ^ 2 * x ≤ 1)
    (h1 : (max 0 (c - v)) ^ 2 * x ≤ 1) (h2 : 1 ≤ (c + v) ^ 2 * x) : (c - u) ^ 2 * x ≤ 1 ∧ 1 ≤ (c + u) ^ 2 * x := by
  refine ⟨?_, h2.trans ?_⟩
  · rcases le_total u c with h | h
    · refine le_trans ?_ h1
      have : 0 ≤ c - u := by linarith
      rw [max_eq_right (by linarith)]
      gcongr
    · refine le_trans (mul_le_mul_of_nonneg_right ?_ hx) hu
      rw [← neg_sub, neg_sq]
      have : 0 ≤ u - c := by linarith
      gcongr
      linarith
  · gcongr

section Fin
variable {b : Word} {m : Nat} {e : Int} (hb : valOfFP32 b = .fin false m e) (hm : m ≠ 0)
include hb hm

omit hb hm in
theorem rsq_scaled (n : Nat) : ((n : ℚ) * 2 ^ (-200 - evenExp e / 2)) ^ 2 * ((m : ℚ) * 2 ^ e) =
    ((n * n * evenSig m e : Nat) : ℚ) / (2 ^ 400 : Nat) := by
  have hpow : ((2 : ℚ) ^ (-200 - evenExp e / 2)) ^ 2 * 2 ^ (2 * (evenExp e / 2)) = (2 ^ (400 : Int))⁻¹ := by
    rw [sq, ← two_zpow_add, ← two_zpow_add, ← zpow_neg]
    congr 1
    ring
  rw [← evenSig_scaled m e, mul_pow]
  calc (n : ℚ) ^ 2 * (2 ^ (-200 - evenExp e / 2)) ^ 2 * ((evenSig m e : ℚ) * 2 ^ (2 * (evenExp e / 2)))
      = (n : ℚ) ^ 2 * evenSig m e * ((2 ^ (-200 - evenExp e / 2)) ^ 2 * 2 ^ (2 * (evenExp e / 2))) := by ring
    _ = _ := by
      rw [hpow, Nat.cast_mul, Nat.cast_mul, sq, ← div_eq_mul_inv]
      congr 1

/-- The fixed-point root encloses the reciprocal's root, and has more bits than a significand. -/
theorem rsq_enclosed : ((rsqRoot m e : ℚ) * 2 ^ (-200 - evenExp e / 2)) ^ 2 * ((m : ℚ) * 2 ^ e) ≤ 1 ∧
    1 ≤ (((rsqRoot m e : ℚ) + 1) * 2 ^ (-200 - evenExp e / 2)) ^ 2 * ((m : ℚ) * 2 ^ e) ∧ 2 ^ 23 ≤ rsqRoot m e := by
  obtain ⟨hM0, hM, -, -⟩ := evenSig_range hb hm
  have hMpos := Nat.pos_of_ne_zero hM0
  have hpos : (0 : ℚ) < (2 ^ 400 : Nat) := by exact_mod_cast Nat.pow_pos two_pos
  refine ⟨?_, ?_, ?_⟩
  · rw [rsq_scaled, div_le_one hpos, Nat.cast_le]
    exact (Nat.le_div_iff_mul_le hMpos).1 (Nat.sqrt_le _)
  · rw [← Nat.cast_succ, rsq_scaled, one_le_div hpos, Nat.cast_le]
    exact ((Nat.div_lt_iff_lt_mul hMpos).1 (Nat.lt_succ_sqrt _)).le
  · rw [rsqRoot, Nat.le_sqrt, Nat.le_div_iff_mul_le hMpos]
    calc 2 ^ 23 * 2 ^ 23 * evenSig m e ≤ 2 ^ 23 * 2 ^ 23 * 2 ^ 25 := Nat.mul_le_mul_left _ hM.le
      _ = 2 ^ 71 := by norm_num
      _ ≤ 2 ^ 400 := Nat.pow_le_pow_right two_pos (by omega)

/-- An exact root is a power of two, which a pattern stands for. -/
theorem rsq_exact (h : rsqRoot m e * rsqRoot m e * evenSig m e = 2 ^ 400) :
    codeQ (roundCode .rn 23 false (rsqRoot m e) 1 (-200 - evenExp e / 2)).1 =
      rsqRoot m e * 2 ^ (-200 - evenExp e / 2) ∧
    ((rsqRoot m e : ℚ) * 2 ^ (-200 - evenExp e / 2)) ^ 2 * ((m : ℚ) * 2 ^ e) = 1 := by
  have hpos : (0 : ℚ) < (2 ^ 400 : Nat) := by exact_mod_cast Nat.pow_pos two_pos
  have hone : ((rsqRoot m e : ℚ) * 2 ^ (-200 - evenExp e / 2)) ^ 2 * ((m : ℚ) * 2 ^ e) = 1 := by
    rw [rsq_scaled, h, div_self hpos.ne']
  obtain ⟨j, -, hj⟩ := (Nat.dvd_prime_pow Nat.prime_two).1 (Dvd.intro _ ((Nat.mul_assoc _ _ _).symm.trans h))
  have hval : (rsqRoot m e : ℚ) * 2 ^ (-200 - evenExp e / 2) = 2 ^ ((j : Int) + (-200 - evenExp e / 2)) := by
    rw [hj, two_zpow_add, Nat.cast_pow, zpow_natCast, Nat.cast_ofNat]
  refine ⟨?_, hone⟩
  obtain ⟨hx1, hx2⟩ := fin_bounds hb hm
  set n := (j : Int) + (-200 - evenExp e / 2)
  rw [hval, sq, ← two_zpow_add] at hone
  have hn1 : n + n + -149 ≤ 0 := by
    rw [← two_zpow_le, two_zpow_add, zpow_zero, ← hone]
    gcongr
  have hn2 : 0 < n + n + 128 := by
    rw [← two_zpow_lt, two_zpow_add (n + n), zpow_zero, ← hone]
    gcongr
  rw [hval]
  exact codeQ_roundCode_two_zpow (by rw [hj]; positivity) one_ne_zero _ _ _ (by omega) (by omega)
    (by rw [Nat.cast_one, div_one, hval])

/-- An ulp at the binade of the reciprocal's root is not above that root. -/
theorem ulpQ_sq_le {l : Int} (h1 : (2 : ℚ) ^ (2 * l) ≤ 1 / ((m : ℚ) * 2 ^ e))
    (h2 : 1 / ((m : ℚ) * 2 ^ e) < 2 ^ (2 * l + 2)) : ulpQ l ^ 2 * ((m : ℚ) * 2 ^ e) ≤ 1 := by
  have hxpos : (0 : ℚ) < (m : ℚ) * 2 ^ e := by positivity
  have hl : -128 < 2 * l + 2 := by
    rw [← two_zpow_lt]
    refine lt_trans ?_ h2
    rw [zpow_neg, one_div, inv_lt_inv₀ (two_zpow_pos _) hxpos]
    exact (fin_bounds hb hm).2
  have hle : ulpQ l ≤ 2 ^ l := two_zpow_le.2 (by omega)
  have hnonneg : 0 ≤ ulpQ l := (two_zpow_pos _).le
  calc ulpQ l ^ 2 * ((m : ℚ) * 2 ^ e) ≤ (2 ^ l) ^ 2 * ((m : ℚ) * 2 ^ e) := by gcongr
    _ = 2 ^ (2 * l) * ((m : ℚ) * 2 ^ e) := by rw [two_mul, two_zpow_add, sq]
    _ ≤ 1 := (le_div_iff₀ hxpos).1 h1

/-- Every answer of RSQ is a positive code near the reciprocal's root. -/
theorem rsqList_near {w : Word} (hw : w ∈ rsqList b) : ∃ c v, c ≤ 255 * 2 ^ 23 ∧ w = signed false c ∧ 0 ≤ v ∧
    (∀ l : Int, 1 / ((m : ℚ) * 2 ^ e) < 2 ^ (2 * l + 2) → v ≤ ulpQ l) ∧
    (max 0 (codeQ c - v)) ^ 2 * ((m : ℚ) * 2 ^ e) ≤ 1 ∧ 1 ≤ (codeQ c + v) ^ 2 * ((m : ℚ) * 2 ^ e) := by
  rw [rsqList_fin hb hm] at hw
  split at hw
  next hexact =>
    obtain ⟨hcode, hone⟩ := rsq_exact hb hm hexact
    rw [← hcode] at hone
    refine ⟨_, 0, roundCode_le _ _ _ _ _, List.mem_singleton.1 hw, le_rfl, fun l _ => (two_zpow_pos _).le, ?_, ?_⟩
    · rw [sub_zero, max_eq_right (codeQ_nonneg _), hone]
    · rw [add_zero, hone]
  next =>
    obtain ⟨c, hc, rfl⟩ := List.mem_map.1 hw
    obtain ⟨hin, hok⟩ := List.mem_filter.1 hc
    obtain ⟨hlo, -, h23⟩ := rsq_enclosed hb hm
    obtain ⟨-, -, hh, -⟩ := evenSig_range hb hm
    rw [rsqOk_iff c (by omega) (by unfold ulpExp; omega), evenSig_scaled] at hok
    refine ⟨c, _, within_le hin, rfl, (two_zpow_pos _).le, fun l hl => two_zpow_ulpExp_le (by omega) ?_, hok⟩
    refine lt_of_pow_lt_pow_left₀ 2 (two_zpow_pos _).le ?_
    calc ((rsqRoot m e : ℚ) * 2 ^ (-200 - evenExp e / 2)) ^ 2 ≤ 1 / ((m : ℚ) * 2 ^ e) := (le_div_iff₀ (by positivity)).2 hlo
      _ < 2 ^ (2 * l + 2) := hl
      _ = (2 ^ (l + 1)) ^ 2 := by rw [sq, ← two_zpow_add]; congr 1; ring

/-- RSQ is within one ulp of the reciprocal's root (R75). -/
theorem rsq_within {w : Word} (hw : w ∈ rsqList b) : w.toNat < 2 ^ 31 ∧
    ∀ l : Int, (2 : ℚ) ^ (2 * l) ≤ 1 / ((m : ℚ) * 2 ^ e) → 1 / ((m : ℚ) * 2 ^ e) < 2 ^ (2 * l + 2) →
      (magQ w - ulpQ l) ^ 2 * ((m : ℚ) * 2 ^ e) ≤ 1 ∧ 1 ≤ (magQ w + ulpQ l) ^ 2 * ((m : ℚ) * 2 ^ e) := by
  obtain ⟨c, v, hc, rfl, hv, hvu, h1, h2⟩ := rsqList_near hb hm hw
  refine ⟨by simpa using sign_signed false hc, fun l hl1 hl2 => ?_⟩
  rw [magQ_signed false hc]
  exact near_root (codeQ_nonneg c) (by positivity) hv (hvu l hl2) (ulpQ_sq_le hb hm hl1 hl2) h1 h2

theorem rsqList_fin_ne_nil : rsqList b ≠ [] := by
  rw [rsqList_fin hb hm]
  split
  · exact List.cons_ne_nil _ _
  next =>
    obtain ⟨hlo, hhi, h23⟩ := rsq_enclosed hb hm
    obtain ⟨-, -, hh, hh2⟩ := evenSig_range hb hm
    have hlog : 23 ≤ (rsqRoot m e).log2 := (Nat.le_log2 (by omega)).2 h23
    have hfit : (rsqRoot m e : ℚ) * 2 ^ (-200 - evenExp e / 2) < 2 ^ (128 : Int) := by
      refine lt_of_pow_lt_pow_left₀ 2 (two_zpow_pos _).le (lt_of_mul_lt_mul_right (hlo.trans_lt ?_) (by positivity))
      calc (1 : ℚ) < (2 ^ (128 : Int)) ^ 2 * 2 ^ (-149 : Int) := by norm_num
        _ ≤ (2 ^ (128 : Int)) ^ 2 * ((m : ℚ) * 2 ^ e) := by gcongr; exact (fin_bounds hb hm).1
    obtain ⟨k, hk, hle, -⟩ := lowCode_bounds hfit
    have hgap := lowCode_gap hfit (by unfold ulpExp; omega)
    refine List.map_eq_nil_iff.not.2 (List.ne_nil_of_mem (List.mem_filter.2
      ⟨lowCode_mem_within le_rfl (Nat.le_succ _) hfit, ?_⟩))
    rw [rsqOk_iff _ (by omega) (by unfold ulpExp; omega), evenSig_scaled]
    have hpos := two_zpow_pos (ulpExp (rsqRoot m e) (-200 - evenExp e / 2))
    refine ⟨le_trans ?_ hlo, hhi.trans ?_⟩
    · gcongr
      exact max_le (by positivity) (by linarith)
    · gcongr

/-- At a power of four the reciprocal's root is exact (R375). -/
theorem rsq_of_pow_four {k : Int} (hk : (m : ℚ) * 2 ^ e = 2 ^ (2 * k)) : magQ (rsqVal b) = 2 ^ (-k) := by
  obtain ⟨-, hM, -, -⟩ := evenSig_range hb hm
  rw [← evenSig_scaled m e] at hk
  obtain ⟨j, hMj, hj⟩ := sig_of_two_zpow hk
  obtain ⟨i, rfl⟩ : ∃ i, j = 2 * i := ⟨j / 2, by omega⟩
  have hi : 2 * i < 25 := (Nat.pow_lt_pow_iff_right (by norm_num)).1 (hMj ▸ hM)
  have hroot : rsqRoot m e = 2 ^ (200 - i) := by
    rw [rsqRoot, hMj, Nat.pow_div (by omega) two_pos, show 400 - 2 * i = (200 - i) + (200 - i) by omega, Nat.pow_add,
      Nat.sqrt_eq]
  have hexact : rsqRoot m e * rsqRoot m e * evenSig m e = 2 ^ 400 := by
    rw [hroot, hMj, ← Nat.pow_add, ← Nat.pow_add]
    congr 1
    omega
  rw [rsqVal, rsqList_fin hb hm, if_pos hexact, pick_singleton, magQ_signed false (roundCode_le _ _ _ _ _),
    (rsq_exact hb hm hexact).1, hroot, Nat.cast_pow, Nat.cast_ofNat, ← zpow_natCast, ← two_zpow_add]
  congr 1
  omega

end Fin
end Sys2Proof.Numbers

namespace Sys2Proof.Numbers
open Sys2Proof Sys2Proof.Machine

/-! ### SQRT -/

/-- A natural twice the root of n, or one more where the root is not whole: it stands on the root's side of every even
number. -/
def twiceRoot (n : Nat) : Nat := 2 * n.sqrt + (if n.sqrt * n.sqrt = n then 0 else 1)

/-- An even number that is near twice the root, as a natural, is near it (R387). -/
theorem near_twiceRoot {n k u : Nat} (hk : 2 ∣ k) (hu : 2 ∣ u) (h1 : k ≤ twiceRoot n + u) (h2 : twiceRoot n ≤ k + u) :
    (k - u) ^ 2 ≤ 4 * n ∧ 4 * n ≤ (k + u) ^ 2 := by
  obtain ⟨i, rfl⟩ := hk
  obtain ⟨j, rfl⟩ := hu
  have hlo := Nat.sqrt_le n
  have hhi := Nat.lt_succ_sqrt n
  unfold twiceRoot at h1 h2
  rw [show (2 * i - 2 * j) ^ 2 = 4 * ((i - j) * (i - j)) by rw [← Nat.mul_sub]; ring,
    show (2 * i + 2 * j) ^ 2 = 4 * ((i + j) * (i + j)) by ring]
  refine ⟨Nat.mul_le_mul_left 4 ?_, Nat.mul_le_mul_left 4 ?_⟩
  · refine le_trans (Nat.mul_self_le_mul_self ?_) hlo
    split at h1 <;> omega
  · split at h2
    next hsq =>
      rw [← hsq]
      exact Nat.mul_self_le_mul_self (by omega)
    next => exact hhi.le.trans (Nat.mul_self_le_mul_self (by simp only [Nat.succ_eq_add_one]; omega))

/-- Twice a root is in the binade of its square. -/
theorem twiceRoot_binade {n L : Nat} (h1 : 2 ^ (2 * L) ≤ n) (h2 : n < 2 ^ (2 * L + 2)) :
    2 ^ (L + 1) ≤ twiceRoot n ∧ twiceRoot n < 2 ^ (L + 2) := by
  have hlo : 2 ^ L ≤ n.sqrt := by
    rw [Nat.le_sqrt, ← Nat.pow_add, ← Nat.two_mul]
    exact h1
  have hhi : n.sqrt < 2 ^ (L + 1) := by
    rw [Nat.sqrt_lt, ← Nat.pow_add]
    exact h2.trans_eq (by congr 1; omega)
  unfold twiceRoot
  rw [Nat.pow_succ, Nat.pow_succ 2 (L + 1)]
  split <;> omega

section Fin
variable {b : Word} {m : Nat} {e : Int} (hb : valOfFP32 b = .fin false m e) (hm : m ≠ 0)
include hb hm

theorem sqrtVal_fin : sqrtVal b =
    signed false (roundCode .rn 23 false (twiceRoot (evenSig m e * 2 ^ 100)) 1 (evenExp e / 2 - 51)).1 := by
  simp only [sqrtVal, hb, if_neg hm, isqrt_eq]
  rfl

omit hb hm in
/-- The operand in units of the square of the last bit of the root that is rounded. -/
theorem sqrt_scaled : (m : ℚ) * 2 ^ e = ((4 * (evenSig m e * 2 ^ 100) : Nat) : ℚ) * (2 ^ (evenExp e / 2 - 51)) ^ 2 := by
  have h102 : (2 : ℚ) ^ (102 : Int) = 4 * 2 ^ 100 := by norm_num
  rw [← evenSig_scaled m e, sq, ← two_zpow_add,
    show 2 * (evenExp e / 2) = 102 + (evenExp e / 2 - 51 + (evenExp e / 2 - 51)) by ring, two_zpow_add 102, h102]
  push_cast
  ring

/-- The number whose root is taken is in the binade that the operand's is in. -/
theorem sqrt_binade {l : Int} (h1 : (2 : ℚ) ^ (2 * l) ≤ (m : ℚ) * 2 ^ e) (h2 : (m : ℚ) * 2 ^ e < 2 ^ (2 * l + 2)) :
    ∃ L : Nat, 50 ≤ L ∧ l = (L : Int) + evenExp e / 2 - 50 ∧
      2 ^ (2 * L) ≤ evenSig m e * 2 ^ 100 ∧ evenSig m e * 2 ^ 100 < 2 ^ (2 * L + 2) := by
  have hM0 := (evenSig_range hb hm).1
  set h := evenExp e / 2
  set n := evenSig m e * 2 ^ 100 with hn
  have hx : (m : ℚ) * 2 ^ e = n * 2 ^ (2 * h - 100) := by
    rw [sqrt_scaled, ← hn, sq, ← two_zpow_add, show 2 * h - 100 = 2 + (h - 51 + (h - 51)) by ring, two_zpow_add 2]
    push_cast
    ring
  have hlo : (2 : ℚ) ^ (2 * (l - h + 50)) ≤ n := by
    refine le_of_mul_le_mul_right ?_ (two_zpow_pos (2 * h - 100))
    rw [← hx, ← two_zpow_add]
    exact h1.trans_eq' (by congr 1; ring)
  have hhi : (n : ℚ) < 2 ^ (2 * (l - h + 50) + 2) := by
    refine lt_of_mul_lt_mul_right ?_ (two_zpow_pos (2 * h - 100)).le
    rw [← hx, ← two_zpow_add]
    exact h2.trans_eq (by congr 1; ring)
  have hn100 : (2 : ℚ) ^ (100 : Int) ≤ n := by
    rw [hn, Nat.cast_mul]
    push_cast
    exact le_mul_of_one_le_left (by norm_num) (by exact_mod_cast Nat.pos_of_ne_zero hM0)
  have hL := two_zpow_lt.1 (hn100.trans_lt hhi)
  obtain ⟨L, hLeq⟩ : ∃ L : Nat, l - h + 50 = L := ⟨(l - h + 50).toNat, by omega⟩
  rw [hLeq] at hlo hhi hL
  refine ⟨L, by omega, by omega, ?_, ?_⟩
  · exact_mod_cast hlo
  · exact_mod_cast hhi

omit hb hm in
/-- What SQRT rounds to, in units of the last bit of what is rounded: a multiple of the ulp, within half of it. -/
theorem sqrt_rounded {n L : Nat} {h : Int} (hL : 50 ≤ L) (hn1 : 2 ^ (2 * L) ≤ n) (hn2 : n < 2 ^ (2 * L + 2))
    (hh1 : -75 ≤ h) (hh2 : (L : Int) + h < 150) : ∃ k : Nat,
    codeQ (roundCode .rn 23 false (twiceRoot n) 1 (h - 51)).1 = k * 2 ^ (h - 51) ∧ 2 ∣ k ∧
      k ≤ twiceRoot n + 2 ^ (L - 23) ∧ twiceRoot n ≤ k + 2 ^ (L - 23) := by
  obtain ⟨hy1, hy2⟩ := twiceRoot_binade hn1 hn2
  have hy0 : twiceRoot n ≠ 0 := by
    have := Nat.pow_pos (n := L + 1) two_pos
    omega
  have hv : (twiceRoot n : ℚ) / (1 : Nat) * 2 ^ (h - 51) = twiceRoot n * 2 ^ (h - 51) := by rw [Nat.cast_one, div_one]
  have hv1 : (2 : ℚ) ^ ((L + 1 : Nat) + (h - 51)) ≤ twiceRoot n * 2 ^ (h - 51) := by
    rw [two_zpow_add, zpow_natCast]
    gcongr
    exact_mod_cast hy1
  have hv2 : (twiceRoot n : ℚ) * 2 ^ (h - 51) < 2 ^ ((L + 1 : Nat) + (h - 51) + 1) := by
    rw [show ((L + 1 : Nat) : Int) + (h - 51) + 1 = (L + 2 : Nat) + (h - 51) by push_cast; ring, two_zpow_add, zpow_natCast]
    gcongr
    exact_mod_cast hy2
  have hplace : lastPlace 23 (twiceRoot n) 1 (h - 51) = (L - 22 : Nat) + (h - 51) := by
    rw [lastPlace_of_binade hy0 one_ne_zero (h - 51) (hv ▸ hv1) (hv ▸ hv2)]
    omega
  have hfit : (twiceRoot n : ℚ) / (1 : Nat) * 2 ^ (h - 51) < 2 ^ (128 : Int) - 2 ^ (103 : Int) := by
    rw [hv]
    refine hv2.trans_le ((two_zpow_le.2 (show _ ≤ (127 : Int) by push_cast; omega)).trans (by norm_num))
  have hcode := (codeQ_roundCode_of_fits hy0 one_ne_zero _ (keptBits_rn_fits hy0 one_ne_zero _ false hfit)).2
  have hnear := keptBits_rn (num := twiceRoot n) one_ne_zero (h - 51) false
  set K := keptBits .rn 23 false (twiceRoot n) 1 (h - 51)
  have hscale : (2 : ℚ) ^ ((L - 22 : Nat) + (h - 51)) = (2 ^ (L - 22) : Nat) * 2 ^ (h - 51) := by
    rw [two_zpow_add, zpow_natCast, Nat.cast_pow, Nat.cast_ofNat]
  have hhalf : 2 ^ (L - 22) = 2 ^ (L - 23) * 2 := by rw [← Nat.pow_succ]; congr 1; omega
  rw [hplace, hscale, hv, ← mul_assoc, ← sub_mul, abs_mul, abs_of_pos (two_zpow_pos (h - 51)), mul_div_right_comm,
    mul_le_mul_iff_left₀ (two_zpow_pos _), hhalf, abs_le] at hnear
  obtain ⟨hge, hle⟩ := hnear
  push_cast at hge hle
  rw [mul_div_assoc, div_self two_ne_zero, mul_one] at hge hle
  refine ⟨K * 2 ^ (L - 22), ?_, Dvd.dvd.mul_left (dvd_pow_self 2 (by omega)) K, ?_, ?_⟩
  · rw [hcode, hplace, hscale, Nat.cast_mul, mul_assoc]
  · rw [hhalf, ← Nat.cast_le (α := ℚ)]
    push_cast
    linarith
  · rw [hhalf, ← Nat.cast_le (α := ℚ)]
    push_cast
    linarith

/-- SQRT is within half an ulp of the root. -/
theorem sqrt_within : (sqrtVal b).toNat < 2 ^ 31 ∧ ∀ l : Int, (2 : ℚ) ^ (2 * l) ≤ (m : ℚ) * 2 ^ e →
    (m : ℚ) * 2 ^ e < 2 ^ (2 * l + 2) → (magQ (sqrtVal b) - ulpQ l / 2) ^ 2 ≤ (m : ℚ) * 2 ^ e ∧
      (m : ℚ) * 2 ^ e ≤ (magQ (sqrtVal b) + ulpQ l / 2) ^ 2 := by
  obtain ⟨-, -, hh1, hh2⟩ := evenSig_range hb hm
  have hcode := roundCode_le .rn 23 false (num := twiceRoot (evenSig m e * 2 ^ 100)) 1 (evenExp e / 2 - 51)
  rw [sqrtVal_fin hb hm]
  refine ⟨by simpa only [decide_eq_false_iff_not, not_le] using sign_signed false hcode, fun l hl1 hl2 => ?_⟩
  have hl : 2 * l < 128 := two_zpow_lt.1 (hl1.trans_lt (fin_bounds hb hm).2)
  obtain ⟨L, hL50, rfl, hn1, hn2⟩ := sqrt_binade hb hm hl1 hl2
  obtain ⟨k, hk, heven, hk1, hk2⟩ := sqrt_rounded hL50 hn1 hn2 hh1 (by omega)
  rw [magQ_signed false hcode, sqrt_scaled, hk]
  have hulp : ulpQ ((L : Int) + evenExp e / 2 - 50) / 2 = (2 ^ (L - 23) : Nat) * 2 ^ (evenExp e / 2 - 51) := by
    rw [ulpQ, div_eq_iff two_ne_zero, Nat.cast_pow, Nat.cast_ofNat, ← zpow_natCast, ← two_zpow_add, mul_comm, ← zpow_one_add₀ two_ne_zero]
    congr 1
    omega
  have hu : 2 ^ (L - 23) ≤ k := by
    have h1 := (twiceRoot_binade hn1 hn2).1
    have h2 : 2 ^ (L - 23) * 2 ≤ 2 ^ (L + 1) := by rw [← Nat.pow_succ]; exact Nat.pow_le_pow_right two_pos (by omega)
    omega
  obtain ⟨hlo, hhi⟩ := near_twiceRoot heven (dvd_pow_self 2 (show L - 23 ≠ 0 by omega)) hk1 hk2
  rw [hulp, ← sub_mul, ← add_mul, mul_pow, mul_pow, ← Nat.cast_sub hu, ← Nat.cast_add, ← Nat.cast_pow, ← Nat.cast_pow]
  constructor <;> gcongr

end Fin
end Sys2Proof.Numbers

namespace Sys2Proof.Numbers
open Sys2Proof Sys2Proof.Machine

/-! ### All three (R75, R76, R360, R375, R387) -/

theorem negative_invalid {b : Word} {m : Nat} {e : Int} (hb : valOfFP32 b = .fin true m e) (hm : m ≠ 0) :
    rsqVal b = 0x7FC00000 ∧ sqrtVal b = 0x7FC00000 ∧ lg2Val b = 0x7FC00000 := by
  simp [rsqVal, rsqList, sqrtVal, lg2Val, lg2List, hb, hm, qNaN]

theorem rootValues_hold : rootValues := by
  refine ⟨fun b s m e hb hm => ⟨?sign, ?rcp, ?exact, ?negative, ?rsq, ?four, ?sqrt⟩, fun b => ⟨pick_mem 0 b, pick_mem 1 b⟩⟩
  case sign =>
    intro w hw
    obtain ⟨c, hc, rfl⟩ := rcpList_signed hb hm hw
    exact sign_signed s hc
  case rcp => exact fun hfit l _ hl w hw => rcp_within hb hm hw hfit hl
  case exact => exact fun k hk h1 h2 => rcp_normal_two_zpow hb hm h1 h2 hk
  case negative =>
    rintro rfl
    exact negative_invalid hb hm
  case rsq =>
    rintro rfl w hw
    exact rsq_within hb hm hw
  case four =>
    rintro rfl k hk
    exact rsq_of_pow_four hb hm hk
  case sqrt =>
    rintro rfl
    exact sqrt_within hb hm

end Sys2Proof.Numbers

namespace Sys2Proof.Numbers
open Sys2Proof Sys2Proof.Machine

/-! ## Exact values as rational numbers: sums, order and floors (R56, R78, R329) -/

/-- A signed significand brought to a lower exponent is the value. -/
theorem signedAt_eq {e e0 : Int} (h : e0 ≤ e) (s : Bool) (m : Nat) :
    (signedAt s m e e0 : ℚ) * 2 ^ e0 = valQ (.fin s m e) := by
  have hm := shifted_eq h m
  cases s
  · simp only [signedAt, valQ, Bool.false_eq_true, if_false, one_mul, Int.cast_natCast, hm]
  · simp only [signedAt, valQ, if_true, Int.cast_neg, Int.cast_natCast, neg_mul, one_mul, hm]

theorem valQ_neg (s : Bool) (m : Nat) (e : Int) : valQ (.fin (!s) m e) = -valQ (.fin s m e) := by
  cases s <;> simp [valQ]

theorem valQ_valOfInt (i : Int) : valQ (valOfInt i) = i := by
  have habs : ((i.natAbs : Int) : ℚ) = |(i : ℚ)| := by rw [Int.natCast_natAbs, Int.cast_abs]
  rw [Int.cast_natCast] at habs
  simp only [valOfInt, valQ, habs, zpow_zero, mul_one, decide_eq_true_eq]
  split
  next h => rw [abs_of_neg (by exact_mod_cast h)]; ring
  next h => rw [abs_of_nonneg (by exact_mod_cast not_lt.1 h), one_mul]

/-- The sum of two finite values is finite, and exact. -/
theorem add_fin (down s t : Bool) (m n : Nat) (e f : Int) : ∃ u k g,
    (Val.fin s m e).add down (.fin t n f) = .fin u k g ∧ valQ (.fin u k g) = valQ (.fin s m e) + valQ (.fin t n f) := by
  have hs := signedAt_eq (min_le_left e f) s m
  have ht := signedAt_eq (min_le_right e f) t n
  simp only [Val.add]
  split
  next h0 =>
    refine ⟨_, _, _, rfl, ?_⟩
    rw [← hs, ← ht, ← add_mul, ← Int.cast_add, h0]
    simp [valQ]
  next h0 =>
    refine ⟨_, _, _, rfl, ?_⟩
    have hint := valQ_valOfInt (signedAt s m e (min e f) + signedAt t n f (min e f))
    simp only [valOfInt, valQ, zpow_zero, mul_one] at hint
    rw [← hs, ← ht, ← add_mul, ← Int.cast_add, ← hint]
    rfl

theorem lt_fin_iff (s t : Bool) (m n : Nat) (e f : Int) :
    (Val.fin s m e).lt (.fin t n f) = true ↔ valQ (.fin s m e) < valQ (.fin t n f) := by
  rw [← signedAt_eq (min_le_left e f) s m, ← signedAt_eq (min_le_right e f) t n, mul_lt_mul_iff_left₀ (two_zpow_pos _),
    Int.cast_lt]
  simp [Val.lt]

theorem eq_fin_iff (s t : Bool) (m n : Nat) (e f : Int) :
    Val.eq (.fin s m e) (.fin t n f) = true ↔ valQ (.fin s m e) = valQ (.fin t n f) := by
  simp only [Val.eq, Bool.and_eq_true, Bool.not_eq_true', ← Bool.not_eq_true, lt_fin_iff, not_lt]
  exact ⟨fun ⟨h1, h2⟩ => le_antisymm h2 h1, fun h => ⟨h.ge, h.le⟩⟩

/-- A value equals an integer where its number does. -/
theorem eq_valOfInt_iff (s : Bool) (m : Nat) (e i : Int) :
    Val.eq (.fin s m e) (valOfInt i) = true ↔ valQ (.fin s m e) = i := by
  rw [← valQ_valOfInt i]
  exact eq_fin_iff _ _ _ _ _ _

/-- Rounding down to an integer is the floor. -/
theorem roundToInt_rd (s : Bool) (m : Nat) (e : Int) : roundToInt .rd s m e = ⌊valQ (.fin s m e)⌋ := by
  have hpos := shiftRat_snd_pos m one_pos e
  have hdiv := shiftRat_div m one_pos e
  rw [Nat.cast_one, div_one] at hdiv
  set q := shiftRat m 1 e with hq
  obtain ⟨h1, h2⟩ := div_floor hpos
  rw [hdiv] at h1 h2
  rw [eq_comm, Int.floor_eq_iff]
  cases s
  · have hround : roundToInt .rd false m e = ((q.1 / q.2 : Nat) : Int) := by simp [roundToInt, roundUp, ← hq]
    rw [hround, valQ]
    generalize q.1 / q.2 = r at h1 h2 ⊢
    simpa using And.intro h1 h2
  · have hround : roundToInt .rd true m e = -((if q.1 % q.2 = 0 then q.1 / q.2 else q.1 / q.2 + 1 : Nat) : Int) := by
      by_cases h0 : q.1 % q.2 = 0 <;> simp [roundToInt, roundUp, ← hq, h0]
    have hval : valQ (.fin true m e) = -((m : ℚ) * 2 ^ e) := by simp [valQ]
    rw [hround, hval]
    split
    next h0 =>
      have hexact : (m : ℚ) * 2 ^ e = (q.1 / q.2 : Nat) := by
        rw [← hdiv, Nat.cast_div (Nat.dvd_of_mod_eq_zero h0) (by exact_mod_cast hpos.ne')]
      rw [hexact]
      generalize q.1 / q.2 = r
      constructor <;> push_cast <;> linarith
    next h0 =>
      have hne : ((q.1 / q.2 : Nat) : ℚ) ≠ (m : ℚ) * 2 ^ e := by
        intro h
        rw [← hdiv, eq_div_iff (by exact_mod_cast hpos.ne')] at h
        exact h0 (Nat.mod_eq_zero_of_dvd (Dvd.intro_left _ (by exact_mod_cast h)))
      have hlt := lt_of_le_of_ne h1 hne
      generalize q.1 / q.2 = r at h2 hlt
      constructor <;> push_cast <;> linarith

/-! ## ACT (R78, R299) -/

/-- The entry is the segment of x, clamped to the bank's ends. -/
theorem actIndex_fin {l q x : Word} {s t : Bool} {m n : Nat} {e f : Int} (hl : valOfFP32 l = .fin s m e)
    (hx : valOfFP32 x = .fin t n f) : ((actIndex l q x : Nat) : Int) =
      max 0 (min 255 ⌊(valQ (.fin t n f) - valQ (.fin s m e)) / 2 ^ q.toInt⌋) := by
  obtain ⟨u, k, g, hadd, hsum⟩ := add_fin false t (!s) n m f e
  rw [valQ_neg, ← sub_eq_add_neg] at hsum
  have hscale : valQ (.fin u k (g - q.toInt)) = valQ (.fin u k g) / 2 ^ q.toInt := by
    simp only [valQ, two_zpow_sub, mul_div_assoc]
  rw [← hsum, ← hscale, ← roundToInt_rd]
  simp only [actIndex, hl, hx, Val.neg, hadd]
  rw [clampInt_eq (by decide), Int.toNat_of_nonneg (le_max_left _ _)]

theorem actIndex_inf {l q : Word} {s : Bool} {m : Nat} {e : Int} (hl : valOfFP32 l = .fin s m e) :
    actIndex l q 0x7F800000 = 255 ∧ actIndex l q 0xFF800000 = 0 := by
  have h1 : valOfFP32 0x7F800000 = .inf false := by decide
  have h2 : valOfFP32 0xFF800000 = .inf true := by decide
  constructor
  · rw [actIndex, h1, hl]
    rfl
  · rw [actIndex, h2, hl]
    rfl

theorem actVal_of_number (k : Bank) {b : Word} (h : isNaN b = false) : actVal k b =
    if (valOfFP32 (SMap.get 0 (actIndex k.l k.q b) k.m)).isZero then SMap.get 0 (actIndex k.l k.q b) k.c
    else (fpFma .rn (SMap.get 0 (actIndex k.l k.q b) k.c) (SMap.get 0 (actIndex k.l k.q b) k.m) b).1 := by
  simp only [actVal, h, Bool.false_eq_true, if_false]
  rfl

/-- A bank at reset has zero slopes and intercepts. -/
theorem actVal_reset {b : Word} (h : isNaN b = false) : actVal Bank.reset b = 0 := by
  have hzero : (valOfFP32 0).isZero = true := by decide
  rw [actVal_of_number _ h]
  exact if_pos hzero

end Sys2Proof.Numbers

namespace Sys2Proof.Numbers
open Sys2Proof Sys2Proof.Machine

/-! ## Where EX2, LG2, SINPI, COSPI and TANH are exact or odd (R75, R76, R324, R327, R340, R384, R390) -/

/-! ### The operand with its sign flipped -/

/-- A pattern is its sign and the rest of its bits. -/
theorem eq_signed (b : Word) : b = signed (decide (2 ^ 31 ≤ b.toNat)) (b.toNat % 2 ^ 31) := by
  refine BitVec.eq_of_toNat_eq ?_
  have hb := b.isLt
  rw [signed, BitVec.toNat_ofNat]
  simp only [decide_eq_true_eq]
  split <;> omega

/-- The bits of a signed code. -/
theorem testBit_sign_add (s : Bool) {c : Nat} (hc : c < 2 ^ 31) {i : Nat} (hi : i < 32) :
    ((if s then 2 ^ 31 else 0) + c).testBit i = if i = 31 then s else c.testBit i := by
  cases s
  · simp only [Bool.false_eq_true, if_false, Nat.zero_add]
    split
    next h => rw [h, Nat.testBit_lt_two_pow hc]
    next => rfl
  · simp only [if_true]
    split
    next h => rw [h, Nat.testBit_two_pow_add_eq, Nat.testBit_lt_two_pow hc, Bool.not_false]
    next h => exact Nat.testBit_two_pow_add_gt (by omega) c

theorem signed_xor (s : Bool) {c : Nat} (hc : c < 2 ^ 31) : signed s c ^^^ 0x80000000 = signed (!s) c := by
  refine BitVec.eq_of_getLsbD_eq fun i hi => ?_
  have hsign : (0x80000000 : Word).getLsbD i = if i = 31 then true else false := by
    rw [show (0x80000000 : Word) = signed true 0 by decide, signed, BitVec.getLsbD_ofNat, testBit_sign_add _ (by norm_num) hi]
    simp [hi]
  rw [BitVec.getLsbD_xor, hsign, signed, signed, BitVec.getLsbD_ofNat, BitVec.getLsbD_ofNat, testBit_sign_add s hc hi,
    testBit_sign_add (!s) hc hi]
  split <;> simp [hi]

/-- What a finite code stands for, with a sign (R56). -/
theorem valOfFP32_signed (s : Bool) {c : Nat} (hc : c < 255 * 2 ^ 23) :
    valOfFP32 (signed s c) = .fin s (codeMag c).1 (codeMag c).2 := by
  have hsign : decide (2 ^ 31 ≤ (signed s c).toNat) = s := sign_signed s hc.le
  have hnat := toNat_signed s hc.le
  have hexp : (signed s c).toNat / 2 ^ 23 % 256 = c / 2 ^ 23 := by rw [hnat]; split <;> omega
  have hfrac : (signed s c).toNat % 2 ^ 23 = c % 2 ^ 23 := by rw [hnat]; split <;> omega
  have h255 : c / 2 ^ 23 ≠ 255 := by omega
  simp only [valOfFP32, hsign, hexp, hfrac, h255, if_false, codeMag]
  split <;> rfl

section Fin
variable {b : Word} {s : Bool} {m : Nat} {e : Int} (hb : valOfFP32 b = .fin s m e)
include hb

theorem valOfFP32_flip : valOfFP32 (b ^^^ 0x80000000) = .fin (!s) m e := by
  obtain ⟨hs, hc, hlt⟩ := valOfFP32_fin hb
  rw [eq_signed b, ← hs, signed_xor s (by omega), valOfFP32_signed (!s) hlt, hc]

omit hb in
theorem magOf_flip (b : Word) : magOf (b ^^^ 0x80000000) = magOf b := by
  have hmask : (0x80000000 : Word) &&& 0x7FFFFFFF = 0 := by decide
  refine BitVec.eq_of_getLsbD_eq fun i _ => ?_
  have hbit : ((0x80000000 : Word).getLsbD i && (0x7FFFFFFF : Word).getLsbD i) = false := by
    rw [← BitVec.getLsbD_and, hmask]
    exact BitVec.getLsbD_zero
  rw [magOf, magOf, BitVec.getLsbD_and, BitVec.getLsbD_and, BitVec.getLsbD_xor, Bool.and_xor_distrib_right, hbit,
    Bool.xor_false]

omit hb in
/-- The choice from a list whose members are changed alike is the choice changed so. -/
theorem pick_map (op : Nat) (key : Word) (f : Word → Word) {l : List Word} (h : l ≠ []) :
    pick op key (l.map f) = f (pick op key l) := by
  have hlt : Config.sfuChoice op key % l.length < l.length := Nat.mod_lt _ (List.length_pos_of_ne_nil h)
  rw [pick, pick, List.length_map, List.getD_eq_getElem _ _ hlt, List.getD_eq_getElem _ _ (by simpa using hlt),
    List.getElem_map]

/-! ### EX2 -/

theorem ex2List_of_int {n : Int} (hn : valQ (.fin s m e) = n) (h1 : -149 ≤ n) (h2 : n ≤ 127) :
    ex2List b = [signed false (roundCode .rn 23 false 1 1 n).1] := by
  have hfloor : roundToInt .rd s m e = n := by rw [roundToInt_rd, hn, Int.floor_intCast]
  have heq := (eq_valOfInt_iff s m e n).2 hn
  simp only [ex2List, hb, hfloor]
  rw [if_neg (by omega), if_neg (by omega), if_pos heq]

theorem ex2_of_int {n : Int} (hn : valQ (.fin s m e) = n) (h1 : -149 ≤ n) (h2 : n ≤ 127) :
    magQ (ex2Val b) = 2 ^ n ∧ (ex2Val b).toNat < 2 ^ 31 := by
  have hcode := roundCode_le (num := 1) .rn 23 false 1 n
  rw [ex2Val, ex2List_of_int hb hn h1 h2, pick_singleton, magQ_signed false hcode]
  refine ⟨codeQ_roundCode_two_zpow one_ne_zero one_ne_zero n _ _ h1 h2 (by simp), ?_⟩
  simpa using sign_signed false hcode

theorem ex2_overflow (h : 128 ≤ valQ (.fin s m e)) : ex2Val b = 0x7F800000 := by
  have hfloor : 128 ≤ roundToInt .rd s m e := by
    rw [roundToInt_rd, Int.le_floor]
    exact_mod_cast h
  have hlist : ex2List b = [0x7F800000] := by
    simp only [ex2List, hb, if_pos hfloor]
  rw [ex2Val, hlist, pick_singleton]

theorem ex2_underflow (h : valQ (.fin s m e) ≤ -150) : ex2Val b = 0 := by
  have hfloor : roundToInt .rd s m e ≤ -150 := by
    rw [roundToInt_rd]
    exact Int.floor_le_iff.2 (by push_cast; linarith)
  have hcond : roundToInt .rd s m e < -150 ∨ (roundToInt .rd s m e = -150 ∧ Val.eq (.fin s m e) (valOfInt (-150))) := by
    rcases lt_or_eq_of_le hfloor with hlt | heq
    · exact .inl hlt
    · refine .inr ⟨heq, (eq_valOfInt_iff s m e (-150)).2 (le_antisymm (by exact_mod_cast h) ?_)⟩
      rw [roundToInt_rd] at heq
      rw [← heq]
      exact Int.floor_le _
  have hlist : ex2List b = [0] := by
    simp only [ex2List, hb]
    rw [if_neg (by omega), if_pos hcond]
  rw [ex2Val, hlist, pick_singleton]

/-! ### LG2 -/

theorem lg2_of_two_zpow (hs : s = false) {k : Int} (hk : (m : ℚ) * 2 ^ e = 2 ^ k) : lg2Val b = rnFP32 (valOfInt k) := by
  obtain ⟨j, rfl, rfl⟩ := sig_of_two_zpow hk
  have hm : 2 ^ j ≠ 0 := (Nat.pow_pos two_pos).ne'
  have hlist : lg2List b = [rnFP32 (valOfInt ((j : Int) + e))] := by
    simp only [lg2List, hb, hm, hs, Nat.log2_two_pow, if_true, if_false, Bool.false_eq_true]
  rw [lg2Val, hlist, pick_singleton]

/-! ### SINPI and COSPI -/

/-- The magnitude modulo 2, in fixed point, is exact. -/
theorem mod2Fix_eq : mod2Fix m e = m * 2 ^ (e + 256).toNat % (2 * 2 ^ 256) := by
  have he := (fin_range hb).2.1
  have h0 : 0 ≤ e + 256 := by omega
  simp only [mod2Fix, shiftRat, if_pos h0, Nat.div_one, fixBits]

theorem fixed_eq : ((m * 2 ^ (e + 256).toNat : Nat) : ℚ) = (m : ℚ) * 2 ^ e * 2 ^ (256 : Nat) := by
  have he := (fin_range hb).2.1
  push_cast
  rw [two_pow_toNat (by omega), two_zpow_add, ← mul_assoc]
  rfl

/-- A natural's magnitude modulo 2 is 0 or 1. -/
theorem mod2Fix_of_nat {n : Nat} (hn : (m : ℚ) * 2 ^ e = n) : mod2Fix m e = n % 2 * 2 ^ 256 := by
  have hfix : m * 2 ^ (e + 256).toNat = n * 2 ^ 256 := by
    have := fixed_eq hb
    rw [hn] at this
    exact_mod_cast this
  rw [mod2Fix_eq hb, hfix, Nat.mul_mod_mul_right]

theorem mod2Fix_of_half {n : Nat} (hn : (m : ℚ) * 2 ^ e = n + 1 / 2) : mod2Fix m e = n % 2 * 2 ^ 256 + 2 ^ 255 := by
  have hfix : m * 2 ^ (e + 256).toNat = n * 2 ^ 256 + 2 ^ 255 := by
    have h := fixed_eq hb
    rw [hn, pow_succ (2 : ℚ) 255] at h
    have h2 : ((m * 2 ^ (e + 256).toNat : Nat) : ℚ) = ((n * 2 ^ 256 + 2 ^ 255 : Nat) : ℚ) := by
      rw [h]
      push_cast
      ring
    exact_mod_cast h2
  rw [mod2Fix_eq hb, hfix]
  omega

/-- The sign of SINPI: the operand's in the first half of a turn. -/
def sinSign (s : Bool) (r : Nat) : Bool := if 2 ^ 256 ≤ r then !s else s

/-- The distance to the nearer end of a half turn. -/
def foldHalf (u : Nat) : Nat := if 2 ^ 256 < 2 * u then 2 ^ 256 - u else u

/-- The distance to the nearer end of a turn. -/
def foldTurn (r : Nat) : Nat := if 2 ^ 256 < r then 2 * 2 ^ 256 - r else r

/-- The codes near a sine or a cosine in fixed point. -/
def unitCodes (y : Nat) : List Nat := within 3 (y - 2 ^ 40) (y + 2 ^ 40) (-256)

theorem sinpiList_fin : sinpiList b =
    if mod2Fix m e % 2 ^ 256 = 0 then [signed s 0]
    else if 2 * (mod2Fix m e % 2 ^ 256) = 2 ^ 256 then [signed (sinSign s (mod2Fix m e)) (127 * 2 ^ 23)]
    else (unitCodes (sinFix (foldHalf (mod2Fix m e % 2 ^ 256) * piFix / 2 ^ 256))).map
      (signed (sinSign s (mod2Fix m e))) := by
  simp only [sinpiList, hb]
  rfl

theorem cospiList_fin : cospiList b =
    if 2 * foldTurn (mod2Fix m e) = 2 ^ 256 then [0]
    else if foldTurn (mod2Fix m e) = 0 then [0x3F800000]
    else if foldTurn (mod2Fix m e) = 2 ^ 256 then [0xBF800000]
    else (unitCodes (cosFix (foldHalf (foldTurn (mod2Fix m e)) * piFix / 2 ^ 256))).map
      (signed (decide (2 ^ 256 < 2 * foldTurn (mod2Fix m e)))) := by
  simp only [cospiList, hb]
  have hfold : ∀ u, foldHalf u = if decide (2 ^ 256 < 2 * u) = true then 2 ^ 256 - u else u := by simp [foldHalf]
  simp only [hfold]
  rfl

theorem sinpi_of_nat {n : Nat} (hn : (m : ℚ) * 2 ^ e = n) : sinpiVal b = if s then 0x80000000 else 0 := by
  have hu : mod2Fix m e % 2 ^ 256 = 0 := by rw [mod2Fix_of_nat hb hn, Nat.mul_mod_left]
  rw [sinpiVal, sinpiList_fin hb, if_pos hu, pick_singleton]
  cases s <;> rfl

theorem sinpi_of_half {n : Nat} (hn : (m : ℚ) * 2 ^ e = n + 1 / 2) :
    sinpiVal b = if s = decide (n % 2 = 0) then 0xBF800000 else 0x3F800000 := by
  have hmod := mod2Fix_of_half hb hn
  have hu : mod2Fix m e % 2 ^ 256 = 2 ^ 255 := by omega
  have hsign : sinSign s (mod2Fix m e) = (s == decide (n % 2 = 0)) := by
    rcases Nat.mod_two_eq_zero_or_one n with h | h
    · rw [sinSign, if_neg (show ¬ 2 ^ 256 ≤ mod2Fix m e by omega), h]
      cases s <;> rfl
    · rw [sinSign, if_pos (show 2 ^ 256 ≤ mod2Fix m e by omega), h]
      cases s <;> rfl
  rw [sinpiVal, sinpiList_fin hb, hu, if_neg (by norm_num), if_pos (by norm_num), pick_singleton, hsign]
  by_cases h : s = decide (n % 2 = 0)
  · rw [if_pos h, beq_iff_eq.2 h]
    decide
  · rw [if_neg h, beq_eq_false_iff_ne.2 h]
    decide

theorem cospi_of_half {n : Nat} (hn : (m : ℚ) * 2 ^ e = n + 1 / 2) : cospiVal b = 0 := by
  have hmod := mod2Fix_of_half hb hn
  have hu : 2 * foldTurn (mod2Fix m e) = 2 ^ 256 := by
    unfold foldTurn
    split <;> omega
  rw [cospiVal, cospiList_fin hb, if_pos hu, pick_singleton]

theorem cospi_of_nat {n : Nat} (hn : (m : ℚ) * 2 ^ e = n) :
    cospiVal b = if n % 2 = 0 then 0x3F800000 else 0xBF800000 := by
  have hmod := mod2Fix_of_nat hb hn
  have hu : foldTurn (mod2Fix m e) = n % 2 * 2 ^ 256 := by
    unfold foldTurn
    split <;> omega
  rw [cospiVal, cospiList_fin hb, hu]
  rcases Nat.mod_two_eq_zero_or_one n with h | h
  · rw [h, if_neg (by norm_num), if_pos (by norm_num), pick_singleton, if_pos rfl]
  · rw [h, if_neg (by norm_num), if_neg (by norm_num), if_pos (by norm_num), pick_singleton, if_neg (by norm_num)]

end Fin

/-- Codes in range, signed the other way. -/
theorem map_signed_not (neg : Bool) {l : List Nat} (hl : ∀ c ∈ l, c ≤ 255 * 2 ^ 23) :
    l.map (signed !neg) = (l.map (signed neg)).map (· ^^^ 0x80000000) := by
  rw [List.map_map]
  exact List.map_congr_left fun c hc => (signed_xor neg (by have := hl c hc; omega)).symm

theorem signed_not_singleton (neg : Bool) {c : Nat} (hc : c ≤ 255 * 2 ^ 23) :
    [signed (!neg) c] = [signed neg c].map (· ^^^ 0x80000000) :=
  map_signed_not neg (l := [c]) (by simpa using hc)

theorem sinSign_not (s : Bool) (r : Nat) : sinSign (!s) r = !sinSign s r := by
  unfold sinSign
  split <;> rfl

section Fin
variable {b : Word} {s : Bool} {m : Nat} {e : Int} (hb : valOfFP32 b = .fin s m e)
include hb

/-- SINPI of the negated operand: the same codes with the other sign. -/
theorem sinpiList_flip : sinpiList (b ^^^ 0x80000000) = (sinpiList b).map (· ^^^ 0x80000000) := by
  rw [sinpiList_fin hb, sinpiList_fin (valOfFP32_flip hb), sinSign_not]
  split
  · exact signed_not_singleton s (by norm_num)
  · split
    · exact signed_not_singleton _ (by norm_num)
    · exact map_signed_not _ fun c hc => within_le hc

theorem sinpi_odd (h : sinpiList b ≠ []) : sinpiVal (b ^^^ 0x80000000) = sinpiVal b ^^^ 0x80000000 := by
  rw [sinpiVal, sinpiVal, magOf_flip, sinpiList_flip hb]
  exact pick_map 4 _ (· ^^^ 0x80000000) h

/-! ### TANH -/

/-- The codes that TANH of a magnitude may return. -/
def tanhCodes (m : Nat) (e : Int) : List Nat :=
  if e ≤ -64 then tanhSmall m e
  else
    ((let x := m * 2 ^ (e + 256).toNat
      if 20 * 2 ^ 256 ≤ x then within 4 (2 ^ 256 - 2 ^ 200) (2 ^ 256) (-256)
      else
        let y := 2 * x * 2 ^ 256 / ln2Fix
        let ex := expFix (y % 2 ^ 256 * ln2Fix / 2 ^ 256) * 2 ^ (y / 2 ^ 256)
        let t := (ex - 2 ^ 256) * 2 ^ 256 / (ex + 2 ^ 256)
        within 4 (t - 2 ^ 60) (t + 2 ^ 60) (-256))).filter (fun c => decide (c ≤ 127 * 2 ^ 23))

/-- The middle of the enclosure of a small TANH: x − x³/3 in units of 2^(3e − 4). -/
def tanhMid (m : Nat) (e : Int) : Nat := m * 2 ^ (4 - 2 * e).toNat - 16 * m ^ 3 / 3

omit hb in
theorem tanhMid_bounds (hm : m ≠ 0) (hm24 : m < 2 ^ 24) (he : e ≤ -64) :
    16 * m ^ 3 / 3 + 2 ≤ m * 2 ^ (4 - 2 * e).toNat ∧ 2 ≤ tanhMid m e ∧ tanhMid m e ≤ m * 2 ^ (4 - 2 * e).toNat := by
  have hpow : m * 2 ^ 132 ≤ m * 2 ^ (4 - 2 * e).toNat :=
    Nat.mul_le_mul_left m (Nat.pow_le_pow_right two_pos (by omega))
  have hsq : m * m ≤ 2 ^ 24 * 2 ^ 24 := Nat.mul_le_mul hm24.le hm24.le
  have hcube : 16 * m ^ 3 ≤ m * 2 ^ 52 := by
    calc 16 * m ^ 3 = m * (16 * (m * m)) := by ring
      _ ≤ m * 2 ^ 52 := Nat.mul_le_mul_left m (by omega)
  unfold tanhMid
  omega

/-- TANH is at most 1. -/
theorem tanhCodes_le_one (hm : m ≠ 0) {c : Nat} (hc : c ∈ tanhCodes m e) : c ≤ 127 * 2 ^ 23 := by
  unfold tanhCodes at hc
  split at hc
  next he =>
    have hm24 := (fin_range hb).1
    have he1 := (fin_range hb).2.1
    obtain ⟨-, h2, hmid⟩ := tanhMid_bounds hm hm24 he
    obtain ⟨-, -, -, hle⟩ := mem_within.1 (show c ∈ within 4 (tanhMid m e - 1) (tanhMid m e + 1) (3 * e - 4) from hc)
    have hx : (m : ℚ) * 2 ^ e < 2 ^ (-40 : Int) := by
      calc (m : ℚ) * 2 ^ e < 2 ^ (24 : Int) * 2 ^ e := mul_lt_mul_of_pos_right (by exact_mod_cast hm24) (two_zpow_pos e)
        _ = 2 ^ (24 + e) := (two_zpow_add _ _).symm
        _ ≤ 2 ^ (-40 : Int) := two_zpow_le.2 (by omega)
    have hscale : ((m * 2 ^ (4 - 2 * e).toNat : Nat) : ℚ) * 2 ^ (3 * e - 4) = m * 2 ^ e := by
      rw [show (4 : Int) - 2 * e = e - (3 * e - 4) by ring]
      exact shifted_eq (by omega) m
    have htop : (tanhMid m e : ℚ) * 2 ^ (3 * e - 4) ≤ m * 2 ^ e := by
      rw [← hscale]
      gcongr
    have hulp : (2 : ℚ) ^ ulpExp (tanhMid m e - 1) (3 * e - 4) ≤ ulpQ (-41) := by
      refine two_zpow_ulpExp_le (by omega) (lt_of_le_of_lt ?_ hx)
      refine le_trans ?_ htop
      gcongr
      omega
    have hunit : (2 : ℚ) ^ (3 * e - 4) ≤ 2 ^ (-40 : Int) := two_zpow_le.2 (by omega)
    have hulp41 : ulpQ (-41) ≤ 1 / 8 := by norm_num [ulpQ]
    have h40 : (2 : ℚ) ^ (-40 : Int) ≤ 1 / 4 := by norm_num
    refine codeQ_strictMono.le_iff_le.1 (hle.trans ?_)
    rw [codeQ_one, two_zpow_sub (ulpExp _ _) 1, zpow_one, Nat.cast_succ, add_mul, one_mul, Nat.cast_ofNat]
    generalize (2 : ℚ) ^ (3 * e - 4) = unit at htop hunit ⊢
    generalize (2 : ℚ) ^ ulpExp (tanhMid m e - 1) (3 * e - 4) = ulp at hulp ⊢
    have htop' := htop.trans_lt (hx.trans_le h40)
    have hunit' := hunit.trans h40
    have hulp' := hulp.trans hulp41
    linarith only [htop', hunit', hulp']
  next => exact of_decide_eq_true (List.mem_filter.1 hc).2

theorem tanhCodes_le (hm : m ≠ 0) {c : Nat} (hc : c ∈ tanhCodes m e) : c ≤ 255 * 2 ^ 23 :=
  (tanhCodes_le_one hb hm hc).trans (by norm_num)

theorem tanhList_fin (hm : m ≠ 0) : tanhList b = (tanhCodes m e).map (signed s) := by
  have he := (fin_range hb).2.1
  have hx : (shiftRat m 1 (e + 256)).1 / (shiftRat m 1 (e + 256)).2 = m * 2 ^ (e + 256).toNat := by
    simp only [shiftRat, if_pos (show 0 ≤ e + 256 by omega), Nat.div_one]
  simp only [tanhList, hb, if_neg hm, hx, tanhCodes]
  split
  · rfl
  · rfl

/-- TANH of the negated operand: the same codes with the other sign. -/
theorem tanh_odd (hm : m ≠ 0) (h : tanhList b ≠ []) : tanhVal (b ^^^ 0x80000000) = tanhVal b ^^^ 0x80000000 := by
  have hflip : tanhList (b ^^^ 0x80000000) = (tanhList b).map (· ^^^ 0x80000000) := by
    rw [tanhList_fin hb hm, tanhList_fin (valOfFP32_flip hb) hm]
    exact map_signed_not s fun c hc => tanhCodes_le hb hm hc
  rw [tanhVal, tanhVal, magOf_flip, hflip]
  exact pick_map 6 _ (· ^^^ 0x80000000) h

end Fin
end Sys2Proof.Numbers

namespace Sys2Proof.Numbers
open Sys2Proof Sys2Proof.Machine

theorem curveValues_hold : curveValues := by
  refine ⟨fun b s m e hb hm => ⟨fun n hn h1 h2 => ex2_of_int hb hn h1 h2, ex2_overflow hb, ex2_underflow hb,
    fun hs k hk => lg2_of_two_zpow hb hs hk, fun n hn => sinpi_of_nat hb hn,
    fun n hn => ⟨sinpi_of_half hb hn, cospi_of_half hb hn⟩, fun n hn => cospi_of_nat hb hn, ?tanh, sinpi_odd hb, tanh_odd hb hm⟩,
    fun b => ⟨pick_mem 2 b, pick_mem 3 b, pick_mem 4 (magOf b), pick_mem 5 b, pick_mem 6 (magOf b)⟩⟩
  case tanh =>
    intro w hw
    rw [tanhList_fin hb hm] at hw
    obtain ⟨c, hc, rfl⟩ := List.mem_map.1 hw
    have hle := tanhCodes_le hb hm hc
    refine ⟨sign_signed s hle, ?_⟩
    rw [magQ_signed s hle, ← codeQ_one]
    exact codeQ_strictMono.monotone (tanhCodes_le_one hb hm hc)

/-! ## The words and the special values (R76, R299, R327) -/

/-- Where one pattern alone is allowed, it is the answer. -/
theorem pick_of_list {op : Nat} {key w : Word} {l : List Word} (h : l = [w]) : pick op key l = w := by
  rw [h, pick_singleton]

theorem nan_answers {b : Word} (h : isNaN b = true) : [rcpVal b, rsqVal b, sqrtVal b, ex2Val b, lg2Val b, sinpiVal b,
    cospiVal b, tanhVal b] = List.replicate 8 0x7FC00000 := by
  have hb := (isNaN_iff b).1 h
  simp [rcpVal, rsqVal, sqrtVal, ex2Val, lg2Val, sinpiVal, cospiVal, tanhVal, rcpList, rsqList, ex2List, lg2List, sinpiList,
    cospiList, tanhList, hb, qNaN, List.replicate]

theorem rcp_special : rcpVal 0 = 0x7F800000 ∧ rcpVal 0x80000000 = 0xFF800000 ∧ rcpVal 0x7F800000 = 0 ∧
    rcpVal 0xFF800000 = 0x80000000 :=
  ⟨pick_of_list (by decide), pick_of_list (by decide), pick_of_list (by decide), pick_of_list (by decide)⟩

theorem rsq_special : rsqVal 0 = 0x7F800000 ∧ rsqVal 0x80000000 = 0xFF800000 ∧ rsqVal 0x7F800000 = 0 ∧
    rsqVal 0xFF800000 = 0x7FC00000 :=
  ⟨pick_of_list (by decide), pick_of_list (by decide), pick_of_list (by decide), pick_of_list (by decide)⟩

theorem sqrt_special : sqrtVal 0 = 0 ∧ sqrtVal 0x80000000 = 0x80000000 ∧ sqrtVal 0x7F800000 = 0x7F800000 ∧
    sqrtVal 0xFF800000 = 0x7FC00000 := by decide

theorem ex2_special : ex2Val 0xFF800000 = 0 ∧ ex2Val 0x7F800000 = 0x7F800000 ∧ ex2Val 0 = 0x3F800000 ∧
    ex2Val 0x80000000 = 0x3F800000 :=
  ⟨pick_of_list (by decide), pick_of_list (by decide), pick_of_list (by decide), pick_of_list (by decide)⟩

theorem lg2_special : lg2Val 0 = 0xFF800000 ∧ lg2Val 0x80000000 = 0xFF800000 ∧ lg2Val 0x7F800000 = 0x7F800000 ∧
    lg2Val 0xFF800000 = 0x7FC00000 ∧ lg2Val 0x3F800000 = 0 :=
  ⟨pick_of_list (by decide), pick_of_list (by decide), pick_of_list (by decide), pick_of_list (by decide),
    pick_of_list (by decide)⟩

theorem sinpi_special : sinpiVal 0x7F800000 = 0x7FC00000 ∧ sinpiVal 0xFF800000 = 0x7FC00000 ∧ sinpiVal 0 = 0 ∧
    sinpiVal 0x80000000 = 0x80000000 :=
  ⟨pick_of_list (by decide), pick_of_list (by decide), pick_of_list (by decide), pick_of_list (by decide)⟩

theorem cospi_special : cospiVal 0x7F800000 = 0x7FC00000 ∧ cospiVal 0xFF800000 = 0x7FC00000 ∧ cospiVal 0 = 0x3F800000 :=
  ⟨pick_of_list (by decide), pick_of_list (by decide), pick_of_list (by decide)⟩

theorem tanh_special : tanhVal 0 = 0 ∧ tanhVal 0x80000000 = 0x80000000 ∧ tanhVal 0x7F800000 = 0x3F800000 ∧
    tanhVal 0xFF800000 = 0xBF800000 :=
  ⟨pick_of_list (by decide), pick_of_list (by decide), pick_of_list (by decide), pick_of_list (by decide)⟩

/-- A word of the mould of R327 only writes its long-latency result. -/
theorem sfu_after {s : State} {e : Env} (h : openWord s = some e) (d : Reg) (b : Src) (f : Word → Word) :
    sfu d b f s = .next (e.after (fun c => c.putLat d (f (e.src b)))) := runWord_after _ h rfl

/-- ACT takes the bank's contents as they are at issue (R79). -/
theorem exec_act {s : State} {e : Env} (h : openWord s = some e) (n : Fin 4) (d : Reg) (b : Src) : exec (.act n d b) s =
    .next (e.after (fun c => c.putLat d (actVal ((e.s.core e.th.core).bank n.val) (e.src b)))) :=
  runWord_after (f := fun e => e.result (·.putLat d (actVal ((e.s.core e.th.core).bank n.val) (e.src b)))) _ h rfl

/-- Settles O26: the words, the answers for NaN, ACT, and R76's special values, each the only pattern of its list; the roots
and the curves by their own lemmas. -/
theorem specialFunctions : Obligations.SpecialFunctions := by
  unfold Obligations.SpecialFunctions
  refine ⟨⟨fun s e d b h => ⟨sfu_after h d b _, sfu_after h d b _, sfu_after h d b _, sfu_after h d b _, sfu_after h d b _,
      sfu_after h d b _, sfu_after h d b _, sfu_after h d b _⟩, fun s e n d b h => exec_act h n d b⟩,
    fun b => nan_answers, ⟨fun k b h => if_pos h, fun b => actVal_reset, fun k b => actVal_of_number k,
      fun l q x s t m n e f hl hx => actIndex_fin hl hx, fun l q s m e hl => actIndex_inf hl⟩, ?special,
    rootValues_hold, curveValues_hold⟩
  case special =>
    obtain ⟨r1, r2, r3, r4⟩ := rcp_special
    obtain ⟨q1, q2, q3, q4⟩ := rsq_special
    obtain ⟨s1, s2, s3, s4⟩ := sqrt_special
    obtain ⟨e1, e2, e3, e4⟩ := ex2_special
    obtain ⟨l1, l2, l3, l4, l5⟩ := lg2_special
    obtain ⟨i1, i2, i3, i4⟩ := sinpi_special
    obtain ⟨c1, c2, c3⟩ := cospi_special
    exact ⟨r1, r2, r3, r4, q1, q2, q3, q4, s1, s2, s3, s4, e1, e2, e3, e4, l1, l2, l3, l4, l5, i1, c1, i2, c2, i3, i4, c3,
      tanh_special⟩

end Sys2Proof.Numbers

namespace Sys2Proof.Numbers
open Sys2Proof Sys2Proof.Machine

/-! ## Fixed point of 256 bits (log 8) -/

/-- What the fixed-point number of 1 is. -/
@[irreducible] noncomputable def fixOne : ℝ := 2 ^ fixBits

theorem fixOne_pos : 0 < fixOne := by unfold fixOne; positivity

theorem cast_fixOne : ((2 ^ fixBits : Nat) : ℝ) = fixOne := by rw [fixOne, Nat.cast_pow, Nat.cast_ofNat]

/-- A quotient of naturals is the quotient, less than 1 below. -/
theorem natDiv_bounds (a : Nat) {b : Nat} (hb : 0 < b) :
    (a : ℝ) / b - 1 ≤ (a / b : Nat) ∧ ((a / b : Nat) : ℝ) ≤ a / b := by
  have hpos : (0 : ℝ) < b := by exact_mod_cast hb
  refine ⟨?_, Nat.cast_div_le⟩
  rw [sub_le_iff_le_add, div_le_iff₀ hpos]
  exact_mod_cast (Nat.lt_mul_of_div_lt (Nat.lt_succ_self (a / b)) hb).le

/-- The square of a fixed-point number. -/
theorem fixSq_bounds (x : Nat) : fixOne * ((x : ℝ) / fixOne) ^ 2 - 1 ≤ (x * x / 2 ^ fixBits : Nat) ∧
    ((x * x / 2 ^ fixBits : Nat) : ℝ) ≤ fixOne * ((x : ℝ) / fixOne) ^ 2 := by
  have h := natDiv_bounds (x * x) (show 0 < 2 ^ fixBits from Nat.pow_pos two_pos)
  have hsq : fixOne * ((x : ℝ) / fixOne) ^ 2 = ((x * x : Nat) : ℝ) / (2 ^ fixBits : Nat) := by
    rw [cast_fixOne, Nat.cast_mul]
    field_simp [fixOne_pos.ne']
  rwa [hsq]

/-- A running term times a factor, over a natural: it stays below the exact one, and loses little. -/
theorem fixStep_bounds {t c d : Nat} {T C ε : ℝ} (hd : 0 < d) (hT : 0 ≤ T) (hC : 0 ≤ C)
    (ht1 : T - ε ≤ t) (ht2 : (t : ℝ) ≤ T) (hc1 : fixOne * C - 1 ≤ c) (hc2 : (c : ℝ) ≤ fixOne * C) :
    T * C / d - (ε * C + T / fixOne) / d - 1 ≤ (t * c / 2 ^ fixBits / d : Nat) ∧
      ((t * c / 2 ^ fixBits / d : Nat) : ℝ) ≤ T * C / d := by
  have hdpos : (0 : ℝ) < d := by exact_mod_cast hd
  have hF := fixOne_pos
  obtain ⟨h1, h2⟩ := natDiv_bounds (t * c) (b := 2 ^ fixBits * d) (Nat.mul_pos (Nat.pow_pos two_pos) hd)
  rw [← Nat.div_div_eq_div_mul, Nat.cast_mul, Nat.cast_mul, cast_fixOne] at h1 h2
  have hup : (t : ℝ) * c ≤ T * C * fixOne := by
    calc (t : ℝ) * c ≤ T * (fixOne * C) := mul_le_mul ht2 hc2 (Nat.cast_nonneg c) hT
      _ = T * C * fixOne := by ring
  have hlo : (T * C - (ε * C + T / fixOne)) * fixOne ≤ (t : ℝ) * c := by
    calc (T * C - (ε * C + T / fixOne)) * fixOne = (T - ε) * (fixOne * C) - T := by field_simp; ring
      _ ≤ t * (fixOne * C) - t := by
        have := mul_le_mul_of_nonneg_right ht1 (mul_nonneg hF.le hC)
        linarith
      _ = t * (fixOne * C - 1) := by ring
      _ ≤ t * c := mul_le_mul_of_nonneg_left hc1 (Nat.cast_nonneg t)
  constructor
  · refine le_trans (sub_le_sub_right ?_ 1) h1
    rw [← sub_div, div_le_div_iff₀ hdpos (by positivity)]
    calc (T * C - (ε * C + T / fixOne)) * (fixOne * d) = (T * C - (ε * C + T / fixOne)) * fixOne * d := by ring
      _ ≤ t * c * d := mul_le_mul_of_nonneg_right hlo hdpos.le
  · refine h2.trans ?_
    rw [div_le_div_iff₀ (by positivity) hdpos]
    calc (t : ℝ) * c * d ≤ T * C * fixOne * d := mul_le_mul_of_nonneg_right hup hdpos.le
      _ = T * C * (fixOne * d) := by ring

/-- The tail of a series that falls geometrically from its n-th term on. -/
theorem abs_sum_sub_le {f : Nat → ℝ} {a C r : ℝ} (h : HasSum f a) (n : Nat) (hr0 : 0 ≤ r) (hr1 : r < 1)
    (hf : ∀ i, |f (n + i)| ≤ C * r ^ i) : |∑ i ∈ Finset.range n, f i - a| ≤ C / (1 - r) := by
  have htail := (hasSum_nat_add_iff' n).2 h
  have hgeom := (hasSum_geometric_of_lt_one hr0 hr1).mul_left C
  rw [abs_sub_comm]
  exact htail.norm_le_of_bounded hgeom fun i => by rw [Nat.add_comm]; exact hf i

/-! ### The series of the arctangent and of its hyperbolic partner -/

/-- A term of the series Σ ± x^(2k+1) / (2k+1). -/
noncomputable def oddTerm (alt : Bool) (x : ℝ) (k : Nat) : ℝ :=
  (if alt then (-1) ^ k else 1) * (x ^ (2 * k + 1) / (2 * k + 1))

theorem abs_oddTerm (alt : Bool) {x : ℝ} (hx : 0 ≤ x) (k : Nat) : |oddTerm alt x k| = x ^ (2 * k + 1) / (2 * k + 1) := by
  have hpos : 0 ≤ x ^ (2 * k + 1) / (2 * (k : ℝ) + 1) := by positivity
  cases alt <;> simp [oddTerm, abs_mul, abs_of_nonneg hpos]

/-- The sign of a term of the alternating series. -/
theorem oddSign (alt : Bool) (k : Nat) (u : Int) :
    (((if alt && k % 2 == 1 then -u else u) : Int) : ℝ) = (if alt then (-1) ^ k else 1) * u := by
  cases alt
  · simp
  · rcases Nat.even_or_odd k with h | h
    · simp [Nat.even_iff.1 h, h.neg_one_pow]
    · simp [Nat.odd_iff.1 h, h.neg_one_pow]

/-- The running power over 2k + 1, with its sign, is near the term. -/
theorem oddTerm_near (alt : Bool) {x : ℝ} {k t : Nat} (ht1 : fixOne * x ^ (2 * k + 1) - 2 ≤ t)
    (ht2 : (t : ℝ) ≤ fixOne * x ^ (2 * k + 1)) :
    |(((if alt && k % 2 == 1 then -((t / (2 * k + 1) : Nat) : Int) else ((t / (2 * k + 1) : Nat) : Int)) : Int) : ℝ) -
      fixOne * oddTerm alt x k| ≤ 3 := by
  obtain ⟨hu1, hu2⟩ := natDiv_bounds t (b := 2 * k + 1) (by omega)
  have hk : (1 : ℝ) ≤ ((2 * k + 1 : Nat) : ℝ) := by exact_mod_cast (by omega : 1 ≤ 2 * k + 1)
  have hkpos : (0 : ℝ) < ((2 * k + 1 : Nat) : ℝ) := by linarith
  have hu : |((t / (2 * k + 1) : Nat) : ℝ) - fixOne * (x ^ (2 * k + 1) / (2 * k + 1))| ≤ 3 := by
    have hcast : fixOne * (x ^ (2 * k + 1) / (2 * (k : ℝ) + 1)) = fixOne * x ^ (2 * k + 1) / ((2 * k + 1 : Nat) : ℝ) := by
      push_cast
      ring
    have hlo : fixOne * x ^ (2 * k + 1) / ((2 * k + 1 : Nat) : ℝ) - 2 ≤ t / ((2 * k + 1 : Nat) : ℝ) := by
      rw [sub_le_iff_le_add, div_le_iff₀ hkpos, add_mul, div_mul_cancel₀ _ hkpos.ne']
      linarith
    have hup : (t : ℝ) / ((2 * k + 1 : Nat) : ℝ) ≤ fixOne * x ^ (2 * k + 1) / ((2 * k + 1 : Nat) : ℝ) := by gcongr
    rw [hcast, abs_le]
    constructor <;> linarith
  rw [oddSign, oddTerm, Int.cast_natCast]
  cases alt
  · simpa using hu
  · simp only [if_true]
    rw [mul_left_comm, ← mul_sub, abs_mul, abs_pow, abs_neg, abs_one, one_pow, one_mul]
    exact hu

section Odd
variable {alt : Bool} {x2 : Nat} {x : ℝ} (hx0 : 0 ≤ x) (hx1 : x ≤ 1 / 2) (h1 : fixOne * x ^ 2 - 1 ≤ x2)
  (h2 : (x2 : ℝ) ≤ fixOne * x ^ 2)
include hx0 hx1 h1 h2

theorem oddSeries_near (n k t : Nat) (ht1 : fixOne * x ^ (2 * k + 1) - 2 ≤ t) (ht2 : (t : ℝ) ≤ fixOne * x ^ (2 * k + 1)) :
    |(oddSeries alt x2 n k t : ℝ) - fixOne * ∑ i ∈ Finset.range n, oddTerm alt x (k + i)| ≤ 3 * n := by
  induction n generalizing k t with
  | zero => simp [oddSeries]
  | succ n ih =>
    have hF := fixOne_pos
    have hpow : x ^ (2 * k + 1) ≤ 1 / 2 := by
      calc x ^ (2 * k + 1) ≤ x ^ 1 := pow_le_pow_of_le_one hx0 (by linarith) (by omega)
        _ ≤ 1 / 2 := by simpa using hx1
    have hsq : x ^ 2 ≤ 1 / 4 := by nlinarith
    have hT : 0 ≤ fixOne * x ^ (2 * k + 1) := by positivity
    have hstep := fixStep_bounds (d := 1) one_pos hT (sq_nonneg x) ht1 ht2 h1 h2
    have hnext : fixOne * x ^ (2 * k + 1) * x ^ 2 = fixOne * x ^ (2 * (k + 1) + 1) := by ring
    rw [Nat.div_one, Nat.cast_one, div_one, div_one, mul_div_cancel_left₀ _ hF.ne', hnext] at hstep
    have hrest := ih (k + 1) (t * x2 / 2 ^ fixBits) (by linarith [hstep.1]) hstep.2
    have hterm := oddTerm_near alt ht1 ht2
    rw [Finset.sum_range_succ', mul_add]
    have hshift : ∀ i, oddTerm alt x (k + (i + 1)) = oddTerm alt x (k + 1 + i) := fun i => by
      rw [Nat.add_right_comm, Nat.add_assoc]
    simp only [hshift, Nat.add_zero]
    show |((_ + oddSeries alt x2 n (k + 1) (t * x2 / 2 ^ fixBits) : Int) : ℝ) - _| ≤ _
    rw [Int.cast_add]
    push_cast at hterm ⊢
    rw [abs_le] at hrest hterm ⊢
    constructor <;> linarith [hrest.1, hrest.2, hterm.1, hterm.2]

end Odd
end Sys2Proof.Numbers

namespace Sys2Proof.Numbers
open Sys2Proof Sys2Proof.Machine

/-! ### The fixed-point logarithm, ln 2 and π -/

/-- What a fixed-point number stands for. -/
noncomputable def fixVal (x : Nat) : ℝ := x / fixOne

theorem fixVal_nonneg (x : Nat) : 0 ≤ fixVal x := div_nonneg (Nat.cast_nonneg x) fixOne_pos.le

theorem fixOne_mul_fixVal (x : Nat) : fixOne * fixVal x = x := mul_div_cancel₀ _ fixOne_pos.ne'

theorem fixVal_le {x : Nat} {q : ℝ} : fixVal x ≤ q ↔ (x : ℝ) ≤ q * fixOne := div_le_iff₀ fixOne_pos

theorem le_fixVal {x : Nat} {q : ℝ} : q ≤ fixVal x ↔ q * fixOne ≤ (x : ℝ) := le_div_iff₀ fixOne_pos

/-- The terms left out of the odd series are below the last places kept. -/
theorem oddSeries_zero_near {alt : Bool} {x n : Nat} {v : ℝ} (hx : fixVal x ≤ 1 / 2) (hn : 120 ≤ n) (hn1 : n ≤ 170)
    (hv : HasSum (oddTerm alt (fixVal x)) v) :
    |(oddSeries alt (x * x / 2 ^ fixBits) n 0 x : ℝ) - fixOne * v| ≤ 2 ^ 17 := by
  have hF := fixOne_pos
  have hX := fixVal_nonneg x
  obtain ⟨h1, h2⟩ := fixSq_bounds x
  have hexact : fixOne * fixVal x ^ (2 * 0 + 1) = x := by rw [pow_one, fixOne_mul_fixVal]
  have hnear := oddSeries_near (alt := alt) hX hx h1 h2 n 0 x (by rw [hexact]; linarith) (by rw [hexact])
  simp only [Nat.zero_add] at hnear
  have htail := abs_sum_sub_le (C := (1 / 2) ^ 241) (r := 1 / 4) hv n (by norm_num) (by norm_num) fun i => by
    rw [abs_oddTerm alt hX]
    have hden : (1 : ℝ) ≤ 2 * ((n + i : Nat) : ℝ) + 1 := by linarith [Nat.cast_nonneg (α := ℝ) (n + i)]
    calc fixVal x ^ (2 * (n + i) + 1) / (2 * ((n + i : Nat) : ℝ) + 1) ≤ fixVal x ^ (2 * (n + i) + 1) :=
          div_le_self (by positivity) hden
      _ ≤ (1 / 2) ^ (2 * (n + i) + 1) := by gcongr
      _ ≤ (1 / 2) ^ (241 + 2 * i) := pow_le_pow_of_le_one (by norm_num) (by norm_num) (by omega)
      _ = (1 / 2) ^ 241 * (1 / 4) ^ i := by rw [pow_add, pow_mul]; norm_num
  have hsmall : fixOne * ((1 / 2) ^ 241 / (1 - 1 / 4)) ≤ 2 ^ 16 := by
    rw [fixOne, fixBits]
    norm_num
  have htail' : |fixOne * ∑ i ∈ Finset.range n, oddTerm alt (fixVal x) i - fixOne * v| ≤ 2 ^ 16 := by
    rw [← mul_sub, abs_mul, abs_of_pos hF]
    exact (mul_le_mul_of_nonneg_left htail hF.le).trans hsmall
  have hn' : (n : ℝ) ≤ 170 := by exact_mod_cast hn1
  rw [abs_le] at hnear htail' ⊢
  constructor <;> linarith [hnear.1, hnear.2, htail'.1, htail'.2]

theorem hasSum_artanh {x : ℝ} (h0 : 0 ≤ x) (h1 : x < 1) : HasSum (oddTerm false x) (Real.artanh x) := by
  have h := (Real.hasSum_log_sub_log_of_abs_lt_one (abs_lt.2 ⟨by linarith, h1⟩)).mul_left (1 / 2)
  rw [← Real.log_div (by linarith) (by linarith), ← Real.artanh_eq_half_log ⟨by linarith, h1.le⟩] at h
  have hterm : oddTerm false x = fun k : Nat => 1 / 2 * (2 * (1 / (2 * (k : ℝ) + 1)) * x ^ (2 * k + 1)) :=
    funext fun k => by
    simp only [oddTerm, Bool.false_eq_true, if_false]
    ring
  rw [hterm]
  exact h

theorem hasSum_arctan_oddTerm {x : ℝ} (h0 : 0 ≤ x) (h1 : x < 1) : HasSum (oddTerm true x) (Real.arctan x) := by
  have h := Real.hasSum_arctan (x := x) (by rw [Real.norm_eq_abs, abs_of_nonneg h0]; exact h1)
  convert h using 2 with k
  rw [oddTerm, if_pos rfl]
  push_cast
  ring

theorem atanhFix_near {x : Nat} (hx : fixVal x ≤ 1 / 2) : |(atanhFix x : ℝ) - fixOne * Real.artanh (fixVal x)| ≤ 2 ^ 17 :=
  oddSeries_zero_near hx (by norm_num) le_rfl (hasSum_artanh (fixVal_nonneg x) (by linarith))

theorem atanFix_near {x : Nat} (hx : fixVal x ≤ 1 / 2) : |(atanFix x : ℝ) - fixOne * Real.arctan (fixVal x)| ≤ 2 ^ 17 :=
  oddSeries_zero_near hx le_rfl (by norm_num) (hasSum_arctan_oddTerm (fixVal_nonneg x) (by linarith))

/-- The slope of the arctangent is at most 1. -/
theorem arctan_sub_le {x y : ℝ} (h : x ≤ y) : Real.arctan y - Real.arctan x ≤ y - x := by
  have hslope : ∀ z, deriv Real.arctan z ≤ 1 := fun z => by
    rw [Real.deriv_arctan, div_le_one (by positivity)]
    linarith [sq_nonneg z]
  simpa using image_sub_le_mul_sub_of_deriv_le Real.differentiable_arctan hslope h

/-- The slope of its hyperbolic partner is at most 2 up to 1/2. -/
theorem artanh_sub_le {x y : ℝ} (h0 : 0 ≤ x) (h : x ≤ y) (h1 : y ≤ 1 / 2) :
    Real.artanh y - Real.artanh x ≤ 2 * (y - x) := by
  have hlog : ∀ z : ℝ, 0 ≤ z → z ≤ 1 / 2 → Real.artanh z = 1 / 2 * (Real.log (1 + z) - Real.log (1 - z)) :=
      fun z hz hz1 => by
    rw [Real.artanh_eq_half_log ⟨by linarith, by linarith⟩, Real.log_div (by linarith) (by linarith)]
  have hplus : Real.log (1 + y) - Real.log (1 + x) ≤ y - x := by
    rw [← Real.log_div (by linarith) (by linarith)]
    refine (Real.log_le_sub_one_of_pos (div_pos (by linarith) (by linarith))).trans ?_
    rw [div_sub_one (by linarith), div_le_iff₀ (by linarith)]
    nlinarith
  have hminus : Real.log (1 - x) - Real.log (1 - y) ≤ 2 * (y - x) := by
    rw [← Real.log_div (by linarith) (by linarith)]
    refine (Real.log_le_sub_one_of_pos (div_pos (by linarith) (by linarith))).trans ?_
    rw [div_sub_one (by linarith), div_le_iff₀ (by linarith)]
    nlinarith
  rw [hlog x h0 (by linarith), hlog y (by linarith) h1]
  linarith

/-- A quotient in fixed point is the quotient, less than one unit below. -/
theorem fixVal_div_bounds (a : Nat) {d : Nat} (hd : 0 < d) :
    (a : ℝ) / d - 1 / fixOne ≤ fixVal (a * 2 ^ fixBits / d) ∧ fixVal (a * 2 ^ fixBits / d) ≤ a / d := by
  obtain ⟨h1, h2⟩ := natDiv_bounds (a * 2 ^ fixBits) hd
  have hF := fixOne_pos
  have hscale : ((a * 2 ^ fixBits : Nat) : ℝ) / d = (a : ℝ) / d * fixOne := by rw [Nat.cast_mul, cast_fixOne]; ring
  rw [hscale] at h1 h2
  refine ⟨?_, fixVal_le.2 h2⟩
  rw [le_fixVal, sub_mul, one_div_mul_cancel hF.ne']
  exact h1

/-- A function that grows no faster than twice its argument does not see the unit lost in the argument. -/
theorem near_of_argument {z : Int} {f : ℝ → ℝ} {x v δ : ℝ} (h1 : v - 1 / fixOne ≤ x) (hmono : f x ≤ f v)
    (hslope : f v - f x ≤ 2 * (v - x)) (h : |(z : ℝ) - fixOne * f x| ≤ δ) : |(z : ℝ) - fixOne * f v| ≤ δ + 2 := by
  have hF := fixOne_pos
  have hgap : fixOne * (f v - f x) ≤ 2 := by
    calc fixOne * (f v - f x) ≤ fixOne * (2 * (1 / fixOne)) := mul_le_mul_of_nonneg_left (by linarith) hF.le
      _ = 2 := by field_simp
  have hgap0 := mul_nonneg hF.le (sub_nonneg.2 hmono)
  rw [mul_sub] at hgap hgap0
  rw [abs_le] at h ⊢
  constructor <;> linarith [h.1, h.2]

theorem ratio_le_half {a d : Nat} (hd : 0 < d) (h : 2 * a ≤ d) : (a : ℝ) / d ≤ 1 / 2 := by
  rw [div_le_div_iff₀ (by exact_mod_cast hd) two_pos]
  exact_mod_cast (by omega : a * 2 ≤ 1 * d)

theorem atanhFix_div_near {a d : Nat} (hd : 0 < d) (h : 2 * a ≤ d) :
    |(atanhFix (a * 2 ^ fixBits / d) : ℝ) - fixOne * Real.artanh (a / d)| ≤ 2 ^ 17 + 2 := by
  obtain ⟨h1, h2⟩ := fixVal_div_bounds a hd
  have hhalf := ratio_le_half hd h
  have h0 := fixVal_nonneg (a * 2 ^ fixBits / d)
  exact near_of_argument h1 (Real.artanh_le_artanh (by linarith) (by linarith) h2) (artanh_sub_le h0 h2 hhalf)
    (atanhFix_near (h2.trans hhalf))

theorem atanFix_div_near {a d : Nat} (hd : 0 < d) (h : 2 * a ≤ d) :
    |(atanFix (a * 2 ^ fixBits / d) : ℝ) - fixOne * Real.arctan (a / d)| ≤ 2 ^ 17 + 2 := by
  obtain ⟨h1, h2⟩ := fixVal_div_bounds a hd
  exact near_of_argument h1 (Real.arctan_le_arctan_iff.2 h2) (by linarith [arctan_sub_le h2])
    (atanFix_near (h2.trans (ratio_le_half hd h)))

/-- Where the exact value is not negative, cutting the result off at 0 does not move it away. -/
theorem toNat_near {z : Int} {v δ : ℝ} (hv : 0 ≤ v) (h : |(z : ℝ) - v| ≤ δ) : |(z.toNat : ℝ) - v| ≤ δ := by
  rcases le_total 0 z with hz | hz
  · rwa [← Int.cast_natCast, Int.toNat_of_nonneg hz]
  · have hz' : (z : ℝ) ≤ 0 := by exact_mod_cast hz
    rw [abs_le] at h
    rw [Int.toNat_of_nonpos hz, Nat.cast_zero, zero_sub, abs_neg, abs_of_nonneg hv]
    linarith [h.1]

theorem artanh_third : 2 * Real.artanh (1 / 3) = Real.log 2 := by
  rw [Real.artanh_eq_half_log ⟨by norm_num, by norm_num⟩]
  norm_num
  ring

theorem ln2Fix_near : |(ln2Fix : ℝ) - fixOne * Real.log 2| ≤ 2 ^ 19 := by
  refine toNat_near (mul_nonneg fixOne_pos.le (Real.log_nonneg one_le_two)) ?_
  have h := atanhFix_div_near (a := 1) (d := 3) (by norm_num) (by norm_num)
  rw [Nat.one_mul, Nat.cast_one, Nat.cast_ofNat] at h
  rw [← artanh_third]
  push_cast
  rw [abs_le] at h ⊢
  constructor <;> linarith [h.1, h.2]

theorem piFix_near : |(piFix : ℝ) - fixOne * Real.pi| ≤ 2 ^ 22 := by
  refine toNat_near (mul_nonneg fixOne_pos.le Real.pi_pos.le) ?_
  have h5 := atanFix_div_near (a := 1) (d := 5) (by norm_num) (by norm_num)
  have h239 := atanFix_div_near (a := 1) (d := 239) (by norm_num) (by norm_num)
  rw [Nat.one_mul, Nat.cast_one, Nat.cast_ofNat, one_div] at h5 h239
  have hmachin : Real.pi = 16 * Real.arctan 5⁻¹ - 4 * Real.arctan 239⁻¹ := by
    linarith [Real.four_mul_arctan_inv_5_sub_arctan_inv_239]
  rw [hmachin]
  push_cast
  rw [abs_le] at h5 h239 ⊢
  constructor <;> linarith [h5.1, h5.2, h239.1, h239.2]

end Sys2Proof.Numbers

namespace Sys2Proof.Numbers
open Sys2Proof Sys2Proof.Machine

/-! ### The fixed-point exponential, sine and cosine -/

/-- The k-th term of the exponential's series. -/
noncomputable def expTerm (x : ℝ) (k : Nat) : ℝ := x ^ k / k.factorial

theorem expTerm_zero (x : ℝ) : expTerm x 0 = 1 := by simp [expTerm]

theorem expTerm_one (x : ℝ) : expTerm x 1 = x := by simp [expTerm]

theorem expTerm_succ (x : ℝ) (k : Nat) : expTerm x k * x / ((k + 1 : Nat) : ℝ) = expTerm x (k + 1) := by
  rw [expTerm, expTerm, Nat.factorial_succ, Nat.cast_mul, pow_succ, div_mul_eq_mul_div, div_div, mul_comm (k.factorial : ℝ)]

theorem expTerm_add_two (x : ℝ) (k : Nat) : expTerm x k * x ^ 2 / (((k + 1) * (k + 2) : Nat) : ℝ) = expTerm x (k + 2) := by
  rw [← expTerm_succ x (k + 1), ← expTerm_succ x k, Nat.cast_mul]
  field_simp

theorem expTerm_nonneg {x : ℝ} (hx : 0 ≤ x) (k : Nat) : 0 ≤ expTerm x k := by
  unfold expTerm
  positivity

theorem expTerm_le_one {x : ℝ} (h0 : 0 ≤ x) (h1 : x ≤ 1) (k : Nat) : expTerm x k ≤ 1 := by
  rw [expTerm, div_le_one (by exact_mod_cast k.factorial_pos)]
  exact (pow_le_one₀ h0 h1).trans (by exact_mod_cast k.factorial_pos)

theorem two_pow_le_factorial (k : Nat) : 2 ^ k ≤ 2 * k.factorial := by
  rcases k with _ | k
  · norm_num
  · have h := Nat.factorial_mul_pow_le_factorial (m := 1) (n := k)
    rw [Nat.add_comm 1 k] at h
    rw [Nat.pow_succ']
    simpa using h

theorem expTerm_le_two {x : ℝ} (h0 : 0 ≤ x) (h2 : x ≤ 2) (k : Nat) : expTerm x k ≤ 2 := by
  rw [expTerm, div_le_iff₀ (by exact_mod_cast k.factorial_pos)]
  exact (pow_le_pow_left₀ h0 h2 k).trans (by exact_mod_cast two_pow_le_factorial k)

theorem expSeries_near {x : Nat} (hx : fixVal x ≤ 1) (n k t : Nat) (ht1 : fixOne * expTerm (fixVal x) k - 2 * k ≤ t)
    (ht2 : (t : ℝ) ≤ fixOne * expTerm (fixVal x) k) :
    |(expSeries x n k t : ℝ) - fixOne * ∑ i ∈ Finset.range n, expTerm (fixVal x) (k + i)| ≤ 2 * n * (k + n) := by
  induction n generalizing k t with
  | zero => simp [expSeries]
  | succ n ih =>
    have hF := fixOne_pos
    have hX := fixVal_nonneg x
    have hT := mul_nonneg hF.le (expTerm_nonneg hX k)
    have hkpos : (0 : ℝ) < ((k + 1 : Nat) : ℝ) := by exact_mod_cast k.succ_pos
    have hk0 : (0 : ℝ) ≤ k := Nat.cast_nonneg k
    have hstep := fixStep_bounds (d := k + 1) (C := fixVal x) (c := x) k.succ_pos hT hX ht1 ht2
      (by rw [fixOne_mul_fixVal]; linarith) (by rw [fixOne_mul_fixVal])
    have hnext : fixOne * expTerm (fixVal x) k * fixVal x / ((k + 1 : Nat) : ℝ) = fixOne * expTerm (fixVal x) (k + 1) := by
      rw [← expTerm_succ]
      ring
    have hloss : (2 * (k : ℝ) * fixVal x + fixOne * expTerm (fixVal x) k / fixOne) / ((k + 1 : Nat) : ℝ) ≤ 2 * k + 1 := by
      rw [mul_div_cancel_left₀ _ hF.ne', div_le_iff₀ hkpos, Nat.cast_succ]
      nlinarith [expTerm_le_one hX hx k, mul_le_mul_of_nonneg_left hx hk0]
    rw [hnext] at hstep
    have hrest := ih (k + 1) (t * x / 2 ^ fixBits / (k + 1)) (by rw [Nat.cast_succ]; linarith [hstep.1]) hstep.2
    rw [Finset.sum_range_succ', mul_add]
    have hshift : ∀ i, expTerm (fixVal x) (k + (i + 1)) = expTerm (fixVal x) (k + 1 + i) := fun i => by
      rw [Nat.add_right_comm, Nat.add_assoc]
    simp only [hshift, Nat.add_zero]
    rw [expSeries, Nat.cast_add]
    push_cast at hrest ⊢
    rw [abs_le] at hrest ⊢
    constructor <;> nlinarith [hrest.1, hrest.2, Nat.cast_nonneg (α := ℝ) n]

theorem expFix_near {x : Nat} (hx : fixVal x ≤ 1) : |(expFix x : ℝ) - fixOne * Real.exp (fixVal x)| ≤ 2 ^ 14 := by
  have hF := fixOne_pos
  have hX := fixVal_nonneg x
  have hnear := expSeries_near hx 70 0 (2 ^ fixBits) (by rw [cast_fixOne, expTerm_zero]; norm_num)
    (by rw [cast_fixOne, expTerm_zero, mul_one])
  simp only [Nat.zero_add] at hnear
  have htail := Real.exp_bound (x := fixVal x) (by rwa [abs_of_nonneg hX]) (n := 70) (by norm_num)
  have hsmall : fixOne * (|fixVal x| ^ 70 * ((Nat.succ 70 : ℝ) / ((Nat.factorial 70 : ℝ) * 70))) ≤ 1 := by
    rw [abs_of_nonneg hX]
    calc fixOne * (fixVal x ^ 70 * ((Nat.succ 70 : ℝ) / ((Nat.factorial 70 : ℝ) * 70)))
        ≤ fixOne * (1 * ((Nat.succ 70 : ℝ) / ((Nat.factorial 70 : ℝ) * 70))) := by
          gcongr
          exact pow_le_one₀ hX hx
      _ ≤ 1 := by
          rw [fixOne, fixBits]
          norm_num [Nat.factorial]
  have htail' : |fixOne * Real.exp (fixVal x) - fixOne * ∑ i ∈ Finset.range 70, expTerm (fixVal x) i| ≤ 1 := by
    rw [← mul_sub, abs_mul, abs_of_pos hF]
    exact (mul_le_mul_of_nonneg_left htail hF.le).trans hsmall
  rw [← expFix] at hnear
  rw [abs_le] at hnear htail' ⊢
  push_cast at hnear
  constructor <;> linarith [hnear.1, hnear.2, htail'.1, htail'.2]

/-- The i-th term of the series of the sine (k = 1) or the cosine (k = 0). -/
noncomputable def trigTerm (x : ℝ) (k i : Nat) : ℝ := (-1) ^ i * expTerm x (k + 2 * i)

theorem trigTerm_succ (x : ℝ) (k i : Nat) : trigTerm x k (i + 1) = -trigTerm x (k + 2) i := by
  rw [trigTerm, trigTerm, pow_succ, show k + 2 * (i + 1) = k + 2 + 2 * i by ring]
  ring

/-- The sign that `trigSeries` carries. -/
def altSign (neg : Bool) : ℝ := if neg then -1 else 1

theorem altSign_not (neg : Bool) : altSign (!neg) = -altSign neg := by cases neg <;> simp [altSign]

theorem altSign_mul (neg : Bool) (t : Nat) : (((if neg then -(t : Int) else (t : Int)) : Int) : ℝ) = altSign neg * t := by
  cases neg <;> simp [altSign]

theorem abs_altSign_mul (neg : Bool) (u : ℝ) : |altSign neg * u| = |u| := by cases neg <;> simp [altSign]

theorem trigSeries_near {x2 : Nat} {X : ℝ} (h0 : 0 ≤ X) (hX : X ≤ 2) (h1 : fixOne * X ^ 2 - 1 ≤ x2)
    (h2 : (x2 : ℝ) ≤ fixOne * X ^ 2) (n k : Nat) (neg : Bool) (t : Nat) (ht1 : fixOne * expTerm X k - 2 * k ≤ t)
    (ht2 : (t : ℝ) ≤ fixOne * expTerm X k) :
    |(trigSeries x2 n k neg t : ℝ) - fixOne * (altSign neg * ∑ i ∈ Finset.range n, trigTerm X k i)| ≤ 2 * n * (k + 2 * n) := by
  induction n generalizing k neg t with
  | zero => simp [trigSeries]
  | succ n ih =>
    have hF := fixOne_pos
    have hT := mul_nonneg hF.le (expTerm_nonneg h0 k)
    have hdpos : 0 < (k + 1) * (k + 2) := Nat.mul_pos k.succ_pos (k + 1).succ_pos
    have hdposR : (0 : ℝ) < (((k + 1) * (k + 2) : Nat) : ℝ) := by exact_mod_cast hdpos
    have hk0 : (0 : ℝ) ≤ k := Nat.cast_nonneg k
    have hsq : X ^ 2 ≤ 4 := by nlinarith
    have hstep := fixStep_bounds (d := (k + 1) * (k + 2)) hdpos hT (sq_nonneg X) ht1 ht2 h1 h2
    have hnext : fixOne * expTerm X k * X ^ 2 / (((k + 1) * (k + 2) : Nat) : ℝ) = fixOne * expTerm X (k + 2) := by
      rw [← expTerm_add_two]
      ring
    have hloss : (2 * (k : ℝ) * X ^ 2 + fixOne * expTerm X k / fixOne) / (((k + 1) * (k + 2) : Nat) : ℝ) ≤ 2 * k + 3 := by
      rw [mul_div_cancel_left₀ _ hF.ne', div_le_iff₀ hdposR]
      push_cast
      nlinarith [expTerm_le_two h0 hX k, mul_le_mul_of_nonneg_left hsq hk0, mul_nonneg hk0 hk0,
        mul_nonneg (mul_nonneg hk0 hk0) hk0]
    rw [hnext] at hstep
    have hrest := ih (k + 2) (!neg) (t * x2 / 2 ^ fixBits / ((k + 1) * (k + 2))) (by push_cast; linarith [hstep.1]) hstep.2
    have hfirst : |altSign neg * t - fixOne * (altSign neg * trigTerm X k 0)| ≤ 2 * k := by
      rw [trigTerm, pow_zero, one_mul, Nat.mul_zero, Nat.add_zero, mul_left_comm, ← mul_sub, abs_altSign_mul, abs_le]
      constructor <;> linarith
    rw [Finset.sum_range_succ', trigSeries]
    simp only [trigTerm_succ, Finset.sum_neg_distrib]
    rw [altSign_not] at hrest
    rw [Int.cast_add, altSign_mul]
    push_cast at hrest ⊢
    rw [abs_le] at hrest hfirst ⊢
    constructor <;> nlinarith [hrest.1, hrest.2, hfirst.1, hfirst.2, Nat.cast_nonneg (α := ℝ) n]

/-- The terms of the sine's and the cosine's series from the 45th on fall fast. -/
theorem abs_trigTerm_le {X : ℝ} (h0 : 0 ≤ X) (hX : X ≤ 2) {k : Nat} (hk : k ≤ 1) (i : Nat) :
    |trigTerm X k (45 + i)| ≤ 2 ^ 91 / Nat.factorial 90 * (1 / 4) ^ i := by
  have hpos := expTerm_nonneg h0 (k + 2 * (45 + i))
  rw [trigTerm, abs_mul, abs_pow, abs_neg, abs_one, one_pow, one_mul, abs_of_nonneg hpos, expTerm]
  have hfac : Nat.factorial 90 * 16 ^ i ≤ (k + 2 * (45 + i)).factorial := by
    calc Nat.factorial 90 * 16 ^ i ≤ Nat.factorial 90 * (90 + 1) ^ (k + 2 * i) := by
          refine Nat.mul_le_mul_left _ ?_
          calc 16 ^ i ≤ ((90 + 1) ^ 2) ^ i := Nat.pow_le_pow_left (by norm_num) i
            _ = (90 + 1) ^ (2 * i) := (pow_mul _ _ _).symm
            _ ≤ (90 + 1) ^ (k + 2 * i) := Nat.pow_le_pow_right (by norm_num) (by omega)
      _ ≤ (90 + (k + 2 * i)).factorial := Nat.factorial_mul_pow_le_factorial
      _ = (k + 2 * (45 + i)).factorial := by congr 1; ring
  have hnum : X ^ (k + 2 * (45 + i)) ≤ 2 ^ 91 * 4 ^ i := by
    calc X ^ (k + 2 * (45 + i)) ≤ 2 ^ (k + 2 * (45 + i)) := pow_le_pow_left₀ h0 hX _
      _ ≤ 2 ^ (91 + 2 * i) := pow_le_pow_right₀ one_le_two (by omega)
      _ = 2 ^ 91 * 4 ^ i := by rw [pow_add, pow_mul]; norm_num
  have hfacpos : (0 : ℝ) < Nat.factorial 90 := by exact_mod_cast Nat.factorial_pos 90
  calc X ^ (k + 2 * (45 + i)) / (k + 2 * (45 + i)).factorial ≤ 2 ^ 91 * 4 ^ i / (Nat.factorial 90 * 16 ^ i) :=
        div_le_div₀ (by positivity) hnum (by positivity) (by exact_mod_cast hfac)
    _ = 2 ^ 91 / Nat.factorial 90 * (1 / 4) ^ i := by
        rw [mul_div_mul_comm, ← div_pow]
        norm_num

theorem trigFix_near {x t k : Nat} {v : ℝ} (hx : fixVal x ≤ 2) (hk : k ≤ 1) (ht : (t : ℝ) = fixOne * expTerm (fixVal x) k)
    (hv : HasSum (trigTerm (fixVal x) k) v) :
    |(trigSeries (x * x / 2 ^ fixBits) 45 k false t : ℝ) - fixOne * v| ≤ 2 ^ 14 := by
  have hF := fixOne_pos
  have hX := fixVal_nonneg x
  obtain ⟨h1, h2⟩ := fixSq_bounds x
  have hk1 : (k : ℝ) ≤ 1 := by exact_mod_cast hk
  have hk0 : (0 : ℝ) ≤ k := Nat.cast_nonneg k
  have hnear := trigSeries_near hX hx h1 h2 45 k false t (by linarith) ht.le
  have htail := abs_sum_sub_le hv 45 (by norm_num) (by norm_num) (abs_trigTerm_le hX hx hk)
  have hsmall : fixOne * (2 ^ 91 / Nat.factorial 90 / (1 - 1 / 4)) ≤ 1 := by
    rw [fixOne, fixBits]
    norm_num [Nat.factorial]
  have htail' : |fixOne * ∑ i ∈ Finset.range 45, trigTerm (fixVal x) k i - fixOne * v| ≤ 1 := by
    rw [← mul_sub, abs_mul, abs_of_pos hF]
    exact (mul_le_mul_of_nonneg_left htail hF.le).trans hsmall
  rw [show altSign false = 1 from rfl, one_mul] at hnear
  rw [abs_le] at hnear htail' ⊢
  push_cast at hnear
  constructor <;> linarith [hnear.1, hnear.2, htail'.1, htail'.2]

theorem hasSum_sin (x : ℝ) : HasSum (trigTerm x 1) (Real.sin x) := by
  have hterm : trigTerm x 1 = fun n : Nat => (-1) ^ n * x ^ (2 * n + 1) / ((2 * n + 1).factorial : ℝ) := funext fun n => by
    rw [trigTerm, expTerm, Nat.add_comm 1, mul_div_assoc]
  rw [hterm]
  exact Real.hasSum_sin x

theorem hasSum_cos (x : ℝ) : HasSum (trigTerm x 0) (Real.cos x) := by
  have hterm : trigTerm x 0 = fun n : Nat => (-1) ^ n * x ^ (2 * n) / ((2 * n).factorial : ℝ) := funext fun n => by
    rw [trigTerm, expTerm, Nat.zero_add, mul_div_assoc]
  rw [hterm]
  exact Real.hasSum_cos x

/-- A function that grows no faster than L times its argument, taken at an argument that is only near. -/
theorem near_of_near_argument {x : Nat} {z L : ℝ} {f : ℝ → ℝ} {θ δ ε : ℝ} (hL : 0 ≤ L)
    (hf : |f (fixVal x) - f θ| ≤ L * |fixVal x - θ|) (hθ : |(x : ℝ) - fixOne * θ| ≤ δ)
    (hz : |z - fixOne * f (fixVal x)| ≤ ε) : |z - fixOne * f θ| ≤ ε + L * δ := by
  have harg : fixOne * |fixVal x - θ| ≤ δ := by
    rwa [← fixOne_mul_fixVal x, ← mul_sub, abs_mul, abs_of_pos fixOne_pos] at hθ
  refine (abs_sub_le _ (fixOne * f (fixVal x)) _).trans (add_le_add hz ?_)
  rw [← mul_sub, abs_mul, abs_of_pos fixOne_pos]
  calc fixOne * |f (fixVal x) - f θ| ≤ fixOne * (L * |fixVal x - θ|) := mul_le_mul_of_nonneg_left hf fixOne_pos.le
    _ = L * (fixOne * |fixVal x - θ|) := by ring
    _ ≤ L * δ := mul_le_mul_of_nonneg_left harg hL

/-- The sine of an argument that is only near. -/
theorem sinFix_near {x : Nat} {θ δ : ℝ} (hx : fixVal x ≤ 2) (hθ : |(x : ℝ) - fixOne * θ| ≤ δ) (h : 0 ≤ Real.sin θ) :
    |(sinFix x : ℝ) - fixOne * Real.sin θ| ≤ 2 ^ 14 + 1 * δ :=
  toNat_near (mul_nonneg fixOne_pos.le h) (near_of_near_argument zero_le_one
    (by rw [one_mul]; exact Real.abs_sin_sub_sin_le _ _) hθ
    (trigFix_near hx le_rfl (by rw [expTerm_one, fixOne_mul_fixVal]) (hasSum_sin _)))

/-- The cosine of an argument that is only near. -/
theorem cosFix_near {x : Nat} {θ δ : ℝ} (hx : fixVal x ≤ 2) (hθ : |(x : ℝ) - fixOne * θ| ≤ δ) (h : 0 ≤ Real.cos θ) :
    |(cosFix x : ℝ) - fixOne * Real.cos θ| ≤ 2 ^ 14 + 1 * δ :=
  toNat_near (mul_nonneg fixOne_pos.le h) (near_of_near_argument zero_le_one
    (by rw [one_mul]; exact Real.abs_cos_sub_cos_le _ _) hθ
    (trigFix_near hx (by norm_num) (by rw [expTerm_zero, mul_one, cast_fixOne]) (hasSum_cos _)))

/-- Up to 1 the exponential grows no faster than three times its argument. -/
theorem abs_exp_sub_exp_le {a b : ℝ} (ha : a ≤ 1) (hb : b ≤ 1) : |Real.exp a - Real.exp b| ≤ 3 * |a - b| := by
  wlog hab : b ≤ a generalizing a b
  · rw [abs_sub_comm, abs_sub_comm a b]
    exact this hb ha (le_of_not_ge hab)
  have he : Real.exp a ≤ 3 := (Real.exp_le_exp.2 ha).trans (by linarith [Real.exp_one_lt_d9])
  have hsplit : Real.exp a - Real.exp b = Real.exp a * (1 - Real.exp (b - a)) := by
    rw [mul_sub, mul_one, ← Real.exp_add, add_sub_cancel]
  rw [abs_of_nonneg (sub_nonneg.2 (Real.exp_le_exp.2 hab)), abs_of_nonneg (sub_nonneg.2 hab), hsplit]
  refine mul_le_mul he (by linarith [Real.add_one_le_exp (b - a)]) ?_ (by norm_num)
  exact sub_nonneg.2 (Real.exp_le_one_iff.2 (by linarith))

/-- The exponential of an argument that is only near. -/
theorem expFix_near_arg {x : Nat} {θ δ : ℝ} (hx : fixVal x ≤ 1) (hθ1 : θ ≤ 1) (hθ : |(x : ℝ) - fixOne * θ| ≤ δ) :
    |(expFix x : ℝ) - fixOne * Real.exp θ| ≤ 2 ^ 14 + 3 * δ :=
  near_of_near_argument (by norm_num) (abs_exp_sub_exp_le hx hθ1) hθ (expFix_near hx)

/-- A product in fixed point, with a factor at most 1. -/
theorem fixMul_near {a c : Nat} {C δ : ℝ} (ha : fixVal a ≤ 1) (hc : |(c : ℝ) - fixOne * C| ≤ δ) :
    |((a * c / 2 ^ fixBits : Nat) : ℝ) - fixOne * (fixVal a * C)| ≤ δ + 1 := by
  obtain ⟨h1, h2⟩ := natDiv_bounds (a * c) (show 0 < 2 ^ fixBits from Nat.pow_pos two_pos)
  have hprod : ((a * c : Nat) : ℝ) / (2 ^ fixBits : Nat) = fixVal a * c := by
    rw [Nat.cast_mul, cast_fixOne, fixVal]
    ring
  have hmul : |fixVal a * c - fixOne * (fixVal a * C)| ≤ δ := by
    rw [mul_left_comm, ← mul_sub, abs_mul, abs_of_nonneg (fixVal_nonneg a)]
    exact (mul_le_of_le_one_left (abs_nonneg _) ha).trans hc
  rw [hprod] at h1 h2
  rw [abs_le] at hmul ⊢
  constructor <;> linarith [hmul.1, hmul.2]

end Sys2Proof.Numbers

namespace Sys2Proof.Numbers
open Sys2Proof Sys2Proof.Machine

/-! ## Enclosures of real values (R75) -/

/-- v lies in [lo, hi] × 2^e, which is at most δ wide and does not reach 0. -/
structure Encloses (lo hi : Nat) (e : Int) (v δ : ℝ) : Prop where
  pos : lo ≠ 0
  lower : (lo : ℝ) * 2 ^ e ≤ v
  upper : v ≤ hi * 2 ^ e
  width : (hi : ℝ) * 2 ^ e - lo * 2 ^ e ≤ δ

theorem fixOne_mul_zpow (n : Int) : fixOne * 2 ^ (n - 256) = (2 : ℝ) ^ n := by
  rw [fixOne, fixBits, zpow_sub₀ two_ne_zero]
  have hpow : ((2 : ℝ) ^ (256 : Int)) = 2 ^ 256 := by norm_cast
  rw [hpow]
  field_simp

/-- A fixed-point number near F × v encloses v × 2^n by itself and a margin. -/
theorem encloses_of_near {y w : Nat} {v : ℝ} (h : |(y : ℝ) - fixOne * v| ≤ w) (hbig : 2 * (w : ℝ) < fixOne * v)
    (n : Int) :
    Encloses (y - w) (y + w) (n - 256) (v * 2 ^ n) (2 * w * 2 ^ (n - 256)) := by
  have hz : (0 : ℝ) < 2 ^ (n - 256) := by positivity
  have hv : v * 2 ^ n = fixOne * v * 2 ^ (n - 256) := by rw [← fixOne_mul_zpow n]; ring
  rw [abs_le] at h
  have hlt : w < y := by exact_mod_cast (by linarith [h.1] : (w : ℝ) < y)
  refine ⟨by omega, ?_, ?_, ?_⟩
  · rw [hv, Nat.cast_sub hlt.le]
    exact mul_le_mul_of_nonneg_right (by linarith [h.2]) hz.le
  · rw [hv, Nat.cast_add]
    exact mul_le_mul_of_nonneg_right (by linarith [h.1]) hz.le
  · rw [Nat.cast_sub hlt.le, Nat.cast_add]
    apply le_of_eq
    ring

/-- A fixed-point number near F × v, far from 0, encloses v with a margin of 2^k units. -/
theorem encloses_of_near_unit {y k : Nat} {v : ℝ} (h : |(y : ℝ) - fixOne * v| ≤ 2 ^ k) (hbig : 2 * 2 ^ k < fixOne * v) :
    Encloses (y - 2 ^ k) (y + 2 ^ k) (-256) v (2 * 2 ^ k * 2 ^ (-256 : Int)) := by
  have hk : ((2 ^ k : Nat) : ℝ) = 2 ^ k := by rw [Nat.cast_pow, Nat.cast_ofNat]
  have henc := encloses_of_near (y := y) (w := 2 ^ k) (v := v) (by rwa [hk]) (by rwa [hk]) 0
  rwa [zpow_zero, mul_one, zero_sub, hk] at henc

/-- The model's bound of a code, read in ℝ. -/
theorem cast_mem_within {b2 lo hi : Nat} {e : Int} {c : Nat} (h : c ∈ within b2 lo hi e) :
    (lo : ℝ) * 2 ^ e - b2 / 2 * ((2 ^ ulpExp lo e : ℚ) : ℝ) ≤ (codeQ c : ℝ) ∧
      (codeQ c : ℝ) ≤ hi * 2 ^ e + b2 / 2 * ((2 ^ ulpExp lo e : ℚ) : ℝ) := by
  obtain ⟨-, -, h1, h2⟩ := mem_within.1 h
  have hhalf : (b2 : ℚ) * 2 ^ (ulpExp lo e - 1) = b2 / 2 * 2 ^ ulpExp lo e := by
    rw [two_zpow_sub, zpow_one]
    ring
  rw [hhalf] at h1 h2
  constructor
  · simpa using (Rat.cast_le (K := ℝ)).2 h1
  · simpa using (Rat.cast_le (K := ℝ)).2 h2

namespace Encloses
variable {lo hi : Nat} {e : Int} {v δ : ℝ} (h : Encloses lo hi e v δ)
include h

theorem le : lo ≤ hi := by
  have hz : (0 : ℝ) < 2 ^ e := by positivity
  exact_mod_cast le_of_mul_le_mul_right (h.lower.trans h.upper) hz

theorem value_pos : 0 < v := by
  have hlo : (0 : ℝ) < lo := by exact_mod_cast Nat.pos_of_ne_zero h.pos
  exact lt_of_lt_of_le (by positivity) h.lower

theorem ulp_le {l : Int} (hv : v < 2 ^ (l + 1)) : ((2 ^ ulpExp lo e : ℚ) : ℝ) ≤ (ulpQ l : ℝ) := by
  have hlt : (lo : ℚ) * 2 ^ e < 2 ^ (l + 1) := by
    rw [← Rat.cast_lt (K := ℝ)]
    push_cast
    exact h.lower.trans_lt hv
  exact_mod_cast two_zpow_ulpExp_le h.pos hlt

theorem lower_lt (hv : v < 2 ^ (128 : Int)) : (lo : ℚ) * 2 ^ e < 2 ^ (128 : Int) := by
  rw [← Rat.cast_lt (K := ℝ), Rat.cast_mul, Rat.cast_natCast, Rat.cast_zpow, Rat.cast_zpow, Rat.cast_ofNat]
  exact h.lower.trans_lt hv

/-- There is a code near an enclosure. -/
theorem map_within_ne_nil {α : Type} {b2 : Nat} (hb2 : 2 ≤ b2) (hv : v < 2 ^ (128 : Int)) (f : Nat → α) :
    (within b2 lo hi e).map f ≠ [] := by
  rw [ne_eq, List.map_eq_nil_iff]
  exact within_ne_nil hb2 h.le (h.lower_lt hv)

/-- The codes near an enclosure stand within their bound of the enclosed value, but for the enclosure's width. -/
theorem closeTo_signed {b2 c : Nat} {neg : Bool} {x : ℝ} (hc : c ∈ within b2 lo hi e) (hx : |x| = v)
    (hneg : neg = decide (x < 0)) (hδ : ∀ l : Int, v < 2 ^ (l + 1) → δ ≤ 2 ^ (-27 : Int) * (ulpQ l : ℝ)) :
    closeTo (b2 / 2) (signed neg c) x := by
  have hle := within_le hc
  obtain ⟨h1, h2⟩ := cast_mem_within hc
  refine ⟨by rw [sign_signed neg hle, hneg], fun l _ hlt => ?_⟩
  rw [hx] at hlt
  have hulp := mul_le_mul_of_nonneg_left (h.ulp_le hlt) (div_nonneg (Nat.cast_nonneg (α := ℝ) b2) two_pos.le)
  have hwidth := h.width.trans (hδ l hlt)
  have hlower := h.lower
  have hupper := h.upper
  rw [magQ_signed neg hle, hx, add_mul, abs_le]
  generalize (b2 : ℝ) / 2 * ((2 ^ ulpExp lo e : ℚ) : ℝ) = u at h1 h2 hulp
  generalize (b2 : ℝ) / 2 * (ulpQ l : ℝ) = u' at hulp ⊢
  generalize (2 : ℝ) ^ (-27 : Int) * (ulpQ l : ℝ) = d at hwidth ⊢
  constructor <;> linarith

end Encloses

/-- A width below every ulp's share. -/
theorem width_le_of_small {δ : ℝ} (h : δ ≤ 2 ^ (-176 : Int)) (l : Int) : δ ≤ 2 ^ (-27 : Int) * (ulpQ l : ℝ) := by
  refine h.trans ?_
  have hulp : (2 : ℚ) ^ (-149 : Int) ≤ ulpQ l := two_zpow_le.2 (le_max_right _ _)
  have hulp' : (2 : ℝ) ^ (-149 : Int) ≤ (ulpQ l : ℝ) := by
    simpa only [Rat.cast_zpow, Rat.cast_ofNat] using (Rat.cast_le (K := ℝ)).2 hulp
  calc (2 : ℝ) ^ (-176 : Int) = 2 ^ (-27 : Int) * 2 ^ (-149 : Int) := by rw [← zpow_add₀ two_ne_zero]; norm_num
    _ ≤ 2 ^ (-27 : Int) * (ulpQ l : ℝ) := by gcongr

/-- An exact pattern is close. -/
theorem closeTo_of_exact {k : ℝ} {neg : Bool} {c : Nat} {x : ℝ} (hk : 0 ≤ k) (hc : c ≤ 255 * 2 ^ 23)
    (hneg : neg = decide (x < 0)) (h : (codeQ c : ℝ) = |x|) : closeTo k (signed neg c) x := by
  refine ⟨by rw [sign_signed neg hc, hneg], fun l _ _ => ?_⟩
  have hulp : (0 : ℝ) ≤ (ulpQ l : ℝ) := by exact_mod_cast (two_zpow_pos _).le
  rw [magQ_signed neg hc, h, sub_self, abs_zero]
  positivity

end Sys2Proof.Numbers

namespace Sys2Proof.Numbers
open Sys2Proof Sys2Proof.Machine

/-! ## EX2 within its bound (R75, R327) -/

/-- The fraction of the operand in fixed point, handed to the exponential. -/
def ex2Fix (f : Nat) : Nat := expFix (f * ln2Fix / 2 ^ fixBits)

theorem fixOne_ge : (2 : ℝ) ^ 200 ≤ fixOne := by
  rw [fixOne]
  exact pow_le_pow_right₀ one_le_two (by norm_num [fixBits])

theorem two_rpow_eq_exp (φ : ℝ) : (2 : ℝ) ^ φ = Real.exp (φ * Real.log 2) := by
  rw [Real.rpow_def_of_pos two_pos, mul_comm]

theorem log_two_lt_one : Real.log 2 < 1 := by linarith [Real.log_two_lt_d9]

theorem ex2Fix_near {f : Nat} (hf : fixVal f ≤ 1) : |(ex2Fix f : ℝ) - fixOne * 2 ^ fixVal f| ≤ 2 ^ 21 := by
  have h0 := fixVal_nonneg f
  have hlog0 : 0 < Real.log 2 := Real.log_pos one_lt_two
  have hF := fixOne_ge
  have harg := fixMul_near hf ln2Fix_near
  have htop : fixVal f * Real.log 2 ≤ Real.log 2 := mul_le_of_le_one_left hlog0.le hf
  have htop1 : fixVal f * Real.log 2 ≤ 1 := htop.trans log_two_lt_one.le
  have hx : fixVal (f * ln2Fix / 2 ^ fixBits) ≤ 1 := by
    rw [fixVal_le, one_mul]
    have hgap : fixOne * (fixVal f * Real.log 2) ≤ fixOne * 0.7 :=
      mul_le_mul_of_nonneg_left (by linarith [Real.log_two_lt_d9]) fixOne_pos.le
    linarith [(abs_le.1 harg).2]
  have hexp := expFix_near_arg hx htop1 harg
  rw [two_rpow_eq_exp]
  refine hexp.trans ?_
  norm_num

section Fin
variable {b : Word} {s : Bool} {m : Nat} {e : Int} (hb : valOfFP32 b = .fin s m e)
include hb

/-- The operand's fraction in fixed point is exact. -/
theorem ex2List_of_fraction (h1 : -150 ≤ ⌊valQ (.fin s m e)⌋) (h2 : ⌊valQ (.fin s m e)⌋ < 128)
    (hne : valQ (.fin s m e) ≠ ⌊valQ (.fin s m e)⌋) : ∃ f : Nat,
    (f : ℚ) = Int.fract (valQ (.fin s m e)) * 2 ^ fixBits ∧ ex2List b =
      (within 4 (ex2Fix f - 2 ^ 40) (ex2Fix f + 2 ^ 40) (⌊valQ (.fin s m e)⌋ - 256)).map (signed false) := by
  have he := (fin_range hb).2.1
  have hmin : min e (-256) = -256 := by omega
  set n := ⌊valQ (.fin s m e)⌋ with hn
  have hcase : ¬ (Val.eq (.fin s m e) (valOfInt n) = true) := fun h => hne ((eq_valOfInt_iff s m e n).1 h)
  have hcase150 : ¬ (n < -150 ∨ n = -150 ∧ Val.eq (.fin s m e) (valOfInt (-150)) = true) := by
    rintro (h | ⟨h, heq⟩)
    · omega
    · exact hcase (h ▸ heq)
  have hsig := signedAt_eq (show -256 ≤ e by omega) s m
  have hval : ((signedAt s m e (-256) - n * 2 ^ fixBits : Int) : ℚ) = Int.fract (valQ (.fin s m e)) * 2 ^ fixBits := by
    have hz : (2 : ℚ) ^ (-256 : Int) * 2 ^ fixBits = 1 := by
      rw [← zpow_natCast, ← two_zpow_add]
      norm_num [fixBits]
    rw [Int.fract, ← hn, ← hsig, sub_mul, mul_assoc, hz, mul_one, Int.cast_sub, Int.cast_mul, Int.cast_pow, Int.cast_ofNat]
  have hnn : 0 ≤ signedAt s m e (-256) - n * 2 ^ fixBits := by
    rw [← Int.cast_nonneg_iff (R := ℚ), hval]
    exact mul_nonneg (Int.fract_nonneg _) (pow_pos two_pos _).le
  refine ⟨(signedAt s m e (-256) - n * 2 ^ fixBits).toNat, ?_, ?_⟩
  · rw [← hval, ← Int.cast_natCast, Int.toNat_of_nonneg hnn]
  · simp only [ex2List, hb, roundToInt_rd, ← hn, hmin]
    rw [if_neg (by omega), if_neg hcase150, if_neg hcase]
    have hexp : (-(-256 : Int)).toNat = fixBits := rfl
    simp only [hexp, Nat.mul_div_cancel _ (Nat.pow_pos (n := fixBits) two_pos), ex2Fix]

omit hb in
/-- A power of 2, split into the exponent's floor and fraction. -/
theorem rpow_floor_fract (q : ℚ) : (2 : ℝ) ^ (q : ℝ) = 2 ^ ((Int.fract q : ℚ) : ℝ) * 2 ^ ⌊q⌋ := by
  rw [← Real.rpow_intCast, ← Real.rpow_add two_pos]
  congr 1
  exact_mod_cast (Int.fract_add_floor q).symm

theorem ex2_encloses (h1 : -150 ≤ ⌊valQ (.fin s m e)⌋) (h2 : ⌊valQ (.fin s m e)⌋ < 128)
    (hne : valQ (.fin s m e) ≠ ⌊valQ (.fin s m e)⌋) : ∃ y : Nat,
    Encloses (y - 2 ^ 40) (y + 2 ^ 40) (⌊valQ (.fin s m e)⌋ - 256) (2 ^ ((valQ (.fin s m e) : ℚ) : ℝ))
      (2 * 2 ^ 40 * 2 ^ (⌊valQ (.fin s m e)⌋ - 256)) ∧
    ex2List b = (within 4 (y - 2 ^ 40) (y + 2 ^ 40) (⌊valQ (.fin s m e)⌋ - 256)).map (signed false) := by
  obtain ⟨f, hf, hlist⟩ := ex2List_of_fraction hb h1 h2 hne
  have hfix : fixVal f = ((Int.fract (valQ (.fin s m e)) : ℚ) : ℝ) := by
    have hcast : (f : ℝ) = ((Int.fract (valQ (.fin s m e)) : ℚ) : ℝ) * fixOne := by
      rw [← cast_fixOne, Nat.cast_pow, Nat.cast_ofNat, ← Rat.cast_natCast, hf]
      push_cast
      rfl
    rw [fixVal, hcast, mul_div_cancel_right₀ _ fixOne_pos.ne']
  have hle : fixVal f ≤ 1 := by
    rw [hfix]
    exact_mod_cast (Int.fract_lt_one (valQ (.fin s m e))).le
  have hnear := ex2Fix_near hle
  have hone : (1 : ℝ) ≤ 2 ^ fixVal f := Real.one_le_rpow one_le_two (fixVal_nonneg f)
  have hF := fixOne_ge
  have hbig : fixOne ≤ fixOne * 2 ^ fixVal f := le_mul_of_one_le_right fixOne_pos.le hone
  refine ⟨ex2Fix f, ?_, hlist⟩
  have henc := encloses_of_near (w := 2 ^ 40) (hnear.trans (by norm_num)) (by push_cast; linarith) ⌊valQ (.fin s m e)⌋
  rw [rpow_floor_fract, ← hfix]
  exact_mod_cast henc

theorem ex2_closeTo (h1 : -150 < ((valQ (.fin s m e) : ℚ) : ℝ)) (h2 : ((valQ (.fin s m e) : ℚ) : ℝ) < 128) {w : Word}
    (hw : w ∈ ex2List b) : closeTo 2 w (2 ^ ((valQ (.fin s m e) : ℚ) : ℝ)) := by
  have hpos : (0 : ℝ) < 2 ^ ((valQ (.fin s m e) : ℚ) : ℝ) := Real.rpow_pos_of_pos two_pos _
  have hsign : false = decide ((2 : ℝ) ^ ((valQ (.fin s m e) : ℚ) : ℝ) < 0) := (decide_eq_false hpos.not_gt).symm
  have hlow : -150 ≤ ⌊valQ (.fin s m e)⌋ := Int.le_floor.2 (by exact_mod_cast h1.le)
  have hhigh : ⌊valQ (.fin s m e)⌋ < 128 := Int.floor_lt.2 (by exact_mod_cast h2)
  by_cases hint : valQ (.fin s m e) = ⌊valQ (.fin s m e)⌋
  · have hlow' : -149 ≤ ⌊valQ (.fin s m e)⌋ := by
      rw [hint] at h1
      have : (-150 : Int) < ⌊valQ (.fin s m e)⌋ := by exact_mod_cast h1
      omega
    rw [ex2List_of_int hb hint hlow' (by omega), List.mem_singleton] at hw
    subst hw
    refine closeTo_of_exact two_pos.le (roundCode_le _ _ _ _ _) hsign ?_
    rw [codeQ_roundCode_two_zpow one_ne_zero one_ne_zero _ _ _ hlow' (by omega) (by simp), abs_of_pos hpos]
    conv_rhs => rw [hint]
    rw [Rat.cast_intCast, Real.rpow_intCast, Rat.cast_zpow, Rat.cast_ofNat]
  · obtain ⟨y, henc, hlist⟩ := ex2_encloses hb hlow hhigh hint
    rw [hlist] at hw
    obtain ⟨c, hc, rfl⟩ := List.mem_map.1 hw
    have hclose := henc.closeTo_signed (b2 := 4) hc (abs_of_pos hpos) hsign fun l hl => ?_
    · norm_num at hclose ⊢
      exact hclose
    · have hn : (2 : ℝ) ^ ⌊valQ (.fin s m e)⌋ ≤ 2 ^ ((valQ (.fin s m e) : ℚ) : ℝ) := by
        rw [← Real.rpow_intCast]
        exact Real.rpow_le_rpow_of_exponent_le one_le_two (by exact_mod_cast Int.floor_le _)
      have hnl := (zpow_lt_zpow_iff_right₀ (one_lt_two (α := ℝ))).1 (hn.trans_lt hl)
      have hulp : (2 : ℚ) ^ (⌊valQ (.fin s m e)⌋ - 23) ≤ ulpQ l := two_zpow_le.2 (by omega)
      have hulp' : (2 : ℝ) ^ (⌊valQ (.fin s m e)⌋ - 23) ≤ (ulpQ l : ℝ) := by
        simpa only [Rat.cast_zpow, Rat.cast_ofNat] using (Rat.cast_le (K := ℝ)).2 hulp
      calc (2 : ℝ) * 2 ^ 40 * 2 ^ (⌊valQ (.fin s m e)⌋ - 256) = 2 ^ (⌊valQ (.fin s m e)⌋ - 215) := by
            rw [show ⌊valQ (.fin s m e)⌋ - 215 = 41 + (⌊valQ (.fin s m e)⌋ - 256) by ring, zpow_add₀ two_ne_zero]
            norm_num
        _ ≤ 2 ^ (-27 + (⌊valQ (.fin s m e)⌋ - 23)) := zpow_le_zpow_right₀ one_le_two (by omega)
        _ = 2 ^ (-27 : Int) * 2 ^ (⌊valQ (.fin s m e)⌋ - 23) := zpow_add₀ two_ne_zero _ _
        _ ≤ 2 ^ (-27 : Int) * (ulpQ l : ℝ) := by gcongr

end Fin

theorem ex2List_ne_nil (b : Word) : ex2List b ≠ [] := by
  rcases hb : valOfFP32 b with _ | s | ⟨s, m, e⟩
  · simp [ex2List, hb]
  · simp [ex2List, hb]
  · by_cases hhigh : 128 ≤ ⌊valQ (.fin s m e)⌋
    · simp only [ex2List, hb, roundToInt_rd, if_pos hhigh, ne_eq, List.cons_ne_nil, not_false_eq_true]
    by_cases hlow : ⌊valQ (.fin s m e)⌋ < -150 ∨ ⌊valQ (.fin s m e)⌋ = -150 ∧ Val.eq (.fin s m e) (valOfInt (-150))
    · simp only [ex2List, hb, roundToInt_rd, if_neg hhigh, if_pos hlow, ne_eq, List.cons_ne_nil, not_false_eq_true]
    by_cases hint : Val.eq (.fin s m e) (valOfInt ⌊valQ (.fin s m e)⌋) = true
    · simp only [ex2List, hb, roundToInt_rd, if_neg hhigh, if_neg hlow, if_pos hint, ne_eq, List.cons_ne_nil,
        not_false_eq_true]
    · rw [eq_valOfInt_iff] at hint
      obtain ⟨y, henc, hlist⟩ := ex2_encloses hb (by omega) (by omega) hint
      rw [hlist]
      refine henc.map_within_ne_nil (by norm_num) ?_ _
      have hlt : ((valQ (.fin s m e) : ℚ) : ℝ) < 128 := by
        exact_mod_cast Int.floor_lt.1 (show ⌊valQ (.fin s m e)⌋ < 128 by omega)
      rw [← Real.rpow_intCast]
      exact Real.rpow_lt_rpow_of_exponent_lt one_lt_two (by exact_mod_cast hlt)

end Sys2Proof.Numbers

namespace Sys2Proof.Numbers
open Sys2Proof Sys2Proof.Machine

/-! ## LG2 within its bound (R75, R340) -/

/-- A quotient by a fixed-point number that is only near. -/
theorem quotient_near {A B ρ b r δ ε : ℝ} (hA : |A - fixOne * (ρ * b)| ≤ δ) (hB : |B - fixOne * b| ≤ ε)
    (h0 : 0 ≤ ρ) (hr : ρ ≤ r) (hBF : fixOne ≤ 2 * B) : |A * fixOne / B - fixOne * ρ| ≤ 2 * (δ + r * ε) := by
  have hF := fixOne_pos
  have hBpos : 0 < B := by linarith
  have hsplit : A * fixOne / B - fixOne * ρ = (A - fixOne * (ρ * b) - ρ * (B - fixOne * b)) * (fixOne / B) := by
    field_simp
    ring
  have hratio : fixOne / B ≤ 2 := by rwa [div_le_iff₀ hBpos]
  have hdiff : |A - fixOne * (ρ * b) - ρ * (B - fixOne * b)| ≤ δ + r * ε := by
    refine (abs_sub _ _).trans (add_le_add hA ?_)
    rw [abs_mul, abs_of_nonneg h0]
    exact mul_le_mul hr hB (abs_nonneg _) (h0.trans hr)
  rw [hsplit, abs_mul, abs_of_pos (div_pos hF hBpos), mul_comm (2 : ℝ)]
  exact mul_le_mul hdiff hratio (div_pos hF hBpos).le ((abs_nonneg _).trans hdiff)

theorem ln2Fix_ge : fixOne ≤ 2 * (ln2Fix : ℝ) := by
  have h := (abs_le.1 ln2Fix_near).1
  have hF := fixOne_ge
  have hlog := mul_le_mul_of_nonneg_left Real.log_two_gt_d9.le fixOne_pos.le
  linarith

theorem ln2Fix_pos : 0 < ln2Fix := by
  have h := ln2Fix_ge
  have hF := fixOne_pos
  exact_mod_cast (by linarith : (0 : ℝ) < ln2Fix)

theorem intDiv_bounds (a : Int) {b : Int} (hb : 0 < b) :
    (a : ℝ) / b - 1 ≤ (a / b : Int) ∧ ((a / b : Int) : ℝ) ≤ a / b := by
  have hpos : (0 : ℝ) < b := by exact_mod_cast hb
  constructor
  · rw [sub_le_iff_le_add, div_le_iff₀ hpos]
    exact_mod_cast (Int.lt_ediv_add_one_mul_self a hb).le
  · rw [le_div_iff₀ hpos]
    exact_mod_cast Int.ediv_mul_le a hb.ne'

/-- The significand in [1, 2), in fixed point. -/
def sigFix (m : Nat) : Nat := m * 2 ^ fixBits / 2 ^ m.log2

/-- Twice the inverse hyperbolic tangent whose value is the significand's logarithm. -/
def logFix (m : Nat) : Int := 2 * atanhFix ((sigFix m - 2 ^ fixBits) * 2 ^ fixBits / (sigFix m + 2 ^ fixBits))

/-- The logarithm to the base 2 in fixed point. -/
def lg2Fix (m : Nat) (e : Int) : Int := ((m.log2 : Int) + e) * 2 ^ fixBits + logFix m * 2 ^ fixBits / ln2Fix

theorem lg2List_fin {b : Word} {m : Nat} {e : Int} (hb : valOfFP32 b = .fin false m e) (hm : m ≠ 0) : lg2List b =
    if 2 ^ m.log2 = m then [rnFP32 (valOfInt ((m.log2 : Int) + e))]
    else (within 4 ((lg2Fix m e).natAbs - 2 ^ 40) ((lg2Fix m e).natAbs + 2 ^ 40) (-256)).map
      (signed (decide (lg2Fix m e < 0))) := by
  simp only [lg2List, hb, hm, if_false, Bool.false_eq_true]
  rfl

section Sig
variable {m : Nat} (hm : m ≠ 0) (hm24 : m < 2 ^ 24)
include hm hm24

theorem log2_le : m.log2 ≤ 23 := by
  have := (Nat.log2_lt hm).2 hm24
  omega

omit hm24 in
theorem sig_bounds : (1 : ℝ) ≤ m / 2 ^ m.log2 ∧ (m : ℝ) / 2 ^ m.log2 < 2 := by
  have hpos : (0 : ℝ) < 2 ^ m.log2 := by positivity
  have h1 : (2 : ℝ) ^ m.log2 ≤ m := by exact_mod_cast Nat.log2_self_le hm
  have h2 : (m : ℝ) < 2 ^ (m.log2 + 1) := by exact_mod_cast Nat.lt_log2_self
  rw [one_le_div hpos, div_lt_iff₀ hpos, ← pow_succ']
  exact ⟨h1, h2⟩

theorem cast_sigFix : (sigFix m : ℝ) = m / 2 ^ m.log2 * fixOne := by
  have hlog := log2_le hm hm24
  have hsplit : 2 ^ fixBits = 2 ^ (fixBits - m.log2) * 2 ^ m.log2 := by
    rw [← Nat.pow_add, Nat.sub_add_cancel (hlog.trans (by norm_num [fixBits]))]
  have hexact : sigFix m = m * 2 ^ (fixBits - m.log2) := by
    rw [sigFix, hsplit, ← Nat.mul_assoc, Nat.mul_div_cancel _ (Nat.pow_pos two_pos)]
  have hF : fixOne = 2 ^ (fixBits - m.log2) * 2 ^ m.log2 := by rw [← cast_fixOne, hsplit]; push_cast; rfl
  rw [hexact, hF]
  push_cast
  field_simp

theorem logFix_near : |(logFix m : ℝ) - fixOne * Real.log (m / 2 ^ m.log2)| ≤ 2 ^ 19 := by
  have hF := fixOne_pos
  obtain ⟨h1, h2⟩ := sig_bounds hm
  have hsig := cast_sigFix hm hm24
  have hge : 2 ^ fixBits ≤ sigFix m := by
    have h : fixOne ≤ sigFix m := by rw [hsig]; exact le_mul_of_one_le_left hF.le h1
    rw [← cast_fixOne] at h
    exact_mod_cast h
  have hlt : sigFix m < 2 * 2 ^ fixBits := by
    have h : (sigFix m : ℝ) < 2 * fixOne := by rw [hsig]; exact mul_lt_mul_of_pos_right h2 hF
    rw [← cast_fixOne] at h
    exact_mod_cast h
  have hnear := atanhFix_div_near (a := sigFix m - 2 ^ fixBits) (d := sigFix m + 2 ^ fixBits) (by omega) (by omega)
  have hY : (0 : ℝ) < m / 2 ^ m.log2 := by linarith
  set Y : ℝ := m / 2 ^ m.log2 with hYdef
  have hT : ((sigFix m - 2 ^ fixBits : Nat) : ℝ) / ((sigFix m + 2 ^ fixBits : Nat) : ℝ) = (Y - 1) / (Y + 1) := by
    rw [Nat.cast_sub hge, Nat.cast_add, cast_fixOne, hsig]
    field_simp
  have hartanh : 2 * Real.artanh ((Y - 1) / (Y + 1)) = Real.log Y := by
    have hle : (Y - 1) / (Y + 1) ≤ 1 := by rw [div_le_one (by linarith)]; linarith
    have hge0 : 0 ≤ (Y - 1) / (Y + 1) := div_nonneg (by linarith) (by linarith)
    have harg : (1 + (Y - 1) / (Y + 1)) / (1 - (Y - 1) / (Y + 1)) = Y := by
      field_simp
      ring
    rw [Real.artanh_eq_half_log ⟨by linarith, hle⟩, harg]
    ring
  rw [hT] at hnear
  rw [logFix, ← hartanh]
  push_cast
  rw [abs_le] at hnear ⊢
  constructor <;> linarith [hnear.1, hnear.2]

omit hm24 in
theorem logb_fin (e : Int) : Real.logb 2 ((m : ℝ) * 2 ^ e) = ((m.log2 : Int) + e : Int) + Real.logb 2 (m / 2 ^ m.log2) := by
  have hm' : (m : ℝ) * 2 ^ e = 2 ^ ((m.log2 : Int) + e) * (m / 2 ^ m.log2) := by
    rw [zpow_add₀ two_ne_zero, zpow_natCast]
    field_simp
  have hpos := (sig_bounds hm).1
  rw [hm', Real.logb_mul (by positivity) (by linarith), ← Real.rpow_intCast, Real.logb_rpow two_pos (by norm_num)]

omit hm24 in
theorem logb_sig_bounds : 0 ≤ Real.logb 2 (m / 2 ^ m.log2) ∧ Real.logb 2 (m / 2 ^ m.log2) ≤ 1 := by
  obtain ⟨h1, h2⟩ := sig_bounds hm
  refine ⟨Real.logb_nonneg one_lt_two h1, ?_⟩
  rw [Real.logb_le_iff_le_rpow one_lt_two (by linarith), Real.rpow_one]
  exact h2.le

theorem lg2Fix_near (e : Int) : |(lg2Fix m e : ℝ) - fixOne * Real.logb 2 ((m : ℝ) * 2 ^ e)| ≤ 2 ^ 23 := by
  obtain ⟨h1, h2⟩ := sig_bounds hm
  have hlog2 : 0 < Real.log 2 := Real.log_pos one_lt_two
  have hpow : (0 : ℝ) < 2 ^ m.log2 := by positivity
  set Y : ℝ := m / 2 ^ m.log2 with hY
  obtain ⟨hρ0, hρ1⟩ := logb_sig_bounds hm
  have hA : |(logFix m : ℝ) - fixOne * (Real.logb 2 Y * Real.log 2)| ≤ 2 ^ 19 := by
    rw [Real.logb, div_mul_cancel₀ _ hlog2.ne']
    exact logFix_near hm hm24
  have hquot := quotient_near hA ln2Fix_near hρ0 hρ1 ln2Fix_ge
  obtain ⟨hd1, hd2⟩ := intDiv_bounds (logFix m * 2 ^ fixBits) (b := ln2Fix) (by exact_mod_cast ln2Fix_pos)
  have hcast : ((logFix m * 2 ^ fixBits : Int) : ℝ) = logFix m * fixOne := by
    rw [Int.cast_mul, Int.cast_pow, Int.cast_ofNat, fixOne]
  rw [hcast, Int.cast_natCast] at hd1 hd2
  have hz : (lg2Fix m e : ℝ) = ((m.log2 : Int) + e : Int) * fixOne + ((logFix m * 2 ^ fixBits / ln2Fix : Int) : ℝ) := by
    rw [lg2Fix, Int.cast_add, Int.cast_mul, Int.cast_pow, Int.cast_ofNat, fixOne]
  rw [logb_fin hm, hz, mul_add]
  rw [abs_le] at hquot ⊢
  constructor <;> linarith [hquot.1, hquot.2]

/-- The logarithm of a significand between powers of two is away from 0 and from ln 2. -/
theorem log_sig_bounds (hpow : 2 ^ m.log2 ≠ m) :
    1 / 2 ^ 24 ≤ Real.log (m / 2 ^ m.log2) ∧ Real.log (m / 2 ^ m.log2) ≤ Real.log 2 - 1 / 2 ^ 24 := by
  obtain ⟨h1, h2⟩ := sig_bounds hm
  have hlog := log2_le hm hm24
  have hstep : 1 / (2 : ℝ) ^ 23 ≤ 1 / 2 ^ m.log2 :=
    one_div_le_one_div_of_le (by positivity) (pow_le_pow_right₀ one_le_two hlog)
  have hpos : (0 : ℝ) < 2 ^ m.log2 := by positivity
  have hlow : 1 + 1 / 2 ^ 23 ≤ (m : ℝ) / 2 ^ m.log2 := by
    have h : (2 : ℝ) ^ m.log2 + 1 ≤ m := by
      have := Nat.log2_self_le hm
      exact_mod_cast (by omega : 2 ^ m.log2 + 1 ≤ m)
    calc 1 + 1 / (2 : ℝ) ^ 23 ≤ (2 ^ m.log2 + 1) / 2 ^ m.log2 := by rw [add_div, div_self hpos.ne']; linarith
      _ ≤ m / 2 ^ m.log2 := by gcongr
  have hhigh : (m : ℝ) / 2 ^ m.log2 ≤ 2 - 1 / 2 ^ 23 := by
    have h : (m : ℝ) + 1 ≤ 2 * 2 ^ m.log2 := by
      have := Nat.lt_log2_self (n := m)
      rw [Nat.pow_succ'] at this
      exact_mod_cast this
    have h' : ((m : ℝ) + 1) / 2 ^ m.log2 ≤ 2 := by rwa [div_le_iff₀ hpos]
    rw [add_div] at h'
    linarith
  set Y : ℝ := m / 2 ^ m.log2 with hY
  constructor
  · have hinv : Y⁻¹ ≤ 1 - 1 / 2 ^ 24 := by
      rw [inv_le_iff_one_le_mul₀ (by linarith)]
      norm_num at hlow ⊢
      linarith
    linarith [Real.one_sub_inv_le_log_of_pos (show 0 < Y by linarith)]
  · have hhalf := Real.log_le_sub_one_of_pos (show 0 < Y / 2 by linarith)
    rw [Real.log_div (by linarith) two_ne_zero] at hhalf
    linarith

/-- The logarithm is away from 0. -/
theorem abs_logb_ge (hpow : 2 ^ m.log2 ≠ m) (e : Int) : 1 / 2 ^ 24 ≤ |Real.logb 2 ((m : ℝ) * 2 ^ e)| := by
  have hlog2 : 0 < Real.log 2 := Real.log_pos one_lt_two
  obtain ⟨h1, h2⟩ := log_sig_bounds hm hm24 hpow
  set k : Int := (m.log2 : Int) + e with hk
  have hvalue : Real.logb 2 ((m : ℝ) * 2 ^ e) * Real.log 2 = k * Real.log 2 + Real.log (m / 2 ^ m.log2) := by
    rw [logb_fin hm, add_mul, Real.logb, div_mul_cancel₀ _ hlog2.ne']
  have hbound : 1 / 2 ^ 24 ≤ |Real.logb 2 ((m : ℝ) * 2 ^ e) * Real.log 2| := by
    rw [hvalue]
    rcases le_or_gt 0 k with h | h
    · have hk0 : (0 : ℝ) ≤ k := by exact_mod_cast h
      exact le_trans (by nlinarith) (le_abs_self _)
    · have hk1 : (k : ℝ) ≤ -1 := by exact_mod_cast (by omega : k ≤ -1)
      exact le_trans (by nlinarith) (neg_le_abs _)
  rw [abs_mul, abs_of_pos hlog2] at hbound
  exact hbound.trans (mul_le_of_le_one_right (abs_nonneg _) log_two_lt_one.le)

/-- Where the value is away from 0, the fixed-point number near it has its sign and encloses its magnitude. -/
theorem lg2_encloses (hpow : 2 ^ m.log2 ≠ m) (e : Int) :
    decide (lg2Fix m e < 0) = decide (Real.logb 2 ((m : ℝ) * 2 ^ e) < 0) ∧
    Encloses ((lg2Fix m e).natAbs - 2 ^ 40) ((lg2Fix m e).natAbs + 2 ^ 40) (-256) |Real.logb 2 ((m : ℝ) * 2 ^ e)|
      (2 * 2 ^ 40 * 2 ^ (-256 : Int)) := by
  have hF := fixOne_ge
  have hnear := lg2Fix_near hm hm24 e
  have haway := abs_logb_ge hm hm24 hpow e
  set L := Real.logb 2 ((m : ℝ) * 2 ^ e) with hL
  have hbig : (2 : ℝ) ^ 170 ≤ fixOne * |L| := by
    calc (2 : ℝ) ^ 170 ≤ 2 ^ 200 * (1 / 2 ^ 24) := by norm_num
      _ ≤ fixOne * |L| := mul_le_mul hF haway (by positivity) fixOne_pos.le
  constructor
  · rw [decide_eq_decide]
    have hz : lg2Fix m e < 0 ↔ (lg2Fix m e : ℝ) < 0 := by exact_mod_cast Iff.rfl
    rw [hz]
    rw [abs_le] at hnear
    rcases lt_or_ge L 0 with h | h
    · rw [abs_of_neg h, mul_neg] at hbig
      exact ⟨fun _ => h, fun _ => by linarith [hnear.2]⟩
    · rw [abs_of_nonneg h] at hbig
      exact ⟨fun h0 => by linarith [hnear.1], fun h0 => absurd h0 h.not_gt⟩
  · refine encloses_of_near_unit ?_ (by linarith)
    rw [Nat.cast_natAbs, Int.cast_abs, ← abs_of_pos fixOne_pos, ← abs_mul]
    exact (abs_abs_sub_abs_le _ _).trans (hnear.trans (by norm_num))

end Sig

/-- A whole number of at most 24 bits is a pattern's value. -/
theorem codeQ_roundCode_nat (neg : Bool) {n : Nat} (hn : n ≠ 0) (hlt : n < 2 ^ 24) :
    codeQ (roundCode .rn 23 neg n 1 0).1 = n := by
  have hvalue : (n : ℚ) / (1 : Nat) * 2 ^ (0 : Int) = n := by simp
  have hlog := log2_le hn hlt
  have hulp : ulpExp n 0 ≤ 0 := by
    rw [ulpExp]
    omega
  conv_rhs => rw [← hvalue]
  refine codeQ_roundCode_exact hn one_ne_zero 0 .rn neg (k := n * 2 ^ (0 - ulpExp n 0).toNat) ?_ ?_
  · rw [hvalue]
    calc (n : ℚ) < 2 ^ (24 : Int) := by exact_mod_cast hlt
      _ ≤ 2 ^ (128 : Int) := two_zpow_le.2 (by norm_num)
  · rw [lastPlace_nat hn, shifted_eq hulp, hvalue, zpow_zero, mul_one]

section Fin
variable {b : Word} {m : Nat} {e : Int} (hb : valOfFP32 b = .fin false m e) (hm : m ≠ 0)
include hb hm

theorem lg2_closeTo (hne : (m : ℝ) * 2 ^ e ≠ 1) {w : Word} (hw : w ∈ lg2List b) :
    closeTo 2 w (Real.logb 2 ((m : ℝ) * 2 ^ e)) := by
  obtain ⟨hm24, he1, he2, -⟩ := fin_range hb
  rw [lg2List_fin hb hm] at hw
  split at hw
  next hpow =>
    rw [List.mem_singleton] at hw
    subst hw
    set k : Int := (m.log2 : Int) + e with hk
    have hvalue : Real.logb 2 ((m : ℝ) * 2 ^ e) = k := by
      have hone : (m : ℝ) / 2 ^ m.log2 = 1 := by
        rw [div_eq_one_iff_eq (by positivity)]
        exact_mod_cast hpow.symm
      rw [logb_fin hm, hone, Real.logb_one, add_zero]
    have hk0 : k ≠ 0 := by
      intro h0
      rw [h0, Int.cast_zero] at hvalue
      have hpos : (0 : ℝ) < (m : ℝ) * 2 ^ e := by positivity
      exact hne (Real.logb_injOn_pos one_lt_two hpos (Set.mem_Ioi.2 one_pos) (by rw [hvalue, Real.logb_one]))
    have hlog := log2_le hm hm24
    have hcode := codeQ_roundCode_nat (decide (k < 0)) (n := k.natAbs) (by omega) (by omega)
    rw [hvalue]
    refine closeTo_of_exact two_pos.le (roundCode_le .rn 23 (decide (k < 0)) 1 0) ?_ ?_
    · exact decide_eq_decide.2 (by exact_mod_cast Iff.rfl)
    · rw [hcode, Rat.cast_natCast, Nat.cast_natAbs, Int.cast_abs]
  next hpow =>
    obtain ⟨hsign, henc⟩ := lg2_encloses hm hm24 hpow e
    obtain ⟨c, hc, rfl⟩ := List.mem_map.1 hw
    have hclose := henc.closeTo_signed (b2 := 4) hc rfl hsign fun l _ => width_le_of_small (by norm_num) l
    norm_num at hclose ⊢
    exact hclose

theorem lg2List_fin_ne_nil : lg2List b ≠ [] := by
  obtain ⟨hm24, he1, he2, -⟩ := fin_range hb
  rw [lg2List_fin hb hm]
  split
  next => exact List.cons_ne_nil _ _
  next hpow =>
    refine (lg2_encloses hm hm24 hpow e).2.map_within_ne_nil (by norm_num) ?_ _
    obtain ⟨hρ0, hρ1⟩ := logb_sig_bounds hm
    have hlog := log2_le hm hm24
    have hk1 : (-149 : ℝ) ≤ ((m.log2 : Int) + e : Int) := by exact_mod_cast (by omega : -149 ≤ (m.log2 : Int) + e)
    have hk2 : (((m.log2 : Int) + e : Int) : ℝ) ≤ 127 := by exact_mod_cast (by omega : (m.log2 : Int) + e ≤ 127)
    rw [logb_fin hm, abs_lt]
    norm_num at hk1 hk2 ⊢
    constructor <;> linarith

end Fin

theorem lg2List_ne_nil (b : Word) : lg2List b ≠ [] := by
  rcases hb : valOfFP32 b with _ | s | ⟨s, m, e⟩
  · simp [lg2List, hb]
  · simp [lg2List, hb]
  · by_cases hm : m = 0
    · simp [lg2List, hb, hm]
    cases s
    · exact lg2List_fin_ne_nil hb hm
    · simp [lg2List, hb, hm]

end Sys2Proof.Numbers

namespace Sys2Proof.Numbers
open Sys2Proof Sys2Proof.Machine

/-! ## SINPI and COSPI within their bounds (R75, R324, R384) -/

/-! ### Folding the angle -/

theorem fixVal_add (a c : Nat) : fixVal (a + c) = fixVal a + fixVal c := by rw [fixVal, Nat.cast_add, add_div]; rfl

theorem fixVal_mul_one (n : Nat) : fixVal (n * 2 ^ fixBits) = n := by
  rw [fixVal, Nat.cast_mul, cast_fixOne, mul_div_cancel_right₀ _ fixOne_pos.ne']

theorem fixVal_one : fixVal (2 ^ fixBits) = 1 := by simpa using fixVal_mul_one 1

theorem fixVal_sub {a c : Nat} (h : c ≤ a) : fixVal (a - c) = fixVal a - fixVal c := by
  rw [eq_sub_iff_add_eq, ← fixVal_add, Nat.sub_add_cancel h]

theorem sin_pi_half_turn {r : Nat} (hr : r < 2 * 2 ^ fixBits) :
    Real.sin (Real.pi * fixVal r) = altSign (decide (2 ^ fixBits ≤ r)) * Real.sin (Real.pi * fixVal (r % 2 ^ fixBits)) := by
  rcases le_or_gt (2 ^ fixBits) r with h | h
  · have hmod : r % 2 ^ fixBits = r - 2 ^ fixBits := by
      rw [Nat.mod_eq_sub_mod h, Nat.mod_eq_of_lt (by omega)]
    rw [hmod, fixVal_sub h, fixVal_one, mul_sub, mul_one, Real.sin_sub_pi, decide_eq_true h]
    simp [altSign]
  · rw [Nat.mod_eq_of_lt h, decide_eq_false h.not_ge]
    simp [altSign]

theorem sin_pi_foldHalf {u : Nat} (hu : u ≤ 2 ^ fixBits) :
    Real.sin (Real.pi * fixVal (foldHalf u)) = Real.sin (Real.pi * fixVal u) := by
  unfold foldHalf
  split
  · show Real.sin (Real.pi * fixVal (2 ^ fixBits - u)) = _
    rw [fixVal_sub hu, fixVal_one, mul_sub, mul_one, Real.sin_pi_sub]
  · rfl

theorem cos_pi_foldHalf {w : Nat} (hw : w ≤ 2 ^ fixBits) :
    Real.cos (Real.pi * fixVal w) = altSign (decide (2 ^ 256 < 2 * w)) * Real.cos (Real.pi * fixVal (foldHalf w)) := by
  unfold foldHalf
  split
  next h =>
    show _ = _ * Real.cos (Real.pi * fixVal (2 ^ fixBits - w))
    rw [fixVal_sub hw, fixVal_one, mul_sub, mul_one, Real.cos_pi_sub, decide_eq_true h]
    simp [altSign]
  next h =>
    rw [decide_eq_false h]
    simp [altSign]

theorem cos_pi_foldTurn {r : Nat} (hr : r ≤ 2 * 2 ^ fixBits) :
    Real.cos (Real.pi * fixVal (foldTurn r)) = Real.cos (Real.pi * fixVal r) := by
  unfold foldTurn
  split
  · show Real.cos (Real.pi * fixVal (2 * 2 ^ fixBits - r)) = _
    rw [fixVal_sub hr, fixVal_mul_one, Nat.cast_ofNat, mul_sub, mul_comm Real.pi 2, Real.cos_two_pi_sub]
  · rfl

theorem foldHalf_le {u : Nat} (hu : u ≤ 2 ^ fixBits) : 2 * foldHalf u ≤ 2 ^ fixBits := by
  have h256 : 2 ^ fixBits = 2 ^ 256 := rfl
  unfold foldHalf
  split <;> omega

theorem foldTurn_le {r : Nat} (hr : r < 2 * 2 ^ fixBits) : foldTurn r ≤ 2 ^ fixBits := by
  have h256 : 2 ^ fixBits = 2 ^ 256 := rfl
  unfold foldTurn
  split <;> omega

/-- A folded multiple of 2^107 that is not 0 is at least that. -/
theorem foldHalf_ge {u : Nat} (hu : u < 2 ^ fixBits) (hd : 2 ^ 107 ∣ u) (h0 : u ≠ 0) : 2 ^ 107 ≤ foldHalf u := by
  have h256 : 2 ^ fixBits = 2 ^ 256 := rfl
  unfold foldHalf
  split <;> omega

/-- A folded multiple of 2^107 that is not a quarter turn is short of it by twice that. -/
theorem foldHalf_margin {w : Nat} (hw : w ≤ 2 ^ fixBits) (hd : 2 ^ 107 ∣ w) (hne : 2 * w ≠ 2 ^ fixBits) :
    2 * foldHalf w + 2 ^ 107 ≤ 2 ^ fixBits := by
  have h256 : 2 ^ fixBits = 2 ^ 256 := rfl
  unfold foldHalf
  split <;> omega

theorem dvd_foldTurn {r : Nat} (hd : 2 ^ 107 ∣ r) : 2 ^ 107 ∣ foldTurn r := by
  unfold foldTurn
  split <;> omega

theorem fixVal_half {u : Nat} (h : 2 * u = 2 ^ fixBits) : fixVal u = 1 / 2 := by
  have hsum := fixVal_add u u
  rw [← Nat.two_mul, h, fixVal_one] at hsum
  linarith

theorem foldHalf_half {u : Nat} (h : 2 * u = 2 ^ fixBits) : foldHalf u = u := by
  have h256 : 2 * u = 2 ^ 256 := h
  rw [foldHalf, h256, if_neg (lt_irrefl _)]

/-! ### The sine and the cosine of a folded angle -/

section Folded
variable {v : Nat} (hv : 2 * v ≤ 2 ^ fixBits)
include hv

theorem fixVal_le_half : fixVal v ≤ 1 / 2 := by
  rw [fixVal_le, ← cast_fixOne]
  have h : ((2 * v : Nat) : ℝ) ≤ ((2 ^ fixBits : Nat) : ℝ) := Nat.cast_le.2 hv
  rw [Nat.cast_mul, Nat.cast_ofNat] at h
  linarith

theorem angle_near : |((v * piFix / 2 ^ fixBits : Nat) : ℝ) - fixOne * (Real.pi * fixVal v)| ≤ 2 ^ 23 ∧
    fixVal (v * piFix / 2 ^ fixBits) ≤ 2 := by
  have hhalf := fixVal_le_half hv
  have h0 := fixVal_nonneg v
  have hnear := fixMul_near (show fixVal v ≤ 1 by linarith) piFix_near
  have hF := fixOne_ge
  rw [mul_comm (fixVal v)] at hnear
  refine ⟨hnear.trans (by norm_num), ?_⟩
  have hangle : fixOne * (Real.pi * fixVal v) ≤ fixOne * 1.6 := by
    refine mul_le_mul_of_nonneg_left ?_ fixOne_pos.le
    nlinarith [Real.pi_lt_d2]
  rw [fixVal_le]
  linarith [(abs_le.1 hnear).2]

theorem sin_folded_ge : 2 * fixVal v ≤ Real.sin (Real.pi * fixVal v) := by
  have hhalf := fixVal_le_half hv
  have h := Real.mul_le_sin (mul_nonneg Real.pi_pos.le (fixVal_nonneg v)) (by nlinarith [Real.pi_pos])
  have hscale : 2 / Real.pi * (Real.pi * fixVal v) = 2 * fixVal v := by field_simp
  rwa [hscale] at h

theorem cos_folded_ge : 1 - 2 * fixVal v ≤ Real.cos (Real.pi * fixVal v) := by
  have hhalf := fixVal_le_half hv
  have h0 := fixVal_nonneg v
  have h := Real.mul_le_sin (x := Real.pi / 2 - Real.pi * fixVal v) (by nlinarith [Real.pi_pos]) (by nlinarith [Real.pi_pos])
  have hscale : 2 / Real.pi * (Real.pi / 2 - Real.pi * fixVal v) = 1 - 2 * fixVal v := by field_simp
  rwa [hscale, Real.sin_pi_div_two_sub] at h

theorem sin_encloses (hbig : 2 ^ 107 ≤ v) : Encloses (sinFix (v * piFix / 2 ^ fixBits) - 2 ^ 40)
    (sinFix (v * piFix / 2 ^ fixBits) + 2 ^ 40) (-256) (Real.sin (Real.pi * fixVal v)) (2 * 2 ^ 40 * 2 ^ (-256 : Int)) := by
  obtain ⟨hnear, hle⟩ := angle_near hv
  have hge := sin_folded_ge hv
  have h0 := fixVal_nonneg v
  have hsin := sinFix_near hle hnear (by linarith)
  have hscale := mul_le_mul_of_nonneg_left hge fixOne_pos.le
  have hv107 : (2 : ℝ) ^ 107 ≤ v := by exact_mod_cast hbig
  rw [mul_left_comm, fixOne_mul_fixVal] at hscale
  exact encloses_of_near_unit (hsin.trans (by norm_num)) (by linarith)

theorem cos_encloses (hbig : 2 * v + 2 ^ 107 ≤ 2 ^ fixBits) : Encloses (cosFix (v * piFix / 2 ^ fixBits) - 2 ^ 40)
    (cosFix (v * piFix / 2 ^ fixBits) + 2 ^ 40) (-256) (Real.cos (Real.pi * fixVal v)) (2 * 2 ^ 40 * 2 ^ (-256 : Int)) := by
  obtain ⟨hnear, hle⟩ := angle_near hv
  have hge := cos_folded_ge hv
  have hhalf := fixVal_le_half hv
  have hcos := cosFix_near hle hnear (by linarith)
  have hscale := mul_le_mul_of_nonneg_left hge fixOne_pos.le
  have hv107 : 2 * (v : ℝ) + 2 ^ 107 ≤ fixOne := by
    rw [← cast_fixOne]
    exact_mod_cast hbig
  rw [mul_sub, mul_one, mul_left_comm, fixOne_mul_fixVal] at hscale
  exact encloses_of_near_unit (hcos.trans (by norm_num)) (by linarith)

end Folded

/-! ### The operand's angle -/

theorem altSign_mul_neg (neg : Bool) {S : ℝ} (hS : 0 < S) : neg = decide (altSign neg * S < 0) := by
  cases neg
  · simp [altSign, hS.le]
  · simp [altSign, hS]

/-- The pattern of 1 or −1 is exact. -/
theorem closeTo_one {neg : Bool} {x : ℝ} (hx : x = altSign neg * 1) : closeTo (3 / 2) (signed neg (127 * 2 ^ 23)) x := by
  refine closeTo_of_exact (by norm_num) (by norm_num) (hx ▸ altSign_mul_neg neg one_pos) ?_
  rw [codeQ_one, hx, abs_altSign_mul, abs_one, Rat.cast_one]

/-- A pattern close to a value of a known sign and magnitude. -/
theorem closeTo_unit {lo hi c : Nat} {neg : Bool} {S x : ℝ} (henc : Encloses lo hi (-256) S (2 * 2 ^ 40 * 2 ^ (-256 : Int)))
    (hc : c ∈ within 3 lo hi (-256)) (hS : 0 < S) (hx : x = altSign neg * S) : closeTo (3 / 2) (signed neg c) x := by
  have habs : |x| = S := by rw [hx, abs_altSign_mul, abs_of_pos hS]
  have hclose := henc.closeTo_signed (b2 := 3) hc habs (hx ▸ altSign_mul_neg neg hS) fun l _ =>
    width_le_of_small (by norm_num) l
  norm_num at hclose ⊢
  exact hclose

theorem cast_valQ (s : Bool) (m : Nat) (e : Int) : ((valQ (.fin s m e) : ℚ) : ℝ) = altSign s * ((m : ℝ) * 2 ^ e) := by
  cases s <;> simp [valQ, altSign]

theorem sin_altSign_mul (s : Bool) (θ : ℝ) : Real.sin (altSign s * θ) = altSign s * Real.sin θ := by
  cases s <;> simp [altSign]

theorem cos_altSign_mul (s : Bool) (θ : ℝ) : Real.cos (altSign s * θ) = Real.cos θ := by cases s <;> simp [altSign]

theorem altSign_sinSign (s : Bool) (r : Nat) : altSign (sinSign s r) = altSign s * altSign (decide (2 ^ 256 ≤ r)) := by
  unfold sinSign
  split
  next h => rw [decide_eq_true h, altSign_not]; simp [altSign]
  next h => rw [decide_eq_false h]; simp [altSign]

section Fin
variable {b : Word} {s : Bool} {m : Nat} {e : Int} (hb : valOfFP32 b = .fin s m e)
include hb

theorem mod2Fix_lt : mod2Fix m e < 2 * 2 ^ fixBits := by
  rw [mod2Fix_eq hb]
  exact Nat.mod_lt _ (Nat.mul_pos two_pos (Nat.pow_pos two_pos))

/-- The magnitude in fixed point is exact. -/
theorem fixVal_operand : fixVal (m * 2 ^ (e + 256).toNat) = (m : ℝ) * 2 ^ e := by
  have h := (Rat.cast_inj (α := ℝ)).2 (fixed_eq hb)
  rw [Rat.cast_natCast, Rat.cast_mul, Rat.cast_mul, Rat.cast_natCast, Rat.cast_zpow, Rat.cast_pow, Rat.cast_ofNat] at h
  rw [fixVal, h, fixOne, fixBits, mul_div_cancel_right₀ _ (pow_pos two_pos _).ne']

/-- The magnitude is the angle and a number of whole turns. -/
theorem turns_split : ∃ q : Nat, (m : ℝ) * 2 ^ e = 2 * q + fixVal (mod2Fix m e) := by
  obtain ⟨q, hq⟩ : ∃ q : Nat, m * 2 ^ (e + 256).toNat = 2 * q * 2 ^ fixBits + mod2Fix m e := by
    refine ⟨m * 2 ^ (e + 256).toNat / (2 * 2 ^ fixBits), ?_⟩
    rw [mod2Fix_eq hb, Nat.mul_right_comm]
    exact (Nat.div_add_mod _ _).symm
  refine ⟨q, ?_⟩
  rw [← fixVal_operand hb, hq, fixVal_add, fixVal_mul_one, Nat.cast_mul, Nat.cast_ofNat]

/-- The angle is a multiple of 2^107, every pattern being a multiple of 2^−149. -/
theorem dvd_mod2Fix : 2 ^ 107 ∣ mod2Fix m e := by
  have he := (fin_range hb).2.1
  rw [mod2Fix_eq hb, Nat.dvd_mod_iff ⟨2 ^ 150, by norm_num⟩]
  exact (Nat.pow_dvd_pow 2 (by omega)).trans (Nat.dvd_mul_left _ _)

theorem sin_pi_operand : Real.sin (Real.pi * ((valQ (.fin s m e) : ℚ) : ℝ)) =
    altSign (sinSign s (mod2Fix m e)) * Real.sin (Real.pi * fixVal (foldHalf (mod2Fix m e % 2 ^ fixBits))) := by
  obtain ⟨q, hq⟩ := turns_split hb
  have hangle : Real.pi * (2 * q + fixVal (mod2Fix m e)) = Real.pi * fixVal (mod2Fix m e) + q * (2 * Real.pi) := by ring
  have hsign : altSign (sinSign s (mod2Fix m e)) = altSign s * altSign (decide (2 ^ fixBits ≤ mod2Fix m e)) :=
    altSign_sinSign s _
  rw [cast_valQ, hq, mul_left_comm, sin_altSign_mul, hangle, Real.sin_add_nat_mul_two_pi, sin_pi_half_turn (mod2Fix_lt hb),
    sin_pi_foldHalf (Nat.mod_lt _ (Nat.pow_pos two_pos)).le, hsign, mul_assoc]

theorem cos_pi_operand : Real.cos (Real.pi * ((valQ (.fin s m e) : ℚ) : ℝ)) =
    altSign (decide (2 ^ 256 < 2 * foldTurn (mod2Fix m e))) *
      Real.cos (Real.pi * fixVal (foldHalf (foldTurn (mod2Fix m e)))) := by
  obtain ⟨q, hq⟩ := turns_split hb
  have hangle : Real.pi * (2 * q + fixVal (mod2Fix m e)) = Real.pi * fixVal (mod2Fix m e) + q * (2 * Real.pi) := by ring
  rw [cast_valQ, hq, mul_left_comm, cos_altSign_mul, hangle, Real.cos_add_nat_mul_two_pi,
    ← cos_pi_foldTurn (mod2Fix_lt hb).le, cos_pi_foldHalf (foldTurn_le (mod2Fix_lt hb))]

theorem sinpi_encloses (h0 : mod2Fix m e % 2 ^ fixBits ≠ 0) :
    Encloses (sinFix (foldHalf (mod2Fix m e % 2 ^ fixBits) * piFix / 2 ^ fixBits) - 2 ^ 40)
      (sinFix (foldHalf (mod2Fix m e % 2 ^ fixBits) * piFix / 2 ^ fixBits) + 2 ^ 40) (-256)
      (Real.sin (Real.pi * fixVal (foldHalf (mod2Fix m e % 2 ^ fixBits)))) (2 * 2 ^ 40 * 2 ^ (-256 : Int)) := by
  have hu : mod2Fix m e % 2 ^ fixBits < 2 ^ fixBits := Nat.mod_lt _ (Nat.pow_pos two_pos)
  refine sin_encloses (foldHalf_le hu.le) (foldHalf_ge hu ?_ h0)
  exact (Nat.dvd_mod_iff ⟨2 ^ 149, by norm_num [fixBits]⟩).2 (dvd_mod2Fix hb)

theorem cospi_encloses (h0 : 2 * foldTurn (mod2Fix m e) ≠ 2 ^ fixBits) :
    Encloses (cosFix (foldHalf (foldTurn (mod2Fix m e)) * piFix / 2 ^ fixBits) - 2 ^ 40)
      (cosFix (foldHalf (foldTurn (mod2Fix m e)) * piFix / 2 ^ fixBits) + 2 ^ 40) (-256)
      (Real.cos (Real.pi * fixVal (foldHalf (foldTurn (mod2Fix m e))))) (2 * 2 ^ 40 * 2 ^ (-256 : Int)) := by
  have hw := foldTurn_le (mod2Fix_lt hb)
  exact cos_encloses (foldHalf_le hw) (foldHalf_margin hw (dvd_foldTurn (dvd_mod2Fix hb)) h0)

theorem sinpi_closeTo (hne : Real.sin (Real.pi * ((valQ (.fin s m e) : ℚ) : ℝ)) ≠ 0) {w : Word} (hw : w ∈ sinpiList b) :
    closeTo (3 / 2) w (Real.sin (Real.pi * ((valQ (.fin s m e) : ℚ) : ℝ))) := by
  have hx := sin_pi_operand hb
  rw [sinpiList_fin hb] at hw
  split at hw
  next h0 =>
    have h0' : mod2Fix m e % 2 ^ fixBits = 0 := h0
    exact absurd (by rw [hx, h0']; simp [foldHalf, fixVal]) hne
  next h0 =>
  have hpos : 0 < Real.sin (Real.pi * fixVal (foldHalf (mod2Fix m e % 2 ^ fixBits))) := (sinpi_encloses hb h0).value_pos
  split at hw
  next h1 =>
    rw [List.mem_singleton] at hw
    subst hw
    have hhalf : 2 * (mod2Fix m e % 2 ^ fixBits) = 2 ^ fixBits := h1
    rw [foldHalf_half hhalf, fixVal_half hhalf, mul_one_div, Real.sin_pi_div_two] at hx
    exact closeTo_one hx
  next =>
    obtain ⟨c, hc, rfl⟩ := List.mem_map.1 hw
    exact closeTo_unit (sinpi_encloses hb h0) hc hpos hx

theorem cospi_closeTo (hne : Real.cos (Real.pi * ((valQ (.fin s m e) : ℚ) : ℝ)) ≠ 0) {w : Word} (hw : w ∈ cospiList b) :
    closeTo (3 / 2) w (Real.cos (Real.pi * ((valQ (.fin s m e) : ℚ) : ℝ))) := by
  have hx := cos_pi_operand hb
  rw [cospiList_fin hb] at hw
  split at hw
  next h0 =>
    have hhalf : 2 * foldTurn (mod2Fix m e) = 2 ^ fixBits := h0
    exact absurd (by rw [hx, foldHalf_half hhalf, fixVal_half hhalf, mul_one_div, Real.cos_pi_div_two, mul_zero]) hne
  next h0 =>
  have henc := cospi_encloses hb h0
  split at hw
  next h1 =>
    rw [List.mem_singleton] at hw
    subst hw
    rw [h1] at hx
    exact closeTo_one (neg := false) (by rw [hx]; simp [foldHalf, fixVal, altSign])
  next =>
    split at hw
    next h1 =>
      rw [List.mem_singleton] at hw
      subst hw
      rw [h1] at hx
      exact closeTo_one (neg := true) (by rw [hx]; simp [foldHalf, fixVal, altSign])
    next =>
      obtain ⟨c, hc, rfl⟩ := List.mem_map.1 hw
      exact closeTo_unit henc hc henc.value_pos hx

theorem sinpiList_fin_ne_nil : sinpiList b ≠ [] := by
  rw [sinpiList_fin hb]
  split
  · exact List.cons_ne_nil _ _
  next h0 =>
    split
    · exact List.cons_ne_nil _ _
    · exact (sinpi_encloses hb h0).map_within_ne_nil (by norm_num) ((Real.sin_le_one _).trans_lt (by norm_num)) _

theorem cospiList_fin_ne_nil : cospiList b ≠ [] := by
  rw [cospiList_fin hb]
  split
  · exact List.cons_ne_nil _ _
  next h0 =>
    split
    · exact List.cons_ne_nil _ _
    · split
      · exact List.cons_ne_nil _ _
      · exact (cospi_encloses hb h0).map_within_ne_nil (by norm_num) ((Real.cos_le_one _).trans_lt (by norm_num)) _

end Fin

theorem sinpiList_ne_nil (b : Word) : sinpiList b ≠ [] := by
  rcases hb : valOfFP32 b with _ | s | ⟨s, m, e⟩
  · simp [sinpiList, hb]
  · simp [sinpiList, hb]
  · exact sinpiList_fin_ne_nil hb

theorem cospiList_ne_nil (b : Word) : cospiList b ≠ [] := by
  rcases hb : valOfFP32 b with _ | s | ⟨s, m, e⟩
  · simp [cospiList, hb]
  · simp [cospiList, hb]
  · exact cospiList_fin_ne_nil hb

end Sys2Proof.Numbers

namespace Sys2Proof.Numbers
open Sys2Proof Sys2Proof.Machine

/-! ## TANH within its bound (R75, R390) -/

theorem tanh_eq_exp (X : ℝ) : Real.tanh X = (Real.exp (2 * X) - 1) / (Real.exp (2 * X) + 1) := by
  have hE : Real.exp (2 * X) = Real.exp X * Real.exp X := by rw [← Real.exp_add, two_mul]
  have hpos := Real.exp_pos X
  rw [Real.tanh_eq_sinh_div_cosh, Real.sinh_eq, Real.cosh_eq, Real.exp_neg, hE]
  field_simp

theorem tanh_ge {X : ℝ} (h : 0 ≤ X) : X / (1 + X) ≤ Real.tanh X := by
  have hE := Real.add_one_le_exp (2 * X)
  rw [tanh_eq_exp, div_le_div_iff₀ (by linarith) (by linarith)]
  nlinarith

/-! ### Small operands -/

/-- The exponential's first terms. -/
theorem exp_two_mul_near {X : ℝ} (h0 : 0 ≤ X) (h1 : X ≤ 1 / 4) :
    |Real.exp (2 * X) - (1 + 2 * X + 2 * X ^ 2 + 4 / 3 * X ^ 3 + 2 / 3 * X ^ 4 + 4 / 15 * X ^ 5)| ≤ 1 / 9 * X ^ 6 := by
  have h := Real.exp_bound (x := 2 * X) (by rw [abs_of_nonneg (by linarith)]; linarith) (n := 6) (by norm_num)
  have hsum : ∑ k ∈ Finset.range 6, (2 * X) ^ k / (k.factorial : ℝ) =
      1 + 2 * X + 2 * X ^ 2 + 4 / 3 * X ^ 3 + 2 / 3 * X ^ 4 + 4 / 15 * X ^ 5 := by
    norm_num [Finset.sum_range_succ, Nat.factorial]
    ring
  rw [hsum, abs_of_nonneg (show 0 ≤ 2 * X by linarith)] at h
  refine h.trans ?_
  have hX6 : 0 ≤ X ^ 6 := by positivity
  norm_num [Nat.factorial, mul_pow]
  linarith

/-- The difference that the two bounds of a small TANH turn on. -/
theorem tanh_defect {X E : ℝ} (h0 : 0 ≤ X) (h1 : X ≤ 1 / 4)
    (hE : |E - (1 + 2 * X + 2 * X ^ 2 + 4 / 3 * X ^ 3 + 2 / 3 * X ^ 4 + 4 / 15 * X ^ 5)| ≤ 1 / 9 * X ^ 6) :
    0 ≤ E - 1 - (X - X ^ 3 / 3) * (E + 1) ∧ E - 1 - (X - X ^ 3 / 3) * (E + 1) ≤ X ^ 5 := by
  set r := E - (1 + 2 * X + 2 * X ^ 2 + 4 / 3 * X ^ 3 + 2 / 3 * X ^ 4 + 4 / 15 * X ^ 5) with hr
  have hsplit : E - 1 - (X - X ^ 3 / 3) * (E + 1) =
      X ^ 5 * (4 / 15 + 8 / 45 * X + 2 / 9 * X ^ 2 + 4 / 45 * X ^ 3) + r * (1 - X + X ^ 3 / 3) := by
    rw [show E = r + (1 + 2 * X + 2 * X ^ 2 + 4 / 3 * X ^ 3 + 2 / 3 * X ^ 4 + 4 / 15 * X ^ 5) by rw [hr]; ring]
    ring
  have hX2 : X ^ 2 ≤ 1 := pow_le_one₀ h0 (by linarith)
  have hX3 : X ^ 3 ≤ X := by nlinarith
  have hX30 : 0 ≤ X ^ 3 := by positivity
  have hX5 : 0 ≤ X ^ 5 := by positivity
  have hfactor : |r * (1 - X + X ^ 3 / 3)| ≤ 1 / 9 * X ^ 6 := by
    rw [abs_mul, abs_of_nonneg (show 0 ≤ 1 - X + X ^ 3 / 3 by linarith)]
    exact (mul_le_of_le_one_right (abs_nonneg r) (by linarith)).trans hE
  have hX6 : X ^ 6 ≤ 1 / 4 * X ^ 5 := by
    rw [pow_succ X 5, mul_comm]
    exact mul_le_mul_of_nonneg_right h1 hX5
  have hlow : 4 / 15 * X ^ 5 ≤ X ^ 5 * (4 / 15 + 8 / 45 * X + 2 / 9 * X ^ 2 + 4 / 45 * X ^ 3) := by
    rw [mul_comm]
    exact mul_le_mul_of_nonneg_left (by nlinarith) hX5
  have hhigh : X ^ 5 * (4 / 15 + 8 / 45 * X + 2 / 9 * X ^ 2 + 4 / 45 * X ^ 3) ≤ X ^ 5 * (4 / 5) :=
    mul_le_mul_of_nonneg_left (by nlinarith) hX5
  rw [hsplit]
  rw [abs_le] at hfactor
  constructor <;> linarith [hfactor.1, hfactor.2]

theorem tanh_small_bounds {X : ℝ} (h0 : 0 ≤ X) (h1 : X ≤ 1 / 4) :
    X - X ^ 3 / 3 ≤ Real.tanh X ∧ Real.tanh X ≤ X - X ^ 3 / 3 + X ^ 5 := by
  obtain ⟨hd1, hd2⟩ := tanh_defect h0 h1 (exp_two_mul_near h0 h1)
  have hE : 1 ≤ Real.exp (2 * X) := Real.one_le_exp (by linarith)
  have hX5 : 0 ≤ X ^ 5 := by positivity
  rw [tanh_eq_exp, le_div_iff₀ (by linarith), div_le_iff₀ (by linarith), add_mul]
  constructor
  · linarith
  · nlinarith

theorem tanh_small_encloses {m : Nat} {e : Int} (hm : m ≠ 0) (hm24 : m < 2 ^ 24) (he : e ≤ -64) :
    Encloses (tanhMid m e - 1) (tanhMid m e + 1) (3 * e - 4) (Real.tanh ((m : ℝ) * 2 ^ e)) (2 * 2 ^ (3 * e - 4)) := by
  obtain ⟨h1, h2, h3⟩ := tanhMid_bounds hm hm24 he
  have hU : (0 : ℝ) < 2 ^ (3 * e - 4) := by positivity
  have hz : (0 : ℝ) < 2 ^ e := by positivity
  set X : ℝ := (m : ℝ) * 2 ^ e with hX
  have hX0 : 0 ≤ X := by positivity
  have hcube : ((2 : ℝ) ^ e) ^ 3 = 16 * 2 ^ (3 * e - 4) := by
    rw [← zpow_natCast, ← zpow_mul, show e * ((3 : Nat) : Int) = 4 + (3 * e - 4) by push_cast; ring, zpow_add₀ two_ne_zero]
    norm_num
  have hm' : (m : ℝ) ≤ 2 ^ 24 := by exact_mod_cast hm24.le
  have hX1 : X ≤ 1 / 4 := by
    calc X ≤ 2 ^ 24 * 2 ^ (-64 : Int) := mul_le_mul hm' (zpow_le_zpow_right₀ one_le_two he) hz.le (by positivity)
      _ ≤ 1 / 4 := by norm_num
  have hlin : ((m * 2 ^ (4 - 2 * e).toNat : Nat) : ℝ) * 2 ^ (3 * e - 4) = X := by
    rw [Nat.cast_mul, Nat.cast_pow, Nat.cast_ofNat, ← zpow_natCast, Int.toNat_of_nonneg (by omega), mul_assoc,
      ← zpow_add₀ two_ne_zero, hX]
    congr 2
    ring
  have hthird : (16 * (m : ℝ) ^ 3 / 3) * 2 ^ (3 * e - 4) = X ^ 3 / 3 := by
    rw [hX, mul_pow, hcube]
    ring
  obtain ⟨hf1, hf2⟩ := natDiv_bounds (16 * m ^ 3) (b := 3) (by norm_num)
  have hmid : (tanhMid m e : ℝ) = ((m * 2 ^ (4 - 2 * e).toNat : Nat) : ℝ) - ((16 * m ^ 3 / 3 : Nat) : ℝ) := by
    rw [tanhMid, Nat.cast_sub (by omega)]
  have hfifth : X ^ 5 ≤ 2 ^ (3 * e - 4) := by
    have hz5 : ((2 : ℝ) ^ e) ^ 5 = 2 ^ (5 * e) := by
      rw [← zpow_natCast, ← zpow_mul, mul_comm e]
      rfl
    calc X ^ 5 = (m : ℝ) ^ 5 * 2 ^ (5 * e) := by rw [hX, mul_pow, hz5]
      _ ≤ (2 ^ 24) ^ 5 * 2 ^ (5 * e) := by gcongr
      _ = 2 ^ (120 + 5 * e) := by rw [zpow_add₀ two_ne_zero]; norm_num
      _ ≤ 2 ^ (3 * e - 4) := zpow_le_zpow_right₀ one_le_two (by omega)
  obtain ⟨ht1, ht2⟩ := tanh_small_bounds hX0 hX1
  push_cast at hf1 hf2
  have hs1 := mul_le_mul_of_nonneg_right hf1 hU.le
  have hs2 := mul_le_mul_of_nonneg_right hf2 hU.le
  rw [sub_mul, hthird, one_mul] at hs1
  rw [hthird] at hs2
  have hmidU : (tanhMid m e : ℝ) * 2 ^ (3 * e - 4) = X - ((16 * m ^ 3 / 3 : Nat) : ℝ) * 2 ^ (3 * e - 4) := by
    rw [hmid, sub_mul, hlin]
  refine ⟨by omega, ?_, ?_, ?_⟩
  · rw [Nat.cast_sub (by omega), Nat.cast_one, sub_mul, one_mul, hmidU]
    linarith
  · rw [Nat.cast_add, Nat.cast_one, add_mul, one_mul, hmidU]
    linarith
  · rw [Nat.cast_sub (by omega), Nat.cast_add, Nat.cast_one]
    linarith

/-! ### Large operands -/

theorem exp_forty_ge : (2 : ℝ) ^ 57 ≤ Real.exp 40 := by
  have h : Real.exp 40 = Real.exp 1 ^ 40 := by rw [← Real.exp_nat_mul]; norm_num
  have he : (2.718 : ℝ) ≤ Real.exp 1 := by linarith [Real.exp_one_gt_d9]
  rw [h]
  calc (2 : ℝ) ^ 57 ≤ 2.718 ^ 40 := by norm_num
    _ ≤ Real.exp 1 ^ 40 := by gcongr

theorem tanh_large_encloses {X : ℝ} (h : 20 ≤ X) :
    Encloses (2 ^ 256 - 2 ^ 200) (2 ^ 256) (-256) (Real.tanh X) (2 ^ (-56 : Int)) := by
  have hE : (2 : ℝ) ^ 57 ≤ Real.exp (2 * X) := exp_forty_ge.trans (Real.exp_le_exp.2 (by linarith))
  have hlow : 1 - 2 ^ (-56 : Int) ≤ Real.tanh X := by
    rw [tanh_eq_exp, le_div_iff₀ (by linarith [Real.exp_pos (2 * X)])]
    norm_num at hE ⊢
    linarith
  have hhigh := (Real.tanh_lt_one X).le
  refine ⟨by norm_num, ?_, ?_, ?_⟩
  · norm_num at hlow ⊢
    exact hlow
  · norm_num
    exact hhigh
  · norm_num

/-! ### Operands between -/

/-- The exponential of twice the operand, in fixed point. -/
def tanhExp (x : Nat) : Nat :=
  ex2Fix (2 * x * 2 ^ fixBits / ln2Fix % 2 ^ fixBits) * 2 ^ (2 * x * 2 ^ fixBits / ln2Fix / 2 ^ fixBits)

/-- The hyperbolic tangent in fixed point. -/
def tanhFix (x : Nat) : Nat := (tanhExp x - 2 ^ fixBits) * 2 ^ fixBits / (tanhExp x + 2 ^ fixBits)

/-- Twice the operand over ln 2, in fixed point. -/
theorem tanhLog_near {x : Nat} (hx : fixVal x ≤ 20) :
    |((2 * x * 2 ^ fixBits / ln2Fix : Nat) : ℝ) - fixOne * (2 * fixVal x / Real.log 2)| ≤ 2 ^ 27 := by
  have hlog := Real.log_two_gt_d9
  have hlog0 : 0 < Real.log 2 := by linarith
  have h0 := fixVal_nonneg x
  have hA : |((2 * x : Nat) : ℝ) - fixOne * (2 * fixVal x / Real.log 2 * Real.log 2)| ≤ 0 := by
    rw [div_mul_cancel₀ _ hlog0.ne', mul_left_comm, fixOne_mul_fixVal, Nat.cast_mul, Nat.cast_ofNat, sub_self, abs_zero]
  have hr : 2 * fixVal x / Real.log 2 ≤ 60 := by
    rw [div_le_iff₀ hlog0]
    linarith
  have hquot := quotient_near hA ln2Fix_near (by positivity) hr ln2Fix_ge
  obtain ⟨h1, h2⟩ := natDiv_bounds (2 * x * 2 ^ fixBits) ln2Fix_pos
  rw [Nat.cast_mul (2 * x), cast_fixOne] at h1 h2
  rw [abs_le] at hquot ⊢
  constructor <;> linarith [hquot.1, hquot.2]

/-- A power of 2 with a whole and a fractional exponent, in fixed point. -/
theorem exp2_split_near (y : Nat) :
    |((ex2Fix (y % 2 ^ fixBits) * 2 ^ (y / 2 ^ fixBits) : Nat) : ℝ) - fixOne * 2 ^ fixVal y| ≤ 2 ^ 21 * 2 ^ fixVal y := by
  have hmod : y % 2 ^ fixBits < 2 ^ fixBits := Nat.mod_lt _ (Nat.pow_pos two_pos)
  have hle : fixVal (y % 2 ^ fixBits) ≤ 1 := by
    rw [fixVal_le, one_mul, ← cast_fixOne]
    exact Nat.cast_le.2 hmod.le
  have hnear := ex2Fix_near hle
  have hsplit : fixVal y = fixVal (y % 2 ^ fixBits) + (y / 2 ^ fixBits : Nat) := by
    rw [← fixVal_mul_one, ← fixVal_add, Nat.mod_add_div']
  have hpow : (2 : ℝ) ^ fixVal y = 2 ^ fixVal (y % 2 ^ fixBits) * 2 ^ (y / 2 ^ fixBits) := by
    rw [hsplit, Real.rpow_add two_pos, Real.rpow_natCast]
  have hone : (1 : ℝ) ≤ 2 ^ fixVal (y % 2 ^ fixBits) := Real.one_le_rpow one_le_two (fixVal_nonneg _)
  have hk : (0 : ℝ) < 2 ^ (y / 2 ^ fixBits) := by positivity
  rw [Nat.cast_mul, Nat.cast_pow, Nat.cast_ofNat, hpow, ← mul_assoc, ← sub_mul, abs_mul, abs_of_pos hk, ← mul_assoc]
  refine mul_le_mul_of_nonneg_right (hnear.trans ?_) hk.le
  exact le_mul_of_one_le_right (by positivity) hone

theorem tanhExp_near {x : Nat} (hx : fixVal x ≤ 20) :
    |(tanhExp x : ℝ) - fixOne * Real.exp (2 * fixVal x)| ≤ 2 ^ 30 * Real.exp (2 * fixVal x) := by
  have hF := fixOne_ge
  have hF0 := fixOne_pos
  have hlog0 : 0 < Real.log 2 := Real.log_pos one_lt_two
  have hy := tanhLog_near hx
  have hexp := exp2_split_near (2 * x * 2 ^ fixBits / ln2Fix)
  rw [← tanhExp] at hexp
  set y := 2 * x * 2 ^ fixBits / ln2Fix with hydef
  set E := Real.exp (2 * fixVal x) with hE
  have hEpos : 0 < E := Real.exp_pos _
  set d := (fixVal y - 2 * fixVal x / Real.log 2) * Real.log 2 with hd
  have hdF : fixOne * |d| ≤ 2 ^ 27 := by
    have hfix : fixOne * |fixVal y - 2 * fixVal x / Real.log 2| ≤ 2 ^ 27 := by
      rwa [← fixOne_mul_fixVal y, ← mul_sub, abs_mul, abs_of_pos hF0] at hy
    rw [hd, abs_mul, abs_of_pos hlog0, ← mul_assoc]
    exact (mul_le_of_le_one_right (by positivity) log_two_lt_one.le).trans hfix
  have hd1 : |d| ≤ 1 := by
    have : fixOne * |d| ≤ fixOne * 1 := by linarith
    exact le_of_mul_le_mul_left this hF0
  have hpow : (2 : ℝ) ^ fixVal y = E * Real.exp d := by
    rw [two_rpow_eq_exp, hE, ← Real.exp_add, hd, sub_mul, div_mul_cancel₀ _ hlog0.ne', add_sub_cancel]
  have hgap : fixOne * |2 ^ fixVal y - E| ≤ 2 ^ 28 * E := by
    have hexpd := Real.abs_exp_sub_one_le hd1
    rw [hpow, ← mul_sub_one, abs_mul, abs_of_pos hEpos]
    calc fixOne * (E * |Real.exp d - 1|) ≤ fixOne * (E * (2 * |d|)) := by gcongr
      _ = 2 * (fixOne * |d|) * E := by ring
      _ ≤ 2 * 2 ^ 27 * E := by gcongr
      _ = 2 ^ 28 * E := by norm_num
  have htop : (2 : ℝ) ^ fixVal y ≤ 3 * E := by
    rw [hpow, mul_comm]
    exact mul_le_mul_of_nonneg_right ((Real.exp_le_exp.2 ((le_abs_self d).trans hd1)).trans
      (by linarith [Real.exp_one_lt_d9])) hEpos.le
  have hgap' : |fixOne * 2 ^ fixVal y - fixOne * E| ≤ 2 ^ 28 * E := by rwa [← mul_sub, abs_mul, abs_of_pos hF0]
  refine (abs_sub_le _ (fixOne * 2 ^ fixVal y) _).trans ?_
  linarith

theorem tanhFix_near {x : Nat} (h1 : 1 / 2 ^ 40 ≤ fixVal x) (h2 : fixVal x ≤ 20) :
    |(tanhFix x : ℝ) - fixOne * Real.tanh (fixVal x)| ≤ 2 ^ 32 := by
  have hF := fixOne_ge
  have hF0 := fixOne_pos
  have hnear := tanhExp_near h2
  have hE1 : 1 + 1 / 2 ^ 39 ≤ Real.exp (2 * fixVal x) := by
    have := Real.add_one_le_exp (2 * fixVal x)
    norm_num at h1 ⊢
    linarith
  set E := Real.exp (2 * fixVal x) with hE
  have hge : 2 ^ fixBits ≤ tanhExp x := by
    have h : fixOne ≤ tanhExp x := by
      have hlow := (abs_le.1 hnear).1
      nlinarith
    rw [← cast_fixOne] at h
    exact Nat.cast_le.1 h
  obtain ⟨hd1, hd2⟩ := natDiv_bounds ((tanhExp x - 2 ^ fixBits) * 2 ^ fixBits) (b := tanhExp x + 2 ^ fixBits)
    (Nat.add_pos_right _ (Nat.pow_pos two_pos))
  rw [← tanhFix, Nat.cast_mul, Nat.cast_sub hge, Nat.cast_add, cast_fixOne] at hd1 hd2
  have hez : (0 : ℝ) ≤ tanhExp x := Nat.cast_nonneg _
  have hgap : |((tanhExp x : ℝ) - fixOne) * fixOne / (tanhExp x + fixOne) - fixOne * ((E - 1) / (E + 1))| ≤ 2 ^ 31 := by
    have hsplit : ((tanhExp x : ℝ) - fixOne) * fixOne / (tanhExp x + fixOne) - fixOne * ((E - 1) / (E + 1)) =
        2 * fixOne * (tanhExp x - fixOne * E) / ((tanhExp x + fixOne) * (E + 1)) := by
      have hden1 : (tanhExp x : ℝ) + fixOne ≠ 0 := by linarith
      have hden2 : E + 1 ≠ 0 := by linarith
      field_simp
      ring
    have hden : fixOne * E ≤ (tanhExp x + fixOne) * (E + 1) := by nlinarith
    have hEpos : 0 < E := by linarith
    rw [hsplit, abs_div, abs_mul, abs_of_pos (show 0 < 2 * fixOne by linarith),
      abs_of_pos (lt_of_lt_of_le (by positivity) hden),
      div_le_iff₀ (lt_of_lt_of_le (by positivity) hden)]
    calc 2 * fixOne * |(tanhExp x : ℝ) - fixOne * E| ≤ 2 * fixOne * (2 ^ 30 * E) := by gcongr
      _ = 2 ^ 31 * (fixOne * E) := by ring
      _ ≤ 2 ^ 31 * ((tanhExp x + fixOne) * (E + 1)) := by gcongr
  rw [tanh_eq_exp, ← hE]
  rw [abs_le] at hgap ⊢
  constructor <;> linarith [hgap.1, hgap.2]

theorem tanh_mid_encloses {x : Nat} (h1 : 1 / 2 ^ 40 ≤ fixVal x) (h2 : fixVal x ≤ 20) :
    Encloses (tanhFix x - 2 ^ 60) (tanhFix x + 2 ^ 60) (-256) (Real.tanh (fixVal x)) (2 * 2 ^ 60 * 2 ^ (-256 : Int)) := by
  have hF := fixOne_ge
  have hnear := tanhFix_near h1 h2
  have hge : 1 / 2 ^ 45 ≤ Real.tanh (fixVal x) := by
    refine le_trans ?_ (tanh_ge (by linarith [fixVal_nonneg x]))
    rw [le_div_iff₀ (by linarith [fixVal_nonneg x])]
    norm_num at h1 ⊢
    linarith
  have hbig : (2 : ℝ) ^ 155 ≤ fixOne * Real.tanh (fixVal x) := by
    calc (2 : ℝ) ^ 155 = 2 ^ 200 * (1 / 2 ^ 45) := by norm_num
      _ ≤ fixOne * Real.tanh (fixVal x) := mul_le_mul hF hge (by positivity) fixOne_pos.le
  exact encloses_of_near_unit (hnear.trans (by norm_num)) (by linarith)

/-! ### The codes -/

/-- What every case of TANH comes to: the codes up to 1 near an enclosure that is narrow for its ulp. -/
structure TanhEnclosure (m : Nat) (e : Int) (lo hi : Nat) (e0 : Int) (δ : ℝ) : Prop where
  encloses : Encloses lo hi e0 (Real.tanh ((m : ℝ) * 2 ^ e)) δ
  narrow : ∀ l : Int, Real.tanh ((m : ℝ) * 2 ^ e) < 2 ^ (l + 1) → δ ≤ 2 ^ (-27 : Int) * (ulpQ l : ℝ)
  codes : ∀ c, c ∈ tanhCodes m e ↔ c ∈ within 4 lo hi e0 ∧ c ≤ 127 * 2 ^ 23

/-- From 1/2 on, a width of 2^(−56) is narrow. -/
theorem narrow_of_ge_half {t : ℝ} {l : Int} (h : 1 / 2 ≤ t) (hl : t < 2 ^ (l + 1)) :
    (2 : ℝ) ^ (-56 : Int) ≤ 2 ^ (-27 : Int) * (ulpQ l : ℝ) := by
  have hl' : (2 : ℝ) ^ (-1 : Int) < 2 ^ (l + 1) := by
    norm_num at h ⊢
    linarith
  have hl1 := (zpow_lt_zpow_iff_right₀ (one_lt_two (α := ℝ))).1 hl'
  have hulp : (2 : ℚ) ^ (-24 : Int) ≤ ulpQ l := two_zpow_le.2 (by omega)
  have hulp' : (2 : ℝ) ^ (-24 : Int) ≤ (ulpQ l : ℝ) := by
    simpa only [Rat.cast_zpow, Rat.cast_ofNat] using (Rat.cast_le (K := ℝ)).2 hulp
  calc (2 : ℝ) ^ (-56 : Int) ≤ 2 ^ (-27 : Int) * 2 ^ (-24 : Int) := by norm_num
    _ ≤ 2 ^ (-27 : Int) * (ulpQ l : ℝ) := by gcongr

section Fin
variable {b : Word} {s : Bool} {m : Nat} {e : Int} (hb : valOfFP32 b = .fin s m e) (hm : m ≠ 0)
include hb

include hm

theorem tanh_enclosure : ∃ lo hi e0 δ, TanhEnclosure m e lo hi e0 δ := by
  obtain ⟨hm24, he1, -, hnormal⟩ := fin_range hb
  have hval := fixVal_operand hb
  rcases le_or_gt e (-64) with he | he
  · refine ⟨_, _, _, _, tanh_small_encloses hm hm24 he, fun l _ => width_le_of_small ?_ l, fun c => ?_⟩
    · calc (2 : ℝ) * 2 ^ (3 * e - 4) = 2 ^ (3 * e - 3) := by
            rw [show 3 * e - 3 = 1 + (3 * e - 4) by ring, zpow_add₀ two_ne_zero, zpow_one]
        _ ≤ 2 ^ (-176 : Int) := zpow_le_zpow_right₀ one_le_two (by omega)
    · have hcodes : tanhCodes m e = within 4 (tanhMid m e - 1) (tanhMid m e + 1) (3 * e - 4) := by
        rw [tanhCodes, if_pos he]
        rfl
      rw [← hcodes]
      exact ⟨fun h => ⟨h, tanhCodes_le_one hb hm h⟩, fun h => h.1⟩
  by_cases hlarge : 20 * 2 ^ fixBits ≤ m * 2 ^ (e + 256).toNat
  · have hX : 20 ≤ (m : ℝ) * 2 ^ e := by
      have h := (Nat.cast_le (α := ℝ)).2 hlarge
      rw [Nat.cast_mul, cast_fixOne, Nat.cast_ofNat] at h
      rw [← hval]
      exact le_fixVal.2 h
    refine ⟨_, _, _, _, tanh_large_encloses hX, fun l hl => narrow_of_ge_half ?_ hl, fun c => ?_⟩
    · refine le_trans ?_ (tanh_ge (by linarith))
      rw [div_le_div_iff₀ two_pos (by linarith)]
      linarith
    · rw [tanhCodes, if_neg (by omega), List.mem_filter, decide_eq_true_eq]
      simp only [show 20 * 2 ^ 256 ≤ m * 2 ^ (e + 256).toNat from hlarge, if_true]
  · have hX2 : fixVal (m * 2 ^ (e + 256).toNat) ≤ 20 := by
      have h := (Nat.cast_le (α := ℝ)).2 (le_of_not_ge hlarge)
      rw [Nat.cast_mul 20, cast_fixOne, Nat.cast_ofNat] at h
      exact fixVal_le.2 h
    have hX1 : 1 / 2 ^ 40 ≤ fixVal (m * 2 ^ (e + 256).toNat) := by
      have hm23 : (2 : ℝ) ^ 23 ≤ m := by exact_mod_cast (by omega : 2 ^ 23 ≤ m)
      rw [hval]
      calc (1 : ℝ) / 2 ^ 40 = 2 ^ 23 * 2 ^ (-63 : Int) := by norm_num
        _ ≤ (m : ℝ) * 2 ^ e := mul_le_mul hm23 (zpow_le_zpow_right₀ one_le_two (by omega)) (by positivity) (by positivity)
    have henc := tanh_mid_encloses hX1 hX2
    rw [hval] at henc
    refine ⟨_, _, _, _, henc, fun l _ => width_le_of_small (by norm_num) l, fun c => ?_⟩
    rw [tanhCodes, if_neg (by omega), List.mem_filter, decide_eq_true_eq]
    simp only [show ¬ 20 * 2 ^ 256 ≤ m * 2 ^ (e + 256).toNat from hlarge, if_false]
    rfl

theorem tanh_closeTo {w : Word} (hw : w ∈ tanhList b) : closeTo 2 w (Real.tanh ((valQ (.fin s m e) : ℚ) : ℝ)) := by
  obtain ⟨lo, hi, e0, δ, henc, hnarrow, hcodes⟩ := tanh_enclosure hb hm
  rw [tanhList_fin hb hm] at hw
  obtain ⟨c, hc, rfl⟩ := List.mem_map.1 hw
  have hpos := henc.value_pos
  have hx : Real.tanh ((valQ (.fin s m e) : ℚ) : ℝ) = altSign s * Real.tanh ((m : ℝ) * 2 ^ e) := by
    rw [cast_valQ]
    cases s <;> simp [altSign]
  have habs : |Real.tanh ((valQ (.fin s m e) : ℚ) : ℝ)| = Real.tanh ((m : ℝ) * 2 ^ e) := by
    rw [hx, abs_altSign_mul, abs_of_pos hpos]
  have hclose := henc.closeTo_signed (b2 := 4) ((hcodes c).1 hc).1 habs (hx ▸ altSign_mul_neg s hpos) hnarrow
  norm_num at hclose ⊢
  exact hclose

theorem tanhList_fin_ne_nil : tanhList b ≠ [] := by
  obtain ⟨lo, hi, e0, δ, henc, -, hcodes⟩ := tanh_enclosure hb hm
  have hone := Real.tanh_lt_one ((m : ℝ) * 2 ^ e)
  have hlt := henc.lower_lt (hone.trans (by norm_num))
  obtain ⟨k, hk, hle, -⟩ := lowCode_bounds hlt
  have hcode : (roundCode .rz 23 false lo 1 e0).1 ≤ 127 * 2 ^ 23 := by
    refine codeQ_strictMono.le_iff_le.1 ?_
    rw [hk, codeQ_one]
    refine hle.trans ?_
    rw [← Rat.cast_le (K := ℝ)]
    push_cast
    exact henc.lower.trans hone.le
  rw [tanhList_fin hb hm, ne_eq, List.map_eq_nil_iff]
  exact List.ne_nil_of_mem ((hcodes _).2 ⟨lowCode_mem_within (by norm_num) henc.le hlt, hcode⟩)

end Fin

theorem tanhList_ne_nil (b : Word) : tanhList b ≠ [] := by
  rcases hb : valOfFP32 b with _ | s | ⟨s, m, e⟩
  · simp [tanhList, hb]
  · simp [tanhList, hb]
  · by_cases hm : m = 0
    · simp [tanhList, hb, hm]
    · exact tanhList_fin_ne_nil hb hm

end Sys2Proof.Numbers

namespace Sys2Proof.Numbers
open Sys2Proof Sys2Proof.Machine

/-! ## The SFUs stand within their bounds (R75) -/

theorem rcpList_ne_nil (b : Word) : rcpList b ≠ [] := by
  rcases hb : valOfFP32 b with _ | s | ⟨s, m, e⟩
  · simp [rcpList, hb]
  · simp [rcpList, hb]
  · by_cases hm : m = 0
    · simp [rcpList, hb, hm]
    · exact rcpList_fin_ne_nil hb hm

theorem rsqList_ne_nil (b : Word) : rsqList b ≠ [] := by
  rcases hb : valOfFP32 b with _ | s | ⟨s, m, e⟩
  · simp [rsqList, hb]
  · simp [rsqList, hb]
  · by_cases hm : m = 0
    · simp [rsqList, hb, hm]
    cases s
    · exact rsqList_fin_ne_nil hb hm
    · simp [rsqList, hb, hm]

/-- A positive operand has its sign bit clear. -/
theorem lg2_closeTo_operand {b : Word} {s : Bool} {m : Nat} {e : Int} (hb : valOfFP32 b = .fin s m e) (hm : m ≠ 0)
    (hpos : 0 < ((valQ (.fin s m e) : ℚ) : ℝ)) (hne : ((valQ (.fin s m e) : ℚ) : ℝ) ≠ 1) {w : Word} (hw : w ∈ lg2List b) :
    closeTo 2 w (Real.logb 2 ((valQ (.fin s m e) : ℚ) : ℝ)) := by
  have hmag : (0 : ℝ) < (m : ℝ) * 2 ^ e := by positivity
  rw [cast_valQ] at hpos hne ⊢
  cases s
  · rw [show altSign false = 1 from rfl, one_mul] at hne ⊢
    exact lg2_closeTo hb hm hne hw
  · rw [show altSign true = -1 from rfl] at hpos
    linarith

/-- Settles O9: the fixed-point series enclose the exact values, and the codes near an enclosure stand within the bound. -/
theorem sfuResultsAreWithinTheirBounds : Obligations.SfuResultsAreWithinTheirBounds := by
  refine ⟨fun b s m e hb hm => ?_, fun b => ?_⟩
  · exact ⟨fun h1 h2 w hw => ex2_closeTo hb h1 h2 hw, fun h1 h2 w hw => lg2_closeTo_operand hb hm h1 h2 hw,
      fun h w hw => sinpi_closeTo hb h hw, fun h w hw => cospi_closeTo hb h hw, fun w hw => tanh_closeTo hb hm hw⟩
  · exact ⟨rcpList_ne_nil b, rsqList_ne_nil b, ex2List_ne_nil b, lg2List_ne_nil b, sinpiList_ne_nil b, cospiList_ne_nil b,
      tanhList_ne_nil b⟩

end Sys2Proof.Numbers

namespace Sys2Proof.CopiesAndCollectives
open Sys2Proof Sys2Proof.Machine Sys2Proof.WorkAndItsShape Sys2Proof.PlacesAndClauses

/-! ## BIND, CWAIT, CTEST and LAUNCH (R114, R115, R123, R166, R315) -/

/-- A BIND's channel operand is checked for the guard of a channel barrier alone (R315). -/
theorem bindChannel_ok {e : Env} {k : GKind} {guard : Reg}
    (hk : k = .chbar → ∃ c, capCheck e.fm.rcd (e.reg guard).toNat e.s.counterOk = .ok c) : ∃ c,
    (if k = .chbar then capCheck e.fm.rcd (e.reg guard).toNat e.s.counterOk else pure 0#64) = .ok c := by
  split
  next hb => exact hk hb
  next hb => exact ⟨0, rfl⟩

/-- Words that come to the same in the open word's surroundings. -/
theorem runWord_congr {s : State} {e : Env} {f f' : Env → WordOut} (h : openWord s = some e) (hf : f e = f' e) :
    runWord s f = runWord s f' := by
  simp only [runWord, h, hf]

/-- A LAUNCH of an image at an address, once nothing of its thread or of the image's words holds it back (R166). -/
def launchEnd (d : Reg) (img : List Word) (va : Nat) (e : Env) : WordOut :=
  if va % 128 ≠ 0 ∨ 2 ^ 56 ≤ va ∨ imgKind img = 2 then e.result (·.put d 0)
  else
    match e.s.xlat1 e.th.core e.fm.ctx va .probe with
    | (t, none) => .wait .fetch t
    | (t, some p) =>
      if pteType p.pte ≠ 0 ∨ !pteWr p.pte then e.result (·.put d 0)
      else
        match e.launched.launchWait e.fm.ctx va p.pte img with
        | some w => .wait .fetch (t.pauseAt e.fm.ctx (some w))
        | none => .done (e.upd t (fun c =>
            (c.put d (boolWord (e.launched.launchable e.fm.ctx img))).act (.launch img va p.pte c.gw.length (gOf d))))

theorem imageFree {e : Env} {o : Nat} (hr : ∀ i, i < 32 → e.fm.heldByOther e.k (o + 4 * i) = false) :
    (List.range 32).all (fun i => !e.fm.heldByOther e.k (o + 4 * i)) = true := by
  simpa using hr

section Words
variable {s : State} {e : Env} (h : openWord s = some e)
include h

/-! ### BIND -/

section Bind
variable {k : GKind} {guard : Reg}
  (hk : k = .chbar → ∃ c, capCheck e.fm.rcd (e.reg guard).toNat s.counterOk = .ok c)

theorem exec_bind_channel (a : Reg) (b : Src) (idx : BitVec 8) (hb : k = .chbar)
    (hc : capCheck e.fm.rcd (e.reg guard).toNat s.counterOk = .error (.fault 0x0A 0 0)) :
    exec (.bind a b guard k idx) s = .next (e.trapped 0x0A 0 0) := by
  subst hb
  exact runWord_trapped h (by simp [openWord_state h, hc])

include hk

theorem exec_bind_empty (a : Reg) {b : Src} (idx : BitVec 8) (hn : e.src b = 0) :
    exec (.bind a b guard k idx) s = .next (e.trapped 0x04 0 0) := by
  obtain ⟨c, hc⟩ := bindChannel_ok (openWord_state h ▸ hk)
  exact runWord_trapped h (by simp [hc, hn])

section Range
variable {a : Reg} {b : Src} (hn : ((e.src b).toNat != 0) = true)
include hn

theorem exec_bind_outside (idx : BitVec 8)
    (hout : findSeg e.fm.rcd (e.reg a).toNat = none ∨ 2 ^ 23 ≤ (e.reg a).toNat) :
    exec (.bind a b guard k idx) s = .next (e.trapped 0x07 (e.reg a) 0) := by
  obtain ⟨c, hc⟩ := bindChannel_ok (openWord_state h ▸ hk)
  refine runWord_trapped h ?_
  cases hs : findSeg e.fm.rcd (e.reg a).toNat with
  | none => simp [-Nat.reducePow, hc, hn, hs]
  | some g => simp [-Nat.reducePow, hc, hn, hs, Nat.not_lt.2 (hout.resolve_left (by simp [hs]))]

variable {g : Seg} (hg : findSeg e.fm.rcd (e.reg a).toNat = some g) (hlo : (e.reg a).toNat < 2 ^ 23)
include hg hlo

theorem exec_bind_past (idx : BitVec 8) (hend : g.base + g.extent < (e.reg a).toNat + (e.src b).toNat) :
    exec (.bind a b guard k idx) s = .next (e.trapped 0x07 (BitVec.ofNat 32 (g.base + g.extent)) 0) := by
  obtain ⟨c, hc⟩ := bindChannel_ok (openWord_state h ▸ hk)
  exact runWord_trapped h (by simp [-Nat.reducePow, hc, hn, hg, hlo, Nat.not_le.2 hend])

variable (hend : (e.reg a).toNat + (e.src b).toNat ≤ g.base + g.extent)
include hend

theorem exec_bind_misaligned (idx : BitVec 8) (hal : (e.reg a).toNat % 4 ≠ 0 ∨ (e.src b).toNat % 4 ≠ 0) :
    exec (.bind a b guard k idx) s = .next (e.trapped 0x08 (e.reg a) 0) := by
  obtain ⟨c, hc⟩ := bindChannel_ok (openWord_state h ▸ hk)
  have hno : ((e.reg a).toNat % 4 == 0 && (e.src b).toNat % 4 == 0) = false := by
    simpa [imp_iff_not_or] using hal
  exact runWord_trapped h (by simp [-Nat.reducePow, hc, hn, hg, hlo, hend, hno])

variable (ha : (e.reg a).toNat % 4 = 0) (hb : (e.src b).toNat % 4 = 0)
include ha hb

omit hk in
/-- The guard is a hall word's address but for no guard and for a channel barrier's (R315). -/
theorem exec_bind_guard_outside (idx : BitVec 8) (h1 : k ≠ .none) (h2 : k ≠ .chbar)
    (hout : 2 ^ 23 ≤ (e.reg guard).toNat ∨ findSeg e.fm.rcd (e.reg guard).toNat = none) :
    exec (.bind a b guard k idx) s = .next (e.trapped 0x07 (e.reg guard) 0) := by
  have hno : (decide ((e.reg guard).toNat < 2 ^ 23) && (findSeg e.fm.rcd (e.reg guard).toNat).isSome) = false := by
    rcases hout with hout | hout <;> simp [-Nat.reducePow, hout]
  exact runWord_trapped h (by simp [-Nat.reducePow, hn, hg, hlo, hend, ha, hb, h1, h2, hno])

omit hk in
theorem exec_bind_guard_misaligned (idx : BitVec 8) (h1 : k ≠ .none) (h2 : k ≠ .chbar)
    (hin : (e.reg guard).toNat < 2 ^ 23) (hs : (findSeg e.fm.rcd (e.reg guard).toNat).isSome = true)
    (hal : (e.reg guard).toNat % 4 ≠ 0) : exec (.bind a b guard k idx) s = .next (e.trapped 0x08 (e.reg guard) 0) :=
  runWord_trapped h (by
    simp [-Nat.reducePow, hn, hg, hlo, hend, ha, hb, h1, h2, hin, hs, beq_eq_false_iff_ne.2 hal])

/-- A BIND whose checks pass records its range and guard at commit (R315). -/
theorem exec_bind (idx : BitVec 8) (hgd : k ≠ .none → k ≠ .chbar → (e.reg guard).toNat < 2 ^ 23 ∧
      (findSeg e.fm.rcd (e.reg guard).toNat).isSome = true ∧ (e.reg guard).toNat % 4 = 0) :
    exec (.bind a b guard k idx) s = .next (e.after (fun c => { c with acts := c.acts ++
      [.bind { lo := (e.reg a).toNat, hi := (e.reg a).toNat + (e.src b).toNat, kind := k, guard := e.reg guard,
               idx := idx }] })) := by
  obtain ⟨c, hc⟩ := bindChannel_ok (openWord_state h ▸ hk)
  refine runWord_after _ h ?_
  by_cases hword : k ≠ .none ∧ k ≠ .chbar
  · obtain ⟨hin, hs, hal⟩ := hgd hword.1 hword.2
    simp [-Nat.reducePow, hc, hn, hg, hlo, hend, ha, hb, hin, hs, hal, Clause.act_eq]
  · simp [-Nat.reducePow, hc, hn, hg, hlo, hend, ha, hb, hword, Clause.act_eq]

end Range
end Bind

/-! ### CWAIT and CTEST -/

section Chunks
variable (n : Fin 8) {a : Reg} {b : Src}

theorem exec_ctest (d : Reg) {o : Nat} (ho : objAt e.fm .bitmap (e.reg a).toNat 32 32 true = .ok o) :
    exec (.ctest n d a b) s = .next (e.after (fun c =>
      c.put d (boolWord (e.fm.word (o + 4 * n.val) &&& e.src b == e.src b)))) :=
  runWord_after _ h (by simp [Env.chunkBits, ho])

/-- A CWAIT goes on where the bits of b are set, and waits else. -/
theorem exec_cwait {o : Nat} (ho : objAt e.fm .bitmap (e.reg a).toNat 32 32 true = .ok o) :
    exec (.cwait n a b) s = .next (if e.fm.word (o + 4 * n.val) &&& e.src b == e.src b then e.after (fun c => c)
      else e.waiting .chunk s) := by
  split
  next hb => exact runWord_after _ h (by simp [Env.chunkBits, ho, hb, Function.id_def])
  next hb => exact runWord_waiting h (by simp [Env.chunkBits, ho, hb, openWord_state h])

theorem exec_ctest_fault (d : Reg) {c : Nat} {x : Word}
    (ho : objAt e.fm .bitmap (e.reg a).toNat 32 32 true = .error (c, x)) :
    exec (.ctest n d a b) s = .next (e.trapped c x 0) :=
  runWord_trapped h (by simp [Env.chunkBits, ho])

theorem exec_cwait_fault {c : Nat} {x : Word}
    (ho : objAt e.fm .bitmap (e.reg a).toNat 32 32 true = .error (c, x)) :
    exec (.cwait n a b) s = .next (e.trapped c x 0) :=
  runWord_trapped h (by simp [Env.chunkBits, ho])

end Chunks

/-! ### LAUNCH -/

section Launch
variable (d : Reg) {a : Reg} (b : Fin 120)

theorem exec_launch_fault {c : Nat} {x : Word} (ho : objCheck e.fm (e.reg a).toNat 128 128 false = .error (c, x)) :
    exec (.launch d a b) s = .next (e.trapped c x 0) :=
  runWord_trapped h (by simp [ho])

variable {g : HallRef} (ho : objCheck e.fm (e.reg a).toNat 128 128 false = .ok g)
include ho

theorem exec_launch_held (hi : e.i ≠ 0) : exec (.launch d a b) s = .next (e.waiting .held s) :=
  runWord_waiting h (by simp [ho, Env.notHeld_behind hi, openWord_state h])

theorem exec_launch_drains (hi : e.i = 0) (hq : s.copiesDone e.fm.cluster e.k = false) :
    exec (.launch d a b) s = .next (e.waiting .drain s) :=
  runWord_waiting h (by simp [ho, Env.notHeld_first hi, openWord_state h, hq])

theorem exec_launch_reserved (hi : e.i = 0) (hq : s.copiesDone e.fm.cluster e.k = true)
    (hr : ∃ i, i < 32 ∧ e.fm.heldByOther e.k (g.sb + g.rel + 4 * i) = true) :
    exec (.launch d a b) s = .next (e.waiting .reservation s) := by
  have hno : (List.range 32).all (fun i => !e.fm.heldByOther e.k (g.sb + g.rel + 4 * i)) = false := by simpa using hr
  exact runWord_waiting h (by simp only [ho, liftChk_ok, ok_bind, Env.notHeld_first hi, openWord_state h, hq, hno,
    Env.waitUnless_true, Env.waitUnless_false, error_bind, flat_error])

section Free
variable {img : List Word} {va : Nat} (hi : e.i = 0) (hq : s.copiesDone e.fm.cluster e.k = true)
  (hr : ∀ i, i < 32 → e.fm.heldByOther e.k (g.sb + g.rel + 4 * i) = false)
  (himg : (List.range 32).map (fun i => seenWord e.fm e.cl.hw (g.sb + g.rel + 4 * i)) = img)
  (hva : e.pair b.val % 2 ^ 64 = va)
include hi hq hr himg hva

theorem exec_launch_free : exec (.launch d a b) s = runWord s (launchEnd d img va) := by
  refine runWord_congr h ?_
  simp only [ho, liftChk_ok, ok_bind, Env.notHeld_first hi, openWord_state h, hq, imageFree hr, Env.waitUnless_true,
    himg, hva, launchEnd]
  split
  · rfl
  rcases s.xlat1 e.th.core e.fm.ctx va .probe with ⟨t, _ | p⟩
  · rfl
  dsimp only
  split
  · rfl
  · cases e.launched.launchWait e.fm.ctx va p.pte img <;> rfl

/-- An address that names no node, and a weight-load node, are refused (R166, log 108). -/
theorem exec_launch_refused (hno : va % 128 ≠ 0 ∨ 2 ^ 56 ≤ va ∨ imgKind img = 2) :
    exec (.launch d a b) s = .next (e.after (fun c => c.put d 0)) := by
  rw [exec_launch_free h d b ho hi hq hr himg hva]
  exact runWord_after _ h (if_pos hno)

variable (hok : ¬ (va % 128 ≠ 0 ∨ 2 ^ 56 ≤ va ∨ imgKind img = 2))
include hok

theorem exec_launch_untranslated {t : State} (hx : s.xlat1 e.th.core e.fm.ctx va .probe = (t, none)) :
    exec (.launch d a b) s = .next (e.waiting .fetch t) := by
  rw [exec_launch_free h d b ho hi hq hr himg hva]
  exact runWord_waiting h (by rw [launchEnd, if_neg hok, openWord_state h, hx])

variable {t : State} {p : TlbEntry} (hx : s.xlat1 e.th.core e.fm.ctx va .probe = (t, some p))
include hx

/-- A place that is not writable HBM is refused (R166). -/
theorem exec_launch_unwritable (hp : pteType p.pte ≠ 0 ∨ pteWr p.pte = false) :
    exec (.launch d a b) s = .next (e.after (fun c => c.put d 0)) := by
  rw [exec_launch_free h d b ho hi hq hr himg hva]
  refine runWord_after _ h ?_
  rw [launchEnd, if_neg hok, openWord_state h, hx]
  simp [hp]

variable (hty : pteType p.pte = 0) (hwr : pteWr p.pte = true)
include hty hwr

/-- A LAUNCH whose insertion waits for the kernel waits with it (R106, R207). -/
theorem exec_launch_waits {w : Option Nat} (hw : e.launched.launchWait e.fm.ctx va p.pte img = some w) :
    exec (.launch d a b) s = .next (e.waiting .fetch (t.pauseAt e.fm.ctx (some w))) := by
  rw [exec_launch_free h d b ho hi hq hr himg hva]
  refine runWord_waiting h ?_
  rw [launchEnd, if_neg hok, openWord_state h, hx]
  simp [hty, hwr, hw]

/-- Else it offers its image at commit, and answers whether the image may be inserted (R166, log 1). -/
theorem exec_launch_offers (hw : e.launched.launchWait e.fm.ctx va p.pte img = none) :
    exec (.launch d a b) s = .next (e.afterIn t (fun c =>
      let c1 := c.put d (boolWord (e.launched.launchable e.fm.ctx img))
      { c1 with acts := c1.acts ++ [.launch img va p.pte c.gw.length (gOf d)] })) := by
  rw [exec_launch_free h d b ho hi hq hr himg hva]
  refine runWord_afterIn _ h ?_
  rw [launchEnd, if_neg hok, openWord_state h, hx]
  simp [hty, hwr, hw, Clause.act_eq]

end Free
end Launch
end Words

/-- Settles O39: each word by the condition that holds or fails. -/
theorem launchBindAndChunks : Obligations.LaunchBindAndChunks := by
  unfold Obligations.LaunchBindAndChunks
  refine ⟨?bind, ?bindFaults, ?chunks, fun s e n d a b c x h ho => ⟨exec_ctest_fault h n d ho, exec_cwait_fault h n ho⟩,
    ?launch, ?launchWait, fun s e d a b c x h ho => exec_launch_fault h d b ho⟩
  case bind =>
    intro s e a guard b idx g h hg hlo hn hend ha hb
    have hn' := bne_iff_ne.2 hn
    refine ⟨?_, fun c hc => ?_, fun k h1 h2 hin hs hal => ?_⟩
    · exact exec_bind h (by simp) hn' hg hlo hend ha hb idx (by simp)
    · exact exec_bind h (fun _ => ⟨c, hc⟩) hn' hg hlo hend ha hb idx (by simp)
    · exact exec_bind h (fun hk => absurd hk h2) hn' hg hlo hend ha hb idx fun _ _ => ⟨hin, hs, hal⟩
  case bindFaults =>
    intro s e a guard b idx k h
    refine ⟨exec_bind_channel h a b idx, fun hk => ⟨exec_bind_empty h hk a idx, fun hn => ?_⟩⟩
    have hn' : ((e.src b).toNat != 0) = true := bne_iff_ne.2 fun h0 => hn (BitVec.eq_of_toNat_eq h0)
    refine ⟨exec_bind_outside h hk hn' idx, fun g hg hlo => ⟨exec_bind_past h hk hn' hg hlo idx, fun hend => ?_⟩⟩
    refine ⟨exec_bind_misaligned h hk hn' hg hlo hend idx, fun ha hb h1 h2 => ?_⟩
    exact ⟨exec_bind_guard_outside h hn' hg hlo hend ha hb idx h1 h2,
      exec_bind_guard_misaligned h hn' hg hlo hend ha hb idx h1 h2⟩
  case chunks =>
    intro s e n d a b o h ho ok
    refine ⟨exec_ctest h n d ho, fun hb => ?_, fun hb => ?_⟩
    · rw [exec_cwait h n ho]; exact congrArg _ (if_pos hb)
    · rw [exec_cwait h n ho]; exact congrArg _ (if_neg (Bool.eq_false_iff.1 hb))
  case launch =>
    intro s e d a b g h ho out img va
    refine ⟨exec_launch_held h d b ho, exec_launch_drains h d b ho, fun hi hq => ⟨exec_launch_reserved h d b ho hi hq,
      fun hr => ⟨exec_launch_refused h d b ho hi hq hr rfl rfl, fun h128 h56 hkind => ?_⟩⟩⟩
    have hok : ¬ (va % 128 ≠ 0 ∨ 2 ^ 56 ≤ va ∨ imgKind img = 2) := by
      rintro (hno | hno | hno)
      · exact hno h128
      · exact Nat.not_lt.2 hno h56
      · exact hkind hno
    refine ⟨fun t hx => exec_launch_untranslated h d b ho hi hq hr rfl rfl hok hx,
      fun t p hx => ⟨exec_launch_unwritable h d b ho hi hq hr rfl rfl hok hx, fun hty hwr => ?_⟩⟩
    exact ⟨exec_launch_offers h d b ho hi hq hr rfl rfl hok hx hty hwr,
      exec_launch_waits h d b ho hi hq hr rfl rfl hok hx hty hwr,
      fun v => exec_launch_waits h d b ho hi hq hr rfl rfl hok hx hty hwr⟩
  case launchWait =>
    intro s ctx va pte img hh
    refine ⟨fun hl => ?_, fun hl hw => ?_⟩
    · simp [State.launchWait, hh, hl]
    · simp [State.launchWait, hh, hl, State.insertWait, hw]

end Sys2Proof.CopiesAndCollectives

namespace Sys2Proof.CopiesAndCollectives
open Sys2Proof Sys2Proof.Machine Sys2Proof.WorkAndItsShape Sys2Proof.PlacesAndClauses

/-! ## SEND and RECV (R108, R109, R364, R365, R377) -/

/-! ### The channel operand -/

/-- A channel operand whose number, V, KIND or permission fails is cause 0x0A (R109, R396). -/
theorem capCheck_error {r : SMap Word} {n : Nat} {may : BitVec 64 → Bool}
    (h : 64 ≤ n ∨ capValid (Rec.cap r n) = false ∨ may (Rec.cap r n) = false) :
    capCheck r n may = .error (.fault 0x0A 0 0) := by
  rcases h with h | h | h <;> simp [capCheck, h]

/-- Without the permission, or on a channel that is no peer's FIFO and no mailbox, no message goes (R109, R163). -/
theorem messageOk_false {r : SMap Word} {may : BitVec 64 → Bool} {c : BitVec 64}
    (h : may c = false ∨ ¬ ((capKind c = 3 ∧ capEnd c < Rec.forms r) ∨ (capKind c = 4 ∧ capEnd c < 16))) :
    messageOk r may c = false := by
  rcases h with h | h
  · simp [messageOk, h]
  · simpa [messageOk, not_or] using fun _ => h

theorem messageCheck_error {r : SMap Word} {n : Nat} {may : BitVec 64 → Bool}
    (h : 64 ≤ n ∨ capValid (Rec.cap r n) = false ∨ may (Rec.cap r n) = false ∨
      ¬ ((capKind (Rec.cap r n) = 3 ∧ capEnd (Rec.cap r n) < Rec.forms r) ∨
        (capKind (Rec.cap r n) = 4 ∧ capEnd (Rec.cap r n) < 16))) :
    capCheck r n (messageOk r may) = .error (.fault 0x0A 0 0) :=
  capCheck_error (h.imp_right (Or.imp_right messageOk_false))

/-! ### The allowance -/

/-- How many messages by a capability the outstanding clauses of a form hold. -/
def heldSends (e : Env) (n : Nat) : Nat :=
  e.s.heldActs (fun _ th a => match a with | .send m _ => if th.form = e.th.form ∧ m = n then 1 else 0 | _ => 0)

/-- A message has room in its capability's allowance, and one to a mailbox in the mailbox too (R364). -/
theorem allowed_iff (e : Env) (n : Nat) (c : BitVec 64) (len : Nat) :
    e.allowed n c len = true ↔ SMap.get 0 n e.fm.sent + heldSends e n < capAllow c ∧
      (capKind c = 4 → e.s.mailUsed (mailKey e.fm.fn (capEnd c)) + len + e.s.mailHeld e.fm.fn (capEnd c) ≤ 16) := by
  refine decide_eq_true_iff.trans (and_congr_right fun _ => ?_)
  split <;> simp [*]

/-! ### The turn of a RECV -/

/-- How many messages of a source the outstanding clauses of other threads have taken. -/
def recvsOfOthers (e : Env) (src : Bool × Nat) : Nat :=
  e.s.heldActs (fun k _ x => if k = e.k then 0 else isRecv src x)

/-- The oldest message of a source that the clause has not taken yet. -/
def nextMessage (e : Env) (src : Bool × Nat) : Option (List Word) :=
  (e.s.messages src)[(e.cl.acts.map (isRecv src)).sum]?

/-- Nobody stands before the thread in the queue of a source. -/
def firstInQueue (e : Env) (src : Bool × Nat) : Prop :=
  ∀ x, e.s.chanWait.find? (fun x => x.addrs.contains (sourceKey src)) = some x → x.thread = e.k

theorem firstInQueue_iff (e : Env) (src : Bool × Nat) :
    (match e.s.chanWait.find? (fun x => x.addrs.contains (sourceKey src)) with
      | some x => x.thread == e.k | none => true) = true ↔ firstInQueue e src := by
  unfold firstInQueue
  cases e.s.chanWait.find? (fun x => x.addrs.contains (sourceKey src)) <;> simp

/-- The machine with the thread in no source's queue. -/
def outOfQueue (e : Env) : State := { e.s with chanWait := e.s.chanWait.filter (fun x => x.thread != e.k) }

/-- What a RECV does to its clause's registers with the words of a message. -/
def takeMessage (wide : Bool) (d : Reg) (m : Word) (ms : List Word) (x : Clause) : Clause :=
  match wide, ms with
  | true, n :: _ => (x.put d m).put (regSucc d) n
  | _, _ => x.put d m

/-- A RECV that has its turn, of a message m :: ms of a source. -/
def recvEnd (wide : Bool) (d : Reg) (src : Bool × Nat) (m : Word) (ms : List Word) (e : Env) : WordOut :=
  if ms.length = (if wide then 1 else 0) then
    .done (e.upd (outOfQueue e) (fun x => (takeMessage wide d m ms x).act (.recv src.1 src.2)))
  else .fault 0x04 0 0

/-! ### The words -/

section Words
variable {s : State} {e : Env} (h : openWord s = some e)
include h

theorem exec_send_held (hi : e.i ≠ 0) (wide : Bool) (a : Reg) (b : Src) :
    exec (.send wide a b) s = .next (e.waiting .held s) :=
  runWord_waiting h (by simp [Env.notHeld_behind hi, openWord_state h])

theorem exec_recv_held (hi : e.i ≠ 0) (wide : Bool) (d a : Reg) :
    exec (.recv wide d a) s = .next (e.waiting .held s) :=
  runWord_waiting h (by simp [Env.notHeld_behind hi, openWord_state h])

section First
variable (hi : e.i = 0) {a : Reg}
include hi

theorem exec_send_refused (wide : Bool) (b : Src)
    (hc : capCheck e.fm.rcd (e.reg a).toNat (messageOk e.fm.rcd capSend) = .error (.fault 0x0A 0 0)) :
    exec (.send wide a b) s = .next (e.trapped 0x0A 0 0) :=
  runWord_trapped h (by simp [Env.notHeld_first hi, hc])

theorem exec_recv_refused (wide : Bool) (d : Reg)
    (hc : capCheck e.fm.rcd (e.reg a).toNat (messageOk e.fm.rcd capRecv) = .error (.fault 0x0A 0 0)) :
    exec (.recv wide d a) s = .next (e.trapped 0x0A 0 0) :=
  runWord_trapped h (by simp [Env.notHeld_first hi, hc])

section Sends
variable {c : BitVec 64} (hc : capCheck e.fm.rcd (e.reg a).toNat (messageOk e.fm.rcd capSend) = .ok c)
include hc

/-- A SEND of one word sends it at commit where it has room, and waits else. -/
theorem exec_send_one (b : Src) : exec (.send false a b) s = .next (
    if e.allowed (e.reg a).toNat c 1 then e.after (fun x => { x with acts := x.acts ++ [.send (e.reg a).toNat [e.src b]] })
    else e.waiting .channel s) := by
  split
  next hr => exact runWord_after _ h (by simp [Env.notHeld_first hi, hc, hr, Clause.act_eq])
  next hr => exact runWord_waiting h (by simp [Env.notHeld_first hi, hc, hr, openWord_state h])

/-- A SEND of a pair, likewise. -/
theorem exec_send_pair (r : Reg) : exec (.send true a (.reg r)) s = .next (
    if e.allowed (e.reg a).toNat c 2 then
      e.after (fun x => { x with acts := x.acts ++ [.send (e.reg a).toNat [e.reg r, e.reg (regSucc r)]] })
    else e.waiting .channel s) := by
  split
  next hr => exact runWord_after _ h (by simp [Env.notHeld_first hi, hc, hr, Clause.act_eq])
  next hr => exact runWord_waiting h (by simp [Env.notHeld_first hi, hc, hr, openWord_state h])

end Sends

section Receives
variable {c : BitVec 64} (hc : capCheck e.fm.rcd (e.reg a).toNat (messageOk e.fm.rcd capRecv) = .ok c)
include hc

/-- A RECV waits in the queue of its source where a clause of another thread has taken a message of it, where another thread
stands before it, and where there is no message (R365). -/
theorem exec_recv_waits (wide : Bool) (d : Reg)
    (hw : recvsOfOthers e (sourceOf e.fm c) ≠ 0 ∨ ¬ firstInQueue e (sourceOf e.fm c) ∨
      nextMessage e (sourceOf e.fm c) = none) :
    exec (.recv wide d a) s = .next (e.waiting .channel (s.queueRecv e.k (sourceOf e.fm c))) := by
  refine runWord_waiting h ?_
  rw [← openWord_state h]
  simp only [Env.notHeld_first hi, hc, ok_bind]
  rcases hm : nextMessage e (sourceOf e.fm c) with _ | _ | ⟨m, ms⟩
  · rw [nextMessage] at hm
    simp only [hm, flat_error]
  · rw [nextMessage] at hm
    simp only [hm, flat_error]
  · rw [hm] at hw
    rw [nextMessage] at hm
    simp only [hm]
    rw [if_neg, flat_error]
    rintro ⟨ho, hq⟩
    exact hw.elim (absurd ho) fun hw => hw.elim (fun hf => hf ((firstInQueue_iff e _).1 hq)) (by simp)

section Turn
variable (ho : recvsOfOthers e (sourceOf e.fm c) = 0) (hq : firstInQueue e (sourceOf e.fm c))
include ho hq

theorem exec_recv_turn {m : Word} {ms : List Word} (hm : nextMessage e (sourceOf e.fm c) = some (m :: ms)) (wide : Bool)
    (d : Reg) : exec (.recv wide d a) s = runWord s (recvEnd wide d (sourceOf e.fm c) m ms) := by
  refine runWord_congr h ?_
  rw [nextMessage] at hm
  simp only [Env.notHeld_first hi, hc, ok_bind, hm, recvEnd]
  rw [if_pos ⟨ho, (firstInQueue_iff e _).2 hq⟩]
  by_cases hw : ms.length = if wide then 1 else 0
  · rw [decide_eq_true hw, if_pos hw]
    rfl
  · rw [decide_eq_false hw, if_neg hw]
    rfl

/-- A RECV that has its turn answers the oldest message and takes it at commit (R365). -/
theorem exec_recv_one {m : Word} (d : Reg) (hm : nextMessage e (sourceOf e.fm c) = some [m]) :
    exec (.recv false d a) s = .next (e.afterIn (outOfQueue e) (fun x =>
      let y := x.put d m
      { y with acts := y.acts ++ [.recv (sourceOf e.fm c).1 (sourceOf e.fm c).2] })) := by
  rw [exec_recv_turn h hi hc ho hq hm]
  exact runWord_afterIn _ h rfl

theorem exec_recv_pair {m n : Word} (d : Reg) (hm : nextMessage e (sourceOf e.fm c) = some [m, n]) :
    exec (.recv true d a) s = .next (e.afterIn (outOfQueue e) (fun x =>
      let y := (x.put d m).put (regSucc d) n
      { y with acts := y.acts ++ [.recv (sourceOf e.fm c).1 (sourceOf e.fm c).2] })) := by
  rw [exec_recv_turn h hi hc ho hq hm]
  exact runWord_afterIn _ h rfl

/-- A message of another width than the RECV's is a fault (R365). -/
theorem exec_recv_width {m : Word} {ms : List Word} (wide : Bool) (d : Reg)
    (hm : nextMessage e (sourceOf e.fm c) = some (m :: ms)) (hw : ms.length ≠ if wide then 1 else 0) :
    exec (.recv wide d a) s = .next (e.trapped 0x04 0 0) := by
  rw [exec_recv_turn h hi hc ho hq hm]
  exact runWord_trapped h (if_neg hw)

end Turn

end Receives

end First

end Words

theorem queueRecv_new {s : State} {k : Nat} (src : Bool × Nat) (hn : ∀ x ∈ s.chanWait, x.thread ≠ k) :
    s.queueRecv k src = { s with chanWait := s.chanWait ++ [{ thread := k, kind := .recv, addrs := [sourceKey src] }] } :=
  if_neg (by simpa using hn)

theorem queueRecv_again {s : State} {k : Nat} (src : Bool × Nat) (hq : ∃ x ∈ s.chanWait, x.thread = k) :
    s.queueRecv k src = s :=
  if_pos (by simpa using hq)

/-- Settles O44: the channel is checked first, then a SEND's allowance and a RECV's turn. -/
theorem messages : Obligations.Messages := by
  unfold Obligations.Messages
  refine ⟨?sends, fun e n c len => allowed_iff e n c len, ?recvs, ?refused, fun s k src => queueRecv_new src,
    fun s k src => queueRecv_again src⟩
  case sends =>
    intro s e a b c h hi hc
    have hone := exec_send_one h hi hc b
    refine ⟨fun hr => ?_, fun hr => ?_, fun r => ?_⟩
    · rw [hone, if_pos hr]
    · rw [hone, if_neg (Bool.eq_false_iff.1 hr)]
    · have hpair := exec_send_pair h hi hc r
      refine ⟨fun hr => ?_, fun hr => ?_⟩
      · rw [hpair, if_pos hr]
      · rw [hpair, if_neg (Bool.eq_false_iff.1 hr)]
  case recvs =>
    intro s e d a c h hi hc
    obtain rfl := openWord_state h
    intro src others mine t first
    refine ⟨fun ho hq => ⟨fun m hm => ?_, fun m n hm => ?_⟩, fun hw wide => exec_recv_waits h hi hc wide d hw⟩
    · exact ⟨exec_recv_one h hi hc ho hq d hm, exec_recv_width h hi hc ho hq true d hm (by simp)⟩
    · exact ⟨exec_recv_pair h hi hc ho hq d hm, exec_recv_width h hi hc ho hq false d hm (by simp)⟩
  case refused =>
    intro s e d a b wide h
    refine ⟨fun hi => ⟨exec_send_held h hi wide a b, exec_recv_held h hi wide d a⟩, fun hi => ?_⟩
    exact ⟨fun hno => exec_send_refused h hi wide b (messageCheck_error hno),
      fun hno => exec_recv_refused h hi wide d (messageCheck_error hno)⟩

end Sys2Proof.CopiesAndCollectives

namespace Sys2Proof.CopiesAndCollectives
open Sys2Proof Sys2Proof.Machine Sys2Proof.WorkAndItsShape Sys2Proof.PlacesAndClauses

/-! ## The checks of the COPY class (R108 to R119, R321, R325, R326, R396) -/

/-! ### Checks made in order -/

theorem firstError_nil {α : Type} (o : α) : firstError [] o = .ok o := rfl

/-- The first check of a row decides, where it fails. -/
theorem firstError_cons {α : Type} (c : Chk Unit) (l : List (Chk Unit)) (o : α) :
    firstError (c :: l) o = c >>= fun _ => firstError l o := by
  cases c <;> rfl

/-! ### Limits -/

theorem planLimits_iff (p : Plan) (r : SMap Word) : p.limits r = true ↔
    (1 ≤ p.cols ∧ p.cols < 65536 ∧ 1 ≤ p.rows ∧ p.rows < 65536) ∧
    (p.unit = 1 ∨ p.badSP24 = true ∨ (onBlocks (relOf r p.dst) p.dstr p.rows p.unit = true ∧ p.cols % p.unit = 0)) ∧
    (isSP24 p.df = true → p.sameFmt = true → p.storage (relOf r p.src) = true) ∧ p.last < 131072 := by
  simp [Plan.limits, and_assoc, or_assoc, imp_iff_not_or]

theorem collLimits_iff (gather : Bool) (rc : List Word) : collLimits gather rc = true ↔
    recVA rc 0 < 2 ^ 56 ∧ recVA rc 0 % 64 = 0 ∧ 32 ≤ recN rc ∧ recN rc ≤ 2 ^ 26 ∧ recN rc % 32 = 0 ∧
    (if gather then recTransport rc = 0 ∨ recTransport rc = 1 else recTransport rc = 1 ∨ recTransport rc = 3) ∧
    (if gather = false ∧ recTransport rc = 3 then recVA rc 4 < 2 ^ 56 else recVA rc 4 = 0) ∧ rc.getD 7 0 = 0 := by
  cases gather
  · by_cases ht : recTransport rc = 3 <;> simp [collLimits, and_assoc, ht]
  · simp [collLimits, and_assoc, or_comm]

/-! ### The bitmap -/

theorem bitmapExtent_outside {f : Form} {a b : Nat} (h : firstOutside f.rcd a 32 = some b) :
    bitmapExtent f a = .error (0x07, BitVec.ofNat 32 b) := by
  simp [bitmapExtent, h]

theorem bitmapAlign_misaligned {h : HallRef} {a : Nat} (hm : a % 32 ≠ 0 ∨ h.seg.fmt ≠ 0) :
    bitmapAlign h a = .error (0x08, BitVec.ofNat 32 a) := by
  by_cases ha : a % 32 = 0
  · simp [bitmapAlign, ha, beq_eq_false_iff_ne.2 (hm.resolve_left (not_not_intro ha))]
  · simp [bitmapAlign, beq_eq_false_iff_ne.2 ha]

theorem bitmapAlign_past {h : HallRef} {a : Nat} (ha : a % 32 = 0) (hf : h.seg.fmt = 0)
    (he : h.seg.extent < h.rel + 32) : bitmapAlign h a = .error (0x08, BitVec.ofNat 32 (h.seg.base + h.seg.extent)) := by
  simp [bitmapAlign, ha, hf, Nat.not_le.2 he]

theorem bitmapAlign_ok {h : HallRef} {a : Nat} (ha : a % 32 = 0) (hf : h.seg.fmt = 0)
    (he : h.rel + 32 ≤ h.seg.extent) : bitmapAlign h a = .ok () := by
  simp [bitmapAlign, ha, hf, he]

/-- The first byte of a range that carries a tag. -/
theorem find?_tag {f : Form} {o n i : Nat} {t : Tag} (hi : i < n) (ht : f.tag (o + i) = t)
    (hmin : ∀ j, j < i → f.tag (o + j) ≠ t) : (List.range n).find? (fun i => decide (f.tag (o + i) = t)) = some i :=
  List.find?_range_eq_some.2 ⟨decide_eq_true ht, List.mem_range.2 hi, fun j hj => by simp [hmin j hj]⟩

theorem bitmapKind_object {f : Form} {a o i : Nat} (hi : i < 32) (ht : f.tag (o + i) = .object)
    (hmin : ∀ j, j < i → f.tag (o + j) ≠ .object) (hk : Tab.find? (o / 4) f.objs ≠ some .bitmap) :
    bitmapKind f a o = .error (0x09, BitVec.ofNat 32 (a + i)) := by
  simp only [bitmapKind, if_neg hk, find?_tag hi ht hmin]

theorem bitmapPoison_error {f : Form} {a o i : Nat} (hi : i < 32) (ht : f.tag (o + i) = .poisoned)
    (hmin : ∀ j, j < i → f.tag (o + j) ≠ .poisoned) : bitmapPoison f a o = .error (0x0F, BitVec.ofNat 32 (a + i)) := by
  simp only [bitmapPoison, find?_tag hi ht hmin]

/-- No object, and no word of the copy's own bitmap, in its destination (R113). -/
def destCheck (f : Form) (p : Plan) (o : Nat) : Chk Unit :=
  match objectInDest f p o with | some x => .error (0x09, BitVec.ofNat 32 x) | none => .ok ()

/-- CPY's rows of R113 are checks made in order, once the bitmap's address lies in an extent. -/
theorem cpyCheck_eq {f : Form} {p : Plan} {a : Nat} {h : HallRef} (he : bitmapExtent f a = .ok h) :
    cpyCheck f p a = firstError
      [sideCheck f.rcd p.src p.sstr p.rows p.rowLen, sideCheck f.rcd p.dst p.dstr p.rows p.rowLen, bitmapAlign h a,
       chk (slotsOk f.rcd p.sf p.src p.sstr p.rows) 0x08 (hallOr0 p.src),
       chk (!p.badSP24 && slotsOk f.rcd p.df p.dst p.dstr p.rows) 0x08 (hallOr0 p.dst), bitmapKind f a (h.sb + h.rel),
       destCheck f p (h.sb + h.rel),
       bitmapPoison f a (h.sb + h.rel)] (h.sb + h.rel) := by
  simp only [cpyCheck, he, ok_bind, firstError_cons, firstError_nil]
  rfl

theorem bitmapCheck_eq {f : Form} {a : Nat} {h : HallRef} (he : bitmapExtent f a = .ok h) :
    bitmapCheck f a = firstError [bitmapAlign h a, bitmapKind f a (h.sb + h.rel), bitmapPoison f a (h.sb + h.rel)]
      (h.sb + h.rel) := by
  simp only [bitmapCheck, he, ok_bind, firstError_cons, firstError_nil]
  rfl

/-! ### Buffers in the hall window -/

theorem isHall_locOf (va : Nat) : (locOf va).isHall = decide (va / 2 ^ 48 = 0xFE) := by
  unfold locOf
  split
  next h => exact (decide_eq_true h).symm
  next h => exact (decide_eq_false h).symm

/-- No page of the hall window counts as an FP32 page (R119). -/
theorem fp32Pages_hall (s : State) (cl ctx : Nat) {va n : Nat} (hbm : Bool) (hl : (locOf va).isHall = true) :
    s.fp32Pages cl ctx va n hbm = false := by
  have hfirst : va / 65536 * 65536 ∈ pagesOf va n :=
    List.mem_map.2 ⟨0, List.mem_range.2 (by omega), by simp⟩
  refine List.all_eq_false.2 ⟨_, hfirst, ?_⟩
  have hp : (locOf (va / 65536 * 65536)).isHall = true := by
    rw [isHall_locOf, decide_eq_true_iff] at hl ⊢
    omega
  simp [hp]

end Sys2Proof.CopiesAndCollectives

namespace Sys2Proof.CopiesAndCollectives
open Sys2Proof Sys2Proof.Machine Sys2Proof.WorkAndItsShape Sys2Proof.PlacesAndClauses

/-! ## CPY, QFENCE, CRED and CGATH (R109, R111 to R113, R117, R119, R321, R325) -/

/-! ### Channels -/

/-- A copy's channel has KIND 0, CRD for a source and CWR for a destination outside the hall (R109, R113). -/
theorem copyChannel_error {r : SMap Word} {n : Nat} {rd wr : Bool} (h : capValid (Rec.cap r n) = false ∨
      capKind (Rec.cap r n) ≠ 0 ∨ (rd = true ∧ capCrd (Rec.cap r n) = false) ∨ (wr = true ∧ capCwr (Rec.cap r n) = false)) :
    capCheck r n (copyOk rd wr) = .error (.fault 0x0A 0 0) := by
  refine capCheck_error (.inr (h.imp_right fun h => ?_))
  rcases h with h | ⟨h1, h2⟩ | ⟨h1, h2⟩ <;> simp [copyOk, *]

/-- A collective's channel has KIND 1, CRD and CWR (R109, R321). -/
theorem collChannel_error {r : SMap Word} {n : Nat} (h : capValid (Rec.cap r n) = false ∨ capKind (Rec.cap r n) ≠ 1 ∨
      capCrd (Rec.cap r n) = false ∨ capCwr (Rec.cap r n) = false) :
    capCheck r n (fun c => capKind c == 1 && capCrd c && capCwr c) = .error (.fault 0x0A 0 0) := by
  refine capCheck_error (.inr (h.imp_right fun h => ?_))
  rcases h with h | h | h <;> simp [h]

/-! ### The words -/

/-- The collective that a word makes outstanding: its thread's, with the bit of its bitmap (R119, R321). -/
def wordColl (e : Env) (c : BitVec 64) (gather : Bool) (rc : List Word) (bm bit : Nat) : Coll :=
  { id := e.s.serial, thread := e.k, form := e.th.form, node := none, cap := c, gather := gather, rc := rc,
    bit := some (bm, bit), before := [] }

section Words
variable {s : State} {e : Env} (h : openWord s = some e)
include h

/-! ### CPY -/

section Copy
variable {ch : Fin 64} {a : Reg} {r : Fin 384}

theorem exec_cpy_held (ch : Fin 64) (a : Reg) (r : Fin 384) (hi : e.i ≠ 0) :
    exec (.cpy ch a r) s = .next (e.waiting .held s) :=
  runWord_waiting h (by simp [Env.notHeld_behind hi, openWord_state h])

variable (hi : e.i = 0) {rc : List Word} {p : Plan} (hrc : e.record r.val = rc)
  (hp : planOf s e.th.core e.fm rc = p)
include hi hrc hp

theorem exec_cpy_refused (a : Reg)
    (hc : capCheck e.fm.rcd ch.val (copyOk (!(locOf p.src).isHall) (!(locOf p.dst).isHall)) = .error (.fault 0x0A 0 0)) :
    exec (.cpy ch a r) s = .next (e.trapped 0x0A 0 0) :=
  runWord_trapped h (by simp only [Env.notHeld_first hi, ok_bind, openWord_state h, hrc, hp, hc, error_bind, flat_error])

variable {c : BitVec 64}
  (hc : capCheck e.fm.rcd ch.val (copyOk (!(locOf p.src).isHall) (!(locOf p.dst).isHall)) = .ok c)
include hc

/-- A CPY whose channel passes goes on with its record, its addresses, its destination and the thread's earlier stores. -/
theorem exec_cpy_channel (a : Reg) : exec (.cpy ch a r) s = runWord s (fun e => flat do
    need (decide (p.src < 2 ^ 56 ∧ p.dst < 2 ^ 56) && p.limits e.fm.rcd)
    let bm ← liftChk (cpyCheck e.fm p (e.reg a).toNat)
    needCause ((locOf p.dst).isHall || !e.s.hitsWeights e.fm.cluster e.fm.ctx p.dst (p.last + 1)) 0x0C 0
    e.stored
    pure (e.result (fun x =>
      (x.act (.copy [capEnd c] (.bulk p bm (List.range (p.lastChunk + 1)) none))).noteRec r.val rc))) :=
  runWord_congr h (by simp only [Env.notHeld_first hi, ok_bind, openWord_state h, hrc, hp, hc])

theorem exec_cpy_limits (hl : 2 ^ 56 ≤ p.src ∨ 2 ^ 56 ≤ p.dst ∨ p.limits e.fm.rcd = false) :
    exec (.cpy ch a r) s = .next (e.trapped 0x04 0 0) := by
  have hno : (decide (p.src < 2 ^ 56 ∧ p.dst < 2 ^ 56) && p.limits e.fm.rcd) = false := by
    rcases hl with hl | hl | hl
    · simp [-Nat.reducePow, Nat.not_lt.2 hl]
    · simp [-Nat.reducePow, Nat.not_lt.2 hl]
    · simp [hl]
  rw [exec_cpy_channel h hi hrc hp hc]
  exact runWord_trapped h (by simp only [hno, need_false, error_bind, flat_error])

variable (hl : (decide (p.src < 2 ^ 56 ∧ p.dst < 2 ^ 56) && p.limits e.fm.rcd) = true)
include hl

theorem exec_cpy_address {x : Nat} {v : Word} (hb : cpyCheck e.fm p (e.reg a).toNat = .error (x, v)) :
    exec (.cpy ch a r) s = .next (e.trapped x v 0) := by
  rw [exec_cpy_channel h hi hrc hp hc]
  exact runWord_trapped h (by simp only [hl, hb, need_true, ok_bind, liftChk_error, error_bind, flat_error])

variable {bm : Nat} (hb : cpyCheck e.fm p (e.reg a).toNat = .ok bm)
include hb

theorem exec_cpy_weights (hw : (locOf p.dst).isHall = false ∧
      s.hitsWeights e.fm.cluster e.fm.ctx p.dst (p.last + 1) = true) :
    exec (.cpy ch a r) s = .next (e.trapped 0x0C 0 0) := by
  rw [exec_cpy_channel h hi hrc hp hc]
  refine runWord_trapped h ?_
  simp only [hl, hb, need_true, ok_bind, liftChk_ok, openWord_state h, hw, Bool.not_true, Bool.or_self, needCause_false,
    error_bind, flat_error]

variable (hw : ¬ ((locOf p.dst).isHall = false ∧ s.hitsWeights e.fm.cluster e.fm.ctx p.dst (p.last + 1) = true))
include hw

/-- A CPY comes after the thread's earlier stores, and enters its queue at commit with every chunk to do (R116, log 102). -/
theorem exec_cpy_enters : exec (.cpy ch a r) s = .next (
    if e.storesDone then e.after (fun x => { x with
      acts := x.acts ++ [.copy [capEnd c] (.bulk p bm (List.range (p.lastChunk + 1)) none)],
      recs := x.recs ++ rc.zipIdx.map (fun y => (r.val + y.2, y.1)) })
    else e.waiting .fence s) := by
  have hfree : ((locOf p.dst).isHall || !s.hitsWeights e.fm.cluster e.fm.ctx p.dst (p.last + 1)) = true := by
    simpa [imp_iff_not_or, or_comm] using hw
  rw [exec_cpy_channel h hi hrc hp hc]
  split
  next hs => exact runWord_after _ h (by
    simp only [hl, hb, need_true, ok_bind, liftChk_ok, openWord_state h, hfree, needCause_true, Env.stored, hs,
      Env.waitUnless_true]
    rfl)
  next hs => exact runWord_waiting h (by
    simp only [hl, hb, need_true, ok_bind, liftChk_ok, openWord_state h, hfree, needCause_true, Env.stored, hs,
      Env.waitUnless_false, error_bind, flat_error])

end Copy

/-! ### QFENCE -/

section Fence
variable {ch : Fin 64} {m : Fin 384}

theorem exec_qfence_held (ch : Fin 64) (m : Fin 384) (hi : e.i ≠ 0) :
    exec (.qfence ch m) s = .next (e.waiting .held s) :=
  runWord_waiting h (by simp [Env.notHeld_behind hi, openWord_state h])

variable {mask : Nat} {ok : Nat → Bool} {set : List Nat} (hi : e.i = 0)
  (hm : (e.sreg m.val).toNat + 2 ^ 32 * (e.sreg (m.val + 1)).toNat = mask)
  (hok : (fun (n : Nat) => capValid (Rec.cap e.fm.rcd n) && capKind (Rec.cap e.fm.rcd n) == 0) = ok)
  (hset : (List.range 64).filter (fun n => mask / 2 ^ n % 2 == 1) = set)
include hi hm hok hset

theorem exec_qfence_channel : exec (.qfence ch m) s = runWord s (fun e => flat do
    needCause (ok ch.val && (mask == 0 || (set.all ok && set.contains ch.val))) 0x0A 0
    let qs := (set.map (fun n => capEnd (Rec.cap e.fm.rcd n))).dedup
    if mask = 0 then pure (e.result id) else pure (e.result (·.act (.copy qs (.qfence qs))))) :=
  runWord_congr h (by subst hok hset hm; simp only [Env.notHeld_first hi, ok_bind])

/-- A QFENCE of no channel does nothing (R117). -/
theorem exec_qfence_none (hch : ok ch.val = true) (h0 : mask = 0) :
    exec (.qfence ch m) s = .next (e.after (fun x => x)) := by
  rw [exec_qfence_channel h hi hm hok hset]
  exact runWord_after _ h (by simp [hch, h0, Function.id_def])

theorem exec_qfence_enters (hch : ok ch.val = true) (h0 : mask ≠ 0) (hall : ∀ n ∈ set, ok n = true) (hin : ch.val ∈ set) :
    exec (.qfence ch m) s = .next (e.after (fun x => { x with acts := x.acts ++
      [.copy (set.map (fun n => capEnd (Rec.cap e.fm.rcd n))).dedup
        (.qfence (set.map (fun n => capEnd (Rec.cap e.fm.rcd n))).dedup)] })) := by
  have hpass : (ok ch.val && (mask == 0 || (set.all ok && set.contains ch.val))) = true := by
    simpa [hch, hin] using Or.inr hall
  rw [exec_qfence_channel h hi hm hok hset]
  refine runWord_after _ h ?_
  simp only [hpass, needCause_true, ok_bind]
  rw [if_neg h0]
  rfl

theorem exec_qfence_refused
    (hno : ok ch.val = false ∨ (mask ≠ 0 ∧ ((∃ n ∈ set, ok n = false) ∨ ch.val ∉ set))) :
    exec (.qfence ch m) s = .next (e.trapped 0x0A 0 0) := by
  have hfail : (ok ch.val && (mask == 0 || (set.all ok && set.contains ch.val))) = false := by
    rcases hno with hno | ⟨h0, ⟨n, hn, hno⟩ | hno⟩
    · simp [hno]
    · have : set.all ok = false := List.all_eq_false.2 ⟨n, hn, by simp [hno]⟩
      simp [h0, this]
    · simp [h0, hno]
  rw [exec_qfence_channel h hi hm hok hset]
  exact runWord_trapped h (by simp only [hfail, needCause_false, error_bind, flat_error])

end Fence

/-! ### CRED and CGATH -/

section Collectives
variable {ch : Fin 64} {a : Reg} {r : Fin 384} {bit : Fin 256} {gather : Bool}

omit h in
theorem exec_collective :
    exec (if gather then .cgath ch a r bit else .cred ch a r bit) s = collective gather ch a r bit s := by
  cases gather <;> rfl

theorem collective_held (gather : Bool) (ch : Fin 64) (a : Reg) (r : Fin 384) (bit : Fin 256) (hi : e.i ≠ 0) :
    collective gather ch a r bit s = .next (e.waiting .held s) :=
  runWord_waiting h (by simp [Env.notHeld_behind hi, openWord_state h])

variable (hi : e.i = 0)
include hi

theorem collective_refused (gather : Bool) (a : Reg) (r : Fin 384) (bit : Fin 256)
    (hc : capCheck e.fm.rcd ch.val (fun c => capKind c == 1 && capCrd c && capCwr c) = .error (.fault 0x0A 0 0)) :
    collective gather ch a r bit s = .next (e.trapped 0x0A 0 0) :=
  runWord_trapped h (by simp only [Env.notHeld_first hi, ok_bind, hc, error_bind, flat_error])

variable {rc : List Word} {c : BitVec 64} {weights paged : Bool} (hrc : e.record r.val = rc)
  (hc : capCheck e.fm.rcd ch.val (fun c => capKind c == 1 && capCrd c && capCwr c) = .ok c)
  (hweights : s.collWeights e.fm.cluster e.fm.ctx gather c rc = weights)
  (hpaged : (s.fp32Pages e.fm.cluster e.fm.ctx (recVA rc 0) (collBytes gather c rc) true &&
    (!hasResidual gather rc || s.fp32Pages e.fm.cluster e.fm.ctx (recVA rc 4) (4 * recN rc) false)) = paged)
include hrc hc hweights hpaged

/-- A collective whose channel passes goes on with its record, its pages, its bitmap and its destination (R321). -/
theorem collective_channel (a : Reg) (bit : Fin 256) : collective gather ch a r bit s = runWord s (fun e => flat do
    need (collLimits gather rc)
    need (weights || paged)
    let bm ← liftChk (bitmapCheck e.fm (e.reg a).toNat)
    needCause (!weights) 0x0C 0
    pure (.done (e.upd e.s.fresh (fun x => (x.act (.coll
      (wordColl e c gather rc bm bit.val))).noteRec r.val rc)))) :=
  runWord_congr h (by simp only [Env.notHeld_first hi, ok_bind, openWord_state h, hrc, hc, hweights, hpaged, wordColl])

theorem collective_limits (a : Reg) (bit : Fin 256) (hl : collLimits gather rc = false) :
    collective gather ch a r bit s = .next (e.trapped 0x04 0 0) := by
  rw [collective_channel h hi hrc hc hweights hpaged]
  exact runWord_trapped h (by simp only [hl, need_false, error_bind, flat_error])

variable (hl : collLimits gather rc = true)
include hl

theorem collective_pages (a : Reg) (bit : Fin 256) (hp : (weights || paged) = false) :
    collective gather ch a r bit s = .next (e.trapped 0x04 0 0) := by
  rw [collective_channel h hi hrc hc hweights hpaged]
  exact runWord_trapped h (by simp only [hl, hp, need_true, ok_bind, need_false, error_bind, flat_error])

variable (hp : (weights || paged) = true)
include hp

theorem collective_bitmap (bit : Fin 256) {x : Nat} {v : Word} (hb : bitmapCheck e.fm (e.reg a).toNat = .error (x, v)) :
    collective gather ch a r bit s = .next (e.trapped x v 0) := by
  rw [collective_channel h hi hrc hc hweights hpaged]
  exact runWord_trapped h (by simp only [hl, hp, hb, need_true, ok_bind, liftChk_error, error_bind, flat_error])

variable {bm : Nat} (hb : bitmapCheck e.fm (e.reg a).toNat = .ok bm)
include hb

theorem collective_weights (bit : Fin 256) (hw : weights = true) :
    collective gather ch a r bit s = .next (e.trapped 0x0C 0 0) := by
  rw [collective_channel h hi hrc hc hweights hpaged]
  subst hw
  exact runWord_trapped h (by
    simp only [hl, hp, hb, need_true, ok_bind, liftChk_ok, Bool.not_true, needCause_false, error_bind, flat_error])

/-- A collective whose checks pass becomes outstanding at commit (R119). -/
theorem collective_enters (bit : Fin 256) (hw : weights = false) : collective gather ch a r bit s =
    .next (e.afterIn s.fresh (fun x => { x with
      acts := x.acts ++ [.coll (wordColl e c gather rc bm bit.val)],
      recs := x.recs ++ rc.zipIdx.map (fun y => (r.val + y.2, y.1)) })) := by
  rw [collective_channel h hi hrc hc hweights hpaged]
  subst hw
  refine runWord_afterIn _ h ?_
  simp only [hl, hp, hb, need_true, ok_bind, liftChk_ok, Bool.not_false, needCause_true, openWord_state h]
  rfl

end Collectives

end Words

end Sys2Proof.CopiesAndCollectives

namespace Sys2Proof.CopiesAndCollectives
open Sys2Proof Sys2Proof.Machine Sys2Proof.WorkAndItsShape Sys2Proof.PlacesAndClauses

/-! ## CPYG and CPYS (R109, R118, R326, R396) -/

theorem fineTags_ok {f : Form} {a o n : Nat} (h : ∀ i, i < n → f.tag (o + i) ≠ .object) : fineTags f a o n = .ok () := by
  have hnone : (List.range n).find? (fun i => decide (f.tag (o + i) = .object)) = none :=
    List.find?_range_eq_none.2 fun i hi => by simp [h i hi]
  simp only [fineTags, hnone]

theorem fineTags_object {f : Form} {a o n i : Nat} (hi : i < n) (ht : f.tag (o + i) = .object)
    (hmin : ∀ j, j < i → f.tag (o + j) ≠ .object) : fineTags f a o n = .error (0x09, BitVec.ofNat 32 (a + i)) := by
  simp only [fineTags, find?_tag hi ht hmin]

/-- A fine-grain copy's far side in the hall window, or in memory, passes its own checks (R118). -/
def farPasses (f : Form) (va n : Nat) : Prop :=
  ∀ x, locOf va = .hall x → x < 2 ^ 23 ∧ ∃ gf off, fineSpan f x n = .ok (gf, off) ∧ gf.fmt = 0 ∧
    ∀ i, i < n → f.tag (off + i) ≠ .object

theorem fine_refused {e : Env} {ch n b : Nat} {a : Reg} {rd : Bool} (hi : e.i = 0)
    (hc : capCheck e.fm.rcd ch (copyOk rd (!rd)) = .error (.fault 0x0A 0 0)) :
    e.fine ch rd a b n = .error (.fault 0x0A 0 0) := by
  simp only [Env.fine, Env.notHeld_first hi, ok_bind, hc, error_bind]

/-- The checks of a fine-grain copy after those of its channel, its VA and its hall side's extent (R118). -/
def fineRest (e : Env) (rd : Bool) (n va h : Nat) (g : Seg) (o : Nat) (c : BitVec 64) :
    Except WordOut (State × Nat × Nat × Nat) := do
  let far ← liftChk (match locOf va with
    | .hall x => if x < 2 ^ 23 then (fineSpan e.fm x n).map (fun p => some (x, p)) else .error (0x07, BitVec.ofNat 32 x)
    | .mem _ => .ok none)
  liftChk (chk (h % n == 0 && g.fmt == 0) 0x08 h)
  needCause (va % n == 0) 0x08 (BitVec.ofNat 32 (hallOr0 va))
  liftChk (match far with | some (x, (gf, _)) => chk (gf.fmt == 0) 0x08 x | none => .ok ())
  liftChk (fineTags e.fm h o n)
  liftChk (match far with | some (x, (_, of)) => fineTags e.fm x of n | none => .ok ())
  needCause (rd || (locOf va).isHall || !e.s.hitsWeights e.fm.cluster e.fm.ctx va n) 0x0C 0
  pure (e.s, capEnd c, va, o)

section Checks
variable {e : Env} {ch n b va : Nat} {a : Reg} {rd : Bool} {c : BitVec 64} (hi : e.i = 0)
  (hc : capCheck e.fm.rcd ch (copyOk rd (!rd)) = .ok c) (hva : e.pair b = va)
include hi hc hva

theorem fine_va (hv : 2 ^ 56 ≤ va) : e.fine ch rd a b n = .error (.fault 0x04 0 0) := by
  simp only [Env.fine, Env.notHeld_first hi, ok_bind, hc, hva, decide_eq_false (Nat.not_lt.2 hv), need_false, error_bind]

variable (hv : va < 2 ^ 56)
include hv

theorem fine_outside {x : Nat} {v : Word} (hs : fineSpan e.fm (e.reg a).toNat n = .error (x, v)) :
    e.fine ch rd a b n = .error (.fault x v 0) := by
  simp only [Env.fine, Env.notHeld_first hi, ok_bind, hc, hva, decide_eq_true hv, need_true, hs, liftChk_error, error_bind]

variable {g : Seg} {o : Nat} (hs : fineSpan e.fm (e.reg a).toNat n = .ok (g, o))
include hs

theorem fine_near : e.fine ch rd a b n = fineRest e rd n va (e.reg a).toNat g o c := by
  simp only [Env.fine, Env.notHeld_first hi, ok_bind, hc, hva, decide_eq_true hv, need_true, hs, liftChk_ok, fineRest,
    hallOr0]
  cases locOf va <;> rfl

theorem fine_window {x : Nat} (hl : locOf va = .hall x) (hx : 2 ^ 23 ≤ x) :
    e.fine ch rd a b n = .error (.fault 0x07 (BitVec.ofNat 32 x) 0) := by
  rw [fine_near hi hc hva hv hs]
  simp only [fineRest, hl, if_neg (Nat.not_lt.2 hx), liftChk_error, error_bind]

section Memory
variable (hl : locOf va = .mem va)
include hl

theorem fine_misaligned (hm : (e.reg a).toNat % n ≠ 0 ∨ g.fmt ≠ 0) :
    e.fine ch rd a b n = .error (.fault 0x08 (e.reg a) 0) := by
  have hno : ((e.reg a).toNat % n == 0 && g.fmt == 0) = false := by simpa [imp_iff_not_or] using hm
  rw [fine_near hi hc hva hv hs]
  simp only [fineRest, hl, liftChk_ok, ok_bind, hno,
    chk_false, liftChk_error, error_bind, BitVec.ofNat_toNat, BitVec.setWidth_eq]

variable (hal : (e.reg a).toNat % n = 0) (hf : g.fmt = 0)
include hal hf

theorem fine_far_misaligned (hm : va % n ≠ 0) : e.fine ch rd a b n = .error (.fault 0x08 0 0) := by
  rw [fine_near hi hc hva hv hs]
  simp only [fineRest, hallOr0, hl, liftChk_ok, ok_bind, hal, hf,
    beq_self_eq_true, Bool.and_self, chk_true, beq_eq_false_iff_ne.2 hm, needCause_false, error_bind]
  rfl

theorem fine_object (hm : va % n = 0) {i : Nat} (hin : i < n) (ht : e.fm.tag (o + i) = .object)
    (hmin : ∀ j, j < i → e.fm.tag (o + j) ≠ .object) :
    e.fine ch rd a b n = .error (.fault 0x09 (BitVec.ofNat 32 ((e.reg a).toNat + i)) 0) := by
  rw [fine_near hi hc hva hv hs]
  simp only [fineRest, hl, liftChk_ok, ok_bind, hal, hf,
    beq_self_eq_true, Bool.and_self, chk_true, hm, needCause_true, fineTags_object hin ht hmin, liftChk_error, error_bind]

end Memory

variable (hfar : farPasses e.fm va n) (hal : (e.reg a).toNat % n = 0) (hf : g.fmt = 0) (hm : va % n = 0)
  (ht : ∀ i, i < n → e.fm.tag (o + i) ≠ .object)
include hfar hal hf hm ht

/-- Where the checks of both sides pass, the weight store is what is left (R98, R118). -/
theorem fine_passes : e.fine ch rd a b n =
    if rd = false ∧ (locOf va).isHall = false ∧ e.s.hitsWeights e.fm.cluster e.fm.ctx va n = true then
      .error (.fault 0x0C 0 0)
    else .ok (e.s, capEnd c, va, o) := by
  cases hl : locOf va with
  | mem v =>
    rw [fine_near hi hc hva hv hs]
    simp only [fineRest, hl, liftChk_ok, ok_bind, hal, hf,
      beq_self_eq_true, Bool.and_self, chk_true, hm, needCause_true, fineTags_ok ht]
    cases rd <;> cases e.s.hitsWeights e.fm.cluster e.fm.ctx va n <;> rfl
  | hall x =>
    obtain ⟨hx, gf, off, hfs, hff, hft⟩ := hfar x hl
    rw [fine_near hi hc hva hv hs]
    simp only [fineRest, hl, liftChk_ok, ok_bind, hal, hf,
      beq_self_eq_true, Bool.and_self, chk_true, hm, needCause_true, fineTags_ok ht, if_pos hx, hfs, hff, Except.map,
      fineTags_ok hft]
    cases rd <;> rfl

end Checks

section Words
variable {s : State} {e : Env} (h : openWord s = some e) {wide : Bool} {ch : Fin 64} {a : Reg} {b : Fin 120}
include h

theorem exec_cpyg_held (wide : Bool) (ch : Fin 64) (a : Reg) (b : Fin 120) (hi : e.i ≠ 0) :
    exec (.cpyg wide ch a b) s = .next (e.waiting .held s) :=
  runWord_waiting h (by simp [Env.fine, Env.notHeld_behind hi, openWord_state h])

theorem exec_cpys_held (wide : Bool) (ch : Fin 64) (a : Reg) (b : Fin 120) (hi : e.i ≠ 0) :
    exec (.cpys wide ch a b) s = .next (e.waiting .held s) :=
  runWord_waiting h (by simp [Env.fine, Env.notHeld_behind hi, openWord_state h])

theorem exec_cpyg_fault {x : Nat} {v : Word}
    (hf : e.fine ch.val true a b.val (if wide then 16 else 8) = .error (.fault x v 0)) :
    exec (.cpyg wide ch a b) s = .next (e.trapped x v 0) :=
  runWord_trapped h (by simp only [hf, error_bind, flat_error])

theorem exec_cpys_fault {x : Nat} {v : Word}
    (hf : e.fine ch.val false a b.val (if wide then 16 else 8) = .error (.fault x v 0)) :
    exec (.cpys wide ch a b) s = .next (e.trapped x v 0) :=
  runWord_trapped h (by simp only [hf, error_bind, flat_error])

/-- A failing check of a fine-grain copy, of either kind, is its fault. -/
theorem exec_fine_fault {rd : Bool} {x : Nat} {v : Word}
    (hf : e.fine ch.val rd a b.val (if wide then 16 else 8) = .error (.fault x v 0)) :
    exec (if rd then .cpyg wide ch a b else .cpys wide ch a b) s = .next (e.trapped x v 0) := by
  cases rd
  · exact exec_cpys_fault h hf
  · exact exec_cpyg_fault h hf

/-- A CPYG whose checks pass comes after the thread's earlier stores, and enters its queue at commit (R116, R118). -/
theorem exec_cpyg {n q va o : Nat} (hn : (if wide then 16 else 8) = n)
    (hf : e.fine ch.val true a b.val n = .ok (e.s, q, va, o)) :
    exec (.cpyg wide ch a b) s = .next (
      if e.storesDone then e.after (fun x => { x with acts := x.acts ++ [.copy [q] (.gather n o va)] })
      else e.waiting .fence s) := by
  split
  next hs => exact runWord_after _ h (by simp only [hn, hf, ok_bind, Env.stored, hs, Env.waitUnless_true]; rfl)
  next hs => exact runWord_waiting h (by
    simp only [hn, hf, ok_bind, Env.stored, hs, Env.waitUnless_false, error_bind, flat_error, openWord_state h])

section Scatter
variable {n q va o : Nat} (hn : (if wide then 16 else 8) = n)
  (hf : e.fine ch.val false a b.val n = .ok (e.s, q, va, o))
include hn hf

theorem exec_cpys_fence (hs : e.storesDone = false) : exec (.cpys wide ch a b) s = .next (e.waiting .fence s) :=
  runWord_waiting h (by
    simp only [hn, hf, ok_bind, Env.stored, hs, Env.waitUnless_false, error_bind, flat_error, openWord_state h])

/-- A CPYS reads its hall side at commit, so that a reserved word of it waits (R297). -/
theorem exec_cpys (hs : e.storesDone = true) : exec (.cpys wide ch a b) s = .next (
    if (wordsOfSpan o n).all (fun w => !e.fm.heldByOther e.k (4 * w)) then
      e.after (fun x => { x with acts := x.acts ++ [.scatter q o n va] })
    else e.waiting .reservation s) := by
  split
  next hr => exact runWord_after _ h (by simp only [hn, hf, ok_bind, Env.stored, hs, hr, Env.waitUnless_true]; rfl)
  next hr => exact runWord_waiting h (by
    simp only [hn, hf, ok_bind, Env.stored, hs, hr, Env.waitUnless_true, Env.waitUnless_false, error_bind, flat_error,
      openWord_state h])

end Scatter
end Words

/-! ## The obligation -/

theorem bulkCopies_hold : bulkCopies := by
  refine ⟨?words, fun s core f rc => ⟨rfl, rfl, rfl, rfl, rfl, rfl⟩, planLimits_iff,
    fun f p a => ⟨fun x he => by rw [cpyCheck, he, error_bind], fun g hg => ⟨cpyCheck_eq hg, bitmapCheck_eq hg⟩⟩, ?bitmap⟩
  case words =>
    intro s e ch a r h hi rc p wstore c hc
    refine ⟨exec_cpy_limits h hi rfl rfl hc, fun hsrc hdst hlim => ?_⟩
    have hl : (decide (p.src < 2 ^ 56 ∧ p.dst < 2 ^ 56) && p.limits e.fm.rcd) = true := by
      rw [hlim, decide_eq_true ⟨hsrc, hdst⟩]
      rfl
    refine ⟨fun x v => exec_cpy_address h hi rfl rfl hc hl,
      fun bm hb => ⟨exec_cpy_weights h hi rfl rfl hc hl hb, fun hw hs => ?_, fun hw hs => ?_⟩⟩
    · rw [exec_cpy_enters h hi rfl rfl hc hl hb hw, if_neg (Bool.eq_false_iff.1 hs)]
    · rw [exec_cpy_enters h hi rfl rfl hc hl hb hw, if_pos hs]
  case bitmap =>
    intro f a b g
    exact ⟨bitmapExtent_outside, bitmapAlign_misaligned, bitmapAlign_past, bitmapAlign_ok, fun o hk => if_pos hk,
      fun o i => bitmapKind_object, fun o i => bitmapPoison_error⟩

theorem fineCopies_hold : fineCopies := by
  intro s e wide rd ch a b h hi n va hh out far c hc
  have fault : ∀ {x v}, e.fine ch.val rd a b.val n = .error (.fault x v 0) → out = .next (e.trapped x v 0) :=
    exec_fine_fault h
  refine ⟨fun hv => fault (fine_va hi hc rfl hv),
    fun hv => ⟨fun x v hs => fault (fine_outside hi hc rfl hv hs), fun g o hs => ?_⟩⟩
  refine ⟨fun x hl hx => fault (fine_window hi hc rfl hv hs hl hx),
    fun hl => ⟨fun hm => fault (fine_misaligned hi hc rfl hv hs hl hm), fun hal hf => ?_⟩, ?_⟩
  · exact ⟨fun hm => fault (fine_far_misaligned hi hc rfl hv hs hl hal hf hm),
      fun hm i hin ht hmin => fault (fine_object hi hc rfl hv hs hl hal hf hm hin ht hmin)⟩
  intro hfar hal hf hm ht wstore
  have hpass := fine_passes hi hc rfl hv hs hfar hal hf hm ht
  have hfree : ¬ (rd = false ∧ (locOf va).isHall = false ∧ e.s.hitsWeights e.fm.cluster e.fm.ctx va n = true) →
      e.fine ch.val rd a b.val n = .ok (e.s, capEnd c, va, o) := fun hno => hpass.trans (if_neg hno)
  have hws : ¬ wstore → ¬ ((locOf va).isHall = false ∧ e.s.hitsWeights e.fm.cluster e.fm.ctx va n = true) := by
    rw [openWord_state h]
    exact id
  refine ⟨?gatherFence, ?gathers, ?weights, ?scatterFence, ?scatters⟩
  case gatherFence =>
    rintro rfl hst
    exact (exec_cpyg h rfl (hfree (by simp))).trans (congrArg _ (if_neg (Bool.eq_false_iff.1 hst)))
  case gathers =>
    rintro rfl hst
    exact (exec_cpyg h rfl (hfree (by simp))).trans (congrArg _ (if_pos hst))
  case weights =>
    rintro rfl hw
    refine fault (hpass.trans (if_pos ⟨rfl, ?_⟩))
    rwa [openWord_state h]
  case scatterFence =>
    rintro rfl hw hst
    exact exec_cpys_fence h rfl (hfree fun hno => hws hw hno.2) hst
  case scatters =>
    rintro rfl hw hst
    have hcpys := exec_cpys h rfl (hfree fun hno => hws hw hno.2) hst
    refine ⟨fun ⟨w, hw, hr⟩ => ?_, fun hr => ?_⟩
    · exact hcpys.trans (congrArg _ (if_neg (by simpa using ⟨w, hw, hr⟩)))
    · exact hcpys.trans (congrArg _ (if_pos (by simpa using hr)))

theorem collectives_hold : collectives := by
  refine ⟨?words, collLimits_iff, fun s cl ctx va n hbm _ hl => fp32Pages_hall s cl ctx hbm hl⟩
  intro s e ch a r bit gather c h hi hc rc out wstore paged
  have hout : out = collective gather ch a r bit s := exec_collective
  have hpages : (s.fp32Pages e.fm.cluster e.fm.ctx (recVA rc 0) (collBytes gather c rc) true &&
      (!hasResidual gather rc || s.fp32Pages e.fm.cluster e.fm.ctx (recVA rc 4) (4 * recN rc) false)) = true ↔ paged := by
    simp [paged, hasResidual, or_assoc]
  rw [hout]
  refine ⟨collective_limits h hi rfl hc rfl rfl a bit, fun hl => ⟨fun hw hp => ?_, fun hwp => ?_⟩⟩
  · exact collective_pages h hi rfl hc rfl rfl hl a bit
      (by rw [Bool.eq_false_iff.2 hw, Bool.eq_false_iff.2 fun h => hp (hpages.1 h)]; rfl)
  have hpass := Bool.or_eq_true_iff.2 (hwp.imp_right hpages.2)
  refine ⟨fun x v => collective_bitmap h hi rfl hc rfl rfl hl hpass bit, fun bm hb => ⟨?_, fun hw => ?_⟩⟩
  · exact collective_weights h hi rfl hc rfl rfl hl hpass hb bit
  · obtain rfl := openWord_state h
    exact collective_enters h hi rfl hc rfl rfl hl hpass hb bit (Bool.eq_false_iff.2 hw)

/-- Settles O45: the checks of each word in their order, and what enters the queues when they pass. -/
theorem copyAndCollectiveWords : Obligations.CopyAndCollectiveWords := by
  refine ⟨bulkCopies_hold, fineCopies_hold, collectives_hold, ?qfence, ?channels⟩
  case qfence =>
    intro s e ch m h hi mask ok set qs
    exact ⟨exec_qfence_none h hi rfl rfl rfl, exec_qfence_enters h hi rfl rfl rfl, exec_qfence_refused h hi rfl rfl rfl⟩
  case channels =>
    intro s e ch a b r bit wide h
    refine ⟨fun hi => ⟨exec_cpy_held h ch a r hi, exec_cpyg_held h wide ch a b hi, exec_cpys_held h wide ch a b hi,
      exec_qfence_held h ch r hi, collective_held h false ch a r bit hi, collective_held h true ch a r bit hi⟩, fun hi => ?_⟩
    intro c p
    refine ⟨fun hno => exec_cpy_refused h hi rfl rfl a (copyChannel_error (by simpa using hno)),
      fun hno => exec_cpyg_fault h (fine_refused hi (copyChannel_error (by simpa using hno))),
      fun hno => exec_cpys_fault h (fine_refused hi (copyChannel_error (by simpa using hno))), fun hno => ?_⟩
    have hc := collChannel_error hno
    exact ⟨collective_refused h hi false a r bit hc, collective_refused h hi true a r bit hc⟩

end Sys2Proof.CopiesAndCollectives

namespace Sys2Proof.CopiesAndCollectives
open Sys2Proof Sys2Proof.Machine Sys2Proof.WorkAndItsShape Sys2Proof.PlacesAndClauses

/-! ## The timetable (R119, R157 to R162, R215) -/

/-! ### What an insertion leaves: the order of the ready nodes (R164) -/

theorem requests_readySeq (s : State) (pas : List Nat) : (s.requests pas).readySeq = s.readySeq := by
  obtain ⟨k, hk⟩ := requests_eq s pas
  rw [hk]

theorem puts_readySeq (s : State) (zs : List (Nat × Byte)) : (s.puts zs).readySeq = s.readySeq := by
  unfold State.puts
  split
  · rfl
  · refine (requests_readySeq _ _).trans ?_
    exact List.foldlRecOn (motive := fun t : State => t.readySeq = s.readySeq) _ _ rfl fun t ht z _ => by simp [ht]

theorem markDirty_readySeq (s : State) (ctx va : Nat) : (s.markDirty ctx va).readySeq = s.readySeq := puts_readySeq s _

theorem writeImage_readySeq (s : State) (ctx va : Nat) (pte : BitVec 64) (img : List Word) :
    (s.writeImage ctx va pte img).readySeq = s.readySeq := by
  unfold State.writeImage
  dsimp only
  rw [puts_readySeq]
  split
  · rfl
  · exact markDirty_readySeq s ctx va

theorem writeContext_readySeq {s t : State} {ctx : Nat} {img : List Word} (h : s.writeContext ctx img = some t) :
    t.readySeq = s.readySeq := by
  unfold State.writeContext State.writeWord at h
  split at h
  · split at h
    · cases h
    split at h
    · cases h
    split at h
    · cases h
    · dsimp only at h
      cases h
      rw [puts_readySeq]
      split
      · rfl
      · exact markDirty_readySeq _ _ _
  · cases h
    rfl

theorem setNode_readySeq (s : State) (pa st err pred : Nat) : (s.setNode pa st err pred).readySeq = s.readySeq := by
  unfold State.setNode
  dsimp only
  split
  · exact puts_readySeq _ _
  · rfl

theorem keep_readySeq (s : State) (x : RecItem) : (s.keep x).readySeq = s.readySeq := by
  unfold State.keep
  split <;> rfl

theorem makeReady_readySeq (s : State) (pa : Nat) : (s.makeReady pa).readySeq = s.readySeq + 1 :=
  congrArg (· + 1) (setNode_readySeq s pa 1 0 0)

/-- An inserted node takes the next number of the ready ones where it is ready at once. -/
theorem insertNode_readySeq {s : State} {fn ctx va cap : Nat} {part : List Nat} {pte : BitVec 64} {img : List Word}
    {r : SMap Word} {host : Bool} (h : ((s.writeImage ctx va pte img).writeContext ctx img).isSome = true) :
    (s.insertNode fn ctx part va pte img r cap host).readySeq =
      if imgPred img = 0 then s.readySeq + 1 else s.readySeq := by
  obtain ⟨s2, h2⟩ := Option.isSome_iff_exists.1 h
  have hseq : s2.readySeq = s.readySeq := (writeContext_readySeq h2).trans (writeImage_readySeq s ctx va pte img)
  simp only [State.insertNode, h2]
  split
  · rw [makeReady_readySeq, keep_readySeq]
    exact congrArg (· + 1) hseq
  · rw [keep_readySeq]
    exact hseq

/-- A node as its insertion leaves it in the timetable (R157, R159, R164). -/
theorem insertNode_node {s : State} {fn ctx va cap : Nat} {part : List Nat} {pte : BitVec 64} {img : List Word}
    {r : SMap Word} {host : Bool} (h : ((s.writeImage ctx va pte img).writeContext ctx img).isSome = true) : ∃ n,
    Tab.find? (nodeKey pte va) (s.insertNode fn ctx part va pte img r cap host).nodes = some n ∧
    { n with seq := 0, readyTick := 0 } = insertedNode s fn ctx part va pte img r cap ∧
    (imgPred img = 0 → n.seq = s.readySeq ∧ n.readyTick = s.clock) := by
  obtain ⟨s3, heq, -, hclock, hnode⟩ := insertNode_inserts (fn := fn) (part := part) (r := r) (cap := cap) (host := host) h
  have hseq := insertNode_readySeq (fn := fn) (part := part) (r := r) (cap := cap) (host := host) h
  rw [heq] at hseq ⊢
  by_cases hp : imgPred img = 0
  · rw [if_pos hp, if_pos hp, makeReady_readySeq, Nat.add_right_cancel_iff] at hseq
    rw [if_pos hp, (makeReady_spec s3 _).2, Tab.find?_mod_same, hnode]
    exact ⟨_, rfl, rfl, fun _ => ⟨(setNode_readySeq _ _ _ _ _).trans hseq, hclock⟩⟩
  · rw [if_neg hp]
    exact ⟨_, hnode, rfl, fun h0 => absurd h0 hp⟩

/-! ### Checking and writing an image (R102, R157 to R160, R207) -/

theorem insertErr_eq_zero_iff (s : State) (img : List Word) (ctx : Nat) : (s.insertErr ctx img).1 = 0 ↔
    imageOkN img = true ∧ s.succOk ctx img = true ∧ (imgKind img = 0 → ∃ ws, s.readRecord ctx (imgWord2 img 2) = some ws ∧
      recordErr (recordOf ws) = 0) := by
  unfold State.insertErr
  cases imageOkN img
  · simp
  cases s.succOk ctx img
  · simp
  by_cases hk : imgKind img = 0
  · cases s.readRecord ctx (imgWord2 img 2) <;> simp [hk]
  · simp [hk]

theorem insertWait_unwritable {s : State} {ctx va : Nat} {pte : BitVec 64} {img : List Word} (hw : writable pte = false) :
    s.insertWait ctx va pte img = some (some va) := by
  simp [State.insertWait, hw]

/-- An insertion waits at an uncorrectable atom in what it writes or reads (R207, R214). -/
theorem insertWait_held {s : State} {ctx va : Nat} {pte : BitVec 64} {img : List Word} (hw : writable pte = true)
    (hh : s.putsHeld (s.wordPuts pte va img) = true ∨ s.recordHeld ctx img = true) :
    s.insertWait ctx va pte img = some none := by
  have hheld : (s.dirtyHeld ctx va || s.putsHeld (s.wordPuts pte va img) || s.recordHeld ctx img) = true := by
    rcases hh with hh | hh <;> simp [hh]
  simp [State.insertWait, hw, hheld]

/-- Where an insertion neither waits nor is refused, CONTEXT may be written into its record (R162). -/
theorem writeContext_isSome {s : State} {ctx va : Nat} {pte : BitVec 64} {img : List Word}
    (hn : s.insertWait ctx va pte img = none) (h0 : (s.insertErr ctx img).1 = 0) :
    (s.writeContext ctx img).isSome = true := by
  unfold State.insertWait at hn
  dsimp only at hn
  split at hn
  · cases hn
  split at hn
  · cases hn
  split at hn
  · cases hn
  next hno => exact Option.isSome_iff_ne_none.2 (by simpa [h0] using hno)

theorem puts_held {s : State} {zs : List (Nat × Byte)} (h : s.putsHeld zs = true) : s.puts zs = s := if_pos h

theorem writeImage_dirty {s : State} {ctx va : Nat} {pte : BitVec 64} {img : List Word} (h : pteDirty pte = true) :
    s.writeImage ctx va pte img = s.puts (s.wordPuts pte va img) := by
  simp [State.writeImage, h]

theorem writeImage_clean {s : State} {ctx va : Nat} {pte : BitVec 64} {img : List Word} (h : pteDirty pte = false) :
    s.writeImage ctx va pte img = (s.markDirty ctx va).puts ((s.markDirty ctx va).wordPuts pte va img) := by
  simp [State.writeImage, h]

/-! ### The doorbell (R159, R160, R215; log 17, log 60) -/

/-! What an insertion reads does not depend on the slots. -/

theorem walkFrom_slots (s : State) (ss : Tab (Nat × List Word)) (va fuel lvl tbl : Nat) :
    ({ s with slots := ss } : State).walkFrom va fuel lvl tbl = s.walkFrom va fuel lvl tbl := by
  induction fuel generalizing lvl tbl with
  | zero => rfl
  | succ n ih =>
    simp only [State.walkFrom, ih]
    rfl

theorem leafAt_slots (s : State) (ss : Tab (Nat × List Word)) (ctx va : Nat) :
    ({ s with slots := ss } : State).leafAt ctx va = s.leafAt ctx va := by
  simp only [State.leafAt, State.walk, walkFrom_slots]

theorem readIf_slots (s : State) (ss : Tab (Nat × List Word)) (ok : BitVec 64 → Bool) (ctx va n : Nat) :
    ({ s with slots := ss } : State).readIf ok ctx va n = s.readIf ok ctx va n := by
  induction n generalizing va with
  | zero => rfl
  | succ n ih =>
    simp only [State.readIf, ih, leafAt_slots]
    rfl

theorem nodeAt_slots (s : State) (ss : Tab (Nat × List Word)) (ctx va : Nat) :
    ({ s with slots := ss } : State).nodeAt ctx va = s.nodeAt ctx va := by
  simp only [State.nodeAt, State.keyAt, leafAt_slots]

theorem succOk_slots (s : State) (ss : Tab (Nat × List Word)) (ctx : Nat) (img : List Word) :
    ({ s with slots := ss } : State).succOk ctx img = s.succOk ctx img := by
  simp only [State.succOk, nodeAt_slots]
  rfl

theorem insertErr_slots (s : State) (ss : Tab (Nat × List Word)) (ctx : Nat) (img : List Word) :
    ({ s with slots := ss } : State).insertErr ctx img = s.insertErr ctx img := by
  simp only [State.insertErr, succOk_slots, State.readRecord, readIf_slots]

section Doorbell
variable {s : State} {fn slot ctx va : Nat} {part : List Nat} {img : List Word}

/-- A doorbell's image is offered once the windows are open, where its slot is free and nothing is replayed. -/
theorem exec_doorbell {va : VAddr} (hbind : Tab.find? fn s.binding = some (part, ctx)) (hboot : s.booted = true)
    (hslot : slot < 511) (himg : img.length = 32) (hfn : fn ≤ 16) (hrep : s.replaying = false) :
    exec (.doorbell fn slot va img) s = .next (
      if (Tab.find? (slotKey fn slot) s.slots).isSome then s.note (.doorbell fn slot)
      else s.offerSlot fn slot va.toNat img) := by
  have hguard : (s.booted && (Tab.find? fn s.binding).isSome && decide (slot < 511 ∧ img.length = 32 ∧ fn ≤ 16)) = true := by
    simp [hboot, hbind, hslot, himg, hfn]
  show execDoorbell fn slot va img s = _
  rw [execDoorbell, hguard, runEvent_true, hrep]
  rfl

variable (hbind : Tab.find? fn s.binding = some (part, ctx))
include hbind

theorem offerSlot_bad (hbad : (s.leafSpan ctx va).any s.isBad = true) : s.offerSlot fn slot va img =
    { s with slots := Tab.put (slotKey fn slot) (va, img) s.slots } := by
  simp only [State.offerSlot, hbind, hbad, if_true]

variable (hbad : (s.leafSpan ctx va).any s.isBad = false)
include hbad

theorem offerSlot_unmapped (hleaf : s.leafAt ctx va = none) : s.offerSlot fn slot va img =
    ({ s with slots := Tab.del (slotKey fn slot) s.slots } : State).note (.doorbell fn slot) := by
  simp only [State.offerSlot, hbind, hbad, hleaf, Bool.false_eq_true, if_false]

variable {pte : BitVec 64} (hleaf : s.leafAt ctx va = some pte)
include hleaf

/-- A doorbell for an address that can hold no node, or holds one, is ignored and logged (log 17). -/
theorem offerSlot_ignored (hno : va % 128 ≠ 0 ∨ pteType pte ≠ 0 ∨ (Tab.find? (nodeKey pte va) s.nodes).isSome = true) :
    s.offerSlot fn slot va img =
      ({ s with slots := Tab.del (slotKey fn slot) s.slots } : State).note (.doorbell fn slot) := by
  simp only [State.offerSlot, hbind, hbad, hleaf, Bool.false_eq_true, if_false]
  exact if_pos hno

variable (hok : ¬ (va % 128 ≠ 0 ∨ pteType pte ≠ 0 ∨ (Tab.find? (nodeKey pte va) s.nodes).isSome = true))
include hok

theorem offerSlot_waits {w : Option Nat} (hw : s.insertWait ctx va pte img = some w) : s.offerSlot fn slot va img =
    ({ s with slots := Tab.put (slotKey fn slot) (va, img) s.slots } : State).pauseAt ctx (some w) := by
  simp only [State.offerSlot, hbind, hbad, hleaf, Bool.false_eq_true, if_false, if_neg hok, hw, Option.isSome_some,
    if_true]

/-- Where nothing holds it back, the image is inserted or refused (R159, R160). -/
theorem offerSlot_offers (hw : s.insertWait ctx va pte img = none) : s.offerSlot fn slot va img =
    ({ s with slots := Tab.del (slotKey fn slot) s.slots } : State).offerNode fn ctx part va pte img 127 := by
  simp only [State.offerSlot, hbind, hbad, hleaf, Bool.false_eq_true, if_false, if_neg hok, hw, Option.isSome_none]

end Doorbell

theorem offerNode_inserts {s : State} {fn ctx va cap : Nat} {part : List Nat} {pte : BitVec 64} {img : List Word}
    {r : SMap Word} (h : s.insertErr ctx img = (0, r)) :
    s.offerNode fn ctx part va pte img cap = (s.askRecord ctx img).insertNode fn ctx part va pte img r cap true := by
  simp only [State.offerNode, h]

theorem offerNode_refuses {s : State} {fn ctx va cap err : Nat} {part : List Nat} {pte : BitVec 64} {img : List Word}
    {r : SMap Word} (h : s.insertErr ctx img = (err, r)) (he : err ≠ 0) :
    s.offerNode fn ctx part va pte img cap = (s.askRecord ctx img).refuseNode ctx va pte img err := by
  obtain ⟨n, rfl⟩ := Nat.exists_eq_succ_of_ne_zero he
  simp only [State.offerNode, h]

/-! ### Starting a node (R98, R119, R157, R158, R161) -/

theorem nodeState_of_startsNext {s : State} {pa : Nat} {n : Node} (h : s.startsNext pa n = true) : s.nodeState pa = 1 := by
  simp only [State.startsNext, Bool.and_eq_true] at h
  obtain ⟨⟨⟨hst, -⟩, -⟩, -⟩ := h
  exact beq_iff_eq.1 hst

section Starts
variable {s : State} {pa : Nat} {n : Node} (hn : Tab.find? pa s.nodes = some n) (hs : s.startsNext pa n = true)
include hn hs

/-- A copy node to the weight store fails as it starts (R158). -/
theorem exec_copyNodeStart (hk : n.kind = 1) : exec (.copyNodeStart pa) s = .next (
    if s.hitsWeights n.home n.ctx (n.va2 4) (n.word 6) then s.failWith pa 0x0B else s.startNode pa) := by
  show execCopyNodeStart pa s = _
  simp [execCopyNodeStart, hn, hs, hk]

theorem exec_weightLoadStart (hk : n.kind = 2) : exec (.weightLoadStart pa) s = .next (s.startNode pa) := by
  show execWeightLoadStart pa s = _
  simp [execWeightLoadStart, hn, hs, hk]

variable {m : Node} (hm : Tab.find? pa (s.startNode pa).nodes = some m)
include hm

theorem exec_collectiveNodeStart (hk : n.kind = 3) :
    exec (.collectiveNodeStart pa) s = .next ((s.startNode pa).startColl pa m) := by
  show execCollectiveNodeStart pa s = _
  simp [execCollectiveNodeStart, hn, hs, hk, nodeState_of_startsNext hs, hm]

theorem exec_hostEventPost (hk : n.kind = 4) : exec (.hostEventPost pa) s = .next ((s.startNode pa).postEvent pa m) := by
  show execHostEventPost pa s = _
  simp [execHostEventPost, hn, hs, hk, nodeState_of_startsNext hs, hm]

end Starts

/-! ### A collective's record (R106, R119; log 81) -/

section Collective
variable {s : State} {n : Node} (pa : Nat)

theorem startColl_held (h : s.readHeld n.ctx (n.va2 2) 8 = true) : s.startColl pa n = s := if_pos h

variable (h : s.readHeld n.ctx (n.va2 2) 8 = false)
include h

theorem startColl_pauses (hw : s.readWords n.ctx (n.va2 2) 8 = none) : s.startColl pa n = s.pause n.ctx (n.va2 2) := by
  simp only [State.startColl, h, hw, Bool.false_eq_true, if_false]

/-- A record that names its operation by its transport is judged by R119's limits, and starts its collective where it keeps
them. -/
theorem startColl_record {rc : List Word} (hw : s.readWords n.ctx (n.va2 2) 8 = some rc) (ht : recTransport rc ≠ 1) :
    s.startColl pa n =
      let t : State := { s.askWords n.ctx (n.va2 2) 8 with draws := s.draws + 1 }
      if t.nodeRecordOk n (recTransport rc == 0) rc then t.fresh.modCluster n.home (fun c =>
        { c with colls := c.colls ++ [nodeColl t.serial pa (n.word 4) (recTransport rc == 0) rc] })
      else (t.note (.collective (n.word 4))).failWith pa 0x0B := by
  have hop : (recTransport rc == 0 || (recTransport rc == 1 && Config.draw s.draws % 2 == 1)) = (recTransport rc == 0) := by
    simp [ht]
  unfold State.startColl
  rw [if_neg (Bool.eq_false_iff.1 h), hw]
  dsimp only
  rw [hop]
  cases State.nodeRecordOk _ n (recTransport rc == 0) rc <;> rfl

end Collective

/-! ### Host events (R158, R215) -/

/-- The node of a host event after its event is posted. -/
def posted (pa : Nat) (s : State) : State := { s with nodes := Tab.mod pa (fun n => { n with retired := 1 }) s.nodes }

theorem postEvent_none {s : State} {pa : Nat} {n : Node} (h : n.word 2 = 0xFFFFFFFF) : s.postEvent pa n = posted pa s :=
  if_pos h

/-- An event is posted where its mailbox has room for one more word, and waits else. -/
theorem postEvent_mailbox {s : State} {pa : Nat} {n : Node} (h : n.word 2 ≠ 0xFFFFFFFF) : s.postEvent pa n =
    let key := mailKey n.fn (n.word 2)
    if s.mailUsed key + s.mailHeld n.fn (n.word 2) + 1 ≤ 16 then posted pa { s with
      mailOut := Tab.put key (Tab.getD [] key s.mailOut ++
        [{ words := [BitVec.ofNat 32 (n.word 3)], sender := none }]) s.mailOut }
    else s :=
  if_neg h

/-! ### Completion (R161) -/

/-- What a completing node does to one of its successors in STATE 0: its PRED falls, the last one making it ready. -/
def predFalls (s : State) (p : Nat) : State :=
  if s.nodeState p ≠ 0 ∨ Tab.find? p s.nodes = none then s
  else if s.nodePred p ≤ 1 then s.makeReady p
  else s.setNode p 0 0 (s.nodePred p - 1)

theorem completeNode_eq {s : State} {pa : Nat} {n : Node} (hn : Tab.find? pa s.nodes = some n) :
    s.completeNode pa = n.succ.foldl predFalls ((s.setNode pa 3 0 0).dropNode pa) := by
  simp only [State.completeNode, hn]
  congr 1
  funext u p
  unfold predFalls
  by_cases h0 : u.nodeState p = 0
  · cases hp : Tab.find? p u.nodes with
    | none => simp
    | some x => simp [h0, Nat.sub_eq_zero_iff_le]
  · simp [h0]

section Completes
variable {s : State} {pa : Nat} {n : Node} (hn : Tab.find? pa s.nodes = some n) (hst : s.nodeState pa = 2)
  (hw : s.walkHeld pa = false)
include hn hst hw

theorem exec_nodeComplete (ho : n.kind = 0 ∧ n.retired = n.forms ∨ (n.kind = 3 ∨ n.kind = 4) ∧ n.retired = 1) :
    exec (.nodeComplete pa) s = .next (s.completeNode pa) := by
  show execNodeComplete pa s = _
  rcases ho with ⟨hk, hr⟩ | ⟨hk | hk, hr⟩ <;> simp [execNodeComplete, hn, hst, hw, Node.over, hk, hr]

theorem exec_nodeComplete_transfer {t : State} (hk : n.kind = 1 ∨ n.kind = 2) (ht : s.runTransfer pa n = (t, true)) :
    exec (.nodeComplete pa) s = .next (t.completeNode pa) := by
  show execNodeComplete pa s = _
  rcases hk with hk | hk <;> simp [execNodeComplete, hn, hst, hw, hk, ht]

end Completes

/-! ### The obligation -/

/-- Settles O50: a doorbell by what becomes of its image, a start and a completion by the node's kind. -/
theorem nodeEvents : Obligations.NodeEvents := by
  unfold Obligations.NodeEvents
  refine ⟨?doorbell, fun s ctx va pte img => ⟨insertWait_unwritable, insertWait_held, writeContext_isSome, writeImage_dirty,
    writeImage_clean⟩, fun s zs => puts_held, ?inserted, insertErr_eq_zero_iff, ?starts, ?collective, ?event, ?completes,
    ?transfers⟩
  case doorbell =>
    intro s fn slot ctx part va img hbind hboot hslot himg hfn hrep free kept
    have hd := exec_doorbell (va := va) hbind hboot hslot himg hfn hrep
    have offered : Tab.find? (slotKey fn slot) s.slots = none → ∀ t, s.offerSlot fn slot va.toNat img = t →
        happens (.doorbell fn slot va img) s (fun _ => t) := by
      rintro hfree t rfl
      rwa [hfree, Option.isSome_none, if_neg Bool.false_ne_true] at hd
    refine ⟨fun hused => hd.trans (congrArg _ (if_pos hused)),
      fun hfree hbad => offered hfree _ (offerSlot_bad hbind hbad), fun hfree hbad => ?_⟩
    refine ⟨fun hleaf => offered hfree _ (offerSlot_unmapped hbind hbad hleaf), fun pte hleaf => ?_⟩
    refine ⟨fun hno => offered hfree _ (offerSlot_ignored hbind hbad hleaf hno), fun h128 hty hnone => ?_⟩
    have hok : ¬ (va.toNat % 128 ≠ 0 ∨ pteType pte ≠ 0 ∨ (Tab.find? (nodeKey pte va.toNat) s.nodes).isSome = true) := by
      simp [h128, hty, hnone]
    refine ⟨fun w hw => offered hfree _ ?_, fun hw => ?_⟩
    · -- a wait at no address notifies nobody
      rw [offerSlot_waits hbind hbad hleaf hok hw]
      cases w <;> rfl
    have hoffer := offerSlot_offers (slot := slot) hbind hbad hleaf hok hw
    exact ⟨fun r hr => offered hfree _ (hoffer.trans (offerNode_inserts ((insertErr_slots _ _ _ _).trans hr))),
      fun err r hr he => offered hfree _ (hoffer.trans (offerNode_refuses ((insertErr_slots _ _ _ _).trans hr) he))⟩
  case inserted =>
    intro s fn ctx va cap pte part img r host h t
    obtain ⟨n, hnode, hrest, hready⟩ := insertNode_node (fn := fn) (part := part) (r := r) (cap := cap) (host := host) h
    have hseq := insertNode_readySeq (fn := fn) (part := part) (r := r) (cap := cap) (host := host) h
    refine ⟨n, hnode, congrArg Node.va hrest, congrArg Node.pte hrest, congrArg Node.ctx hrest, congrArg Node.part hrest,
      congrArg Node.kind hrest, congrArg Node.prio hrest, congrArg Node.succ hrest, congrArg Node.next hrest,
      congrArg Node.retired hrest, fun hp => ⟨(hready hp).1, (hready hp).2, hseq.trans (if_pos hp)⟩⟩
  case starts =>
    intro s pa n hn hs
    refine ⟨fun hk hw => ?_, fun hk hw => ?_, exec_weightLoadStart hn hs⟩
    · exact (exec_copyNodeStart hn hs hk).trans (congrArg _ (if_neg (Bool.eq_false_iff.1 hw)))
    · exact (exec_copyNodeStart hn hs hk).trans (congrArg _ (if_pos hw))
  case collective =>
    intro s pa n m hn hk hs hm u
    have hc := exec_collectiveNodeStart hn hs hm hk
    refine ⟨fun hh => hc.trans (congrArg _ (startColl_held pa hh)),
      fun hh hw => hc.trans (congrArg _ (startColl_pauses pa hh hw)), fun rc hw hh ht => ?_⟩
    intro t gather
    rw [startColl_record pa hh hw ht] at hc
    exact ⟨fun hok => hc.trans (congrArg _ (if_pos hok)),
      fun hno => hc.trans (congrArg _ (if_neg (Bool.eq_false_iff.1 hno)))⟩
  case event =>
    intro s pa n m hn hk hs hm t key post
    have hp := exec_hostEventPost hn hs hm hk
    refine ⟨fun h0 => hp.trans (congrArg _ (postEvent_none h0)), ?_⟩
    intro room
    exact ⟨fun h0 hr => hp.trans (congrArg _ ((postEvent_mailbox h0).trans (if_pos hr))),
      fun h0 hr => hp.trans (congrArg _ ((postEvent_mailbox h0).trans (if_neg hr)))⟩
  case completes =>
    intro s pa n hn hst hw ho falls
    exact (exec_nodeComplete hn hst hw ho).trans (congrArg _ (completeNode_eq hn))
  case transfers =>
    intro s t pa n hn hst hw hk ht
    exact exec_nodeComplete_transfer hn hst hw hk ht

end Sys2Proof.CopiesAndCollectives

namespace Sys2Proof.MatrixAndSignature
open Sys2Proof Sys2Proof.Machine

/-! ## Signing a roll (R137 to R139, R344 to R346, R350, R353, R378, R380; log 69) -/

/-- The signature that a word leaves (R139). -/
def wordSig (e : Env) (ins : Instr) (a b : Word) (extra : List Word) : Sig :=
  { thread := e.k, set := e.cl.hdr.set, a := a, b := b, extra := extra, ins := ins }

/-- The machine with a word's signature in its round. -/
def signedState (e : Env) (roll : Nat) (ins : Instr) (key : List Word) (sg : Sig) : State :=
  e.s.modForm e.th.form (fun f => f.modCtx e.fc (fun c => c.setRoll roll
    { e.ctx.roll roll with key := some (keyInstr ins, key), sigs := (e.ctx.roll roll).sigs ++ [sg] }))

/-- The machine with an issued operation's signer signing it again (log 69). -/
def resignedState (e : Env) (op : Nat) (sg : Sig) : State :=
  e.s.modForm e.th.form (fun f => f.modCtx e.fc (fun c =>
    { c with ops := c.ops.map (fun x => if x.id = op then x.resign sg e.fm.hall else x) }))

section Again
variable {e : Env} {op : Nat} {sg : Sig} {check : Chk Unit}

/-- An operation that has completed leaves nothing to sign. -/
theorem signedAgain_gone (hno : e.ctx.ops.find? (fun o => o.id == op) = none) :
    e.signedAgain op sg check = e.result (·.sealed op none) := by
  simp only [Env.signedAgain, hno, flat_pure]

variable {o : MOp} (ho : e.ctx.ops.find? (fun o => o.id == op) = some o)
include ho

theorem signedAgain_fault {c : Nat} {v : Word} (hnew : o.rows.any (fun p => p.2 == sg) = false)
    (hc : check = .error (c, v)) : e.signedAgain op sg check = .fault c v 0 := by
  simp only [Env.signedAgain, ho, hnew, hc, Bool.false_eq_true, if_false, liftChk_error, error_bind, flat_error]

theorem signedAgain_done (hc : o.rows.any (fun p => p.2 == sg) = true ∨ check = .ok ()) :
    e.signedAgain op sg check =
      .done (e.upd (resignedState e op sg) (·.sealed op ((o.resign sg e.fm.hall).dOf sg))) := by
  have hpass : (if o.rows.any (fun p => p.2 == sg) then .ok () else check) = .ok () := by
    rcases hc with hc | hc
    · rw [hc, if_pos rfl]
    · rw [hc, ite_self]
  simp only [Env.signedAgain, ho, hpass, liftChk_ok, ok_bind, flat_pure]
  rfl

end Again

section Sign
variable {e : Env} {roll : Nat} {ins : Instr} {a b : Word} {key extra : List Word} {check : Chk Unit}

theorem sign_issued {op : Nat} (h : e.cl.signed.lookup e.idx = some op) :
    e.sign roll ins a b key extra check = e.signedAgain op (wordSig e ins a b extra) check := by
  simp only [Env.sign, h, flat_pure]
  rfl

variable (hnew : e.cl.signed.lookup e.idx = none)
include hnew

theorem sign_frozen (hf : e.ctx.frozen ≠ none) : e.sign roll ins a b key extra check = .wait .frozen e.s := by
  have hno : e.ctx.frozen.isNone = false :=
    Option.isNone_eq_false_iff.2 (Option.isSome_iff_ne_none.2 hf)
  simp only [Env.sign, hnew, hno, Env.waitUnless_false, error_bind, flat_error]

variable (hf : e.ctx.frozen = none)
include hf

/-- A thread that has signed waits on. -/
theorem sign_signed (h : ∃ x ∈ (e.ctx.roll roll).sigs, x.thread = e.k) :
    e.sign roll ins a b key extra check = .wait .roll e.s := by
  have hany : (e.ctx.roll roll).sigs.any (fun x => x.thread == e.k) = true := by simpa using h
  simp only [Env.sign, hnew, hf, Option.isNone_none, Env.waitUnless_true, ok_bind, hany, if_true, Env.waitIn, flat_error]

variable (hfirst : ∀ x ∈ (e.ctx.roll roll).sigs, x.thread ≠ e.k)
include hfirst

/-- A thread that has not signed passes membership, its own checks and the key, in this order. -/
theorem sign_first : e.sign roll ins a b key extra check = flat (do
    needCause ((e.ctx.roll roll).has e.th.tid) 0x14 0
    liftChk check
    need ((e.ctx.roll roll).sigs.isEmpty || decide ((e.ctx.roll roll).key = some (keyInstr ins, key)))
    .error (.wait .roll ((signedState e roll ins key (wordSig e ins a b extra)).askSlew e.fm.cluster))) := by
  have hany : (e.ctx.roll roll).sigs.any (fun x => x.thread == e.k) = false := by simpa using hfirst
  simp only [Env.sign, hnew, hf, Option.isNone_none, Env.waitUnless_true, ok_bind, hany, Bool.false_eq_true, if_false]
  rfl

theorem sign_stranger (hm : (e.ctx.roll roll).has e.th.tid = false) :
    e.sign roll ins a b key extra check = .fault 0x14 0 0 := by
  rw [sign_first hnew hf hfirst, hm, needCause_false, error_bind, flat_error]

variable (hm : (e.ctx.roll roll).has e.th.tid = true)
include hm

theorem sign_fault {c : Nat} {v : Word} (hc : check = .error (c, v)) :
    e.sign roll ins a b key extra check = .fault c v 0 := by
  rw [sign_first hnew hf hfirst, hm, hc, needCause_true, ok_bind, liftChk_error, error_bind, flat_error]

variable (hc : check = .ok ())
include hc

theorem sign_agrees (hk : (e.ctx.roll roll).sigs = [] ∨ (e.ctx.roll roll).key = some (keyInstr ins, key)) :
    e.sign roll ins a b key extra check =
      .wait .roll ((signedState e roll ins key (wordSig e ins a b extra)).askSlew e.fm.cluster) := by
  have hkey : ((e.ctx.roll roll).sigs.isEmpty || decide ((e.ctx.roll roll).key = some (keyInstr ins, key))) = true := by
    simpa using hk
  rw [sign_first hnew hf hfirst, hm, hc, hkey, needCause_true, ok_bind, liftChk_ok, ok_bind, need_true,
    ok_bind, flat_error]

theorem sign_otherKey (hs : (e.ctx.roll roll).sigs ≠ []) (hk : (e.ctx.roll roll).key ≠ some (keyInstr ins, key)) :
    e.sign roll ins a b key extra check = .fault 0x04 0 0 := by
  have hkey : ((e.ctx.roll roll).sigs.isEmpty || decide ((e.ctx.roll roll).key = some (keyInstr ins, key))) = false := by
    simp [hs, hk]
  rw [sign_first hnew hf hfirst, hm, hc, hkey, needCause_true, ok_bind, liftChk_ok, ok_bind, need_false,
    error_bind, flat_error]

end Sign

/-- An instruction signs where its meaning is the signing of a roll. -/
theorem signs_of {i : Instr} {roll : Fin 16} {a b : Env → Word} {key extra : Env → List Word} {check : Env → Chk Unit}
    (h : ∀ s, exec i s = runWord s (fun e => e.sign roll.val i (a e) (b e) (key e) (extra e) (check e))) :
    signs i roll a b key extra check := by
  intro s e he r sig signed
  rw [h]
  obtain rfl := openWord_state he
  refine ⟨fun op hop => ⟨fun hgone => ?gone, fun o ho => ⟨fun hnew c v hc => ?againFault, fun hc => ?again⟩⟩,
    fun hnew hf => runWord_waiting he (sign_frozen hnew hf), fun hnew hf => ⟨fun hs => ?signed, fun hfirst => ?_⟩⟩
  case gone =>
    have hno : e.ctx.ops.find? (fun o => o.id == op) = none := by simpa using hgone
    exact runWord_after _ he ((sign_issued hop).trans (signedAgain_gone hno))
  case againFault =>
    have hany : o.rows.any (fun p => p.2 == sig) = false := by simpa using hnew
    exact runWord_trapped he ((sign_issued hop).trans (signedAgain_fault ho hany hc))
  case again =>
    have hpass : o.rows.any (fun p => p.2 == sig) = true ∨ check e = .ok () := hc.imp_left (by simpa using ·)
    exact runWord_afterIn _ he ((sign_issued hop).trans (signedAgain_done ho hpass))
  case signed => exact runWord_waiting he (sign_signed hnew hf hs)
  refine ⟨fun hm => runWord_trapped he (sign_stranger hnew hf hfirst hm),
    fun hm => ⟨fun c v hc => runWord_trapped he (sign_fault hnew hf hfirst hm hc), fun hc => ⟨fun hk => ?_, fun hs hk => ?_⟩⟩⟩
  · exact runWord_waiting he (sign_agrees hnew hf hfirst hm hc hk)
  · exact runWord_trapped he (sign_otherKey hnew hf hfirst hm hc hs hk)

/-- A condition before further checks. -/
theorem ite_bind {α : Type} (b : Prop) [Decidable b] (x : Nat × Word) (f : Unit → Chk α) :
    ((if b then .ok () else .error x : Chk Unit) >>= f) = if b then f () else .error x := by
  split <;> rfl

/-- The roll instructions sign with their own operands, keys and checks. -/
theorem mma_signs (z ws x : Bool) (acc : Fin 4) (roll : Fin 16) (a : Reg) (b : Src) :
    signs (.mma z ws x acc roll a b) roll (fun e => e.reg a) (fun e => e.src b) (fun e => [e.src b]) (fun _ => [])
      (fun e => (rowShape e.fm (e.reg a).toNat).bind (fun _ => e.tileCheck ws (e.src b).toNat)) :=
  signs_of fun _ => rfl

theorem mmconv_signs (z ws x : Bool) (acc : Fin 4) (roll : Fin 16) (a : Reg) (b : Src) (r : Fin 384) (kb : BitVec 16) :
    signs (.mmconv z ws x acc roll a b r kb) roll (fun e => e.reg a) (fun e => e.src b)
      (fun e => e.src b :: e.record r.val) (fun e => e.record r.val)
      (fun e => if (convOf (e.record r.val)).ok (e.reg a).toNat kb.toNat = true then
        (convShape e.fm (convOf (e.record r.val))).bind (fun _ => e.tileCheck ws (e.src b).toNat)
      else .error (0x04, 0)) :=
  signs_of fun s => congrArg (runWord s) (funext fun e => by dsimp only; rw [ite_bind]; rfl)

theorem mzero_signs (acc : Fin 4) (roll : Fin 16) :
    signs (.mzero acc roll) roll (fun _ => 0) (fun _ => 0) (fun _ => []) (fun _ => []) (fun _ => .ok ()) :=
  signs_of fun _ => rfl

theorem mload_signs (acc : Fin 4) (roll : Fin 16) (a : Reg) :
    signs (.mload acc roll a) roll (fun e => e.reg a) (fun _ => 0) (fun _ => []) (fun _ => [])
      (fun e => (rowShape e.fm (e.reg a).toNat).map (fun _ => ())) :=
  signs_of fun _ => rfl

theorem mstore_signs (acc : Fin 4) (roll : Fin 16) (a : Reg) (b : Src) :
    signs (.mstore acc roll a b) roll (fun e => e.reg a) (fun e => e.src b) (fun _ => []) (fun _ => [])
      (fun e => if (e.src b).toNat < 64 then (rowStore e.fm (e.reg a).toNat (rowUnits e.fm false)).map (fun _ => ())
        else .error (0x04, 0)) :=
  signs_of fun s => congrArg (runWord s) (funext fun e => by rw [ite_bind]; rfl)

theorem sgsum_signs (mean : Bool) (roll : Fin 16) (a : Reg) (sS : Fin 384) (gm : Reg) :
    signs (.sgsum mean roll a sS gm) roll (fun e => e.reg a) (fun _ => 0) (fun e => [e.sreg sS.val])
      (fun e => [BitVec.ofNat 32 ((e.reg gm).toNat % 256), e.sreg sS.val])
      (fun e => if (e.reg gm).toNat % 256 < 64 then (rowShape e.fm (e.reg a).toNat).bind (fun _ =>
          (rowStore e.fm ((e.sreg sS.val).toNat + 256 * ((e.reg gm).toNat % 256)) (rowUnits e.fm true)).map (fun _ => ()))
        else .error (0x04, 0)) :=
  signs_of fun s => congrArg (runWord s) (funext fun e => by dsimp only; rw [ite_bind]; rfl)

/-! ### SGBKT's own checks (R378) -/

/-- The check of a tagged run of words: no object. -/
def mapTags (f : Form) (o n v : Nat) : Chk Unit :=
  match (wordsOfSpan o n).find? (fun w => decide (f.tag (4 * w) = .object)) with
  | some w => .error (0x09, BitVec.ofNat 32 (v + (4 * w - o)))
  | none => .ok ()

/-- SGBKT's checks of its map of n bytes at B and, for FN 1 and 2, of the row at D. -/
def bucketCheck (m : Rep) (d : Reg) (roll : Fin 16) (b : Src) (e : Env) : Chk Unit := do
  let n := 4 * (e.ctx.roll roll.val).size
  (match firstOutside e.fm.rcd (e.src b).toNat n with
   | some x => .error (0x07, BitVec.ofNat 32 x) | none => .ok ())
  match resolve e.fm.rcd (e.src b).toNat with
  | none => .error (0x07, e.src b)
  | some h => do
    chk (decide (h.rel + n ≤ h.seg.extent)) 0x07 (h.seg.base + h.seg.extent)
    chk ((e.src b).toNat % 4 == 0 && h.seg.fmt == 0) 0x08 (e.src b).toNat
    mapTags e.fm (h.sb + h.rel) n (e.src b).toNat
    if m = .first then pure () else do
      let _ ← rowShape e.fm (e.reg d).toNat

theorem sgbkt_signs (m : Rep) (d : Reg) (roll : Fin 16) (a : Reg) (b : Src) (sS sL : Fin 384) (off : Fin 64) :
    signs (.sgbkt m d roll a b sS sL off) roll (fun e => e.reg a) (fun e => e.src b)
      (fun e => e.src b :: (if m = .first then [] else [e.sreg sS.val]))
      (fun e => [e.reg d, BitVec.ofNat 32 d.code] ++ (if m = .first then [] else [e.sreg sS.val]))
      (bucketCheck m d roll b) :=
  signs_of fun _ => rfl

section Bucket
variable {m : Rep} {d : Reg} {roll : Fin 16} {b : Src} {e : Env} {n : Nat} (hn : 4 * (e.ctx.roll roll.val).size = n)
include hn

theorem bucketCheck_outside {x : Nat} (ho : firstOutside e.fm.rcd (e.src b).toNat n = some x) :
    bucketCheck m d roll b e = .error (0x07, BitVec.ofNat 32 x) := by
  simp only [bucketCheck, hn, ho, error_bind]

variable (ho : firstOutside e.fm.rcd (e.src b).toNat n = none)
include ho

theorem bucketCheck_nowhere (hr : resolve e.fm.rcd (e.src b).toNat = none) :
    bucketCheck m d roll b e = .error (0x07, e.src b) := by
  simp only [bucketCheck, hn, ho, ok_bind, hr]

variable {h : HallRef} (hr : resolve e.fm.rcd (e.src b).toNat = some h)
include hr

theorem bucketCheck_past (hx : h.seg.extent < h.rel + n) :
    bucketCheck m d roll b e = .error (0x07, BitVec.ofNat 32 (h.seg.base + h.seg.extent)) := by
  simp only [bucketCheck, hn, ho, ok_bind, hr, decide_eq_false (Nat.not_le.2 hx), chk_false, error_bind]

variable (hx : h.rel + n ≤ h.seg.extent)
include hx

theorem bucketCheck_misaligned (hm : (e.src b).toNat % 4 ≠ 0 ∨ h.seg.fmt ≠ 0) :
    bucketCheck m d roll b e = .error (0x08, BitVec.ofNat 32 (e.src b).toNat) := by
  have hno : ((e.src b).toNat % 4 == 0 && h.seg.fmt == 0) = false := by simpa [imp_iff_not_or] using hm
  simp only [bucketCheck, hn, ho, ok_bind, hr, decide_eq_true hx, chk_true, hno, chk_false, error_bind]

variable (ha : (e.src b).toNat % 4 = 0) (hf : h.seg.fmt = 0)
include ha hf

theorem bucketCheck_tags : bucketCheck m d roll b e =
    (mapTags e.fm (h.sb + h.rel) n (e.src b).toNat >>= fun _ =>
      if m = .first then .ok () else (rowShape e.fm (e.reg d).toNat).map (fun _ => ())) := by
  simp only [bucketCheck, hn, ho, ok_bind, hr, decide_eq_true hx, chk_true, ha, hf, beq_self_eq_true, Bool.and_self]
  rfl

theorem bucketCheck_object {w : Nat}
    (hw : (wordsOfSpan (h.sb + h.rel) n).find? (fun x => decide (e.fm.tag (4 * x) = .object)) = some w) :
    bucketCheck m d roll b e = .error (0x09, BitVec.ofNat 32 ((e.src b).toNat + (4 * w - (h.sb + h.rel)))) := by
  simp only [bucketCheck_tags hn ho hr hx ha hf, mapTags, hw, error_bind]

theorem bucketCheck_free (hw : ∀ w ∈ wordsOfSpan (h.sb + h.rel) n, e.fm.tag (4 * w) ≠ .object) :
    bucketCheck m d roll b e = if m = .first then .ok () else (rowShape e.fm (e.reg d).toNat).map (fun _ => ()) := by
  have hnone : (wordsOfSpan (h.sb + h.rel) n).find? (fun x => decide (e.fm.tag (4 * x) = .object)) = none := by
    simpa using hw
  simp only [bucketCheck_tags hn ho hr hx ha hf, mapTags, hnone, ok_bind]

end Bucket

end Sys2Proof.MatrixAndSignature

namespace Sys2Proof.MatrixAndSignature
open Sys2Proof Sys2Proof.Machine Sys2Proof.WorkAndItsShape Sys2Proof.PlacesAndClauses
  Sys2Proof.CopiesAndCollectives

/-! ## ROLLDECL, SGHASH and SPK (R138, R148, R149, R378, R379, R386, R396) -/

/-! ### Members of a roll -/

/-- The thread indices of a roll's ranks are its members, ascending (R138). -/
theorem ranks_snd (r : Roll) :
    r.ranks.map (·.2) = ((List.range 64).filter (fun i => r.mask.getLsbD i)).map (· + r.base) := by
  rw [Roll.ranks, List.map_map]
  exact List.zipIdx_map_fst 0 _

theorem forall_ranks_iff (r : Roll) (P : Nat → Prop) :
    (∀ p ∈ r.ranks, P p.2) ↔ ∀ j, j < 64 → r.mask.getLsbD j = true → P (r.base + j) := by
  rw [← List.forall_mem_map (f := fun p : Nat × Nat => p.2) (P := P), ranks_snd, List.forall_mem_map]
  simp [Nat.add_comm]

/-- A roll as its declaration leaves it. -/
def declaredRoll (base : Nat) (mask : BitVec 64) : Roll := { base := base, mask := mask, key := none, sigs := [] }

/-- A thread index is one of a form's threads, on a core (R138). -/
def threadOn (s : State) (f threads core t : Nat) : Prop :=
  t < threads ∧ ∃ th, Tab.find? (threadKey f t) s.threads = some th ∧ th.core = core

section Declare
variable {s : State} {e : Env} (h : openWord s = some e) {roll : Fin 16} {a : Reg} {sK : Fin 384}
include h

theorem exec_rolldecl_frozen (roll : Fin 16) (a : Reg) (sK : Fin 384) (hf : e.ctx.frozen ≠ none) :
    exec (.rolldecl roll a sK) s = .next (e.waiting .frozen s) := by
  have hno : e.ctx.frozen.isNone = false :=
    Option.isNone_eq_false_iff.2 (Option.isSome_iff_ne_none.2 hf)
  exact runWord_waiting h (by simp only [hno, Env.waitUnless_false, error_bind, flat_error, openWord_state h])

variable (hf : e.ctx.frozen = none) {mask : BitVec 64} {base : Nat} {ok : Bool}
  (hmask : BitVec.ofNat 64 ((e.sreg sK.val).toNat + 2 ^ 32 * (e.sreg (sK.val + 1)).toNat) = mask)
  (hbase : (e.reg a).toNat = base)
  (hok : ok = true ↔ mask ≠ 0 ∧ ∀ j, j < 64 → mask.getLsbD j = true →
    threadOn s e.th.form (Rec.threads e.fm.rcd) e.th.core (base + j))
include hf hmask hbase hok

/-- A ROLLDECL checks its set and waits for the signatures of its roll. -/
theorem exec_rolldecl_checks : exec (.rolldecl roll a sK) s = runWord s (fun e => flat do
    need ok
    e.waitUnless ((e.ctx.roll roll.val).sigs.isEmpty) .roll
    pure (.done (e.upd e.s.fresh (fun c =>
      ((c.act (.rolldecl roll.val base mask)).act (.matrix (MOp.thread e.s.serial (.rolldecl roll a sK)))).putDone .none
        (.matrix e.s.serial))))) := by
  have hset : ok = (mask != 0 && (declaredRoll base mask).ranks.all
      (fun p => match Tab.find? (threadKey e.th.form p.2) e.s.threads with
        | some th => decide (p.2 < Rec.threads e.fm.rcd) && th.core == e.th.core | none => false)) := by
    rw [Bool.eq_iff_iff, hok, Bool.and_eq_true, bne_iff_ne, List.all_eq_true]
    refine and_congr_right fun _ => (forall_ranks_iff (declaredRoll base mask) (threadOn s e.th.form
      (Rec.threads e.fm.rcd) e.th.core)).symm.trans (forall₂_congr fun p _ => ?_)
    rw [threadOn, openWord_state h]
    cases Tab.find? (threadKey e.th.form p.2) s.threads <;> simp
  refine runWord_congr h ?_
  simp only [hf, Option.isNone_none, Env.waitUnless_true, ok_bind, hset, hmask, hbase]
  rfl

theorem exec_rolldecl_refused (hno : ok = false) : exec (.rolldecl roll a sK) s = .next (e.trapped 0x04 0 0) := by
  rw [exec_rolldecl_checks h hf hmask hbase hok]
  exact runWord_trapped h (by simp only [hno, need_false, error_bind, flat_error])

theorem exec_rolldecl_waits (hyes : ok = true) (hs : (e.ctx.roll roll.val).sigs ≠ []) :
    exec (.rolldecl roll a sK) s = .next (e.waiting .roll s) := by
  have hno : (e.ctx.roll roll.val).sigs.isEmpty = false := by simpa using hs
  rw [exec_rolldecl_checks h hf hmask hbase hok]
  exact runWord_waiting h (by
    simp only [hyes, hno, need_true, ok_bind, Env.waitUnless_false, error_bind, flat_error, openWord_state h])

theorem exec_rolldecl (hyes : ok = true) (hs : (e.ctx.roll roll.val).sigs = []) :
    exec (.rolldecl roll a sK) s = .next (e.afterIn s.fresh (fun c =>
      ((c.act (.rolldecl roll.val base mask)).act (.matrix (MOp.thread s.serial (.rolldecl roll a sK)))).putDone .none
        (.matrix s.serial))) := by
  rw [exec_rolldecl_checks h hf hmask hbase hok]
  exact runWord_afterIn _ h (by
    simp only [hyes, hs, List.isEmpty_nil, need_true, ok_bind, Env.waitUnless_true, flat_pure, openWord_state h])

end Declare

/-! ### Checks in a row -/

section MapM
variable {ε α β : Type} {f : α → Except ε β}

theorem mapM_ok {g : α → β} {l : List α} (h : ∀ x ∈ l, f x = .ok (g x)) : l.mapM f = .ok (l.map g) := by
  induction l with
  | nil => rfl
  | cons x l ih =>
    obtain ⟨hx, hl⟩ := List.forall_mem_cons.1 h
    rw [List.mapM_cons, hx, ok_bind, ih hl, ok_bind, List.map_cons]
    rfl

/-- The first member that fails decides. -/
theorem mapM_error {l r : List α} {x : α} {y : ε} (hl : ∀ z ∈ l, ∃ b, f z = .ok b) (hx : f x = .error y) :
    (l ++ x :: r).mapM f = .error y := by
  induction l with
  | nil => rw [List.nil_append, List.mapM_cons, hx, error_bind]
  | cons z l ih =>
    obtain ⟨⟨b, hb⟩, hl⟩ := List.forall_mem_cons.1 hl
    rw [List.cons_append, List.mapM_cons, hb, ok_bind, ih hl, error_bind]

theorem mapM_range_error {f : Nat → Except ε β} {n i : Nat} {y : ε} (hi : i < n)
    (hl : ∀ j, j < i → ∃ b, f j = .ok b) (hx : f i = .error y) : (List.range n).mapM f = .error y := by
  obtain ⟨k, rfl⟩ := Nat.exists_eq_add_of_lt hi
  rw [show i + k + 1 = i + (k + 1) by omega, List.range_add, List.range_succ_eq_map, List.map_cons]
  exact mapM_error (fun z hz => hl z (List.mem_range.1 hz)) hx

end MapM

/-! ### Bits summed in their places -/

/-- The number whose bit i is that of the i-th member (R149). -/
def bitSum {α : Type} (b : α → Bool) (l : List α) : Nat :=
  l.zipIdx.foldl (fun v p => v + (if b p.1 then 2 ^ p.2 else 0)) 0

theorem bitSum_concat {α : Type} (b : α → Bool) (l : List α) (x : α) :
    bitSum b (l ++ [x]) = bitSum b l + (if b x then 2 ^ l.length else 0) := by
  simp [bitSum, List.zipIdx_append]

theorem bitSum_spec {α : Type} (b : α → Bool) (l : List α) : bitSum b l < 2 ^ l.length ∧
    ∀ i (hi : i < l.length), (bitSum b l).testBit i = b l[i] := by
  induction l using List.reverseRecOn with
  | nil => exact ⟨by simp [bitSum], by simp⟩
  | append_singleton l x ih =>
    obtain ⟨hlt, hbits⟩ := ih
    rw [bitSum_concat]
    refine ⟨?_, fun i hi => ?_⟩
    · rw [List.length_append, List.length_singleton, Nat.pow_succ]
      split <;> omega
    rw [List.length_append, List.length_singleton] at hi
    rcases Nat.lt_succ_iff_lt_or_eq.1 hi with h | rfl
    · rw [List.getElem_append_left h, ← hbits i h]
      split
      · rw [Nat.add_comm, Nat.testBit_two_pow_add_gt h]
      · rfl
    · rw [List.getElem_concat_length rfl]
      split
      next hb => rw [Nat.add_comm, Nat.testBit_two_pow_add_eq, Nat.testBit_lt_two_pow hlt, hb]; rfl
      next hb => rw [Nat.add_zero, Nat.testBit_lt_two_pow hlt, Bool.eq_false_iff.2 hb]

/-! ### SGHASH -/

/-- An SGHASH's result reaches its clause: a temporary at once, a g register with the completion (R34, R46, R379). -/
def hashed (d : Reg) (v : Word) (op : MOp) (id : Nat) (c : Clause) : Clause :=
  let c1 := match d with | .t _ => c.put d v | _ => c
  let dst := match d with | .g r => LatDst.g r.val | _ => .none
  { c1.act (.matrix op) with lats := c1.lats ++ [{ tok := none, dst := dst, val := v, kind := .matrix id }] }

section Hash
variable {s : State} {e : Env} (h : openWord s = some e) (n : Fin 13) (d : Reg) {a : Reg} {b : Src}
include h

theorem exec_sghash_frozen (a : Reg) (b : Src) (hf : e.ctx.frozen ≠ none) :
    exec (.sghash n d a b) s = .next (e.waiting .frozen s) := by
  have hno : e.ctx.frozen.isNone = false :=
    Option.isNone_eq_false_iff.2 (Option.isSome_iff_ne_none.2 hf)
  exact runWord_waiting h (by simp only [hno, Env.waitUnless_false, error_bind, flat_error, openWord_state h])

variable (hf : e.ctx.frozen = none)
include hf

theorem exec_sghash_row {c : Nat} {v : Word} (b : Src) (hr : rowRead e.fm (e.reg a).toNat = .error (c, v)) :
    exec (.sghash n d a b) s = .next (e.trapped c v 0) :=
  runWord_trapped h (by simp only [hf, Option.isNone_none, Env.waitUnless_true, ok_bind, hr, liftChk_error, error_bind,
    flat_error])

variable {x : HallRef} (hr : rowRead e.fm (e.reg a).toNat = .ok x)
include hr

theorem exec_sghash_outside {o : Nat} (ho : firstOutside e.fm.rcd (e.src b).toNat 1 = some o) :
    exec (.sghash n d a b) s = .next (e.trapped 0x07 (BitVec.ofNat 32 o) 0) :=
  runWord_trapped h (by simp only [hf, Option.isNone_none, Env.waitUnless_true, ok_bind, hr, liftChk_ok, ho,
    liftChk_error, error_bind, flat_error])

variable {g : HallRef} (ho : firstOutside e.fm.rcd (e.src b).toNat 1 = none)
  (hg : resolve e.fm.rcd (e.src b).toNat = some g)
include ho hg

theorem exec_sghash_past (hx : g.seg.extent < g.rel + 256 * n.val) :
    exec (.sghash n d a b) s = .next (e.trapped 0x07 (BitVec.ofNat 32 (g.seg.base + g.seg.extent)) 0) :=
  runWord_trapped h (by simp only [hf, Option.isNone_none, Env.waitUnless_true, ok_bind, hr, liftChk_ok, ho, hg,
    decide_eq_false (Nat.not_le.2 hx), chk_false, liftChk_error, error_bind, flat_error])

variable (hx : g.rel + 256 * n.val ≤ g.seg.extent)
include hx

theorem exec_sghash_plane {i c : Nat} {v : Word} (hi : i < n.val)
    (hl : ∀ j, j < i → ∃ y, rowRead e.fm ((e.src b).toNat + 256 * j) = .ok y)
    (he : rowRead e.fm ((e.src b).toNat + 256 * i) = .error (c, v)) :
    exec (.sghash n d a b) s = .next (e.trapped c v 0) :=
  runWord_trapped h (by simp only [hf, Option.isNone_none, Env.waitUnless_true, ok_bind, hr, liftChk_ok, ho, hg,
    decide_eq_true hx, chk_true, mapM_range_error hi hl he, liftChk_error, error_bind, flat_error])

theorem exec_sghash {hs : Nat → HallRef} (hp : ∀ i, i < n.val → rowRead e.fm ((e.src b).toNat + 256 * i) = .ok (hs i)) :
    exec (.sghash n d a b) s = .next (e.afterIn s.fresh (hashed d
      (BitVec.ofNat 32 (bitSum (fun p => hashBit (rowFP e.fm x) (rowFP e.fm p)) ((List.range n.val).map hs)))
      (MOp.thread s.serial (.sghash n d a b)) s.serial)) :=
  runWord_afterIn _ h (by
    simp only [hf, Option.isNone_none, Env.waitUnless_true, ok_bind, hr, liftChk_ok, ho, hg, decide_eq_true hx, chk_true,
      mapM_ok (g := hs) fun i hi => hp i (List.mem_range.1 hi), flat_pure, openWord_state h]
    rfl)

end Hash

/-! ### SPK -/

section Pack
variable {s : State} {e : Env} (h : openWord s = some e) {a : Reg} {b : Src}
include h

theorem exec_spk_frozen (a : Reg) (b : Src) (hf : e.ctx.frozen ≠ none) :
    exec (.spk a b) s = .next (e.waiting .frozen s) := by
  have hno : e.ctx.frozen.isNone = false :=
    Option.isNone_eq_false_iff.2 (Option.isSome_iff_ne_none.2 hf)
  exact runWord_waiting h (by simp only [hno, Env.waitUnless_false, error_bind, flat_error, openWord_state h])

variable (hf : e.ctx.frozen = none)
include hf

theorem exec_spk_dense {c : Nat} {v : Word} (b : Src) (hd : denseTile e.fm (e.reg a).toNat = .error (c, v)) :
    exec (.spk a b) s = .next (e.trapped c v 0) :=
  runWord_trapped h (by simp only [hf, Option.isNone_none, Env.waitUnless_true, ok_bind, hd, liftChk_error, error_bind,
    flat_error])

variable {x : HallRef} (hd : denseTile e.fm (e.reg a).toNat = .ok x)
include hd

theorem exec_spk_sparse {c : Nat} {v : Word} (hs : sparseTile e.fm x.seg.fmt (e.src b).toNat = .error (c, v)) :
    exec (.spk a b) s = .next (e.trapped c v 0) :=
  runWord_trapped h (by simp only [hf, Option.isNone_none, Env.waitUnless_true, ok_bind, hd, liftChk_ok, hs,
    liftChk_error, error_bind, flat_error])

/-- The storage bytes of the sparse tile that a dense one packs to (R148). -/
def packedTile (e : Env) (x : HallRef) : List Byte :=
  (List.range 64).flatMap (fun r => packUnit x.seg.fmt ((List.range 64).map (fun k =>
    leNat ((List.range (elemBytes x.seg.fmt)).map (fun i =>
      e.bytes x ((x.rel / 4 + 64 * r + k) * elemBytes x.seg.fmt + i))))))

theorem exec_spk {g : HallRef} (hs : sparseTile e.fm x.seg.fmt (e.src b).toNat = .ok g) :
    exec (.spk a b) s = .next (e.afterIn s.fresh (fun c =>
      (c.act (.matrix { MOp.thread s.serial (.spk a b) with
        writes := [{ addr := g.sb + g.rel / 256 * unitBytes g.seg.fmt 0, bytes := packedTile e x, tag := .full }] })).putDone
        .none (.matrix s.serial))) :=
  runWord_afterIn _ h (by
    simp only [hf, Option.isNone_none, Env.waitUnless_true, ok_bind, hd, liftChk_ok, hs, flat_pure, openWord_state h]
    rfl)

end Pack

/-! ### SPK's tiles -/

section Tiles
variable {f : Form} {a : Nat} {h : HallRef} (hs : tileShape f a true = .ok h)
include hs

theorem denseTile_format (hno : h.seg.geom ≠ 0 ∨ (h.seg.fmt ≠ 2 ∧ h.seg.fmt ≠ 3)) :
    denseTile f a = .error (0x08, BitVec.ofNat 32 a) := by
  have hfalse : (h.seg.geom == 0 && (h.seg.fmt == 3 || h.seg.fmt == 2)) = false := by
    rcases hno with hno | ⟨h2, h3⟩
    · simp [hno]
    · simp [h2, h3]
  simp only [denseTile, hs, ok_bind, hfalse, chk_false, error_bind]

section Dense
variable (hg : h.seg.geom = 0) (hf : h.seg.fmt = 2 ∨ h.seg.fmt = 3)
include hg hf

omit hs in
theorem dense_format : (h.seg.geom == 0 && (h.seg.fmt == 3 || h.seg.fmt == 2)) = true := by simpa [hg, or_comm] using hf

theorem denseTile_poison {x : Nat} (hp : firstPoison f h (List.range 4096) = some x) :
    denseTile f a = .error (0x0F, BitVec.ofNat 32 x) := by
  simp only [denseTile, hs, ok_bind, dense_format hg hf, chk_true, hp, error_bind]

theorem denseTile_ok (hp : firstPoison f h (List.range 4096) = none) : denseTile f a = .ok h := by
  simp only [denseTile, hs, ok_bind, dense_format hg hf, chk_true, hp]
  rfl

end Dense

theorem sparseTile_format {fmt : Nat} (hno : ¬ ((fmt = 3 ∧ h.seg.fmt = 7) ∨ (fmt = 2 ∧ h.seg.fmt = 8))) :
    sparseTile f fmt a = .error (0x08, BitVec.ofNat 32 a) := by
  have hfalse : ((fmt == 3 && h.seg.fmt == 7) || (fmt == 2 && h.seg.fmt == 8)) = false := by simpa using hno
  simp only [sparseTile, hs, ok_bind, hfalse, chk_false, error_bind]

theorem sparseTile_ok {fmt : Nat} (hp : (fmt = 3 ∧ h.seg.fmt = 7) ∨ (fmt = 2 ∧ h.seg.fmt = 8))
    (ht : ∀ i, i < 64 * unitBytes h.seg.fmt 0 → f.tag (h.sb + h.rel / 256 * unitBytes h.seg.fmt 0 + i) ≠ .object) :
    sparseTile f fmt a = .ok h := by
  have htrue : ((fmt == 3 && h.seg.fmt == 7) || (fmt == 2 && h.seg.fmt == 8)) = true := by simpa using hp
  have hnone : (List.range (64 * unitBytes h.seg.fmt 0)).find?
      (fun i => decide (f.tag (h.sb + h.rel / 256 * unitBytes h.seg.fmt 0 + i) = .object)) = none :=
    List.find?_range_eq_none.2 fun i hi => by simp [ht i hi]
  simp only [sparseTile, hs, ok_bind, htrue, chk_true, hnone]
  rfl

end Tiles

end Sys2Proof.MatrixAndSignature

namespace Sys2Proof.MatrixAndSignature
open Sys2Proof Sys2Proof.Machine Sys2Proof.WorkAndItsShape Sys2Proof.PlacesAndClauses
  Sys2Proof.CopiesAndCollectives

/-! ## MSAVE and MRESTORE (R153 to R155, R348, R349; log 100) -/

/-! ### What an MSAVE waits for -/

theorem mayFreeze_iff (ops : List MOp) : mayFreeze ops = true ↔ (ops.filter (fun o => !o.saves)).length ≤ 1 ∧
    ∀ o ∈ ops.filter (fun o => !o.saves), isProduct o.ins = true := by
  rw [mayFreeze, Bool.and_eq_true, decide_eq_true_iff, List.all_eq_true]

theorem sealedOps_iff (s : State) (f : Nat) (ops : List MOp) : s.sealedOps f ops = true ↔
    ∀ o ∈ ops, s.uncommitted f o.id = false ∨ s.heldBack f o = true := by
  simp [State.sealedOps]

/-- A context is frozen, or may freeze behind some operations: one product at most beside MSAVEs, and what would be saved is
of committed clauses (log 100). -/
theorem freezes_iff (s : State) (f : Nat) (c : MCtx) (ops : List MOp) :
    (c.frozen.isSome || (mayFreeze ops && s.sealedOps f ops)) = true ↔
      c.frozen ≠ none ∨ ((ops.filter (fun o => !o.saves)).length ≤ 1 ∧
        (∀ o ∈ ops.filter (fun o => !o.saves), isProduct o.ins = true) ∧
        ∀ o ∈ ops, s.uncommitted f o.id = false ∨ s.heldBack f o = true) := by
  rw [Bool.or_eq_true, Bool.and_eq_true, mayFreeze_iff, sealedOps_iff, Option.isSome_iff_ne_none, and_assoc]

/-! ### The words -/

section Save
variable {s : State} {e : Env} (h : openWord s = some e) {a : Reg} {x : HallRef}
  (ho : firstOutside e.fm.rcd (e.reg a).toNat 1 = none) (hr : resolve e.fm.rcd (e.reg a).toNat = some x)
  (hx : x.rel + 73728 ≤ x.seg.extent) (ha : (e.reg a).toNat % 256 = 0) (hf : x.seg.fmt = 0)
  (ht : ∀ w ∈ wordsOfSpan (x.sb + x.rel) 73728, e.fm.tag (4 * w) ≠ .object)
include h ho hr hx ha hf ht

/-- An MSAVE whose address passes waits for what is in flight, and saves at its commit. -/
theorem exec_msave : exec (.msave a) s = .next (
    if e.ctx.frozen.isSome || (mayFreeze (e.ctx.others [e.cl]) && s.sealedOps e.th.form (e.ctx.others [e.cl])) then
      e.afterIn s.fresh (fun c => (c.act (.msave (x.sb + x.rel) s.serial)).putDone .none (.matrix s.serial))
    else e.waiting .drain s) := by
  have hnone : (wordsOfSpan (x.sb + x.rel) 73728).find? (fun w => decide (e.fm.tag (4 * w) = .object)) = none := by
    simpa using ht
  split
  next hs => exact runWord_afterIn _ h (by
    simp only [ho, hr, decide_eq_true hx, ha, hf, beq_self_eq_true, Bool.and_self, chk_true, ok_bind, hnone,
      openWord_state h, hs, Env.waitUnless_true]
    rfl)
  next hs => exact runWord_waiting h (by
    simp only [ho, hr, decide_eq_true hx, ha, hf, beq_self_eq_true, Bool.and_self, chk_true, ok_bind, hnone,
      openWord_state h, hs, Env.waitUnless_false]
    rfl)

end Save

section Restore
variable {s : State} {e : Env} (h : openWord s = some e) {a : Reg}
include h

theorem exec_mrestore_address {c : Nat} {v : Word} (hr : restoreAddr e.fm (e.reg a) = .error (c, v)) :
    exec (.mrestore a) s = .next (e.trapped c v 0) :=
  runWord_trapped h (by simp only [hr, liftChk_error, error_bind, flat_error])

variable {x : HallRef} (hr : restoreAddr e.fm (e.reg a) = .ok x)
include hr

theorem exec_mrestore_drains (ho : e.ctx.others [e.cl] ≠ []) :
    exec (.mrestore a) s = .next (e.waiting .drain s) := by
  have hno : (e.ctx.others [e.cl]).isEmpty = false := by simpa using ho
  exact runWord_waiting h (by
    simp only [hr, liftChk_ok, ok_bind, hno, Env.waitUnless_false, error_bind, flat_error, openWord_state h])

variable (ho : e.ctx.others [e.cl] = [])
include ho

theorem exec_mrestore_fault {c : Nat} {v : Word}
    (hc : s.restoreCheck e.th.form e.th.core e.fm (e.reg a) = .error (c, v)) :
    exec (.mrestore a) s = .next (e.trapped c v 0) :=
  runWord_trapped h (by
    simp only [hr, liftChk_ok, ok_bind, ho, List.isEmpty_nil, Env.waitUnless_true, openWord_state h, hc, liftChk_error,
      error_bind, flat_error])

theorem exec_mrestore {img : List Word} (hc : s.restoreCheck e.th.form e.th.core e.fm (e.reg a) = .ok img) :
    exec (.mrestore a) s = .next (e.afterIn s.fresh (fun c =>
      (c.act (.mrestore (e.reg a) e.idx s.serial)).putDone .none (.matrix s.serial))) :=
  runWord_afterIn _ h (by
    simp only [hr, liftChk_ok, ok_bind, ho, List.isEmpty_nil, Env.waitUnless_true, openWord_state h, hc, flat_pure])

end Restore

/-! ### The checks of an image -/

theorem restoreAddr_nowhere {f : Form} {a : Word} (h : 2 ^ 23 ≤ a.toNat ∨ resolve f.rcd a.toNat = none) :
    restoreAddr f a = .error (0x07, a) := by
  have hnone : (if a.toNat < 2 ^ 23 then resolve f.rcd a.toNat else none) = none := by
    rcases h with h | h
    · exact if_neg (Nat.not_lt.2 h)
    · rw [h, ite_self]
  simp only [restoreAddr, hnone, error_bind]

section Address
variable {f : Form} {a : Word} {h : HallRef} (hlt : a.toNat < 2 ^ 23) (hr : resolve f.rcd a.toNat = some h)
include hlt hr

theorem restoreAddr_past (hx : h.seg.extent < h.rel + 73728) :
    restoreAddr f a = .error (0x07, BitVec.ofNat 32 (h.seg.base + h.seg.extent)) := by
  simp only [restoreAddr, if_pos hlt, hr, ok_bind, decide_eq_false (Nat.not_le.2 hx), chk_false, error_bind]

variable (hx : h.rel + 73728 ≤ h.seg.extent)
include hx

theorem restoreAddr_misaligned (hm : a.toNat % 256 ≠ 0 ∨ h.seg.fmt ≠ 0) : restoreAddr f a = .error (0x08, a) := by
  have hno : (a.toNat % 256 == 0 && h.seg.fmt == 0) = false := by simpa [imp_iff_not_or] using hm
  simp only [restoreAddr, if_pos hlt, hr, ok_bind, decide_eq_true hx, chk_true, hno, chk_false, error_bind,
    BitVec.ofNat_toNat, BitVec.setWidth_eq]

theorem restoreAddr_ok (ha : a.toNat % 256 = 0) (hf : h.seg.fmt = 0) : restoreAddr f a = .ok h := by
  simp only [restoreAddr, if_pos hlt, hr, ok_bind, decide_eq_true hx, chk_true, ha, hf, beq_self_eq_true, Bool.and_self]
  rfl

end Address

section Check
variable {s : State} {f core : Nat} {fm : Form} {a : Word}

theorem restoreCheck_address {x : Nat × Word} (h : restoreAddr fm a = .error x) :
    s.restoreCheck f core fm a = .error x := by
  rw [State.restoreCheck, h, error_bind]

variable {h : HallRef} {img : List Word} (hr : restoreAddr fm a = .ok h)
  (hp : ∀ w ∈ wordsOfSpan (h.sb + h.rel) 73728, fm.tag (4 * w) ≠ .poisoned)
  (himg : (wordsOfSpan (h.sb + h.rel) 73728).map (fun w => fm.word (4 * w)) = img)
include hr hp himg

/-- An image without poison is checked for its version, the roll state, its threads and its reserved fields (R348). -/
theorem restoreCheck_image : s.restoreCheck f core fm a = (do
    chk (imgAt img 0 / 65536 == 1) 0x12 0
    chk ((fm.mctx (fm.fcOf core)).rolls.all (fun r => r.2.sigs.isEmpty)) 0x04 0
    chk (s.imgThreads f core fm.rcd img) 0x04 0
    chk (imgReserved img) 0x04 0
    pure img) := by
  have hnone : (wordsOfSpan (h.sb + h.rel) 73728).find? (fun w => decide (fm.tag (4 * w) = .poisoned)) = none := by
    simpa using hp
  simp only [State.restoreCheck, hr, ok_bind, hnone, himg]

theorem restoreCheck_version (hv : imgAt img 0 / 65536 ≠ 1) : s.restoreCheck f core fm a = .error (0x12, 0) := by
  rw [restoreCheck_image hr hp himg, beq_false_of_ne hv, chk_false, error_bind]
  rfl

theorem restoreCheck_sound (hv : imgAt img 0 / 65536 = 1) (hs : (∀ r ∈ (fm.mctx (fm.fcOf core)).rolls, r.2.sigs = []) ∧
      s.imgThreads f core fm.rcd img = true ∧ imgReserved img = true) : s.restoreCheck f core fm a = .ok img := by
  obtain ⟨hsigs, hthreads, hres⟩ := hs
  have hall : (fm.mctx (fm.fcOf core)).rolls.all (fun r => r.2.sigs.isEmpty) = true := by simpa using hsigs
  rw [restoreCheck_image hr hp himg, hv, hall, hthreads, hres]
  rfl

theorem restoreCheck_unsound (hv : imgAt img 0 / 65536 = 1) (hs : ¬ ((∀ r ∈ (fm.mctx (fm.fcOf core)).rolls, r.2.sigs = []) ∧
      s.imgThreads f core fm.rcd img = true ∧ imgReserved img = true)) : s.restoreCheck f core fm a = .error (0x04, 0) := by
  have hall : (∀ r ∈ (fm.mctx (fm.fcOf core)).rolls, r.2.sigs = []) ↔
      (fm.mctx (fm.fcOf core)).rolls.all (fun r => r.2.sigs.isEmpty) = true := by simp
  rw [hall] at hs
  rw [restoreCheck_image hr hp himg, hv]
  revert hs
  cases (fm.mctx (fm.fcOf core)).rolls.all (fun r => r.2.sigs.isEmpty) with
  | false => exact fun _ => rfl
  | true =>
    cases s.imgThreads f core fm.rcd img with
    | false => exact fun _ => rfl
    | true =>
      cases imgReserved img with
      | false => exact fun _ => rfl
      | true => exact fun hs => absurd ⟨rfl, rfl, rfl⟩ hs

end Check

/-! ## Rows that are written (R71, R89, R143, R396) -/

section Row
variable {f : Form} {a : Nat} {h : HallRef} {units : HallRef → List (List Nat)} (hs : rowShape f a = .ok h)
include hs

theorem rowStore_sp24 (hf : isSP24 h.seg.fmt = true) : rowStore f a units = .error (0x08, BitVec.ofNat 32 a) := by
  simp only [rowStore, hs, ok_bind, hf, Bool.not_true, Bool.or_self, chk_false, error_bind]

variable (hf : isSP24 h.seg.fmt = false)
include hf

theorem rowStore_object {u : List Nat} {o : Nat} (hu : u ∈ units h) (ho : o ∈ u) (ht : f.tag o = .object) :
    ∃ v, rowStore f a units = .error (0x09, v) := by
  obtain ⟨b, hb⟩ : ∃ b, (units h).flatten.find? (fun o => decide (f.tag o = .object)) = some b :=
    Option.isSome_iff_exists.1 (List.find?_isSome.2 ⟨o, List.mem_flatten.2 ⟨u, hu, ho⟩, decide_eq_true ht⟩)
  exact ⟨BitVec.ofNat 32 (h.seg.base + storageView h.seg.fmt h.seg.geom (b - h.sb)), by
    simp only [rowStore, hs, ok_bind, hf, Bool.not_false, Bool.or_true, chk_true, hb, error_bind]⟩

variable (hobj : ∀ u ∈ units h, ∀ o ∈ u, f.tag o ≠ .object)
include hobj

omit hs hf in
theorem find?_object_none : (units h).flatten.find? (fun o => decide (f.tag o = .object)) = none :=
  List.find?_eq_none.2 fun o ho => by
    obtain ⟨u, hu, hou⟩ := List.mem_flatten.1 ho
    simpa using hobj u hu o hou

theorem rowStore_partial {u : List Nat} {o : Nat} (hu : u ∈ units h) (ho : o ∈ u) (ht : f.tag o = .poisoned)
    (hw : wholeWord u o = false) : ∃ v, rowStore f a units = .error (0x0F, v) := by
  obtain ⟨b, hb⟩ : ∃ b, (units h).findSome? (fun u => u.find? (fun o => decide (f.tag o = .poisoned) && !wholeWord u o))
      = some b := by
    refine Option.isSome_iff_exists.1 (List.findSome?_isSome_iff.2 ⟨u, hu, List.find?_isSome.2 ⟨o, ho, ?_⟩⟩)
    simp [ht, hw]
  exact ⟨BitVec.ofNat 32 (h.seg.base + storageView h.seg.fmt h.seg.geom (b - h.sb)), by
    simp only [rowStore, hs, ok_bind, hf, Bool.not_false, Bool.or_true, chk_true, find?_object_none hobj, hb]⟩

theorem rowStore_ok (hw : ∀ u ∈ units h, ∀ o ∈ u, f.tag o = .poisoned → wholeWord u o = true) :
    rowStore f a units = .ok h := by
  have hnone : (units h).findSome? (fun u => u.find? (fun o => decide (f.tag o = .poisoned) && !wholeWord u o)) = none :=
    List.findSome?_eq_none_iff.2 fun u hu => List.find?_eq_none.2 fun o ho => by simpa using hw u hu o ho
  simp only [rowStore, hs, ok_bind, hf, Bool.not_false, Bool.or_true, chk_true, find?_object_none hobj, hnone]

end Row

/-! ## The obligation -/

/-- Settles O46: the words of the MATRIX class one by one, each by the checks and waits that it passes through in order. -/
theorem matrixWords : Obligations.MatrixWords := by
  refine ⟨mma_signs, mmconv_signs, mzero_signs, mload_signs, mstore_signs, sgsum_signs, ?sgbkt, ?rolldecl, ?hash,
    ?hashFaults, ?spk, ?tiles, ?msave, ?mrestore, ?rows, ?address, ?image⟩
  case sgbkt =>
    intro m d roll a b sS sL off
    refine ⟨bucketCheck m d roll b, sgbkt_signs m d roll a b sS sL off, fun e => ?_⟩
    intro n v
    refine ⟨fun x => bucketCheck_outside rfl, fun ho => ⟨bucketCheck_nowhere rfl ho, fun h hr => ?_⟩⟩
    refine ⟨bucketCheck_past rfl ho hr, fun hx => ⟨bucketCheck_misaligned rfl ho hr hx, fun ha hf => ?_⟩⟩
    refine ⟨fun w => bucketCheck_object rfl ho hr hx ha hf, fun hw => ?_⟩
    have hfree := bucketCheck_free (m := m) (d := d) rfl ho hr hx ha hf hw
    refine ⟨fun hm => hfree.trans (if_pos hm), fun hm => ⟨fun x hs => ?_, fun g hs => ?_⟩⟩
    · rw [hfree, if_neg hm, hs]; rfl
    · rw [hfree, if_neg hm, hs]; rfl
  case rolldecl =>
    intro s e roll a sK h mask base members
    refine ⟨exec_rolldecl_frozen h roll a sK, fun hf => ?_⟩
    have hok : decide (mask ≠ 0 ∧ members) = true ↔ mask ≠ 0 ∧ members := decide_eq_true_iff
    refine ⟨fun hm hmem => exec_rolldecl h hf rfl rfl hok (decide_eq_true ⟨hm, hmem⟩), fun hno => ?_,
      fun hm hmem => exec_rolldecl_waits h hf rfl rfl hok (decide_eq_true ⟨hm, hmem⟩)⟩
    exact exec_rolldecl_refused h hf rfl rfl hok (decide_eq_false fun ⟨h0, hmem⟩ => hno.elim h0 (absurd hmem))
  case hash =>
    intro s e n d a b h g hs ho hf hr hout hg hx hp
    obtain ⟨hlt, hbits⟩ := bitSum_spec (fun p => hashBit (rowFP e.fm h) (rowFP e.fm p)) ((List.range n.val).map hs)
    rw [List.length_map, List.length_range] at hlt
    refine ⟨_, hlt, fun i hi => ?_, exec_sghash ho n d hf hr hout hg hx hp⟩
    rw [hbits i (by simpa using hi), List.getElem_map, List.getElem_range]
  case hashFaults =>
    intro s e n d a b h out
    refine ⟨exec_sghash_frozen h n d a b, fun hf => ⟨fun c v => exec_sghash_row h n d hf b, fun x hr => ?_⟩⟩
    refine ⟨fun o => exec_sghash_outside h n d hf hr, fun g ho hg => ⟨exec_sghash_past h n d hf hr ho hg, ?_⟩⟩
    exact fun hx i c v => exec_sghash_plane h n d hf hr ho hg hx
  case spk =>
    intro s e a b h
    refine ⟨exec_spk_frozen h a b, fun hf => ⟨fun c v => exec_spk_dense h hf b, fun x hd => ?_⟩⟩
    exact ⟨fun c v => exec_spk_sparse h hf hd, fun g => exec_spk h hf hd⟩
  case tiles =>
    intro f a h hs
    exact ⟨denseTile_format hs, fun hg hf => ⟨denseTile_ok hs hg hf, fun x => denseTile_poison hs hg hf⟩,
      fun fmt => ⟨sparseTile_format hs, sparseTile_ok hs⟩⟩
  case msave =>
    intro s e a x h ho hr hx ha hf ht others rest free
    have hsave := exec_msave h ho hr hx ha hf ht
    refine ⟨fun hfree => ?_, fun hno => ?_⟩
    · exact hsave.trans (congrArg _ (if_pos ((freezes_iff s e.th.form e.ctx others).2 hfree)))
    · exact hsave.trans (congrArg _ (if_neg fun hyes => hno ((freezes_iff s e.th.form e.ctx others).1 hyes)))
  case mrestore =>
    intro s e a h
    exact ⟨fun c v => exec_mrestore_address h, fun x => exec_mrestore_drains h,
      fun x hr ho => ⟨fun c v => exec_mrestore_fault h hr ho, fun img => exec_mrestore h hr ho⟩⟩
  case rows =>
    intro f a h units hs
    exact ⟨rowStore_sp24 hs, fun hf => ⟨fun u hu o => rowStore_object hs hf hu,
      fun hobj => ⟨fun u hu o => rowStore_partial hs hf hobj hu, rowStore_ok hs hf hobj⟩⟩⟩
  case address => exact fun f a h hlt hr => ⟨restoreAddr_past hlt hr, restoreAddr_ok hlt hr⟩
  case image =>
    intro s f core fm a
    refine ⟨fun hno => restoreCheck_address (restoreAddr_nowhere hno), fun h hlt hr => ?_⟩
    intro words img
    refine ⟨fun hx => restoreCheck_address (restoreAddr_past hlt hr hx),
      fun hx => ⟨fun hm => restoreCheck_address (restoreAddr_misaligned hlt hr hx hm), fun ha hf hp => ?_⟩⟩
    have hok := restoreAddr_ok hlt hr hx ha hf
    refine ⟨restoreCheck_version hok hp rfl, fun hv => ?_⟩
    intro sound
    exact ⟨restoreCheck_sound hok hp rfl hv, restoreCheck_unsound hok hp rfl hv⟩

end Sys2Proof.MatrixAndSignature

namespace Sys2Proof.MatrixAndSignature
open Sys2Proof Sys2Proof.Machine

/-! ## Rounds: readiness, issue and the signers' words (R139, R140, R378; log 77, log 83) -/

/-! ### What is ready -/

theorem uncommitted_eq_false_iff (s : State) (f op : Nat) : s.uncommitted f op = false ↔
    ∀ p ∈ s.threads, p.2.form = f → op ∉ opsOf p.2.clauses := by
  simp [State.uncommitted, State.threadsOf]

theorem heldBack_iff (s : State) (f : Nat) (o : MOp) : s.heldBack f o = true ↔
    ∃ x ∈ s.threads, x.2.form = f ∧ ∃ b ∈ x.2.clauses, b.wait = .roll ∧ o.id ∈ opsOf [b] := by
  simp [State.heldBack, State.threadsOf]

theorem roundFull_iff (s : State) (f : Nat) (r : Roll) : s.roundFull f r = true ↔
    r.sigs ≠ [] ∧ ∀ p ∈ r.ranks, s.liveThread f p.2 = true → ∃ x ∈ r.sigs, x.thread = threadKey f p.2 := by
  rw [State.roundFull, Bool.and_eq_true, List.all_eq_true]
  refine and_congr (by simp) (forall₂_congr fun p _ => ?_)
  cases s.liveThread f p.2 <;> simp

theorem roundReady_iff (s : State) (f : Nat) (c : MCtx) (r : Roll) : s.roundReady f c r = true ↔
    (r.sigs ≠ [] ∧ ∀ p ∈ r.ranks, s.liveThread f p.2 = true → ∃ x ∈ r.sigs, x.thread = threadKey f p.2) ∧ c.frozen = none ∧
    ∀ o ∈ c.ops, o.late = none ∧ (writesMemory o.ins = true →
      ∃ p ∈ c.ops.takeWhile (fun p => p.id != o.id) ++ [o], ∃ x ∈ s.threads, x.2.form = f ∧
        ∃ b ∈ x.2.clauses, b.wait = .roll ∧ p.id ∈ opsOf [b]) := by
  rw [State.roundReady, Bool.and_eq_true, Bool.and_eq_true, roundFull_iff, Option.isNone_iff_eq_none, List.all_eq_true,
    and_assoc]
  refine and_congr_right fun _ => and_congr_right fun _ => forall₂_congr fun o _ => ?_
  rw [Bool.and_eq_true, Option.isNone_iff_eq_none, Bool.or_eq_true, Bool.not_eq_true', List.any_eq_true,
    ← Bool.not_eq_true, ← imp_iff_not_or]
  simp only [heldBack_iff]

/-! ### The issue of a round -/

/-- The machine whose roll has been armed again (R139). -/
def armedState (s : State) (f fc roll : Nat) (r : Roll) : State :=
  s.modForm f (·.modCtx fc (fun c => c.setRoll roll { r with key := none, sigs := [] }))

/-- Whether writes of memory stand before a round in its context. -/
def writesAhead (fm : Form) (fc : Nat) : Bool := (fm.mctx fc).ops.any (fun o => writesMemory o.ins)

/-- The form whose memory a round reads (R140). -/
def seenForm (s : State) (fm : Form) (fc : Nat) : Form := if writesAhead fm fc then fm.view s fc else fm

/-- What a signer's word is given as its round issues: for SGBKT the code of D and its map word (R378). -/
def roundResult (ins : Instr) (ds : List (Nat × Word)) (p : Nat × Sig) : Option (Nat × Word) :=
  match ins with
  | .sgbkt _ _ _ _ _ _ _ _ => some ((p.2.extra.getD 1 0).toNat, (ds.lookup p.1).getD 0)
  | _ => none

section Issue
variable {s : State} {f fc : Nat} {fm : Form}

theorem exec_rollRoundIssue (hf : Tab.find? f s.forms = some fm) {roll : Nat}
    (hp : fm.phase = .running ∨ fm.phase = .yielding) (hs : (s.cluster fm.cluster).runOf (fm.coreAt fc % 8) = .stream)
    (hr : s.roundReady f (fm.mctx fc) ((fm.mctx fc).roll roll) = true) :
    exec (.rollRoundIssue f fc roll) s = .next
      (((s.issue f fc roll fm).modCluster fm.cluster (·.leave (fm.coreAt fc % 8))).endStream (fm.coreAt fc)) := by
  show execRollRoundIssue f fc roll s = _
  simp only [execRollRoundIssue, hf, hr, hs, decide_eq_true hp, decide_true, Bool.and_self, runEvent_true]

variable (s f fc fm) {roll : Nat} {r : Roll} {rows : List (Nat × Sig)} {ins : Instr} (hroll : (fm.mctx fc).roll roll = r)
  (hrows : r.signed f = rows) (hins : insOf rows = ins)
include hroll hrows hins

/-- A round with too many buckets faults its signers (R150). -/
theorem issue_tooMany (hb : bucketsFit ins rows = false) :
    s.issue f fc roll fm = (armedState s f fc roll r).faultSigners rows 0x04 0 := by
  subst hroll hrows hins
  simp only [State.issue, hb, Bool.not_false, if_true]
  rfl

variable (hb : bucketsFit ins rows = true)
include hb

theorem issue_poison {a : Nat} (hp : fetchError s (seenForm s fm fc) ins rows = some a) :
    s.issue f fc roll fm = (armedState s f fc roll r).faultSigners rows 0x0F (BitVec.ofNat 32 a) := by
  subst hroll hrows hins
  unfold seenForm writesAhead at hp
  simp only [State.issue, hb, Bool.not_true, Bool.false_eq_true, if_false, hp]
  rfl

variable (hp : fetchError s (seenForm s fm fc) ins rows = none)
include hp

theorem issue_stages {c : Nat} {a : Word} (ho : issueOp s (seenForm s fm fc) s.serial r ins rows = .error (c, a)) :
    s.issue f fc roll fm = (armedState s f fc roll r).faultSigners rows c a := by
  subst hroll hrows hins
  unfold seenForm writesAhead at hp ho
  simp only [State.issue, hb, Bool.not_true, Bool.false_eq_true, if_false, hp, ho]
  rfl

/-- A round that passes enters the context's operations, and its signers' words are done. -/
theorem issue_enters {op : MOp} {ds : List (Nat × Word)}
    (ho : issueOp s (seenForm s fm fc) s.serial r ins rows = .ok (op, ds)) :
    s.issue f fc roll fm = rows.foldl (fun t p => t.signedDone op.id p.2.thread (roundResult ins ds p))
      ((armedState s f fc roll r).fresh.modForm f (·.modCtx fc (fun c =>
        { c with ops := c.ops ++ [{ op with base := if writesAhead fm fc then some fm.hall else none }] }))) := by
  subst hroll hrows hins
  unfold seenForm writesAhead at hp ho
  simp only [State.issue, hb, Bool.not_true, Bool.false_eq_true, if_false, hp, ho]
  rfl

end Issue

/-! ### A signer's word -/

/-- The first member of a list, with its position, for which a function answers. -/
theorem findSome?_zipIdx_first {α β : Type} {g : α × Nat → Option β} {l : List α} {i : Nat} {x : α} {y : β}
    (hi : l[i]? = some x) (hx : g (x, i) = some y) (hlt : ∀ j z, j < i → l[j]? = some z → g (z, j) = none) :
    l.zipIdx.findSome? g = some y := by
  obtain ⟨hlen, rfl⟩ := List.getElem?_eq_some_iff.1 hi
  refine List.findSome?_eq_some_iff.2 ⟨(l.take i).zipIdx, (l[i], i), (l.drop (i + 1)).zipIdx (i + 1), ?_, hx, ?_⟩
  · conv_lhs => rw [← List.take_append_drop i l, List.drop_eq_getElem_cons hlen]
    rw [List.zipIdx_append, List.zipIdx_cons, List.length_take, Nat.min_eq_left hlen.le, Nat.zero_add]
  · rintro ⟨z, j⟩ hz
    obtain ⟨hj, hz⟩ := List.mem_zipIdx' hz
    rw [List.length_take] at hj
    exact hlt j z (by omega) (by rw [hz, List.getElem_take, List.getElem?_eq_getElem])

/-- A thread signs in its first clause that waits for a round. -/
theorem signing_eq {th : Thread} {i : Nat} {c : Clause} {w : Nat × Instr} {q : List (Nat × Instr)}
    (hi : th.clauses[i]? = some c) (hw : c.wait = .roll) (ht : c.todo = w :: q)
    (hlt : ∀ j b, j < i → th.clauses[j]? = some b → b.wait ≠ .roll) : th.signing = some (i, c, w.1) :=
  findSome?_zipIdx_first hi (by simp [hw, ht]) fun j b hj hb => by simp [hlt j b hj hb]

theorem signedDone_eq {s : State} {k i : Nat} {th : Thread} {c : Clause} {w : Nat × Instr} {q : List (Nat × Instr)}
    (hk : Tab.find? k s.threads = some th) (hi : th.clauses[i]? = some c) (hw : c.wait = .roll) (ht : c.todo = w :: q)
    (hlt : ∀ j b, j < i → th.clauses[j]? = some b → b.wait ≠ .roll) (op : Nat) (d : Option (Nat × Word)) :
    s.signedDone op k d = s.modThread k (·.endWord i (fun y =>
      { y.sealed op d with signed := y.signed ++ [(w.1, op)] })) := by
  simp only [State.signedDone, hk, Option.bind_some, signing_eq hi hw ht hlt]
  rfl

/-- A word that is done with a value for D holds it in a temporary at once, and else until the operation completes. -/
theorem sealed_some (y : Clause) (op code : Nat) (v : Word) : y.sealed op (some (code, v)) = { y with
    temps := if 120 ≤ code ∧ code < 124 then SMap.set 0 (code - 120) v y.temps else y.temps,
    lats := y.lats ++ [{ tok := none, dst := if code < 120 then .g code else .none, val := v, kind := .matrix op }] } := by
  simp only [Clause.sealed]
  split <;> rfl

/-! ## Completion (R140 to R143, R153, R348; log 77, log 100) -/

section Complete
variable {s : State} {f fc id : Nat} {fm : Form} {op : MOp} (hf : Tab.find? f s.forms = some fm)
  (ho : (fm.mctx fc).ops.find? (fun o => o.id == id) = some op)
include hf ho

/-- MATRIX_OP_COMPLETE completes an operation that may complete. -/
theorem exec_matrixOpComplete (hl : op.late = none) :
    exec (.matrixOpComplete f fc id) s = .next (if s.mayComplete f fm (fm.mctx fc) op then
      ((s.completeOp f fc fm op).askSlew fm.cluster).endStream (fm.coreAt fc) else s) := by
  show execMatrixOpComplete f fc id s = _
  simp only [execMatrixOpComplete, hf, ho, hl, Option.isSome_none, Bool.false_eq_true, if_false]
  rfl

/-- MATRIX_OP_COMPLETE performs a committed MSAVE or MRESTORE that nothing before it holds back. -/
theorem exec_matrixOpComplete_late (hl : op.late ≠ none) :
    exec (.matrixOpComplete f fc id) s = .next (if s.lateFree f (fm.mctx fc) op then s.runLate f fc op else s) := by
  show execMatrixOpComplete f fc id s = _
  simp only [execMatrixOpComplete, hf, ho, Option.isSome_iff_ne_none.2 hl, if_true]
  rfl

end Complete

theorem lateFree_msave_iff (s : State) (f : Nat) (c : MCtx) {op : MOp} {a : Reg} (h : op.ins = .msave a) :
    s.lateFree f c op = true ↔ c.frozen ≠ none ∨ (((c.ahead op.id).filter (fun o => !o.saves)).length ≤ 1 ∧
      (∀ o ∈ (c.ahead op.id).filter (fun o => !o.saves), isProduct o.ins = true) ∧
      ∀ o ∈ c.ahead op.id, s.uncommitted f o.id = false ∨ s.heldBack f o = true) := by
  rw [← freezes_iff, Bool.or_and_distrib_left]
  simp only [State.lateFree, MCtx.lateReady, h]

theorem lateFree_mrestore_iff (s : State) (f : Nat) (c : MCtx) {op : MOp} {a : Reg} (h : op.ins = .mrestore a) :
    s.lateFree f c op = true ↔ c.ahead op.id = [] := by
  simp only [State.lateFree, MCtx.lateReady, h, Bool.and_eq_true, List.isEmpty_iff]
  refine ⟨And.left, fun h => ⟨h, ?_⟩⟩
  rw [h]
  exact Bool.or_true _

theorem mayComplete_iff (s : State) (f : Nat) (fm : Form) (c : MCtx) (op : MOp) : s.mayComplete f fm c op = true ↔
    op.late = none ∧ (∀ o ∈ c.ahead op.id, ∀ r ∈ o.accRows, r ∉ op.accRows) ∧
    (op.base = none ∨ ∀ o ∈ c.ahead op.id, writesMemory o.ins = false) ∧
    (∀ w ∈ storeWrites fm c (op.ready s fm), ∀ x ∈ wordsOfSpan w.addr w.bytes.length, fm.held (4 * x) = false) ∧
    ∀ p ∈ s.threads, p.2.form = f → op.id ∉ opsOf p.2.clauses := by
  rw [State.mayComplete, Bool.and_eq_true, Bool.and_eq_true, Bool.and_eq_true, Bool.and_eq_true, Bool.not_eq_true',
    uncommitted_eq_false_iff, and_assoc, and_assoc, and_assoc]
  simp [MCtx.ahead]

theorem ready_eq (s : State) (f : Form) (op : MOp) : (op.base = none → op.ready s f = op) ∧
    ∀ h, op.base = some h → op.ready s f = op.fetch s { f with hall := h } :=
  ⟨fun h => by rw [MOp.ready, h], fun h hb => by rw [MOp.ready, hb]⟩

theorem matrixRounds_hold : matrixRounds := by
  refine ⟨?issue, roundReady_iff, ?signer, ?completes, fun s f c op => ?late, mayComplete_iff, ready_eq⟩
  case issue =>
    intro s f fc roll fm hf hp hs r rows ins armed ends held seen hr
    have ends_of : ∀ {t}, s.issue f fc roll fm = t → ends t := fun ht => ht ▸ exec_rollRoundIssue hf hp hs hr
    refine ⟨fun hb => ends_of (issue_tooMany s f fc fm rfl rfl rfl hb), fun hb => ⟨fun a ha => ?_, fun hn => ⟨?_, ?_⟩⟩⟩
    · exact ends_of (issue_poison s f fc fm rfl rfl rfl hb ha)
    · exact fun c a ho => ends_of (issue_stages s f fc fm rfl rfl rfl hb hn ho)
    · exact fun op ds ho => ends_of (issue_enters s f fc fm rfl rfl rfl hb hn ho)
  case signer =>
    intro s op k i th c w q hk hi hw ht hlt
    refine ⟨signedDone_eq hk hi hw ht hlt op none, fun code v => ?_⟩
    simp only [signedDone_eq hk hi hw ht hlt op (some (code, v)), sealed_some]
  case completes =>
    intro s f fc id fm op hf ho
    have hlate := exec_matrixOpComplete_late hf ho
    refine ⟨fun hl => ?_, fun hl hfree => (hlate hl).trans (congrArg _ (if_pos hfree)),
      fun hl hno => (hlate hl).trans (congrArg _ (if_neg (Bool.eq_false_iff.1 hno)))⟩
    have hdone := exec_matrixOpComplete hf ho hl
    exact ⟨fun hm => hdone.trans (congrArg _ (if_pos hm)),
      fun hno => hdone.trans (congrArg _ (if_neg (Bool.eq_false_iff.1 hno)))⟩
  case late => exact ⟨fun a => lateFree_msave_iff s f c, fun a => lateFree_mrestore_iff s f c⟩

end Sys2Proof.MatrixAndSignature

namespace Sys2Proof.MatrixAndSignature
open Sys2Proof Sys2Proof.Machine Sys2Proof.PlacesAndClauses

/-! ## What the operations of the array do (R74, R141 to R143, R344, R350, R353) -/

/-! ### Rows of the accumulators -/

/-- Rows of 64 cells written one after the other. -/
def writeRows (acc : Nat) (ps : List (Nat × List Word)) (m : SMap Word) : SMap Word :=
  ps.foldl (fun m p => SMap.setList 0 (accKey acc p.1 0) p.2 m) m

theorem accKey_add (a r j : Nat) : accKey a r j = accKey a r 0 + j := by simp only [accKey, Nat.add_zero]

/-- A cell of an accumulator or of a row that is not written keeps its value. -/
theorem get_writeRows_out {acc a r j : Nat} {ps : List (Nat × List Word)} (hr : r < 64) (hj : j < 64)
    (hps : ∀ p ∈ ps, p.1 < 64 ∧ p.2.length = 64) (hout : a = acc → ∀ p ∈ ps, p.1 ≠ r) (m : SMap Word) :
    SMap.get 0 (accKey a r j) (writeRows acc ps m) = SMap.get 0 (accKey a r j) m := by
  refine List.foldlRecOn (motive := fun x : SMap Word => SMap.get 0 (accKey a r j) x = SMap.get 0 (accKey a r j) m) _ _ rfl
    fun x hx p hp => ?_
  obtain ⟨hlt, hlen⟩ := hps p hp
  rw [SMap.get_setList_out _ _ (by unfold accKey; have := fun h => hout h p hp; omega), hx]

/-- A cell of a written row holds what was written. -/
theorem get_writeRows_in {acc r j : Nat} {row : List Word} {ps : List (Nat × List Word)} {m : SMap Word}
    (hm : SMap.wf 0 m = true) (hj : j < 64) (hps : ∀ p ∈ ps, p.1 < 64 ∧ p.2.length = 64) (hnd : (ps.map (·.1)).Nodup)
    (hp : (r, row) ∈ ps) : SMap.get 0 (accKey acc r j) (writeRows acc ps m) = row.getD j 0 := by
  induction ps generalizing m with
  | nil => simp at hp
  | cons p ps ih =>
    obtain ⟨⟨hlt, hlen⟩, htail⟩ := List.forall_mem_cons.1 hps
    rw [List.map_cons, List.nodup_cons] at hnd
    rcases List.mem_cons.1 hp with rfl | hp
    · have hout := get_writeRows_out (acc := acc) (a := acc) (ps := ps) hlt hj htail
        (fun _ q hq hqr => hnd.1 (List.mem_map.2 ⟨q, hq, hqr⟩)) (SMap.setList 0 (accKey acc r 0) row m)
      have hj' : j < row.length := hlen ▸ hj
      have hin := get_setList_in hm row (accKey acc r 0) hj'
      rw [List.getD_eq_getElem _ _ hj', ← hin, ← accKey_add]
      exact hout
    · exact ih (SMap.wf_setList _ hm) htail hnd.2 hp

/-- Rows that are made of an operation's ranks and of a list in step with them, read back by their index. -/
theorem get_writeRows_zip {β : Type} {rows : List (Nat × Sig)} {xs : List β} {m : SMap Word} {n j : Nat} (g : Nat → β → List Word)
    (acc : Nat) (hm : SMap.wf 0 m = true) (hnd : (rows.map (·.1)).Nodup) (hrows : ∀ p ∈ rows, p.1 < 64)
    (hxs : xs.length = rows.length) (hg : ∀ r, ∀ x ∈ xs, (g r x).length = 64) (hn : n < rows.length) (hj : j < 64) :
    SMap.get 0 (accKey acc ((rows.map (·.1)).getD n 64) j)
        (writeRows acc ((List.zip rows xs).map (fun p => (p.1.1, g p.1.1 p.2))) m) =
      (g ((rows.map (·.1)).getD n 64) (xs[n]'(hxs ▸ hn))).getD j 0 := by
  have hranks : ((List.zip rows xs).map (fun p => (p.1.1, g p.1.1 p.2))).map (·.1) = rows.map (·.1) := by
    rw [List.map_map, show ((fun p : Nat × List Word => p.1) ∘ fun p : (Nat × Sig) × β => (p.1.1, g p.1.1 p.2)) =
      (fun p : Nat × Sig => p.1) ∘ Prod.fst from rfl, ← List.map_map, List.map_fst_zip hxs.ge]
  have hrank : (rows.map (·.1)).getD n 64 = rows[n].1 := by
    rw [List.getD_eq_getElem _ _ (by rwa [List.length_map]), List.getElem_map]
  refine get_writeRows_in hm hj (fun p hp => ?_) (hranks ▸ hnd) (List.mem_map.2 ⟨(rows[n], xs[n]'(hxs ▸ hn)), ?_, ?_⟩)
  · obtain ⟨⟨q, x⟩, hq, rfl⟩ := List.mem_map.1 hp
    exact ⟨hrows q (List.of_mem_zip hq).1, hg _ x (List.of_mem_zip hq).2⟩
  · exact List.mem_iff_getElem.2 ⟨n, by rw [List.length_zip]; omega, List.getElem_zip⟩
  · rw [hrank]

/-! ### MZERO, MLOAD and the products -/

theorem perform_mzero (c : MCtx) {op : MOp} {acc : Fin 4} {roll : Fin 16} (h : op.ins = .mzero acc roll) :
    (c.perform op).1 = writeRows acc.val (op.rows.map (fun p => (p.1, List.replicate 64 0))) c.acc := by
  simp only [MCtx.perform, h, writeRows, List.foldl_map]

theorem perform_mload (c : MCtx) {op : MOp} {acc : Fin 4} {roll : Fin 16} {a : Reg} (h : op.ins = .mload acc roll a) :
    (c.perform op).1 = writeRows acc.val ((List.zip op.rows op.words).map (fun p => (p.1.1, p.2))) c.acc := by
  simp only [MCtx.perform, h, writeRows, List.foldl_map]

/-- A list walked with a record kept beside it. -/
theorem foldl_beside {α β γ : Type} (g : α → γ → α) (k : γ → β) (l : List γ) (x : α × List β) :
    (l.foldl (fun x p => (g x.1 p, x.2 ++ [k p])) x).1 = l.foldl g x.1 := by
  induction l generalizing x with
  | nil => rfl
  | cons p l ih => exact ih _

/-- The rows that n groups of a product leave. -/
theorem advance_fst (op : MOp) (m : SMap Word) {n : Nat} (hn : n ≠ 0) : (op.advance m n).1 =
    writeRows (productOf op.ins).2.2 ((List.zip op.rows op.a).map (fun p => (p.1.1, (op.rowSum m p.1.1 p.2 n).1))) m := by
  simp only [MOp.advance, if_neg hn, writeRows, List.foldl_map]
  generalize op.rowSum m = cells
  exact foldl_beside (fun x (p : (Nat × Sig) × List MElem) =>
    SMap.setList 0 (accKey (productOf op.ins).2.2 p.1.1 0) (cells p.1.1 p.2 n).1 x) _ _ (m, [])

theorem isProduct_cases {i : Instr} (h : isProduct i = true) : (∃ z ws x acc roll a b, i = .mma z ws x acc roll a b) ∨
    ∃ z ws x acc roll a b r kb, i = .mmconv z ws x acc roll a b r kb := by
  unfold isProduct at h
  split at h
  · exact .inl ⟨_, _, _, _, _, _, _, rfl⟩
  · exact .inr ⟨_, _, _, _, _, _, _, _, _, rfl⟩
  · cases h

theorem perform_product (c : MCtx) {op : MOp} (h : isProduct op.ins = true) :
    c.perform op = op.advance c.acc (op.groups - op.nextGroup) := by
  rcases isProduct_cases h with ⟨z, ws, x, acc, roll, a, b, hi⟩ | ⟨z, ws, x, acc, roll, a, b, r, kb, hi⟩
  · simp only [MCtx.perform, hi]
  · simp only [MCtx.perform, hi]

/-- A cell after n groups of a product: each added to what the row held, or to 0 where a product with z starts. -/
theorem rowSum_getD (op : MOp) (m : SMap Word) (rank : Nat) (a : List MElem) (n : Nat) {j : Nat} (hj : j < 64) :
    (op.rowSum m rank a n).1.getD j 0 = (addGroups op.grp op.nextGroup
      (if (productOf op.ins).1 = true ∧ op.nextGroup = 0 then 0 else SMap.get 0 (accKey (productOf op.ins).2.2 rank j) m)
      (List.zip a (column op.b j)) n).1 := by
  have hlen : j < ((op.rowSum m rank a n).1).length := by simpa [MOp.rowSum] using hj
  rw [List.getD_eq_getElem _ _ hlen]
  simp [MOp.rowSum]

theorem addGroups_succ (g lo n : Nat) (a : Word) (row : List (MElem × Val)) : (addGroups g lo a row (n + 1)).1 =
    (roundFP32 .rn ((valOfFP32 (addGroups g lo a row n).1).add false
      (exactSum ((((row.drop (g * (lo + n))).take g).map (fun p => p.1.times p.2)))))).1 := rfl

/-! ### MSTORE -/

/-- A row stored in a raw or FP32 view: its words, lowest first. -/
theorem rowWrites_plain {f : Form} {h : HallRef} (he : expanded h.seg.fmt = false) (ws : List Word) :
    rowWrites f h ws = (List.range 64).map (fun k =>
      { addr := h.sb + h.rel + 4 * k, bytes := leBytes 4 (ws.getD k 0).toNat, tag := .full }) := by
  simp only [rowWrites, he, Bool.false_eq_true, if_false]

theorem storeWrites_mstore {f : Form} (c : MCtx) {op : MOp} {acc : Fin 4} {roll : Fin 16} {ra : Reg} {rb : Src}
    {p : Nat × Sig} {h : HallRef} (hi : op.ins = .mstore acc roll ra rb) (hrows : op.rows = [p])
    (hr : resolve f.rcd p.2.a.toNat = some h) (he : expanded h.seg.fmt = false) :
    storeWrites f c op = (List.range 64).map (fun k =>
      { addr := h.sb + h.rel + 4 * k, tag := .full,
        bytes := leBytes 4 (SMap.get 0 (accKey acc.val p.2.b.toNat 0 + k) c.acc).toNat }) := by
  simp only [storeWrites, hi, hrows, List.flatMap_cons, List.flatMap_nil, List.append_nil, hr, rowWrites_plain he]
  refine List.map_congr_left fun k hk => ?_
  rw [List.getD_eq_getElem?_getD, getElem?_getList 0 c.acc _ (List.mem_range.1 hk), Option.getD_some]

/-! ### Implicit convolution (R146, R147) -/

/-- A number with a remainder below the divisor comes apart. -/
theorem mul_add_div_mod {a b c : Nat} (h : c < b) : (a * b + c) / b = a ∧ (a * b + c) % b = c :=
  (Nat.div_mod_unique (by omega)).2 ⟨by rw [Nat.mul_comm, Nat.add_comm], h⟩

/-- A pair of digits below a top one: a position in three dimensions. -/
theorem three_digits {a b c x y p : Nat} (hb : b < x) (hc : c < y) (hp : p = (a * x + b) * y + c) :
    p / (x * y) = a ∧ p / y % x = b ∧ p % y = c := by
  subst hp
  obtain ⟨hd, hm⟩ := mul_add_div_mod (a := a * x + b) hc
  obtain ⟨hd', hm'⟩ := mul_add_div_mod (a := a) hb
  rw [Nat.mul_comm x, ← Nat.div_div_eq_div_mul, hd, hm]
  exact ⟨hd', hm', rfl⟩

theorem three_digits_lt {a b c w x y : Nat} (ha : a < w) (hb : b < x) (hc : c < y) : (a * x + b) * y + c < w * x * y := by
  have hx : a * x + b < w * x := by
    calc a * x + b < a * x + x := by omega
      _ = (a + 1) * x := by ring
      _ ≤ w * x := Nat.mul_le_mul_right _ ha
  calc (a * x + b) * y + c < (a * x + b) * y + y := by omega
    _ = (a * x + b + 1) * y := by ring
    _ ≤ w * x * y := Nat.mul_le_mul_right _ hx

theorem at_skip {v : Conv} {kb kk : Nat} (p : Nat) (h : v.fh * v.fw * v.c ≤ 64 * kb + kk) : v.at_ p kb kk = .skip :=
  if_pos h

/-- The input position that an output and a filter position name (R146). -/
theorem at_eq {v : Conv} {n oy ox fh fw ch kb kk : Nat} {iy ix : Int} (hoy : oy < v.oh) (hox : ox < v.ow) (hfh : fh < v.fh)
    (hfw : fw < v.fw) (hch : ch < v.c) (hq : 64 * kb + kk = (fh * v.fw + fw) * v.c + ch)
    (hiy : (oy * v.sy : Nat) - (v.py : Int) + (fh * v.dy : Nat) = iy)
    (hix : (ox * v.sx : Nat) - (v.px : Int) + (fw * v.dx : Nat) = ix) : v.at_ ((n * v.oh + oy) * v.ow + ox) kb kk =
      if iy < 0 ∨ (v.h : Int) ≤ iy ∨ ix < 0 ∨ (v.w : Int) ≤ ix then .pad
      else .elem (((n * v.h + iy.toNat) * v.w + ix.toNat) * v.c + ch) := by
  obtain ⟨hp1, hp2, hp3⟩ := three_digits (a := n) hoy hox rfl
  obtain ⟨hq1, hq2, hq3⟩ := three_digits (a := fh) hfw hch rfl
  have hin : ¬ v.fh * v.fw * v.c ≤ (fh * v.fw + fw) * v.c + ch := Nat.not_le.2 (three_digits_lt hfh hfw hch)
  rw [Nat.mul_comm v.fw] at hq1
  subst hiy hix
  simp only [Conv.at_, hq, if_neg hin, hp1, hp2, hp3, hq1, hq2, hq3]

/-- A position of a generated row that holds an element: its value, or nothing where SP24 skips it. -/
theorem convRow_getElem? {f : Form} {v : Conv} {h : HallRef} {p kb kk i : Nat} (hk : kk < 64)
    (ha : v.at_ p kb kk = .elem i) : (convRow f v h p kb)[kk]? = some (
    if isSP24 h.seg.fmt ∧ (elemBits h.seg.fmt h.seg.geom (f.bytesAt h) (h.rel / 4 + i)).isNone then .skip
    else .val (convElem h.seg.fmt h.seg.geom (f.bytesAt h) (h.rel / 4 + i))) := by
  rw [convRow, List.getElem?_map, List.getElem?_range hk, Option.map_some, ha]

/-! ### Freezing and resuming (R153, R155) -/

/-- A context with one product freezes it after some of its groups. -/
theorem freeze_product {c : MCtx} {op : MOp} (n : Nat) (hops : c.ops = [op]) (hp : isProduct op.ins = true)
    (hg : op.nextGroup < op.groups) : (c.freeze n).1 =
    { acc := (op.advance c.acc (n % (op.groups - op.nextGroup))).1,
      rolls := c.rolls.map (fun p => (p.1, { p.2 with key := none, sigs := [] })), ops := [],
      frozen := some (some { op with nextGroup := op.nextGroup + n % (op.groups - op.nextGroup) }) } := by
  have hfind : c.ops.find? (fun o => isProduct o.ins) = some op := by simp [hops, hp]
  have hrest : c.ops.filter (fun o => o.id != op.id) = [] := by simp [hops]
  simp only [MCtx.freeze, hfind, if_pos hg, hrest]

/-- MRESTORE puts a resumed product first, with its operands read now. -/
theorem mrestore_resumes {s : State} {f fc : Nat} {fm : Form} {c0 : MCtx} {img : List Word} (o : MOp) {i : Instr}
    (hf : Tab.find? f s.forms = some fm) (hc : fm.ctxs[fc]? = some c0) (himg : imgAt img 4 % 2 = 1)
    (hi : imgInstr img = some i) : ∃ f' c1 id, Tab.find? f (s.mrestore f fc img o).forms = some f' ∧
      f'.ctxs[fc]? = some c1 ∧ c1.frozen = none ∧
      c1.ops.head? = some (productOp s fm id i (imgRows f i img) (bitsOf (imgAt img 4) 12 8)) := by
  obtain ⟨hlen, -⟩ := List.getElem?_eq_some_iff.1 hc
  simp only [State.mrestore, hf, if_pos himg, hi, List.cons_append, List.nil_append]
  obtain ⟨f', hf', hc'⟩ := find?_modCtx_const (t := s.fresh) hf hlen _
  exact ⟨f', _, _, hf', hc', rfl, rfl⟩

theorem arrayResults_hold : arrayResults := by
  refine ⟨fun c op hm hnd hrows => ?cells, fun g lo n a row => ⟨rfl, addGroups_succ g lo n a row⟩,
    fun f c op acc roll ra rb p h => storeWrites_mstore c, ?positions, fun v p kb kk => at_skip p, ?rows, ?freeze,
    fun s f fc fm c0 img o i => mrestore_resumes o⟩
  case cells =>
    intro rank cell
    refine ⟨fun acc roll hi a r j _ hr hj => ?zero, fun acc roll ra hi hlen hws n hn j hj => ?load,
      fun hp hg hlen => ?product⟩
    case zero =>
      have hps : ∀ p ∈ op.rows.map (fun p => (p.1, List.replicate 64 (0 : Word))), p.1 < 64 ∧ p.2.length = 64 :=
        List.forall_mem_map.2 fun p hp => ⟨hrows p hp, List.length_replicate⟩
      rw [perform_mzero c hi]
      split
      next hin =>
        obtain ⟨rfl, p, hp, rfl⟩ := hin
        rw [get_writeRows_in hm hj hps (by simpa [Function.comp_def] using hnd) (List.mem_map.2 ⟨p, hp, rfl⟩),
          List.getD_eq_getElem _ _ (by simpa using hj), List.getElem_replicate]
      next hout =>
        refine get_writeRows_out hr hj hps (fun ha p hp hpr => hout ⟨ha, ?_⟩) _
        obtain ⟨q, hq, rfl⟩ := List.mem_map.1 hp
        exact ⟨q, hq, hpr⟩
    case load =>
      have hget := get_writeRows_zip (fun _ w => w) acc.val hm hnd hrows hlen (fun _ => hws) hn hj
      rw [← perform_mload c hi] at hget
      rw [List.getD_eq_getElem _ _ (hn.trans_eq hlen.symm)]
      exact hget
    case product =>
      intro z acc n hn j hj old
      have hget := get_writeRows_zip (fun r x => (op.rowSum c.acc r x (op.groups - op.nextGroup)).1) acc hm hnd hrows hlen
        (fun r x _ => by simp [MOp.rowSum]) hn hj
      rw [← advance_fst op c.acc (by omega), ← perform_product c hp, rowSum_getD _ _ _ _ _ hj] at hget
      rw [List.getD_eq_getElem _ _ (hn.trans_eq hlen.symm)]
      exact hget
  case positions =>
    intro v n oy ox fh fw ch kb kk hoy hox hfh hfw hch hq p iy ix
    have hat := at_eq (n := n) hoy hox hfh hfw hch hq (iy := iy) (ix := ix) rfl rfl
    refine ⟨fun h1 h2 h3 h4 => hat.trans (if_neg (by omega)), fun hout => hat.trans (if_pos hout)⟩
  case rows =>
    intro f v h p kb kk i hk ha k kept
    have hrow := convRow_getElem? (f := f) (h := h) hk ha
    refine ⟨fun hs hn => hrow.trans (congrArg _ (if_pos ⟨hs, Option.isNone_iff_eq_none.2 hn⟩)),
      fun hno => hrow.trans (congrArg _ (if_neg fun ⟨hs, hn⟩ => ?_))⟩
    exact hno.elim (by simp [hs]) (absurd (Option.isNone_iff_eq_none.1 hn))
  case freeze =>
    intro c n op hops hp hg k z
    have hz : z = _ := freeze_product n hops hp hg
    rw [hz]
    refine ⟨rfl, rfl, rfl, fun x hx => ?_⟩
    obtain ⟨y, -, rfl⟩ := List.mem_map.1 hx
    exact ⟨rfl, rfl⟩

end Sys2Proof.MatrixAndSignature

namespace Sys2Proof.MatrixAndSignature
open Sys2Proof Sys2Proof.Machine Sys2Proof.WorkAndItsShape Sys2Proof.PlacesAndClauses Sys2Proof.Numbers

/-! ## The signature stage (R150, R152, R378, R380) -/

/-! ### Buckets: one for each value presented, in the order of the ranks (R150) -/

theorem eraseDups_concat {α : Type} [DecidableEq α] (l : List α) (x : α) :
    (l ++ [x]).eraseDups = if x ∈ l then l.eraseDups else l.eraseDups ++ [x] := by
  rw [List.eraseDups_append]
  by_cases h : x ∈ l <;> simp [List.removeAll, h, List.eraseDups_cons]

theorem nodup_eraseDups {α : Type} [DecidableEq α] (l : List α) : l.eraseDups.Nodup := by
  induction l using List.reverseRecOn with
  | nil => exact List.nodup_nil
  | append_singleton l x ih =>
    rw [eraseDups_concat]
    split
    next => exact ih
    next h => exact List.nodup_append.2 ⟨ih, List.nodup_singleton x, by
      rintro y hy z hz rfl
      exact h (List.mem_singleton.1 hz ▸ List.mem_eraseDups.1 hy)⟩

/-- The values that signers present, each once, in the order of the ranks. -/
def values (rows : List (Nat × Sig)) : List Word := (rows.map (fun p => p.2.a)).eraseDups

/-- The signers that present a value. -/
def presenters (rows : List (Nat × Sig)) (v : Word) : List (Nat × Sig) := rows.filter (fun p => p.2.a == v)

theorem values_nodup (rows : List (Nat × Sig)) : (values rows).Nodup := nodup_eraseDups _

theorem mem_values {rows : List (Nat × Sig)} {v : Word} : v ∈ values rows ↔ ∃ p ∈ rows, p.2.a = v := by
  rw [values, List.mem_eraseDups, List.mem_map]

theorem mem_presenters {rows : List (Nat × Sig)} {v : Word} {p : Nat × Sig} :
    p ∈ presenters rows v ↔ p ∈ rows ∧ p.2.a = v := by
  rw [presenters, List.mem_filter, beq_iff_eq]

/-- The first presenter of a value among those that are presented. -/
theorem presenters_head? {rows : List (Nat × Sig)} {v : Word} (h : v ∈ values rows) :
    ∃ q r, presenters rows v = q :: r ∧ q.2.a = v := by
  obtain ⟨p, hp⟩ := mem_values.1 h
  cases hq : presenters rows v with
  | nil => exact absurd (mem_presenters.2 hp) (by simp [hq])
  | cons q r => exact ⟨q, r, rfl, (mem_presenters.1 (hq ▸ List.mem_cons_self : q ∈ presenters rows v)).2⟩

theorem presenters_concat (rows : List (Nat × Sig)) (p : Nat × Sig) (v : Word) :
    presenters (rows ++ [p]) v = presenters rows v ++ (if p.2.a = v then [p] else []) := by
  rw [presenters, List.filter_append, List.filter_singleton]
  simp [presenters]

/-- Whether a bucket is that of a value. -/
def bucketOf (v : Word) (b : List (Nat × Sig)) : Bool := match b with | q :: _ => q.2.a == v | [] => false

theorem bucketOf_presenters {rows : List (Nat × Sig)} {u : Word} (h : u ∈ values rows) (v : Word) :
    bucketOf v (presenters rows u) = (u == v) := by
  obtain ⟨q, r, hq, rfl⟩ := presenters_head? h
  rw [hq]
  rfl

/-- A signer joins the bucket of its value, or begins one. -/
def joinBucket (bs : List (List (Nat × Sig))) (p : Nat × Sig) : List (List (Nat × Sig)) :=
  match bs.findIdx? (bucketOf p.2.a) with
  | some j => bs.modify j (· ++ [p])
  | none => bs ++ [[p]]

theorem buckets_concat (rows : List (Nat × Sig)) (p : Nat × Sig) : buckets (rows ++ [p]) = joinBucket (buckets rows) p :=
  List.foldl_concat _ _ _ _

/-- A bucket of another value stays as it is. -/
theorem map_presenters_concat {rows : List (Nat × Sig)} {p : Nat × Sig} {vs : List Word} (h : p.2.a ∉ vs) :
    vs.map (presenters (rows ++ [p])) = vs.map (presenters rows) :=
  List.map_congr_left fun v hv => by rw [presenters_concat, if_neg fun hp : p.2.a = v => h (hp ▸ hv), List.append_nil]

/-- The bucket of a value presented before is found, and takes the signer. -/
theorem joinBucket_found {rows : List (Nat × Sig)} {p : Nat × Sig} {vs : List Word} (hvs : ∀ v ∈ vs, v ∈ values rows)
    (hnd : vs.Nodup) (hp : p.2.a ∈ vs) : ∃ j, (vs.map (presenters rows)).findIdx? (bucketOf p.2.a) = some j ∧
      (vs.map (presenters rows)).modify j (· ++ [p]) = vs.map (presenters (rows ++ [p])) := by
  induction vs with
  | nil => simp at hp
  | cons v vs ih =>
    obtain ⟨hv, hvs⟩ := List.forall_mem_cons.1 hvs
    obtain ⟨hout, hnd⟩ := List.nodup_cons.1 hnd
    rw [List.map_cons, List.findIdx?_cons, bucketOf_presenters hv]
    by_cases h : v = p.2.a
    · refine ⟨0, by simp [h], ?_⟩
      rw [List.modify_zero_cons, List.map_cons, presenters_concat, if_pos h.symm, map_presenters_concat (h ▸ hout)]
    · obtain ⟨j, hj, hmod⟩ := ih hvs hnd ((List.mem_cons.1 hp).resolve_left (Ne.symm h))
      refine ⟨j + 1, by simp [h, hj], ?_⟩
      rw [List.modify_succ_cons, List.map_cons, presenters_concat, if_neg (Ne.symm h), List.append_nil, hmod]

theorem buckets_eq (rows : List (Nat × Sig)) : buckets rows = (values rows).map (presenters rows) := by
  induction rows using List.reverseRecOn with
  | nil => rfl
  | append_singleton rows p ih =>
    have hval : values (rows ++ [p]) = if p.2.a ∈ values rows then values rows else values rows ++ [p.2.a] := by
      simp only [values, List.map_append, List.map_cons, List.map_nil, eraseDups_concat, List.mem_eraseDups]
    rw [buckets_concat, ih, hval, joinBucket]
    by_cases hp : p.2.a ∈ values rows
    · obtain ⟨j, hj, hmod⟩ := joinBucket_found (fun _ h => h) (values_nodup rows) hp
      rw [if_pos hp, hj, ← hmod]
    · have hnone : ((values rows).map (presenters rows)).findIdx? (bucketOf p.2.a) = none := by
        rw [List.findIdx?_eq_none_iff, List.forall_mem_map]
        intro v hv
        rw [bucketOf_presenters hv]
        exact beq_false_of_ne fun h => hp (h ▸ hv)
      have hnew : presenters rows p.2.a = [] :=
        List.eq_nil_iff_forall_not_mem.2 fun q hq => hp (mem_values.2 ⟨q, mem_presenters.1 hq⟩)
      rw [if_neg hp, hnone, List.map_append, map_presenters_concat hp, List.map_singleton, presenters_concat, if_pos rfl, hnew]
      rfl

theorem mem_buckets {rows b : List (Nat × Sig)} : b ∈ buckets rows ↔ ∃ v ∈ values rows, presenters rows v = b := by
  rw [buckets_eq, List.mem_map]

/-- The presenters of one value are a bucket, and every bucket is that of a value. -/
theorem buckets_are_presenters (rows : List (Nat × Sig)) (v : Word) :
    (presenters rows v ≠ [] → presenters rows v ∈ buckets rows) ∧
    ∀ b ∈ buckets rows, ∃ w, b = presenters rows w ∧ b ≠ [] := by
  refine ⟨fun hne => ?_, fun b hb => ?_⟩
  · obtain ⟨q, hq⟩ := List.exists_mem_of_ne_nil _ hne
    exact mem_buckets.2 ⟨v, mem_values.2 ⟨q, mem_presenters.1 hq⟩, rfl⟩
  · obtain ⟨w, hw, rfl⟩ := mem_buckets.1 hb
    obtain ⟨q, r, hq, -⟩ := presenters_head? hw
    exact ⟨w, rfl, by simp [hq]⟩

/-- A bucket by its index: the presenters of the value with that index. -/
theorem buckets_getElem? {rows b : List (Nat × Sig)} {j : Nat} (h : (buckets rows)[j]? = some b) :
    ∃ v, (values rows)[j]? = some v ∧ presenters rows v = b := by
  rwa [buckets_eq, List.getElem?_map, Option.map_eq_some_iff] at h

/-- A signer stands in one bucket only. -/
theorem bucket_unique {rows b c : List (Nat × Sig)} {j k : Nat} {p : Nat × Sig} (hj : (buckets rows)[j]? = some b)
    (hk : (buckets rows)[k]? = some c) (hb : p ∈ b) (hc : p ∈ c) : j = k ∧ b = c := by
  obtain ⟨v, hv, rfl⟩ := buckets_getElem? hj
  obtain ⟨w, hw, rfl⟩ := buckets_getElem? hk
  obtain rfl : v = w := (mem_presenters.1 hb).2.symm.trans (mem_presenters.1 hc).2
  obtain ⟨hlt, -⟩ := List.getElem?_eq_some_iff.1 hv
  exact ⟨(List.getElem?_inj hlt (values_nodup rows)).1 (hv.trans hw.symm), rfl⟩

theorem mem_rows_of_bucket {rows b : List (Nat × Sig)} {p : Nat × Sig} (hb : b ∈ buckets rows) (hp : p ∈ b) : p ∈ rows := by
  obtain ⟨v, -, rfl⟩ := mem_buckets.1 hb
  exact (mem_presenters.1 hp).1

/-! ### Map words -/

/-- A key whose entries agree reads as any of them. -/
theorem lookup_eq_of_unique {β : Type} {k : Nat} {v : β} {l : List (Nat × β)} (h : (k, v) ∈ l)
    (hu : ∀ w, (k, w) ∈ l → w = v) : l.lookup k = some v := by
  induction l with
  | nil => simp at h
  | cons x l ih =>
    obtain ⟨j, w⟩ := x
    by_cases hj : k = j
    · subst hj
      rw [List.lookup_cons_self, hu w List.mem_cons_self]
    · rw [List.lookup_cons, beq_false_of_ne hj]
      exact ih ((List.mem_cons.1 h).resolve_left fun e => hj (congrArg Prod.fst e))
        fun w hw => hu w (List.mem_cons_of_mem _ hw)

section Buckets
variable {o : MOp} {m : Rep} {d a : Reg} {roll : Fin 16} {rb : Src} {sS sL : Fin 384} {off : Fin 64}
  (ho : o.ins = .sgbkt m d roll a rb sS sL off)
include ho

theorem mem_mapWords {k : Nat} {w : Word} : (k, w) ∈ o.mapWords ↔ ∃ j b p, (buckets o.rows)[j]? = some b ∧ p ∈ b ∧
    p.1 = k ∧ BitVec.ofNat 32 (off.val + j + o.repOf m b * 256 + b.length * 65536) = w := by
  simp only [MOp.mapWords, MOp.staging, ho, List.mem_flatMap, List.mem_map, Prod.mk.injEq]
  constructor
  · rintro ⟨⟨b, j⟩, hj, p, hp, hk, hw⟩
    exact ⟨j, b, p, List.mem_zipIdx_iff_getElem?.1 hj, hp, hk, hw⟩
  · rintro ⟨j, b, p, hj, hp, hk, hw⟩
    exact ⟨(b, j), List.mem_zipIdx_iff_getElem?.2 hj, p, hp, hk, hw⟩

/-- A signer's map word: the index of its bucket, its representative and its size (R150). -/
theorem mapWords_lookup {j : Nat} {b : List (Nat × Sig)} {p : Nat × Sig} (hnd : (o.rows.map (·.1)).Nodup)
    (hj : (buckets o.rows)[j]? = some b) (hp : p ∈ b) :
    o.mapWords.lookup p.1 = some (BitVec.ofNat 32 (off.val + j + o.repOf m b * 256 + b.length * 65536)) := by
  refine lookup_eq_of_unique ((mem_mapWords ho).2 ⟨j, b, p, hj, hp, rfl, rfl⟩) fun w hw => ?_
  obtain ⟨k, c, q, hk, hq, hqp, rfl⟩ := (mem_mapWords ho).1 hw
  obtain rfl : q = p := List.inj_on_of_nodup_map hnd (mem_rows_of_bucket (List.mem_of_getElem? hk) hq)
    (mem_rows_of_bucket (List.mem_of_getElem? hj) hp) hqp
  obtain ⟨rfl, rfl⟩ := bucket_unique hj hk hp hq
  rfl

/-- SGBKT's first write is its map, in which a rank without a signer has 0. -/
theorem bucketWrites_head? {f : Form} {p : Nat × Sig} {r : List (Nat × Sig)} {h : HallRef} (hrows : o.rows = p :: r)
    (hr : resolve f.rcd p.2.b.toNat = some h) : (o.bucketWrites f).head? = some
      { addr := h.sb + h.rel, bytes := (List.range o.set.2).flatMap (fun k => leBytes 4 ((o.mapWords.lookup k).getD 0).toNat),
        tag := .full } := by
  simp only [MOp.bucketWrites, MOp.staging, ho, hrows, hr, List.flatMap_map, List.cons_append, List.head?_cons]

end Buckets

/-! ### Representatives -/

theorem lt_trans_val {x y z : Val} (hxy : x.lt y = true) (hyz : y.lt z = true) : x.lt z = true := by
  cases x with
  | nan => simp [Val.lt] at hxy
  | inf s =>
    cases y with
    | nan => simp [Val.lt] at hxy
    | inf t => cases z <;> simp_all [Val.lt]
    | fin t n f => cases z <;> simp_all [Val.lt]
  | fin s m e =>
    cases y with
    | nan => simp [Val.lt] at hxy
    | inf t => cases z <;> simp_all [Val.lt]
    | fin t n f =>
      cases z with
      | nan => simp [Val.lt] at hyz
      | inf u => simpa [Val.lt] using hyz
      | fin u k g =>
        rw [lt_fin_iff] at hxy hyz ⊢
        exact hxy.trans hyz

theorem lt_irrefl_val (x : Val) : x.lt x = false := by
  cases x with
  | nan => rfl
  | inf s => cases s <;> rfl
  | fin s m e => simp [Val.lt]

theorem ne_nan_of_lt_right {x y : Val} (h : x.lt y = true) : y ≠ .nan := by
  rintro rfl
  cases x <;> simp [Val.lt] at h

/-- A number before NaN, and a larger number before a smaller one (R150). -/
def outranks (x y : Val) : Bool := (y == .nan && x != .nan) || y.lt x

theorem outranks_iff {x y : Val} : outranks x y = true ↔ (y = .nan ∧ x ≠ .nan) ∨ y.lt x = true := by
  simp [outranks]

theorem outranks_irrefl (x : Val) : ¬ outranks x x = true := by
  rw [outranks_iff, lt_irrefl_val]
  simp

theorem outranks_trans {x y z : Val} (hxy : outranks x y = true) (hyz : outranks y z = true) : outranks x z = true := by
  rw [outranks_iff] at *
  rcases hxy with ⟨hy, -⟩ | hxy
  · rcases hyz with ⟨-, hy'⟩ | hyz
    · exact absurd hy hy'
    · exact absurd hy (ne_nan_of_lt_right hyz)
  · rcases hyz with ⟨hz, -⟩ | hyz
    · exact .inl ⟨hz, ne_nan_of_lt_right hxy⟩
    · exact .inr (lt_trans_val hyz hxy)

/-- The norm that a member presented. -/
def presentedNorm (o : MOp) (p : Nat × Sig) : Val := valOfFP32 (normOf (o.wordsOf p.1))

theorem maxNormOf_cons (o : MOp) (p : Nat × Sig) (r : List (Nat × Sig)) : maxNormOf o (p :: r) =
    some (r.foldl (better fun x y => outranks (presentedNorm o x) (presentedNorm o y) = true) p) := by
  refine congrArg some (congrArg (fun g => r.foldl g p) (funext fun m => funext fun q => ?_))
  simp only [better, outranks, Bool.or_eq_true]
  exact (ite_or _ _ _ _).symm

/-- The member of the largest norm is one that no member outranks. -/
theorem maxNormOf_spec {o : MOp} {b : List (Nat × Sig)} {p : Nat × Sig} (h : maxNormOf o b = some p) :
    p ∈ b ∧ ∀ q ∈ b, ¬ outranks (presentedNorm o q) (presentedNorm o p) = true := by
  cases b with
  | nil => cases h
  | cons x r =>
    rw [maxNormOf_cons, Option.some.injEq] at h
    subst h
    exact foldl_better (r := fun x y => outranks (presentedNorm o x) (presentedNorm o y) = true)
      (fun _ => outranks_irrefl _) (fun _ _ _ => outranks_trans) r x

theorem repOf_first {m : Rep} (o : MOp) (b : List (Nat × Sig)) (hm : m ≠ .maxnorm) :
    o.repOf m b = (b.map (·.1)).headD 0 := by
  cases m with
  | maxnorm => exact absurd rfl hm
  | _ => rfl

theorem repOf_maxnorm {o : MOp} {b : List (Nat × Sig)} {p : Nat × Sig} (h : maxNormOf o b = some p) :
    o.repOf .maxnorm b = p.1 := by
  simp only [MOp.repOf, h, Option.map_some, Option.getD_some]

end Sys2Proof.MatrixAndSignature

namespace Sys2Proof.MatrixAndSignature
open Sys2Proof Sys2Proof.Machine Sys2Proof.WorkAndItsShape Sys2Proof.PlacesAndClauses

/-! ## Staging rows, leader masks and sums (R143, R150, R152, R378) -/

/-! ### Sums and means of rows -/

theorem sumRows_map (o : MOp) (b : List (Nat × Sig)) : sumRows (b.map (fun p => o.wordsOf p.1)) =
    (List.range 64).map (fun k => b.foldl (fun s p => rnAdd s ((o.wordsOf p.1).getD k 0)) (0 : Word)) := by
  simp only [sumRows, List.foldl_map]

theorem meanRows_map (o : MOp) (b : List (Nat × Sig)) : meanRows (b.map (fun p => o.wordsOf p.1)) =
    (List.range 64).map (fun k => rnDiv (valOfFP32
      (b.foldl (fun s p => rnAdd s ((o.wordsOf p.1).getD k 0)) (0 : Word))) b.length) := by
  simp only [meanRows, sumRows_map, List.map_map, List.length_map, Function.comp_def]

/-! ### Staging rows -/

theorem copied_other {m : Rep} (o : MOp) (f : Form) (b : List (Nat × Sig)) (h : HallRef) (hm : m ≠ .maxnorm) :
    o.copied f m b h = none := if_neg hm

theorem copied_maxnorm {o : MOp} {b : List (Nat × Sig)} {p : Nat × Sig} (f : Form) (h : HallRef) (hp : maxNormOf o b = some p) :
    o.copied f .maxnorm b h = if sameFormat f p h then some p else none := by
  simp only [MOp.copied, if_true, hp, Option.filter_some]

theorem stageRow_first (f : Form) (o : MOp) (b : List (Nat × Sig)) (a : Nat) : o.stageRow f .first b a = [] := by
  unfold MOp.stageRow
  cases resolve f.rcd a <;> rfl

theorem stageRow_mean {f : Form} {a : Nat} {h : HallRef} (o : MOp) (b : List (Nat × Sig)) (hr : resolve f.rcd a = some h) :
    o.stageRow f .mean b a = rowBlocks f h (meanRows (b.map (fun p => o.wordsOf p.1))) := by
  simp only [MOp.stageRow, hr]

theorem stageCheck_first (f : Form) (o : MOp) (b : List (Nat × Sig)) (a : Nat) : o.stageCheck f .first b a = .ok () := by
  simp only [MOp.stageCheck, if_true]

theorem stageCheck_mean (f : Form) (o : MOp) (b : List (Nat × Sig)) (a : Nat) :
    o.stageCheck f .mean b a = (rowStore f a (rowUnits f true)).map (fun _ => ()) := by
  have hraw : ∀ h, (o.copied f .mean b h).isSome = false := fun h => by rw [copied_other o f b h (by decide)]; rfl
  unfold MOp.stageCheck
  cases resolve f.rcd a with
  | none => rfl
  | some h =>
    simp only [hraw, Bool.false_eq_true, if_false]
    rfl

section Largest
variable {f : Form} {o : MOp} {a : Nat} {b : List (Nat × Sig)} {p : Nat × Sig} {h : HallRef} (hp : maxNormOf o b = some p)
  (hr : resolve f.rcd a = some h)
include hp hr

/-- A row of the largest norm is staged as it is where the formats agree. -/
theorem stageRow_same (hs : sameFormat f p h = true) :
    o.stageRow f .maxnorm b a = [{ addr := rowAt h, bytes := o.rawOf p.1, tag := .full }] := by
  simp only [MOp.stageRow, hr, copied_maxnorm f h hp, hs, if_true]

theorem stageCheck_same (hs : sameFormat f p h = true) : o.stageCheck f .maxnorm b a = (rowStore f a (fun h =>
    [(List.range (rowBytes h.seg.fmt h.seg.geom)).map (· + rowAt h)]) true).map (fun _ => ()) := by
  simp only [MOp.stageCheck, hr, copied_maxnorm f h hp, hs, if_true, Option.isSome_some]
  rfl

theorem stageRow_converted (hs : sameFormat f p h = false) :
    o.stageRow f .maxnorm b a = rowBlocks f h (o.wordsOf p.1) := by
  simp only [MOp.stageRow, hr, copied_maxnorm f h hp, hs, hp, Bool.false_eq_true, if_false, Option.map_some, Option.getD_some]

theorem stageCheck_converted (hs : sameFormat f p h = false) :
    o.stageCheck f .maxnorm b a = (rowStore f a (rowUnits f true)).map (fun _ => ()) := by
  simp only [MOp.stageCheck, hr, copied_maxnorm f h hp, hs, Bool.false_eq_true, if_false, Option.isSome_none]
  rfl

end Largest

/-! ### The rows that signers present, read at the issue -/

theorem fetch_sgbkt (s : State) (f : Form) {o : MOp} {m : Rep} {d a : Reg} {roll : Fin 16} {rb : Src} {sS sL : Fin 384}
    {off : Fin 64} (ho : o.ins = .sgbkt m d roll a rb sS sL off) (hm : m ≠ .first) :
    (o.fetch s f).words = o.rows.map (fun p => fpRow f (p.2.extra.getD 0 0)) ∧
    (o.fetch s f).raw = o.rows.map (fun p => rawRow f (p.2.extra.getD 0 0)) := by
  cases m with
  | first => exact absurd rfl hm
  | mean => simp only [MOp.fetch, ho, and_self]
  | maxnorm => simp only [MOp.fetch, ho, and_self]

theorem fetch_sgsum (s : State) (f : Form) {o : MOp} {mean : Bool} {roll : Fin 16} {a : Reg} {sS : Fin 384} {gm : Reg}
    (ho : o.ins = .sgsum mean roll a sS gm) : (o.fetch s f).words = o.rows.map (fun p => fpRow f p.2.a) := by
  simp only [MOp.fetch, ho]

/-- What stands in step with a rank is found by the rank. -/
theorem find?_zip_rank {β : Type} {rows : List (Nat × Sig)} {xs : List β} {j : Nat} {p : Nat × Sig} {x : β}
    (hnd : (rows.map (·.1)).Nodup) (hp : rows[j]? = some p) (hx : xs[j]? = some x) :
    (List.zip rows xs).find? (fun q => q.1.1 == p.1) = some (p, x) := by
  induction rows generalizing xs j with
  | nil => simp at hp
  | cons q rows ih =>
    obtain ⟨hout, hnd⟩ := List.nodup_cons.1 hnd
    cases xs with
    | nil => simp at hx
    | cons y xs =>
      cases j with
      | zero =>
        obtain rfl : q = p := by simpa using hp
        obtain rfl : y = x := by simpa using hx
        simp
      | succ j =>
        rw [List.getElem?_cons_succ] at hp hx
        have hne : q.1 ≠ p.1 := fun h => hout (List.mem_map.2 ⟨p, List.mem_of_getElem? hp, h.symm⟩)
        rw [List.zip_cons_cons, List.find?_cons_of_neg (by simpa using hne)]
        exact ih hnd hp hx

section Ranks
variable {o : MOp} {j : Nat} {p : Nat × Sig} (hnd : (o.rows.map (·.1)).Nodup) (hp : o.rows[j]? = some p)
include hnd hp

theorem wordsOf_eq {w : List Word} (hw : o.words[j]? = some w) : o.wordsOf p.1 = w := by
  simp only [MOp.wordsOf, find?_zip_rank hnd hp hw, Option.map_some, Option.getD_some]

theorem rawOf_eq {r : List Byte} (hr : o.raw[j]? = some r) : o.rawOf p.1 = r := by
  simp only [MOp.rawOf, find?_zip_rank hnd hp hr, Option.map_some, Option.getD_some]

end Ranks

/-! ### The leader mask -/

/-- A sum of distinct powers of two has the bits of its exponents. -/
theorem testBit_sum_two_pow {es : List Nat} (h : es.Nodup) (i : Nat) : (es.map (2 ^ ·)).sum.testBit i = true ↔ i ∈ es := by
  rw [← List.sum_toFinset _ h, ← Nat.mem_bitIndices, ← List.mem_toFinset, Finset.toFinset_bitIndices_sum_two_pow,
    List.mem_toFinset]

/-- The leaders of a round: the first member of each bucket (R150). -/
def heads (rows : List (Nat × Sig)) : List (Nat × Sig) := (buckets rows).filterMap (·.head?)

theorem mem_heads {rows : List (Nat × Sig)} {p : Nat × Sig} : p ∈ heads rows ↔ ∃ b ∈ buckets rows, b.head? = some p :=
  List.mem_filterMap

theorem mem_rows_of_heads {rows : List (Nat × Sig)} {p : Nat × Sig} (h : p ∈ heads rows) : p ∈ rows := by
  obtain ⟨b, hb, hp⟩ := mem_heads.1 h
  exact mem_rows_of_bucket hb (List.mem_of_mem_head? hp)

/-- The leaders present each value once. -/
theorem heads_map (rows : List (Nat × Sig)) : (heads rows).map (fun p => p.2.a) = values rows := by
  have hhead : ∀ v ∈ values rows, ((presenters rows v).head?).map (fun p => p.2.a) = some v := fun v hv => by
    obtain ⟨q, r, hq, rfl⟩ := presenters_head? hv
    rw [hq, List.head?_cons, Option.map_some]
  rw [heads, buckets_eq, List.filterMap_map, List.map_filterMap]
  exact (List.filterMap_congr hhead).trans List.filterMap_some

/-- The leader mask as one number. -/
def leaderSum (o : MOp) : Nat :=
  (heads o.rows).foldl (fun (n : Nat) (p : Nat × Sig) => n + 2 ^ (p.2.thread % 4096 - o.set.1)) 0

theorem leaders_bit {o : MOp} {i : Nat} (hi : i < 64) (hnd : (o.rows.map (fun p => p.2.thread % 4096)).Nodup)
    (hset : ∀ p ∈ o.rows, o.set.1 ≤ p.2.thread % 4096) :
    (o.leaders.getD (i / 32) 0).getLsbD (i % 32) = true ↔
      ∃ b ∈ buckets o.rows, ∃ p, b.head? = some p ∧ p.2.thread % 4096 = o.set.1 + i := by
  have hheads : (heads o.rows).Nodup := .of_map (fun p : Nat × Sig => p.2.a) (heads_map o.rows ▸ values_nodup o.rows)
  have hexp : ((heads o.rows).map (fun p => p.2.thread % 4096 - o.set.1)).Nodup :=
    List.Nodup.map_on (fun p hp q hq hpq => by
      have hp' := mem_rows_of_heads hp
      have hq' := mem_rows_of_heads hq
      have := hset p hp'
      have := hset q hq'
      exact List.inj_on_of_nodup_map hnd hp' hq' (by omega)) hheads
  have hsum : leaderSum o = (((heads o.rows).map (fun p => p.2.thread % 4096 - o.set.1)).map (2 ^ ·)).sum := by
    rw [leaderSum, List.sum_eq_foldl_nat, List.foldl_map, List.foldl_map]
  have hword : (o.leaders.getD (i / 32) 0).getLsbD (i % 32) = (leaderSum o).testBit i := by
    have hmod : i % 32 < 32 := Nat.mod_lt _ (by decide)
    rcases Nat.lt_or_ge i 32 with h | h
    · rw [Nat.div_eq_of_lt h, Nat.mod_eq_of_lt h]
      exact (BitVec.getLsbD_ofNat _ _ _).trans (by rw [decide_eq_true h, Bool.true_and]; rfl)
    · rw [show i / 32 = 1 by omega]
      refine (BitVec.getLsbD_ofNat _ _ _).trans ?_
      rw [Nat.testBit_div_two_pow, show i % 32 + 32 = i by omega, decide_eq_true hmod, Bool.true_and]
      rfl
  rw [hword, hsum, testBit_sum_two_pow hexp, List.mem_map]
  constructor
  · rintro ⟨p, hp, hpi⟩
    obtain ⟨b, hb, hbp⟩ := mem_heads.1 hp
    exact ⟨b, hb, p, hbp, by have := hset p (mem_rows_of_heads hp); omega⟩
  · rintro ⟨b, hb, p, hbp, hpi⟩
    exact ⟨p, mem_heads.2 ⟨b, hb, hbp⟩, by omega⟩

theorem bench_modBench_ne (f : Form) {b j : Nat} (h : b ≠ j) (g : Bench → Bench) : (f.modBench b g).bench j = f.bench j := by
  simp [Form.bench, Form.modBench, List.getD_eq_getElem?_getD, List.getElem?_modify_ne _ _ h]

theorem bench_modBench_same {f : Form} {j : Nat} (h : j < f.benches.length) (g : Bench → Bench) :
    (f.modBench j g).bench j = g (f.bench j) := by
  simp [Form.bench, Form.modBench, List.getD_eq_getElem?_getD, h]

/-- One change to each of some benches reaches each of them. -/
theorem bench_foldl_modBench (g : Bench → Bench) {bs : List Nat} (hnd : bs.Nodup) {j : Nat} (hj : j ∈ bs) {f : Form}
    (hlt : j < f.benches.length) : (bs.foldl (fun f b => f.modBench b g) f).bench j = g (f.bench j) := by
  have hkeep : ∀ (l : List Nat) (f : Form), j ∉ l → (l.foldl (fun f b => f.modBench b g) f).bench j = f.bench j :=
    fun l f hl => List.foldlRecOn (motive := fun x : Form => x.bench j = f.bench j) _ _ rfl fun x hx b hb =>
      (bench_modBench_ne x (fun h : b = j => hl (h ▸ hb)) g).trans hx
  induction bs generalizing f with
  | nil => simp at hj
  | cons b bs ih =>
    obtain ⟨hout, hnd⟩ := List.nodup_cons.1 hnd
    rw [List.foldl_cons]
    rcases List.mem_cons.1 hj with rfl | hj
    · rw [hkeep bs _ hout, bench_modBench_same hlt]
    · rw [ih hnd hj (by simpa [Form.modBench] using hlt), bench_modBench_ne f (fun h : b = j => hout (h ▸ hj))]

/-- The leader mask reaches the bench of every signer (R150, R378). -/
theorem putMasks_bench {s : State} {f : Form} {op : MOp} {m : Rep} {d a : Reg} {roll : Fin 16} {rb : Src} {sS sL : Fin 384}
    {off : Fin 64} {p : Nat × Sig} {th : Thread} (ho : op.ins = .sgbkt m d roll a rb sS sL off) (hp : p ∈ op.rows)
    (ht : Tab.find? p.2.thread s.threads = some th) (hlt : th.bench < f.benches.length) :
    ((f.putMasks s op).bench th.bench).s = SMap.setList 0 sL.val op.leaders (f.bench th.bench).s := by
  have hmem : th.bench ∈ (op.rows.filterMap (fun p => (Tab.find? p.2.thread s.threads).map (·.bench))).dedup :=
    List.mem_dedup.2 (List.mem_filterMap.2 ⟨p, hp, by rw [ht, Option.map_some]⟩)
  simp only [Form.putMasks, ho, bench_foldl_modBench _ (List.nodup_dedup _) hmem hlt]

/-! ### SGSUM -/

theorem sums_eq {f : Form} {o : MOp} {c base : Word} {h : HallRef} (mean : Bool) (hne : o.rows ≠ [])
    (hrows : ∀ p ∈ o.rows, p.2.extra = [c, base]) (hr : resolve f.rcd (base.toNat + 256 * c.toNat) = some h) :
    o.sums f mean = rowBlocks f h (if mean then meanRows (o.rows.map (fun p => o.wordsOf p.1))
      else sumRows (o.rows.map (fun p => o.wordsOf p.1))) := by
  have hkeys : (o.rows.map (fun p => (p.2.extra.getD 0 0).toNat)).dedup = [c.toNat] := by
    rw [List.map_congr_left (g := fun _ => c.toNat) fun p hp => by rw [hrows p hp]; rfl, List.map_const',
      List.replicate_dedup (by simpa using hne)]
  have hall : o.rows.filter (fun p => (p.2.extra.getD 0 0).toNat == c.toNat) = o.rows :=
    List.filter_eq_self.2 fun p hp => by rw [hrows p hp]; exact beq_self_eq_true _
  obtain ⟨p, r, hpr⟩ := List.exists_cons_of_ne_nil hne
  have hbase : (p.2.extra.getD 1 0).toNat = base.toNat := by rw [hrows p (hpr ▸ List.mem_cons_self)]; rfl
  simp only [MOp.sums, hkeys, List.flatMap_cons, List.flatMap_nil, List.append_nil, hall]
  simp only [hpr, hbase, hr]

theorem stageResults_hold : stageResults := by
  refine ⟨buckets_are_presenters, fun o m d a roll rb sS sL off j b p ho => mapWords_lookup ho, fun o m b => repOf_first o b,
    ?largest, ?rows, ?checks, fun s f o => ⟨fun m d roll a rb sS sL off => fetch_sgbkt s f, fun mean roll a sS gm => fetch_sgsum s f⟩,
    fun o j p w r hnd hp => ⟨wordsOf_eq hnd hp, rawOf_eq hnd hp⟩, fun f o m d a roll rb sS sL off p r h ho => bucketWrites_head? ho,
    fun o i hi hnd hset => leaders_bit hi hnd fun p hp => (hset p hp).1, ?masks, ?sums⟩
  case largest =>
    intro o b p h norm
    obtain ⟨hmem, hbest⟩ := maxNormOf_spec h
    have hbest : ∀ q ∈ b, ¬ ((norm p = .nan ∧ norm q ≠ .nan) ∨ (norm p).lt (norm q) = true) := fun q hq =>
      mt outranks_iff.2 (hbest q hq)
    exact ⟨repOf_maxnorm h, hmem, fun q hq => Bool.eq_false_iff.2 fun hlt => hbest q hq (.inr hlt),
      fun hnan q hq => by_contra fun hne => hbest q hq (.inl ⟨hnan, hne⟩)⟩
  case rows =>
    intro f o a b h hr sum
    refine ⟨stageRow_first f o b a, ?_, fun p hp => ⟨stageRow_same hp hr, stageRow_converted hp hr⟩⟩
    rw [stageRow_mean o b hr, meanRows_map]
  case checks =>
    intro f o a b
    exact ⟨stageCheck_first f o b a, stageCheck_mean f o b a,
      fun p h hp hr => ⟨stageCheck_same hp hr, stageCheck_converted hp hr⟩⟩
  case masks =>
    intro s f op m d a roll rb sS sL off p th ho hp ht hlt hwf b
    have hs : b.s = SMap.setList 0 sL.val op.leaders (f.bench th.bench).s := putMasks_bench ho hp ht hlt
    rw [hs]
    exact ⟨get_setList_in hwf op.leaders sL.val (i := 0) Nat.zero_lt_two, get_setList_in hwf op.leaders sL.val (i := 1) Nat.one_lt_two⟩
  case sums =>
    intro f mean o c base h hne hrows hr sum
    rw [sums_eq mean hne hrows hr, meanRows_map, sumRows_map]
    cases mean <;> rfl

end Sys2Proof.MatrixAndSignature

namespace Sys2Proof.MatrixAndSignature
open Sys2Proof Sys2Proof.Machine Sys2Proof.PlacesAndClauses

/-! ## The current-slew limiter (R168, R191, R192, R277; log 83) -/

/-! ### Grants, boundaries and fillers -/

/-- The oldest request is granted while the ramp table permits another core (R191). -/
theorem exec_slewGrant {s : State} {cl core tick place : Nat} {r : List (Nat × Nat × Nat)}
    (h : (s.cluster cl).requests = (tick, place, core) :: r) : exec (.slewGrant cl core) s = .next (
      if (s.cluster cl).active < (rampTable (s.cluster cl).ramp).getD (s.cluster cl).rampIdx 0 then
        (s.modCluster cl (fun c => { c with
          requests := r, reached := c.reached.map (fun x => if x = core then 8 else x),
          run := Tab.put core .stream c.run })).endStream (8 * cl + core)
      else s) := by
  show execSlewGrant cl core s = _
  have hmod : s.modCluster cl (fun c => { c.leave core with requests := c.requests.tail, run := Tab.put core .stream c.run }) =
      s.modCluster cl (fun c => { c with
        requests := r, reached := c.reached.map (fun x => if x = core then 8 else x), run := Tab.put core .stream c.run }) := by
    simp only [State.modCluster, Cluster.leave, h, List.tail_cons]
  simp only [execSlewGrant, h, List.head?_cons, Option.map_some, decide_true, Bool.true_and, runEvent, decide_eq_true_eq, hmod]

theorem exec_rampStepBoundary {s : State} {cl : Nat} (h : (s.cluster cl).boundary + 128 ≤ (s.cluster cl).cyc) :
    exec (.rampStepBoundary cl) s = .next (s.modCluster cl (·.stepBoundary false)) := by
  show execRampStepBoundary cl s = _
  rw [execRampStepBoundary, decide_eq_true h, runEvent_true]

theorem exec_fillerEnd {s : State} {cl core since : Nat} (h : (s.cluster cl).runOf core = .filler since)
    (ht : since + 384 ≤ (s.cluster cl).cyc) : exec (.fillerEnd cl core) s = .next (s.modCluster cl (fun c => { c with
      run := if s.coreReady (8 * cl + core) = true then Tab.put core .stream c.run else Tab.del core c.run })) := by
  show execFillerEnd cl core s = _
  simp only [execFillerEnd, h, decide_eq_true ht, runEvent_true]

/-- A step boundary with no new table comes four cycles after the last, and the index rises by one while a request waits. -/
theorem stepBoundary_eq {c : Cluster} (h : c.rampNext = none) : (c.stepBoundary false).boundary = c.boundary + 128 ∧
    (c.waitedBefore = true → (c.stepBoundary false).rampIdx = min (c.rampIdx + 1) ((rampTable c.ramp).length - 1)) := by
  unfold Cluster.stepBoundary
  rw [h]
  exact ⟨rfl, fun hw => by simp only [hw, Bool.not_false, Bool.and_self, if_true]⟩

/-! ### Places in the order of requests -/

/-- Where a member first stands in a list. -/
theorem getElem?_findIdx_of_mem {l : List Nat} {x : Nat} (h : x ∈ l) : l[l.findIdx (· == x)]? = some x := by
  have hlt : l.findIdx (· == x) < l.length := List.findIdx_lt_length_of_exists ⟨x, h, beq_self_eq_true x⟩
  have heq : l[l.findIdx (· == x)] = x := by simpa using List.findIdx_getElem (w := hlt)
  rw [List.getElem?_eq_getElem hlt, heq]

theorem placeOf_reached {c : Cluster} {core : Nat} (h : core ∈ c.reached) :
    c.placeOf core = c.reached.findIdx (· == core) := if_pos (by simpa using h)

theorem placeOf_other {c : Cluster} {core : Nat} (h : core ∉ c.reached) : c.placeOf core = 4096 + core :=
  if_neg (by simpa using h)

theorem goesBefore_iff (tick place : Nat) (p : Nat × Nat × Nat) :
    goesBefore tick place p = true ↔ p.1 < tick ∨ (p.1 = tick ∧ p.2.1 ≤ place) := decide_eq_true_iff

/-- A request takes its place among those that wait (R191). -/
theorem request_requests (c : Cluster) (tick core : Nat) : (c.request tick core).requests =
    c.requests.filter (goesBefore tick (c.placeOf core)) ++ [(tick, c.placeOf core, core)] ++
      c.requests.filter (fun p => !goesBefore tick (c.placeOf core) p) := rfl

/-- A core that is granted leaves the others their places (R277, log 83). -/
theorem leave_placeOf (c : Cluster) {core x : Nat} (hx : x < 8) (hne : x ≠ core) : (c.leave core).placeOf x = c.placeOf x := by
  have hsame : ∀ y, ((if y = core then 8 else y) == x) = (y == x) := fun y => by
    by_cases hy : y = core
    · rw [if_pos hy, beq_false_of_ne (show (8 : Nat) ≠ x by omega), beq_false_of_ne (hy ▸ hne.symm)]
    · rw [if_neg hy]
  have hmem : (c.leave core).reached.contains x = c.reached.contains x := by
    simp only [Cluster.leave, List.contains_eq_any_beq, List.any_map, Function.comp_def, BEq.comm (a := x), hsame]
  have hidx : (c.leave core).reached.findIdx (· == x) = c.reached.findIdx (· == x) := by
    simp only [Cluster.leave, List.findIdx_map, Function.comp_def, hsame]
  rw [Cluster.placeOf, hmem, hidx]
  rfl

/-- The places that are left when a release reaches some cores (R168). -/
def keptPlaces (c : Cluster) (cores : List Nat) : List Nat :=
  if c.requests.isEmpty then (c.reached.map (fun x => if cores.contains x then 8 else x)).filter (· != 8)
  else c.reached.map (fun x => if cores.contains x then 8 else x)

theorem reach_reached (c : Cluster) (cores : List Nat) : (c.reach cores).reached = keptPlaces c cores ++ cores := rfl

theorem mem_keptPlaces {c : Cluster} {cores : List Nat} {x : Nat} (hx : x < 8) :
    x ∈ keptPlaces c cores ↔ x ∈ c.reached ∧ x ∉ cores := by
  have hold : x ∈ c.reached.map (fun x => if cores.contains x then 8 else x) ↔ x ∈ c.reached ∧ x ∉ cores := by
    rw [List.mem_map]
    constructor
    · rintro ⟨y, hy, hyx⟩
      split at hyx
      next => omega
      next hc => exact ⟨hyx ▸ hy, fun hin => hc (by simpa [hyx] using hin)⟩
    · rintro ⟨hr, hc⟩
      exact ⟨x, hr, if_neg (by simpa using hc)⟩
  unfold keptPlaces
  split
  · rw [List.mem_filter, hold, and_iff_left_iff_imp]
    exact fun _ => by simpa using (show x ≠ 8 by omega)
  · exact hold

/-- A core that an earlier release has reached goes before those that a later one reaches. -/
theorem reach_placeOf_lt (c : Cluster) {cores : List Nat} {x y : Nat} (hx : x < 8) (hy : y < 8) (hr : x ∈ c.reached)
    (hxc : x ∉ cores) (hyc : y ∈ cores) : (c.reach cores).placeOf x < (c.reach cores).placeOf y := by
  have hkept : x ∈ keptPlaces c cores := (mem_keptPlaces hx).2 ⟨hr, hxc⟩
  have hgone : y ∉ keptPlaces c cores := fun h => ((mem_keptPlaces hy).1 h).2 hyc
  rw [placeOf_reached (reach_reached c cores ▸ List.mem_append_left _ hkept),
    placeOf_reached (reach_reached c cores ▸ List.mem_append_right _ hyc), reach_reached]
  have hxlt : (keptPlaces c cores).findIdx (· == x) < (keptPlaces c cores).length :=
    List.findIdx_lt_length_of_exists ⟨x, hkept, beq_self_eq_true x⟩
  have hyeq : (keptPlaces c cores).findIdx (· == y) = (keptPlaces c cores).length :=
    List.findIdx_eq_length.2 fun z hz => beq_false_of_ne fun h => hgone (h ▸ hz)
  rw [List.findIdx_append, List.findIdx_append, if_pos hxlt, if_neg (by omega)]
  omega

theorem limiter_holds : limiter := by
  refine ⟨?grant, ?order, fun c core x => leave_placeOf c, fun c cores x y => reach_placeOf_lt c,
    fun s cl => exec_rampStepBoundary, fun c => stepBoundary_eq, fun s cl core since => exec_fillerEnd⟩
  case grant =>
    intro s cl core tick place r h
    exact ⟨fun hlt => (exec_slewGrant h).trans (congrArg _ (if_pos hlt)),
      fun hle => (exec_slewGrant h).trans (congrArg _ (if_neg (Nat.not_lt.2 hle)))⟩
  case order =>
    intro c tick core
    refine ⟨fun h => ?_, placeOf_other, _, _, request_requests c tick core, fun p hp => ?_, fun p hp => ?_⟩
    · rw [placeOf_reached h, getElem?_findIdx_of_mem h]
    · obtain ⟨hp, hb⟩ := List.mem_filter.1 hp
      exact ⟨hp, (goesBefore_iff _ _ p).1 hb⟩
    · obtain ⟨hp, hb⟩ := List.mem_filter.1 hp
      exact ⟨hp, fun h => by simp [(goesBefore_iff _ _ p).2 h] at hb⟩

/-- Settles O52: rounds and completion by what each event asks of its context, the array by the cells that it writes, the
signature stage by its buckets, and the limiter by the places of its requests. -/
theorem matrixArrayEvents : Obligations.MatrixArrayEvents :=
  ⟨matrixRounds_hold, arrayResults_hold, stageResults_hold, limiter_holds⟩

end Sys2Proof.MatrixAndSignature
